-- ==== Sys2Proof/Word.lean ====
section
/-!
DEFINITION. The word types of the VK4 (spec/00 R4, spec/01 R18) and the sparse maps that hold numbered things of
one kind. Nothing here depends on an encoding; bit-field helpers stand in Machine/Bits.lean.
-/

namespace Sys2Proof

/-- A byte of memory. -/
abbrev Byte := BitVec 8

/-- A lane, a tag word, a predicate or a flag word (R18). -/
abbrev W32 := BitVec 32

/-- A 1,024-bit vector as its 32 lanes (R18); lane 0 holds bits 31..0. -/
abbrev Vec := Vector W32 32

/-- The vector whose lane `l` is `f l`. -/
def Vec.ofLanes (f : Nat → W32) : Vec := Vector.ofFn fun i => f i.val

/-- Lane `l` of a vector; lanes past 31 read zero and are never named. -/
def Vec.lane (v : Vec) (l : Nat) : W32 := v.getD l 0

/-- The vector of zeros. -/
def Vec.zero : Vec := Vec.ofLanes fun _ => 0

/-- The same value in every lane. -/
def Vec.splat (x : W32) : Vec := Vec.ofLanes fun _ => x

/-- Things of one kind by number, in rising order of number, without repeats. -/
abbrev Table (α : Type) := List (Nat × α)

/-- The thing numbered `k`, or `d` when none is held. -/
def tget {α : Type} (m : Table α) (k : Nat) (d : α) : α :=
  match m with
  | [] => d
  | (a, x) :: r => if a = k then x else tget r k d

/-- `m` with `x` at number `k`. -/
def tset {α : Type} (m : Table α) (k : Nat) (x : α) : Table α :=
  match m with
  | [] => [(k, x)]
  | (a, y) :: r =>
    if a = k then (k, x) :: r else if k < a then (k, x) :: (a, y) :: r else (a, y) :: tset r k x

/-- `m` with nothing at number `k`. -/
def tdel {α : Type} (m : Table α) (k : Nat) : Table α := m.filter fun e => e.1 != k

end Sys2Proof
end

