-- ==== Sys2Proof/Syntax.lean ====
section
/-!
DEFINITION. The syntax of Frathes revision 1: the operands of rows (spec/07 R99 to R105), the operands of steps
(spec/07 R107 to R112 and the entries of spec/09 and spec/17), and the one inductive `Instr`, with a constructor
for every row of the table of operations and events: 126 row operations, 59 sequencer steps, 104 machine events.
-/

namespace Sys2Proof

/-- Element types (R101), in the order of their codes. -/
inductive Ty where
  | f32 | bf16 | f16 | i32 | i16 | i8 | n32 | n16 | n8
  deriving DecidableEq, Repr

/-- Rounding modes (R47), in the order of their codes. -/
inductive Rm where
  | rne | rtz | rdn | rup
  deriving DecidableEq, Repr

/-- A guard (R100): the predicate and whether it is negated. -/
structure Guard where
  neg : Bool
  p : Fin 8
  deriving DecidableEq, Repr

/-- The special operands (R102, class 4). -/
inductive Special where
  | it | eid | lid | sid | tcl | sb
  deriving DecidableEq, Repr

/-- The local ports of an element (R68). -/
inductive Port where
  | up | dn | w | e
  | pi (n : Fin 4)
  | po (n : Fin 4)
  | tap (n : Fin 4)
  deriving DecidableEq, Repr

/-- The matrix resources a row names (R102, class 7). -/
inductive MatReg where
  | acc (n : Fin 4)
  | cb (n : Fin 2)
  | xa
  | ckr (n : Fin 4)
  | ckc (n : Fin 4)
  deriving DecidableEq, Repr

/-- A queue named by a row (R102, class 6): `down` for the downstream block. -/
structure QName where
  down : Bool
  n : Fin 16
  deriving DecidableEq, Repr

/-- An operand specifier (R102). An unused field is zero, which is `v 0`. -/
inductive Opnd where
  | v (n : Fin 64)
  | x (n : Fin 16)
  | port (p : Port)
  | imm (i : BitVec 6)
  | special (s : Special)
  | pred (n : Fin 8)
  | queue (q : QName)
  | mat (m : MatReg)
  deriving DecidableEq, Repr

/-- A general-format row (R99) without its group and operation. `pro` is the predicate written, when PRO[3] = 1. -/
structure Row where
  guard : Guard
  pro : Option (Fin 8)
  ty : Ty
  dst : Opnd
  sa : Opnd
  sb : Opnd
  sc : Opnd
  rm : Rm
  sat : Bool
  z : Bool
  imm : BitVec 16
  deriving DecidableEq, Repr

/-- A tile-step row (R105) without its group and operation; `nop` is GRD = 0b1000. `rep` is REP minus one. -/
structure TileRow where
  nop : Bool
  qa : QName
  qb : QName
  acb : Fin 4
  win : Fin 4
  ta : Bool
  tb : Bool
  zero : Bool
  ck : Bool
  rep : BitVec 12
  apop : BitVec 8
  bpop : BitVec 8
  pen : BitVec 16
  deriving DecidableEq, Repr

/-- Transition conditions other than never (R109). -/
inductive Cond where
  | always
  | kz (n : Fin 16)
  | knz (n : Fin 16)
  | idle (n : Fin 8)
  | line (n : Fin 16)
  deriving DecidableEq, Repr

/-- The transition of a step (R109): none (XC = 0, XT = 0), or a condition and a target state. -/
inductive Trans where
  | fall
  | goto (c : Cond) (target : BitVec 12)
  deriving DecidableEq, Repr

/-- The second word of a long step (R108) without EXT, which every entry leaves zero: START, and the virtual
stripe when BASE = 1. -/
structure LongForm where
  start : BitVec 32
  vs : Option (BitVec 10)
  deriving DecidableEq, Repr

/-- Scopes of memory and synchronisation (R28), in the order of their codes. -/
inductive Scope where
  | ring | die | pkg | pod | sys
  deriving DecidableEq, Repr

/-- A counter or an address register named by a step. -/
structure SReg where
  isA : Bool
  n : Fin 16
  deriving DecidableEq, Repr

/-- The second operand of a counter step (R152): a counter or a signed 29-bit immediate. -/
inductive KOperand where
  | reg (b : Fin 16)
  | imm (i : BitVec 29)
  deriving DecidableEq, Repr

/-- The source of `kmov` (R154). -/
inductive KSrc where
  | k (a : Fin 16)
  | a (a : Fin 16)
  | tc | wdi | wdp
  | tok (t : Fin 8)
  deriving DecidableEq, Repr

/-- The access of an `ald` (R152, SZ): `.w`, `.wz`, `.d`. -/
inductive AccessSize where
  | w | wz | d
  deriving DecidableEq, Repr

/-- The kinds of fence (R303). -/
inductive FenceKind where
  | rel | acq | full
  deriving DecidableEq, Repr

/-- The operations of `atom` (R304), in the order of their codes. -/
inductive AtomOp where
  | add | smin | smax | umin | umax | and | or | xor | exch | cas | fadd
  deriving DecidableEq, Repr

/-- The sources of `tick` (R319). -/
inductive TickSrc where
  | reference | watchdog | remaining
  deriving DecidableEq, Repr

/-- The life-cycle states (R397). -/
inductive LifeCycle where
  | blank | provisioned | deployed | returned
  deriving DecidableEq, Repr

/-- A replay of a sampled wave (R367): the ring it ran on and the signature that it formed there. -/
structure AuditFinding where
  ring : Nat
  sig : BitVec 64
  deriving DecidableEq, Repr

/-- An uncorrectable error that is met (R315, R354): poisoned data by its class, and errors of the memories beside the data: a word of the
state table, a record in the configuration cache, an object in the barrier unit of the ring. -/
inductive ErrorMet where
  | data (cls : Fin 16)
  | stateSlot (i : Nat)
  | record (vs : Nat)
  | barrier (n : Nat)
  deriving DecidableEq, Repr

/-- What a scrubber finds in the line or word that it reads (R356): nothing, an error that it corrects, for HBM with its bank, row and
column, or an uncorrectable one. -/
inductive ScrubFound where
  | clean
  | corrected (bank row col : Nat)
  | uncorrectable
  deriving DecidableEq, Repr

/-- Where a corrected error lies (R357): classifier tables 0 to 7 are the HBM stacks, 8 + 16 g + j is block j of ring g. -/
structure ErrorSite where
  table : Nat
  bank : Nat
  row : Nat
  col : Nat
  deriving DecidableEq, Repr

/-- Who writes a register (R377): Eosen, the host of a function, or the side-band port. -/
inductive Writer where
  | eosen
  | host (f : Nat)
  | sideband
  deriving DecidableEq, Repr

/-- Registers whose writes have no operation of their own (`registerWrite`). -/
inductive RegName where
  | ringHoldlim (g : Nat) | ringRetire (g : Nat) | ringCapmask (g : Nat) | ringDbgctl (g : Nat)
  | rasInj (g : Nat) | rasInjt (g : Nat) | rasCellthr | rasClassifier (n : Nat) | rasBase | rasTail
  | dieAstbase (d : Nat) | dieFbbase (d : Nat) | dieFbtail (d : Nat) | dieFaulthold (d : Nat) | dieScrubint (d : Nat)
  | hubSqcfg (q : Nat) | hubCqcfg (q : Nat) | hubSqhead (q : Nat) | hubSqown (q : Nat)
  | hubHevtail (f : Nat) | hubPairallot (p : Nat) | hubApbase (f : Nat) | hubKrt (n : Nat) | hubNode
  | hubRnpool | hubGtbase | hubTthrot | hubAudbase | hubGroupHeader (n : Nat)
  | readOnly
  deriving DecidableEq, Repr

/-- The status registers that a function reads in its register window (R377): those of spec/23 that report the state of the function, the
Kamva ports, the caps, the pairs and the boot. `other` is any other place of the window. -/
inductive StatusReg where
  | pstat (f : Nat) | kstat (p : Nat) | pcapst | pairf (p : Nat) | hevhead (f : Nat) | ready
  | other
  deriving DecidableEq, Repr

/-- An access that a function makes through its BARs (R377): a write or a read of its aperture, or a read of its register window. -/
inductive HostAccess where
  | apertureWrite
  | apertureRead
  | window (r : StatusReg)
  deriving DecidableEq, Repr

/-- An operation of another package on a barrier object of this one (R293 to R295): an arrival, an expectation, or bytes counted,
with whether they were written poisoned; `outb` is OUTB and otherwise INB. -/
inductive BarrierOp where
  | arrive
  | expect (n : BitVec 36) (outb : Bool)
  | count (bytes : Nat) (outb poison : Bool)
  deriving DecidableEq, Repr

/-- A request that another package makes of this one (R387): a line of device memory or of a ring's scratchpad, or an operation on
the barrier object whose name stands in `addr`. -/
structure InboundRequest where
  write : Bool
  scratchpad : Option Nat
  asid : BitVec 10
  addr : Nat
  data : List (BitVec 8)
  barrier : Option BarrierOp
  deriving DecidableEq, Repr

/-- The head of a segment that another package sends to a bridge of this one (R83, R264): its 8-byte header, the bridge that sends it
by package node, global ring and stream, and the address space it carries. -/
structure SegmentHead where
  bits : BitVec 64
  node : Nat
  ring : Nat
  stream : Nat
  asid : BitVec 10
  deriving DecidableEq, Repr

/-- Every operation and event of the part (spec/opcode_table.json). The first group are row operations (R106), the
second sequencer steps (R111), the third the events of spec/95, whose arguments say which unit they befall and what
the outside world supplies. -/
inductive Instr where
  | rowNop (r : Row)
  | sig (r : Row)
  | rowTrap (r : Row)
  | rowBrk (r : Row)
  | flagrd (r : Row)
  | fmtld (r : Row)
  | tagchk (r : Row)
  | iter (r : Row)
  | eid (r : Row)
  | lid (r : Row)
  | sid (r : Row)
  | tcrd (r : Row)
  | imov (r : Row)
  | ilui (r : Row)
  | iadd (r : Row)
  | isub (r : Row)
  | imul (r : Row)
  | imulhi (r : Row)
  | imad (r : Row)
  | iaddsat (r : Row)
  | isubsat (r : Row)
  | iabs (r : Row)
  | ineg (r : Row)
  | imin (r : Row)
  | imax (r : Row)
  | iand (r : Row)
  | ior (r : Row)
  | ixor (r : Row)
  | inot (r : Row)
  | ishl (r : Row)
  | ishr (r : Row)
  | isra (r : Row)
  | irot (r : Row)
  | iclz (r : Row)
  | ipop (r : Row)
  | ibfx (r : Row)
  | ibfi (r : Row)
  | icmpEq (r : Row)
  | icmpNe (r : Row)
  | icmpLt (r : Row)
  | icmpLe (r : Row)
  | icmpGt (r : Row)
  | icmpGe (r : Row)
  | fadd (r : Row)
  | fsub (r : Row)
  | fmul (r : Row)
  | ffma (r : Row)
  | ffms (r : Row)
  | fnfma (r : Row)
  | fnfms (r : Row)
  | fmin (r : Row)
  | fmax (r : Row)
  | fabs (r : Row)
  | fneg (r : Row)
  | fcopysign (r : Row)
  | fscale (r : Row)
  | fround (r : Row)
  | fclass (r : Row)
  | fcmpEq (r : Row)
  | fcmpNe (r : Row)
  | fcmpLt (r : Row)
  | fcmpLe (r : Row)
  | fcmpGt (r : Row)
  | fcmpGe (r : Row)
  | fcmpUn (r : Row)
  | fcmpOrd (r : Row)
  | frcp (r : Row)
  | frsq (r : Row)
  | fsqrt (r : Row)
  | fdiv (r : Row)
  | fexp2 (r : Row)
  | flog2 (r : Row)
  | ftanh (r : Row)
  | cvt (r : Row)
  | packF32 (r : Row)
  | packN8 (r : Row)
  | unpackF32 (r : Row)
  | unpackN8 (r : Row)
  | quant (r : Row)
  | fexp8 (r : Row)
  | itof (r : Row)
  | ftoi (r : Row)
  | pselTag (r : Row)
  | pselPred (r : Row)
  | pand (r : Row)
  | por (r : Row)
  | pxor (r : Row)
  | pnot (r : Row)
  | pset (r : Row)
  | pmovPred (r : Row)
  | pmovVecToPred (r : Row)
  | pmovPredToVec (r : Row)
  | pany (r : Row)
  | pall (r : Row)
  | lrot (r : Row)
  | lbcast (r : Row)
  | lshuf (r : Row)
  | lredAdd (r : Row)
  | lredMax (r : Row)
  | lredMin (r : Row)
  | lscanAdd (r : Row)
  | lzip (r : Row)
  | lunzip (r : Row)
  | sld (r : Row)
  | sst (r : Row)
  | gadr (r : Row)
  | qpop (r : Row)
  | qpeek (r : Row)
  | qpush (r : Row)
  | qtx (r : Row)
  | mmaBf16 (r : TileRow)
  | mmaF16 (r : TileRow)
  | mmaF8 (r : TileRow)
  | mmc (r : TileRow)
  | mmcCh (r : TileRow)
  | accz (r : Row)
  | accrd (r : Row)
  | accwr (r : Row)
  | xcvt (r : Row)
  | cmerge (r : Row)
  | xmerge (r : Row)
  | xld (r : Row)
  | xst (r : Row)
  | mchk (r : Row)
  | mbnd (r : Row)
  | xcfg (r : Row)
  | stepNop (t : Trans)
  | go (target : BitVec 12)
  | goIndirect (a : Fin 16)
  | call (target : BitVec 12)
  | ret
  | endStep (status : BitVec 16)
  | waitt (mask : BitVec 8) (t : Trans)
  | waits (mask : BitVec 16) (all : Bool) (t : Trans)
  | stepTrap (code : BitVec 16)
  | yield (t : Trans)
  | sys (svc : BitVec 16) (t : Trans)
  | stepBrk (code : BitVec 16) (t : Trans)
  | kset (d : Fin 16) (hi : Bool) (imm : BitVec 32) (t : Trans)
  | kmov (d : Fin 16) (src : KSrc) (t : Trans)
  | kadd (d : Fin 16) (a : Fin 16) (y : KOperand) (t : Trans)
  | ksub (d : Fin 16) (a : Fin 16) (y : KOperand) (t : Trans)
  | kmul (d : Fin 16) (a : Fin 16) (y : KOperand) (t : Trans)
  | kand (d : Fin 16) (a : Fin 16) (y : KOperand) (t : Trans)
  | kor (d : Fin 16) (a : Fin 16) (y : KOperand) (t : Trans)
  | kxor (d : Fin 16) (a : Fin 16) (y : KOperand) (t : Trans)
  | kshl (d : Fin 16) (a : Fin 16) (y : KOperand) (t : Trans)
  | kshr (d : Fin 16) (a : Fin 16) (y : KOperand) (t : Trans)
  | kmin (d : Fin 16) (a : Fin 16) (y : KOperand) (t : Trans)
  | kmax (d : Fin 16) (a : Fin 16) (y : KOperand) (t : Trans)
  | kdec (d : Fin 16) (t : Trans)
  | aset (d : Fin 16) (hi : Bool) (imm : BitVec 32) (t : Trans)
  | amov (d : Fin 16) (src : SReg) (t : Trans)
  | aadd (d : Fin 16) (a : Fin 16) (y : KOperand) (t : Trans)
  | amad (d : Fin 16) (a : Fin 16) (b : Fin 16) (imm : BitVec 24) (t : Trans)
  | ald (d : SReg) (a : Fin 16) (sz : AccessSize) (off : BitVec 20) (t : Trans)
  | ast (b : SReg) (a : Fin 16) (wide : Bool) (off : BitVec 20) (t : Trans)
  | vpl (vs : BitVec 10) (cm1 : BitVec 6) (t : Trans)
  | run (first : BitVec 10) (nvm1 : BitVec 10) (kw : Fin 16) (kb : Option (Fin 16)) (ksel : Fin 16) (l : Option LongForm) (t : Trans)
  | park (wait : Bool) (t : Trans)
  | fmtset (n : Fin 8) (desc : BitVec 24) (t : Trans)
  | qset (q : Fin 16) (kb : Fin 16) (szm1 : BitVec 14) (ent : BitVec 11) (l : Option LongForm) (t : Trans)
  | sopen (n : Fin 32) (vs : BitVec 10) (out : Bool) (q : Fin 16) (a : Fin 16) (l : Option LongForm) (t : Trans)
  | sclose (n : Fin 32) (abort : Bool) (wait : Bool) (l : Option LongForm) (t : Trans)
  | sbar (mask : BitVec 32) (scope : Scope) (l : Option LongForm) (t : Trans)
  | spos (d : Fin 16) (n : Fin 32) (t : Trans)
  | copy (a : Fin 16) (l : Option LongForm) (t : Trans)
  | copyc (n : Fin 16) (a : Fin 16) (l : Option LongForm) (t : Trans)
  | copycResume (n : Fin 16) (l : Option LongForm) (t : Trans)
  | binit (b : Fin 16) (c : Fin 16) (scope : Scope) (t : Trans)
  | barr (b : Fin 16) (t : Trans)
  | bexp (b : Fin 16) (n : Fin 16) (outb : Bool) (t : Trans)
  | bwait (b : Fin 16) (g : Fin 16) (t : Trans)
  | hpost (q : Fin 16) (src : SReg) (t : Trans)
  | htake (d : SReg) (q : Fin 16) (t : Trans)
  | trig (t : Trans)
  | fence (kind : FenceKind) (scope : Scope) (t : Trans)
  | atom (op : AtomOp) (wide : Bool) (d : SReg) (a : Fin 16) (b : SReg) (c : SReg) (off : BitVec 14) (t : Trans)
  | coll (a : Fin 16) (l : Option LongForm) (t : Trans)
  | cnopen (region : BitVec 8) (hnd : BitVec 12) (m : Fin 16) (t : Trans)
  | cnclose (region : BitVec 8) (t : Trans)
  | tick (d : Fin 16) (src : TickSrc) (t : Trans)
  | capq (d : Fin 16) (sel : BitVec 8) (t : Trans)
  | perf (d : Fin 16) (ev : Fin 16) (clr : Bool) (t : Trans)
  | flagsq (d : Fin 16) (clr : Bool) (t : Trans)
  | stepWaitComplete (g : Nat)
  | startCommandBegin (g : Nat)
  | startCycleResolved (g : Nat) (n : Nat)
  | instanceEntry (g : Nat) (ps : Nat) (col : Nat)
  | hoist (g : Nat)
  | configRecordFetch (g : Nat) (vs : Nat)
  | strike (g : Nat) (ps : Nat)
  | stripeFree (g : Nat) (h : Nat)
  | holdResume (g : Nat)
  | holdLimitFault (g : Nat)
  | matrixGate (g : Nat) (ps : Nat) (col : Nat)
  | streamVisit (g : Nat) (n : Nat)
  | bridgeSegmentReceive (g : Nat) (n : Nat) (header : SegmentHead) (words : List (BitVec 1024))
  | staleRefusalReplay (req : Nat)
  | faultholdExpiry (g : Nat) (issuer : Nat)
  | unservicedFaultEnd (die : Nat) (ctx : BitVec 16)
  | copyChannelRecordFetch (g : Nat) (n : Nat)
  | copyComplete (id : Nat)
  | barrierByteDecrement (id : Nat) (bytes : Nat) (poisoned : Bool)
  | barrierArrival (g : Nat)
  | collectiveStart (group : Nat)
  | collectiveComplete (group : Nat)
  | poisonConsumption (g : Nat) (met : ErrorMet) (addr : BitVec 64)
  | containmentHandlerEntry (g : Nat)
  | pairFrequencyChange (pair : Nat) (mhz : BitVec 16)
  | pairBalance (pair : Nat) (amps0 : Nat) (amps1 : Nat)
  | droopDetect (g : Nat) (cycles : Nat)
  | watchdogExpiry (g : Nat)
  | quantumExpiry (g : Nat)
  | contextEnd (g : Nat)
  | completionRecordDeferredWrite (q : Nat)
  | submissionDoorbell (f : Nat) (q : Nat) (tail : BitVec 16)
  | completionQueueHeadWrite (f : Nat) (q : Nat) (head : BitVec 16)
  | taskEntry (q : Nat)
  | queueFence (task : Nat)
  | kill (task : Nat)
  | dependenceRelease (task : Nat) (dep : Nat)
  | triggerRelease (task : Nat) (dep : Nat)
  | bindRecordWrite (g : Nat) (rec : BitVec 512)
  | slotRelease (g : Nat)
  | gangDispatch (task : Nat)
  | halyardSave (g : Nat)
  | halyardSaveComplete (g : Nat)
  | drain (g : Nat)
  | drainQuiescence (g : Nat)
  | faultSave (g : Nat)
  | halyardRestoreComplete (g : Nat)
  | debugResume (g : Nat)
  | debugKill (g : Nat)
  | shootDown (value : BitVec 64)
  | shootDownComplete
  | generationBump (value : BitVec 64)
  | generationBumpComplete
  | faultBufferFlush (die : Nat)
  | flushComplete (die : Nat)
  | fbstatOvfClear (die : Nat)
  | handoffQueueConfig (n : Nat) (value : BitVec 64)
  | auditControlWrite (value : BitVec 64)
  | auditReplay (slot : Nat) (p : AuditFinding) (q : AuditFinding)
  | injectionFire (g : Nat)
  | correctedError (bank : ErrorSite)
  | patrolScrub (die : Nat) (found : ScrubFound)
  | postPackageRepair (die : Nat) (value : BitVec 64)
  | pprComplete (die : Nat) (fail : Bool)
  | capWrite (src : Nat) (value : BitVec 16)
  | pstatClear (f : Nat)
  | hostEventBaseWrite (f : Nat) (value : BitVec 64)
  | apertureAccess (f : Nat) (offset : Nat) (write : HostAccess) (data : List (BitVec 8))
  | registerWrite (who : Writer) (reg : RegName) (value : BitVec 64)
  | sysPing (g : Nat)
  | sysHostev (g : Nat)
  | sysSetpri (g : Nat)
  | sysThandler (g : Nat)
  | sysQuantum (g : Nat)
  | rdsticky
  | clrsticky
  | setcap (value : BitVec 16)
  | setfloor (i : Nat) (value : BitVec 16)
  | reset
  | recover (image : List (BitVec 8))
  | attest (nonce : List (BitVec 8))
  | freeze
  | readout (g : Nat)
  | injen (on : Bool)
  | lcstate (target : LifeCycle) (token : List (BitVec 8))
  | unlock (token : List (BitVec 8))
  | pcfg (value : BitVec 64)
  | pldmSensorRead (sensor : Nat)
  | pldmFirmwareUpdate (image : List (BitVec 8))
  | coldReset
  | eosenFatalError
  | functionLevelReset (f : Nat)
  | linkDown (f : Nat)
  | linkRetrain (f : Nat)
  | kamvaFlitReplay (port : Nat)
  | thermalThrottle (die : Nat) (celsius : Nat) (mhz : BitVec 16)
  | thermalTrip (die : Nat) (sensor : Nat) (code : Nat)
  | memoryAccessPerformed (req : Nat) (scope : Scope)
  | kamvaLinkDown (port : Nat)
  | kamvaLinkUp (port : Nat)
  | kamvaInboundRequest (req : InboundRequest)
  | mainRailsDown
  | auditRingTimeout (slot : Nat)
  | yieldDecision (g : Nat)
  deriving DecidableEq, Repr

end Sys2Proof
end

