-- ==== Sys2Proof/Machine/Numbers.lean ====
section
/-!
DEFINITION. Exact arithmetic and its one rounding (spec/03): real values as `Num`, the functions `decode`, `exact`,
`round_fmt` and `encode` of R52 and R53, and the elementary functions of R55 and R56.
-/

namespace Sys2Proof.Machine

open Sys2Proof

/-- A real value, or NaN, or an infinity (R52). `fin neg n e st` has magnitude `n * 2^e`, or, when `st`, some number
strictly between `n * 2^e` and `(n + 1) * 2^e`; `n = 0` without `st` is a signed zero. -/
inductive Num where
  | nan
  | inf (neg : Bool)
  | fin (neg : Bool) (n : Nat) (e : Int) (st : Bool)
  deriving DecidableEq, Repr

/-- A code's format: a descriptor's fields (R39), with `e = 0` a scaled integer. -/
structure Fmt where
  s : Bool
  e : Nat
  m : Nat
  policy : Nat
  bias : Int
  deriving DecidableEq, Repr

/-- `f32` (R35). -/
def Fmt.f32 : Fmt := ⟨true, 8, 23, 0, 127⟩
/-- `bf16` (R35). -/
def Fmt.bf16 : Fmt := ⟨true, 8, 7, 0, 127⟩
/-- `f16` (R35). -/
def Fmt.f16 : Fmt := ⟨true, 5, 10, 0, 15⟩

/-- The format of a float type; integer types read as `f32` and are never asked. -/
def fmtOfTy : Ty → Fmt
  | .bf16 => Fmt.bf16
  | .f16 => Fmt.f16
  | _ => Fmt.f32

/-- The format of a descriptor (R39). -/
def fmtOfDesc (d : BitVec 24) : Fmt :=
  ⟨d.getLsbD 23, (d.extractLsb' 20 3).toNat, (d.extractLsb' 17 3).toNat, (d.extractLsb' 15 2).toNat,
    (d.extractLsb' 7 8).toInt⟩

/-- Width of a code in bits. -/
def Fmt.width (f : Fmt) : Nat := (if f.s then 1 else 0) + f.e + f.m

/-- Bits of a number in binary, 0 for 0. -/
def bitLen (n : Nat) : Nat := if n = 0 then 0 else n.log2 + 1

/-- `2 ^ k`. -/
def pow2 (k : Nat) : Nat := 1 <<< k

/-- Flag bits (R50). -/
def flagNV : W32 := 1
def flagDZ : W32 := 2
def flagOF : W32 := 4
def flagUF : W32 := 8
def flagNX : W32 := 16
def flagSAT : W32 := 32
def flagINX : W32 := 64
def flagXOV : W32 := 128
def flagSUS : W32 := 256

/-- Whether a format has a NaN (R42). -/
def Fmt.hasNan (f : Fmt) : Bool := f.policy == 0 || f.policy == 1
/-- Whether a format has infinities (R42). -/
def Fmt.hasInf (f : Fmt) : Bool := f.policy == 0

/-- The canonical NaN code (R42, R48). -/
def Fmt.nanCode (f : Fmt) : Nat :=
  if f.policy = 0 then (pow2 f.e - 1) * pow2 f.m + pow2 (f.m - 1) else pow2 (f.e + f.m) - 1

/-- The code of the largest finite magnitude (R42), sign clear. -/
def Fmt.largestCode (f : Fmt) : Nat :=
  if f.policy = 0 then (pow2 f.e - 2) * pow2 f.m + (pow2 f.m - 1)
  else if f.policy = 1 then
    (if f.m = 0 then pow2 f.e - 2 else (pow2 f.e - 1) * pow2 f.m + (pow2 f.m - 2))
  else pow2 (f.e + f.m) - 1

/-- The sign bit of a code in place. -/
def Fmt.signBit (f : Fmt) (neg : Bool) : Nat := if f.s && neg then pow2 (f.e + f.m) else 0

/-- Magnitude of a finite code without sign (R41): significand and exponent. -/
def Fmt.magnitude (f : Fmt) (c : Nat) : Nat × Int :=
  let ef := c / pow2 f.m
  let mf := c % pow2 f.m
  if f.e = 0 then (c % pow2 f.m, -f.bias)
  else if ef = 0 then (mf, 1 - f.bias - f.m)
  else (pow2 f.m + mf, (ef : Int) - f.bias - f.m)

/-- `decode(c, f)` (R41, R42, R52). -/
def decodeCode (f : Fmt) (c : Nat) : Num :=
  let neg := f.s && (c / pow2 (f.e + f.m)) % 2 == 1
  let mag := c % pow2 (f.e + f.m)
  let ef := mag / pow2 f.m
  let mf := mag % pow2 f.m
  if f.policy = 0 ∧ ef = pow2 f.e - 1 then (if mf = 0 then .inf neg else .nan)
  else if f.policy = 1 ∧ mag = pow2 (f.e + f.m) - 1 then .nan
  else .fin neg (f.magnitude mag).1 (f.magnitude mag).2 false

/-- The largest finite magnitude (R42). -/
def Fmt.largest (f : Fmt) : Nat × Int := f.magnitude f.largestCode

/-- Whether `n1 * 2^e1 < n2 * 2^e2`. -/
def magLt (n1 : Nat) (e1 : Int) (n2 : Nat) (e2 : Int) : Bool :=
  if n2 = 0 then false
  else if n1 = 0 then true
  else
    let t1 := e1 + bitLen n1
    let t2 := e2 + bitLen n2
    if t1 < t2 then true else if t2 < t1 then false
    else if e1 ≤ e2 then n1 < n2 * pow2 (e2 - e1).toNat else n1 * pow2 (e1 - e2).toNat < n2

/-- A magnitude rounded to a multiple of `2^q` under a mode (R47): the multiple and whether it was inexact. -/
def roundAt (mode : Rm) (neg : Bool) (n : Nat) (e : Int) (st : Bool) (q : Int) : Nat × Bool :=
  let up (lo : Nat) (cmpHalf : Ordering) : Nat :=
    match mode with
    | .rne => match cmpHalf with
      | .lt => lo
      | .eq => if lo % 2 = 0 then lo else lo + 1
      | .gt => lo + 1
    | .rtz => lo
    | .rdn => if neg then lo + 1 else lo
    | .rup => if neg then lo else lo + 1
  if q ≤ e then
    let m := n * pow2 (e - q).toNat
    if st then (up m .lt, true) else (m, false)
  else if e + bitLen n < q then
    if n = 0 ∧ !st then (0, false) else (up 0 .lt, true)
  else
    let d := (q - e).toNat
    let lo := n >>> d
    let rem := n % pow2 d
    let half := pow2 (d - 1)
    if rem = 0 ∧ !st then (lo, false)
    else (up lo (if rem < half then .lt else if rem = half ∧ !st then .eq else .gt), true)

/-- The exponent of the grid step of `f` at magnitude `n * 2^e` (R53): unbounded above, subnormal spacing below. -/
def Fmt.gridExp (f : Fmt) (n : Nat) (e : Int) : Int :=
  if f.e = 0 then -f.bias else max (e + bitLen n - 1 - f.m) (1 - f.bias - f.m)

/-- The code of a magnitude `m * 2^q` that `f` represents (R52). -/
def Fmt.encodeMag (f : Fmt) (m : Nat) (q : Int) : Nat :=
  if m = 0 then 0
  else if f.e = 0 then m
  else
    let m' := if m = pow2 (f.m + 1) then pow2 f.m else m
    let q' := if m = pow2 (f.m + 1) then q + 1 else q
    if m' < pow2 f.m then m' else (q' + f.bias + f.m).toNat * pow2 f.m + (m' - pow2 f.m)

/-- Whether a mode rounds magnitudes of this sign toward zero (R53). -/
def towardZeroMode (mode : Rm) (neg : Bool) : Bool :=
  match mode with
  | .rne => false
  | .rtz => true
  | .rdn => !neg
  | .rup => neg

/-- `round_fmt(x, f, mode, sat)` for a float or narrow format (R53): the code and the flags. -/
def roundFmt (f : Fmt) (x : Num) (mode : Rm) (sat : Bool) : Nat × W32 :=
  match x with
  | .nan => if f.hasNan then (f.nanCode, 0) else (0, flagNV)
  | .inf neg =>
    if !f.s && neg then (0, if sat then flagSAT else flagNV)
    else if sat || (!f.hasInf && !f.hasNan) then (f.signBit neg + f.largestCode, flagSAT)
    else if f.hasInf then (f.signBit neg + (pow2 f.e - 1) * pow2 f.m, 0)
    else (f.nanCode, flagNV)
  | .fin neg n e st =>
    if n = 0 ∧ !st then (f.signBit neg, 0)
    else if !f.s && neg then (0, if sat then flagSAT else flagNV)
    else
      let q := f.gridExp n e
      let (m, inexact) := roundAt mode neg n e st q
      let nx : W32 := if inexact then flagNX else 0
      let (ln, le) := f.largest
      if magLt ln le m q then
        if sat || (!f.hasInf && !f.hasNan) then (f.signBit neg + f.largestCode, nx ||| flagSAT)
        else if towardZeroMode mode neg then (f.signBit neg + f.largestCode, nx ||| flagOF)
        else if f.hasInf then (f.signBit neg + (pow2 f.e - 1) * pow2 f.m, nx ||| flagOF)
        else (f.nanCode, nx ||| flagOF)
      else
        let uf : W32 := if f.e ≠ 0 ∧ m ≠ 0 ∧ inexact ∧ magLt m q 1 (1 - f.bias) then flagUF else 0
        (f.signBit neg + f.encodeMag m q, nx ||| uf)

/-- `round_fmt` into an integer type of `w` bits (R53): the pattern and the flags. -/
def roundInt (w : Nat) (signed : Bool) (x : Num) (mode : Rm) : Nat × W32 :=
  let hi : Int := if signed then (pow2 (w - 1) : Int) - 1 else (pow2 w : Int) - 1
  let lo : Int := if signed then -(pow2 (w - 1) : Int) else 0
  let pat (i : Int) : Nat := (i % (pow2 w : Int)).toNat
  match x with
  | .nan => (0, flagNV)
  | .inf neg => (if !signed && neg then (0, flagNV) else (pat (if neg then lo else hi), flagNV))
  | .fin neg n e st =>
    if n = 0 ∧ !st then (0, 0)
    else if !signed && neg then (0, flagNV)
    else if 64 < e + bitLen n then (pat (if neg then lo else hi), flagNV)
    else
      let (m, inexact) := roundAt mode neg n e st 0
      let y : Int := if neg then -(m : Int) else m
      let nx : W32 := if inexact then flagNX else 0
      if hi < y then (pat hi, nx ||| flagNV) else if y < lo then (pat lo, nx ||| flagNV) else (pat y, nx)

/-- Negation. -/
def Num.neg : Num → Num
  | .nan => .nan
  | .inf b => .inf !b
  | .fin b n e st => .fin (!b) n e st

/-- Whether a value is negative, zeros by their sign bit. -/
def Num.isNeg : Num → Bool
  | .nan => false
  | .inf b => b
  | .fin b _ _ _ => b

/-- Whether a value is a zero. -/
def Num.isZero : Num → Bool
  | .fin _ n _ st => n == 0 && !st
  | _ => false

/-- The product of two exact values, and NV for 0 times infinity (R49, R52). -/
def mulNum (a b : Num) : Num × W32 :=
  match a, b with
  | .nan, _ => (.nan, 0)
  | _, .nan => (.nan, 0)
  | .inf s, .inf t => (.inf (s != t), 0)
  | .inf s, .fin t n _ _ => if n = 0 then (.nan, flagNV) else (.inf (s != t), 0)
  | .fin s n _ _, .inf t => if n = 0 then (.nan, flagNV) else (.inf (s != t), 0)
  | .fin s n e _, .fin t m f _ => (.fin (s != t) (n * m) (e + f) false, 0)

/-- A value times `2^k`. -/
def Num.shift (x : Num) (k : Int) : Num :=
  match x with
  | .fin s n e st => .fin s n (e + k) st
  | y => y

/-- The signed integer that a finite value is in units of `2^q`, for `q` at most its exponent. -/
def Num.unitsAt (q : Int) : Num → Int
  | .fin neg n e _ => let u : Int := (n * pow2 (e - q).toNat : Nat); if neg then -u else u
  | _ => 0

/-- The least exponent of finite values. -/
def minExp : List Num → Int → Int
  | [], d => d
  | .fin _ _ e _ :: r, d => minExp r (min e d)
  | _ :: r, d => minExp r d

/-- The exact sum of values (R52): NaN operands and opposite infinities give NaN, the latter with NV (R49); a zero sum
is -0 when every term is -0, and when terms of both signs cancel in RDN (R53). -/
def sumNum (mode : Rm) (xs : List Num) : Num × W32 :=
  let pinf := xs.any (· == .inf false)
  let ninf := xs.any (· == .inf true)
  if xs.any (· == .nan) then (.nan, 0)
  else if pinf && ninf then (.nan, flagNV)
  else if pinf then (.inf false, 0)
  else if ninf then (.inf true, 0)
  else
    let q := minExp xs 4096
    let t := xs.foldl (fun acc x => acc + x.unitsAt q) (0 : Int)
    if t = 0 then
      let neg := if xs.all Num.isNeg && !xs.isEmpty then true
        else if xs.all (fun x => !x.isNeg) then false
        else mode == .rdn
      (.fin neg 0 0 false, 0)
    else (.fin (t < 0) t.natAbs q false, 0)

/-- Order of two values that are not NaN, with the two zeros equal (R36). -/
def cmpNum (a b : Num) : Ordering :=
  match a, b with
  | .inf true, .inf true => .eq
  | .inf false, .inf false => .eq
  | .inf true, _ => .lt
  | _, .inf true => .gt
  | .inf false, _ => .gt
  | _, .inf false => .lt
  | .nan, _ => .eq
  | _, .nan => .eq
  | x@(.fin _ _ e _), y@(.fin _ _ f _) =>
    let q := min e f
    compare (x.unitsAt q) (y.unitsAt q)

/-- Floor of the square root, by bits from `k` down. -/
def isqrtFrom (n : Nat) : Nat → Nat → Nat
  | 0, r => r
  | k + 1, r =>
    let r' := r + pow2 k
    if r' * r' ≤ n then isqrtFrom n k r' else isqrtFrom n k r

/-- Floor of the square root. -/
def isqrt (n : Nat) : Nat := isqrtFrom n (bitLen n / 2 + 1) 0

/-- The exact quotient of two values with its special cases (R49, R56). -/
def divNum (a b : Num) : Num × W32 :=
  match a, b with
  | .nan, _ => (.nan, 0)
  | _, .nan => (.nan, 0)
  | .inf _, .inf _ => (.nan, flagNV)
  | .inf s, .fin t _ _ _ => (.inf (s != t), 0)
  | .fin s _ _ _, .inf t => (.fin (s != t) 0 0 false, 0)
  | .fin s n e _, .fin t m f _ =>
    if m = 0 then (if n = 0 then (.nan, flagNV) else (.inf (s != t), flagDZ))
    else if n = 0 then (.fin (s != t) 0 0 false, 0)
    else
      let k := bitLen m + 64
      (.fin (s != t) ((n * pow2 k) / m) (e - f - k) ((n * pow2 k) % m != 0), 0)

/-- The exact reciprocal (R56). -/
def rcpNum (a : Num) : Num × W32 := divNum (.fin false 1 0 false) a

/-- The exact square root (R56). -/
def sqrtNum (a : Num) : Num × W32 :=
  match a with
  | .nan => (.nan, 0)
  | .inf neg => if neg then (.nan, flagNV) else (.inf false, 0)
  | .fin neg n e _ =>
    if n = 0 then (.fin neg 0 0 false, 0)
    else if neg then (.nan, flagNV)
    else
      let odd := e % 2 != 0
      let n' := (if odd then 2 * n else n) * pow2 128
      let e' := (if odd then e - 1 else e) - 128
      let r := isqrt n'
      (.fin false r (e' / 2) (r * r != n'), 0)

/-- The exact reciprocal square root (R56). -/
def rsqNum (a : Num) : Num × W32 :=
  match a with
  | .nan => (.nan, 0)
  | .inf neg => if neg then (.nan, flagNV) else (.fin false 0 0 false, 0)
  | .fin neg n e _ =>
    if n = 0 then (.inf neg, flagDZ)
    else if neg then (.nan, flagNV)
    else
      let odd := e % 2 != 0
      let n' := if odd then 2 * n else n
      let e' := if odd then e - 1 else e
      let r := isqrt (pow2 256 / n')
      (.fin false r (-(e' / 2) - 128) (r * r * n' != pow2 256), 0)

/-- Fraction bits of the fixed-point series below. -/
def seriesBits : Nat := 340

/-- `floor(ln 2 * 2^340)`. -/
def ln2Fixed : Nat := 0xb17217f7d1cf79abc9e3b39803f2f6af40f343267298b62d8a0d175b8baafa2be7b876206debac9855955

/-- The exponential series of a fixed-point `x` below 1: `term` is `x^k / k!`. -/
def expSeries (x : Nat) : Nat → Nat → Nat → Nat
  | 0, _, _ => 0
  | fuel + 1, k, term => term + expSeries x fuel (k + 1) ((term * x) >>> seriesBits / (k + 1))

/-- `2^f` for a fixed-point fraction `f` (log 14): rounded down to within 2^-320. -/
def exp2Fixed (f : Nat) : Nat :=
  expSeries ((f * ln2Fixed) >>> seriesBits) 90 0 (pow2 seriesBits)

/-- The inverse hyperbolic tangent series of a fixed-point `t`. -/
def atanhSeries (t2 : Nat) : Nat → Nat → Nat → Nat
  | 0, _, _ => 0
  | fuel + 1, k, pw => pw / (2 * k + 1) + atanhSeries t2 fuel (k + 1) ((pw * t2) >>> seriesBits)

/-- `log2 m` for a fixed-point `m` in [1, 2) (log 14). -/
def log2Fixed (m : Nat) : Nat :=
  let t := ((m - pow2 seriesBits) * pow2 seriesBits) / (m + pow2 seriesBits)
  let l := 2 * atanhSeries ((t * t) >>> seriesBits) 120 0 t
  (l * pow2 seriesBits) / ln2Fixed

/-- A magnitude in fixed point, for exponents above -340. -/
def toFixed (n : Nat) (e : Int) : Nat :=
  if 0 ≤ e + seriesBits then n * pow2 (e + seriesBits).toNat else n >>> (-(e + seriesBits)).toNat

/-- 2 to the power of a value (R55, R56, log 14). -/
def exp2Num (a : Num) : Num × W32 :=
  match a with
  | .nan => (.nan, 0)
  | .inf neg => if neg then (.fin false 0 0 false, 0) else (.inf false, 0)
  | .fin neg n e _ =>
    if n = 0 then (.fin false 1 0 false, 0)
    else if 13 < e + bitLen n then
      (.fin false 1 (if neg then -8192 else 8192) (e < 0 && n % pow2 (-e).toNat != 0), 0)
    else if 0 ≤ e then
      let i : Int := n * pow2 e.toNat
      (.fin false 1 (if neg then -i else i) false, 0)
    else if n % pow2 (-e).toNat = 0 then
      let i : Int := n >>> (-e).toNat
      (.fin false 1 (if neg then -i else i) false, 0)
    else
      let fx := toFixed n e
      let i : Int := fx >>> seriesBits
      let fr := fx % pow2 seriesBits
      if neg then (.fin false (exp2Fixed (pow2 seriesBits - fr)) (-i - 1 - seriesBits) true, 0)
      else (.fin false (exp2Fixed fr) (i - seriesBits) true, 0)

/-- Base-2 logarithm of a value (R55, R56, log 14). -/
def log2Num (a : Num) : Num × W32 :=
  match a with
  | .nan => (.nan, 0)
  | .inf neg => if neg then (.nan, flagNV) else (.inf false, 0)
  | .fin neg n e _ =>
    if n = 0 then (.inf true, flagDZ)
    else if neg then (.nan, flagNV)
    else
      let i : Int := e + bitLen n - 1
      if n = pow2 (bitLen n - 1) then (.fin (i < 0) i.natAbs 0 false, 0)
      else
        let l := log2Fixed (toFixed n (-((bitLen n : Int) - 1)))
        if 0 ≤ i then (.fin false (i.toNat * pow2 seriesBits + l) (-seriesBits) true, 0)
        else (.fin true ((-i).toNat * pow2 seriesBits - l - 1) (-seriesBits) true, 0)

/-- Hyperbolic tangent of a value (R55, R56, log 14). -/
def tanhNum (a : Num) : Num × W32 :=
  match a with
  | .nan => (.nan, 0)
  | .inf neg => (.fin neg 1 0 false, 0)
  | .fin neg n e _ =>
    if n = 0 then (.fin neg 0 0 false, 0)
    else if e + bitLen n < -40 then (.fin neg (n * pow2 100 - 1) (e - 100) true, 0)
    else if 6 < e + bitLen n then (.fin neg (pow2 300 - 1) (-300) true, 0)
    else
      let y := (2 * toFixed n e * pow2 seriesBits) / ln2Fixed
      let i := y >>> seriesBits
      let u := (exp2Fixed (pow2 seriesBits - y % pow2 seriesBits)) >>> (i + 1)
      let one := pow2 seriesBits
      (.fin neg (((one - u) * one) / (one + u)) (-seriesBits) true, 0)

/-- `floor(log2 |x|)` of a finite nonzero magnitude. -/
def ilog2 (n : Nat) (e : Int) : Int := e + bitLen n - 1

/-- `fmin` and `fmax` of two patterns (R203): one operand unchanged, -0 below +0, NaN only when both are. -/
def fminmax (f : Fmt) (max_ : Bool) (a b : Nat) : Nat :=
  match decodeCode f a, decodeCode f b with
  | .nan, .nan => f.nanCode
  | .nan, _ => b
  | _, .nan => a
  | x, y =>
    let aLess := match cmpNum x y with
      | .lt => true
      | .gt => false
      | .eq => x.isNeg && !y.isNeg
    if aLess == max_ then b else a

/-- `fclass` (R205). -/
def fclassOf (f : Fmt) (c : Nat) : Nat :=
  match decodeCode f c with
  | .nan => 256
  | .inf neg => if neg then 1 else 128
  | .fin neg n _ _ =>
    if n = 0 then (if neg then 8 else 16)
    else if n < pow2 f.m then (if neg then 4 else 32)
    else (if neg then 2 else 64)

/-- `fround` (R204): the integral value that `round_fmt` selects, in the float format, with NX when it differs. -/
def froundOf (f : Fmt) (c : Nat) (mode : Rm) : Nat × W32 :=
  match decodeCode f c with
  | .nan => (f.nanCode, 0)
  | .inf _ => (c, 0)
  | .fin neg n e st =>
    if 0 ≤ e ∨ n = 0 then (c, 0)
    else
      let (m, inexact) := roundAt mode neg n e st 0
      ((roundFmt f (.fin neg m 0 false) mode false).1, if inexact then flagNX else 0)

/-- A value under the E8M0 scale byte `e` (R45): NaN for 255. -/
def scaleNum (x : Num) (e : Nat) : Num := if e = 255 then .nan else x.shift ((e : Int) - 127)

/-- The E8M0 byte of `fexp8` (R210). -/
def fexp8Of (a : Num) (d : Int) : Nat × W32 :=
  match a with
  | .nan => (255, 0)
  | .inf _ => (255, 0)
  | .fin _ n e _ =>
    if n = 0 then (127, 0)
    else
      let x := ilog2 n e - d + 127
      if x < 0 then (0, flagSAT) else if 254 < x then (254, flagSAT) else (x.toNat, 0)

end Sys2Proof.Machine
end

