-- ==== Sys2Proof/Config.lean ====
section
/-!
DEFINITION. What is fixed for one part and what the spec leaves open. A constant with a body is a number the spec
states. An `opaque` constant is a free value: no proof can see it, and a statement that mentions it holds whatever it
is. Free values that change from use to use are applied to `State.freeCtr` or to the operands they depend on.
-/

namespace Sys2Proof.Config

/-- Rings in the module (spec/01 R11). -/
def rings : Nat := 24
/-- Stripe positions of a ring (R11). -/
def positions : Nat := 16
/-- Bytes of a block (R14). -/
def blockBytes : Nat := 2097152
/-- Wake-up cycles of a gated cell array (spec/13 R240). -/
def mwake : Nat := 64
/-- Nominal ring cycles in a reference tick of 10 ns (spec/00 R8): 1.9 GHz against 100 MHz. -/
def cyclesPerTick : Nat := 19
/-- Nominal pair frequency in MHz (spec/23 R391). -/
def nominalMHz : Nat := 1900
/-- Idle floor F0 in watts (spec/23 R389). -/
def idleFloor : Nat := 480
/-- Module envelope in watts (spec/01 R33). -/
def envelope : Nat := 3000
/-- The default quantum in ticks (spec/19 R337). -/
def defaultQuantum : Nat := 100000

/-- Ticks that the wipe takes (spec/21 R373): 20.1 ms. -/
def wipeTicks : Nat := 2010000

/-- Whether the unit that asks for its `n`-th chance makes progress now: engines, links and firmware have no stated
pace (log 8). -/
opaque ready : Nat → Bool
/-- The scope at which a request is performed next (log 8): what the memory fabric does first is not stated. -/
opaque scopeOf : Nat → Fin 5
/-- A byte read from another package (log 9). -/
opaque remoteByte : Nat → Byte
/-- A byte of an image or of a record that Eosen reads in the memory of another package, by node and address (log 67). -/
opaque remoteImage : Nat → Nat → Byte
/-- A free 64-bit value (log 9): an answer register that a service does not define, a sensor, a CRC of a key. -/
opaque free64 : Nat → BitVec 64
/-- A free list of bytes (log 10): the payload of a report that the spec does not lay out. -/
opaque freeBytes : Nat → List Byte
/-- A page of HBM that Eosen takes for a version of the rename pool or for a table (log 47). -/
opaque hbmPage : Nat → Nat
/-- The pages of HBM, by number, that cover a location of a stack's classifier: stack, kind, bank, row, column. The spec gives no map from
addresses to the banks of a stack (log 13). -/
opaque hbmCover : Nat → Nat → Nat → Nat → Nat → List Nat
/-- Which of the rings that can take a member Eosen picks (log 11). -/
opaque placement : Nat → Nat
/-- The context id Eosen assigns (log 11), made nonzero and unique by the caller. -/
opaque contextId : Nat → Nat
/-- Whether Eosen services a translation fault (log 12). -/
opaque services : Nat → Bool
/-- Whether a Falcon-1024 signature over a header and a payload is valid under a key (spec/23 R398, log 10). -/
opaque falconVerify : List Byte → List Byte → List Byte → Bool
/-- The Falcon-1024 signature of a payload under the identity key of a generation (R398, R399, log 10). -/
opaque falconSign : Nat → List Byte → List Byte
/-- The identity public key of a generation (R397, log 10). -/
opaque identityKey : Nat → List Byte
/-- The Gnowell public key whose hash is fused (R398, log 10). -/
opaque gnowellKey : List Byte
/-- SHAKE256 with 64 bytes of output (R398, R399, log 10). -/
opaque shake256 : List Byte → List Byte
/-- The bytes of a report whose fields the spec lists without a layout (R385 RDSTICKY, R399; log 10). -/
opaque layout : Nat → List (List Byte) → List Byte
/-- The owner public key that a token's payload carries (R398): its place there is not stated (log 10). -/
opaque tokenKey : List Byte → List Byte
/-- The image that the part was made with, of boot firmware (1) or of Eosen (2), as ATTEST measures it (R399, log 10). -/
opaque factory : Nat → List Byte
/-- The security version of the images the part was made with (R398): none is stated, and they are taken as the first (log 124). -/
def factorySvn : Nat := 0
/-- A pair's share of an effective cap in units of 10 mA, as Eosen divides it for the `n`-th time (R390, log 96). -/
opaque pairShare : Nat → Nat → Nat → Nat
/-- Watts in units of 10 mA of a pair's supply, whose voltage the spec does not give (R390, log 96). -/
opaque wattUnits : Nat → Nat
/-- Whether a pair stretched by its balancer runs in a nominal cycle: the fraction it takes is not stated (R392, log 53). -/
opaque pairRuns : Nat → Nat → Bool
/-- A sensor's reading (R384, log 9). -/
opaque sensor : Nat → Nat → BitVec 64
/-- The bank of a stack (pseudo-channel x banks, 0 to 255) that holds an HBM address: the spec gives the numbering of
R357 and no interleave (log 13). -/
opaque hbmBank : Nat → Nat

/-- The descriptor under which a counter bank is drained that holds counts of two descriptors (log 64). -/
opaque mixedFmt : BitVec 24 → BitVec 24 → BitVec 24

end Sys2Proof.Config
end

