-- ==== Sys2Proof/WellFormed.lean ====
section
/-!
DEFINITION. Well-formed instructions: what registration refuses by looking at one word alone (spec/07 R113, the
entries of spec/09, 11, 13 and 17). A refusal carries the validation code of R127. What depends on the image around
the word (V, STLEN, the switch table, the pass map) is in Machine/Image.lean.
-/

namespace Sys2Proof

/-- Why a word is refused, by the validation code of R127 that registration answers with. -/
inductive Refused where
  /-- Code 2: step OP or LF under R113. -/
  | stepOp
  /-- Code 3: a reserved or out-of-range step operand. -/
  | stepOperand
  /-- Code 4: XC, XT or the step's own transition rule. -/
  | transition
  /-- Code 6: row encoding. -/
  | rowEncoding
  /-- Code 7: a read port written or a write port read (R68). -/
  | port
  /-- Code 11: a descriptor invalid under R40. -/
  | descriptor
  /-- The word has no width of R99 (80 bits), R107 (64 bits) or R108 (128 bits). -/
  | width
  deriving DecidableEq, Repr

/-- The validation code (R127). -/
def Refused.code : Refused → Nat
  | .stepOp => 2
  | .stepOperand => 3
  | .transition => 4
  | .rowEncoding => 6
  | .port => 7
  | .descriptor => 11
  | .width => 6

/-- The types an operation accepts (R101, R189). -/
inductive TyKind where
  | untyped | ints | signed | floats | words | nibbles
  deriving DecidableEq, Repr

/-- The operands an entry allows in a destination field (R103, R189, R224, R241). -/
inductive DKind where
  | unused | d | p | q | mAccz | mBank | mCb
  deriving DecidableEq, Repr

/-- The operands an entry allows in a source field. -/
inductive SKind where
  | unused | s | p | q | cvtB | mBank | mXa | mCbOrNone | mAcc
  deriving DecidableEq, Repr

/-- One line of the row tables R190, R196, R197, R200, R201, R206 to R208, R214, R217, R224 and R241: group,
operation, types, fields, bits of IMM in use, MOD bits in use, predicate output, latency. -/
structure RowShape where
  maj : Nat
  fn : Nat
  ty : TyKind
  d : DKind
  a : SKind
  b : SKind
  c : SKind
  imm : BitVec 16
  rm : Bool
  sat : Bool
  z : Bool
  pro : Bool
  lat : Nat
  deriving DecidableEq, Repr

/-- The general-format row inside an instruction. -/
def Instr.row? : Instr → Option Row
  | .rowNop r => some r
  | .sig r => some r
  | .rowTrap r => some r
  | .rowBrk r => some r
  | .flagrd r => some r
  | .fmtld r => some r
  | .tagchk r => some r
  | .iter r => some r
  | .eid r => some r
  | .lid r => some r
  | .sid r => some r
  | .tcrd r => some r
  | .imov r => some r
  | .ilui r => some r
  | .iadd r => some r
  | .isub r => some r
  | .imul r => some r
  | .imulhi r => some r
  | .imad r => some r
  | .iaddsat r => some r
  | .isubsat r => some r
  | .iabs r => some r
  | .ineg r => some r
  | .imin r => some r
  | .imax r => some r
  | .iand r => some r
  | .ior r => some r
  | .ixor r => some r
  | .inot r => some r
  | .ishl r => some r
  | .ishr r => some r
  | .isra r => some r
  | .irot r => some r
  | .iclz r => some r
  | .ipop r => some r
  | .ibfx r => some r
  | .ibfi r => some r
  | .icmpEq r => some r
  | .icmpNe r => some r
  | .icmpLt r => some r
  | .icmpLe r => some r
  | .icmpGt r => some r
  | .icmpGe r => some r
  | .fadd r => some r
  | .fsub r => some r
  | .fmul r => some r
  | .ffma r => some r
  | .ffms r => some r
  | .fnfma r => some r
  | .fnfms r => some r
  | .fmin r => some r
  | .fmax r => some r
  | .fabs r => some r
  | .fneg r => some r
  | .fcopysign r => some r
  | .fscale r => some r
  | .fround r => some r
  | .fclass r => some r
  | .fcmpEq r => some r
  | .fcmpNe r => some r
  | .fcmpLt r => some r
  | .fcmpLe r => some r
  | .fcmpGt r => some r
  | .fcmpGe r => some r
  | .fcmpUn r => some r
  | .fcmpOrd r => some r
  | .frcp r => some r
  | .frsq r => some r
  | .fsqrt r => some r
  | .fdiv r => some r
  | .fexp2 r => some r
  | .flog2 r => some r
  | .ftanh r => some r
  | .cvt r => some r
  | .packF32 r => some r
  | .packN8 r => some r
  | .unpackF32 r => some r
  | .unpackN8 r => some r
  | .quant r => some r
  | .fexp8 r => some r
  | .itof r => some r
  | .ftoi r => some r
  | .pselTag r => some r
  | .pselPred r => some r
  | .pand r => some r
  | .por r => some r
  | .pxor r => some r
  | .pnot r => some r
  | .pset r => some r
  | .pmovPred r => some r
  | .pmovVecToPred r => some r
  | .pmovPredToVec r => some r
  | .pany r => some r
  | .pall r => some r
  | .lrot r => some r
  | .lbcast r => some r
  | .lshuf r => some r
  | .lredAdd r => some r
  | .lredMax r => some r
  | .lredMin r => some r
  | .lscanAdd r => some r
  | .lzip r => some r
  | .lunzip r => some r
  | .sld r => some r
  | .sst r => some r
  | .gadr r => some r
  | .qpop r => some r
  | .qpeek r => some r
  | .qpush r => some r
  | .qtx r => some r
  | .accz r => some r
  | .accrd r => some r
  | .accwr r => some r
  | .xcvt r => some r
  | .cmerge r => some r
  | .xmerge r => some r
  | .xld r => some r
  | .xst r => some r
  | .mchk r => some r
  | .mbnd r => some r
  | .xcfg r => some r
  | _ => none

/-- The tile-step row inside an instruction, with its group and operation (R106). -/
def Instr.tile? : Instr → Option (Nat × Nat × TileRow)
  | .mmaBf16 r => some (11, 0, r)
  | .mmaF16 r => some (11, 1, r)
  | .mmaF8 r => some (11, 2, r)
  | .mmc r => some (12, 0, r)
  | .mmcCh r => some (12, 1, r)
  | _ => none

/-- The line of the row tables for an instruction. -/
def Instr.shape? : Instr → Option RowShape
  | .rowNop _ => some ⟨0, 0, .untyped, .unused, .unused, .unused, .unused, 0x0, false, false, false, false, 1⟩
  | .sig _ => some ⟨0, 1, .untyped, .unused, .unused, .unused, .unused, 0xFFFF, false, false, false, false, 1⟩
  | .rowTrap _ => some ⟨0, 2, .untyped, .unused, .unused, .unused, .unused, 0xFFFF, false, false, false, false, 1⟩
  | .rowBrk _ => some ⟨0, 3, .untyped, .unused, .unused, .unused, .unused, 0xFFFF, false, false, false, false, 1⟩
  | .flagrd _ => some ⟨0, 4, .untyped, .d, .unused, .unused, .unused, 0x0, false, false, true, false, 2⟩
  | .fmtld _ => some ⟨0, 5, .untyped, .unused, .s, .unused, .unused, 0x7, false, false, false, false, 1⟩
  | .tagchk _ => some ⟨0, 6, .untyped, .unused, .unused, .unused, .unused, 0xFFFF, false, false, false, false, 1⟩
  | .iter _ => some ⟨1, 0, .untyped, .d, .unused, .unused, .unused, 0x0, false, false, true, false, 2⟩
  | .eid _ => some ⟨1, 1, .untyped, .d, .unused, .unused, .unused, 0x0, false, false, true, false, 2⟩
  | .lid _ => some ⟨1, 2, .untyped, .d, .unused, .unused, .unused, 0x0, false, false, true, false, 2⟩
  | .sid _ => some ⟨1, 3, .untyped, .d, .unused, .unused, .unused, 0x0, false, false, true, false, 2⟩
  | .tcrd _ => some ⟨1, 4, .untyped, .d, .unused, .unused, .unused, 0x1, false, false, true, false, 2⟩
  | .imov _ => some ⟨1, 5, .untyped, .d, .s, .unused, .unused, 0x0, false, false, true, false, 2⟩
  | .ilui _ => some ⟨1, 6, .untyped, .d, .s, .unused, .unused, 0xFFFF, false, false, true, false, 2⟩
  | .iadd _ => some ⟨2, 0, .ints, .d, .s, .s, .unused, 0x0, false, true, true, false, 2⟩
  | .isub _ => some ⟨2, 1, .ints, .d, .s, .s, .unused, 0x0, false, true, true, false, 2⟩
  | .imul _ => some ⟨2, 2, .ints, .d, .s, .s, .unused, 0x0, false, true, true, false, 4⟩
  | .imulhi _ => some ⟨2, 3, .ints, .d, .s, .s, .unused, 0x0, false, false, true, false, 4⟩
  | .imad _ => some ⟨2, 4, .ints, .d, .s, .s, .s, 0x0, false, true, true, false, 4⟩
  | .iaddsat _ => some ⟨2, 5, .ints, .d, .s, .s, .unused, 0x0, false, true, true, false, 2⟩
  | .isubsat _ => some ⟨2, 6, .ints, .d, .s, .s, .unused, 0x0, false, true, true, false, 2⟩
  | .iabs _ => some ⟨2, 7, .signed, .d, .s, .unused, .unused, 0x0, false, true, true, false, 2⟩
  | .ineg _ => some ⟨2, 8, .signed, .d, .s, .unused, .unused, 0x0, false, true, true, false, 2⟩
  | .imin _ => some ⟨2, 9, .ints, .d, .s, .s, .unused, 0x0, false, false, true, false, 2⟩
  | .imax _ => some ⟨2, 10, .ints, .d, .s, .s, .unused, 0x0, false, false, true, false, 2⟩
  | .iand _ => some ⟨2, 11, .ints, .d, .s, .s, .unused, 0x0, false, false, true, false, 2⟩
  | .ior _ => some ⟨2, 12, .ints, .d, .s, .s, .unused, 0x0, false, false, true, false, 2⟩
  | .ixor _ => some ⟨2, 13, .ints, .d, .s, .s, .unused, 0x0, false, false, true, false, 2⟩
  | .inot _ => some ⟨2, 14, .ints, .d, .s, .unused, .unused, 0x0, false, false, true, false, 2⟩
  | .ishl _ => some ⟨2, 15, .ints, .d, .s, .s, .unused, 0x0, false, false, true, false, 2⟩
  | .ishr _ => some ⟨2, 16, .ints, .d, .s, .s, .unused, 0x0, false, false, true, false, 2⟩
  | .isra _ => some ⟨2, 17, .signed, .d, .s, .s, .unused, 0x0, false, false, true, false, 2⟩
  | .irot _ => some ⟨2, 18, .ints, .d, .s, .s, .unused, 0x0, false, false, true, false, 2⟩
  | .iclz _ => some ⟨2, 19, .ints, .d, .s, .unused, .unused, 0x0, false, false, true, false, 2⟩
  | .ipop _ => some ⟨2, 20, .ints, .d, .s, .unused, .unused, 0x0, false, false, true, false, 2⟩
  | .ibfx _ => some ⟨2, 21, .ints, .d, .s, .unused, .unused, 0xFFFF, false, false, true, false, 2⟩
  | .ibfi _ => some ⟨2, 22, .ints, .d, .s, .s, .unused, 0xFFFF, false, false, true, false, 2⟩
  | .icmpEq _ => some ⟨3, 0, .ints, .d, .s, .s, .unused, 0x0, false, false, true, true, 2⟩
  | .icmpNe _ => some ⟨3, 1, .ints, .d, .s, .s, .unused, 0x0, false, false, true, true, 2⟩
  | .icmpLt _ => some ⟨3, 2, .ints, .d, .s, .s, .unused, 0x0, false, false, true, true, 2⟩
  | .icmpLe _ => some ⟨3, 3, .ints, .d, .s, .s, .unused, 0x0, false, false, true, true, 2⟩
  | .icmpGt _ => some ⟨3, 4, .ints, .d, .s, .s, .unused, 0x0, false, false, true, true, 2⟩
  | .icmpGe _ => some ⟨3, 5, .ints, .d, .s, .s, .unused, 0x0, false, false, true, true, 2⟩
  | .fadd _ => some ⟨4, 0, .floats, .d, .s, .s, .unused, 0x0, true, true, true, false, 6⟩
  | .fsub _ => some ⟨4, 1, .floats, .d, .s, .s, .unused, 0x0, true, true, true, false, 6⟩
  | .fmul _ => some ⟨4, 2, .floats, .d, .s, .s, .unused, 0x0, true, true, true, false, 6⟩
  | .ffma _ => some ⟨4, 3, .floats, .d, .s, .s, .s, 0x0, true, true, true, false, 8⟩
  | .ffms _ => some ⟨4, 4, .floats, .d, .s, .s, .s, 0x0, true, true, true, false, 8⟩
  | .fnfma _ => some ⟨4, 5, .floats, .d, .s, .s, .s, 0x0, true, true, true, false, 8⟩
  | .fnfms _ => some ⟨4, 6, .floats, .d, .s, .s, .s, 0x0, true, true, true, false, 8⟩
  | .fmin _ => some ⟨4, 7, .floats, .d, .s, .s, .unused, 0x0, false, false, true, false, 2⟩
  | .fmax _ => some ⟨4, 8, .floats, .d, .s, .s, .unused, 0x0, false, false, true, false, 2⟩
  | .fabs _ => some ⟨4, 9, .floats, .d, .s, .unused, .unused, 0x0, false, false, true, false, 2⟩
  | .fneg _ => some ⟨4, 10, .floats, .d, .s, .unused, .unused, 0x0, false, false, true, false, 2⟩
  | .fcopysign _ => some ⟨4, 11, .floats, .d, .s, .s, .unused, 0x0, false, false, true, false, 2⟩
  | .fscale _ => some ⟨4, 12, .floats, .d, .s, .s, .unused, 0x0, true, true, true, false, 6⟩
  | .fround _ => some ⟨4, 13, .floats, .d, .s, .unused, .unused, 0x0, true, false, true, false, 6⟩
  | .fclass _ => some ⟨4, 14, .floats, .d, .s, .unused, .unused, 0x1FF, false, false, true, true, 2⟩
  | .fcmpEq _ => some ⟨5, 0, .floats, .d, .s, .s, .unused, 0x0, false, false, true, true, 3⟩
  | .fcmpNe _ => some ⟨5, 1, .floats, .d, .s, .s, .unused, 0x0, false, false, true, true, 3⟩
  | .fcmpLt _ => some ⟨5, 2, .floats, .d, .s, .s, .unused, 0x0, false, false, true, true, 3⟩
  | .fcmpLe _ => some ⟨5, 3, .floats, .d, .s, .s, .unused, 0x0, false, false, true, true, 3⟩
  | .fcmpGt _ => some ⟨5, 4, .floats, .d, .s, .s, .unused, 0x0, false, false, true, true, 3⟩
  | .fcmpGe _ => some ⟨5, 5, .floats, .d, .s, .s, .unused, 0x0, false, false, true, true, 3⟩
  | .fcmpUn _ => some ⟨5, 6, .floats, .d, .s, .s, .unused, 0x0, false, false, true, true, 3⟩
  | .fcmpOrd _ => some ⟨5, 7, .floats, .d, .s, .s, .unused, 0x0, false, false, true, true, 3⟩
  | .frcp _ => some ⟨6, 0, .floats, .d, .s, .unused, .unused, 0x0, true, true, true, false, 14⟩
  | .frsq _ => some ⟨6, 1, .floats, .d, .s, .unused, .unused, 0x0, true, true, true, false, 14⟩
  | .fsqrt _ => some ⟨6, 2, .floats, .d, .s, .unused, .unused, 0x0, true, true, true, false, 14⟩
  | .fdiv _ => some ⟨6, 3, .floats, .d, .s, .s, .unused, 0x0, true, true, true, false, 18⟩
  | .fexp2 _ => some ⟨6, 4, .floats, .d, .s, .unused, .unused, 0x0, true, true, true, false, 16⟩
  | .flog2 _ => some ⟨6, 5, .floats, .d, .s, .unused, .unused, 0x0, true, true, true, false, 16⟩
  | .ftanh _ => some ⟨6, 6, .floats, .d, .s, .unused, .unused, 0x0, true, true, true, false, 20⟩
  | .cvt _ => some ⟨7, 0, .floats, .d, .s, .cvtB, .unused, 0x3F, true, true, true, false, 4⟩
  | .packF32 _ => some ⟨7, 1, .untyped, .d, .s, .s, .unused, 0x37, true, true, true, false, 3⟩
  | .packN8 _ => some ⟨7, 1, .nibbles, .d, .s, .s, .unused, 0x0, false, false, true, false, 3⟩
  | .unpackF32 _ => some ⟨7, 2, .untyped, .d, .s, .unused, .unused, 0x37, true, false, true, false, 3⟩
  | .unpackN8 _ => some ⟨7, 2, .nibbles, .d, .s, .unused, .unused, 0x10, false, false, true, false, 3⟩
  | .quant _ => some ⟨7, 3, .untyped, .d, .s, .s, .s, 0x37, true, true, true, false, 4⟩
  | .fexp8 _ => some ⟨7, 4, .untyped, .d, .s, .unused, .unused, 0xFFFF, false, false, true, false, 4⟩
  | .itof _ => some ⟨7, 5, .floats, .d, .s, .cvtB, .unused, 0x3F, true, true, true, false, 4⟩
  | .ftoi _ => some ⟨7, 6, .ints, .d, .s, .cvtB, .unused, 0x3F, true, false, true, false, 4⟩
  | .pselTag _ => some ⟨8, 0, .untyped, .d, .s, .s, .unused, 0x0, false, false, true, false, 1⟩
  | .pselPred _ => some ⟨8, 0, .untyped, .d, .p, .s, .s, 0x0, false, false, true, false, 1⟩
  | .pand _ => some ⟨8, 1, .untyped, .p, .p, .p, .unused, 0x0, false, false, true, false, 1⟩
  | .por _ => some ⟨8, 2, .untyped, .p, .p, .p, .unused, 0x0, false, false, true, false, 1⟩
  | .pxor _ => some ⟨8, 3, .untyped, .p, .p, .p, .unused, 0x0, false, false, true, false, 1⟩
  | .pnot _ => some ⟨8, 4, .untyped, .p, .p, .unused, .unused, 0x0, false, false, true, false, 1⟩
  | .pset _ => some ⟨8, 5, .untyped, .p, .unused, .unused, .unused, 0xFFFF, false, false, true, false, 1⟩
  | .pmovPred _ => some ⟨8, 6, .untyped, .p, .p, .unused, .unused, 0x0, false, false, true, false, 1⟩
  | .pmovVecToPred _ => some ⟨8, 6, .untyped, .p, .s, .unused, .unused, 0x1, false, false, true, false, 1⟩
  | .pmovPredToVec _ => some ⟨8, 6, .untyped, .d, .p, .unused, .unused, 0x0, false, false, true, false, 1⟩
  | .pany _ => some ⟨8, 7, .untyped, .p, .p, .unused, .unused, 0x0, false, false, true, false, 1⟩
  | .pall _ => some ⟨8, 8, .untyped, .p, .p, .unused, .unused, 0x0, false, false, true, false, 1⟩
  | .lrot _ => some ⟨9, 0, .untyped, .d, .s, .unused, .unused, 0x1F, false, false, true, false, 3⟩
  | .lbcast _ => some ⟨9, 1, .untyped, .d, .s, .unused, .unused, 0x1F, false, false, true, false, 3⟩
  | .lshuf _ => some ⟨9, 2, .untyped, .d, .s, .s, .unused, 0x0, false, false, true, false, 3⟩
  | .lredAdd _ => some ⟨9, 3, .words, .d, .s, .unused, .unused, 0x0, true, true, true, false, 10⟩
  | .lredMax _ => some ⟨9, 4, .words, .d, .s, .unused, .unused, 0x0, false, false, true, false, 10⟩
  | .lredMin _ => some ⟨9, 5, .words, .d, .s, .unused, .unused, 0x0, false, false, true, false, 10⟩
  | .lscanAdd _ => some ⟨9, 6, .words, .d, .s, .unused, .unused, 0x0, true, true, true, false, 12⟩
  | .lzip _ => some ⟨9, 7, .untyped, .d, .s, .s, .unused, 0x1, false, false, true, false, 3⟩
  | .lunzip _ => some ⟨9, 8, .untyped, .d, .s, .s, .unused, 0x1, false, false, true, false, 3⟩
  | .sld _ => some ⟨10, 0, .untyped, .d, .s, .unused, .unused, 0xFFFF, false, false, true, false, 4⟩
  | .sst _ => some ⟨10, 1, .untyped, .unused, .s, .s, .unused, 0xFFFF, false, false, false, false, 2⟩
  | .gadr _ => some ⟨10, 2, .untyped, .unused, .s, .unused, .unused, 0x1F, false, false, false, false, 1⟩
  | .qpop _ => some ⟨10, 3, .untyped, .d, .q, .unused, .unused, 0x7FF, false, false, true, false, 4⟩
  | .qpeek _ => some ⟨10, 4, .untyped, .d, .q, .unused, .unused, 0x7FF, false, false, true, false, 4⟩
  | .qpush _ => some ⟨10, 5, .untyped, .q, .s, .unused, .unused, 0x3, false, false, false, false, 1⟩
  | .qtx _ => some ⟨10, 6, .untyped, .q, .q, .unused, .unused, 0x1, false, false, false, false, 0⟩
  | .accz _ => some ⟨13, 0, .untyped, .mAccz, .unused, .unused, .unused, 0x0, false, false, false, false, 1⟩
  | .accrd _ => some ⟨13, 1, .untyped, .d, .mBank, .unused, .unused, 0x7, false, false, true, false, 4⟩
  | .accwr _ => some ⟨13, 2, .untyped, .mBank, .s, .unused, .unused, 0x7, false, false, false, false, 2⟩
  | .xcvt _ => some ⟨13, 3, .untyped, .d, .mXa, .unused, .unused, 0x7, true, false, true, false, 4⟩
  | .cmerge _ => some ⟨13, 4, .untyped, .mCb, .mCbOrNone, .unused, .unused, 0x7, false, false, false, false, 2⟩
  | .xmerge _ => some ⟨13, 5, .untyped, .unused, .s, .unused, .unused, 0xFFFF, false, false, false, false, 28⟩
  | .xld _ => some ⟨13, 6, .untyped, .unused, .s, .unused, .unused, 0xFFFF, false, false, false, false, 28⟩
  | .xst _ => some ⟨13, 7, .untyped, .unused, .s, .unused, .unused, 0xFFFF, false, false, false, false, 0⟩
  | .mchk _ => some ⟨13, 8, .untyped, .d, .mAcc, .unused, .unused, 0x0, true, false, true, false, 6⟩
  | .mbnd _ => some ⟨13, 9, .untyped, .d, .mAcc, .unused, .unused, 0x0, false, false, true, false, 4⟩
  | .xcfg _ => some ⟨13, 10, .untyped, .unused, .unused, .unused, .unused, 0xFFFF, false, false, false, false, 2⟩
  | _ => none

/-- Bits of one sub-element (R37, R101). -/
def Ty.width : Ty → Nat
  | .f32 | .i32 | .n32 => 32
  | .bf16 | .f16 | .i16 | .n16 => 16
  | .i8 | .n8 => 8

/-- Signed integer types. -/
def Ty.signed : Ty → Bool
  | .i32 | .i16 | .i8 => true
  | _ => false

/-- Unsigned (natural) types. -/
def Ty.natural : Ty → Bool
  | .n32 | .n16 | .n8 => true
  | _ => false

/-- Floating types. -/
def Ty.float : Ty → Bool
  | .f32 | .bf16 | .f16 => true
  | _ => false

/-- The code of a type (R101). -/
def Ty.code : Ty → Nat
  | .f32 => 0 | .bf16 => 1 | .f16 => 2 | .i32 => 3 | .i16 => 4 | .i8 => 5 | .n32 => 6 | .n16 => 7 | .n8 => 8

/-- The type with a code; 9 to 15 are reserved (R101). -/
def Ty.ofCode (c : Nat) : Option Ty :=
  match c with
  | 0 => some .f32 | 1 => some .bf16 | 2 => some .f16 | 3 => some .i32 | 4 => some .i16
  | 5 => some .i8 | 6 => some .n32 | 7 => some .n16 | 8 => some .n8 | _ => none

/-- A type is one the entry accepts; an operation that takes no type has TY = 0 (R101). -/
def TyKind.ok : TyKind → Ty → Bool
  | .untyped, t => t == .f32
  | .ints, t => !t.float
  | .signed, t => t.signed
  | .floats, t => t.float
  | .words, t => t == .f32 || t == .i32 || t == .n32
  | .nibbles, t => t == .n8

/-- Ports an element writes (R68); a tap may be bound either way. -/
def Port.writable : Port → Bool
  | .dn | .e | .po _ | .tap _ => true
  | _ => false

/-- Ports an element reads. -/
def Port.readable : Port → Bool
  | .up | .w | .pi _ | .tap _ => true
  | _ => false

/-- The destination field is one the entry allows; `p0` is no destination. -/
def DKind.ok : DKind → Opnd → Bool
  | .unused, o => o == .v 0
  | .d, .v _ | .d, .x _ | .d, .port _ => true
  | .p, .pred n => n != 0
  | .q, .queue _ => true
  | .mAccz, .mat (.acc _) | .mAccz, .mat (.cb _) | .mAccz, .mat .xa => true
  | .mBank, .mat (.acc _) | .mBank, .mat (.ckr _) | .mBank, .mat (.ckc _) => true
  | .mCb, .mat (.cb _) => true
  | _, _ => false

/-- The source field is one the entry allows. -/
def SKind.ok : SKind → Opnd → Bool
  | .unused, o => o == .v 0
  | .s, .v _ | .s, .x _ | .s, .port _ | .s, .imm _ | .s, .special _ => true
  | .cvtB, .v _ | .cvtB, .x _ | .cvtB, .port _ | .cvtB, .imm _ | .cvtB, .special _ => true
  | .p, .pred _ => true
  | .q, .queue _ => true
  | .mBank, .mat (.acc _) | .mBank, .mat (.ckr _) | .mBank, .mat (.ckc _) => true
  | .mXa, .mat .xa => true
  | .mCbOrNone, .mat (.cb _) => true
  | .mCbOrNone, o => o == .v 0
  | .mAcc, .mat (.acc _) => true
  | _, _ => false

/-- A destination names no read port (R68). -/
def Opnd.dstPortOk : Opnd → Bool
  | .port p => p.writable
  | _ => true

/-- A source names no write port (R68). -/
def Opnd.srcPortOk : Opnd → Bool
  | .port p => p.readable
  | _ => true

/-- Whether Z may be set with a destination (R188): a register, the `e` port and the pass registers among them (R69, R70), or a
predicate; not `dn` or a tap, whose words are no registers (log 83). -/
def Opnd.zeroable : Opnd → Bool
  | .port .dn | .port (.tap _) => false
  | _ => true

/-- A class 3 immediate below zero, refused in a row of an unsigned type (R187). -/
def Opnd.negImm : Opnd → Bool
  | .imm i => i.msb
  | _ => false

/-- The widths and kinds of conversion pairs (R209): the number of source operands in use and the SEL bits allowed. -/
inductive CvtPair where
  | equal
  | narrow
  | widen16
  | widen8
  deriving DecidableEq, Repr

/-- The pairs of R209 by the widths of destination and source. -/
def cvtPair? (dst src : Ty) : Option CvtPair :=
  if dst.width = src.width then some .equal
  else if src.width = 32 ∧ dst.width = 16 then some .narrow
  else if src.width = 16 ∧ dst.width = 32 then some .widen16
  else if src.width = 8 ∧ dst.width = 32 then some .widen8
  else none

/-- Which pairs each of `cvt`, `itof`, `ftoi` accepts (R209): `cvt` no equal type and no 32-bit equal pair;
`ftoi` nothing of 8 bits. -/
def cvtPairOk (fromInt toInt : Bool) (dst src : Ty) : Bool :=
  (src.float != fromInt) && (dst.float != toInt) &&
  match cvtPair? dst src with
  | some .equal => if !fromInt && !toInt then dst != src && dst.width == 16 else true
  | some .narrow => true
  | some .widen16 => true
  | some .widen8 => fromInt
  | none => false

/-- SEL (IMM[5:4]) and B as the pair uses them (R209). -/
def cvtOperandsOk (r : Row) (dst src : Ty) : Bool :=
  let sel := (r.imm.toNat / 16) % 4
  match cvtPair? dst src with
  | some .equal => sel == 0 && r.sb == .v 0
  | some .narrow => sel == 0
  | some .widen16 => sel < 2 && r.sb == .v 0
  | some .widen8 => r.sb == .v 0
  | none => false

/-- A conversion row keeps R209. -/
def cvtOk (r : Row) (fromInt toInt : Bool) : Bool :=
  match Ty.ofCode (r.imm.toNat % 16) with
  | some src => cvtPairOk fromInt toInt r.ty src && cvtOperandsOk r r.ty src
  | none => false

/-- `ibfx` and `ibfi`: o < w and 1 ≤ n ≤ w − o (R197). -/
def bitFieldOk (r : Row) : Bool :=
  let o := r.imm.toNat % 256
  let n := r.imm.toNat / 256
  o < r.ty.width && 1 ≤ n && n ≤ r.ty.width - o

/-- What single entries require beyond their line of the tables. -/
def Instr.rowExtra : Instr → Bool
  | .ibfx r => bitFieldOk r
  | .ibfi r => bitFieldOk r
  | .cvt r => cvtOk r false false
  | .itof r => cvtOk r true false
  | .ftoi r => cvtOk r false true
  | .lredAdd r => r.ty == .f32 || r.rm == .rne
  | .lscanAdd r => r.ty == .f32 || r.rm == .rne
  | .qtx r => r.dst != r.sa
  | .accrd r => match r.sa with
    | .mat (.acc _) => true
    | _ => r.imm == 0
  | .accwr r => match r.dst with
    | .mat (.acc _) => true
    | _ => r.imm == 0
  | .cmerge r =>
    match r.imm.toNat / 2 % 2, r.imm.toNat / 4 % 2, r.sa with
    | 0, 0, .mat (.cb n) => r.dst != .mat (.cb n)
    | 1, 0, .mat (.cb _) => true
    | 0, 1, .v 0 => r.imm.getLsbD 0
    | _, _, _ => false
  | .xcfg r => -256 ≤ r.imm.toInt && r.imm.toInt ≤ 255
  | _ => true

/-- The encoding rules of R113 and R221 on a general-format row, with the code of the first one broken. -/
def checkRow (i : Instr) (sh : RowShape) (r : Row) : Option Refused :=
  if !(sh.ty.ok r.ty && sh.d.ok r.dst && sh.a.ok r.sa && sh.b.ok r.sb && sh.c.ok r.sc) then some .rowEncoding
  else if !((r.imm &&& ~~~sh.imm) == 0 && (sh.rm || r.rm == .rne) && (sh.sat || !r.sat) && (sh.z && r.dst.zeroable || !r.z)) then
    some .rowEncoding
  else if r.pro.isSome && !(sh.pro && (r.ty == .f32 || r.ty == .i32 || r.ty == .n32) && r.pro != some 0) then
    some .rowEncoding
  else if r.ty.natural && (r.sa.negImm || r.sb.negImm || r.sc.negImm) then some .rowEncoding
  else if !i.rowExtra then some .rowEncoding
  else if !(r.dst.dstPortOk && r.sa.srcPortOk && r.sb.srcPortOk && r.sc.srcPortOk) then some .port
  else none

/-- The encoding rules of R113 and R235 on a tile-step row. -/
def checkTile (maj : Nat) (r : TileRow) : Option Refused :=
  if r.qa == r.qb || r.win == 3 then some .rowEncoding
  else if maj == 11 && r.win != 0 then some .rowEncoding
  else if maj == 12 && (r.acb != 0 || r.ck) then some .rowEncoding
  else none

/-- A condition names no reserved status line (R113). -/
def Trans.ok : Trans → Bool
  | .goto (.line n) _ => n.val < 6 || 12 < n.val
  | _ => true

/-- The transition of a step, where it has one. -/
def Instr.trans? : Instr → Option Trans
  | .stepNop t => some t
  | .waitt _ t => some t
  | .waits _ _ t => some t
  | .yield t => some t
  | .sys _ t => some t
  | .stepBrk _ t => some t
  | .kset _ _ _ t => some t
  | .kmov _ _ t => some t
  | .kadd _ _ _ t => some t
  | .ksub _ _ _ t => some t
  | .kmul _ _ _ t => some t
  | .kand _ _ _ t => some t
  | .kor _ _ _ t => some t
  | .kxor _ _ _ t => some t
  | .kshl _ _ _ t => some t
  | .kshr _ _ _ t => some t
  | .kmin _ _ _ t => some t
  | .kmax _ _ _ t => some t
  | .kdec _ t => some t
  | .aset _ _ _ t => some t
  | .amov _ _ t => some t
  | .aadd _ _ _ t => some t
  | .amad _ _ _ _ t => some t
  | .ald _ _ _ _ t => some t
  | .ast _ _ _ _ t => some t
  | .vpl _ _ t => some t
  | .run _ _ _ _ _ _ t => some t
  | .park _ t => some t
  | .fmtset _ _ t => some t
  | .qset _ _ _ _ _ t => some t
  | .sopen _ _ _ _ _ _ t => some t
  | .sclose _ _ _ _ t => some t
  | .sbar _ _ _ t => some t
  | .spos _ _ t => some t
  | .copy _ _ t => some t
  | .copyc _ _ _ t => some t
  | .copycResume _ _ t => some t
  | .binit _ _ _ t => some t
  | .barr _ t => some t
  | .bexp _ _ _ t => some t
  | .bwait _ _ t => some t
  | .hpost _ _ t => some t
  | .htake _ _ t => some t
  | .trig t => some t
  | .fence _ _ t => some t
  | .atom _ _ _ _ _ _ _ t => some t
  | .coll _ _ t => some t
  | .cnopen _ _ _ t => some t
  | .cnclose _ t => some t
  | .tick _ _ t => some t
  | .capq _ _ t => some t
  | .perf _ _ _ t => some t
  | .flagsq _ _ t => some t
  | _ => none

/-- The second word of a step, where the step has a long form (R112). -/
def Instr.long? : Instr → Option LongForm
  | .run _ _ _ _ _ l _ => l
  | .qset _ _ _ _ l _ => l
  | .sopen _ _ _ _ _ l _ => l
  | .sclose _ _ _ l _ => l
  | .sbar _ _ l _ => l
  | .copy _ l _ => l
  | .copyc _ _ l _ => l
  | .copycResume _ l _ => l
  | .coll _ l _ => l
  | _ => none

/-- A valid narrow-format descriptor (R40). -/
def descValid (d : BitVec 24) : Bool :=
  let s := d.toNat / 2 ^ 23 % 2
  let e := d.toNat / 2 ^ 20 % 8
  let m := d.toNat / 2 ^ 17 % 8
  let p := d.toNat / 2 ^ 15 % 4
  2 ≤ s + e + m && s + e + m ≤ 8 && p != 3 && d.toNat % 2 ^ 7 == 0 &&
    (p != 0 || (2 ≤ e && 1 ≤ m)) && (e != 0 || (p == 2 && 1 ≤ m))

/-- What the entries of the steps refuse in their operands, with the code. -/
def Instr.stepExtra : Instr → Option Refused
  | .waits mask _ _ => if mask &&& 0x1FC0 == 0 then none else some .stepOperand
  | .kset _ hi imm _ => if hi && imm.toNat / 2 ^ 16 != 0 then some .stepOperand else none
  | .fmtset _ desc _ => if descValid desc then none else some .descriptor
  | .qset _ _ _ ent _ _ => if ent == 0 then some .stepOperand else none
  | .sbar mask _ _ _ => if mask == 0 then some .stepOperand else none
  | .atom op wide _ _ _ c _ _ =>
    if (op == .fadd && wide) || (op != .cas && c != ⟨false, 0⟩) then some .stepOperand else none
  | .capq _ sel _ => if sel.toNat < 18 then none else some .stepOperand
  | _ => none

/-- What one word must keep to be registered: none, or the refusal of the first rule it breaks. Machine events
have no word and nothing to keep here. -/
def Instr.check (i : Instr) : Option Refused :=
  match i.shape?, i.row?, i.tile? with
  | some sh, some r, _ => checkRow i sh r
  | _, _, some (maj, _, r) => checkTile maj r
  | _, _, _ =>
    match i.trans? with
    | some t => if t.ok then i.stepExtra else some .transition
    | none => i.stepExtra

/-- An instruction that registration accepts as far as its own word says. -/
def Instr.wf (i : Instr) : Bool := i.check == none

end Sys2Proof
end

