-- ==== Sys2Proof/Decode.lean ====
section
/-!
DEFINITION. Decoding and encoding of row words (spec/07 R99 to R106) and step words (R107 to R113). Decoding is
total: any word is an instruction or is refused with the validation code of R127. The encoder stands after the field
decoders it must agree with. Machine events have no word.
-/

namespace Sys2Proof

/-- Rounding mode bits (R47). -/
def Rm.bits : Rm → BitVec 2
  | .rne => 0 | .rtz => 1 | .rdn => 2 | .rup => 3

/-- The rounding mode of its bits. -/
def Rm.ofBits (b : BitVec 2) : Rm :=
  match b.toNat with
  | 0 => .rne | 1 => .rtz | 2 => .rdn | _ => .rup

/-- GRD (R99, R100). -/
def Guard.bits (g : Guard) : BitVec 4 := BitVec.ofBool g.neg ++ BitVec.ofFin (w := 3) g.p

/-- The guard of GRD. -/
def Guard.ofBits (b : BitVec 4) : Guard := ⟨b.getLsbD 3, (b.extractLsb' 0 3).toFin⟩

/-- PRO (R99). -/
def proBits : Option (Fin 8) → BitVec 4
  | none => 0
  | some p => (1 : BitVec 1) ++ BitVec.ofFin (w := 3) p

/-- The predicate output of PRO; PRO[3] = 0 with a predicate number is refused (R113). -/
def proOfBits (b : BitVec 4) : Option (Option (Fin 8)) :=
  if b.getLsbD 3 then some (some (b.extractLsb' 0 3).toFin) else if b = 0 then some none else none

/-- The TY field (R101). -/
def Ty.bits (t : Ty) : BitVec 4 := BitVec.ofNat 4 t.code

/-- The index of a port in class 2 (R68). -/
def Port.bits : Port → BitVec 6
  | .up => 0 | .dn => 1 | .w => 2 | .e => 3
  | .pi n => (1 : BitVec 4) ++ BitVec.ofFin (w := 2) n
  | .po n => (2 : BitVec 4) ++ BitVec.ofFin (w := 2) n
  | .tap n => (3 : BitVec 4) ++ BitVec.ofFin (w := 2) n

/-- The port of an index; 16 to 63 are reserved. -/
def Port.ofBits (b : BitVec 6) : Option Port :=
  match (b.extractLsb' 2 4).toNat with
  | 0 => match (b.extractLsb' 0 2).toNat with
    | 0 => some .up | 1 => some .dn | 2 => some .w | _ => some .e
  | 1 => some (.pi (b.extractLsb' 0 2).toFin)
  | 2 => some (.po (b.extractLsb' 0 2).toFin)
  | 3 => some (.tap (b.extractLsb' 0 2).toFin)
  | _ => none

/-- The index of a special operand (R102, class 4). -/
def Special.bits : Special → BitVec 6
  | .it => 0 | .eid => 1 | .lid => 2 | .sid => 3 | .tcl => 4 | .sb => 5

/-- The special operand of an index; 6 to 63 are reserved. -/
def Special.ofBits (b : BitVec 6) : Option Special :=
  match b.toNat with
  | 0 => some .it | 1 => some .eid | 2 => some .lid | 3 => some .sid | 4 => some .tcl | 5 => some .sb | _ => none

/-- The six bits of a queue: side, a zero, the number (R102, class 6; R105). -/
def QName.bits (q : QName) : BitVec 6 := BitVec.ofBool q.down ++ (0 : BitVec 1) ++ BitVec.ofFin (w := 4) q.n

/-- The queue of its bits; bit [4] is reserved. -/
def QName.ofBits (b : BitVec 6) : Option QName :=
  if b.getLsbD 4 then none else some ⟨b.getLsbD 5, (b.extractLsb' 0 4).toFin⟩

/-- The index of a matrix resource (R102, class 7). -/
def MatReg.bits : MatReg → BitVec 6
  | .acc n => (0 : BitVec 4) ++ BitVec.ofFin (w := 2) n
  | .cb n => (2 : BitVec 5) ++ BitVec.ofFin (w := 1) n
  | .xa => 6
  | .ckr n => (2 : BitVec 4) ++ BitVec.ofFin (w := 2) n
  | .ckc n => (3 : BitVec 4) ++ BitVec.ofFin (w := 2) n

/-- The matrix resource of an index; 7 and 16 to 63 are reserved. -/
def MatReg.ofBits (b : BitVec 6) : Option MatReg :=
  match (b.extractLsb' 2 4).toNat with
  | 0 => some (.acc (b.extractLsb' 0 2).toFin)
  | 1 => match (b.extractLsb' 0 2).toNat with
    | 0 => some (.cb 0) | 1 => some (.cb 1) | 2 => some .xa | _ => none
  | 2 => some (.ckr (b.extractLsb' 0 2).toFin)
  | 3 => some (.ckc (b.extractLsb' 0 2).toFin)
  | _ => none

/-- An operand specifier (R102): class in [8:6], index in [5:0]. -/
def Opnd.bits : Opnd → BitVec 9
  | .v n => (0 : BitVec 3) ++ BitVec.ofFin (w := 6) n
  | .x n => (1 : BitVec 3) ++ (0 : BitVec 2) ++ BitVec.ofFin (w := 4) n
  | .port p => (2 : BitVec 3) ++ p.bits
  | .imm i => (3 : BitVec 3) ++ i
  | .special s => (4 : BitVec 3) ++ s.bits
  | .pred n => (5 : BitVec 3) ++ (0 : BitVec 3) ++ BitVec.ofFin (w := 3) n
  | .queue q => (6 : BitVec 3) ++ q.bits
  | .mat m => (7 : BitVec 3) ++ m.bits

/-- The operand of a specifier, or none for a reserved index. -/
def Opnd.ofBits (b : BitVec 9) : Option Opnd :=
  let ix := b.extractLsb' 0 6
  match (b.extractLsb' 6 3).toNat with
  | 0 => some (.v ix.toFin)
  | 1 => if (ix.extractLsb' 4 2) = 0 then some (.x (ix.extractLsb' 0 4).toFin) else none
  | 2 => (Port.ofBits ix).map .port
  | 3 => some (.imm ix)
  | 4 => (Special.ofBits ix).map .special
  | 5 => if (ix.extractLsb' 3 3) = 0 then some (.pred (ix.extractLsb' 0 3).toFin) else none
  | 6 => (QName.ofBits ix).map .queue
  | _ => (MatReg.ofBits ix).map .mat

/-- A class 5 operand. -/
def Opnd.isPred : Opnd → Bool
  | .pred _ => true
  | _ => false

/-- Bits [67:0] of a general-format row (R99). -/
def Row.bits (r : Row) : BitVec 68 :=
  r.guard.bits ++ proBits r.pro ++ r.ty.bits ++ r.dst.bits ++ r.sa.bits ++ r.sb.bits ++ r.sc.bits ++
    r.rm.bits ++ BitVec.ofBool r.sat ++ BitVec.ofBool r.z ++ r.imm

/-- The general-format row of bits [67:0]. -/
def Row.ofBits (b : BitVec 68) : Option Row :=
  (proOfBits (b.extractLsb' 60 4)).bind fun pro =>
  (Ty.ofCode (b.extractLsb' 56 4).toNat).bind fun ty =>
  (Opnd.ofBits (b.extractLsb' 47 9)).bind fun dst =>
  (Opnd.ofBits (b.extractLsb' 38 9)).bind fun sa =>
  (Opnd.ofBits (b.extractLsb' 29 9)).bind fun sb =>
  (Opnd.ofBits (b.extractLsb' 20 9)).bind fun sc =>
  some ⟨Guard.ofBits (b.extractLsb' 64 4), pro, ty, dst, sa, sb, sc, Rm.ofBits (b.extractLsb' 18 2),
    b.getLsbD 17, b.getLsbD 16, b.extractLsb' 0 16⟩

/-- Bits [67:0] of a tile-step row (R105). -/
def TileRow.bits (r : TileRow) : BitVec 68 :=
  BitVec.ofBool r.nop ++ (0 : BitVec 3) ++ r.qa.bits ++ r.qb.bits ++ BitVec.ofFin (w := 2) r.acb ++
    BitVec.ofFin (w := 2) r.win ++ BitVec.ofBool r.ta ++ BitVec.ofBool r.tb ++ BitVec.ofBool r.zero ++
    BitVec.ofBool r.ck ++ r.rep ++ r.apop ++ r.bpop ++ r.pen

/-- The tile-step row of bits [67:0]; GRD other than 0b0000 and 0b1000 is refused (R105). -/
def TileRow.ofBits (b : BitVec 68) : Option TileRow :=
  if (b.extractLsb' 64 3) = 0 then
    (QName.ofBits (b.extractLsb' 58 6)).bind fun qa =>
    (QName.ofBits (b.extractLsb' 52 6)).bind fun qb =>
    some ⟨b.getLsbD 67, qa, qb, (b.extractLsb' 50 2).toFin, (b.extractLsb' 48 2).toFin, b.getLsbD 47, b.getLsbD 46,
      b.getLsbD 45, b.getLsbD 44, b.extractLsb' 32 12, b.extractLsb' 24 8, b.extractLsb' 16 8, b.extractLsb' 0 16⟩
  else none

/-- XC of a condition (R109). -/
def Cond.bits : Cond → BitVec 6
  | .always => 1
  | .kz n => BitVec.ofNat 6 (2 + n.val)
  | .knz n => BitVec.ofNat 6 (18 + n.val)
  | .idle n => BitVec.ofNat 6 (34 + n.val)
  | .line n => BitVec.ofNat 6 (42 + n.val)

/-- The condition of XC; 58 to 63 are reserved, and 0 is no condition. -/
def Cond.ofBits (b : BitVec 6) : Option Cond :=
  let c := b.toNat
  if c = 0 then none
  else if c = 1 then some .always
  else if c < 18 then some (.kz (Fin.ofNat 16 (c - 2)))
  else if c < 34 then some (.knz (Fin.ofNat 16 (c - 18)))
  else if c < 42 then some (.idle (Fin.ofNat 8 (c - 34)))
  else if c < 58 then some (.line (Fin.ofNat 16 (c - 42)))
  else none

/-- XC and XT. -/
def Trans.bits : Trans → BitVec 18
  | .fall => 0
  | .goto c target => c.bits ++ target

/-- The transition of XC and XT; XT is zero with XC = 0 (R113). -/
def Trans.ofBits (b : BitVec 18) : Option Trans :=
  if b = 0 then some .fall
  else (Cond.ofBits (b.extractLsb' 12 6)).map fun c => .goto c (b.extractLsb' 0 12)

/-- The second word of a long step (R108), EXT zero. -/
def LongForm.bits (l : LongForm) : BitVec 64 :=
  l.start ++ BitVec.ofBool l.vs.isSome ++ (l.vs.getD 0) ++ (0 : BitVec 21)

/-- The long form of a second word. -/
def LongForm.ofBits (w : BitVec 64) : LongForm :=
  ⟨w.extractLsb' 32 32, if w.getLsbD 31 then some (w.extractLsb' 21 10) else none⟩

/-- SCOPE (R28). -/
def Scope.bits : Scope → BitVec 3
  | .ring => 0 | .die => 1 | .pkg => 2 | .pod => 3 | .sys => 4

/-- The scope of its code; 5 to 7 are reserved. -/
def Scope.ofBits (b : BitVec 3) : Option Scope :=
  match b.toNat with
  | 0 => some .ring | 1 => some .die | 2 => some .pkg | 3 => some .pod | 4 => some .sys | _ => none

/-- A register type bit and number. -/
def SReg.bits (r : SReg) : BitVec 5 := BitVec.ofBool r.isA ++ BitVec.ofFin (w := 4) r.n

/-- The register of its bits. -/
def SReg.ofBits (b : BitVec 5) : SReg := ⟨b.getLsbD 4, (b.extractLsb' 0 4).toFin⟩

/-- A and K of `amov` (R152): K = 1 names a counter. -/
def SReg.amovBits (r : SReg) : BitVec 5 := BitVec.ofFin (w := 4) r.n ++ BitVec.ofBool !r.isA

/-- The source of `amov`. -/
def SReg.ofAmovBits (b : BitVec 5) : SReg := ⟨!b.getLsbD 0, (b.extractLsb' 1 4).toFin⟩

/-- I and the second operand of a counter step (R152). -/
def KOperand.bits : KOperand → BitVec 30
  | .reg b => (0 : BitVec 1) ++ BitVec.ofFin (w := 4) b ++ (0 : BitVec 25)
  | .imm i => (1 : BitVec 1) ++ i

/-- The second operand of its bits. -/
def KOperand.ofBits (b : BitVec 30) : KOperand :=
  if b.getLsbD 29 then .imm (b.extractLsb' 0 29) else .reg (b.extractLsb' 25 4).toFin

/-- A and SRC of `kmov` (R154). -/
def KSrc.bits : KSrc → BitVec 8
  | .k n => BitVec.ofFin (w := 4) n ++ (0 : BitVec 4)
  | .a n => BitVec.ofFin (w := 4) n ++ (1 : BitVec 4)
  | .tc => (0 : BitVec 4) ++ (2 : BitVec 4)
  | .wdi => (0 : BitVec 4) ++ (3 : BitVec 4)
  | .wdp => (0 : BitVec 4) ++ (4 : BitVec 4)
  | .tok t => (0 : BitVec 1) ++ BitVec.ofFin (w := 3) t ++ (5 : BitVec 4)

/-- The source of `kmov` of its bits; SRC 6 to 15 are reserved. -/
def KSrc.ofBits (b : BitVec 8) : Option KSrc :=
  match (b.extractLsb' 0 4).toNat with
  | 0 => some (.k (b.extractLsb' 4 4).toFin)
  | 1 => some (.a (b.extractLsb' 4 4).toFin)
  | 2 => some .tc
  | 3 => some .wdi
  | 4 => some .wdp
  | 5 => some (.tok (b.extractLsb' 4 3).toFin)
  | _ => none

/-- SZ of `ald` (R152). -/
def AccessSize.bits : AccessSize → BitVec 2
  | .w => 0 | .wz => 1 | .d => 2

/-- The access of SZ; 3 is refused. -/
def AccessSize.ofBits (b : BitVec 2) : Option AccessSize :=
  match b.toNat with
  | 0 => some .w | 1 => some .wz | 2 => some .d | _ => none

/-- SZ of `ast`, which has no `.wz`. -/
def wideBits (wide : Bool) : BitVec 2 := if wide then 2 else 0

/-- Whether SZ of `ast` is `.d`. -/
def wideOfBits (b : BitVec 2) : Option Bool :=
  match b.toNat with
  | 0 => some false | 2 => some true | _ => none

/-- KB and BO of `run` (R159). -/
def kbBits : Option (Fin 16) → BitVec 5
  | none => 0
  | some n => BitVec.ofFin (w := 4) n ++ (1 : BitVec 1)

/-- The wave-size counter of `run`. -/
def kbOfBits (b : BitVec 5) : Option (Fin 16) := if b.getLsbD 0 then some (b.extractLsb' 1 4).toFin else none

/-- KIND of `fence` (R303). -/
def FenceKind.bits : FenceKind → BitVec 2
  | .rel => 1 | .acq => 2 | .full => 3

/-- The fence of KIND; 0 is refused. -/
def FenceKind.ofBits (b : BitVec 2) : Option FenceKind :=
  match b.toNat with
  | 1 => some .rel | 2 => some .acq | 3 => some .full | _ => none

/-- OPC of `atom` (R304). -/
def AtomOp.bits : AtomOp → BitVec 4
  | .add => 0 | .smin => 1 | .smax => 2 | .umin => 3 | .umax => 4 | .and => 5 | .or => 6 | .xor => 7 | .exch => 8
  | .cas => 9 | .fadd => 10

/-- The operation of OPC; 11 to 15 are reserved. -/
def AtomOp.ofBits (b : BitVec 4) : Option AtomOp :=
  match b.toNat with
  | 0 => some .add | 1 => some .smin | 2 => some .smax | 3 => some .umin | 4 => some .umax | 5 => some .and
  | 6 => some .or | 7 => some .xor | 8 => some .exch | 9 => some .cas | 10 => some .fadd | _ => none

/-- SRC of `tick` (R318). -/
def TickSrc.bits : TickSrc → BitVec 2
  | .reference => 0 | .watchdog => 1 | .remaining => 2

/-- The source of `tick`; 3 is refused. -/
def TickSrc.ofBits (b : BitVec 2) : Option TickSrc :=
  match b.toNat with
  | 0 => some .reference | 1 => some .watchdog | 2 => some .remaining | _ => none

/-- The operand bits [37:0] of a step, as its entry lays them out (R144, R152, R159, R166, R179, R291, R299, R303,
R304, R307, R313, R318); zero for what is no step. -/
def stepOperands : Instr → BitVec 38
  | .stepNop _ => (0 : BitVec 38)
  | .go _ => (0 : BitVec 38)
  | .goIndirect a => (1 : BitVec 1) ++ BitVec.ofFin (w := 4) a ++ (0 : BitVec 33)
  | .call _ => (0 : BitVec 38)
  | .ret => (0 : BitVec 38)
  | .endStep status => (0 : BitVec 22) ++ status
  | .waitt mask _ => mask ++ (0 : BitVec 30)
  | .waits mask all _ => mask ++ BitVec.ofBool all ++ (0 : BitVec 21)
  | .stepTrap code => (0 : BitVec 22) ++ code
  | .yield _ => (0 : BitVec 38)
  | .sys svc _ => (0 : BitVec 22) ++ svc
  | .stepBrk code _ => (0 : BitVec 22) ++ code
  | .kset d hi imm _ => BitVec.ofFin (w := 4) d ++ BitVec.ofBool hi ++ (0 : BitVec 1) ++ imm
  | .kmov d src _ => BitVec.ofFin (w := 4) d ++ src.bits ++ (0 : BitVec 26)
  | .kadd d a y _ => BitVec.ofFin (w := 4) d ++ BitVec.ofFin (w := 4) a ++ y.bits
  | .ksub d a y _ => BitVec.ofFin (w := 4) d ++ BitVec.ofFin (w := 4) a ++ y.bits
  | .kmul d a y _ => BitVec.ofFin (w := 4) d ++ BitVec.ofFin (w := 4) a ++ y.bits
  | .kand d a y _ => BitVec.ofFin (w := 4) d ++ BitVec.ofFin (w := 4) a ++ y.bits
  | .kor d a y _ => BitVec.ofFin (w := 4) d ++ BitVec.ofFin (w := 4) a ++ y.bits
  | .kxor d a y _ => BitVec.ofFin (w := 4) d ++ BitVec.ofFin (w := 4) a ++ y.bits
  | .kshl d a y _ => BitVec.ofFin (w := 4) d ++ BitVec.ofFin (w := 4) a ++ y.bits
  | .kshr d a y _ => BitVec.ofFin (w := 4) d ++ BitVec.ofFin (w := 4) a ++ y.bits
  | .kmin d a y _ => BitVec.ofFin (w := 4) d ++ BitVec.ofFin (w := 4) a ++ y.bits
  | .kmax d a y _ => BitVec.ofFin (w := 4) d ++ BitVec.ofFin (w := 4) a ++ y.bits
  | .kdec d _ => BitVec.ofFin (w := 4) d ++ (0 : BitVec 34)
  | .aset d hi imm _ => BitVec.ofFin (w := 4) d ++ BitVec.ofBool hi ++ (0 : BitVec 1) ++ imm
  | .amov d src _ => BitVec.ofFin (w := 4) d ++ src.amovBits ++ (0 : BitVec 29)
  | .aadd d a y _ => BitVec.ofFin (w := 4) d ++ BitVec.ofFin (w := 4) a ++ y.bits
  | .amad d a b imm _ => BitVec.ofFin (w := 4) d ++ BitVec.ofFin (w := 4) a ++ BitVec.ofFin (w := 4) b ++ (0 : BitVec 2) ++ imm
  | .ald d a sz off _ => d.bits ++ BitVec.ofFin (w := 4) a ++ sz.bits ++ (0 : BitVec 7) ++ off
  | .ast b a wide off _ => b.bits ++ BitVec.ofFin (w := 4) a ++ wideBits wide ++ (0 : BitVec 7) ++ off
  | .vpl vs cm1 _ => vs ++ cm1 ++ (0 : BitVec 22)
  | .run first nvm1 kw kb ksel _ _ => first ++ nvm1 ++ BitVec.ofFin (w := 4) kw ++ kbBits kb ++ BitVec.ofFin (w := 4) ksel ++ (0 : BitVec 5)
  | .park wait _ => (0 : BitVec 37) ++ BitVec.ofBool wait
  | .fmtset n desc _ => BitVec.ofFin (w := 3) n ++ (0 : BitVec 11) ++ desc
  | .qset q kb szm1 ent _ _ => BitVec.ofFin (w := 4) q ++ BitVec.ofFin (w := 4) kb ++ szm1 ++ ent ++ (0 : BitVec 5)
  | .sopen n vs out q a _ _ => BitVec.ofFin (w := 5) n ++ vs ++ BitVec.ofBool out ++ BitVec.ofFin (w := 4) q ++ BitVec.ofFin (w := 4) a ++ (0 : BitVec 14)
  | .sclose n abort wait _ _ => BitVec.ofFin (w := 5) n ++ BitVec.ofBool abort ++ BitVec.ofBool wait ++ (0 : BitVec 31)
  | .sbar mask scope _ _ => mask ++ scope.bits ++ (0 : BitVec 3)
  | .spos d n _ => BitVec.ofFin (w := 4) d ++ BitVec.ofFin (w := 5) n ++ (0 : BitVec 29)
  | .copy a _ _ => BitVec.ofFin (w := 4) a ++ (0 : BitVec 34)
  | .copyc n a _ _ => BitVec.ofFin (w := 4) n ++ BitVec.ofFin (w := 4) a ++ (0 : BitVec 30)
  | .copycResume n _ _ => BitVec.ofFin (w := 4) n ++ (0 : BitVec 4) ++ (1 : BitVec 1) ++ (0 : BitVec 29)
  | .binit b c scope _ => BitVec.ofFin (w := 4) b ++ BitVec.ofFin (w := 4) c ++ scope.bits ++ (0 : BitVec 27)
  | .barr b _ => BitVec.ofFin (w := 4) b ++ (0 : BitVec 34)
  | .bexp b n outb _ => BitVec.ofFin (w := 4) b ++ BitVec.ofFin (w := 4) n ++ BitVec.ofBool outb ++ (0 : BitVec 29)
  | .bwait b g _ => BitVec.ofFin (w := 4) b ++ BitVec.ofFin (w := 4) g ++ (0 : BitVec 30)
  | .hpost q src _ => BitVec.ofFin (w := 4) q ++ src.bits ++ (0 : BitVec 29)
  | .htake d q _ => d.bits ++ BitVec.ofFin (w := 4) q ++ (0 : BitVec 29)
  | .trig _ => (0 : BitVec 38)
  | .fence kind scope _ => kind.bits ++ scope.bits ++ (0 : BitVec 33)
  | .atom op wide d a b c off _ => op.bits ++ BitVec.ofBool wide ++ d.bits ++ BitVec.ofFin (w := 4) a ++ b.bits ++ c.bits ++ off
  | .coll a _ _ => BitVec.ofFin (w := 4) a ++ (0 : BitVec 34)
  | .cnopen region hnd m _ => region ++ hnd ++ BitVec.ofFin (w := 4) m ++ (0 : BitVec 14)
  | .cnclose region _ => region ++ (0 : BitVec 30)
  | .tick d src _ => BitVec.ofFin (w := 4) d ++ src.bits ++ (0 : BitVec 32)
  | .capq d sel _ => BitVec.ofFin (w := 4) d ++ sel ++ (0 : BitVec 26)
  | .perf d ev clr _ => BitVec.ofFin (w := 4) d ++ (0 : BitVec 2) ++ BitVec.ofFin (w := 4) ev ++ BitVec.ofBool clr ++ (0 : BitVec 27)
  | .flagsq d clr _ => BitVec.ofFin (w := 4) d ++ BitVec.ofBool clr ++ (0 : BitVec 33)
  | _ => 0

/-- OP of a step (R111). -/
def stepOp : Instr → BitVec 6
  | .stepNop _ => 0x00
  | .go _ => 0x01
  | .goIndirect _ => 0x01
  | .call _ => 0x02
  | .ret => 0x03
  | .endStep _ => 0x04
  | .waitt _ _ => 0x05
  | .waits _ _ _ => 0x06
  | .stepTrap _ => 0x07
  | .yield _ => 0x08
  | .sys _ _ => 0x09
  | .stepBrk _ _ => 0x0A
  | .kset _ _ _ _ => 0x0C
  | .kmov _ _ _ => 0x0D
  | .kadd _ _ _ _ => 0x0E
  | .ksub _ _ _ _ => 0x0F
  | .kmul _ _ _ _ => 0x10
  | .kand _ _ _ _ => 0x11
  | .kor _ _ _ _ => 0x12
  | .kxor _ _ _ _ => 0x13
  | .kshl _ _ _ _ => 0x14
  | .kshr _ _ _ _ => 0x15
  | .kmin _ _ _ _ => 0x16
  | .kmax _ _ _ _ => 0x17
  | .kdec _ _ => 0x18
  | .aset _ _ _ _ => 0x19
  | .amov _ _ _ => 0x1A
  | .aadd _ _ _ _ => 0x1B
  | .amad _ _ _ _ _ => 0x1C
  | .ald _ _ _ _ _ => 0x1D
  | .ast _ _ _ _ _ => 0x1E
  | .vpl _ _ _ => 0x20
  | .run _ _ _ _ _ _ _ => 0x21
  | .park _ _ => 0x22
  | .fmtset _ _ _ => 0x23
  | .qset _ _ _ _ _ _ => 0x24
  | .sopen _ _ _ _ _ _ _ => 0x26
  | .sclose _ _ _ _ _ => 0x27
  | .sbar _ _ _ _ => 0x28
  | .spos _ _ _ => 0x29
  | .copy _ _ _ => 0x2A
  | .copyc _ _ _ _ => 0x2B
  | .copycResume _ _ _ => 0x2B
  | .binit _ _ _ _ => 0x2C
  | .barr _ _ => 0x2D
  | .bexp _ _ _ _ => 0x2E
  | .bwait _ _ _ => 0x2F
  | .hpost _ _ _ => 0x30
  | .htake _ _ _ => 0x31
  | .trig _ => 0x32
  | .fence _ _ _ => 0x33
  | .atom _ _ _ _ _ _ _ _ => 0x34
  | .coll _ _ _ => 0x36
  | .cnopen _ _ _ _ => 0x37
  | .cnclose _ _ => 0x38
  | .tick _ _ _ => 0x3C
  | .capq _ _ _ => 0x3D
  | .perf _ _ _ _ => 0x3E
  | .flagsq _ _ _ => 0x3F
  | _ => 0

/-- The transition bits [55:38] of a step (R109, R144). -/
def stepTrans (i : Instr) : BitVec 18 :=
  match i, i.trans? with
  | .go target, _ => (1 : BitVec 6) ++ target
  | .call target, _ => (1 : BitVec 6) ++ target
  | _, some t => t.bits
  | _, none => 0

/-- The first word of a step (R107). -/
def stepWord (i : Instr) : BitVec 64 :=
  stepOp i ++ (if i.long?.isSome then (1 : BitVec 2) else 0) ++ stepTrans i ++ stepOperands i

/-- The second word of a step (R108); zero for a short step, which has none. -/
def stepWord2 (i : Instr) : BitVec 64 :=
  match i.long? with
  | some l => l.bits
  | none => 0

/-- The step that operation bits, operand bits, transition and second word name, before any check that reserved bits
are zero. `target` is XT. -/
def stepFields (op : Nat) (o : BitVec 38) (t : Trans) (target : BitVec 12) (l : Option LongForm) : Option Instr :=
  match op with
  | 0 => some (.stepNop t)
  | 1 => if o.getLsbD 37 then some (.goIndirect (o.extractLsb' 33 4).toFin) else some (.go target)
  | 2 => some (.call target)
  | 3 => some (.ret)
  | 4 => some (.endStep (o.extractLsb' 0 16))
  | 5 => some (.waitt (o.extractLsb' 30 8) t)
  | 6 => some (.waits (o.extractLsb' 22 16) (o.getLsbD 21) t)
  | 7 => some (.stepTrap (o.extractLsb' 0 16))
  | 8 => some (.yield t)
  | 9 => some (.sys (o.extractLsb' 0 16) t)
  | 10 => some (.stepBrk (o.extractLsb' 0 16) t)
  | 12 => some (.kset (o.extractLsb' 34 4).toFin (o.getLsbD 33) (o.extractLsb' 0 32) t)
  | 13 => (KSrc.ofBits (o.extractLsb' 26 8)).bind fun src => some (.kmov (o.extractLsb' 34 4).toFin src t)
  | 14 => some (.kadd (o.extractLsb' 34 4).toFin (o.extractLsb' 30 4).toFin (KOperand.ofBits (o.extractLsb' 0 30)) t)
  | 15 => some (.ksub (o.extractLsb' 34 4).toFin (o.extractLsb' 30 4).toFin (KOperand.ofBits (o.extractLsb' 0 30)) t)
  | 16 => some (.kmul (o.extractLsb' 34 4).toFin (o.extractLsb' 30 4).toFin (KOperand.ofBits (o.extractLsb' 0 30)) t)
  | 17 => some (.kand (o.extractLsb' 34 4).toFin (o.extractLsb' 30 4).toFin (KOperand.ofBits (o.extractLsb' 0 30)) t)
  | 18 => some (.kor (o.extractLsb' 34 4).toFin (o.extractLsb' 30 4).toFin (KOperand.ofBits (o.extractLsb' 0 30)) t)
  | 19 => some (.kxor (o.extractLsb' 34 4).toFin (o.extractLsb' 30 4).toFin (KOperand.ofBits (o.extractLsb' 0 30)) t)
  | 20 => some (.kshl (o.extractLsb' 34 4).toFin (o.extractLsb' 30 4).toFin (KOperand.ofBits (o.extractLsb' 0 30)) t)
  | 21 => some (.kshr (o.extractLsb' 34 4).toFin (o.extractLsb' 30 4).toFin (KOperand.ofBits (o.extractLsb' 0 30)) t)
  | 22 => some (.kmin (o.extractLsb' 34 4).toFin (o.extractLsb' 30 4).toFin (KOperand.ofBits (o.extractLsb' 0 30)) t)
  | 23 => some (.kmax (o.extractLsb' 34 4).toFin (o.extractLsb' 30 4).toFin (KOperand.ofBits (o.extractLsb' 0 30)) t)
  | 24 => some (.kdec (o.extractLsb' 34 4).toFin t)
  | 25 => some (.aset (o.extractLsb' 34 4).toFin (o.getLsbD 33) (o.extractLsb' 0 32) t)
  | 26 => some (.amov (o.extractLsb' 34 4).toFin (SReg.ofAmovBits (o.extractLsb' 29 5)) t)
  | 27 => some (.aadd (o.extractLsb' 34 4).toFin (o.extractLsb' 30 4).toFin (KOperand.ofBits (o.extractLsb' 0 30)) t)
  | 28 => some (.amad (o.extractLsb' 34 4).toFin (o.extractLsb' 30 4).toFin (o.extractLsb' 26 4).toFin (o.extractLsb' 0 24) t)
  | 29 => (AccessSize.ofBits (o.extractLsb' 27 2)).bind fun sz => some (.ald (SReg.ofBits (o.extractLsb' 33 5)) (o.extractLsb' 29 4).toFin sz (o.extractLsb' 0 20) t)
  | 30 => (wideOfBits (o.extractLsb' 27 2)).bind fun wide => some (.ast (SReg.ofBits (o.extractLsb' 33 5)) (o.extractLsb' 29 4).toFin wide (o.extractLsb' 0 20) t)
  | 32 => some (.vpl (o.extractLsb' 28 10) (o.extractLsb' 22 6) t)
  | 33 => some (.run (o.extractLsb' 28 10) (o.extractLsb' 18 10) (o.extractLsb' 14 4).toFin (kbOfBits (o.extractLsb' 9 5)) (o.extractLsb' 5 4).toFin l t)
  | 34 => some (.park (o.getLsbD 0) t)
  | 35 => some (.fmtset (o.extractLsb' 35 3).toFin (o.extractLsb' 0 24) t)
  | 36 => some (.qset (o.extractLsb' 34 4).toFin (o.extractLsb' 30 4).toFin (o.extractLsb' 16 14) (o.extractLsb' 5 11) l t)
  | 38 => some (.sopen (o.extractLsb' 33 5).toFin (o.extractLsb' 23 10) (o.getLsbD 22) (o.extractLsb' 18 4).toFin (o.extractLsb' 14 4).toFin l t)
  | 39 => some (.sclose (o.extractLsb' 33 5).toFin (o.getLsbD 32) (o.getLsbD 31) l t)
  | 40 => (Scope.ofBits (o.extractLsb' 3 3)).bind fun scope => some (.sbar (o.extractLsb' 6 32) scope l t)
  | 41 => some (.spos (o.extractLsb' 34 4).toFin (o.extractLsb' 29 5).toFin t)
  | 42 => some (.copy (o.extractLsb' 34 4).toFin l t)
  | 43 => if o.getLsbD 29 then some (.copycResume (o.extractLsb' 34 4).toFin l t) else some (.copyc (o.extractLsb' 34 4).toFin (o.extractLsb' 30 4).toFin l t)
  | 44 => (Scope.ofBits (o.extractLsb' 27 3)).bind fun scope => some (.binit (o.extractLsb' 34 4).toFin (o.extractLsb' 30 4).toFin scope t)
  | 45 => some (.barr (o.extractLsb' 34 4).toFin t)
  | 46 => some (.bexp (o.extractLsb' 34 4).toFin (o.extractLsb' 30 4).toFin (o.getLsbD 29) t)
  | 47 => some (.bwait (o.extractLsb' 34 4).toFin (o.extractLsb' 30 4).toFin t)
  | 48 => some (.hpost (o.extractLsb' 34 4).toFin (SReg.ofBits (o.extractLsb' 29 5)) t)
  | 49 => some (.htake (SReg.ofBits (o.extractLsb' 33 5)) (o.extractLsb' 29 4).toFin t)
  | 50 => some (.trig t)
  | 51 => (FenceKind.ofBits (o.extractLsb' 36 2)).bind fun kind => (Scope.ofBits (o.extractLsb' 33 3)).bind fun scope => some (.fence kind scope t)
  | 52 => (AtomOp.ofBits (o.extractLsb' 34 4)).bind fun op => some (.atom op (o.getLsbD 33) (SReg.ofBits (o.extractLsb' 28 5)) (o.extractLsb' 24 4).toFin (SReg.ofBits (o.extractLsb' 19 5)) (SReg.ofBits (o.extractLsb' 14 5)) (o.extractLsb' 0 14) t)
  | 54 => some (.coll (o.extractLsb' 34 4).toFin l t)
  | 55 => some (.cnopen (o.extractLsb' 30 8) (o.extractLsb' 18 12) (o.extractLsb' 14 4).toFin t)
  | 56 => some (.cnclose (o.extractLsb' 30 8) t)
  | 60 => (TickSrc.ofBits (o.extractLsb' 32 2)).bind fun src => some (.tick (o.extractLsb' 34 4).toFin src t)
  | 61 => some (.capq (o.extractLsb' 34 4).toFin (o.extractLsb' 26 8) t)
  | 62 => some (.perf (o.extractLsb' 34 4).toFin (o.extractLsb' 28 4).toFin (o.getLsbD 27) t)
  | 63 => some (.flagsq (o.extractLsb' 34 4).toFin (o.getLsbD 33) t)
  | _ => none

/-- The general row operation of a group and an operation (R106); forms that share a code differ by TY (`pack`,
`unpack`) or by the class of their operands (`psel`, `pmov`). -/
def rowOfMajFn (maj fn : Nat) (r : Row) : Option Instr :=
  match maj, fn with
  | 0, 0 => some (.rowNop r)
  | 0, 1 => some (.sig r)
  | 0, 2 => some (.rowTrap r)
  | 0, 3 => some (.rowBrk r)
  | 0, 4 => some (.flagrd r)
  | 0, 5 => some (.fmtld r)
  | 0, 6 => some (.tagchk r)
  | 1, 0 => some (.iter r)
  | 1, 1 => some (.eid r)
  | 1, 2 => some (.lid r)
  | 1, 3 => some (.sid r)
  | 1, 4 => some (.tcrd r)
  | 1, 5 => some (.imov r)
  | 1, 6 => some (.ilui r)
  | 2, 0 => some (.iadd r)
  | 2, 1 => some (.isub r)
  | 2, 2 => some (.imul r)
  | 2, 3 => some (.imulhi r)
  | 2, 4 => some (.imad r)
  | 2, 5 => some (.iaddsat r)
  | 2, 6 => some (.isubsat r)
  | 2, 7 => some (.iabs r)
  | 2, 8 => some (.ineg r)
  | 2, 9 => some (.imin r)
  | 2, 10 => some (.imax r)
  | 2, 11 => some (.iand r)
  | 2, 12 => some (.ior r)
  | 2, 13 => some (.ixor r)
  | 2, 14 => some (.inot r)
  | 2, 15 => some (.ishl r)
  | 2, 16 => some (.ishr r)
  | 2, 17 => some (.isra r)
  | 2, 18 => some (.irot r)
  | 2, 19 => some (.iclz r)
  | 2, 20 => some (.ipop r)
  | 2, 21 => some (.ibfx r)
  | 2, 22 => some (.ibfi r)
  | 3, 0 => some (.icmpEq r)
  | 3, 1 => some (.icmpNe r)
  | 3, 2 => some (.icmpLt r)
  | 3, 3 => some (.icmpLe r)
  | 3, 4 => some (.icmpGt r)
  | 3, 5 => some (.icmpGe r)
  | 4, 0 => some (.fadd r)
  | 4, 1 => some (.fsub r)
  | 4, 2 => some (.fmul r)
  | 4, 3 => some (.ffma r)
  | 4, 4 => some (.ffms r)
  | 4, 5 => some (.fnfma r)
  | 4, 6 => some (.fnfms r)
  | 4, 7 => some (.fmin r)
  | 4, 8 => some (.fmax r)
  | 4, 9 => some (.fabs r)
  | 4, 10 => some (.fneg r)
  | 4, 11 => some (.fcopysign r)
  | 4, 12 => some (.fscale r)
  | 4, 13 => some (.fround r)
  | 4, 14 => some (.fclass r)
  | 5, 0 => some (.fcmpEq r)
  | 5, 1 => some (.fcmpNe r)
  | 5, 2 => some (.fcmpLt r)
  | 5, 3 => some (.fcmpLe r)
  | 5, 4 => some (.fcmpGt r)
  | 5, 5 => some (.fcmpGe r)
  | 5, 6 => some (.fcmpUn r)
  | 5, 7 => some (.fcmpOrd r)
  | 6, 0 => some (.frcp r)
  | 6, 1 => some (.frsq r)
  | 6, 2 => some (.fsqrt r)
  | 6, 3 => some (.fdiv r)
  | 6, 4 => some (.fexp2 r)
  | 6, 5 => some (.flog2 r)
  | 6, 6 => some (.ftanh r)
  | 7, 0 => some (.cvt r)
  | 7, 1 => if r.ty = .n8 then some (.packN8 r) else some (.packF32 r)
  | 7, 2 => if r.ty = .n8 then some (.unpackN8 r) else some (.unpackF32 r)
  | 7, 3 => some (.quant r)
  | 7, 4 => some (.fexp8 r)
  | 7, 5 => some (.itof r)
  | 7, 6 => some (.ftoi r)
  | 8, 0 => if r.sa.isPred then some (.pselPred r) else some (.pselTag r)
  | 8, 1 => some (.pand r)
  | 8, 2 => some (.por r)
  | 8, 3 => some (.pxor r)
  | 8, 4 => some (.pnot r)
  | 8, 5 => some (.pset r)
  | 8, 6 => if !r.sa.isPred then some (.pmovVecToPred r) else if r.dst.isPred then some (.pmovPred r) else some (.pmovPredToVec r)
  | 8, 7 => some (.pany r)
  | 8, 8 => some (.pall r)
  | 9, 0 => some (.lrot r)
  | 9, 1 => some (.lbcast r)
  | 9, 2 => some (.lshuf r)
  | 9, 3 => some (.lredAdd r)
  | 9, 4 => some (.lredMax r)
  | 9, 5 => some (.lredMin r)
  | 9, 6 => some (.lscanAdd r)
  | 9, 7 => some (.lzip r)
  | 9, 8 => some (.lunzip r)
  | 10, 0 => some (.sld r)
  | 10, 1 => some (.sst r)
  | 10, 2 => some (.gadr r)
  | 10, 3 => some (.qpop r)
  | 10, 4 => some (.qpeek r)
  | 10, 5 => some (.qpush r)
  | 10, 6 => some (.qtx r)
  | 13, 0 => some (.accz r)
  | 13, 1 => some (.accrd r)
  | 13, 2 => some (.accwr r)
  | 13, 3 => some (.xcvt r)
  | 13, 4 => some (.cmerge r)
  | 13, 5 => some (.xmerge r)
  | 13, 6 => some (.xld r)
  | 13, 7 => some (.xst r)
  | 13, 8 => some (.mchk r)
  | 13, 9 => some (.mbnd r)
  | 13, 10 => some (.xcfg r)
  | _, _ => none

/-- The tile-step operation of a group and an operation (R106). -/
def tileOfMajFn (maj fn : Nat) (r : TileRow) : Option Instr :=
  match maj, fn with
  | 11, 0 => some (.mmaBf16 r)
  | 11, 1 => some (.mmaF16 r)
  | 11, 2 => some (.mmaF8 r)
  | 12, 0 => some (.mmc r)
  | 12, 1 => some (.mmcCh r)
  | _, _ => none

/-- The 80-bit word of a row (R99, R105); zero for what is no row. -/
def rowWord (i : Instr) : BitVec 80 :=
  match i.shape?, i.row?, i.tile? with
  | some sh, some r, _ => BitVec.ofNat 6 sh.maj ++ BitVec.ofNat 6 sh.fn ++ r.bits
  | _, _, some (maj, fn, r) => BitVec.ofNat 6 maj ++ BitVec.ofNat 6 fn ++ r.bits
  | _, _, _ => 0

/-- The row of an 80-bit word, or its refusal (R113). -/
def decodeRow (w : BitVec 80) : Except Refused Instr :=
  let maj := (w.extractLsb' 74 6).toNat
  let fn := (w.extractLsb' 68 6).toNat
  let b := w.extractLsb' 0 68
  let i? : Option Instr :=
    if maj = 11 ∨ maj = 12 then (TileRow.ofBits b).bind (tileOfMajFn maj fn)
    else (Row.ofBits b).bind (rowOfMajFn maj fn)
  match i? with
  | none => .error .rowEncoding
  | some i =>
    match i.check with
    | none => .ok i
    | some e => .error e

/-- Steps that must have XC = 1 (`go target`, `call`), XC = 0 (`go kA`, `ret`, `end`, `trap`), or any (R144). -/
def transRuleOk (i : Instr) (xc : BitVec 6) : Bool :=
  match i with
  | .go _ | .call _ => xc == 1
  | .goIndirect _ | .ret | .endStep _ | .stepTrap _ => xc == 0
  | _ => true

/-- OP codes that have a long form (R112). -/
def opHasLong (op : Nat) : Bool := op == 0x21 || op == 0x24 || op == 0x26 || op == 0x27 || op == 0x28 || op == 0x2A ||
  op == 0x2B || op == 0x36

/-- OP codes that R111 assigns. -/
def opAssigned (op : Nat) : Bool :=
  op != 0x0B && op != 0x1F && op != 0x25 && op != 0x35 && op != 0x39 && op != 0x3A && op != 0x3B

/-- The step of a first word and, when LF = 1, a second, or its refusal (R113). A bit that no entry defines must be
zero: the words of the step read must be the words given. -/
def decodeStep (w w2 : BitVec 64) : Except Refused Instr :=
  let op := (w.extractLsb' 58 6).toNat
  let lf := (w.extractLsb' 56 2).toNat
  if !opAssigned op || 1 < lf || (lf == 1 && !opHasLong op) then .error .stepOp
  else
    match Trans.ofBits (w.extractLsb' 38 18) with
    | none => .error .transition
    | some t =>
      let l := if lf = 1 then some (LongForm.ofBits w2) else none
      match stepFields op (w.extractLsb' 0 38) t (w.extractLsb' 38 12) l with
      | none => .error .stepOperand
      | some i =>
        if !transRuleOk i (w.extractLsb' 50 6) then .error .transition
        else
          match i.check with
          | some e => .error e
          | none => if stepWord i = w ∧ (lf = 1 → stepWord2 i = w2) then .ok i else .error .stepOperand

/-- Whether a step word is long (LF = 1, R107). -/
def stepIsLong (w : BitVec 64) : Bool := w.extractLsb' 56 2 == 1

/-- The bytes of a number, least significant first (R5). -/
def leBytes (n w : Nat) : List Byte :=
  match n with
  | 0 => []
  | n + 1 => BitVec.ofNat 8 w :: leBytes n (w / 256)

/-- The number that bytes hold, least significant first (R5). -/
def leNat : List Byte → Nat
  | [] => 0
  | b :: r => b.toNat + 256 * leNat r

/-- Where the word of an instruction goes: the row operations into a row slot, the steps into the state table. -/
inductive WordKind where
  | row | step | event
  deriving DecidableEq, Repr

/-- The kind of word an instruction has. -/
def Instr.kind (i : Instr) : WordKind :=
  if i.row?.isSome || i.tile?.isSome then .row
  else
    match i with
    | .go _ | .goIndirect _ | .call _ | .ret | .endStep _ | .stepTrap _ => .step
    | i => if i.trans?.isSome then .step else .event

/-- The words of an instruction as the bytes the hardware stores (R5): ten for a row, eight or sixteen for a step,
none for a machine event, which has no encoding. -/
def encode (i : Instr) : List Byte :=
  match i.kind with
  | .row => leBytes 10 (rowWord i).toNat
  | .step => leBytes 8 (stepWord i).toNat ++ (if i.long?.isSome then leBytes 8 (stepWord2 i).toNat else [])
  | .event => []

/-- The instruction of bytes as the hardware stores them: ten bytes are a row, eight or sixteen a step. -/
def decode (bs : List Byte) : Except Refused Instr :=
  if bs.length = 10 then decodeRow (BitVec.ofNat 80 (leNat bs))
  else if bs.length = 8 then
    (if stepIsLong (BitVec.ofNat 64 (leNat bs)) then .error .width else decodeStep (BitVec.ofNat 64 (leNat bs)) 0)
  else if bs.length = 16 then
    (if stepIsLong (BitVec.ofNat 64 (leNat (bs.take 8))) then
      decodeStep (BitVec.ofNat 64 (leNat (bs.take 8))) (BitVec.ofNat 64 (leNat (bs.drop 8)))
    else .error .width)
  else .error .width

/-- The instruction read from a word whose bits are numbered as the table numbers them: up to 64 bits and 128 bits
are a step (a second word that the table gives no bits is zero), 80 bits are a row. -/
def decodeTableWord (nbits w : Nat) : Option Instr :=
  if nbits = 80 then (decode (leBytes 10 w)).toOption
  else if nbits = 64 then
    (decode (if stepIsLong (BitVec.ofNat 64 w) then leBytes 16 w else leBytes 8 w)).toOption
  else if nbits = 128 then (decode (leBytes 16 w)).toOption
  else none

end Sys2Proof
end

