-- ==== Sys2Proof/Machine/State.lean ====
section
/-!
DEFINITION. The state of the module, as plain data, and the state after reset. A word that software reads and writes
whole stays a bit vector, with accessors in Machine/Bits.lean; what is numbered sparsely stands in a `Table`, where a
number that is not listed reads as the default of its kind. Reset values: spec/21 R373 writes zero everywhere;
INVENTORY.md lists every field with its rule and its reset value.
-/

namespace Sys2Proof.Machine

open Sys2Proof

/-- What stops the machine itself: nothing does. The faults of the spec are faults of a context, taken as states
(`takeFault`), and a module without power or with its clocks stopped still answers its side-band port, so the type has
no constructor. -/
inductive Fault where
  deriving DecidableEq, Repr

/-- Why an instruction has no meaning here. -/
inductive Refusal where
  /-- Raised by `exec` for an instruction without a meaning. Safe. -/
  | notModelled (mnemonic : String)
  /-- Raised by every row and step whose fields validation refuses (R113), with the code of R127: an image that holds
  it is never bound, so no ring executes it. Safe. -/
  | illFormed (code : Nat)
  /-- Raised by `step` when the word at the place of issue decodes to nothing, with the code of R127. Safe, as above. -/
  | undecodable (code : Nat)
  /-- Raised by an event whose enabling condition, as spec/95 states it, does not hold: the event does not occur. Safe. -/
  | notDue
  deriving DecidableEq, Repr

/-- A list of memory cells in rising order of address with no zero byte listed; an unlisted byte reads zero (R373). -/
abbrev Memory := List Host.Cell

/-- A fault record's fields (R350). -/
structure FaultRec where
  addr : BitVec 64
  tc : Nat
  info : BitVec 32
  ctx : BitVec 16
  code : Nat
  asid : BitVec 10
  ring : Nat
  region : Nat
  gen : Nat
  cls : Nat
  locStripe : Bool
  si : Nat
  vs : Nat
  slot : Nat
  col : Nat
  ent : Nat
  prodctx : BitVec 16
  issuer : Nat
  pstr : Nat
  deriving DecidableEq, Repr

/-- Where a row's result goes at its result time (R183); registers are physical (R185). -/
inductive PendDst where
  | none
  | v (n : Nat)
  | x (n : Nat)
  | e
  | po (m : Nat)
  | push (down : Bool) (q : Nat) (lr ls : Bool)
  | lane (l : Nat) (lr ls : Bool)
  | store (down : Bool) (word : Nat) (swz : Bool)
  | bank (n : Nat)
  | bankCells (n : Nat) (h : Nat)
  | check (n : Nat) (col : Bool)
  | counters (n : Nat)
  | xaClear
  | xaWeight (l : Int)
  deriving DecidableEq, Repr

/-- A result issued at TC `issued` and not landed (R183): due at TC `due`; `mask` is the guard, `flags` what it raises. -/
structure Pend where
  issued : Nat
  due : Nat
  dst : PendDst
  val : Vec
  mask : W32
  tag : W32
  pred : Option (Nat × W32)
  flags : W32
  deriving DecidableEq, Repr

/-- The state of one operand of a tile step (R235, R236): positions reserved, first position, expected pennant, the
current tile's place among them, repetitions it has served, and whether its first read was made. -/
structure TileOperand where
  down : Bool
  q : Nat
  first : Nat
  count : Nat
  cur : Nat
  used : Nat
  pop : Nat
  pen : BitVec 16
  read : Bool
  trans : Bool
  deriving DecidableEq, Repr

/-- The counts of one cell: 28 counters and the scale pair (R61, R63). -/
abbrev CellCounts := List Int × Nat × Nat

/-- What a counter bank holds (R61 to R63): its depth, descriptor, whether its counts are scaled, and its cells. -/
structure BankCounts where
  depth : Nat
  fmt : BitVec 24
  scaled : Bool
  cells : List CellCounts
  deriving DecidableEq, Repr

/-- What a fault in the second cycle of a repetition takes back of its first (R251): CHT before and after the first read of A, and the
banks that FLG[45] cleared, as they stood. -/
structure TileUndo where
  cht : Option (BitVec 16 × BitVec 16)
  banks : List (Nat × BankCounts)
  deriving DecidableEq, Repr

/-- A tile step in progress (R234): its issue cycle, alone and with any wake-up added, kind 0 `mma.bf16`, 1 `mma.f16`, 2 `mma.f8`,
3 `mmc`, 4 `mmc.ch`, repetitions, operands, the descriptors of the current tiles and whether each carries scales, whether a self-check has failed
(R362), and the groups read in the repetition under way with their scales. -/
structure TileOp where
  issued : Nat
  start : Nat
  kind : Nat
  reps : Nat
  acb : Nat
  zero : Bool
  ck : Bool
  bank : Nat
  a : TileOperand
  b : TileOperand
  ent : Nat
  vs : Nat
  slot : Nat
  afmt : BitVec 24
  bfmt : BitVec 24
  scaled : Bool × Bool
  sus : Bool
  abuf : List (Nat × Nat)
  bbuf : List (Nat × Nat)
  undo : TileUndo
  deriving DecidableEq, Repr

/-- A result of the matrix unit under way: the exact sums of a repetition (R57, R59), a window's counts (R239), a
merge (R246), a drain (R64), or an image for `xa` (R247). -/
inductive TileLand where
  | update (bank : Nat) (zero ck : Bool) (sums rows cols : List Num) (flags : W32)
  | counts (bank depth : Nat) (fmt : BitVec 24) (scaled : Bool) (cells : List CellCounts)
  | drain (bank : Nat)
  | xload (merge : Bool) (bytes : List Byte)
  deriving DecidableEq, Repr

/-- A `qtx` in progress (R232), with the place of its row (R98). -/
structure QtxOp where
  start : Nat
  vs : Nat
  slot : Nat
  ent : Nat
  srcDown : Bool
  src : Nat
  pos : Nat
  dstDown : Bool
  dst : Nat
  dpos : Option Nat
  olay : Bool
  rows : Nat
  cols : Nat
  esize : Nat
  ensign : BitVec 256
  scale : List Byte
  words : List Vec
  pushed : Nat
  deriving DecidableEq, Repr

/-- A multi-word access to `xa` in progress (R247): kind 0 `xld`, 1 `xmerge`, 2 `xst`, with the place of its row. -/
structure XOp where
  start : Nat
  vs : Nat
  slot : Nat
  ent : Nat
  kind : Nat
  down : Bool
  swz : Bool
  word : Nat
  bytes : List Byte
  deriving DecidableEq, Repr

/-- A write window on a matrix resource (R242): resource 0-3 banks, 4-5 counter banks, 6 `xa`; open from TC `since` until
`till`. -/
structure Window where
  res : Nat
  since : Nat
  till : Nat
  tile : Bool
  deriving DecidableEq, Repr

/-- An element (R18): column `k` of a stripe; `flagsNew` holds the flags that land in the present cycle (R193, R322), and `lateLands` the
results of the matrix unit whose issuer has been saved (R51). -/
structure Element where
  v : Table Vec
  vt : Table W32
  x : Table Vec
  xt : Table W32
  p : Table W32
  rb : BitVec 6
  rbIn : BitVec 6
  e : Vec
  et : W32
  po : Table Vec
  pot : Table W32
  flags : W32
  flagsNew : W32
  cht : BitVec 16
  sb : BitVec 2
  pend : List Pend
  acc : Table (BitVec 32)
  ckr : Table (BitVec 32)
  ckc : Table (BitVec 32)
  cb : Table Int
  depth : Table Nat
  pairs : Table (Nat × Nat)
  cfmt : Table (BitVec 24)
  /-- Whether a counter bank holds counts of a tile with a scale mode other than none (R67). -/
  cscaled : Table Bool
  xa : Table Int
  lexp : Int
  lastWin : Option Nat
  idle : Nat
  gated : Bool
  tile : Option TileOp
  lands : List (Nat × TileLand)
  lateLands : List (Nat × TileLand)
  qtx : Option QtxOp
  xops : List XOp
  wins : List Window
  deriving DecidableEq, Repr

/-- An element after the wipe (R373); `l` is -24 at context start (R64). -/
def Element.reset : Element :=
  { v := [], vt := [], x := [], xt := [], p := [], rb := 0, rbIn := 0, e := Vec.zero, et := 0, po := [], pot := [],
    flags := 0, flagsNew := 0,
    cht := 0, sb := 0, pend := [], acc := [], ckr := [], ckc := [], cb := [], depth := [], pairs := [], cfmt := [], cscaled := [],
    xa := [], lexp := -24, lastWin := none, idle := 0, gated := false, tile := none, lands := [], lateLands := [], qtx := none,
    xops := [], wins := [] }

/-- A virtual stripe record (R119 to R122): header, row slots, switch table, pass map, state map. -/
structure Rec where
  hdr : BitVec 512
  slots : List (BitVec 128)
  switches : List (BitVec 64)
  pass : BitVec 64
  smap : List (BitVec 32)
  deriving DecidableEq, Repr

/-- The occupant of a physical stripe (R90, R91): hoist `h` of virtual stripe `vs`, whose instance 0 enters column 0
at `start`, with `n` instances admitted; its other times stand in the context's hoist log. -/
structure Occupant where
  h : Nat
  vs : Nat
  start : Nat
  n : Nat
  struck : Bool
  deriving DecidableEq, Repr

/-- A physical stripe (R17): row store and switch table as the record they were loaded from, the occupant, eight
elements by column, and the bytes of its save slot still to be written with their offset in the stripe save area (R93). -/
structure Stripe where
  record : Option Rec
  occ : Option Occupant
  elems : Table Element
  saveAt : Nat
  saveLeft : List Byte
  deriving DecidableEq, Repr

/-- A stripe after the wipe. -/
def Stripe.reset : Stripe := { record := none, occ := none, elems := [], saveAt := 0, saveLeft := [] }

/-- What an entry of a word queue carries beside its 128 bytes (R82, R171, R76): sideband, lane mask, the ring
cycle from which a pop sees it, the class of R315 of its bytes when they are poisoned and 0 otherwise with the line they were read from
(0 when they come from no line), and for a tile entry whether it lies swizzled (R77). -/
structure QMeta where
  lr : Bool
  ls : Bool
  mask : W32
  vis : Nat
  poison : Nat
  line : Nat
  swz : Bool
  deriving DecidableEq, Repr

/-- The positions that an instance's `up` row has reserved for its eight columns (R72, R228): stripe, row slot and instance, and the
position of column 0. -/
structure UpTake where
  ps : Nat
  slot : Nat
  inst : Nat
  base : Nat
  deriving DecidableEq, Repr

/-- A queue of one block (R79, R228), in positions counted from its `qset`: `head` frees, `resv` is the next to
reserve, `tail` the next to push; `popped` lists positions at or past `head` whose party has finished, and `takes` the `up` rows that are
still to reach a column. -/
structure QState where
  head : Nat
  resv : Nat
  tail : Nat
  popped : List Nat
  info : Table QMeta
  takes : List UpTake
  deriving DecidableEq, Repr

/-- An empty queue. -/
def QState.reset : QState := { head := 0, resv := 0, tail := 0, popped := [], info := [], takes := [] }

/-- A queue's configuration (R79): tile queue or word queue, block offset in words, entries, entry size in words. -/
structure QCfg where
  tile : Bool
  base : Nat
  size : Nat
  ent : Nat
  deriving DecidableEq, Repr

/-- A word on a lane (R73): lane 0-7 clockwise, 8-15 anticlockwise, column, logical position and cycle of writing,
reach, value, tag and sideband (R82). -/
structure LaneWord where
  lane : Nat
  col : Nat
  pos : Nat
  born : Nat
  reach : Nat
  val : Vec
  tag : W32
  lr : Bool
  ls : Bool
  deriving DecidableEq, Repr

/-- A fault that stopped an issuer and is serviced through the fault buffer, or a repair wait (R266, R359):
the cause, the failing entry, its level, the key of R268, and ticks stopped. -/
structure Stop where
  cause : Nat
  pte : BitVec 64
  level : Nat
  va : Nat
  kind : Nat
  repair : Bool
  since : Nat
  deriving DecidableEq, Repr

/-- The parties that issue accesses (R275). -/
inductive Party where
  | seq
  | stream (n : Nat)
  | chan (n : Nat)
  | copyEngine
  | scroll
  | saveDrain
  | hart
  | host (f : Nat)
  | node (n : Nat)
  deriving DecidableEq, Repr

/-- What a request does (R267 KIND). -/
inductive ReqKind where
  | read
  | write
  | atomic
  | fetch
  deriving DecidableEq, Repr

/-- Where a request goes before translation. -/
inductive Place where
  | virt (va : Nat)
  | phys (pa : Nat)
  | spad (ring : Nat) (off : Nat) (swz : Bool)
  | remote (node : Nat) (ring : Nat) (off : Nat) (swz : Bool)
  | node (n : Nat) (pa : Nat)
  deriving DecidableEq, Repr

/-- What the data of a request is for. -/
inductive Purpose where
  | ald
  | ast
  | atom (op : AtomOp) (wide : Bool) (operand cmp : BitVec 64)
  | descriptor
  | streamWord (n : Nat) (visit : Nat)
  | streamGather (n : Nat) (visit : Nat) (mask : W32) (addr : Vec)
  | streamOut (n : Nat) (visit : Nat) (word : Vec × QMeta) (addr : Vec) (counted : Bool)
  | streamAtomic (n : Nat) (visit : Nat) (op : Nat) (applied : W32) (word : Vec × QMeta) (addr : Vec)
  | copyRead (id : Nat) (at_ : Nat)
  | copyWrite (id : Nat) (bar bk : Nat)
  | copyOwn (id : Nat)
  | chanRecord (n : Nat)
  | vsRecord (vs : Nat)
  | overflowSave
  | other
  deriving DecidableEq, Repr

/-- One part of a request: bytes at a place, within one 64 KiB unit (R254). For a read, `bytes` holds zeros until it is
performed. `dest` is the place after translation, once translated, with the region and generation it carries then (R271). -/
structure Part where
  place : Place
  bytes : List Byte
  dest : Option Place
  region : Nat
  gen : Nat
  deriving DecidableEq, Repr

/-- A part not yet translated. -/
def Part.new (place : Place) (bytes : List Byte) : Part := { place := place, bytes := bytes, dest := none, region := 0, gen := 0 }

/-- A memory request (R138, R275): its issuer, order of issue, WDI number of its first line with the count of lines,
its parts, the widest scope at which it has been performed, whether its data is poisoned, in which class of R315 and from which line,
and whether a target refused it as stale (R271). -/
structure Req where
  id : Nat
  ring : Nat
  ctx : BitVec 16
  asid : BitVec 10
  party : Party
  kind : ReqKind
  parts : List Part
  wdi : Nat
  lines : Nat
  tc : Nat
  purpose : Purpose
  done : Option Scope
  stop : Option Stop
  poison : Bool
  cls : Nat
  line : Nat
  stale : Bool
  deriving DecidableEq, Repr

/-- A visit that a save set back (R341): a word that the stream holds, with whether it is counted (R176), or the next word of its queue. -/
inductive Again where
  | held (v : Vec) (m : QMeta) (counted : Bool)
  | queued
  deriving DecidableEq, Repr

/-- A stream (R167 to R176); `pendWords` holds the words of an entry or row under way, `again` the visits that a save set back, `skip` the
words of the next tile entry that have been written, and `gather` the buffered address words,
each with its lane mask and the TC from which the stream may use it (R227); `openTc` and `before` are the cycle in which it was last
opened and the count that it had then. -/
structure Stream where
  isOpen : Bool
  desc : BitVec 512
  vs : Nat
  out : Bool
  q : Nat
  run : Option Nat
  hoist : Nat
  waveLeft : Nat
  visits : Nat
  moved : Nat
  rows : Nat
  segLeft : Nat
  segKind : Nat
  inSeg : Bool
  pendWords : List (Vec × QMeta)
  again : List Again
  skip : Nat
  gather : List (Vec × W32 × Nat)
  done : Bool
  closing : Bool
  abort : Bool
  stopped : Option Stop
  post : Nat
  openTc : Nat
  before : Nat
  deriving DecidableEq, Repr

/-- A closed stream that was never opened. -/
def Stream.reset : Stream :=
  { isOpen := false, desc := 0, vs := 0, out := false, q := 0, run := none, hoist := 0, waveLeft := 0, visits := 0,
    moved := 0, rows := 0, segLeft := 0, segKind := 0, inSeg := false, pendWords := [], again := [], skip := 0, gather := [], done := false,
    closing := false, abort := false, stopped := none, post := 0, openTc := 0, before := 0 }

/-- Where a copy channel stands (R181). -/
inductive ChanMode where
  | idle
  | fetching
  | waiting
  | parked
  deriving DecidableEq, Repr

/-- A copy channel (R181): current record address, whether it has ever been armed, whether it parked on a null NEXT,
the record fetched and not begun, whether it stops after its current record, and the number of the next request at the post
of its `copyc` (R158). -/
structure Chan where
  mode : ChanMode
  addr : BitVec 64
  armed : Bool
  nullNext : Bool
  record : BitVec 512
  last : Bool
  stopped : Option Stop
  post : Nat
  deriving DecidableEq, Repr

/-- A channel that was never armed. -/
def Chan.reset : Chan :=
  { mode := .idle, addr := 0, armed := false, nullNext := false, record := 0, last := false, stopped := none, post := 0 }

/-- A bulk copy in flight (R177 to R182): `next` counts the bytes whose reads were issued, `readDone` and `writeDone`
those performed; `owning` while it writes OWN of its record. -/
structure Copy where
  id : Nat
  ring : Nat
  ctx : BitVec 16
  asid : BitVec 10
  chan : Option Nat
  record : BitVec 512
  recAddr : BitVec 64
  next : Nat
  readDone : Nat
  writeDone : Nat
  owning : Bool
  stopped : Option Stop
  post : Nat
  deriving DecidableEq, Repr

/-- Bytes of a copy to be counted against a barrier (R178, R295): for a copy of context `ctx` of ring `ring`, the
barrier's name, BK, and whether a byte was written poisoned. -/
structure ByteDec where
  id : Nat
  ring : Nat
  ctx : BitVec 16
  asid : BitVec 10
  party : Party
  bar : Nat
  bk : Nat
  bytes : Nat
  poison : Bool
  deriving DecidableEq, Repr

/-- A collective posted by one member (R307 to R309): `si` is the state index of its step (R351), `post` the number of the next request
at its post and `copies` its own number in the order of the copies (R158, R278, R285), and `stop` holds the fault that stopped its member's copy engine (R266). -/
structure Coll where
  si : Nat
  group : Nat
  seqNo : Nat
  ring : Nat
  ctx : BitVec 16
  rank : Nat
  desc : BitVec 512
  tok : Nat
  begun : Bool
  post : Nat
  copies : Nat
  stop : Option Stop
  deriving DecidableEq, Repr

/-- A command in the start queue, or one that begins in the cycle of its step (R141). -/
inductive Command where
  | run (first nv w b : Nat)
  | qset (q base size ent : Nat)
  | sopen (n vs : Nat) (out : Bool) (q : Nat) (desc : BitVec 512)
  | sclose (n : Nat) (abort : Bool)
  | sbar (mask : BitVec 32) (scope : Scope)
  | copy (record : BitVec 512) (recAddr : BitVec 64)
  | copyc (n : Nat) (addr : BitVec 64)
  | copycResume (n : Nat)
  | coll (desc : BitVec 512) (rank : Nat)
  deriving DecidableEq, Repr

/-- When a posted command starts (R108, R142): at a TC, or at a hoist's start plus an offset. -/
inductive StartAt where
  | at (t : Nat)
  | hoist (run h off : Nat)
  deriving DecidableEq, Repr

/-- A posted command: its start, the state index of its post, the number of the next request
at its post (R158), the command, and the run and hoist that its post named, if any (R142, R143). -/
structure Posted where
  start : StartAt
  si : Nat
  req : Nat
  cmd : Command
  hoist : Option (Nat × Nat)
  deriving DecidableEq, Repr

/-- What leaves for another package (R387, R252): bytes for device memory or for a ring's scratchpad, an operation on a barrier
object, or a segment for a bridge (R84), the last three with the ASID of the sender (R264, R290). -/
inductive Sent where
  | write (node pa : Nat) (bytes : List Byte)
  | spad (node ring : Nat) (asid : BitVec 10) (off : Nat) (swz : Bool) (bytes : List Byte)
  | barrier (node : Nat) (asid : BitVec 10) (name : Nat) (op : BarrierOp)
  | segment (node ring stream : Nat) (asid : BitVec 10) (header : BitVec 64) (words : List Vec)
  deriving DecidableEq, Repr

/-- A run posted or armed (R161): number within the context, the state index of its step (R349), values, resident or scrolling (R90), the hoists it has and
those it will make, whether it has armed and at which TC, whether it is parked and when, and whether all its hoists are
freed. -/
structure Run where
  id : Nat
  si : Nat
  first : Nat
  nv : Nat
  w : Nat
  b : Nat
  ksel : Nat
  res : Bool
  total : Nat
  limit : Nat
  arm : Option Nat
  parkAt : Option Nat
  done : Bool
  parked : Bool
  deriving DecidableEq, Repr

/-- A hoist whose times are known (R91). -/
structure HoistLog where
  h : Nat
  vs : Nat
  ps : Nat
  hb : Nat
  ready : Nat
  start : Nat
  strike : Nat
  free : Nat
  freed : Bool
  deriving DecidableEq, Repr

/-- A hoist under way (R30, R92): its number, virtual and physical stripe, the ring cycles it still takes, the record that goes live at
its end, whether it restores zeros, and the bytes of the save slot restored so far. -/
structure HoistRun where
  h : Nat
  vs : Nat
  ps : Nat
  left : Nat
  rc : Rec
  first : Bool
  got : List Byte
  deriving DecidableEq, Repr

/-- What a waiting step waits for (R136): the request it sent, the descriptor or answer received, the dividing cycle
of a fence, the start cycle a post has resolved (R141), and the stage within the step. -/
structure Wait where
  stage : Nat
  req : Nat
  data : BitVec 512
  since : Nat
  post : Option StartAt
  deriving DecidableEq, Repr

/-- An open containment region (R314); `marks` holds each checkpointed stream as it stood,
and `hit` says that `sl13` was set for it. -/
structure Region where
  id : Nat
  hnd : Nat
  depth : Nat
  mask : BitVec 32
  marks : Table Stream
  nev : Nat
  hit : Bool
  deriving DecidableEq, Repr

/-- An unwinding in progress (R316), from cycle `at_`; the copies numbered below `copies` had been issued before. -/
structure Unwind where
  region : Nat
  cls : Nat
  at_ : Nat
  copies : Nat
  deriving DecidableEq, Repr

/-- What the auditor's log takes from one hoist (R365): the `xa` weight of every element, the format slots, the bytes of the registers that its
record reads, and the state that it restored; and how many instances entered (log 125). -/
structure HoistNote where
  h : Nat
  n : Nat
  weights : List Int
  fslots : List (BitVec 24)
  regs : List Byte
  restored : List Byte
  deriving DecidableEq, Repr

/-- A word that an input stream has delivered, as the auditor's log takes it (R365): its wave, stream and visit, the stream's descriptor, the
regions read with the generations that the reads carried, the markers with which it entered the queue, and the bytes; a bubble, which is no
word of the log's count, is heard too (log 125). -/
structure HeardWord where
  wave : Nat
  stream : Nat
  visit : Nat
  desc : BitVec 512
  gens : List (Nat × Nat)
  lr : Bool
  ls : Bool
  bytes : List Byte
  deriving DecidableEq, Repr

/-- How a debug break is resumed (R400): the cycle it stopped at, the column of the row, or none for a step, and the physical stripes
whose `brk` rows of that column count as completed. -/
structure BrkResume where
  tc : Nat
  col : Option Nat
  done : List Nat
  deriving DecidableEq, Repr

/-- A fence or `sbar` line still in force for requests issued later (R278, R175): requests below `before` of the
parties it names, and every access of a copy below `copies`, come first. -/
structure Divider where
  before : Nat
  copies : Nat
  scope : Scope
  kind : FenceKind
  streams : Option (BitVec 32)
  deriving DecidableEq, Repr

/-- A rename window (R255). -/
structure Rename where
  base : Nat
  lim : Nat
  off : Nat
  deriving DecidableEq, Repr

/-- A ring context (R26, R135). -/
structure Ctx where
  bind : BitVec 512
  hdr : BitVec 2048
  directory : List (BitVec 32)
  stable : Table (BitVec 64)
  k : Table (BitVec 48)
  a : Table (BitVec 64)
  tok : Table Nat
  wdi : Nat
  wdp : Nat
  wdone : List Nat
  rstack : List Nat
  si : Nat
  /-- TC in the cycle under way or, between cycles and in held ones, in the last that was not held (R29, R34). -/
  tc : Nat
  /-- Whether the cycle at TC 0 has begun. -/
  begun : Bool
  rcyc : Nat
  startq : List Posted
  wait : Option Wait
  sl : BitVec 16
  fslots : Table (BitVec 24)
  fslotNew : List (Nat × BitVec 24 × Option Nat)
  flagw : W32
  /-- Flags that land in the present cycle of work whose issuer has been saved (R51). -/
  flagwNew : W32
  /-- TC of the last save: what was issued by then has a saved issuer (R51). -/
  savedAt : Option Nat
  ev : Table Nat
  runs : List Run
  runSi : Option Nat
  ksel : Nat
  hoistNext : Nat
  hlog : List HoistLog
  hoisted : List Nat
  hoisting : Option HoistRun
  waves : Nat
  cache : Table Rec
  cacheUse : Table Nat
  cacheNo : Nat
  fetching : List Nat
  fetchBad : Table Nat
  /-- The fault in the heap window that has stopped the scroll controller (R256, R266). -/
  fetchStop : Option Stop
  /-- Slots of the state-table memory that hold an uncorrectable error (R354). -/
  badSlots : List Nat
  streams : Table Stream
  chans : Table Chan
  regions : List Region
  unwinding : Option Unwind
  trigRec : Option Nat
  thandler : Option Nat
  thNotice : Bool
  wdcount : Nat
  qcount : Nat
  collCount : Table Nat
  rwin : List Rename
  dividers : List Divider
  ending : Option (BitVec 16)
  draining : Bool
  ended : Bool
  fault : Option FaultRec
  /-- The record that R353 picks when several faults fall in the cycle under way. -/
  faultPref : Option FaultRec
  killed : Bool
  /-- What the auditor's signature is taken over (R366): words popped by output streams (run, wave, stream, bytes), state saved
  at stateful strikes (hoist, bytes), and the flags of a wave's strikes. -/
  audOut : List (Nat × Nat × Nat × List Byte)
  audState : List (Nat × List Byte)
  audFlags : Table W32
  /-- What the auditor's log takes from hoists, and from the words that input streams deliver: wave, stream, visit, bytes (R365). -/
  audHoist : List HoistNote
  audIn : List HeardWord
  brkResume : Option BrkResume
  answer : Option (BitVec 64)
  /-- Whether a `yield` has been accepted and its save has not begun (R151). -/
  yielded : Bool
  /-- The log slot of the wave that the context replays, for one that Eosen has bound to do so (R367). -/
  replay : Option Nat
  deriving DecidableEq, Repr

/-- A context before its entry state (R135, R118): no image, `sl0` set (R110). -/
def Ctx.reset : Ctx :=
  { bind := 0, hdr := 0, directory := [], stable := [], k := [], a := [], tok := [], wdi := 0, wdp := 0, wdone := [],
    rstack := [], si := 0, tc := 0, begun := false, rcyc := 0, startq := [], wait := none, sl := 1, fslots := [], fslotNew := [],
    flagw := 0, flagwNew := 0, savedAt := none,
    ev := [], runs := [], runSi := none, ksel := 0, hoistNext := 0, hlog := [], hoisted := [], hoisting := none, waves := 0,
    cache := [], cacheUse := [], cacheNo := 0, fetching := [], fetchBad := [], fetchStop := none, badSlots := [], streams := [], chans := [], regions := [],
    unwinding := none, trigRec := none, thandler := none, thNotice := false, wdcount := 0, qcount := 0,
    collCount := [], rwin := [], dividers := [], ending := none, draining := false, ended := false, fault := none,
    faultPref := none, killed := false, audOut := [], audState := [], audFlags := [], audHoist := [], audIn := [],
    brkResume := none, answer := none, yielded := false, replay := none }

/-- A barrier object (R289) as its 128 bits. -/
abbrev Barrier := BitVec 128

/-- A remap entry (R345) as its 192 bits. -/
abbrev RemapEntry := BitVec 192

/-- Slot states (R334), in the order of their codes. -/
inductive SlotState where
  | empty | gang | loading | running | saving | draining | halted | ended
  deriving DecidableEq, Repr

/-- A save, restore or drain under way (R341, R347, R348). -/
inductive Saving where
  | idle
  | save (entry : Nat) (cyclesLeft : Nat)
  | waitSave (entry : Nat)
  | restore (entry : Nat) (cyclesLeft : Nat)
  | drain
  deriving DecidableEq, Repr

/-- A stored error of an SRAM chunk (R371): a bit that will be corrected, the same once an access has met it, or one that cannot be
corrected. -/
inductive Flaw where
  | latent
  | met
  | uncorrectable
  deriving DecidableEq, Repr

/-- A ring (R16) with the context bound to it. -/
structure Ring where
  spad : Memory
  spoison : List Nat
  /-- Stored errors of SRAM chunks that nothing has met yet (R371). -/
  flaws : List (Nat × Flaw)
  bars : Table Barrier
  qcfg : Table QCfg
  qst : Table QState
  lanes : List LaneWord
  stripes : Table Stripe
  retire : BitVec 16
  capmask : BitVec 64
  holdlim : BitVec 32
  holdCause : Nat
  holdRun : Nat
  holdCount : Nat
  holdAsk : Nat
  bankUse : List (Nat × Nat × Nat)
  bankServed : Nat
  scrf : BitVec 64
  brken : Bool
  suscnt : BitVec 32
  /-- Failed self-checks whose RAS event is still to be posted: physical stripe, column and INFO (R362). -/
  susNew : List (Nat × Nat × Nat)
  remap : Table RemapEntry
  inj : BitVec 64
  injt : BitVec 64
  lfsr : BitVec 32
  stretch : Nat
  clkAcc : Nat
  slot : BitVec 512
  slotState : SlotState
  refuse : Nat
  saving : Saving
  bound : Bool
  ctx : Ctx
  deriving DecidableEq, Repr

/-- A ring after boot (R373, R86, R396): `retire` and `capmask` stand for the fuses (log 5). -/
def Ring.reset : Ring :=
  { spad := [], spoison := [], flaws := [], bars := [], qcfg := [], qst := [], lanes := [], stripes := [], retire := 0,
    capmask := 0xFFFFFF, holdlim := 0x100000, holdCause := 0, holdRun := 0, holdCount := 0, holdAsk := 0,
    bankUse := [], bankServed := 0, scrf := 0, brken := false, suscnt := 0, susNew := [], remap := [], inj := 0, injt := 0, lfsr := 0,
    stretch := 0, clkAcc := 0, slot := 0, slotState := .empty, refuse := 0, saving := .idle, bound := false,
    ctx := Ctx.reset }

/-- A context saved by halyard (R341, R342), whole, with the ring state that a save keeps. -/
structure Saved where
  ring : Nat
  ctx : Ctx
  stripes : Table Stripe
  qcfg : Table QCfg
  qst : Table QState
  lanes : List LaneWord
  scrf : BitVec 64
  deriving DecidableEq, Repr

/-- A cached translation (R261, R262). -/
structure TlbEntry where
  asid : BitVec 10
  vpn : Nat
  pages : Nat
  pte : BitVec 64
  level : Nat
  count : Nat
  deriving DecidableEq, Repr

/-- A record of the current batch of a fault buffer (R267, R268). -/
structure FbRec where
  index : Nat
  asid : BitVec 10
  page : Nat
  kind : Nat
  ring : Nat
  ctx : BitVec 16
  cause : Nat
  va : Nat
  issuer : Nat
  gen : Nat
  tc : Nat
  deriving DecidableEq, Repr

/-- A compute die (R15). -/
structure Die where
  astbase : BitVec 64
  fbbase : BitVec 64
  fbhead : BitVec 10
  fbtail : BitVec 10
  fbunread : Nat
  fbatch : BitVec 16
  fbovf : Bool
  fbflush : Bool
  fbrecs : List FbRec
  faulthold : BitVec 32
  tlb : List TlbEntry
  ppr : BitVec 64
  scrubint : BitVec 48
  scrubpos : Nat
  scrubacc : Nat
  scrubahead : Nat
  throttled : Bool
  deriving DecidableEq, Repr

/-- A die after boot (R270, R360). -/
def Die.reset : Die :=
  { astbase := 0, fbbase := 0, fbhead := 0, fbtail := 0, fbunread := 0, fbatch := 0, fbovf := false, fbflush := false,
    fbrecs := [], faulthold := 10000, tlb := [], ppr := 0, scrubint := 8640000000000, scrubpos := 0, scrubacc := 0, scrubahead := 0, throttled := false }

/-- States of a task (R328). -/
inductive TaskState where
  | wait | ready | bound | saved | done
  deriving DecidableEq, Repr

/-- A dependence of a task (R329): on which task, whether derived and whether a read-after-write one. -/
structure Dep where
  task : Nat
  derived : Bool
  raw : Bool
  range : Option Nat
  deriving DecidableEq, Repr

/-- A range of a task (R326). -/
structure Range where
  base : Nat
  units : Nat
  wr : Bool
  ren : Bool
  deriving DecidableEq, Repr

/-- A task-table entry (R328). -/
structure Task where
  entry : BitVec 512
  queue : Nat
  order : Nat
  state : TaskState
  members : List (BitVec 512)
  ranges : List Range
  deps : List Dep
  windows : List Rename
  memberCtx : Table (BitVec 16)
  memberEnded : List Nat
  triggered : Table Nat
  pri : Nat
  result : Option (Nat × Nat)
  fctx : BitVec 16
  frec : BitVec 64
  status : BitVec 16
  noRecord : Bool
  readyNo : Nat
  deriving DecidableEq, Repr

/-- An entry of a handoff queue (R298, R300). -/
structure HEntry where
  value : BitVec 64
  stamp : Nat
  producer : BitVec 16
  posted : Nat
  claimed : Option (BitVec 16)
  deriving DecidableEq, Repr

/-- A handoff queue (R298), with the contexts that wait for an entry, in the order they reached the hub (R301). -/
structure HQueue where
  cfg : BitVec 64
  entries : List HEntry
  takers : List (BitVec 16)
  deriving DecidableEq, Repr

/-- What the auditor logs of one input stream of a wave (R365): the stream's descriptor, the visits of its words with their number and the
first of them, the generation of every region that they read, and the CRC-64 of the words; and the visits of words and bubbles with the
markers they had (log 125). -/
structure AuditInput where
  stream : Nat
  desc : BitVec 512
  first : Nat
  count : Nat
  visits : List Nat
  gens : List (Nat × Nat)
  crc : BitVec 64
  marks : List (Nat × Bool × Bool)
  deriving DecidableEq, Repr

/-- A log of a sampled wave (R365): what Eosen needs of it to replay and to name it, with the signature of R366, which stands once the
output streams in `outs` have taken their last word of the wave (`whole`), and the tick it was taken. The queues and the streams of the wave
are kept with it, as its replay needs them (log 125), and the rings it has been replayed on with the signatures formed there (R367). -/
structure AuditLog where
  qcfg : Table QCfg
  streams : Table Stream
  tries : List (Nat × BitVec 64)
  bind : BitVec 512
  rwin : List Rename
  run : Nat
  fslots : List (BitVec 24)
  notes : List HoistNote
  inputs : List AuditInput
  outs : List Nat
  states : List Byte
  flags : W32
  whole : Bool
  ring : Nat
  ctx : BitVec 16
  task : Nat
  owner : Nat
  tag : BitVec 16
  img : Nat
  igen : Nat
  first : Nat
  nv : Nat
  b : Nat
  wave : Nat
  opmask : BitVec 64
  sig : BitVec 64
  since : Nat
  deriving DecidableEq, Repr

/-- A generation bump that Eosen owes (R273, R274): the value for `HUB.GENBUMP`, the function whose reset asked for it (R381), and
the barriers freed once it has cleared BUSY, by ring and owner (R288). -/
structure Bump where
  value : BitVec 64
  flr : Option Nat
  free : List (Nat × BitVec 16)
  deriving DecidableEq, Repr

/-- An access of a function through its BARs (R377): for one through the aperture the region of ASID 0 and the generation that it carries, and
the bytes that a read returned. -/
structure HostAccessed where
  region : Nat
  gen : Nat
  bytes : List Byte
  deriving DecidableEq, Repr

/-- A classifier entry (R357) as its 64 bits, newest update first. -/
abbrev ClsEntry := BitVec 64

/-- The hub. -/
structure Hub where
  sqcfg : Table (BitVec 64)
  cqcfg : Table (BitVec 64)
  sqtail : Table Nat
  sqhead : Table Nat
  cqhead : Table Nat
  cqtail : Table Nat
  cqphase : Table Bool
  sqown : Table Nat
  tasks : Table Task
  taskOrder : Nat
  hq : Table HQueue
  pairallot : Table Nat
  pairf : Table Nat
  ballast : Table Nat
  pcap : Table Nat
  pcapst : BitVec 7
  pfloor : Table Nat
  hevbase : Table (BitVec 64)
  hevhead : Table Nat
  hevtail : Table Nat
  link : Table Bool
  bumps : List Bump
  drop : Table Nat
  evlost : Table Nat
  rasbase : BitVec 64
  rashead : Nat
  rastail : Nat
  raslost : Nat
  cellthr : BitVec 8
  injen : Bool
  audctl : BitVec 64
  audbase : BitVec 64
  audlogs : Table AuditLog
  audstat : Table Nat
  tlbinv : BitVec 64
  genbump : BitVec 64
  gens : Table Nat
  apbase : Table (BitVec 64)
  krt : Table (BitVec 64)
  kup : Table Bool
  kreplay : Table Nat
  kdrop : Table Nat
  kpois : Table Nat
  knotified : List Nat
  node : BitVec 7
  rnpool : BitVec 64
  rnheld : List (BitVec 10 × Nat × Nat)
  gtbase : BitVec 64
  tthrot : Nat
  ready : Bool
  wipest : Bool
  cls : Table (List ClsEntry)
  /-- Spare rows and spare chunk columns used (R359), by 16 x table + bank. -/
  spares : Table (Nat × Nat)
  fences : Table (BitVec 64)
  msix : List (Nat × Nat)
  killed : List (BitVec 16)
  registered : List (BitVec 10 × Nat × Nat × Nat)
  /-- Pages of HBM that Eosen has retired, from one address up to another (R359). -/
  retired : List (Nat × Nat)
  /-- Cap writes of the present tick, by source, in the order they came (R389). -/
  capWrites : List (Nat × Nat)
  /-- What the pair allotments were last divided for (R390): the effective cap, the floors, and the least pair of each partition that has a
  bound context, 12 for none. -/
  capDone : Option (Nat × List Nat × List Nat)
  /-- The nominal cycle up to which the balancer of a pair stretches its clocks (R392). -/
  pairStretch : Table Nat
  /-- Ticks until the wipe is complete (R373). -/
  wipeLeft : Nat
  /-- The last access of each function through its BARs (R377). -/
  hostAcc : Table HostAccessed
  deriving DecidableEq, Repr

/-- The hub after boot (R373, R360, R394, R396; log 6). -/
def Hub.reset : Hub :=
  { sqcfg := [], cqcfg := [], sqtail := [], sqhead := [], cqhead := [], cqtail := [], cqphase := [], sqown := [],
    tasks := [], taskOrder := 0, hq := [], pairallot := [], pairf := [], ballast := [], pcap := [], pcapst := 0,
    pfloor := [], hevbase := [], hevhead := [], hevtail := [], link := [], bumps := [], drop := [], evlost := [],
    rasbase := 0, rashead := 0, rastail := 0, raslost := 0, cellthr := 8, injen := false, audctl := 0, audbase := 0,
    audlogs := [], audstat := [], tlbinv := 0, genbump := 0, gens := [], apbase := [], krt := [], kup := [],
    kreplay := [], kdrop := [], kpois := [], knotified := [], node := 0, rnpool := 0, rnheld := [], gtbase := 0,
    tthrot := 105, ready := true, wipest := false, cls := [], spares := [], fences := [], msix := [], killed := [],
    registered := [], retired := [], capWrites := [], capDone := none, pairStretch := [], wipeLeft := 0, hostAcc := [] }

/-- The always-on domain and the root of trust (R383, R394 to R398). An image store that holds `[]` holds what the part
was made with, which verifies; `sbok` and `sbresp` are the last answer of the side-band port; `fuseCap` and `fuseRet`
are the fuses of boot step 4 (R396), by ring. `bootRunning` is the boot firmware that runs (R399); `tripOff` says that a trip has removed power
and the 48 V input has not been cycled since, `hot` that no reading of every sensor below 100 °C has followed the trip (R394). -/
structure Aon where
  pcfg : BitVec 64
  pcfgLive : BitVec 64
  ttrip : BitVec 64
  ttripx : BitVec 64
  rstcause : BitVec 4
  tripPending : Bool
  lc : LifeCycle
  unlocked : Bool
  ownerKey : Option (List Byte)
  idKey : Nat
  svn : BitVec 32
  bootImg : List Byte
  eosenImg : List Byte
  recImg : List Byte
  recovery : Bool
  running : List Byte
  bootRunning : List Byte
  tripOff : Bool
  hot : Bool
  powered : Bool
  frozen : Bool
  sbok : Bool
  sbresp : List Byte
  fuseCap : Table (BitVec 64)
  fuseRet : Table (BitVec 16)
  deriving DecidableEq, Repr

/-- The always-on domain after a first cold reset (R395; log 6). -/
def Aon.reset : Aon :=
  { pcfg := 0, pcfgLive := 0, ttrip := 0, ttripx := 0, rstcause := 1, tripPending := false, lc := .deployed,
    unlocked := false, ownerKey := none, idKey := 0, svn := 0, bootImg := [], eosenImg := [], recImg := [],
    recovery := false, running := [], bootRunning := [], tripOff := false, hot := false, powered := true,
    frozen := false, sbok := true, sbresp := [], fuseCap := [], fuseRet := [] }

/-- Work of the present module cycle still to be done: a ring cycle to begin, its events, faults, step, rows and end in
the order of R352 (`units` are the pushes and the units beside the rows, where a `qset` takes effect before them), then the engines of a ring, the memory fabric, an
injection that is due (R372) and the firmware. -/
inductive Work where
  | begin (g : Nat)
  | event (i : Instr)
  | fault (g : Nat) (f : FaultRec)
  | seq (g : Nat)
  | units (g : Nat)
  | row (g ps col slot : Nat) (inst ent : Nat)
  | endCycle (g : Nat)
  | engines (g : Nat)
  | fabric
  | inject (g : Nat)
  | firmware
  deriving DecidableEq, Repr

/-- The place of issue of the row being executed: ring, physical stripe, column, row slot, instance index and
instance entry cycle. -/
structure Focus where
  ring : Nat
  ps : Nat
  col : Nat
  slot : Nat
  inst : Nat
  ent : Nat
  deriving DecidableEq, Repr

/-- The state of the module. -/
structure State where
  tick : BitVec 64
  sub : Nat
  agenda : List Work
  inputs : List Instr
  focus : Focus
  freeCtr : Nat
  mem : Memory
  /-- Bytes of HBM as they stood before a write that is not yet performed at `sys` scope (R287), oldest first: address, byte and
  the number of the write's request. -/
  shadow : List (Nat × Byte × Nat)
  poison : List Nat
  reqs : List Req
  reqNext : Nat
  copies : List Copy
  copyNext : Nat
  decs : List ByteDec
  /-- The barrier objects, by ring and number, that have taken an operation in this module cycle (R290). -/
  barUsed : List (Nat × Nat)
  colls : List Coll
  collFailed : Table Nat
  egress : List Sent
  saved : List Saved
  rings : Table Ring
  dies : Table Die
  hub : Hub
  aon : Aon
  deriving DecidableEq, Repr

/-- The machine right after a cold reset has completed its boot (R395, R396) with every field at its reset value. -/
def State.reset : State :=
  { tick := 0, sub := 0, agenda := [], inputs := [], focus := ⟨0, 0, 0, 0, 0, 0⟩, freeCtr := 0, mem := [],
    shadow := [], poison := [], reqs := [], reqNext := 0, copies := [], copyNext := 0, decs := [], barUsed := [], colls := [], collFailed := [], egress := [],
    saved := [], rings := [], dies := [], hub := Hub.reset, aon := Aon.reset }

end Sys2Proof.Machine
end

