-- ==== Sys2Proof/Machine/Bits.lean ====
section
/-!
DEFINITION. Bit-field helpers, the fields of the words of the spec by their names, and the two CRCs.
-/

namespace Sys2Proof.Machine

open Sys2Proof

/-- Field [lo + len - 1 : lo] of a word as a number. -/
def bits {n : Nat} (w : BitVec n) (lo len : Nat) : Nat := (w.extractLsb' lo len).toNat

/-- Field [lo + len - 1 : lo] as a two's-complement integer. -/
def sbits {n : Nat} (w : BitVec n) (lo len : Nat) : Int := (w.extractLsb' lo len).toInt

/-- A word with field [lo + len - 1 : lo] replaced. -/
def setBits {n : Nat} (w : BitVec n) (lo len v : Nat) : BitVec n :=
  (w &&& ~~~(BitVec.ofNat n ((1 <<< len) - 1) <<< lo)) ||| (BitVec.ofNat n (v % (1 <<< len)) <<< lo)

/-- One bit of a word. -/
def bit {n : Nat} (w : BitVec n) (i : Nat) : Bool := w.getLsbD i

/-- A word of `n` bits with fields (lo, len, value). -/
def packBits (n : Nat) (fs : List (Nat × Nat × Nat)) : BitVec n :=
  fs.foldl (fun w f => w ||| (BitVec.ofNat n (f.2.2 % (1 <<< f.2.1)) <<< f.1)) 0

/-- `m` with bit `i` of a mask set or clear. -/
def setBit {n : Nat} (w : BitVec n) (i : Nat) (b : Bool) : BitVec n :=
  if b then w ||| (1#n <<< i) else w &&& ~~~(1#n <<< i)

/-- The numbers of the set bits of a mask. -/
def maskList {n : Nat} (w : BitVec n) : List Nat := (List.range n).filter fun i => w.getLsbD i

/-- How many bits are set. -/
def popCount {n : Nat} (w : BitVec n) : Nat := (maskList w).length

/-- A number reduced to `w` bits of two's complement, as an integer. -/
def toSigned (w n : Nat) : Int := if n % (1 <<< w) < (1 <<< (w - 1)) then (n % (1 <<< w) : Nat) else ((n % (1 <<< w) : Nat) : Int) - (1 <<< w : Nat)

/-- Ceiling of a quotient. -/
def ceilDiv (a b : Nat) : Nat := (a + b - 1) / b

/-- Saturating increment of a count of `w` bits. -/
def satAdd (w a b : Nat) : Nat := min (a + b) ((1 <<< w) - 1)

/-- Bytes of a bit vector, least significant first (R5). -/
def bytesOf {n : Nat} (w : BitVec n) : List Byte := leBytes (n / 8) w.toNat

/-- A 1,024-bit word as 128 bytes: lane `l` is bytes 4l to 4l + 3 (R5, R222). -/
def vecBytes (v : Vec) : List Byte := v.toList.flatMap fun w => leBytes 4 w.toNat

/-- 128 bytes as a word. -/
def vecOfBytes (bs : List Byte) : Vec :=
  Vec.ofLanes fun l => BitVec.ofNat 32 (leNat ((bs.drop (4 * l)).take 4))

/-- One step of a reflected CRC of 32 bits. -/
def crc32cBits (poly : Nat) : Nat → Nat → Nat
  | 0, c => c
  | k + 1, c => crc32cBits poly k (if c % 2 = 1 then (c >>> 1) ^^^ poly else c >>> 1)

/-- CRC-32C (Castagnoli) of bytes (R116): reflected, initial and final all ones. -/
def crc32c (bs : List Byte) : Nat :=
  (bs.foldl (fun c b => crc32cBits 0x82F63B78 8 (c ^^^ b.toNat)) 0xFFFFFFFF) ^^^ 0xFFFFFFFF

/-- One step of an unreflected CRC of 64 bits. -/
def crc64Bits : Nat → Nat → Nat
  | 0, c => c
  | k + 1, c =>
    crc64Bits k (if c ≥ 1 <<< 63 then ((c <<< 1) % (1 <<< 64)) ^^^ 0x42F0E1EBA9EA3693 else (c <<< 1) % (1 <<< 64))

/-- CRC-64/ECMA-182 of bytes (R366). -/
def crc64 (bs : List Byte) : Nat := bs.foldl (fun c b => crc64Bits 8 (c ^^^ (b.toNat <<< 56))) 0

/-! ### Lists -/

/-- An element put into a list in rising order of a key. -/
def insertBy {α : Type} (key : α → Nat) (x : α) : List α → List α
  | [] => [x]
  | y :: l => if key x ≤ key y then x :: y :: l else y :: insertBy key x l

/-- Aligned 64-byte lines that bytes at an address touch (R138). -/
def linesOf (a n : Nat) : Nat := if n = 0 then 0 else (a + n - 1) / 64 - a / 64 + 1

/-! ### Bind records (R333) -/

abbrev BindRecord := BitVec 512

def bindImg (b : BindRecord) : Nat := bits b 456 56
def bindArgs (b : BindRecord) : Nat := bits b 400 56
def bindHbase (b : BindRecord) : Nat := bits b 360 40 * 65536
def bindHlim (b : BindRecord) : Nat := bits b 320 40 * 65536
def bindHoff (b : BindRecord) : Nat := bits b 284 36 * 65536
def bindSave (b : BindRecord) : Nat := bits b 248 36 * 65536
def bindWdog (b : BindRecord) : Nat := bits b 200 48
def bindQuant (b : BindRecord) : Nat := bits b 168 32
def bindCtx (b : BindRecord) : BitVec 16 := b.extractLsb' 152 16
def bindAllot (b : BindRecord) : Nat := bits b 136 16
def bindOvfl (b : BindRecord) : Nat := bits b 120 16
def bindFoot (b : BindRecord) : Nat := bits b 110 10
def bindCsa (b : BindRecord) : Nat := bits b 102 8
def bindAsid (b : BindRecord) : BitVec 10 := b.extractLsb' 92 10
def bindIgen (b : BindRecord) : Nat := bits b 80 12
def bindBudget (b : BindRecord) : Nat := bits b 75 5
def bindPri (b : BindRecord) : Nat := bits b 72 3
def bindTask (b : BindRecord) : Nat := bits b 62 10
def bindMember (b : BindRecord) : Nat := bits b 57 5
def bindNm1 (b : BindRecord) : Nat := bits b 52 5
def bindDrva (b : BindRecord) : Nat := bits b 3 40
def bindDrn (b : BindRecord) : Bool := bit b 2
def bindRes (b : BindRecord) : Bool := bit b 1
def bindVld (b : BindRecord) : Bool := bit b 0

/-! ### Image header (R115) -/

def hdrCrc (h : BitVec 2048) : Nat := bits h 2016 32
def hdrImglen (h : BitVec 2048) : Nat := bits h 448 32
def hdrArglen (h : BitVec 2048) : Nat := bits h 416 32
def hdrDatalen (h : BitVec 2048) : Nat := bits h 384 32
def hdrDataoff (h : BitVec 2048) : Nat := bits h 352 32
def hdrRecdir (h : BitVec 2048) : Nat := bits h 320 32
def hdrStoff (h : BitVec 2048) : Nat := bits h 288 32
def hdrElig (h : BitVec 2048) : Bool := bit h 272
def hdrMgate (h : BitVec 2048) : Nat := bits h 256 16
def hdrSsaneed (h : BitVec 2048) : Nat := bits h 224 32
def hdrFootprint (h : BitVec 2048) : Nat := bits h 208 16
def hdrCpeak (h : BitVec 2048) : Nat := bits h 192 16
def hdrOpmask (h : BitVec 2048) : BitVec 64 := h.extractLsb' 128 64
def hdrMaxreach (h : BitVec 2048) : Nat := bits h 112 16
def hdrEntry (h : BitVec 2048) : Nat := bits h 96 16
def hdrStlen (h : BitVec 2048) : Nat := bits h 80 16
def hdrV (h : BitVec 2048) : Nat := bits h 64 16
def hdrVersion (h : BitVec 2048) : Nat := bits h 32 16
def hdrMagic (h : BitVec 2048) : Nat := bits h 0 32

/-! ### Virtual stripe records (R119 to R122) -/

def recCrc (r : Rec) : Nat := bits r.hdr 480 32
def recRlen (r : Rec) : Nat := bits r.hdr 192 16
def recSt (r : Rec) : Nat := bits r.hdr 160 24
def recOpmask (r : Rec) : BitVec 64 := r.hdr.extractLsb' 96 64
def recSmn (r : Rec) : Nat := bits r.hdr 88 8
def recReach (r : Rec) : Nat := bits r.hdr 80 4
def recOff (r : Rec) : Nat := bits r.hdr 64 16
def recTail (r : Rec) : Nat := bits r.hdr 48 16
def recTerm (r : Rec) : Bool := bit r.hdr 35
def recState (r : Rec) : Bool := bit r.hdr 34
def recPin (r : Rec) : Bool := bit r.hdr 33
def recLock (r : Rec) : Bool := bit r.hdr 32
def recBm1 (r : Rec) : Nat := bits r.hdr 16 16
def recIi (r : Rec) : Nat := bits r.hdr 10 6
def recNum (r : Rec) : Nat := bits r.hdr 0 10
/-- The stage of a row slot (R120). -/
def slotStage (w : BitVec 128) : Nat := bits w 84 8
/-- The row word of a row slot. -/
def slotRow (w : BitVec 128) : BitVec 80 := w.extractLsb' 0 80
/-- Row slot `j` of a record; a slot past the list is a `nop`. -/
def recSlot (r : Rec) (j : Nat) : BitVec 128 := r.slots.getD j 0
/-- Switch entry `j`. -/
def recSwitch (r : Rec) (j : Nat) : BitVec 64 := r.switches.getD j 0
/-- The largest stage S of a record (R22). -/
def recMaxStage (r : Rec) : Nat := (r.slots.take (recIi r)).foldl (fun m w => max m (slotStage w)) 0

/-- The queue bound to `up` in a switch entry (R71). -/
def swUp (w : BitVec 64) : Option Nat := if bit w 10 then some (bits w 6 4) else none
/-- The queue bound to `dn`. -/
def swDn (w : BitVec 64) : Option Nat := if bit w 15 then some (bits w 11 4) else none
/-- The binding of `tap`m: (write, lane 0-15) with anticlockwise lanes at 8. -/
def swTap (w : BitVec 64) (m : Nat) : Option (Bool × Nat) :=
  if bit w (16 + 6 * m + 5) then
    some (bit w (16 + 6 * m + 4), bits w (16 + 6 * m) 3 + (if bit w (16 + 6 * m + 3) then 8 else 0))
  else none

/-! ### Stream descriptors (R167) -/

abbrev StreamDesc := BitVec 512

def sdBase (d : StreamDesc) : Nat := bits d 448 64
def sdC (d : StreamDesc) (i : Nat) : Nat := bits d (320 + 32 * i) 32
def sdS (d : StreamDesc) (i : Nat) : Int := sbits d (192 + 32 * i) 32
def sdRl (d : StreamDesc) : Nat := bits d 160 32
def sdWavew (d : StreamDesc) : Nat := bits d 128 32
def sdTag (d : StreamDesc) : Nat := bits d 112 16
def sdAtom (d : StreamDesc) : Nat := bits d 104 8
def sdTagchk (d : StreamDesc) : Bool := bit d 99
def sdLayout (d : StreamDesc) : Bool := bit d 98
def sdFrame (d : StreamDesc) : Nat := bits d 96 2
def sdMode (d : StreamDesc) : Nat := bits d 94 2
def sdSpace (d : StreamDesc) : Nat := bits d 92 2

/-! ### Transfer records (R177) -/

abbrev TransferRec := BitVec 512

def trNext (r : TransferRec) : Nat := bits r 448 64
def trSrc (r : TransferRec) : Nat := bits r 392 56
def trDst (r : TransferRec) : Nat := bits r 336 56
def trSS (r : TransferRec) (i : Nat) : Int := sbits r (304 - 32 * (i - 1)) 32
def trDS (r : TransferRec) (i : Nat) : Int := sbits r (208 - 32 * (i - 1)) 32
def trC0 (r : TransferRec) : Nat := bits r 120 24
def trC1 (r : TransferRec) : Nat := bits r 104 16
def trC2 (r : TransferRec) : Nat := bits r 88 16
def trC3 (r : TransferRec) : Nat := bits r 72 16
def trBar (r : TransferRec) : Nat := bits r 48 24
def trBk (r : TransferRec) : Nat := bits r 46 2
def trTok (r : TransferRec) : Nat := bits r 43 3
def trSsp (r : TransferRec) : Nat := bits r 41 2
def trDsp (r : TransferRec) : Nat := bits r 39 2
def trSlay (r : TransferRec) : Bool := bit r 38
def trDlay (r : TransferRec) : Bool := bit r 37
def trOrd (r : TransferRec) : Bool := bit r 36
def trOwn (r : TransferRec) : Bool := bit r 0
/-- Bytes a copy moves (R178). -/
def trBytes (r : TransferRec) : Nat := trC0 r * trC1 r * trC2 r * trC3 r

/-! ### Collective descriptors (R308) -/

abbrev CollDesc := BitVec 512

def cdSrc (d : CollDesc) : Nat := bits d 448 64
def cdDst (d : CollDesc) : Nat := bits d 384 64
def cdCount (d : CollDesc) : Nat := bits d 352 32
def cdGroup (d : CollDesc) : Nat := bits d 336 16
def cdRoot (d : CollDesc) : Nat := bits d 324 12
def cdOp (d : CollDesc) : Nat := bits d 320 4
def cdRed (d : CollDesc) : Nat := bits d 316 4
def cdType (d : CollDesc) : Nat := bits d 312 4
def cdTok (d : CollDesc) : Nat := bits d 309 3

/-! ### Ensigns (R124) -/

abbrev Ensign := BitVec 256

def enCrc (e : Ensign) : Nat := bits e 128 32
def enCrcp (e : Ensign) : Bool := bit e 112
def enProdctx (e : Ensign) : BitVec 16 := e.extractLsb' 96 16
def enChtag (e : Ensign) : BitVec 16 := e.extractLsb' 80 16
def enScalen (e : Ensign) : Nat := bits e 64 16
def enLayout (e : Ensign) : Nat := bits e 60 4
def enSmode (e : Ensign) : Nat := bits e 56 4
def enFmt (e : Ensign) : BitVec 24 := e.extractLsb' 32 24
def enNcols (e : Ensign) : Nat := bits e 24 8 + 1
def enNrows (e : Ensign) : Nat := bits e 16 8 + 1
def enPennant (e : Ensign) : BitVec 16 := e.extractLsb' 0 16

/-! ### Submission entries (R324) and member descriptors (R325) -/

abbrev SubEntry := BitVec 512

def seMemb (e : SubEntry) : Nat := bits e 448 64
def seRng (e : SubEntry) : Nat := bits e 384 64
def seWdog (e : SubEntry) : Nat := bits e 336 48
def seQuant (e : SubEntry) : Nat := bits e 304 32
def seTag (e : SubEntry) : BitVec 16 := e.extractLsb' 288 16
def seDep (e : SubEntry) (i : Nat) : BitVec 24 := e.extractLsb' (240 + 24 * i) 24
def seAsid (e : SubEntry) : BitVec 10 := e.extractLsb' 230 10
def seNm1 (e : SubEntry) : Nat := bits e 225 5
def sePri (e : SubEntry) : Nat := bits e 222 3
def sePart (e : SubEntry) : Nat := bits e 219 3
def seKind (e : SubEntry) : Nat := bits e 217 2
def seEarly (e : SubEntry) : Bool := bit e 216

def mdImg (m : BitVec 512) : Nat := bits m 456 56
def mdPlace (m : BitVec 512) : Nat := bits m 242 6

/-! ### Barrier objects (R289) -/

def barOwner (b : Barrier) : BitVec 16 := b.extractLsb' 112 16
def barLpois (b : Barrier) : Bool := bit b 107
def barPois (b : Barrier) : Bool := bit b 106
def barOvf (b : Barrier) : Bool := bit b 105
def barFlt (b : Barrier) : Bool := bit b 104
def barScope (b : Barrier) : Nat := bits b 100 4
def barOutb (b : Barrier) : Nat := bits b 64 36
def barInb (b : Barrier) : Nat := bits b 28 36
def barCount (b : Barrier) : Nat := bits b 16 12
def barPend (b : Barrier) : Nat := bits b 4 12
def barGen (b : Barrier) : Nat := bits b 0 4

/-! ### Remap entries (R345) -/

def remapPtok (r : RemapEntry) (t : Nat) : Nat := bits r (128 + 8 * t) 8
def remapCtx (r : RemapEntry) : BitVec 16 := r.extractLsb' 112 16
def remapSave (r : RemapEntry) : Nat := bits r 76 36 * 65536
def remapFoot (r : RemapEntry) : Nat := bits r 66 10
def remapCsa (r : RemapEntry) : Nat := bits r 58 8
def remapState (r : RemapEntry) : Nat := bits r 56 2
def remapFront (r : RemapEntry) : Nat := bits r 37 19
def remapPflg (r : RemapEntry) : W32 := BitVec.ofNat 32 (bits r 28 9)

/-- The number of a scope (R28). -/
def scopeRank (c : Scope) : Nat := c.bits.toNat

/-- The scope of a number (R28). -/
def scopeOfNat (n : Nat) : Scope :=
  match n with
  | 0 => .ring | 1 => .die | 2 => .pkg | 3 => .pod | _ => .sys

/-- The bits of a fault record (R350), VLD set. -/
def faultBits (f : FaultRec) : BitVec 512 :=
  packBits 512 [(448, 64, f.addr.toNat), (384, 64, f.tc), (352, 32, f.info.toNat), (336, 16, f.ctx.toNat),
    (320, 16, f.code), (310, 10, f.asid.toNat), (305, 5, f.ring), (301, 4, f.region), (289, 12, f.gen),
    (285, 4, f.cls), (284, 1, if f.locStripe then 1 else 0), (272, 12, f.si), (262, 10, f.vs), (257, 5, f.slot),
    (254, 3, f.col), (190, 64, f.ent), (174, 16, f.prodctx.toNat), (168, 6, f.issuer), (164, 4, f.pstr), (0, 1, 1)]

end Sys2Proof.Machine
end

