-- ==== Sys2Proof/Machine/Ops.lean ====
section
/-!
DEFINITION. The named operations over memory, rings, contexts and elements: every field of State is read and written
through them. Taking a fault (R352) and the return from a debug break (R400) are the two shared operations
`takeFault` and `resumeBreak`.
-/

namespace Sys2Proof.Machine

open Sys2Proof

/-! ### Byte memory -/

/-- The byte at an address; an unlisted one reads zero (R373). -/
def Memory.read (m : Memory) (a : Nat) : Byte :=
  match m with
  | [] => 0
  | (b, x) :: r => if b = a then x else Memory.read r a

/-- The memory with `x` at `a`, in canonical form. -/
def Memory.write (m : Memory) (a : Nat) (x : Byte) : Memory :=
  match m with
  | [] => if x = 0 then [] else [(a, x)]
  | (b, y) :: r =>
    if b = a then (if x = 0 then r else (a, x) :: r)
    else if a < b then (if x = 0 then (b, y) :: r else (a, x) :: (b, y) :: r)
    else (b, y) :: Memory.write r a x

/-- The canonical form: addresses strictly rising from `lo`, no zero byte listed. -/
def Memory.wfFrom (lo : Nat) (m : Memory) : Bool :=
  match m with
  | [] => true
  | (b, y) :: r => decide (lo ≤ b) && decide (y ≠ 0) && Memory.wfFrom (b + 1) r

/-- The canonical form. -/
def Memory.wf (m : Memory) : Bool := Memory.wfFrom 0 m

/-- `n` bytes from `a`. -/
def Memory.readN (m : Memory) (a : Nat) : Nat → List Byte
  | 0 => []
  | n + 1 => m.read a :: Memory.readN m (a + 1) n

/-- Bytes written from `a` up. -/
def Memory.writeN (m : Memory) (a : Nat) : List Byte → Memory
  | [] => m
  | b :: r => Memory.writeN (m.write a b) (a + 1) r

/-- A number of `n` bytes at `a`, little-endian (R5). -/
def Memory.readNat (m : Memory) (a n : Nat) : Nat := leNat (m.readN a n)

/-! ### Rings, dies and the hub -/

/-- Ring `g`. -/
def State.ring (s : State) (g : Nat) : Ring := tget s.rings g Ring.reset
/-- The state with ring `g` replaced. -/
def State.setRing (s : State) (g : Nat) (r : Ring) : State := { s with rings := tset s.rings g r }
/-- The state with a function applied to ring `g`. -/
def State.onRing (s : State) (g : Nat) (f : Ring → Ring) : State := s.setRing g (f (s.ring g))
/-- The context of ring `g`. -/
def State.ctx (s : State) (g : Nat) : Ctx := (s.ring g).ctx
/-- The state with a function applied to the context of ring `g`. -/
def State.onCtx (s : State) (g : Nat) (f : Ctx → Ctx) : State := s.onRing g fun r => { r with ctx := f r.ctx }
/-- Die `d`. -/
def State.die (s : State) (d : Nat) : Die := tget s.dies d Die.reset
/-- The state with a function applied to die `d`. -/
def State.onDie (s : State) (d : Nat) (f : Die → Die) : State := { s with dies := tset s.dies d (f (s.die d)) }
/-- The die of a ring (R13). -/
def dieOf (g : Nat) : Nat := g / 6
/-- The state with a function applied to the hub. -/
def State.onHub (s : State) (f : Hub → Hub) : State := { s with hub := f s.hub }
/-- The state with a function applied to the always-on domain. -/
def State.onAon (s : State) (f : Aon → Aon) : State := { s with aon := f s.aon }
/-- The number of the next free value. -/
def State.freeNo (s : State) : Nat := s.freeCtr
/-- The state with the next free value consumed. -/
def State.tickFree (s : State) : State := { s with freeCtr := s.freeCtr + 1 }

/-! ### Registers of the sequencer (R135) -/

/-- Counter `k`n. -/
def Ctx.kreg (c : Ctx) (n : Nat) : BitVec 48 := tget c.k n 0
/-- Counter `k`n written. -/
def Ctx.setK (c : Ctx) (n : Nat) (x : BitVec 48) : Ctx := { c with k := tset c.k n x }
/-- Address register `a`n. -/
def Ctx.areg (c : Ctx) (n : Nat) : BitVec 64 := tget c.a n 0
/-- Address register written. -/
def Ctx.setA (c : Ctx) (n : Nat) (x : BitVec 64) : Ctx := { c with a := tset c.a n x }
/-- A counter or address register as 64 bits, a counter sign-extended (R158). -/
def Ctx.sreg (c : Ctx) (r : SReg) : BitVec 64 := if r.isA then c.areg r.n.val else (c.kreg r.n.val).signExtend 64
/-- A counter or address register written; a counter keeps the low 48 bits. -/
def Ctx.setS (c : Ctx) (r : SReg) (x : BitVec 64) : Ctx :=
  if r.isA then c.setA r.n.val x else c.setK r.n.val (x.truncate 48)
/-- Token `t`n (R135). -/
def Ctx.token (c : Ctx) (n : Nat) : Nat := tget c.tok n 0
/-- Token `t`n written. -/
def Ctx.setTok (c : Ctx) (n x : Nat) : Ctx := { c with tok := tset c.tok n x }
/-- Status line `sl`n, with the lines that are functions of other state (R110): `sl2` a channel is parked, `sl4` the
cache holds the next hoist's record, `sl5` the flag word is nonzero. -/
def Ctx.line (c : Ctx) (n : Nat) : Bool :=
  if n = 2 then c.chans.any fun e => e.2.mode == .parked
  else if n = 4 then
    match c.runs.getLast? with
    | some r =>
      let next := if r.arm.isSome then c.hoistNext else 0
      !r.done && decide (next < r.limit) && c.cache.any fun e => e.1 == r.first + next % (max r.nv 1)
    | none => false
  else if n = 5 then c.flagw != 0
  else bit c.sl n
/-- Status line written. -/
def Ctx.setLine (c : Ctx) (n : Nat) (b : Bool) : Ctx := { c with sl := setBit c.sl n b }
/-- Event count EV (R321). -/
def Ctx.evCount (c : Ctx) (n : Nat) : Nat := tget c.ev n 0
/-- Event count advanced by `d`, saturating at 48 bits. -/
def Ctx.addEv (c : Ctx) (n d : Nat) : Ctx := { c with ev := tset c.ev n (satAdd 48 (c.evCount n) d) }
/-- Event count set. -/
def Ctx.setEv (c : Ctx) (n v : Nat) : Ctx := { c with ev := tset c.ev n v }
/-- Format slot `f`n; every slot holds E4M3 at context start (R44). -/
def Ctx.fslot (c : Ctx) (n : Nat) : BitVec 24 := tget c.fslots n 0xC68380
/-- The context id (R333). -/
def Ctx.id (c : Ctx) : BitVec 16 := bindCtx c.bind
/-- The address space (R252). -/
def Ctx.asid (c : Ctx) : BitVec 10 := bindAsid c.bind
/-- Stream `sm`n. -/
def Ctx.stream (c : Ctx) (n : Nat) : Stream := tget c.streams n Stream.reset
/-- Stream written. -/
def Ctx.setStream (c : Ctx) (n : Nat) (x : Stream) : Ctx := { c with streams := tset c.streams n x }
/-- Copy channel n. -/
def Ctx.chan (c : Ctx) (n : Nat) : Chan := tget c.chans n Chan.reset
/-- Copy channel written. -/
def Ctx.setChan (c : Ctx) (n : Nat) (x : Chan) : Ctx := { c with chans := tset c.chans n x }
/-- State-table slot i (R118). -/
def Ctx.slotWord (c : Ctx) (i : Nat) : BitVec 64 := tget c.stable i 0
/-- The step at a state index, read through the decoder. -/
def Ctx.stepAt (c : Ctx) (i : Nat) : Except Refused Instr := decodeStep (c.slotWord i) (c.slotWord (i + 1))
/-- The run most recently posted or armed. -/
def Ctx.lastRun (c : Ctx) : Option Run := c.runs.getLast?
/-- The armed run under way: armed, and neither finished nor parked to its end. -/
def Ctx.armedRun (c : Ctx) : Option Run := c.runs.reverse.find? fun r => r.arm.isSome && !r.done
/-- A run replaced by its number. -/
def Ctx.setRun (c : Ctx) (r : Run) : Ctx := { c with runs := c.runs.map fun x => if x.id = r.id then r else x }

/-! ### Stripes and elements -/

/-- Physical stripe `ps`. -/
def Ring.stripe (r : Ring) (ps : Nat) : Stripe := tget r.stripes ps Stripe.reset
/-- Physical stripe replaced. -/
def Ring.setStripe (r : Ring) (ps : Nat) (x : Stripe) : Ring := { r with stripes := tset r.stripes ps x }
/-- Element in column `k`. -/
def Stripe.elem (x : Stripe) (k : Nat) : Element := tget x.elems k Element.reset
/-- Element replaced. -/
def Stripe.setElem (x : Stripe) (k : Nat) (e : Element) : Stripe := { x with elems := tset x.elems k e }
/-- Element of a ring. -/
def Ring.elem (r : Ring) (ps k : Nat) : Element := (r.stripe ps).elem k
/-- Element of a ring replaced. -/
def Ring.setElem (r : Ring) (ps k : Nat) (e : Element) : Ring := r.setStripe ps ((r.stripe ps).setElem k e)
/-- Element of a ring changed by a function. -/
def Ring.onElem (r : Ring) (ps k : Nat) (f : Element → Element) : Ring := r.setElem ps k (f (r.elem ps k))
/-- Element of the module. -/
def State.elem (s : State) (g ps k : Nat) : Element := (s.ring g).elem ps k
/-- Element of the module changed by a function. -/
def State.onElem (s : State) (g ps k : Nat) (f : Element → Element) : State := s.onRing g fun r => r.onElem ps k f

/-- The physical register that `v`n denotes under the rotating base (R23). -/
def Element.phys (e : Element) (n : Nat) : Nat := (n + e.rb.toNat) % 64
/-- Predicate `p`n; `p0` reads all ones (R18). -/
def Element.pred (e : Element) (n : Nat) : W32 := if n = 0 then 0xFFFFFFFF else tget e.p n 0
/-- Cell (i, j) of accumulator bank b. -/
def Element.accCell (e : Element) (b i j : Nat) : BitVec 32 := tget e.acc (256 * b + 16 * i + j) 0
/-- Entry i of `ckr`b. -/
def Element.ckrAt (e : Element) (b i : Nat) : BitVec 32 := tget e.ckr (16 * b + i) 0
/-- Entry j of `ckc`b. -/
def Element.ckcAt (e : Element) (b i : Nat) : BitVec 32 := tget e.ckc (16 * b + i) 0
/-- Counter c of a cell of counter bank b. -/
def Element.cbAt (e : Element) (b cell c : Nat) : Int := tget e.cb ((256 * b + cell) * 28 + c) 0
/-- A cell of `xa`. -/
def Element.xaAt (e : Element) (cell : Nat) : Int := tget e.xa cell 0
/-- Depth of a counter bank. -/
def Element.depthOf (e : Element) (b : Nat) : Nat := tget e.depth b 0
/-- The scale pair of a cell's counts. -/
def Element.pairOf (e : Element) (b cell : Nat) : Nat × Nat := tget e.pairs (256 * b + cell) (127, 127)
/-- The descriptor of a bank's counts. -/
def Element.cfmtOf (e : Element) (b : Nat) : BitVec 24 := tget e.cfmt b 0

/-- A list of values stored at consecutive numbers from `base`. -/
def tsetList {α : Type} (t : Table α) (base : Nat) : List α → Table α
  | [] => t
  | x :: r => tsetList (tset t base x) (base + 1) r

/-- A range of numbers removed. -/
def tdelRange {α : Type} (t : Table α) (lo n : Nat) : Table α := t.filter fun e => !(lo ≤ e.1 && e.1 < lo + n)

/-- A counter bank emptied: counts, depth, pairs and descriptor (R243). -/
def Element.clearCb (e : Element) (b : Nat) : Element :=
  { e with
    cb := tdelRange e.cb (256 * b * 28) (256 * 28), depth := (tdel e.depth b),
    pairs := tdelRange e.pairs (256 * b) 256, cfmt := tdel e.cfmt b, cscaled := tdel e.cscaled b }

/-- An accumulator bank and its checksum vectors set to +0 (R243). -/
def Element.clearBank (e : Element) (b : Nat) : Element :=
  { e with acc := tdelRange e.acc (256 * b) 256, ckr := tdelRange e.ckr (16 * b) 16, ckc := tdelRange e.ckc (16 * b) 16 }

/-! ### Live stripes (R87) -/

/-- The live stripes of a ring in ascending order. -/
def Ring.live (r : Ring) : List Nat := (List.range 16).filter fun j => !bit r.retire j
/-- How many stripes are live. -/
def Ring.nLive (r : Ring) : Nat := r.live.length
/-- The live stripe λ(h mod N). -/
def Ring.lam (r : Ring) (h : Nat) : Nat := r.live.getD (h % (max r.nLive 1)) 0
/-- The place of a live stripe among them. -/
def Ring.liveIndex (r : Ring) (ps : Nat) : Nat := (r.live.filter fun j => j < ps).length
/-- The upstream live stripe. -/
def Ring.upstream (r : Ring) (ps : Nat) : Nat := r.lam (r.liveIndex ps + r.nLive - 1)
/-- The block on a side of a stripe: its own downstream, or that of the upstream live stripe. -/
def Ring.blockOf (r : Ring) (ps : Nat) (down : Bool) : Nat := if down then ps else r.upstream ps
/-- The block that a stream which follows a run now targets (R95). -/
def Ring.streamBlock (r : Ring) (x : Stream) : Nat := r.blockOf (r.lam x.hoist) x.out
/-- Whether a stopped stream of a direction is bound to queue q of a block (R266). -/
def Ring.stoppedAt (r : Ring) (out : Bool) (blk q : Nat) : Bool :=
  r.ctx.streams.any fun e => e.2.isOpen && e.2.out == out && e.2.q == q && e.2.stopped.isSome && e.2.run.isSome &&
    r.streamBlock e.2 == blk
/-- Cause of a hold on an empty queue: 5 when the stream that fills it is stopped on a fault, else 1 (R266). -/
def Ring.popCause (r : Ring) (blk q : Nat) : Nat := if r.stoppedAt false blk q then 5 else 1
/-- Cause of a hold on a full queue: 5 when the stream that drains it is stopped on a fault, else 2 (R266). -/
def Ring.pushCause (r : Ring) (blk q : Nat) : Nat := if r.stoppedAt true blk q then 5 else 2
/-- Stripe budget P = min(budget, N) (R88). -/
def Ring.budget (r : Ring) : Nat := min (bindBudget r.ctx.bind) r.nLive

/-! ### Scratchpad (R77) -/

/-- The block offset at which a linear access reaches the place that offset `o` has under a layout. -/
def placeOf (swz : Bool) (o : Nat) : Nat :=
  if swz then
    let w := o / 128 % 16384
    let row := w / 16
    (row * 16 + (w % 16 ^^^ row % 16)) * 128 + ((o / 16 % 8) ^^^ (w % 8)) * 16 + o % 16
  else o

/-- The bank and bank row of a word of a block under a layout. -/
def bankOf (swz : Bool) (word : Nat) : Nat × Nat :=
  (if swz then word % 16 ^^^ (word / 16 % 16) else word % 16, word / 16 % 1024)

/-- The byte at offset `o` of a block under a layout. -/
def Ring.spadByte (r : Ring) (blk o : Nat) (swz : Bool) : Byte :=
  r.spad.read (blk * Config.blockBytes + placeOf swz (o % Config.blockBytes))

/-- Bytes of a block from offset `o`, modulo the block (R222). -/
def Ring.spadRead (r : Ring) (blk o : Nat) (swz : Bool) : Nat → List Byte
  | 0 => []
  | n + 1 => r.spadByte blk o swz :: Ring.spadRead r blk (o + 1) swz n

/-- A byte of a block written; a write makes its chunk's code valid again (R355). -/
def Ring.spadPut (r : Ring) (blk o : Nat) (swz : Bool) (x : Byte) : Ring :=
  let a := blk * Config.blockBytes + placeOf swz (o % Config.blockBytes)
  { r with spad := r.spad.write a x, spoison := r.spoison.filter fun c => c != a / 16 }

/-- Bytes of a block written from offset `o`. -/
def Ring.spadWrite (r : Ring) (blk o : Nat) (swz : Bool) : List Byte → Ring
  | [] => r
  | b :: l => Ring.spadWrite (r.spadPut blk o swz b) blk (o + 1) swz l

/-- Whether any chunk of `n` bytes from `o` is poisoned (R354). -/
def Ring.spadPoisoned (r : Ring) (blk o n : Nat) (swz : Bool) : Bool :=
  !r.spoison.isEmpty &&
    (List.range n).any fun i =>
      r.spoison.contains ((blk * Config.blockBytes + placeOf swz ((o + i) % Config.blockBytes)) / 16)

/-- The chunks of a word that a poisoned store would have written in the lanes of a mask, marked (R316). -/
def Ring.poisonWord (r : Ring) (blk word : Nat) (swz : Bool) (mask : W32) : Ring :=
  { r with
    spoison := (((maskList mask).map fun l => (blk * Config.blockBytes + placeOf swz ((128 * word + 4 * l) % Config.blockBytes)) / 16).filter
      fun c => !r.spoison.contains c).eraseDups ++ r.spoison }

/-- Whether what an element issued at a TC carries poison (R316). -/
def Ring.poisonFrom (r : Ring) (issued : Nat) : Bool := r.ctx.unwinding.any fun u => decide (u.at_ ≤ issued)

/-- A word of a block as a vector. -/
def Ring.wordAt (r : Ring) (blk word : Nat) (swz : Bool) : Vec := vecOfBytes (r.spadRead blk (128 * word) swz 128)

/-- A word of a block written in the lanes of a mask. -/
def Ring.putWord (r : Ring) (blk word : Nat) (swz : Bool) (v : Vec) (mask : W32) : Ring :=
  (List.range 32).foldl
    (fun r l => if bit mask l then r.spadWrite blk (128 * word + 4 * l) swz (leBytes 4 (v.lane l).toNat) else r) r

/-- An element access to a bank word recorded in this cycle (R78, R223). -/
def Ring.useBank (r : Ring) (blk word : Nat) (swz : Bool) : Ring :=
  let u := (blk, (bankOf swz word).1, (bankOf swz word).2)
  if r.bankUse.contains u then r else { r with bankUse := u :: r.bankUse }

/-- Stored errors that accesses to chunks meet are corrected (R355, R371); the classifier hears of them (R356). -/
def Ring.meetFlaws (r : Ring) (chunk : Nat → Bool) : Ring :=
  if r.flaws.isEmpty then r
  else { r with flaws := r.flaws.map fun x => if x.2 = .latent ∧ chunk x.1 then (x.1, .met) else x }

/-- Whether an element has used the bank word of a chunk in this cycle. -/
def Ring.usedChunk (r : Ring) (c : Nat) : Bool :=
  let o := 16 * c % Config.blockBytes
  r.bankUse.contains (16 * c / Config.blockBytes, o / 128 % 16, o / 2048)

/-- Consecutive words recorded. -/
def Ring.useBanks (r : Ring) (blk word : Nat) (swz : Bool) : Nat → Ring
  | 0 => r
  | n + 1 => Ring.useBanks (r.useBank blk word swz) blk (word + 1) swz n

/-- Whether an element uses a bank of `n` consecutive words in this cycle, so that an engine's access to them waits (R78). -/
def Ring.banksBusy (r : Ring) (blk word : Nat) (swz : Bool) (n : Nat) : Bool :=
  r.bankUse.any fun u => u.1 == blk && (List.range n).any fun i => (bankOf swz (word + i)).1 == u.2.1

/-- Cycles a collision costs: each further bank word of a bank in one cycle (R78). -/
def Ring.bankExtra (r : Ring) : Nat :=
  r.bankUse.length - (r.bankUse.map fun u => (u.1, u.2.1)).eraseDups.length

/-! ### Queues (R79 to R82, R228) -/

/-- The configuration of queue q. -/
def Ring.queue (r : Ring) (q : Nat) : Option QCfg := (r.qcfg.find? fun e => e.1 == q).map Prod.snd
/-- Queue q of block j. -/
def Ring.qstate (r : Ring) (blk q : Nat) : QState := tget r.qst (16 * blk + q) QState.reset
/-- Queue q of block j replaced. -/
def Ring.setQ (r : Ring) (blk q : Nat) (x : QState) : Ring := { r with qst := tset r.qst (16 * blk + q) x }
/-- The entry's sideband, mask and visibility, when it has been pushed. -/
def QState.entry (q : QState) (pos : Nat) : Option QMeta := (q.info.find? fun e => e.1 == pos).map Prod.snd
/-- Whether an entry is a bubble (R82). -/
def QMeta.bubble (m : QMeta) : Bool := !m.lr && m.ls
/-- The payload of an entry whose bytes are `v`: a bubble's reads as zero (R82). -/
def QMeta.payload (m : QMeta) (v : Vec) : Vec := if m.bubble then Vec.zero else v
/-- Whether a pop in ring cycle `tc` sees the entry at a position. -/
def QState.visible (q : QState) (pos tc : Nat) : Bool :=
  match q.entry pos with
  | some m => decide (m.vis ≤ tc)
  | none => false
/-- Whether a queue holds SIZE entries (R79). -/
def QState.full (q : QState) (c : QCfg) : Bool := decide (c.size ≤ q.tail - q.head)
/-- `head` moved past popped positions (R228). -/
def advanceHead : Nat → QState → QState
  | 0, q => q
  | n + 1, q =>
    if q.popped.contains q.head then
      advanceHead n { q with head := q.head + 1, popped := q.popped.filter fun p => p != q.head, info := tdel q.info q.head }
    else q
/-- An entry popped: its slot frees in position order (R228). -/
def QState.pop (q : QState) (pos : Nat) : QState :=
  advanceHead (q.popped.length + 1) { q with popped := pos :: q.popped }
/-- The block word at which a position's entry starts (R79). -/
def QCfg.word (c : QCfg) (pos : Nat) : Nat := c.base + (pos % (max c.size 1)) * c.ent
/-- The bytes of HEAD or TAIL as the register holds it (R79): modulo 2 SIZE. -/
def QCfg.counter (c : QCfg) (pos : Nat) : Nat := pos % (2 * max c.size 1)

/-- Whether a reservation of `up` positions is that of the row now issuing. -/
def UpTake.isOf (t : UpTake) (f : Focus) : Bool := t.ps == f.ps && t.slot == f.slot && t.inst == f.inst
/-- The position from which the row now issuing takes its `up` word (R72): the row reserves eight positions in a row as it issues in
column 0, and column k takes the k-th of them; the next unreserved one where the queue has been laid out anew in between (log 111). -/
def QState.upPos (q : QState) (f : Focus) : Nat :=
  if f.col = 0 then q.resv
  else match q.takes.find? (·.isOf f) with
    | some t => t.base + f.col
    | none => q.resv
/-- The queue once the row now issuing has reserved and popped its `up` word (R72, R228). -/
def QState.takeUp (q : QState) (f : Focus) : QState :=
  if f.col = 0 then
    ({ q with resv := q.resv + 8, takes := (q.takes.filter fun t => !t.isOf f) ++ [⟨f.ps, f.slot, f.inst, q.resv⟩] } : QState).pop q.resv
  else match q.takes.find? (·.isOf f) with
    | some t =>
      ({ q with takes := if f.col = 7 then q.takes.filter fun t => !t.isOf f else q.takes } : QState).pop (t.base + f.col)
    | none => ({ q with resv := q.resv + 1 } : QState).pop q.resv

/-- A word pushed into a word queue: its bytes stored and its entry visible from ring cycle `vis`. -/
def Ring.pushWord (r : Ring) (blk q : Nat) (c : QCfg) (v : Vec) (m : QMeta) : Ring :=
  let st := r.qstate blk q
  (r.putWord blk (c.word st.tail) false v 0xFFFFFFFF).setQ blk q
    { st with tail := st.tail + 1, info := tset st.info st.tail m }

/-- A ring that asks for a hold (R85); the lowest cause is kept (R86). -/
def Ring.ask (r : Ring) (cause : Nat) : Ring := { r with holdAsk := if r.holdAsk = 0 then cause else min r.holdAsk cause }

/-- Whether a stream is open in gather mode (R171). -/
def Stream.gathers (x : Stream) : Bool := x.isOpen && sdMode x.desc == 1

/-- Whether the head of a gather stream's buffer may be used at TC `tc` (R227, R184). -/
def Stream.supplied (x : Stream) (tc : Nat) : Bool := x.gather.head?.any fun a => decide (a.2.2 ≤ tc)

/-- An address word supplied to gather stream n (R227), which the stream may use from TC `vis`: a full buffer holds the ring, with cause
5 when the stream is stopped on a fault (R266). -/
def Ring.supply (r : Ring) (n : Nat) (a : Vec) (mask : W32) (vis : Nat) : Ring :=
  let x := r.ctx.stream n
  if !x.gathers then r
  else if 64 ≤ x.gather.length then r.ask (if x.stopped.isSome then 5 else 2)
  else { r with ctx := r.ctx.setStream n { x with gather := x.gather ++ [(a, mask, vis)] } }

/-! ### Events to Eosen and hosts -/

/-- A device physical address is HBM of the package (R253). -/
def isHbm (pa : Nat) : Bool := decide (pa / 1099511627776 < 4) && decide (pa % 1099511627776 < 103079215104)
/-- The stack of an HBM address within its die (R253): 0 below offset 48 GiB, 1 at and above it. -/
def stackOf (pa : Nat) : Nat := if pa % 1099511627776 < 51539607552 then 0 else 1
/-- The HBM stack of a device physical address as STACK of a RAS event names it (R361, R253): 2d below offset 48 GiB of die d,
2d + 1 at and above it, 15 for an address that is not HBM. -/
def hbmStack (pa : Nat) : Nat := if isHbm pa then 2 * (pa / 1099511627776) + stackOf pa else 15
/-- A device physical address is host memory (R253). -/
def isHost (pa : Nat) : Bool := decide (2251799813685248 ≤ pa) && decide (pa < 4503599627370496)
/-- A device physical address lies in no reserved range (R253). -/
def isMapped (pa : Nat) : Bool := isHbm pa || isHost pa
/-- The function whose link carries a host address (R374). -/
def hostFunction (s : State) (pa : Nat) : Nat :=
  let n := (pa - 2251799813685248) / 1125899906842624 % 2
  let split := bit s.aon.pcfgLive n
  2 * n + (if split && (pa / 562949953421312) % 2 == 1 then 1 else 0)
/-- Whether a function exists: the second of a port only while the port is trained as two links (R374). -/
def State.hasFunction (s : State) (f : Nat) : Bool := decide (f < 4) && (f % 2 == 0 || bit s.aon.pcfgLive (f / 2))
/-- Whether a function's link is up. -/
def State.linkUp (s : State) (f : Nat) : Bool := s.hasFunction f && tget s.hub.link f true

/-- A write to the host of a function dropped and counted, its link being down (R380). -/
def State.hostDrop (s : State) (f : Nat) : State := s.onHub fun h => { h with drop := tset h.drop f (satAdd 16 (tget h.drop f 0) 1) }

/-- Bytes written to the host of a function, which a link that is down drops and counts (R380). -/
def State.hostWrite (s : State) (f pa : Nat) (bs : List Byte) : State :=
  if s.linkUp f then { s with mem := s.mem.writeN pa bs } else s.hostDrop f

/-- Bytes written to device physical memory; reserved ranges take nothing. -/
def State.busWrite (s : State) (pa : Nat) (bs : List Byte) : State :=
  if isHbm pa then { s with mem := s.mem.writeN pa bs, poison := s.poison.filter fun l => !(pa / 64 ≤ l && l < ceilDiv (pa + bs.length) 64) }
  else if isHost pa then s.hostWrite (hostFunction s pa) pa bs
  else s

/-- Bytes written by firmware, a host or a hardware record: performed at `sys` scope at once, so that a host reads them whatever
stood there (R287). -/
def State.physWrite (s : State) (pa : Nat) (bs : List Byte) : State :=
  let s := s.busWrite pa bs
  { s with shadow := s.shadow.filter fun x => !(decide (pa ≤ x.1) && decide (x.1 < pa + bs.length)) }

/-- Bytes of device physical memory; reserved ranges read zero. -/
def State.physRead (s : State) (pa n : Nat) : List Byte :=
  if isMapped pa then s.mem.readN pa n else List.replicate n 0

/-- An MSI-X vector raised to a function (R376): a write to its host, dropped while the link is down (R380). -/
def State.raiseMsi (s : State) (f vec : Nat) : State :=
  if s.linkUp f then s.onHub fun h => { h with msix := h.msix ++ [(f, vec)] } else s.hostDrop f

/-- Whether a read of device memory is delivered poisoned: a host behind a link that is down (R380), or a line that is poisoned. -/
def State.readPoisoned (s : State) (pa n : Nat) : Bool :=
  (isHost pa && !s.linkUp (hostFunction s pa)) || (List.range (linesOf pa n)).any fun i => s.poison.contains (pa / 64 + i)

/-- A host event posted to function f (R380, R405): lost and counted when the ring is disabled or full. -/
def State.hostEvent (s : State) (f kind : Nat) (info : Nat) (tag ctx : BitVec 16) : State :=
  let base := tget s.hub.hevbase f 0
  let head := tget s.hub.hevhead f 0
  let tail := tget s.hub.hevtail f 0
  if !bit base 0 || (head + 1) % 256 = tail then
    s.onHub fun h => { h with evlost := tset h.evlost f (satAdd 16 (tget h.evlost f 0) 1) }
  else
    let w := packBits 256 [(192, 64, s.tick.toNat), (64, 128, info), (48, 16, tag.toNat), (32, 16, ctx.toNat),
      (24, 8, kind), (0, 1, 1)]
    (s.physWrite (bits base 13 39 * 8192 + 32 * head) (bytesOf w)).onHub fun h =>
      { h with hevhead := tset h.hevhead f ((head + 1) % 256) }

/-- Whether function f's event ring would lose an event. -/
def State.hostEventFull (s : State) (f : Nat) : Bool :=
  !bit (tget s.hub.hevbase f 0) 0 || (tget s.hub.hevhead f 0 + 1) % 256 == tget s.hub.hevtail f 0

/-- A RAS event posted (R361). -/
def State.rasEvent (s : State) (kind addr info : Nat) (ctx : BitVec 16) (ring stack pos col : Nat) : State :=
  if (s.hub.rashead + 1) % 256 = s.hub.rastail then s.onHub fun h => { h with raslost := satAdd 32 h.raslost 1 }
  else
    let w := packBits 256 [(192, 64, s.tick.toNat), (128, 64, addr), (96, 32, info), (80, 16, ctx.toNat), (74, 6, ring),
      (70, 4, stack), (66, 4, pos), (63, 3, col), (48, 8, kind), (0, 1, 1)]
    (s.physWrite (s.hub.rasbase.toNat + 32 * s.hub.rashead) (bytesOf w)).onHub fun h =>
      { h with rashead := (h.rashead + 1) % 256 }

/-- The function that submitted a task (R379). -/
def State.taskFunction (s : State) (t : Nat) : Nat :=
  match s.hub.tasks.find? fun e => e.1 == t with
  | some (_, x) => tget s.hub.sqown x.queue 0
  | none => 0

/-- A host event for the function that submitted the context of ring g. -/
def State.ctxHostEvent (s : State) (g kind info : Nat) : State :=
  let t := bindTask (s.ctx g).bind
  let tag := match s.hub.tasks.find? fun e => e.1 == t with
    | some (_, x) => seTag x.entry
    | none => 0
  s.hostEvent (s.taskFunction t) kind info tag (s.ctx g).id

/-- The number of the nominal cycle under way (R8). -/
def State.nominalCycle (s : State) : Nat := Config.cyclesPerTick * s.tick.toNat + s.sub

/-- Whether the balancer of a pair stretches its clocks (R392). -/
def State.pairStretched (s : State) (p : Nat) : Bool := decide (s.nominalCycle < tget s.hub.pairStretch p 0)

/-! ### Taking a fault (R350 to R353) -/

/-- Rank of a fault when several fall in one cycle (R353). -/
def faultRank (f : FaultRec) : Nat :=
  let c := match f.cls with
    | 4 => 0 | 7 => 1 | 1 => 2 | 6 => 3 | 3 => 4 | 2 => 5 | 8 => 6 | 10 => 7 | _ => 8
  1000 * c + (if f.locStripe then 1 + f.col else 0)

/-- A fault record of the context of ring g, with its location still the state index and the sequencer as its issuer (R267, R350). -/
def faultAt (s : State) (g cls code : Nat) (info : BitVec 32) (addr : BitVec 64) : FaultRec :=
  let c := s.ctx g
  { addr := addr, tc := c.tc, info := info, ctx := c.id, code := code, asid := c.asid, ring := g, region := 0, gen := 0,
    cls := cls, locStripe := false, si := c.si, vs := 0, slot := 0, col := 0, ent := 0, prodctx := 0, issuer := 49,
    pstr := 0 }

/-- A fault record at the row now issuing (R98); a row is no issuer of R267, and the field holds 0 (log 78). -/
def rowFault (s : State) (cls code : Nat) (info : BitVec 32) (addr : BitVec 64) : FaultRec :=
  let o := s.focus
  { faultAt s o.ring cls code info addr with
    locStripe := true, si := 0, vs := ((s.ring o.ring).stripe o.ps).occ.elim 0 (·.vs), slot := o.slot, col := o.col,
    ent := o.ent, issuer := 0, pstr := o.ps }

/-- Work that belongs to a ring. -/
def Work.ofRing (g : Nat) : Work → Bool
  | .event (.startCycleResolved h _) => h == g
  | .event (.startCommandBegin h) => h == g
  | .event (.instanceEntry h _ _) => h == g
  | .event (.stepWaitComplete h) => h == g
  | .event _ => false
  | .begin _ | .engines _ | .fabric | .inject _ | .firmware => false
  | .fault h _ => h == g
  | .seq h => h == g
  | .units _ => false
  | .row h _ _ _ _ _ => h == g
  | .endCycle h => h == g

/-- The cut of R352: what of the cycle was still to be issued on ring g is not. -/
def State.cut (s : State) (g : Nat) : State := { s with agenda := s.agenda.filter fun w => !w.ofRing g }

/-- What a debug break leaves for its resume (R400): with the `brk` rows of the same cycle and column that broke before it. -/
def breakAt (c : Ctx) (f : FaultRec) : BrkResume :=
  if !f.locStripe then ⟨c.tc, none, []⟩
  else
    match c.brkResume with
    | some b => ⟨c.tc, some f.col, if b.tc = c.tc ∧ b.col = some f.col then f.pstr :: b.done else [f.pstr]⟩
    | none => ⟨c.tc, some f.col, [f.pstr]⟩

/-- The context of ring g takes a fault in this cycle (R352): nothing further of the cycle issues, the record is kept
(the one R353 picks when several fell together), and TC stands. A debug break halts the slot (R334, R400); any other
fault waits for the fault save. Nothing happens to a context that has ended, been killed or already faulted. -/
def takeFault (s : State) (g : Nat) (f : FaultRec) : State :=
  let c := s.ctx g
  if c.ended ∨ c.killed ∨ c.fault.isSome then s.cut g
  else
    let rec_ := match c.faultPref with
      | some p => if faultRank p < faultRank f then p else f
      | none => f
    let s := (s.cut g).onCtx g fun c => { c with fault := some rec_, faultPref := none, wait := none }
    if rec_.cls = 9 then
      (s.onRing g fun r => { r with slotState := .halted }).onCtx g fun c =>
        { c with brkResume := some (breakAt c rec_) }
    else s

/-- The return from a debug break (R400): the fault is forgotten, the slot runs again, and `brkResume` tells the next
cycle to issue exactly what the cut suppressed. -/
def resumeBreak (s : State) (g : Nat) : State :=
  (s.onRing g fun r => { r with slotState := .running }).onCtx g fun c => { c with fault := none }

/-- A step-operand fault (R139): schedule class, CODE 9, at the state index. -/
def stepOperandFault (s : State) (g : Nat) : State := takeFault s g (faultAt s g 1 9 0 0)

/-- A barrier fault of a step (R297). -/
def barrierFault (s : State) (g cause name : Nat) : State :=
  takeFault s g (faultAt s g 6 cause 0 (BitVec.ofNat 64 name))

/-- The late-post timing fault (R141): INFO is the start cycle. -/
def lateFault (s : State) (g t si : Nat) : State :=
  takeFault s g { faultAt s g 2 1 (BitVec.ofNat 32 t) 0 with si := si }

/-- The ring asks for a hold of this cause in this cycle (R85); the lowest code wins (R86). -/
def askHold (s : State) (g cause : Nat) : State :=
  s.onRing g fun r => r.ask cause

/-! ### Write requests performed (R138) -/

/-- WDP advanced over requests performed in order. -/
def advanceWdp : Nat → Nat → List Nat → Nat × List Nat
  | 0, w, l => (w, l)
  | n + 1, w, l => if l.contains (w + 1) then advanceWdp n (w + 1) (l.filter fun x => x != w + 1) else (w, l)

/-- Request numbers lo..hi performed as R282 asks; WDP never exceeds WDI. -/
def Ctx.performed (c : Ctx) (lo n : Nat) : Ctx :=
  let l := c.wdone ++ (List.range n).map (lo + ·)
  let (w, l) := advanceWdp (l.length + 1) c.wdp l
  { c with wdp := min w c.wdi, wdone := l }

/-- WDI advanced by `n` lines, saturating at 48 bits (R138). -/
def Ctx.issueLines (c : Ctx) (n : Nat) : Ctx := { c with wdi := satAdd 48 c.wdi n }

/-! ### The next state after a step -/

/-- TC of the next cycle that is not held (R29). -/
def Ctx.nextTc (c : Ctx) : Nat := if c.begun then c.tc + 1 else c.tc

/-- The context in its next cycle that is not held. -/
def Ctx.advanceTc (c : Ctx) : Ctx := { c with tc := c.nextTc, begun := true }

/-- The number of the state that follows the step at SI without a transition (R109). -/
def nextIndex (c : Ctx) : Nat := c.si + (if stepIsLong (c.slotWord c.si) then 2 else 1)

/-- Whether a condition holds on a context (R109). -/
def condHolds (c : Ctx) : Cond → Bool
  | .always => true
  | .kz n => c.kreg n.val == 0
  | .knz n => c.kreg n.val != 0
  | .idle n => c.token n.val == 0
  | .line n => c.line n.val

/-- Whether a state index may be entered (R109): below STLEN and not the second word of a long step. -/
def secondWords (c : Ctx) : Nat → Nat → List Nat
  | 0, _ => []
  | n + 1, i => if stepIsLong (c.slotWord i) then (i + 1) :: secondWords c n (i + 2) else secondWords c n (i + 1)

/-- The second words of the long steps of the loaded table, in one pass from slot 0 (R118). -/
def isSecondWord (c : Ctx) (i : Nat) : Bool := (secondWords c (hdrStlen c.hdr) 0).contains i

/-- Control goes to a state, or a state-overrun image fault is raised there (R109, code 18). INFO takes the index as a number: for 4,096,
which its 12 bits cannot hold, bit 12 is set (log 100). -/
def enterState (s : State) (g target : Nat) (info : Nat) : State :=
  let c := s.ctx g
  if hdrStlen c.hdr ≤ target ∨ isSecondWord c target then
    takeFault s g (faultAt s g 4 18 (BitVec.ofNat 32 info) 0)
  else s.onCtx g fun c => { c with si := target, wait := none }

/-- A status line that R110 clears on a taken transition. -/
def clearsOnTake (n : Nat) : Bool := n == 1 || n == 14 || n == 15

/-- The transition of a completed step (R109): its condition on the state as it stands, then the next state. A step that
has raised a fault or begun an unwinding goes nowhere. -/
def finishStep (s : State) (g : Nat) (t : Trans) : State :=
  let c := s.ctx g
  if c.fault.isSome || c.unwinding.isSome then s
  else
  match t with
  | .fall => enterState s g (nextIndex c) (nextIndex c)
  | .goto cnd target =>
    if condHolds c cnd then
      let s := match cnd with
        | .line n => if clearsOnTake n.val then s.onCtx g fun c => c.setLine n.val false else s
        | _ => s
      enterState s g target.toNat target.toNat
    else enterState s g (nextIndex c) (nextIndex c)

/-- A step goes on waiting in `stage` (R136). -/
def waitStep (s : State) (g : Nat) (w : Wait) : State := s.onCtx g fun c => { c with wait := some w }

end Sys2Proof.Machine
end

