-- ==== Sys2Proof/Machine/Flags.lean ====
section
/-!
DEFINITION. Lane-wise and sub-element-wise computation with its sticky flags (spec/03 R37, R38, R50): a flag is kept
only from lanes whose guard is true.
-/

namespace Sys2Proof.Machine

open Sys2Proof

/-- A vector computed lane by lane, with the flags of the lanes of `guard` ORed (R50). -/
def lanesFlags (guard : W32) (f : Nat → W32 × W32) : Vec × W32 :=
  (Vec.ofLanes fun l => (f l).1, (List.range 32).foldl (fun w l => if bit guard l then w ||| (f l).2 else w) 0)

/-- Width of a sub-element of a type (R37). -/
def tyWidth : Ty → Nat
  | .f32 => 32 | .i32 => 32 | .n32 => 32
  | .bf16 => 16 | .f16 => 16 | .i16 => 16 | .n16 => 16
  | .i8 => 8 | .n8 => 8

/-- Whether a type is signed. -/
def tySigned : Ty → Bool
  | .n32 => false | .n16 => false | .n8 => false
  | _ => true

/-- Sub-element `e` of width `w` of a lane (R37). -/
def subElem (w : Nat) (x : W32) (e : Nat) : Nat := (x.toNat >>> (w * e)) % pow2 w

/-- A lane assembled from sub-elements of width `w`, number 0 least significant. -/
def joinSubs (w : Nat) : List Nat → Nat
  | [] => 0
  | x :: r => x % pow2 w + pow2 w * joinSubs w r

/-- A lane computed sub-element by sub-element with flags ORed (R37). -/
def subMap (w : Nat) (f : Nat → Nat × W32) : W32 × W32 :=
  let rs := (List.range (32 / w)).map f
  (BitVec.ofNat 32 (joinSubs w (rs.map Prod.fst)), rs.foldl (fun a r => a ||| r.2) 0)

/-- An integer pattern of a type as an integer. -/
def tyInt (t : Ty) (n : Nat) : Int := if tySigned t then toSigned (tyWidth t) n else (n : Int)
/-- The least value of an integer type. -/
def tyLo (t : Ty) : Int := if tySigned t then -(pow2 (tyWidth t - 1) : Int) else 0
/-- The largest value of an integer type. -/
def tyHi (t : Ty) : Int := if tySigned t then (pow2 (tyWidth t - 1) : Int) - 1 else (pow2 (tyWidth t) : Int) - 1

/-- An exact integer result wrapped or saturated (R38, R198), with SAT. -/
def narrowInt (t : Ty) (sat : Bool) (x : Int) : Nat × W32 :=
  let w := tyWidth t
  if sat && decide (x < tyLo t) then ((tyLo t % (pow2 w : Int)).toNat, flagSAT)
  else if sat && decide (tyHi t < x) then ((tyHi t % (pow2 w : Int)).toNat, flagSAT)
  else ((x % (pow2 w : Int)).toNat, 0)

/-- The flag word of the elements that hold a context's stripes, ORed (R51). -/
def Ring.elemFlags (r : Ring) : W32 :=
  r.stripes.foldl (fun a st => if st.2.occ.isSome then st.2.elems.foldl (fun b e => b ||| e.2.flags) a else a) 0

/-- The context flag word with the elements' (R51, R322). -/
def Ring.allFlags (r : Ring) : W32 := r.ctx.flagw ||| r.elemFlags

end Sys2Proof.Machine
end

