-- ==== Sys2Proof/Machine/Operands.lean ====
section
/-!
DEFINITION. The operands of rows: guards, source operands of every class with their tags, the `up` pop, and where a
result goes (spec/07 R100 to R103, spec/05 R68 to R75, spec/11 R183 to R189).
-/

namespace Sys2Proof.Machine

open Sys2Proof

/-- The guard of each lane (R100). -/
def guardMask (e : Element) (g : Guard) : W32 := if g.neg then ~~~(e.pred g.p.val) else e.pred g.p.val

/-- GRD = 0b1000: a row that occupies its slot and does nothing (R100). -/
def isNoOp (g : Guard) : Bool := g.neg && g.p == 0

/-- How an immediate of a field is read (R102, R187): as a value of the row's type, or as an integer of a width. -/
inductive ImmKind where
  | ty (t : Ty)
  | int (w : Nat)
  deriving DecidableEq, Repr

/-- A value replicated into every sub-element of a lane. -/
def replicateSub (w n : Nat) : W32 := BitVec.ofNat 32 (joinSubs w (List.replicate (32 / w) n))

/-- An immediate in every lane (R102): converted exactly to the type, or two's complement. -/
def immLane (k : ImmKind) (i : BitVec 6) : W32 :=
  match k with
  | .int w => replicateSub w ((i.toInt % (pow2 w : Int)).toNat)
  | .ty t =>
    match t with
    | .f32 | .bf16 | .f16 =>
      replicateSub (tyWidth t) (roundFmt (fmtOfTy t) (.fin (i.toInt < 0) i.toInt.natAbs 0 false) .rne false).1
    | _ => replicateSub (tyWidth t) ((i.toInt % (pow2 (tyWidth t) : Int)).toNat)

/-- A source's value and tag bits. -/
structure Src where
  val : Vec
  tag : W32
  deriving DecidableEq, Repr

/-- All tag bits set. -/
def allTags : W32 := 0xFFFFFFFF

/-- Logical position of a live stripe on the lanes (R73): two positions per live stripe. -/
def Ring.lanePos (r : Ring) (ps : Nat) : Nat := 2 * r.liveIndex ps

/-- Whether a lane word is present at a position at TC `tc` (R73). -/
def LaneWord.at (w : LaneWord) (n2 pos tc : Nat) : Bool :=
  let d := tc - w.born
  decide (w.born < tc) && decide (d ≤ 2 * w.reach) &&
    (if w.lane < 8 then (w.pos + d) % n2 == pos else (w.pos + n2 * d - d) % n2 == pos)

/-- The word a read tap returns (R74): zero with clear tags where the lane holds none. -/
def Ring.tapRead (r : Ring) (ps col lane : Nat) : Src :=
  let n2 := max (2 * r.nLive) 1
  match r.lanes.find? fun w => w.lane == lane && w.col == col && w.at n2 (r.lanePos ps) r.ctx.tc with
  | some w => ⟨w.val, w.tag⟩
  | none => ⟨Vec.zero, 0⟩

/-- The switch entry that governs the row now issuing (R71). -/
def State.switchNow (s : State) : BitVec 64 :=
  match ((s.ring s.focus.ring).stripe s.focus.ps).record with
  | some rc => recSwitch rc s.focus.slot
  | none => 0

/-- The element that issues. -/
def State.me (s : State) : Element := s.elem s.focus.ring s.focus.ps s.focus.col
/-- The element that issues, changed. -/
def State.onMe (s : State) (f : Element → Element) : State := s.onElem s.focus.ring s.focus.ps s.focus.col f
/-- TC of the ring that issues. -/
def State.now (s : State) : Nat := (s.ctx s.focus.ring).tc
/-- The block on a side of the stripe that issues (R222). -/
def State.block (s : State) (down : Bool) : Nat := (s.ring s.focus.ring).blockOf s.focus.ps down

/-- A special operand (R187) as a lane's value. -/
def specialLane (s : State) (sp : Special) (l : Nat) : W32 :=
  match sp with
  | .it => BitVec.ofNat 32 s.focus.inst
  | .eid => BitVec.ofNat 32 s.focus.col
  | .lid => BitVec.ofNat 32 l
  | .sid => BitVec.ofNat 32 (((s.ring s.focus.ring).stripe s.focus.ps).occ.elim 0 (·.vs))
  | .tcl => BitVec.ofNat 32 s.now
  | .sb => BitVec.ofNat 32 s.me.sb.toNat

/-- A port read (R68 to R74); `up` is the word popped for this row, with all tag bits set (R72). -/
def readPort (s : State) (up : Vec) (p : Port) : Src :=
  match p with
  | .up => ⟨up, allTags⟩
  | .w => if s.focus.col = 0 then ⟨Vec.zero, 0⟩
    else let w := s.elem s.focus.ring s.focus.ps (s.focus.col - 1); ⟨w.e, w.et⟩
  | .pi n =>
    let u := s.elem s.focus.ring ((s.ring s.focus.ring).upstream s.focus.ps) s.focus.col
    ⟨tget u.po n.val Vec.zero, tget u.pot n.val 0⟩
  | .tap n =>
    match swTap s.switchNow n.val with
    | some (false, lane) => (s.ring s.focus.ring).tapRead s.focus.ps s.focus.col lane
    | _ => ⟨Vec.zero, 0⟩
  | .dn | .e | .po _ => ⟨Vec.zero, 0⟩

/-- A source operand of any class (R102, R187). A predicate reads as all ones or zero in each lane. -/
def readSrc (s : State) (up : Vec) (k : ImmKind) (o : Opnd) : Src :=
  match o with
  | .v n => let q := s.me.phys n.val; ⟨tget s.me.v q Vec.zero, tget s.me.vt q 0⟩
  | .x n => ⟨tget s.me.x n.val Vec.zero, tget s.me.xt n.val 0⟩
  | .port p => readPort s up p
  | .imm i => ⟨Vec.splat (immLane k i), allTags⟩
  | .special sp => ⟨Vec.ofLanes (specialLane s sp), allTags⟩
  | .pred n => let m := s.me.pred n.val; ⟨Vec.ofLanes fun l => if bit m l then 0xFFFFFFFF else 0, m⟩
  | .queue _ => ⟨Vec.zero, 0⟩
  | .mat _ => ⟨Vec.zero, 0⟩

/-- The bits of a predicate source. -/
def readPred (s : State) (o : Opnd) : W32 :=
  match o with
  | .pred n => s.me.pred n.val
  | _ => 0

/-- Whether an operand is the port `up`. -/
def isUp (o : Opnd) : Bool := o == .port .up

/-- Whether a row reads `up`. -/
def rowReadsUp (r : Row) : Bool := isUp r.sa || isUp r.sb || isUp r.sc

/-- What the first phase of a row's issue gives: the state with the accesses made, or a state in which the row has not
issued: a hold asked for, a fault taken, or an unwinding begun. -/
inductive Access (α : Type) where
  | ok (s : State) (a : α)
  | stop (s : State)

/-- The address that a fault record names for the poisoned bytes of a queue's entry (R351): the line a stream read them from, or else
their place in SRAM. -/
def QMeta.badAt (m : QMeta) (here : Nat) : Nat := if m.line = 0 then here else m.line

/-- Poisoned data consumed at ring g (R315): outside any region the context takes a containment fault `f`; inside one
the unwinding of R316 begins from cycle `at_` into the innermost region; a further event only counts. An entry that an abandoned `htake`
has claimed stays claimed for the context (log 118). -/
def consumePoisonAt (s : State) (g cls at_ : Nat) (f : FaultRec) : State :=
  let c := s.ctx g
  let stack := if cls = 1 ∨ cls = 3 then hbmStack f.addr.toNat else 15
  let s := s.rasEvent 1 f.addr.toNat 0 c.id g stack f.pstr f.col
  match c.regions.reverse with
  | [] => takeFault s g f
  | r :: _ =>
    let s := s.onCtx g fun c =>
      { c with regions := c.regions.map fun x => if x.id = r.id then { x with nev := min 255 (x.nev + 1) } else x }
    if c.unwinding.isSome then s
    else s.onCtx g fun c => { c with unwinding := some ⟨r.id, cls, at_, s.copyNext⟩, wait := none }

/-- Poisoned data consumed by a row, a unit or a step in the cycle under way. -/
def consumePoison (s : State) (g cls : Nat) (f : FaultRec) : State := consumePoisonAt s g cls (s.ctx g).tc f

/-- Poison consumed by the row now issuing. -/
def consumeAtRow (s : State) (cls addr : Nat) : State :=
  consumePoison s s.focus.ring cls (rowFault s 7 cls 0 (BitVec.ofNat 64 addr))

/-- The `up` word of the row now issuing taken from queue q of a block (R72, R228): reserved, read in this cycle and
popped. A queue that was never configured is empty. -/
def takeWord (s : State) (blk q : Nat) : Access (Vec × QMeta) :=
  let g := s.focus.ring
  let r := s.ring g
  match r.queue q with
  | none => .stop (askHold s g (r.popCause blk q))
  | some c =>
    let st := r.qstate blk q
    match st.entry (st.upPos s.focus) with
    | none => .stop (askHold s g (r.popCause blk q))
    | some m =>
      if r.ctx.rcyc < m.vis then .stop (askHold s g (r.popCause blk q))
      else
        let w := c.word (st.upPos s.focus)
        let r := r.useBank blk w false
        if m.poison ≠ 0 then .stop (consumeAtRow (s.setRing g r) m.poison (m.badAt (blk * Config.blockBytes + 128 * w)))
        else if r.spadPoisoned blk (128 * w) 128 false then
          .stop (consumeAtRow (s.setRing g r) 2 (blk * Config.blockBytes + 128 * w))
        else
          .ok (s.setRing g (r.setQ blk q (st.takeUp s.focus))) (m.payload (r.wordAt blk w false), m)

/-- The queue bound to `up` or `dn` in the slot now issuing. -/
def boundQueue (s : State) (down : Bool) : Option Nat := if down then swDn s.switchNow else swUp s.switchNow

/-- Whether a queue is configured as a tile queue. -/
def isTileQueue (s : State) (q : Nat) : Bool := match (s.ring s.focus.ring).queue q with
  | some c => c.tile
  | none => false

/-- A schedule fault of the row now issuing (R98). -/
def scheduleFault (s : State) (code : Nat) : State := takeFault s s.focus.ring (rowFault s 1 code 0 0)

/-- The pop of `up` (R72), once for the row; its sideband becomes the element's `sb`. A row that does not name `up`
reads nothing. A queue bound as a tile queue raises a schedule fault. -/
def popUp (r : Row) (s : State) : Access Vec :=
  if !rowReadsUp r then .ok s Vec.zero
  else
    match boundQueue s false with
    | none => .stop (scheduleFault s 7)
    | some q =>
      if isTileQueue s q then .stop (scheduleFault s 7)
      else
        match takeWord s (s.block false) q with
        | .stop s => .stop s
        | .ok s (v, m) =>
          .ok (s.onMe fun e => { e with sb := BitVec.ofBool m.lr ++ BitVec.ofBool m.ls }) v

/-- A `dn` destination bound to a tile queue raises a schedule fault at the row (R72). -/
def checkDn (r : Row) (s : State) : Access Unit :=
  if r.dst = .port .dn then
    match boundQueue s true with
    | none => .stop (scheduleFault s 7)
    | some q => if isTileQueue s q then .stop (scheduleFault s 7) else .ok s ()
  else .ok s ()

/-- A row's result: the vector before the guard, predicate bits, and flags of guarded lanes. -/
structure RowResult where
  val : Vec
  pbits : W32
  flags : W32
  deriving DecidableEq, Repr

/-- A result with no predicate and no flags. -/
def RowResult.ofVec (v : Vec) : RowResult := ⟨v, 0, 0⟩

/-- The vector a destination receives under R100: every lane, with zero in false lanes when Z. -/
def guardedVec (guard : W32) (z : Bool) (v : Vec) : Vec :=
  if z then Vec.ofLanes fun l => if bit guard l then v.lane l else 0 else v

/-- A vector with zero in false lanes (R72, R230). -/
def zeroFalse (guard : W32) (v : Vec) : Vec := Vec.ofLanes fun l => if bit guard l then v.lane l else 0

/-- Results of the row now issuing appended to the element's list. -/
def addPend (s : State) (ps : List Pend) : State :=
  s.onMe fun e => { e with pend := e.pend ++ ps.map fun p => { p with issued := s.now } }

/-- A result with nothing but a due time. -/
def Pend.empty (due : Nat) : Pend :=
  { issued := 0, due := due, dst := .none, val := Vec.zero, mask := 0, tag := 0, pred := none, flags := 0 }

/-- The pending results of a row issued now with latency `lat` (R183): its destination under R100 and R72, its
predicate output (R189) and its flags. `e` is seen by the eastern column from the cycle after it completes (R69, R21);
`po` by the downstream stripe two cycles after (R70). A lane word carries the sideband that a `dn` push would (log 66). -/
def rowPends (s : State) (r : Row) (lat : Nat) (res : RowResult) : List Pend :=
  let guard := guardMask s.me r.guard
  let t := s.now + lat
  let v := guardedVec guard r.z res.val
  let base : Pend :=
    { Pend.empty t with pred := r.pro.map fun n => (n.val, res.pbits &&& guard), flags := res.flags }
  match r.dst with
  | .v n => [{ base with dst := .v (s.me.phys n.val), val := v, tag := guard }]
  | .x n => [{ base with dst := .x n.val, val := v, tag := guard }]
  | .pred n =>
    [{ base with
        dst := .none, pred := some (n.val, if r.z then res.pbits &&& guard else res.pbits) }]
  | .port .e => [base, { Pend.empty (t + 1) with dst := .e, val := v, tag := guard }]
  | .port (.po m) => [base, { Pend.empty (t + 2) with dst := .po m.val, val := v, tag := guard }]
  | .port .dn =>
    if guard = 0 then [base]
    else
      match boundQueue s true with
      | some q => [{ base with dst := .push true q (bit s.me.sb 1) (bit s.me.sb 0), val := zeroFalse guard v, mask := guard }]
      | none => [base]
  | .port (.tap m) =>
    match swTap s.switchNow m.val with
    | some (true, lane) => [{ base with dst := .lane lane (bit s.me.sb 1) (bit s.me.sb 0), val := v, tag := guard }]
    | _ => [base]
  | _ => [base]

/-- Latency of a row: its entry's, or at least 4 when it reads `up` (R184). -/
def rowLatency (lat : Nat) (r : Row) : Nat := if rowReadsUp r then max lat 4 else lat

/-- The shape of an instruction; anything that is no row has the shape of `nop`. -/
def shapeOf (i : Instr) : RowShape := i.shape?.getD ⟨0, 0, .untyped, .unused, .unused, .unused, .unused, 0, false, false, false, false, 1⟩

/-- A row with a destination: `up` popped, `dn` checked, the result computed on the operands as they stand at issue,
and its pending results recorded (R183, R185). `f` sees the state after the pop and the popped word. -/
def resultRow (i : Instr) (r : Row) (f : State → Vec → RowResult) (s : State) : Host.Outcome State Fault Refusal :=
  match i.check with
  | some e => .refused (.illFormed e.code)
  | none =>
    if isNoOp r.guard then .next s
    else
      match popUp r s with
      | .stop s' => .next s'
      | .ok s1 up =>
        match checkDn r s1 with
        | .stop s' => .next s'
        | .ok s2 () => .next (addPend s2 (rowPends s2 r (rowLatency (shapeOf i).lat r) (f s2 up)))

/-- A row without a destination that acts on the element when its guard is true in some lane (R188, R242). One that finds
`bad` then raises a schedule fault of that code and takes no effect (R251); otherwise `f` sees the state after an `up` pop and the popped
word. -/
def checkedRow (i : Instr) (r : Row) (bad : State → Option Nat) (f : State → Vec → State) (s : State) :
    Host.Outcome State Fault Refusal :=
  match i.check with
  | some e => .refused (.illFormed e.code)
  | none =>
    if isNoOp r.guard then .next s
    else
      match (if guardMask s.me r.guard = 0 then none else bad s) with
      | some code => .next (scheduleFault s code)
      | none =>
        match popUp r s with
        | .stop s' => .next s'
        | .ok s1 up => if guardMask s1.me r.guard = 0 then .next s1 else .next (f s1 up)

/-- Such a row that has no check of its own. -/
def effectRow (i : Instr) (r : Row) (f : State → Vec → State) (s : State) : Host.Outcome State Fault Refusal :=
  checkedRow i r (fun _ => none) f s

/-- Source A of the row in its own type. -/
def srcA (s : State) (up : Vec) (r : Row) (k : ImmKind) : Src := readSrc s up k r.sa
/-- Source B. -/
def srcB (s : State) (up : Vec) (r : Row) (k : ImmKind) : Src := readSrc s up k r.sb
/-- Source C. -/
def srcC (s : State) (up : Vec) (r : Row) (k : ImmKind) : Src := readSrc s up k r.sc
/-- The guard of the row now issuing. -/
def guardNow (s : State) (r : Row) : W32 := guardMask s.me r.guard

/-- A result computed on every sub-element of A. -/
def map1 (r : Row) (ka : ImmKind) (w : Nat) (f : Nat → Nat × W32) (s : State) (up : Vec) : RowResult :=
  let a := (srcA s up r ka).val
  let x := lanesFlags (guardNow s r) fun l => subMap w fun e => f (subElem w (a.lane l) e)
  ⟨x.1, 0, x.2⟩

/-- A result computed on every sub-element of A and B. -/
def map2 (r : Row) (ka kb : ImmKind) (w : Nat) (f : Nat → Nat → Nat × W32) (s : State) (up : Vec) : RowResult :=
  let a := (srcA s up r ka).val
  let b := (srcB s up r kb).val
  let x := lanesFlags (guardNow s r) fun l => subMap w fun e => f (subElem w (a.lane l) e) (subElem w (b.lane l) e)
  ⟨x.1, 0, x.2⟩

/-- A result computed on every sub-element of A, B and C. -/
def map3 (r : Row) (k : ImmKind) (w : Nat) (f : Nat → Nat → Nat → Nat × W32) (s : State) (up : Vec) : RowResult :=
  let a := (srcA s up r k).val
  let b := (srcB s up r k).val
  let c := (srcC s up r k).val
  let x := lanesFlags (guardNow s r) fun l => subMap w fun e =>
    f (subElem w (a.lane l) e) (subElem w (b.lane l) e) (subElem w (c.lane l) e)
  ⟨x.1, 0, x.2⟩

/-- A comparison: all ones or zero in each sub-element, and the relation of a 32-bit lane as its predicate bit
(R189, R200, R206). -/
def mapCmp (r : Row) (w : Nat) (f : Nat → Nat → Bool) (s : State) (up : Vec) : RowResult :=
  let x := map2 r (.ty r.ty) (.ty r.ty) w (fun a b => (if f a b then pow2 w - 1 else 0, 0)) s up
  ⟨x.val, (List.range 32).foldl (fun m l => setBit m l (bit (x.val.lane l) 0)) 0, 0⟩

/-- A result whose lane is a function of the lane number, without flags. -/
def perLane (f : State → Vec → Nat → W32) (s : State) (up : Vec) : RowResult := RowResult.ofVec (Vec.ofLanes (f s up))

/-- A lane of A read as 32-bit patterns with integer immediates. -/
def laneA (s : State) (up : Vec) (r : Row) (l : Nat) : W32 := (srcA s up r (.int 32)).val.lane l
/-- A lane of B. -/
def laneB (s : State) (up : Vec) (r : Row) (l : Nat) : W32 := (srcB s up r (.int 32)).val.lane l
/-- A lane of C. -/
def laneC (s : State) (up : Vec) (r : Row) (l : Nat) : W32 := (srcC s up r (.int 32)).val.lane l

end Sys2Proof.Machine
end

