-- ==== Sys2Proof/Machine/Tile.lean ====
section
/-!
DEFINITION. Tiles in tile queues: the ensign, its checks at a first read, and the values of a tile (spec/07 R124 and
R125, spec/03 R40, R44 and R46, spec/05 R81).
-/

namespace Sys2Proof.Machine

open Sys2Proof

/-- A number rounded up to a multiple of 32. -/
def pad32 (n : Nat) : Nat := ceilDiv n 32 * 32

/-- Whether an ensign's FMT is a wide type: bits [23:7] zero (R124). -/
def fmtIsWide (d : BitVec 24) : Bool := bits d 7 17 == 0

/-- Bytes of a payload of `n` values under an FMT (R44, R124). -/
def payloadBytes (d : BitVec 24) (n : Nat) : Nat :=
  if fmtIsWide d then (match bits d 0 7 with | 1 => 4 * n | 4 => 4 * n | _ => 2 * n)
  else if (fmtOfDesc d).width ≤ 4 then ceilDiv n 2 else n

/-- The scale bytes of a mode for a tile of a rows and b columns, or none for a reserved mode (R46). -/
def scaleCount (mode a b : Nat) : Option Nat :=
  match mode with
  | 0 => some 0
  | 1 => some a
  | 2 => some b
  | 3 => some (b * ceilDiv a 32)
  | 4 => some (a * ceilDiv b 32)
  | _ => none

/-- The place among the scale bytes of the scale of value (i, j) (R46). -/
def scaleIndex (mode a b i j : Nat) : Option Nat :=
  match mode with
  | 1 => some i
  | 2 => some j
  | 3 => some (j * ceilDiv a 32 + i / 32)
  | 4 => some (i * ceilDiv b 32 + j / 32)
  | _ => none

/-- A tile entry of a queue: block, its first word, layout and ensign. -/
structure TileRef where
  blk : Nat
  word : Nat
  swz : Bool
  ensign : Ensign
  deriving DecidableEq, Repr

/-- The tile entry at a position of queue q of a block. -/
def Ring.tileAt (r : Ring) (blk : Nat) (c : QCfg) (pos : Nat) (m : QMeta) : TileRef :=
  let w := c.word pos
  ⟨blk, w, m.swz, BitVec.ofNat 256 (leNat (r.spadRead blk (128 * w) m.swz 32))⟩

/-- Offset of the payload in its entry (R81). -/
def TileRef.payloadAt (t : TileRef) : Nat := 32 + pad32 (enScalen t.ensign)

/-- Values in a tile. -/
def TileRef.count (t : TileRef) : Nat := enNrows t.ensign * enNcols t.ensign

/-- Payload bytes without padding. -/
def TileRef.payloadLen (t : TileRef) : Nat := payloadBytes (enFmt t.ensign) t.count

/-- A byte of a tile entry by its offset. -/
def Ring.tileByte (r : Ring) (t : TileRef) (o : Nat) : Byte := r.spadByte t.blk (128 * t.word + o) t.swz

/-- The code of value (i, j) of a tile as stored (R44, R124). -/
def Ring.tileCode (r : Ring) (t : TileRef) (i j : Nat) : Nat :=
  let e := t.ensign
  let ix := if enLayout e = 1 then j * enNrows e + i else i * enNcols e + j
  let d := enFmt e
  if fmtIsWide d then
    let w := match bits d 0 7 with | 1 => 4 | 4 => 4 | _ => 2
    leNat (r.spadRead t.blk (128 * t.word + t.payloadAt + w * ix) t.swz w)
  else if (fmtOfDesc d).width ≤ 4 then
    ((r.tileByte t (t.payloadAt + ix / 2)).toNat >>> (4 * (ix % 2))) % pow2 (fmtOfDesc d).width
  else (r.tileByte t (t.payloadAt + ix)).toNat % pow2 (fmtOfDesc d).width

/-- The number format of an ensign's FMT; `i32` is never decoded as one. -/
def fmtOfEnsign (d : BitVec 24) : Fmt :=
  if fmtIsWide d then (match bits d 0 7 with | 2 => Fmt.bf16 | 3 => Fmt.f16 | _ => Fmt.f32) else fmtOfDesc d

/-- The scale byte of value (i, j): 127 without a scale (R45, R46). -/
def Ring.tileScale (r : Ring) (t : TileRef) (i j : Nat) : Nat :=
  match scaleIndex (enSmode t.ensign) (enNrows t.ensign) (enNcols t.ensign) i j with
  | some k => (r.tileByte t (32 + k)).toNat
  | none => 127

/-- The check of a tile at its first read (R125, R40, R46, R81): none, or the CODE of the schedule fault (R351). -/
def Ring.tileCheck (r : Ring) (t : TileRef) (ent : Nat) : Option Nat :=
  let e := t.ensign
  let d := enFmt e
  if !fmtIsWide d && !descValid d then some 11
  else if 2 < enLayout e ∨ bits e 160 96 ≠ 0 ∨ bits e 113 15 ≠ 0 then some 6
  else if fmtIsWide d && (bits d 0 7 == 0 || decide (4 < bits d 0 7)) then some 6
  else if scaleCount (enSmode e) (enNrows e) (enNcols e) ≠ some (enScalen e) then some 6
  else if 128 * ent < t.payloadAt + pad32 t.payloadLen then some 6
  else if enCrcp e && crc32c (r.spadRead t.blk (128 * t.word + t.payloadAt) t.swz t.payloadLen) != enCrc e then some 6
  else none

/-- Words of an entry that hold bytes lo to lo + n - 1, recorded as bank accesses (R223). -/
def Ring.useTile (r : Ring) (t : TileRef) (lo n : Nat) : Ring :=
  if n = 0 then r else r.useBanks t.blk (t.word + lo / 128) t.swz ((lo + n - 1) / 128 - lo / 128 + 1)

/-- Whether a bank word that holds bytes lo to lo + n - 1 of an entry holds an uncorrectable error (R315, R354). -/
def Ring.tilePoisoned (r : Ring) (t : TileRef) (lo n : Nat) : Bool :=
  n != 0 && r.spadPoisoned t.blk (128 * (t.word + lo / 128)) (128 * ((lo + n - 1) / 128 - lo / 128 + 1)) t.swz

/-- Whether what the checks of a first read take of a tile holds such an error: the ensign and the scales, and the payload under a CRC. -/
def Ring.firstPoisoned (r : Ring) (t : TileRef) : Bool :=
  r.tilePoisoned t 0 t.payloadAt || (enCrcp t.ensign && r.tilePoisoned t 0 (t.payloadAt + t.payloadLen))

/-- A schedule fault of a tile at the row now issuing, with the tile's PRODCTX (R125). -/
def tileFault (s : State) (t : TileRef) (code : Nat) (info : BitVec 32) : State :=
  takeFault s s.focus.ring { rowFault s 1 code info 0 with prodctx := enProdctx t.ensign }

end Sys2Proof.Machine
end

