-- ==== Sys2Proof/Machine/MemRows.lean ====
section
/-!
DEFINITION. The MEM rows (spec/13 R222 to R233).
-/

namespace Sys2Proof.Machine

open Sys2Proof

/-- The word an access names (R222): lane 0 of A and the displacement, modulo the block. -/
def rowWord0 (s : State) (up : Vec) (r : Row) : Nat := (bits (laneA s up r 0) 7 14 + bits r.imm 0 14) % 16384
/-- BLK of an access (R222). -/
def rowBlk (r : Row) : Bool := bit r.imm 15
/-- LAY of an access (R222). -/
def rowSwz (r : Row) : Bool := bit r.imm 14

/-- `sld` (R225): the word as it stands before this cycle's stores, at c + 4; a poisoned chunk is consumed (R315). -/
def execSld (r : Row) (s : State) : Host.Outcome State Fault Refusal :=
  match (Instr.sld r).check with
  | some e => .refused (.illFormed e.code)
  | none =>
    if isNoOp r.guard then .next s
    else
      match popUp r s with
      | .stop s' => .next s'
      | .ok s1 up =>
        match checkDn r s1 with
        | .stop s' => .next s'
        | .ok s2 () =>
          let g := s2.focus.ring
          let n := rowWord0 s2 up r
          let blk := s2.block (rowBlk r)
          let s3 := s2.onRing g fun x => x.useBank blk n (rowSwz r)
          if (s3.ring g).spadPoisoned blk (128 * n) 128 (rowSwz r) then
            .next (consumeAtRow s3 2 (blk * Config.blockBytes + 128 * n))
          else
            .next (addPend s3 (rowPends s3 r (rowLatency 4 r) (RowResult.ofVec ((s3.ring g).wordAt blk n (rowSwz r)))))

/-- `sst` (R226): charged now, performed at the end of c + 1 in the lanes whose guard is true; later when the row reads `up`
(R184). -/
def execSst (r : Row) (s : State) : Host.Outcome State Fault Refusal :=
  effectRow (.sst r) r
    (fun s up =>
      let n := rowWord0 s up r
      let t := s.onRing s.focus.ring fun x => x.useBank (s.block (rowBlk r)) n (rowSwz r)
      addPend t [{ Pend.empty (s.now + rowLatency 2 r) with
        dst := .store (rowBlk r) n (rowSwz r), val := (srcB s up r (.int 32)).val, mask := guardNow s r }]) s

/-- `gadr` (R227): one address word with its lane mask takes its place in the buffer of gather stream N, which may use it from then, or
four cycles later when the row reads `up` (R184); a full buffer holds the ring, with cause 5 when the stream is stopped on a fault
(R266). A stream that is not open in MODE 1 is a schedule fault. -/
def execGadr (r : Row) (s : State) : Host.Outcome State Fault Refusal :=
  checkedRow (.gadr r) r (fun s => if ((s.ctx s.focus.ring).stream (bits r.imm 0 5)).gathers then none else some 12)
    (fun s up =>
      s.onRing s.focus.ring fun x => x.supply (bits r.imm 0 5) (srcA s up r (.int 32)).val (guardNow s r) (s.now + rowLatency 0 r)) s

/-- The queue and block a row's class 6 operand names (R102). -/
def rowQueue (s : State) (o : Opnd) : Nat × Nat :=
  match o with
  | .queue q => (s.block q.down, q.n.val)
  | _ => (s.block false, 0)

/-- The entry at the next unreserved position, read in this cycle (R229): from a word queue its word, from a tile queue
word W of the payload after the checks of its first read. The state carries the bank accesses and CHT. -/
def peekQueue (s : State) (blk q w : Nat) : Access Vec :=
  let g := s.focus.ring
  let r := s.ring g
  match r.queue q with
  | none => .stop (askHold s g (r.popCause blk q))
  | some c =>
    let st := r.qstate blk q
    match st.entry st.resv with
    | none => .stop (askHold s g (r.popCause blk q))
    | some m =>
      if r.ctx.rcyc < m.vis then .stop (askHold s g (r.popCause blk q))
      else if !c.tile then
        if w ≠ 0 then .stop (scheduleFault s 7)
        else
          let n := c.word st.resv
          let s := s.setRing g (r.useBank blk n false)
          if m.poison ≠ 0 then .stop (consumeAtRow s m.poison (m.badAt (blk * Config.blockBytes + 128 * n)))
          else if r.spadPoisoned blk (128 * n) 128 false then .stop (consumeAtRow s 2 (blk * Config.blockBytes + 128 * n))
          else .ok s (m.payload (r.wordAt blk n false))
      else
        let t := r.tileAt blk c st.resv m
        let n := min 128 (pad32 t.payloadLen - 128 * w)
        let read := s.setRing g ((r.useTile t 0 t.payloadAt).useTile t (t.payloadAt + 128 * w) n)
        if m.poison ≠ 0 then .stop (consumeAtRow read m.poison (m.badAt (blk * Config.blockBytes + 128 * t.word)))
        else if r.firstPoisoned t then .stop (consumeAtRow read 2 (blk * Config.blockBytes + 128 * t.word))
        else
        match r.tileCheck t c.ent with
        | some code => .stop (tileFault s t code 0)
        | none =>
          let s := read.onMe fun e => { e with cht := enChtag t.ensign }
          if r.tilePoisoned t (t.payloadAt + 128 * w) n then
            .stop (consumeAtRow s 2 (blk * Config.blockBytes + 128 * t.word))
          else
            .ok s (vecOfBytes ((List.range 128).map fun i =>
              if 128 * w + i < pad32 t.payloadLen then r.tileByte t (t.payloadAt + 128 * w + i) else 0))

/-- The next position of a queue reserved and popped by the row now issuing. -/
def popReserved (s : State) (blk q : Nat) : State :=
  s.onRing s.focus.ring fun r =>
    let st := r.qstate blk q
    r.setQ blk q ({ st with resv := st.resv + 1 }.pop st.resv)

/-- A queue read with a destination: `qpop` and `qpeek` (R229). -/
def queueRow (i : Instr) (r : Row) (pop : Bool) (s : State) : Host.Outcome State Fault Refusal :=
  match i.check with
  | some e => .refused (.illFormed e.code)
  | none =>
    if isNoOp r.guard then .next s
    else
      match checkDn r s with
      | .stop s' => .next s'
      | .ok s1 () =>
        let (blk, q) := rowQueue s1 r.sa
        match peekQueue s1 blk q (bits r.imm 0 11) with
        | .stop s' => .next s'
        | .ok s2 v =>
          let s3 := if pop then popReserved s2 blk q else s2
          .next (addPend s3 (rowPends s3 r 4 (RowResult.ofVec v)))

/-- `qpop` (R229): reserves one position, reads it now and pops it, whatever the guard. -/
def execQpop (r : Row) (s : State) : Host.Outcome State Fault Refusal := queueRow (.qpop r) r true s

/-- `qpeek` (R229): the next unreserved position, neither reserved nor popped. -/
def execQpeek (r : Row) (s : State) : Host.Outcome State Fault Refusal := queueRow (.qpeek r) r false s

/-- `qpush` (R230): one word, zero in false lanes, complete at c + 1; into a tile queue a schedule fault. -/
def execQpush (r : Row) (s : State) : Host.Outcome State Fault Refusal :=
  checkedRow (.qpush r) r
    (fun s =>
      match r.dst with
      | .queue q => if isTileQueue s q.n.val then some 7 else none
      | _ => none)
    (fun s up =>
      match r.dst with
      | .queue q =>
        addPend s [{ Pend.empty (s.now + (if rowReadsUp r then 4 else 1)) with
          dst := .push q.down q.n.val (bit r.imm 1) (bit r.imm 0),
          val := zeroFalse (guardNow s r) (srcA s up r (.int 32)).val, mask := guardNow s r }]
      | _ => s) s

/-- Bytes per value that `qtx` accepts, or none (R231). -/
def qtxSize (d : BitVec 24) : Option Nat :=
  if fmtIsWide d then (match bits d 0 7 with | 1 => some 4 | 4 => some 4 | 2 => some 2 | 3 => some 2 | _ => none)
  else if 5 ≤ (fmtOfDesc d).width then some 1 else none

/-- The last cycle before which a second `qtx` of the element faults (R232). -/
def QtxOp.busyTill (o : QtxOp) : Nat := o.start + 16 / o.esize + 4 + o.cols

/-- Read `k` of a `qtx` (R232): 16-byte chunk k / v of rows m + v i, i = 0 to 7. -/
def qtxRead (r : Ring) (t : TileRef) (e b k : Nat) : Ring × Vec :=
  let v := 16 / e
  let offs := (List.range 8).map fun i => t.payloadAt + (k % v + v * i) * (b * e) + 16 * (k / v)
  let r2 := offs.foldl (fun r o => r.useTile t o 16) r
  (r2, vecOfBytes (offs.flatMap fun o => (List.range 16).map fun x => r.tileByte t (o + x)))

/-- Whether a bank word that read `k` of a `qtx` takes is poisoned. -/
def qtxPoisoned (r : Ring) (t : TileRef) (e b k : Nat) : Bool :=
  let v := 16 / e
  (List.range 8).any fun i =>
    r.tilePoisoned t (t.payloadAt + (k % v + v * i) * (b * e) + 16 * (k / v)) 16

/-- `qtx` (R231 to R233): its checks and read 0 in this cycle; the transpose path does the rest. -/
def execQtx (r : Row) (s : State) : Host.Outcome State Fault Refusal :=
  effectRow (.qtx r) r
    (fun s _ =>
      let g := s.focus.ring
      let rg := s.ring g
      let (sblk, sq) := rowQueue s r.sa
      let (_, dq) := rowQueue s r.dst
      let busy := match s.me.qtx with
        | some o => decide (s.now < o.busyTill)
        | none => false
      if busy then scheduleFault s 4
      else
        match rg.queue sq, rg.queue dq with
        | some c, some dc =>
          if !c.tile then scheduleFault s 7
          else
            let st := rg.qstate sblk sq
            match st.entry st.resv with
            | none => askHold s g (rg.popCause sblk sq)
            | some m =>
              if rg.ctx.rcyc < m.vis then askHold s g (rg.popCause sblk sq)
              else
                let t := rg.tileAt sblk c st.resv m
                let e := t.ensign
                let a := enNrows e
                let b := enNcols e
                let lost (s : State) : State :=
                  let s := s.setRing g ((rg.useTile t 0 t.payloadAt).setQ sblk sq { st with resv := st.resv + 1 })
                  if m.poison ≠ 0 then consumeAtRow s m.poison (m.badAt (sblk * Config.blockBytes + 128 * t.word))
                  else consumeAtRow s 2 (sblk * Config.blockBytes + 128 * t.word)
                if m.poison ≠ 0 || rg.firstPoisoned t then lost s
                else
                match rg.tileCheck t c.ent, qtxSize (enFmt e) with
                | some code, _ => tileFault s t code 0
                | none, none => tileFault s t 6 0
                | none, some es =>
                  let v := 16 / es
                  let life := s.now - s.focus.col - s.focus.ent
                  let tail := ((rg.stripe s.focus.ps).record.elim 0 recTail)
                  if enLayout e = 1 ∨ a * es ≠ 128 ∨ b * es % 16 ≠ 0 then tileFault s t 6 0
                  else if dc.tile && decide (128 * dc.ent < t.payloadAt + 128 * b) then tileFault s t 6 0
                  else if tail < life + v + 4 + (b - 1) + 7 then tileFault s t 6 0
                  else
                    let (r2, w0) := qtxRead (rg.useTile t 0 t.payloadAt) t es b 0
                    let s := s.setRing g (r2.setQ sblk sq { st with resv := st.resv + 1 })
                    if qtxPoisoned rg t es b 0 then lost s
                    else
                      s.onMe fun x =>
                        { x with
                          cht := enChtag e,
                          qtx := some
                            { start := s.now, vs := ((rg.stripe s.focus.ps).occ.elim 0 (·.vs)), slot := s.focus.slot,
                              ent := s.focus.ent, srcDown := (match r.sa with
                              | .queue q => q.down | _ => false), src := sq,
                              pos := st.resv, dstDown := (match r.dst with | .queue q => q.down | _ => false), dst := dq,
                              dpos := none, olay := bit r.imm 0, rows := a, cols := b, esize := es, ensign := e,
                              scale := (List.range (pad32 (enScalen e))).map fun i => rg.tileByte t (32 + i),
                              words := [w0], pushed := 0 } }
        | _, _ => askHold s g 1) s

end Sys2Proof.Machine
end

