-- ==== Sys2Proof/Machine/Matrix.lean ====
section
/-!
DEFINITION. The matrix unit: sums of a K group (spec/03 R57 to R59), counting and draining (R60 to R65), the
self-check (R67), and what lands from it (spec/13 R238, R239, R246, R247).
-/

namespace Sys2Proof.Machine

open Sys2Proof

/-- A cell of `xa` in 96 bits of two's complement, saturated (R64), with XOV. -/
def xaClamp (t : Int) : Int × W32 :=
  let hi : Int := (pow2 95 : Int) - 1
  if hi < t then (hi, flagXOV) else if t < -(pow2 95 : Int) then (-(pow2 95 : Int), flagXOV) else (t, 0)

/-- Repetition group size (R235). -/
def groupSize (kind : Nat) : Nat := if kind ≤ 1 then 16 else if kind = 2 then 32 else 64

/-- A scaled operand value (R57). -/
def scaled (f : Fmt) (c : Nat × Nat) : Num := scaleNum (decodeCode f c.1) c.2

/-- A list of values with the flags of making it. -/
def withFlags {α : Type} (l : List (α × W32)) : List α × W32 := (l.map Prod.fst, l.foldl (fun a x => a ||| x.2) 0)

/-- The products of cell (i, j) of a group: A entries at `g i + k`, B entries at `16 k + j`. -/
def cellProducts (g : Nat) (a b : List Num) (i j : Nat) : List (Num × W32) :=
  (List.range g).map fun k => mulNum (a.getD (g * i + k) .nan) (b.getD (16 * k + j) .nan)

/-- The exact sum of a list of products (R57, R58). -/
def sumProducts (ps : List (Num × W32)) : Num × W32 :=
  let p := withFlags ps
  let x := sumNum .rne p.1
  (x.1, p.2 ||| x.2)

/-- All 256 cell sums of a group, row by row. -/
def groupSums (g : Nat) (a b : List Num) : List Num × W32 :=
  withFlags ((List.range 256).map fun c => sumProducts (cellProducts g a b (c / 16) (c % 16)))

/-- The checksum sums of a group (R59): per row, and per column. -/
def checkSums (g : Nat) (a b : List Num) : (List Num × W32) × (List Num × W32) :=
  (withFlags ((List.range 16).map fun i => sumProducts ((List.range 16).flatMap fun j => cellProducts g a b i j)),
    withFlags ((List.range 16).map fun j => sumProducts ((List.range 16).flatMap fun i => cellProducts g a b i j)))

/-- An `f32` cell plus an exact sum, rounded once (R57). -/
def accumulate (old : BitVec 32) (x : Num) : BitVec 32 × W32 :=
  let y := sumNum .rne [decodeCode Fmt.f32 old.toNat, x]
  let z := roundFmt Fmt.f32 y.1 .rne false
  (BitVec.ofNat 32 z.1, y.2 ||| z.2)

/-- Cells of a table accumulated with exact sums from `base`. -/
def accumulateAll (t : Table (BitVec 32)) (base : Nat) (zero : Bool) (xs : List Num) : Table (BitVec 32) × W32 :=
  let r := withFlags (xs.zipIdx.map fun p => accumulate (if zero then 0 else tget t (base + p.2) 0) p.1)
  (tsetList t base r.1, r.2)

/-- The ceiling of the base-2 logarithm of `n * 2^e`. -/
def clog2 (n : Nat) (e : Int) : Int := if n = pow2 (bitLen n - 1) then ilog2 n e else ilog2 n e + 1

/-- Whether a sum breaks the bound of R67: K, the formats, the two scales. -/
def susExceeds (x : Num) (k : Nat) (fa fb : Fmt) (ea eb : Nat) : Bool :=
  match x with
  | .fin _ n e _ =>
    let (na, xa) := fa.largest
    let (nb, xb) := fb.largest
    decide (n ≠ 0) && decide (ea ≠ 255) && decide (eb ≠ 255) &&
      decide ((ea : Int) - 127 + ((eb : Int) - 127) + clog2 (k * na * nb) (xa + xb) < ilog2 n e)
  | _ => false

/-- The magnitude of a four-bit code (R60). -/
def magOf (d : BitVec 24) (m : Nat) : Nat × Int := (fmtOfDesc d).magnitude m

/-- Whether a four-bit code is Inf or NaN under its descriptor (R60). -/
def codeSpecial (d : BitVec 24) (c : Nat) : Bool :=
  match decodeCode (fmtOfDesc d) (c % 8) with
  | .fin _ _ _ _ => false
  | _ => true

/-- The class of two nonzero magnitude codes (R61). -/
def classOf (p q : Nat) : Nat := let lo := min p q; let hi := max p q; hi * (hi - 1) / 2 + lo - 1

/-- The magnitude codes of a class (R61). -/
def classCodes (c : Nat) : Nat × Nat :=
  ((List.range 8).flatMap fun q => (List.range 8).filterMap fun p =>
    if 1 ≤ p ∧ p ≤ q ∧ classOf p q = c then some (p, q) else none).getD 0 (0, 0)

/-- A list with an integer added at a place. -/
def addAt (l : List Int) (i : Nat) (d : Int) : List Int := l.set i (l.getD i 0 + d)

/-- The 28 counters of a cell over pairs of codes (R61). -/
def countPairs (ps : List (Nat × Nat)) : List Int :=
  ps.foldl (fun cs p =>
    let a := p.1 % 8
    let b := p.2 % 8
    if a = 0 ∨ b = 0 then cs else addAt cs (classOf a b) (if p.1 / 8 = p.2 / 8 then 1 else -1)) (List.replicate 28 0)

/-- The value of a cell's counters in units of `2^u` (R64). -/
def countsValue (d : BitVec 24) (cs : List Int) : Int × Int :=
  let u := 2 * (List.range 8).foldl (fun (m : Int) c => min m (magOf d c).2) 4096
  let v := cs.zipIdx.foldl (fun (t : Int) p =>
    let (a, b) := classCodes p.2
    if codeSpecial d a || codeSpecial d b then t
    else
      let (na, xa) := magOf d a
      let (nb, xb) := magOf d b
      t + p.1 * ((na * nb * pow2 (xa + xb - u).toNat : Nat) : Int)) 0
  (v, u)

/-- An integer times `2^k`, floored, and whether bits were lost. -/
def shiftFloor (v k : Int) : Int × Bool :=
  if 0 ≤ k then (v * (pow2 k.toNat : Int), false)
  else (v >>> (-k).toNat, v % (pow2 (-k).toNat : Int) != 0)

/-- One cell drained (R64): the new `xa`, and INX and XOV. -/
def drainCell (d : BitVec 24) (cs : List Int) (pair : Nat × Nat) (l old : Int) : Int × W32 :=
  let (v, u) := countsValue d cs
  let (q, lost) := shiftFloor v (u + pair.1 + pair.2 - 254 - l)
  let (t, x) := xaClamp (old + q)
  (t, x ||| (if lost then flagINX else 0))

/-- The counters of a cell of a bank. -/
def Element.cellCounts (e : Element) (b cell : Nat) : List Int := (List.range 28).map fun c => e.cbAt b cell c

/-- The cells in which a drain breaks the bound of R67: depth as K, for counts under a scale mode other than none. -/
def drainSus (e : Element) (b : Nat) : List Nat :=
  let d := e.cfmtOf b
  let f := fmtOfDesc d
  if e.depthOf b = 0 ∨ !tget e.cscaled b false then []
  else
    (List.range 256).filter fun cell =>
      let p := e.pairOf b cell
      let (v, u) := countsValue d (e.cellCounts b cell)
      susExceeds (.fin (v < 0) v.natAbs (u + p.1 + p.2 - 254) false) (e.depthOf b) f f p.1 p.2

/-- A bank drained into `xa` (R64): the bank is left empty; an empty bank changes nothing. -/
def Element.drain (e : Element) (b : Nat) : Element :=
  if e.depthOf b = 0 then e.clearCb b
  else
    let r := withFlags ((List.range 256).map fun cell =>
      drainCell (e.cfmtOf b) (e.cellCounts b cell) (e.pairOf b cell) e.lexp (e.xaAt cell))
    let sus : W32 := if (drainSus e b).isEmpty then 0 else flagSUS
    { e.clearCb b with
      xa := tsetList e.xa 0 r.1, flagsNew := e.flagsNew ||| r.2 ||| sus }

/-- Counts added into a bank (R239, R246): an empty bank takes the pairs and the descriptor. Counts of another descriptor
leave the one of the drain open (log 64). -/
def Element.addCounts (e : Element) (b depth : Nat) (fmt : BitVec 24) (scaled : Bool) (cells : List CellCounts) : Element :=
  let fresh := e.depthOf b == 0
  let cs := cells.zipIdx.flatMap fun p => p.1.1.zipIdx.map fun q => q.1 + e.cbAt b p.2 q.2
  { e with
    cb := tsetList e.cb (256 * b * 28) cs, depth := tset e.depth b (e.depthOf b + depth),
    pairs := if fresh then tsetList e.pairs (256 * b) (cells.map fun p => p.2) else e.pairs,
    cfmt := if fresh then tset e.cfmt b fmt else if e.cfmtOf b = fmt then e.cfmt else tset e.cfmt b (Config.mixedFmt (e.cfmtOf b) fmt),
    cscaled := if scaled then tset e.cscaled b true else e.cscaled }

/-- The 256 cell counts of a bank with their pairs. -/
def bankCells (e : Element) (b : Nat) : List CellCounts :=
  (List.range 256).map fun c => (e.cellCounts b c, e.pairOf b c)

/-- What a counter bank holds. -/
def Element.bankCounts (e : Element) (b : Nat) : BankCounts := ⟨e.depthOf b, e.cfmtOf b, tget e.cscaled b false, bankCells e b⟩

/-- Counts put into a bank. -/
def Element.putCounts (e : Element) (b : Nat) (x : BankCounts) : Element :=
  if x.depth = 0 then e else e.addCounts b x.depth x.fmt x.scaled x.cells

/-- A bank as it stood before FLG[45] cleared it, with what has landed in it since (R251). -/
def Element.unclear (e : Element) (x : Nat × BankCounts) : Element :=
  let now := e.bankCounts x.1
  ((e.clearCb x.1).putCounts x.1 x.2).putCounts x.1 now

/-- What a faulting repetition of a tile step did in its first cycle taken back (R251): CHT, unless another row has set it since, and the
banks that it cleared. -/
def Element.takeBack (e : Element) (u : TileUndo) : Element :=
  let e := match u.cht with
    | some (old, new) => if e.cht = new then { e with cht := old } else e
    | none => e
  u.banks.foldl Element.unclear e

/-- The image of `xa` as bytes (R247). -/
def Element.xaBytes (e : Element) : List Byte :=
  (List.range 256).flatMap fun c => leBytes 12 ((e.xaAt c % (pow2 96 : Int)).toNat)

/-- The cells of an image (R247). -/
def xaOfBytes (bs : List Byte) : List Int := (List.range 256).map fun c => toSigned 96 (leNat ((bs.drop (12 * c)).take 12))

/-- What lands from the matrix unit. -/
def Element.landTile (e : Element) (x : TileLand) : Element :=
  match x with
  | .update b zero ck sums rows cols fl =>
    let r := accumulateAll e.acc (256 * b) zero sums
    let e := { e with acc := r.1, flagsNew := e.flagsNew ||| fl ||| r.2 }
    if ck then
      let p := accumulateAll e.ckr (16 * b) zero rows
      let q := accumulateAll e.ckc (16 * b) zero cols
      { e with ckr := p.1, ckc := q.1, flagsNew := e.flagsNew ||| p.2 ||| q.2 }
    else if zero then { e with ckr := tdelRange e.ckr (16 * b) 16, ckc := tdelRange e.ckc (16 * b) 16 }
    else e
  | .counts b depth fmt scaled cells => e.addCounts b depth fmt scaled cells
  | .drain b => e.drain b
  | .xload merge bytes =>
    if merge then
      let r := withFlags ((xaOfBytes bytes).zipIdx.map fun p => xaClamp (e.xaAt p.2 + p.1))
      { e with xa := tsetList e.xa 0 r.1, flagsNew := e.flagsNew ||| r.2 }
    else { e with xa := tsetList e.xa 0 (xaOfBytes bytes) }

/-- Failed self-checks of a bank of an element counted, and one RAS event owed for them when `post` (R362, log 65). -/
def Ring.noteSus (r : Ring) (ps k bank : Nat) (post : Bool) (cells : List Nat) : Ring :=
  match cells with
  | [] => r
  | c :: _ =>
    { r with
      suscnt := BitVec.ofNat 32 (satAdd 32 r.suscnt.toNat cells.length),
      susNew := if post then r.susNew ++ [(ps, k, c + 256 * bank)] else r.susNew }

/-- Whether what was issued at a TC has an issuer that has been saved since (R51). -/
def Ring.issuerSaved (r : Ring) (issued : Nat) : Bool := r.ctx.savedAt.any fun t => decide (issued ≤ t)

/-- Something that lands in an element, its flags for the context's flag word when its issuer has been saved (R51). -/
def Ring.landSaved (r : Ring) (ps k : Nat) (late : Bool) (f : Ring → Ring) : Ring :=
  if !late then f r
  else
    let old := (r.elem ps k).flagsNew
    let r := f (r.onElem ps k fun e => { e with flagsNew := 0 })
    let w := (r.elem ps k).flagsNew
    { r with ctx := { r.ctx with flagwNew := r.ctx.flagwNew ||| w } }.onElem ps k fun e => { e with flagsNew := old }

/-- A result of the matrix unit under way, of a row issued at TC `issued`. -/
def Ring.addLand (r : Ring) (ps k issued : Nat) (x : Nat × TileLand) : Ring :=
  r.onElem ps k fun e =>
    if r.issuerSaved issued then { e with lateLands := e.lateLands ++ [x] } else { e with lands := e.lands ++ [x] }

/-- One result of the matrix unit lands, a drain checked (R67). -/
def Ring.landTile (ps k : Nat) (r : Ring) (x : Nat × TileLand) : Ring :=
  let r := match x.2 with
    | .drain b => r.noteSus ps k b true (drainSus (r.elem ps k) b)
    | _ => r
  r.onElem ps k fun e => e.landTile x.2

/-- Everything of an element due by TC `tc`, in order of its time: first what has a saved issuer. -/
def Ring.landTiles (r : Ring) (ps k tc : Nat) : Ring :=
  let old := (r.elem ps k).lateLands.filter fun x => x.1 ≤ tc
  let due := (r.elem ps k).lands.filter fun x => x.1 ≤ tc
  let r := r.onElem ps k fun e =>
    { e with lands := e.lands.filter fun x => tc < x.1, lateLands := e.lateLands.filter fun x => tc < x.1 }
  due.foldl (Ring.landTile ps k) (r.landSaved ps k (!old.isEmpty) fun r => old.foldl (Ring.landTile ps k) r)

/-! ### The matrix sequencer, cycle by cycle -/

/-- The outcome of an element's part of a cycle: changed ring, a hold, or a fault at that column. -/
inductive Part1 where
  | ok (r : Ring)
  | hold (cause : Nat)
  | fault (r : Ring) (f : FaultRec)
  | poison (r : Ring) (cls addr : Nat)

/-- Whether an ensign suits a tile step (R235, R237): stored shape, K, format and scale mode. -/
def tileFits (kind : Nat) (isA trans : Bool) (e : Ensign) : Bool :=
  let rows := enNrows e
  let cols := enNcols e
  let side := if isA != trans then rows else cols
  let kt := if isA != trans then cols else rows
  let d := enFmt e
  let mode := if trans then (match enSmode e with | 1 => 2 | 2 => 1 | 3 => 4 | 4 => 3 | m => m) else enSmode e
  let okFmt :=
    match kind with
    | 0 => fmtIsWide d && bits d 0 7 == 2
    | 1 => fmtIsWide d && bits d 0 7 == 3
    | 2 => !fmtIsWide d && decide (5 ≤ (fmtOfDesc d).width)
    | _ => true
  let okMode :=
    if kind ≤ 2 then (if isA then mode == 0 || mode == 1 || mode == 4 else mode == 0 || mode == 2 || mode == 3)
    else if kind = 3 then (if isA then mode == 0 || mode == 4 else mode == 0 || mode == 3)
    else if isA then mode == 0 || mode == 1 else mode == 0 || mode == 2
  side == 16 && decide (kt % groupSize kind = 0) && decide (0 < kt) && okFmt && okMode

/-- Whether a descriptor is a four-bit signed form (R60). -/
def countingDesc (d : BitVec 24) : Bool := !fmtIsWide d && descValid d && (fmtOfDesc d).s && (fmtOfDesc d).width == 4

/-- A schedule fault at a tile step's row (R98). -/
def tileRowFault (r : Ring) (g ps col : Nat) (o : TileOp) (code : Nat) (info : BitVec 32) (prod : BitVec 16) : FaultRec :=
  { addr := 0, tc := r.ctx.tc, info := info, ctx := r.ctx.id, code := code, asid := r.ctx.asid, ring := g, region := 0,
    gen := 0, cls := 1, locStripe := true, si := 0, vs := o.vs, slot := o.slot, col := col, ent := o.ent,
    prodctx := prod, issuer := 0, pstr := ps }

/-- The operand's current position. -/
def TileOperand.pos (o : TileOperand) : Nat := o.first + o.cur

/-- The tile reference of an operand's current entry, once visible. -/
def operandTile (r : Ring) (ps : Nat) (o : TileOperand) : Option (QCfg × TileRef × QMeta) :=
  match r.queue o.q with
  | none => none
  | some c =>
    let blk := r.blockOf ps o.down
    let st := r.qstate blk o.q
    match st.entry o.pos with
    | some m => if m.vis ≤ r.ctx.rcyc then some (c, r.tileAt blk c o.pos m, m) else none
    | none => none

/-- The codes and scales of one operand's group: A in rows of g, B in rows of 16 (R235, R236). -/
def groupCodes (r : Ring) (t : TileRef) (isA trans : Bool) (g grp : Nat) : List (Nat × Nat) :=
  (List.range (16 * g)).map fun x =>
    let i := if isA then x / g else g * grp + x / 16
    let j := if isA then g * grp + x % g else x % 16
    let (p, q) := if trans then (j, i) else (i, j)
    (r.tileCode t p q, r.tileScale t p q)

/-- The payload byte of a stored value (R44). -/
def codeOffset (t : TileRef) (i j : Nat) : Nat :=
  let e := t.ensign
  let ix := if enLayout e = 1 then j * enNrows e + i else i * enNcols e + j
  let d := enFmt e
  t.payloadAt + (if fmtIsWide d then (match bits d 0 7 with | 1 => 4 * ix | 4 => 4 * ix | _ => 2 * ix)
    else if (fmtOfDesc d).width ≤ 4 then ix / 2 else ix)

/-- The bank words that hold a byte of an operand's group, recorded as accesses (R236). -/
def useGroup (r : Ring) (t : TileRef) (isA trans : Bool) (g grp : Nat) : Ring :=
  (List.range (16 * g)).foldl (fun r x =>
    let i := if isA then x / g else g * grp + x / 16
    let j := if isA then g * grp + x % g else x % 16
    let (p, q) := if trans then (j, i) else (i, j)
    r.useTile t (codeOffset t p q) 1) r

/-- Whether a bank word that holds a byte of an operand's group holds an uncorrectable error (R315, R354). -/
def groupPoisoned (r : Ring) (t : TileRef) (isA trans : Bool) (g grp : Nat) : Bool :=
  !r.spoison.isEmpty && (List.range (16 * g)).any fun x =>
    let i := if isA then x / g else g * grp + x / 16
    let j := if isA then g * grp + x % g else x % 16
    let (p, q) := if trans then (j, i) else (i, j)
    r.tilePoisoned t (codeOffset t p q) 1

/-- The read of one operand in its cycle (R236): the group, with the checks of a first read. A word queue is refused before an entry of it
is seen (log 120). -/
def readOperand (r : Ring) (g ps col : Nat) (o : TileOp) (isA : Bool) : Part1 :=
  let x := if isA then o.a else o.b
  let late := r.popCause (r.blockOf ps x.down) x.q
  match r.queue x.q with
  | none => .hold late
  | some c0 =>
    if !c0.tile then .fault r (tileRowFault r g ps col o 7 0 0)
    else
      match operandTile r ps x with
      | none => .hold late
      | some (c, t, m) =>
        let e := t.ensign
        let here := t.blk * Config.blockBytes + 128 * t.word
        let want := x.pen + BitVec.ofNat 16 x.cur
        let bad (code : Nat) (info : BitVec 32) : Part1 := .fault r (tileRowFault r g ps col o code info (enProdctx e))
        let check : Option (Nat × BitVec 32) :=
          if x.read then none
          else if enPennant e ≠ want then some (1, want ++ enPennant e)
          else if o.kind < 3 then
            match r.tileCheck t c.ent with
            | some code => some (code, 0)
            | none => if tileFits o.kind isA x.trans e then none else some (6, 0)
          else if !fmtIsWide (enFmt e) && !descValid (enFmt e) then some (11, 0)
          else if !countingDesc (enFmt e) ∨ (if isA then o.b.read && enFmt e != o.bfmt else enFmt e != o.afmt) then some (3, 0)
          else
            match r.tileCheck t c.ent with
            | some code => some (code, 0)
            | none => if tileFits o.kind isA x.trans e then none else some (6, 0)
        if m.poison ≠ 0 then .poison r m.poison (m.badAt here)
        else if !x.read && r.firstPoisoned t then .poison r 2 here
        else
        match check with
        | some (code, info) => bad code info
        | none =>
          let gs := groupSize o.kind
          let kt := if isA != x.trans then enNcols e else enNrows e
          let grp := x.used % max (kt / gs) 1
          let codes := groupCodes r t isA x.trans gs grp
          let lost := groupPoisoned r t isA x.trans gs grp
          let r := if x.read then r else r.useTile t 0 t.payloadAt
          let r := useGroup r t isA x.trans gs grp
          if lost then .poison r 2 here
          else
            let x' := { x with read := true }
            let scl := enSmode e != 0
            let undo : TileUndo := ⟨if x.read then none else some ((r.elem ps col).cht, enChtag e), []⟩
            let o' := if isA then { o with a := x', abuf := codes, afmt := enFmt e, scaled := (scl, o.scaled.2), undo := undo }
              else { o with b := x', bbuf := codes, bfmt := enFmt e, scaled := (o.scaled.1, scl) }
            .ok (r.onElem ps col fun el => { el with tile := some o', cht := if x.read then el.cht else enChtag e })

/-- The tile of an operand whose repetitions are over is popped (R235). -/
def popOperand (r : Ring) (ps : Nat) (x : TileOperand) (last : Bool) : Ring × TileOperand :=
  let used := x.used + 1
  if last || (x.pop != 0 && used == x.pop) then
    let blk := r.blockOf ps x.down
    (r.setQ blk x.q ((r.qstate blk x.q).pop x.pos), { x with cur := x.cur + 1, used := 0, read := false })
  else (r, { x with used := used })

/-- A formed repetition of `mma` (R238): its sums land 15 cycles after the B read. -/
def formUpdate (r : Ring) (ps col : Nat) (o : TileOp) (rho : Nat) : Ring :=
  let g := groupSize o.kind
  let fa := fmtOfEnsign o.afmt
  let fb := fmtOfEnsign o.bfmt
  let a := o.abuf.map (scaled fa)
  let b := o.bbuf.map (scaled fb)
  let s := groupSums g a b
  let cs := checkSums g a b
  let bad := if o.scaled.1 || o.scaled.2 then
      (List.range 256).filter fun c =>
        susExceeds (s.1.getD c .nan) g fa fb (o.abuf.getD (g * (c / 16)) (0, 127)).2 (o.bbuf.getD (c % 16) (0, 127)).2
    else []
  let sus := !bad.isEmpty
  let land : TileLand := .update o.acb (o.zero && rho == 0) o.ck s.1 (if o.ck then cs.1.1 else []) (if o.ck then cs.2.1 else [])
    (s.2 ||| (if o.ck then cs.1.2 ||| cs.2.2 else 0) ||| (if sus then flagSUS else 0))
  ((r.noteSus ps col o.acb (!o.sus) bad).addLand ps col o.issued (o.start + 4 * rho + 16, land)).onElem ps col fun e =>
    { e with tile := some { o with sus := o.sus || sus } }

/-- The bank of a counting window (R239). -/
def windowBank (o : TileOp) (win : Nat) : Nat := (o.bank + win) % 2

/-- Whether a counter bank's drain has not completed (R239). -/
def Element.draining (e : Element) (bank : Nat) : Bool := (e.lands ++ e.lateLands).any fun x => x.2 == .drain bank

/-- PRODCTX of the tile of an operand that a tile step counts (R124, R350). -/
def TileOperand.producer (r : Ring) (ps : Nat) (o : TileOperand) : BitVec 16 :=
  (operandTile r ps o).elim 0 fun x => enProdctx x.2.1.ensign

/-- The first cycle of a counting window (R239): a drain overlap while its bank's drain has not completed. FLG[45] clears both banks
before window 0; one that is still being drained keeps its counts for the drain, which leaves it empty. -/
def openCount (r : Ring) (g ps col : Nat) (o : TileOp) (win : Nat) : Part1 :=
  if (r.elem ps col).draining (windowBank o win) then .fault r (tileRowFault r g ps col o 4 0 (o.a.producer r ps))
  else if win = 0 ∧ o.zero then
    let e := r.elem ps col
    let bs := [0, 1].filter fun b => !e.draining b
    .ok (r.onElem ps col fun e =>
      { bs.foldl Element.clearCb e with
        tile := e.tile.map fun t => { t with undo := { t.undo with banks := bs.map fun b => (b, e.bankCounts b) } } })
  else .ok r

/-- The second cycle of a counting window (R239): its checks, then its counts land at the end of the cycle; under `mmc` its
drain lands two cycles later. A fault names the tile whose code or scale it is, that of A when both are (R350). -/
def formWindow (r : Ring) (g ps col : Nat) (o : TileOp) (win : Nat) : Part1 :=
  let e := r.elem ps col
  let bank := windowBank o win
  let half := 32 * (win % 2)
  let codesA := fun i => (List.range 32).map fun k => o.abuf.getD (64 * i + half + k) (0, 127)
  let codesB := fun j => (List.range 32).map fun k => o.bbuf.getD (16 * (half + k) + j) (0, 127)
  let special := (List.range 16).any fun i => (codesA i).any fun c => codeSpecial o.afmt c.1
  let specialB := (List.range 16).any fun j => (codesB j).any fun c => codeSpecial o.afmt c.1
  let pair (cell : Nat) : Nat × Nat :=
    (((codesA (cell / 16)).getD 0 (0, 127)).2, ((codesB (cell % 16)).getD 0 (0, 127)).2)
  let scale255 := (List.range 256).any fun c => (pair c).1 == 255
  let scale255B := (List.range 256).any fun c => (pair c).2 == 255
  let differs := e.depthOf bank != 0 && ((List.range 256).any fun c => pair c != e.pairOf bank c)
  let fault (code : Nat) (x : TileOperand) : Part1 := .fault r (tileRowFault r g ps col o code 0 (x.producer r ps))
  if e.draining bank then fault 4 o.a
  else if special || scale255 then fault 3 o.a
  else if specialB || scale255B then fault 3 o.b
  else if differs then fault 3 o.a
  else if 127 < e.depthOf bank + 32 then fault 2 o.a
  else
    let cells : List CellCounts := (List.range 256).map fun c =>
      (countPairs (((codesA (c / 16)).map Prod.fst).zip ((codesB (c % 16)).map Prod.fst)), pair c)
    let t := r.ctx.tc + 1
    let ls := (t, TileLand.counts bank 32 o.afmt (o.scaled.1 || o.scaled.2) cells) :: (if o.kind = 3 then [(t + 2, TileLand.drain bank)] else [])
    .ok ((ls.foldl (fun (r : Ring) x => r.addLand ps col o.issued x) { r with ctx := r.ctx.addEv 12 1 }).onElem ps col fun e =>
      { e with lastWin := some bank })

/-- The start of a cycle of the matrix sequencer (R235): the tiles of the repetition that has just ended are popped, and the
tile step ends with its last. -/
def tilePop (r : Ring) (ps col : Nat) : Ring :=
  match (r.elem ps col).tile with
  | none => r
  | some o =>
    let n := r.ctx.tc - o.start
    let rho := n / 4
    if r.ctx.tc ≤ o.start ∨ n % 4 ≠ 0 ∨ o.reps < rho then r
    else
      let (r1, a) := popOperand r ps o.a (rho == o.reps)
      let (r2, b) := popOperand r1 ps o.b (rho == o.reps)
      r2.onElem ps col fun e =>
        if rho = o.reps then { e with tile := none, idle := 0 } else { e with tile := some { o with a := a, b := b } }

/-- What is done after a read of a tile step, in the same cycle; a fault leaves the ring `r0` as it stood before the read (R251). -/
def Part1.andThen (r0 : Ring) (x : Part1) (f : Ring → Part1) : Part1 :=
  match x with
  | .ok r =>
    (match f r with
    | .fault _ y => .fault r0 y
    | y => y)
  | .fault _ y => .fault r0 y
  | y => y

/-- A fault in the second cycle of a repetition, with what its first cycle did taken back (R251). Earlier repetitions stand (log 112). -/
def Part1.takeBack (x : Part1) (ps col : Nat) (u : TileUndo) : Part1 :=
  match x with
  | .fault r f => .fault (r.onElem ps col fun e => e.takeBack u) f
  | x => x

/-- The matrix sequencer of an element in the cycle at the ring's TC (R234 to R239). -/
def tileCycle (r : Ring) (g ps col : Nat) : Part1 :=
  match (r.elem ps col).tile with
  | none => .ok r
  | some o =>
    let t := r.ctx.tc
    if t < o.start then .ok r
    else
      let ph := (t - o.start) % 4
      let rho := (t - o.start) / 4
      if o.reps ≤ rho then .ok r
      else
        if ph = 0 then
          (readOperand { r with ctx := r.ctx.addEv 11 1 } g ps col o true).andThen r fun r =>
            if 3 ≤ o.kind then openCount r g ps col o (2 * rho) else .ok r
        else if ph = 1 then
          ((readOperand r g ps col o false).andThen r fun r =>
            match (r.elem ps col).tile with
            | none => .ok r
            | some o =>
              if o.kind < 3 then .ok (formUpdate r ps col o rho) else formWindow r g ps col o (2 * rho)).takeBack ps col o.undo
        else if ph = 2 ∧ 3 ≤ o.kind then openCount r g ps col o (2 * rho + 1)
        else if ph = 3 ∧ 3 ≤ o.kind then formWindow r g ps col o (2 * rho + 1)
        else .ok r

end Sys2Proof.Machine
end

