-- ==== Sys2Proof/Machine/Memory.lean ====
section
/-!
DEFINITION. Translation (spec/15 R252 to R265), memory requests from issue to performance (R271, R275 to R280), and the
fault buffer (R266 to R268).
-/

namespace Sys2Proof.Machine

open Sys2Proof

/-! ### Windows and the paged walk -/

/-- Bytes from an address split at every multiple of `unit`: (offset from the start, length). -/
def splitAt (unit : Nat) (a n : Nat) : Nat → List (Nat × Nat)
  | 0 => []
  | fuel + 1 =>
    if n = 0 then []
    else
      let k := min n (unit - a % unit)
      (a, k) :: splitAt unit (a + k) (n - k) fuel

/-- Stage 1 (R255): the lowest-numbered enabled rename window that holds the address. -/
def renameVa (ws : List Rename) (x : Nat) : Nat :=
  match ws.find? fun w => decide (w.base < w.lim) && decide (w.base ≤ x) && decide (x < w.lim) with
  | some w => (x + w.off) % pow2 56
  | none => x

/-- The region of an address (R252). -/
def regionOf (va : Nat) : Nat := va / pow2 52 % 16

/-- The accesses a walk distinguishes (R260). -/
def needsRd : ReqKind → Bool
  | .read => true
  | .atomic => true
  | _ => false
/-- An access that needs W. -/
def needsW : ReqKind → Bool
  | .write => true
  | .atomic => true
  | _ => false
/-- KIND of a fault record (R267). -/
def kindCode : ReqKind → Nat
  | .read => 0 | .write => 1 | .atomic => 2 | .fetch => 3

/-- A physical target, or a fault: cause, failing entry, level (R260, R265). -/
inductive Walk where
  | ok (place : Place) (pte : BitVec 64) (level : Nat)
  | fault (cause : Nat) (pte : BitVec 64) (level : Nat)
  deriving DecidableEq, Repr

/-- Bytes a leaf maps at a level (R258). -/
def pageBytes : Nat → Nat
  | 2 => 1073741824
  | 3 => 2097152
  | _ => 65536

/-- Alignment of a table of a level (R258). -/
def tableAlign : Nat → Nat
  | 1 => 65536
  | 2 => 65536
  | 3 => 4096
  | _ => 256

/-- Index of a virtual address at a level (R258). -/
def walkIndex (level va : Nat) : Nat :=
  match level with
  | 1 => va / pow2 43 % 8192
  | 2 => va / pow2 30 % 8192
  | 3 => va / pow2 21 % 512
  | _ => va / pow2 16 % 32

/-- The target of a leaf entry for an address, or its fault (R260). -/
def leafTarget (p : BitVec 64) (level va : Nat) (k : ReqKind) : Walk :=
  let owner := bits p 60 2
  if level = 1 ∨ bits p 8 44 * 256 % pageBytes level ≠ 0 then .fault 2 p level
  else if (needsRd k && !bit p 0) || (needsW k && !bit p 1) || (k == .fetch && !bit p 2) then .fault 1 p level
  else if k = .atomic ∧ owner = 2 then .fault 1 p level
  else
    let pa := bits p 8 44 * 256 + va % pageBytes level
    if owner ≠ 1 ∧ !isMapped pa then .fault 2 p level
    else if owner = 1 then .ok (.node (bits p 53 7) pa) p level
    else .ok (.phys pa) p level

/-- The format checks of an entry before it is used as a leaf or a pointer (R260). -/
def entryBad (p : BitVec 64) : Bool :=
  bit p 52 || bits p 3 5 != 0 || bits p 60 2 == 3 || (bits p 60 2 != 1 && bits p 53 7 != 0)

/-- The walk from a table at a level (R260): `fuel` levels are left. -/
def walkFrom (m : Memory) (va : Nat) (k : ReqKind) : Nat → Nat → Nat → Walk
  | 0, level, _ => .fault 2 0 level
  | fuel + 1, level, t =>
    let p : BitVec 64 := BitVec.ofNat 64 (m.readNat (t + 8 * walkIndex level va) 8)
    if !bit p 63 then .fault 0 p level
    else if entryBad p then .fault 2 p level
    else if !bit p 62 then
      if level = 4 ∨ bits p 60 2 ≠ 0 ∨ bits p 53 7 ≠ 0 ∨ bits p 0 3 ≠ 0 then .fault 2 p level
      else
        let t' := bits p 8 44 * 256
        if t' % tableAlign (level + 1) ≠ 0 then .fault 2 p level else walkFrom m va k fuel (level + 1) t'
    else leafTarget p level va k

/-- The address-space table entry of an ASID (R257) as seen from a die. -/
def astEntry (s : State) (d : Nat) (asid : BitVec 10) : BitVec 256 :=
  BitVec.ofNat 256 (s.mem.readNat (bits (s.die d).astbase 15 37 * 32768 + 32 * asid.toNat) 32)

/-- A pod-global address (R252) whose package is this one (R403) is a device physical address here. -/
def Walk.atHome (node : Nat) : Walk → Walk
  | .ok (.node n pa) p l => if n = node then .ok (.phys pa) p l else .ok (.node n pa) p l
  | w => w

/-- The paged translation of an address (R260): through the die's translation unit, which does not observe writes to
tables (R261), and otherwise by a walk. An address space that is not live is cause 0, with no entry and no level to record (log 88); the
reserved bits of its entry are not looked at (log 116). -/
def pagedWalk (s : State) (d : Nat) (asid : BitVec 10) (va : Nat) (k : ReqKind) : Walk :=
  let w : Walk := match (s.die d).tlb.find? fun e => e.asid == asid && decide (e.vpn ≤ va / 65536) && decide (va / 65536 < e.vpn + e.pages) with
  | some e => leafTarget e.pte e.level va k
  | none =>
    let e := astEntry s d asid
    if !bit e 0 then .fault 0 0 0 else walkFrom s.mem va k 4 1 (bits e 16 36 * 65536)
  w.atHome s.hub.node.toNat

/-- A successful walk kept in the translation unit, 8,192 entries, newest first (R261). -/
def cacheWalk (s : State) (d : Nat) (asid : BitVec 10) (va : Nat) (pte : BitVec 64) (level : Nat) (lines : Nat) : State :=
  s.onDie d fun x =>
    let pages := pageBytes level / 65536
    let vpn := va / 65536 / pages * pages
    let remote := bits pte 60 2 != 0 || bits pte 8 44 * 256 / 1099511627776 != d
    let old := (x.tlb.find? fun e => e.asid == asid && e.vpn == vpn).elim 0 (·.count)
    let n := if remote then satAdd 16 old lines else old
    let rest := x.tlb.filter fun e => !(e.asid == asid && e.vpn == vpn)
    { x with tlb := (⟨asid, vpn, pages, pte, level, n⟩ :: rest).take 8192 }

/-- The generation a translation unit holds for a region (R271): advanced by bumps, and otherwise the table's. -/
def generation (s : State) (d : Nat) (asid : BitVec 10) (region : Nat) : Nat :=
  tget s.hub.gens (16 * asid.toNat + region) (bits (astEntry s d asid) (64 + 12 * region) 12)

/-- The result of all three stages (R254). -/
structure Xlat where
  va : Nat
  walk : Walk
  heap : Bool
  deriving DecidableEq, Repr

/-- A virtual access of a context translated (R254 to R256, R260). -/
def translateVa (s : State) (d : Nat) (c : Ctx) (x : Nat) (k : ReqKind) : Xlat :=
  let va := renameVa c.rwin (x % pow2 56)
  let b := c.bind
  if bindHbase b ≤ va ∧ va < bindHlim b then
    if k = .fetch then ⟨va, .fault 1 0 0, true⟩
    else ⟨va, .ok (.phys (bindHoff b + (va - bindHbase b))) 0 0, true⟩
  else ⟨va, pagedWalk s d c.asid va k, false⟩

/-- The line requests of an access to bytes of virtual memory counted at their pages (R262), where they translate. -/
def countWalks (s : State) (d : Nat) (c : Ctx) (va n : Nat) (k : ReqKind) : State :=
  (splitAt 65536 (va % pow2 56) n (n / 65536 + 2)).foldl (fun s p =>
    let x := translateVa s d c p.1 k
    match x.walk with
    | .ok _ pte level => if x.heap then s else cacheWalk s d c.asid x.va pte level (linesOf x.va p.2)
    | .fault _ _ _ => s) s

/-- Whether the route to a package is up (R387, R388): its port, or none. -/
def kamvaPort (s : State) (n : Nat) : Option Nat :=
  let e := tget s.hub.krt n 0
  if bit e 4 && tget s.hub.kup (bits e 0 4) false then some (bits e 0 4) else none

/-- Bytes at a translated place outside the scratchpads, as an image fetch or Eosen reads them. -/
def State.placeBytes (s : State) (p : Place) (n : Nat) : List Byte :=
  match p with
  | .phys pa => s.physRead pa n
  | .node k pa => (List.range n).map fun i => Config.remoteImage k (pa + i)
  | _ => List.replicate n 0

/-- Whether what Eosen reads at a translated place is delivered poisoned: its host or package cannot be reached (R380, R387), or, unless
it is an image fetch, a line of it is poisoned. -/
def State.placeLost (s : State) (p : Place) (n : Nat) (k : ReqKind) : Bool :=
  match p with
  | .phys pa => if k == .fetch then isHost pa && !s.linkUp (hostFunction s pa) else s.readPoisoned pa n
  | .node k _ => (kamvaPort s k).isNone
  | _ => false

/-! ### Contexts by id -/

/-- The context with an id: bound on its ring, or saved. -/
def State.ctxById (s : State) (g : Nat) (id : BitVec 16) : Option Ctx :=
  if (s.ctx g).id = id ∧ (s.ring g).bound then some (s.ctx g)
  else (s.saved.find? fun x => x.ring == g && x.ctx.id == id).map (·.ctx)

/-- A function applied to the context with an id, bound or saved. -/
def State.onCtxId (s : State) (g : Nat) (id : BitVec 16) (f : Ctx → Ctx) : State :=
  if (s.ctx g).id = id ∧ (s.ring g).bound then s.onCtx g f
  else { s with saved := s.saved.map fun x => if x.ring = g ∧ x.ctx.id = id then { x with ctx := f x.ctx } else x }

/-- A fault record of the context with an id, bound on ring g or saved from it (R350): with that context's TC and address space. -/
def faultFor (s : State) (g : Nat) (id : BitVec 16) (cls code : Nat) (info : BitVec 32) (addr : BitVec 64) : FaultRec :=
  let c := s.ctxById g id
  { faultAt s g cls code info addr with
    ctx := id, tc := c.elim 0 (·.tc), asid := c.elim 0 Ctx.asid, si := c.elim 0 (·.si) }

/-- A fault taken by the context with an id: at once where it is bound, and kept with it where it is saved. -/
def takeFaultFor (s : State) (g : Nat) (id : BitVec 16) (f : FaultRec) : State :=
  if (s.ctx g).id = id ∧ (s.ring g).bound then takeFault s g f
  else s.onCtxId g id fun c => { c with fault := some (c.fault.getD f) }

/-! ### The fault buffer (R266 to R268) -/

/-- ISSUER of a party (R267). -/
def issuerCode : Party → Nat
  | .seq => 49
  | .stream n => n
  | .chan n => 32 + n
  | .copyEngine => 48
  | .scroll => 50
  | _ => 51

/-- A serviced fault posted to the die's buffer: one record for each key of a batch; a full buffer sets OVF (R268). GEN is zero
for cause 4, whose access carries no generation (R271). -/
def postFault (s : State) (d g : Nat) (q : Req) (va cause : Nat) (pte : BitVec 64) (level : Nat) : State :=
  let x := s.die d
  let page := va / 65536
  if x.fbrecs.any fun r => r.asid == q.asid && r.page == page && r.kind == kindCode q.kind then s
  else if 1024 ≤ x.fbunread then s.onDie d fun x => { x with fbovf := true }
  else
    let tc := (s.ctxById g q.ctx).elim q.tc (·.tc)
    let gen := if cause = 4 then 0 else generation s d q.asid (regionOf va)
    let w : BitVec 512 := packBits 512 [(448, 64, va), (384, 64, tc), (320, 64, pte.toNat), (304, 16, q.ctx.toNat),
      (288, 16, x.fbatch.toNat), (278, 10, q.asid.toNat), (273, 5, g), (269, 4, regionOf va), (257, 12, gen),
      (253, 3, cause), (250, 3, kindCode q.kind), (244, 6, issuerCode q.party), (241, 3, level), (0, 1, 1)]
    let s := s.physWrite (bits x.fbbase 16 36 * 65536 + 64 * x.fbhead.toNat) (bytesOf w)
    let rec_ : FbRec :=
      { index := x.fbhead.toNat, asid := q.asid, page := page, kind := kindCode q.kind, ring := g, ctx := q.ctx,
        cause := cause, va := va, issuer := issuerCode q.party, gen := gen, tc := tc }
    s.onDie d fun x =>
      { x with
        fbhead := x.fbhead + 1, fbunread := x.fbunread + 1, fbrecs := x.fbrecs ++ [rec_] }

/-- The fault at which another access of the party that makes a request has stopped it. -/
def otherStop (s : State) (q : Req) : Option Stop :=
  s.reqs.findSome? fun p => if p.id ≠ q.id ∧ p.ring = q.ring ∧ p.ctx = q.ctx ∧ p.party = q.party then p.stop else none

/-- The stop of a party recorded where its progress is kept (R266): it stays stopped while any of its accesses is. -/
def stopParty (s : State) (q : Req) (st : Option Stop) : State :=
  let now := st <|> otherStop s q
  s.onCtxId q.ring q.ctx fun c =>
    match q.party with
    | .stream n => c.setStream n { c.stream n with stopped := now }
    | .chan n => c.setChan n { c.chan n with stopped := now }
    | .scroll => { c with fetchStop := if q.kind = .fetch then st else c.fetchStop }
    | _ => c

/-! ### Requests -/

/-- The request with a number. -/
def State.req (s : State) (id : Nat) : Option Req := s.reqs.find? fun q => q.id == id
/-- A request replaced. -/
def State.setReq (s : State) (q : Req) : State := { s with reqs := s.reqs.map fun x => if x.id = q.id then q else x }
/-- A request removed. -/
def State.dropReq (s : State) (id : Nat) : State := { s with reqs := s.reqs.filter fun q => q.id != id }

/-- The parts of an access of bytes at a place, split at 64 KiB (R254). -/
def partsOf (p : Place) (bs : List Byte) : List Part :=
  match p with
  | .virt va => (splitAt 65536 va bs.length (bs.length / 65536 + 2)).map fun x =>
      .new (.virt x.1) ((bs.drop (x.1 - va)).take x.2)
  | _ => [.new p bs]

/-- The address of a place. -/
def Place.addr : Place → Nat
  | .virt a => a
  | .phys a => a
  | .spad _ o _ => o
  | .remote _ _ o _ => o
  | .node _ a => a

/-- The context that a scratchpad access from another ring reaches (R264): the one of the ASID in the ring's slot, or else one
saved from it, in whose footprint the offset lies, and with it every byte of the access: a footprint of whole blocks has no gap between
them. -/
def spadTarget (s : State) (ring : Nat) (asid : BitVec 10) (off n : Nat) : Option (BitVec 16) :=
  let covers (c : Ctx) : Bool :=
    c.asid == asid && decide (off + n ≤ 33554432) &&
      (decide (off % Config.blockBytes + n ≤ bindFoot c.bind * 4096) || decide (Config.blockBytes ≤ bindFoot c.bind * 4096))
  if (s.ring ring).bound && covers (s.ctx ring) then some (s.ctx ring).id
  else (s.saved.find? fun x => x.ring == ring && covers x.ctx).map (·.ctx.id)

/-- The address in the record of a cause 4 fault is the scratchpad offset of the target ring (log 84).
One part translated: the state with the translation unit's caches, and the part with its region and generation (R271) or a
fault (cause, entry, level, address). Whether a ring of another package refuses an access is free (log 9). -/
def translatePart (s : State) (q : Req) (c : Ctx) (p : Part) : State × Except (Nat × BitVec 64 × Nat × Nat) Part :=
  let d := dieOf q.ring
  match p.place with
  | .virt va =>
    let x := translateVa s d c va q.kind
    match x.walk with
    | .fault cause pte level => (s, .error (cause, pte, level, x.va))
    | .ok place pte level =>
      let s := if x.heap then s else cacheWalk s d q.asid x.va pte level (linesOf x.va p.bytes.length)
      (s, .ok { p with dest := some place, region := regionOf x.va, gen := generation s d q.asid (regionOf x.va) })
  | .remote n r o swz =>
    if n = s.hub.node.toNat then
      if (spadTarget s r q.asid o p.bytes.length).isSome then (s, .ok { p with dest := some (.spad r o swz) })
      else (s, .error (4, 0, 0, o))
    else if (kamvaPort s n).isSome ∧ Config.ready s.freeCtr then (s.tickFree, .error (4, 0, 0, o))
    else (s.tickFree, .ok { p with dest := some p.place })
  | other => (s, .ok { p with dest := some other })

/-- Every part translated in order; the first fault wins. -/
def translateParts (s : State) (q : Req) (c : Ctx) : List Part →
    State × Except (Nat × BitVec 64 × Nat × Nat) (List Part)
  | [] => (s, .ok [])
  | p :: r =>
    match translatePart s q c p with
    | (s, .error e) => (s, .error e)
    | (s, .ok p') =>
      match translateParts s q c r with
      | (s, .error e) => (s, .error e)
      | (s, .ok l) => (s, .ok (p' :: l))

/-- Whether an address lies in the bank that a post-package repair holds (R359). -/
def repairHolds (s : State) (pa : Nat) : Bool :=
  let p := (s.die (pa / 1099511627776)).ppr
  isHbm pa && bit p 63 && bits p 56 1 == stackOf pa && bits p 48 8 == Config.hbmBank pa % 256

/-- Whether a translated request waits for a repair. -/
def partsHeld (s : State) (ps : List Part) : Bool :=
  ps.any fun p => match p.dest with
    | some (.phys pa) => repairHolds s pa
    | _ => false

/-- How long a request has been stopped on one fault (R270): since it first met it. -/
def faultSince (s : State) (q : Req) (cause va : Nat) : Nat :=
  match q.stop with
  | some x => if !x.repair && x.cause == cause && x.va == va then x.since else s.tick.toNat
  | none => s.tick.toNat

/-- A request translated at its issuer (R254, R271); a fault stops the issuer and is posted for service (R266), and a bank under
repair makes it wait (R359). -/
def translateReq (s : State) (id : Nat) : State :=
  match s.req id with
  | none => s
  | some q =>
    match s.ctxById q.ring q.ctx with
    | none => s
    | some c =>
      match translateParts s q c q.parts with
      | (s, .ok ps) =>
        let st : Option Stop := if partsHeld s ps then some ⟨0, 0, 0, 0, kindCode q.kind, true, s.tick.toNat⟩ else none
        stopParty (s.setReq { q with parts := ps, stop := st, stale := false }) q st
      | (s, .error (cause, pte, level, va)) =>
        let st : Stop := ⟨cause, pte, level, va, kindCode q.kind, false, faultSince s q cause va⟩
        let s := postFault s (dieOf q.ring) q.ring q va cause pte level
        stopParty (s.setReq { q with stop := some st, stale := false }) q (some st)

/-- Whether a write issued now carries poison (R316): one that an unwinding context issues, but for a line of a copy that it had
issued before. -/
def writePoison (c : Ctx) (kind : ReqKind) (purpose : Purpose) : Bool :=
  match c.unwinding with
  | none => false
  | some u =>
    needsW kind &&
      (match purpose with
      | .copyWrite id _ _ => decide (u.copies ≤ id)
      | .copyOwn id => decide (u.copies ≤ id)
      | _ => true)

/-- A request issued by a party of the context of ring g (R138, R275): numbered, its write lines counted in WDI, and
translated. The new number is `s.reqNext`. -/
def issueReq (s : State) (g : Nat) (party : Party) (kind : ReqKind) (parts : List Part) (lines : Nat) (purpose : Purpose) :
    State :=
  let c := s.ctx g
  let q : Req :=
    { id := s.reqNext, ring := g, ctx := c.id, asid := c.asid, party := party, kind := kind, parts := parts,
      wdi := c.wdi + 1, lines := lines, tc := c.tc, purpose := purpose, done := none, stop := none,
      poison := writePoison c kind purpose, cls := 0, line := 0, stale := false }
  translateReq ({ s with reqs := s.reqs ++ [q], reqNext := s.reqNext + 1 }.onCtx g fun c => c.issueLines lines) s.reqNext

/-- As `issueReq`, for a context by its id: a copy that goes on after its context was saved (R346). -/
def issueReqFor (s : State) (g : Nat) (ctx : BitVec 16) (party : Party) (kind : ReqKind) (parts : List Part) (lines : Nat)
    (purpose : Purpose) : State :=
  match s.ctxById g ctx with
  | none => s
  | some c =>
    let q : Req :=
      { id := s.reqNext, ring := g, ctx := ctx, asid := c.asid, party := party, kind := kind, parts := parts,
        wdi := c.wdi + 1, lines := lines, tc := c.tc, purpose := purpose, done := none, stop := none,
        poison := writePoison c kind purpose, cls := 0, line := 0, stale := false }
    translateReq ({ s with reqs := s.reqs ++ [q], reqNext := s.reqNext + 1 }.onCtxId g ctx fun c => c.issueLines lines)
      s.reqNext

/-- Whether a request has been performed at a scope or a wider one. -/
def Req.performedAt (q : Req) (sc : Scope) : Bool :=
  match q.done with
  | some d => decide (scopeRank sc ≤ scopeRank d)
  | none => false

/-- Whether a request belongs to the set P of a divider: issued before it, or a line of a copy that began before it
(R275, R278), by a party it covers. The streams that an `sbar` names are ordered against one another, not each against itself
alone (log 81). -/
def inDivider (dv : Divider) (q : Req) : Bool :=
  let covered :=
    match dv.streams, q.party with
    | none, .seq | none, .stream _ | none, .chan _ | none, .copyEngine => true
    | some m, .stream n => bit m n
    | _, _ => false
  covered &&
    (decide (q.id < dv.before) ||
      (match q.purpose with
      | .copyRead id _ | .copyWrite id _ _ | .copyOwn id => dv.streams.isNone && decide (id < dv.copies)
      | _ => false))

/-- Whether a divider still holds back a request issued after it (R175, R278): an access before the line is not performed as its kind
asks, or a copy or a collective that began before it is not over. -/
def dividerBlocks (s : State) (g : Nat) (ctx : BitVec 16) (dv : Divider) : Bool :=
  (dv.streams.isNone && s.colls.any fun c => c.ring == g && c.ctx == ctx && decide (c.copies < dv.copies)) ||
  (s.reqs.any fun p => p.ring == g && p.ctx == ctx && inDivider dv p &&
    (match dv.kind with
    | .acq => needsRd p.kind && p.done.isNone
    | _ => !p.performedAt dv.scope)) ||
    (dv.streams.isNone && s.copies.any fun c => c.ring == g && c.ctx == ctx && decide (c.id < dv.copies) &&
      (match dv.kind with
      | .acq => decide (c.readDone < trBytes c.record)
      | _ => decide (c.writeDone < trBytes c.record)))

/-- The number of the next request at the post of the engine command that a request serves: the `ast`s below it come first
(R158). -/
def postOf (s : State) (q : Req) : Nat :=
  match q.party, s.ctxById q.ring q.ctx with
  | .stream n, some c => (c.stream n).post
  | .chan n, some c => (c.chan n).post
  | _, _ =>
    match q.purpose with
    | .copyRead id _ | .copyWrite id _ _ | .copyOwn id => (s.copies.find? fun c => c.id == id).elim 0 (·.post)
    | _ => 0

/-- Whether an element of the ring uses a bank of a scratchpad place in this cycle, so that an engine's access to it waits
(R78). -/
def bankBusy (s : State) (p : Part) : Bool :=
  match p.dest with
  | some (.spad g o swz) =>
    let w := o % Config.blockBytes / 128
    (s.ring g).banksBusy (o / Config.blockBytes) w swz ((o % Config.blockBytes + p.bytes.length - 1) / 128 - w + 1)
  | _ => false

/-- The copy that a request serves. -/
def Req.copy? (q : Req) : Option Nat :=
  match q.purpose with
  | .copyRead id _ | .copyWrite id _ _ | .copyOwn id => some id
  | _ => none

/-- Whether a request goes to package `n`. -/
def Req.toNode (q : Req) (n : Nat) : Bool :=
  q.parts.any fun p => match p.dest with
    | some (.node k _) | some (.remote k _ _ _) => k == n
    | _ => false

/-- Whether an earlier request of the same copy to the same other package has not arrived there (R387). -/
def arrivesLater (mine : List Req) (q : Req) : Bool :=
  q.copy?.isSome && q.parts.any fun x => match x.dest with
    | some (.node k _) | some (.remote k _ _ _) =>
      mine.any fun p => p.copy? == q.copy? && decide (p.id < q.id) && p.toNode k && p.done.isNone
    | _ => false

/-- Whether an access has been performed at a scope, or, being a read, at all: its value is fixed for every scope (R275). -/
def Req.settledAt (p : Req) (sc : Scope) : Bool := if p.kind == .read then p.done.isSome else p.performedAt sc

/-- Whether a request may be performed at a scope now (R158, R272, R277, R278, R175): translated and not stopped; the
sequencer and streams in issue order at that scope, a read of the sequencer, whose value is then fixed for every scope, after its earlier
accesses at every one; a stream in full order also where R272 would let it depart from it (log 115); a copy's in issue order at another
package (R387); an engine's after the `ast`s
before its post have been performed at any scope (log 89); dividers kept; its first performance not in a bank that an element uses in
this cycle (R78). -/
def mayPerform (s : State) (q : Req) (sc : Scope) : Bool :=
  let mine := s.reqs.filter fun p => p.ring == q.ring && p.ctx == q.ctx
  let post := postOf s q
  let ordered :=
    match q.party with
    | .seq => mine.all fun p => !(p.party == .seq) || decide (q.id ≤ p.id) || p.settledAt (if needsRd q.kind then .sys else sc)
    | .stream _ => mine.all fun p => !(p.party == q.party) || decide (q.id ≤ p.id) || p.performedAt sc
    | _ => !arrivesLater mine q
  let afterAst := mine.all fun p => !(p.purpose == .ast) || decide (post ≤ p.id) || p.done.isSome
  let fenced :=
    match s.ctxById q.ring q.ctx with
    | none => true
    | some c => c.dividers.all fun dv =>
        inDivider dv q || (dv.streams.isSome && !(match q.party with | .stream n => bit (dv.streams.getD 0) n | _ => false)) ||
          (dv.kind == .rel && dv.streams.isNone && q.kind != .write && q.kind != .atomic) ||
          !dividerBlocks s q.ring q.ctx dv
  q.stop.isNone && !q.stale && (q.parts.all fun p => p.dest.isSome) && ordered && afterAst && fenced &&
    (q.done.isSome || !q.parts.any (bankBusy s))

/-! ### Bytes at a translated place -/

/-- A request to a package that cannot be reached, counted, with a host event once per port (R387). -/
def unreachable (s : State) (n : Nat) (write : Bool) : State :=
  let e := tget s.hub.krt n 0
  let p := if bit e 4 then bits e 0 4 else 16
  let s := s.onHub fun h =>
    if write then { h with kdrop := tset h.kdrop p (satAdd 16 (tget h.kdrop p 0) 1) }
    else { h with kpois := tset h.kpois p (satAdd 16 (tget h.kpois p 0) 1) }
  if s.hub.knotified.contains p then s
  else (s.hostEvent 0 9 p 0 0).onHub fun h => { h with knotified := p :: h.knotified }

/-- The save-area address of a scratchpad byte of a saved context (R343): footprint by block, then the carve-out; none
outside both. -/
def saveAreaAddr (e : RemapEntry) (place : Nat) : Option Nat :=
  let blk := place / Config.blockBytes
  let o := place % Config.blockBytes
  let f := remapFoot e
  if o < f * 4096 then some (remapSave e + 4784128 + f * 4096 * blk + o)
  else if 33554432 - remapCsa e * 65536 ≤ place then
    some (remapSave e + 4784128 + f * 65536 + (place - (33554432 - remapCsa e * 65536)))
  else none

/-- The order of a place in the footprint copy, in 128-byte words (R343, R345). -/
def frontOf (e : RemapEntry) (place : Nat) : Nat :=
  match saveAreaAddr e place with
  | some a => (a - remapSave e - 4784128) / 128
  | none => 0

/-- The remap entry of a context that is not free, with its index (R345). -/
def remapOf (r : Ring) (id : BitVec 16) : Option (Nat × RemapEntry) :=
  r.remap.find? fun e => remapState e.2 != 0 && remapCtx e.2 == id

/-- Where a scratchpad byte of a context's ring lives now (R264, R346): in SRAM, at a save-area address, or nowhere. -/
inductive SpadHome where
  | sram
  | save (pa : Nat)
  | dropped
  deriving DecidableEq, Repr

/-- R346 for a scratchpad place and the context it belongs to. -/
def spadHome (r : Ring) (id : BitVec 16) (place : Nat) : SpadHome :=
  match remapOf r id with
  | none => .sram
  | some (_, e) =>
    match saveAreaAddr e place with
    | none => .dropped
    | some pa =>
      let below := decide (frontOf e place < remapFront e)
      if remapState e = 3 then (if below then .sram else .save pa)
      else if remapState e = 1 ∧ !below then .sram
      else .save pa

/-- The context a scratchpad access on a ring is for: the issuer's own, or the one that another ring lets it reach (R264). -/
def spadOwner (s : State) (q : Req) (ring off n : Nat) : BitVec 16 :=
  if ring = q.ring then q.ctx else (spadTarget s ring q.asid off n).getD 0

/-- Whether the target of a scratchpad access of another ring no longer accepts it (R264). -/
def spadRefused (s : State) (q : Req) : Bool :=
  q.parts.any fun p =>
    match p.dest with
    | some (.spad r o _) => r != q.ring && (spadTarget s r q.asid o p.bytes.length).isNone
    | _ => false

/-- The place in SRAM of a ring's scratchpad offset under a layout (R77). -/
def spadPlace (o : Nat) (swz : Bool) : Nat := o / Config.blockBytes * Config.blockBytes + placeOf swz (o % Config.blockBytes)

/-- A byte of a context's scratchpad where it lives now (R346), and whether its chunk or line is poisoned. -/
def spadByteAt (s : State) (r : Ring) (id : BitVec 16) (place : Nat) : Byte × Bool :=
  match spadHome r id place with
  | .sram => (r.spad.read place, r.spoison.contains (place / 16))
  | .save pa => (s.mem.read pa, s.poison.contains (pa / 64))
  | .dropped => (0, false)

/-- Bytes read at a translated place, and whether any is poisoned. -/
def readPlace (s : State) (q : Req) (p : Place) (n : Nat) : List Byte × Bool :=
  match p with
  | .phys pa =>
    if isHost pa ∧ !s.linkUp (hostFunction s pa) then (List.replicate n 0, true)
    else (s.physRead pa n, (List.range (linesOf pa n)).any fun i => s.poison.contains (pa / 64 + i))
  | .spad g o swz =>
    let r := s.ring g
    let id := spadOwner s q g o n
    let bs := (List.range n).map fun i => spadByteAt s r id (spadPlace (o + i) swz)
    (bs.map (·.1), bs.any (·.2))
  | .node k _ | .remote k _ _ _ =>
    match kamvaPort s k with
    | some _ => ((List.range n).map fun i => Config.remoteByte (s.freeCtr + i), false)
    | none => (List.replicate n 0, true)
  | .virt _ => (List.replicate n 0, false)

/-- A read made: its bytes, whether any is poisoned, an unreachable package counted (R387), the free values of a
remote one consumed, and stored errors of SRAM met (R355). -/
def fetchPlace (s : State) (q : Req) (p : Place) (n : Nat) : State × List Byte × Bool :=
  let x := readPlace s q p n
  match p with
  | .node k _ | .remote k _ _ _ => if x.2 then (unreachable s k false, x) else ({ s with freeCtr := s.freeCtr + n }, x)
  | .spad g o swz => (s.onRing g fun r => r.meetFlaws fun c => (List.range n).any fun i => spadPlace (o + i) swz / 16 == c, x)
  | _ => (s, x)

/-- Bytes written at a translated place. -/
def writePlace (s : State) (q : Req) (p : Place) (bs : List Byte) : State :=
  match p with
  | .phys pa => s.busWrite pa bs
  | .spad g o swz =>
    let id := spadOwner s q g o bs.length
    bs.zipIdx.foldl (fun s b =>
      let a := o + b.2
      match spadHome (s.ring g) id (spadPlace a swz) with
      | .sram => s.onRing g fun r => r.spadPut (a / Config.blockBytes) (a % Config.blockBytes) swz b.1
      | .save pa => s.busWrite pa [b.1]
      | .dropped => s) s
  | .node k pa =>
    match kamvaPort s k with
    | some _ => { s with egress := s.egress ++ [.write k pa bs] }
    | none => unreachable s k true
  | .remote k r o swz =>
    match kamvaPort s k with
    | some _ => if bs.isEmpty then s else { s with egress := s.egress ++ [.spad k r q.asid o swz bs] }
    | none => unreachable s k true
  | .virt _ => s

/-- A line of device memory marked poisoned. -/
def State.poisonLine (s : State) (l : Nat) : State := if s.poison.contains l then s else { s with poison := l :: s.poison }

/-- Lines of a translated place marked poisoned (R316), where the bytes live now (R346). -/
def poisonPlace (s : State) (q : Req) (p : Place) (n : Nat) : State :=
  match p with
  | .phys pa => (List.range (linesOf pa n)).foldl (fun s i => s.poisonLine (pa / 64 + i)) s
  | .spad g o swz =>
    let id := spadOwner s q g o n
    (List.range n).foldl (fun s i =>
      let place := spadPlace (o + i) swz
      match spadHome (s.ring g) id place with
      | .sram => s.onRing g fun r => if r.spoison.contains (place / 16) then r else { r with spoison := place / 16 :: r.spoison }
      | .save pa => s.poisonLine (pa / 64)
      | .dropped => s) s
  | _ => s

/-- The scope of a destination (R280). -/
def destScope (g : Nat) (node : Nat) (p : Place) : Scope :=
  match p with
  | .spad r _ _ => if r = g then .ring else if dieOf r = dieOf g then .die else .pkg
  | .phys pa => if isHost pa then .sys else if pa / 1099511627776 = dieOf g then .die else .pkg
  | .remote n r _ _ => if n = node then (if r = g then .ring else if dieOf r = dieOf g then .die else .pkg) else .pod
  | .node _ _ => .pod
  | .virt _ => .sys

/-- Whether a part's target holds the generation the part carries (R271); only a translated access carries one. -/
def Part.fresh (s : State) (q : Req) (p : Part) : Bool :=
  match p.place with
  | .virt _ => p.dest.isNone || generation s (dieOf q.ring) q.asid p.region == p.gen
  | _ => true

/-- Whether every part's target holds the generation it carries (R271). -/
def genFresh (s : State) (q : Req) : Bool := q.parts.all (Part.fresh s q)

/-- The scope at which a write counts in WDP (R138, R282): in its block for the ring's own SRAM, `pkg` scope, or that of its
target for one outside the package. -/
def Req.countScope (s : State) (q : Req) : Scope :=
  let of (p : Part) : Scope :=
    match destScope q.ring s.hub.node.toNat (p.dest.getD p.place) with
    | .ring => .ring
    | .die => .pkg
    | sc => sc
  scopeOfNat ((q.parts.map fun p => scopeRank (of p)).foldl max 0)

/-- The bytes of HBM that a write's first performance replaces (R287). -/
def shadowOf (s : State) (q : Req) : List (Nat × Byte × Nat) :=
  if q.poison ∨ !(q.kind == .write || q.kind == .atomic) then []
  else
    q.parts.flatMap fun p =>
      match p.dest with
      | some (.phys pa) => if isHbm pa then (List.range p.bytes.length).map fun i => (pa + i, s.mem.read (pa + i), q.id) else []
      | _ => []

/-- What is kept of replaced bytes once request `id` is performed at `sys` scope: only what later writes replaced (R287). -/
def settleShadow (id : Nat) : List (Nat × Byte × Nat) → List (Nat × Byte × Nat)
  | [] => []
  | x :: l => if x.2.2 == id || l.any (fun y => y.1 == x.1 && y.2.2 == id) then settleShadow id l else x :: settleShadow id l

/-- A byte of device memory as a host reads it: the latest write performed at `sys` scope (R287). -/
def State.hostByte (s : State) (pa : Nat) : Byte :=
  match s.shadow.find? fun x => x.1 == pa with
  | some x => x.2.1
  | none => s.mem.read pa

/-- The new value of an atomic (R305) on patterns of `w` bits. -/
def atomNew (op : AtomOp) (w m v c : Nat) : Nat :=
  match op with
  | .add => (m + v) % pow2 w
  | .smin => if toSigned w m ≤ toSigned w v then m else v
  | .smax => if toSigned w m ≤ toSigned w v then v else m
  | .umin => min m v
  | .umax => max m v
  | .and => m &&& v
  | .or => m ||| v
  | .xor => m ^^^ v
  | .exch => v
  | .cas => if m = c then v else m
  | .fadd => (roundFmt Fmt.f32 (sumNum .rne [decodeCode Fmt.f32 m, decodeCode Fmt.f32 v]).1 .rne false).1

/-- A lane of an atomic stream performed (R172): ATOM of the old value; operation 8 pairs lanes and is applied at the
odd lane against the even lane's value. -/
def atomLane (op : Nat) (m x x0 : Nat) (odd : Bool) : Option Nat :=
  match op with
  | 1 => some ((m + x) % pow2 32)
  | 2 => some (if toSigned 32 m ≤ toSigned 32 x then m else x)
  | 3 => some (if toSigned 32 m ≤ toSigned 32 x then x else m)
  | 4 => some (m &&& x)
  | 5 => some (m ||| x)
  | 6 => some (m ^^^ x)
  | 7 => some x
  | 8 => if odd && m == x0 then some x else none
  | 9 => some (atomNew .fadd 32 m x 0)
  | _ => none

/-- The class of poisoned data from a translated place (R315): an SRAM error, another package or a host, a poisoned line. -/
def placeClass (p : Place) : Nat :=
  match p with
  | .spad _ _ _ => 2
  | .phys pa => if isHost pa then 4 else 3
  | _ => 4

/-- The address of the line of a translated place (R351). -/
def lineOf (p : Place) : Nat := p.addr / 64 * 64

/-- The HBM stack that a RAS event names for a translated place: 0 to 7, or 15 for none (R361, R253). -/
def placeStack (p : Place) : Nat :=
  match p with
  | .phys pa => hbmStack pa
  | _ => 15

/-- The lines that a poisoned write would have written, marked (R316). -/
def poisonParts (s : State) (q : Req) : State :=
  q.parts.foldl (fun s p => poisonPlace s q (p.dest.getD p.place) p.bytes.length) s

/-- The first performance of a request: its bytes read or written, poison carried, a poisoned write dropped with its
lines marked (R316). What an atomic would have made of poisoned bytes is poisoned (R355, log 80). -/
def performEffect (s : State) (q : Req) : State :=
  match q.kind with
  | .read | .fetch =>
    let r := q.parts.foldl (fun (x : State × List Part × Nat × Nat) p =>
      let pl := p.dest.getD p.place
      let (s, bs, bad) := fetchPlace x.1 q pl p.bytes.length
      (s, x.2.1 ++ [{ p with bytes := bs }], if bad && x.2.2.1 == 0 then (placeClass pl, lineOf pl) else x.2.2)) (s, [], 0, 0)
    r.1.setReq { q with parts := r.2.1, poison := r.2.2.1 != 0, cls := r.2.2.1, line := r.2.2.2 }
  | .write => if q.poison then poisonParts s q else q.parts.foldl (fun s p => writePlace s q (p.dest.getD p.place) p.bytes) s
  | .atomic =>
    if q.poison then poisonParts s q
    else
    match q.purpose with
    | .atom op wide v c =>
      match q.parts with
      | p :: _ =>
        let w := if wide then 64 else 32
        let pl := p.dest.getD p.place
        let (s, bs, bad) := fetchPlace s q pl (w / 8)
        let old := leNat bs
        let new := atomNew op w old (v.toNat % pow2 w) (c.toNat % pow2 w)
        if bad then s.setReq { q with poison := true, cls := placeClass pl, line := lineOf pl } else
        (writePlace s q pl (leBytes (w / 8) new)).setReq { q with parts := [{ p with bytes := leBytes (w / 8) old }] }
      | [] => s
    | .streamAtomic _ _ op mask (val, _) _ =>
      (q.parts.zip (maskList mask)).foldl (fun s p =>
        let l := p.2
        let pl := p.1.dest.getD p.1.place
        let (s, bs, bad) := fetchPlace s q pl 4
        if bad then poisonPlace s q pl 4
        else
          match atomLane op (leNat bs) (val.lane l).toNat (val.lane (l - 1)).toNat (l % 2 == 1) with
          | some m => writePlace s q pl (leBytes 4 m)
          | none => s) s
    | _ => s

/-- WDP of a saved context kept in its halyard image (R346, states 1 and 2). -/
def saveWdp (s : State) (g : Nat) (id : BitVec 16) : State :=
  match remapOf (s.ring g) id, s.ctxById g id with
  | some (_, e), some c =>
    if remapState e = 1 ∨ remapState e = 2 then { s with mem := s.mem.writeN (remapSave e + 33040) (leBytes 8 c.wdp) } else s
  | _, _ => s

/-- A request performed at a scope (R275, R276). Its effect is made once, at the first scope; a generation that differs is
answered with a stale refusal (R271), and a scratchpad that no longer takes it refuses with cause 4 (R264); its WDI numbers
count as performed as R138 and R282 ask; at `sys` scope a host reads what it wrote (R287). A killed context's refused accesses
are dropped (R272). -/
def performReq (s : State) (q : Req) (sc : Scope) : State :=
  if q.done.isNone && !genFresh s q then
    match s.ctxById q.ring q.ctx with
    | some c => if c.killed then s.dropReq q.id else s.setReq { q with stale := true }
    | none => s.dropReq q.id
  else if q.done.isNone && spadRefused s q then
    if (s.ctxById q.ring q.ctx).any (fun c => !c.killed) then translateReq s q.id else s.dropReq q.id
  else
    let s := if q.done.isNone then performEffect { s with shadow := s.shadow ++ shadowOf s q } q else s
    let s := if sc = .sys then { s with shadow := settleShadow q.id s.shadow } else s
    let s := match s.req q.id with
      | some q' => s.setReq { q' with done := some sc }
      | none => s
    if q.lines ≠ 0 ∧ scopeRank (q.countScope s) ≤ scopeRank sc ∧ !(q.performedAt (q.countScope s)) then
      saveWdp (s.onCtxId q.ring q.ctx fun c => c.performed q.wdi q.lines) q.ring q.ctx
    else s

/-- The bytes a performed read delivered. -/
def Req.data (q : Req) : List Byte := q.parts.flatMap (·.bytes)

end Sys2Proof.Machine
end

