-- ==== Sys2Proof/Machine/Scroll.lean ====
section
/-!
DEFINITION. The scroll: records and their fetch (spec/07 R119 to R128), the times of hoists (spec/05 R90, R91), hoists,
strikes and save slots (R92 to R96), waves and the end of a run (spec/09 R160 to R163).
-/

namespace Sys2Proof.Machine

open Sys2Proof

/-! ### Records -/

/-- Words of `w` bytes from a list of bytes, `n` of them. -/
def wordsOf (w n : Nat) (bs : List Byte) : List Nat := (List.range n).map fun i => leNat ((bs.drop (w * i)).take w)

/-- A record from its bytes (R119 to R122). -/
def recOfBytes (bs : List Byte) : Rec :=
  let hdr : BitVec 512 := BitVec.ofNat 512 (leNat (bs.take 64))
  let ii := bits hdr 10 6
  let smn := bits hdr 88 8
  { hdr := hdr,
    slots := (wordsOf 16 ii (bs.drop 64)).map (BitVec.ofNat 128),
    switches := (wordsOf 8 ii (bs.drop (64 + 16 * ii))).map (BitVec.ofNat 64),
    pass := BitVec.ofNat 64 (leNat ((bs.drop (64 + 24 * ii)).take 8)),
    smap := (wordsOf 4 smn (bs.drop (72 + 24 * ii))).map (BitVec.ofNat 32) }

/-- Bytes at a virtual address as an image fetch of the context of ring g reaches them now, without any effect on the
translation unit; a part that does not translate reads zero. -/
def peekImage (s : State) (g va n : Nat) : List Byte :=
  (splitAt 65536 va n (n / 65536 + 2)).flatMap fun x =>
    match (translateVa s (dieOf g) (s.ctx g) x.1 .fetch).walk with
    | .ok place _ _ => s.placeBytes place x.2
    | _ => List.replicate x.2 0

/-- The base of the first page of a range that an image fetch cannot reach (R128): the page of the leaf that does not allow it, or
else the 64 KiB page. -/
def fetchBadPage (s : State) (g va n : Nat) : Option Nat :=
  (splitAt 65536 va n (n / 65536 + 2)).findSome? fun x =>
    let t := translateVa s (dieOf g) (s.ctx g) x.1 .fetch
    match t.walk with
    | .ok _ _ _ => none
    | .fault cause _ level =>
      let size := if cause = 1 then pageBytes level else 65536
      some (t.va / size * size)

/-- The first address of a range, after renaming, that an image fetch would make through the heap window (R256). -/
def fetchHeap (s : State) (g va n : Nat) : Option Nat :=
  (splitAt 65536 va n (n / 65536 + 2)).findSome? fun x =>
    let t := translateVa s (dieOf g) (s.ctx g) x.1 .fetch
    if t.heap then some t.va else none

/-- Whether a line of a range is delivered poisoned to an image fetch (R354). -/
def imagePoisoned (s : State) (g va n : Nat) : Bool :=
  (splitAt 65536 va n (n / 65536 + 2)).any fun x =>
    match (translateVa s (dieOf g) (s.ctx g) x.1 .fetch).walk with
    | .ok (.phys pa) _ _ => (isHost pa && !s.linkUp (hostFunction s pa)) ||
        (!s.poison.isEmpty && (List.range (linesOf pa x.2)).any fun i => s.poison.contains (pa / 64 + i))
    | .ok (.node k _) _ _ => (kamvaPort s k).isNone
    | _ => false

/-- The virtual address of record n (R114). -/
def recordVa (c : Ctx) (n : Nat) : Nat := bindImg c.bind + (c.directory.getD n 0).toNat

/-- The header of record n: the cached record's, or that of the image. -/
def recHeader (s : State) (g n : Nat) : Rec :=
  match (s.ctx g).cache.find? fun e => e.1 == n with
  | some (_, r) => r
  | none => recOfBytes (peekImage s g (recordVa (s.ctx g) n) 64)

/-- The fetch checks of a record (R126): CRC, then NUM and TERM. -/
def recordCheck (bs : List Byte) (n v : Nat) : Option Nat :=
  let r := recOfBytes bs
  let zeroed := bs.zipIdx.map fun b => if 60 ≤ b.2 ∧ b.2 < 64 then (0 : Byte) else b.1
  if crc32c zeroed ≠ recCrc r then some 16
  else if bits r.hdr 0 10 ≠ n % 1024 ∨ recTerm r ≠ (n == v) then some 5
  else none

/-- Virtual stripes that the armed run needs for one of its next 16 hoists (R160). -/
def neededSoon (c : Ctx) : List Nat :=
  match c.armedRun with
  | some r => (List.range 16).filterMap fun i =>
      if c.hoistNext + i < r.limit then some (r.first + (c.hoistNext + i) % max r.nv 1) else none
  | none => []

/-- A record put into the cache of 64, in place of the replaceable one hoisted longest ago (R160): one never hoisted goes
first, and the lower number of two alike (log 74). -/
def cacheRecord (c : Ctx) (n : Nat) (r : Rec) : Ctx :=
  let keep := neededSoon c
  let cache :=
    if c.cache.length < 64 ∨ (c.cache.any fun e => e.1 == n) then c.cache
    else
      let cand := c.cache.filter fun e => !keep.contains e.1
      match cand with
      | [] => c.cache
      | e :: l =>
        let use (x : Nat × Rec) : Nat := tget c.cacheUse x.1 0
        let worst := l.foldl (fun b x => if use x < use b ∨ (use x = use b ∧ x.1 < b.1) then x else b) e
        tdel c.cache worst.1
  { c with cache := tset cache n r, fetching := c.fetching.filter fun x => x != n, fetchBad := tdel c.fetchBad n }

/-- Record n requested into the cache, unless it is there, under way or beyond V (R92, R160). -/
def Ctx.wantRecord (c : Ctx) (n : Nat) : Ctx :=
  if hdrV c.hdr ≤ n ∨ (c.cache.any fun e => e.1 == n) ∨ c.fetching.contains n ∨ (c.fetchBad.any fun e => e.1 == n) then c
  else { c with fetching := c.fetching ++ [n] }

/-- The request that stands for an image fetch of the context of ring g by its scroll controller. -/
def scrollReq (s : State) (g : Nat) : Req :=
  let c := s.ctx g
  { id := 0, ring := g, ctx := c.id, asid := c.asid, party := .scroll, kind := .fetch, parts := [], wdi := 0, lines := 0, tc := c.tc,
    purpose := .other, done := none, stop := none, poison := false, cls := 0, line := 0, stale := false }

/-- The scroll controller stopped by an image fetch through the heap window, which is posted for service (R256, R266, R267). -/
def stopScroll (s : State) (g va : Nat) : State :=
  let st : Stop := ⟨1, 0, 0, va, 3, false, s.tick.toNat⟩
  (postFault s (dieOf g) g (scrollReq s g) va 1 0 0).onCtx g fun c => { c with fetchStop := some st }

/-- CONFIG_RECORD_FETCH (R126): the requested record n is brought in and checked whole; an error is kept for the hoist
that needs it (R160), its code with the failing page. A record that lies in the heap window stops the scroll controller (R256), and a
poisoned line is an uncorrectable error of the hoist (R96). At least the 64 bytes of its header are read and checked, whatever RLEN says. -/
def fetchRecord (s : State) (g n : Nat) : State :=
  let c := s.ctx g
  let va := recordVa c n
  let bad (s : State) (code page : Nat) : State :=
    s.onCtx g fun c =>
      { c with
        fetching := c.fetching.filter fun x => x != n, fetchBad := tset c.fetchBad n (code + 256 * page) }
  let len := max 64 (64 * bits (recOfBytes (peekImage s g va 64)).hdr 192 16)
  match fetchHeap s g va 64, fetchBadPage s g va 64, fetchHeap s g va len, fetchBadPage s g va len with
  | some a, _, _, _ => stopScroll s g a
  | none, some p, _, _ => bad s 15 p
  | none, none, some a, _ => stopScroll s g a
  | none, none, none, some p => bad s 15 p
  | none, none, none, none =>
    let t := countWalks s (dieOf g) c va len .fetch
    if imagePoisoned s g va len then bad t 17 0
    else
      let bs := peekImage s g va len
      match recordCheck bs n (hdrV c.hdr) with
      | some code => bad t code 0
      | none => t.onCtx g fun c => cacheRecord c n (recOfBytes bs)

/-- CONFIG_RECORD_FETCH: due while the record is requested, and not while the scroll controller is stopped (R266). -/
def execConfigRecordFetch (g vs : Nat) (s : State) : Host.Outcome State Fault Refusal :=
  if (s.ctx g).fetching.contains vs ∧ (s.ctx g).fetchStop.isNone then .next (fetchRecord s g vs) else .refused .notDue

/-! ### The times of R91 -/

/-- What R91 takes from a record: cost, save, II, TAIL, OFF, LOCK, PIN. -/
structure RecTimes where
  save : Nat
  ii : Nat
  tail : Nat
  off : Nat
  lock : Bool
  pin : Bool
  deriving DecidableEq, Repr

/-- R91's figures of a record. -/
def recTimes (r : Rec) : RecTimes :=
  ⟨ceilDiv (recSt r) 128, recIi r, recTail r, recOff r, recLock r, recPin r⟩

/-- The lengths of the lock group that starts at hoist h0 (R89): LOCK joins a stripe to its upstream neighbour within the
run's range. -/
def groupLen (tm : Nat → RecTimes) (r : Run) (h0 : Nat) : Nat → Nat
  | 0 => 0
  | fuel + 1 =>
    let h := h0 + 1
    if h < r.total ∧ h % max r.nv 1 ≠ 0 ∧ (tm (r.first + h % max r.nv 1)).lock then 1 + groupLen tm r h fuel else 1

/-- The free time of a hoist, 0 before hoist 0. -/
def freeOf (log : List HoistLog) (h : Nat) : Nat := (log.find? fun x => x.h == h).elim 0 (·.free)

/-- `hb` and `ready` of hoists h .. h + m - 1 (R91). -/
def beginTimes (tm : Nat → RecTimes) (r : Run) (p a : Nat) (log : List HoistLog) (h : Nat) (prev : Option (Nat × Nat)) :
    Nat → List (Nat × Nat × Nat)
  | 0 => []
  | m + 1 =>
    let t := tm (r.first + h % max r.nv 1)
    let hb0 := match prev with
      | none => a
      | some (hb, cost) => hb + cost
    let hb1 := if !r.res && decide (p ≤ h) then max hb0 (freeOf log (h - p)) else hb0
    let hb := if !r.res && decide (r.nv ≤ h) then max hb1 (freeOf log (h - r.nv)) else hb1
    (h, hb, hb + 1 + t.save) :: beginTimes tm r p a log (h + 1) (some (hb, 1 + t.save)) m

/-- Sums of OFF over the members of a group after its first. -/
def offSums (tm : Nat → RecTimes) (r : Run) (acc : Nat) : List (Nat × Nat × Nat) → List Nat
  | [] => []
  | x :: l =>
    let a := acc + (tm (r.first + x.1 % max r.nv 1)).off
    a :: offSums tm r a l

/-- The next lock group's hoists with all their times (R91): `p` is P and `lam` the live stripe of a hoist. -/
def nextGroup (tm : Nat → RecTimes) (r : Run) (p a : Nat) (lam : Nat → Nat) (log : List HoistLog) : List HoistLog :=
  let h0 := log.length
  let m := groupLen tm r h0 1024
  let last := log.getLast?
  let t0 := tm (r.first + h0 % max r.nv 1)
  let bt := beginTimes tm r p a log h0 (last.map fun x => (x.hb, x.ready - x.hb)) m
  let sums := 0 :: offSums tm r 0 (bt.drop 1)
  let s0 := (bt.head?.map fun x => x.2.2).getD 0
  let s1 := match last with
    | none => s0
    | some x =>
      let s := max s0 (x.start + t0.off)
      if t0.pin then max s x.free else s
  let s := (bt.zip sums).foldl (fun s x => max s (x.1.2.2 - x.2)) s1
  (bt.zip sums).map fun x =>
    let vs := r.first + x.1.1 % max r.nv 1
    let t := tm vs
    let start := s + x.2
    let strike := start + (if r.res then r.w * r.b else r.b) * t.ii + t.tail
    { h := x.1.1, vs := vs, ps := lam x.1.1, hb := x.1.2.1, ready := x.1.2.2, start := start, strike := strike,
      free := strike + t.save, freed := false }

/-- The hoist log extended, at most `n` groups, until it holds a hoist that has not begun. -/
def growLog (tm : Nat → RecTimes) (r : Run) (p a : Nat) (lam : Nat → Nat) (next : Nat) :
    Nat → List HoistLog → List HoistLog
  | 0, log => log
  | n + 1, log =>
    if log.length ≤ next ∧ log.length < r.limit then
      growLog tm r p a lam next n (log ++ nextGroup tm r p a lam log)
    else log

/-- Whether a run of NV stripes from F is resident (R90). -/
def runResident (s : State) (g first nv : Nat) : Bool :=
  decide (nv ≤ (s.ring g).budget) && !((List.range nv).any fun i => recPin (recHeader s g (first + i)))

/-- The times of the hoists up to the next one made known. -/
def knowTimes (s : State) (g : Nat) : State :=
  let c := s.ctx g
  match c.armedRun with
  | some r =>
    match r.arm with
    | some a =>
      s.onCtx g fun c =>
        { c with
          hlog := growLog (fun n => recTimes (recHeader s g n)) r (s.ring g).budget a (s.ring g).lam c.hoistNext 4 c.hlog }
    | none => s
  | none => s

/-! ### Arming (R161) -/

/-- Every open stream whose stripe lies in the range of a run just posted or armed follows it from its first hoist (R95); one that
follows it already goes on. -/
def followRun (c : Ctx) (r : Run) : Ctx :=
  { c with
    streams := c.streams.map fun e =>
      if e.2.isOpen ∧ e.2.run ≠ some r.id ∧ r.first ≤ e.2.vs ∧ e.2.vs < r.first + r.nv then
        (e.1, { e.2 with run := some r.id, hoist := e.2.vs - r.first, waveLeft := sdWavew e.2.desc })
      else e }

/-- The posted run armed at the present TC: `sl0` and `sl3` cleared (R110), and with W = 0 the run is over. Streams opened since
its post follow it (R95), and its step is the one a drain record names (R349). -/
def armRun (s : State) (g : Nat) : State :=
  let c := s.ctx g
  match c.runs.find? fun r => r.arm.isNone && !r.done with
  | none => s
  | some r =>
    let s := s.onCtx g fun c =>
      ({ followRun c r with
        hlog := [], hoistNext := 0, waves := 0, hoisting := none, runSi := some r.si, audState := [], audFlags := [], audHoist := [], audIn := [],
        audOut := c.audOut.filter fun x => s.hub.audlogs.any fun e => !e.2.whole && e.2.ctx == c.id && e.2.run == x.1 }.setRun
        { r with arm := some c.tc, done := r.total == 0 }).setLine 0 (r.total == 0) |>.setLine 3 false
    s.onCtx g fun c => if r.total = 0 then c else c.wantRecord r.first

/-! ### Save slots (R94, R122) -/

/-- 128-byte words of a state map entry in each column it names. -/
def mapWords (e : BitVec 32) : Nat :=
  if bits e 6 3 = 5 then 0
  else if bits e 6 3 = 7 then (if bits e 0 6 < 4 then 8 else if bits e 0 6 = 6 then 24 else 1)
  else 1

/-- The state map entries that name column k, in order. -/
def mapOf (r : Rec) (k : Nat) : List (BitVec 32) := r.smap.filter fun e => bit e (16 + k)

/-- Bytes of column k's block in a slot (R122). -/
def blockLen (r : Rec) (k : Nat) : Nat :=
  let m := mapOf r k
  if m.isEmpty then 0 else 128 * (1 + (m.map mapWords).sum)

/-- Where the slot of stripe n starts (R94). -/
def slotBase (s : State) (g n : Nat) : Nat :=
  ((List.range n).map fun m => 128 * ceilDiv (recSt (recHeader s g m)) 128).sum

/-- OVFP (R343). -/
def overflowBase (b : BindRecord) : Nat := bindSave b + 4784128 + (bindFoot b + bindCsa b) * 65536

/-- A byte of the stripe save area (R94). -/
def saveByte (s : State) (g o : Nat) : Byte :=
  let b := (s.ctx g).bind
  let c := bindCsa b * 65536
  if o < c then (s.ring g).spad.read (33554432 - c + o) else s.mem.read (overflowBase b + (o - c))

/-- Bytes of the stripe save area from offset `o`. -/
def saveBytes (s : State) (g o n : Nat) : List Byte := (List.range n).map fun i => saveByte s g (o + i)

/-- The log of the wave that the context of ring g replays, if Eosen has bound it to replay one (R367). -/
def replayLog (s : State) (g : Nat) : Option AuditLog :=
  match (s.ctx g).replay with
  | none => none
  | some slot => (s.hub.audlogs.find? fun e => e.1 == slot).map Prod.snd

/-- What the log holds of the hoist that stands at place `h` of the wave that ring g replays: the replay runs the one wave. -/
def replayNote (s : State) (g h : Nat) : Option HoistNote :=
  (replayLog s g).bind fun a => a.notes.find? fun n => n.h % max a.nv 1 == h

/-- Whether a byte of the overflow region in a range awaits a save not yet performed (R94). -/
def savePending (s : State) (g o n : Nat) : Bool :=
  let b := (s.ctx g).bind
  let c := bindCsa b * 65536
  s.reqs.any fun q => q.ring == g && q.ctx == (s.ctx g).id && q.purpose == .overflowSave && q.done.isNone &&
    q.parts.any fun p => decide (p.place.addr < overflowBase b + (o + n - c)) &&
      decide (overflowBase b + (o - c) < p.place.addr + p.bytes.length) && decide (c < o + n)

/-- Whether a byte of the stripe save area from offset `o` is delivered poisoned (R354). -/
def savePoisoned (s : State) (g o n : Nat) : Bool :=
  let b := (s.ctx g).bind
  let c := bindCsa b * 65536
  !((s.ring g).spoison.isEmpty && s.poison.isEmpty) &&
    (List.range n).any fun i =>
      if o + i < c then (s.ring g).spoison.contains ((33554432 - c + o + i) / 16)
      else s.poison.contains ((overflowBase b + (o + i - c)) / 64)

/-- Bytes written to the stripe save area: the carve-out at once, the overflow as writes of the scroll controller. -/
def writeSave (s : State) (g o : Nat) (bs : List Byte) : State :=
  let b := (s.ctx g).bind
  let c := bindCsa b * 65536
  let inSpad := bs.take (c - o)
  let rest := bs.drop (c - o)
  let s := s.onRing g fun r =>
    inSpad.zipIdx.foldl (fun r x =>
      let a := 33554432 - c + o + x.2
      r.spadPut (a / Config.blockBytes) (a % Config.blockBytes) false x.1) r
  if rest.isEmpty then s
  else issueReq s g .scroll .write [.new (.phys (overflowBase b + (max o c - c))) rest] 0 .overflowSave

/-- One state map entry of an element as the bytes of its words and, for a vector or predicate, its field. The cells of a bank lie row by
row, and the sixteen entries of a checksum vector fill the low half of their word, with zeros above (log 126). -/
def saveEntry (x : Element) (e : BitVec 32) : List Byte × Option W32 :=
  let n := bits e 0 6
  match bits e 6 3 with
  | 0 => let q := (n + x.rbIn.toNat) % 64; (vecBytes (tget x.v q Vec.zero), some (tget x.vt q 0))
  | 1 => (vecBytes (tget x.x n Vec.zero), some (tget x.xt n 0))
  | 5 => ([], some (tget x.p n 0))
  | _ =>
    if n < 4 then ((List.range 256).flatMap fun i => bytesOf (x.accCell n (i / 16) (i % 16)), none)
    else if n = 6 then (x.xaBytes, none)
    else if n < 12 then ((List.range 32).flatMap fun i => if i < 16 then bytesOf (x.ckrAt (n - 8) i) else leBytes 4 0, none)
    else ((List.range 32).flatMap fun i => if i < 16 then bytesOf (x.ckcAt (n - 12) i) else leBytes 4 0, none)

/-- The block of an element (R122): control word, then the entries' words. -/
def saveBlock (x : Element) (m : List (BitVec 32)) : List Byte :=
  let es := m.map (saveEntry x)
  let fields := es.filterMap (·.2)
  [BitVec.ofNat 8 x.rbIn.toNat, 0, 0, 0] ++ leBytes 4 (x.lexp % 4294967296).toNat ++
    ((List.range 30).flatMap fun i => leBytes 4 (fields.getD i 0).toNat) ++ es.flatMap (·.1)

/-- One state map entry restored from its words and the next unused field (R92, R122). -/
def loadEntry (x : Element) (e : BitVec 32) (bs : List Byte) (f : W32) (l : Int) : Element :=
  let n := bits e 0 6
  match bits e 6 3 with
  | 0 => let q := x.phys n; { x with v := tset x.v q (vecOfBytes bs), vt := tset x.vt q f }
  | 1 => { x with x := tset x.x n (vecOfBytes bs), xt := tset x.xt n f }
  | 5 => { x with p := tset x.p n f }
  | _ =>
    if n < 4 then { x with acc := tsetList x.acc (256 * n) ((wordsOf 4 256 bs).map (BitVec.ofNat 32)) }
    else if n = 6 then { x with xa := tsetList x.xa 0 (xaOfBytes bs), lexp := l }
    else if n < 12 then { x with ckr := tsetList x.ckr (16 * (n - 8)) ((wordsOf 4 16 bs).map (BitVec.ofNat 32)) }
    else { x with ckc := tsetList x.ckc (16 * (n - 12)) ((wordsOf 4 16 bs).map (BitVec.ofNat 32)) }

/-- The entries of a block restored in order: `bs` the words left, `fs` the fields left. -/
def loadEntries (x : Element) (l : Int) : List (BitVec 32) → List Byte → List W32 → Element
  | [], _, _ => x
  | e :: m, bs, fs =>
    let n := 128 * mapWords e
    let named := bits e 6 3 != 7
    loadEntries (loadEntry x e (bs.take n) (fs.headD 0) l) l m (bs.drop n) (if named then fs.drop 1 else fs)

/-- An element at a hoist (R92, R195, R250): everything the state map does not name is zero; pass registers and results
under way of other stripes are kept. -/
def hoistElement (x : Element) (m : List (BitVec 32)) (bs : List Byte) : Element :=
  let x0 : Element := { Element.reset with po := x.po, pot := x.pot, flags := x.flags, flagsNew := x.flagsNew, pend := x.pend }
  if m.isEmpty then x0
  else
    let rb : BitVec 6 := BitVec.ofNat 6 (leNat (bs.take 1))
    loadEntries { x0 with rb := rb, rbIn := rb } (toSigned 32 (leNat ((bs.drop 4).take 4))) m (bs.drop 128)
      ((wordsOf 4 30 (bs.drop 8)).map (BitVec.ofNat 32))

/-- The elements of a stripe at a hoist, column by column, with the slot's bytes still to be used. -/
def hoistElements (r : Rec) (x : Stripe) (bs : List Byte) : Nat → Stripe
  | 0 => x
  | n + 1 =>
    let k := 8 - (n + 1)
    let x := x.setElem k (hoistElement (x.elem k) (mapOf r k) (bs.take (blockLen r k)))
    hoistElements r x (bs.drop (blockLen r k)) n

/-! ### Hoists, strikes and frees -/

/-- The next hoist when its time has come (R91). -/
def hoistDue (c : Ctx) : Option HoistLog :=
  match c.armedRun with
  | some r => if c.hoistNext < r.limit then (c.hlog.find? fun x => x.h == c.hoistNext && decide (x.hb ≤ c.tc)) else none
  | none => none

/-- A fault record whose address is virtual, with the region of the address and the generation that an access to it carries (R350). -/
def FaultRec.virt (s : State) (f : FaultRec) : FaultRec :=
  let r := regionOf f.addr.toNat
  { f with region := r, gen := generation s (dieOf f.ring) f.asid r }

/-- An image fault at a hoist (R96): the stripe is left unhoisted and FAIL is set. The scroll controller is the issuer, and a failing
page is a virtual address (R350). -/
def hoistFail (s : State) (g vs ps code page : Nat) : State :=
  let f := { faultAt s g 4 code 0 (BitVec.ofNat 64 page) with locStripe := true, si := 0, vs := vs, pstr := ps, issuer := 50 }
  takeFault (s.onRing g fun r => { r with scrf := setBits r.scrf 17 1 1 }) g (if code = 15 then f.virt s else f)

/-- Instances of a hoist of a run made now (R22): B, or W x B in resident mode, in which none enters after a `park` (R163). -/
def runCount (r : Run) : Nat := if r.res then (if r.parkAt.isSome then 0 else r.w * r.b) else r.b

/-- The bytes of the register that an operand names in an element, tag or field included, a pass register read being that of the upstream
element `u` (R70); none for what is no register, and for what other elements supply. -/
def sourceBytes (x u : Element) (o : Opnd) : List Byte :=
  match o with
  | .v n => vecBytes (tget x.v (x.phys n.val) Vec.zero) ++ bytesOf (tget x.vt (x.phys n.val) 0)
  | .x n => vecBytes (tget x.x n.val Vec.zero) ++ bytesOf (tget x.xt n.val 0)
  | .pred n => bytesOf (tget x.p n.val 0)
  | .port (.pi n) => vecBytes (tget u.po n.val Vec.zero) ++ bytesOf (tget u.pot n.val 0)
  | _ => []

/-- The sources that the auditor's log takes of an element at a hoist, in their order (R365): its predicates, then every register that a row
of the record names, whether or not the record has written it before. -/
def noteSources (rc : Rec) : List Opnd :=
  let rows := rc.slots.filterMap fun w => match decodeRow (slotRow w) with
    | .ok i => i.row?
    | .error _ => none
  ((List.range 7).map fun i => Opnd.pred (Fin.ofNat 8 (i + 1))) ++ rows.flatMap fun w => [w.sa, w.sb, w.sc]

/-- What the auditor's log takes from a hoist (R365): the elements as they stand at it. -/
def hearHoist (c : Ctx) (h n : Nat) (rc : Rec) (r : Ring) (ps : Nat) (restored : List Byte) : Ctx :=
  if hdrElig c.hdr then
    let regs := (List.range 8).flatMap fun k =>
      (noteSources rc).flatMap (sourceBytes ((r.stripe ps).elem k) ((r.stripe (r.upstream ps)).elem k))
    { c with
      audHoist := c.audHoist ++
        [⟨h, n, (List.range 8).map fun k => ((r.stripe ps).elem k).lexp, (List.range 8).map c.fslot, regs, restored⟩] }
  else c

/-- The bytes of a source put back, into its element or, a pass register read, into the upstream element `u` (R367). -/
def putSource (x u : Element) (o : Opnd) (bs : List Byte) : Element × Element :=
  let v := vecOfBytes (bs.take 128)
  let t : W32 := BitVec.ofNat 32 (leNat (bs.drop 128))
  match o with
  | .v n => ({ x with v := tset x.v (x.phys n.val) v, vt := tset x.vt (x.phys n.val) t }, u)
  | .x n => ({ x with x := tset x.x n.val v, xt := tset x.xt n.val t }, u)
  | .pred n => ({ x with p := tset x.p n.val (BitVec.ofNat 32 (leNat bs)) }, u)
  | .port (.pi n) => (x, { u with po := tset u.po n.val v, pot := tset u.pot n.val t })
  | _ => (x, u)

/-- The values of a hoist that the log holds put back into the stripe of its replay (R367). The pass registers read are put back for the
first hoist of the wave; those of the others come from the stripe that the replay runs upstream of them (log 125). -/
def putNote (r : Ring) (ps : Nat) (rc : Rec) (first : Bool) (m : HoistNote) : Ring :=
  ((List.range 8).foldl (fun (y : Ring × List Byte) k =>
    let y := (noteSources rc).foldl (fun (y : Ring × List Byte) o =>
      let up := y.1.upstream ps
      let x := (y.1.stripe ps).elem k
      let u := (y.1.stripe up).elem k
      let len := (sourceBytes x u o).length
      let z := putSource x u o (y.2.take len)
      let r := y.1.onElem ps k fun _ => z.1
      (if first then r.onElem up k fun _ => z.2 else r, y.2.drop len)) y
    (y.1.onElem ps k fun e => { e with lexp := m.weights.getD k 0 }, y.2)) (r, m.regs)).1

/-- The hoist begun (R92): the stripe is its occupant's, its record has been taken from the cache, the hoist is under way for its cost
(R91), and the record of the next hoist is requested. A replay admits the instances that its log names (R367).
The stripe's previous contents stay in force until the hoist is complete. -/
def makeHoist (s : State) (g : Nat) (r : Run) (x : HoistLog) (rc : Rec) : State :=
  let note := replayNote s g x.h
  let first := note.elim (!(s.ctx g).hoisted.contains x.vs) fun m => m.restored.isEmpty
  let s := s.onRing g fun ring =>
    ring.setStripe x.ps { ring.stripe x.ps with occ := some ⟨x.h, x.vs, x.start, note.elim (runCount r) HoistNote.n, false⟩ }
  s.onCtx g fun c =>
    let c := { c with
      hoistNext := c.hoistNext + 1, hoisting := some ⟨x.h, x.vs, x.ps, x.ready - x.hb, rc, first, []⟩,
      hoisted := if first then x.vs :: c.hoisted else c.hoisted,
      cacheUse := tset c.cacheUse x.vs (c.cacheNo + 1), cacheNo := c.cacheNo + 1 }
    if c.hoistNext < r.limit then c.wantRecord (r.first + c.hoistNext % max r.nv 1) else c

/-- The offset in the stripe save area and the length of the word that a hoist under way restores in its next cycle, none when it
restores no more. -/
def restorePart (s : State) (g : Nat) (x : HoistRun) : Option (Nat × Nat) :=
  if x.left ≤ 1 then none else some (slotBase s g x.vs + x.got.length, min 128 (recSt x.rc - x.got.length))

/-- A restore that has reached bytes whose save has not been performed holds the ring as a configuration cache miss (R94). -/
def restoreWaits (s : State) (g : Nat) : Bool :=
  match (s.ctx g).hoisting with
  | some x => !x.first && (s.ctx g).replay.isNone && (restorePart s g x).any fun p => savePending s g p.1 p.2
  | none => false

/-- Whether a restore has reached bytes of the slot that hold an uncorrectable error (R96, R354). -/
def restoreBad (s : State) (g : Nat) : Bool :=
  match (s.ctx g).hoisting with
  | some x => !x.first && (s.ctx g).replay.isNone && (restorePart s g x).any fun p => savePoisoned s g p.1 p.2
  | none => false

/-- A hoist under way that met an uncorrectable error given up: the stripe is left unhoisted (R96). -/
def restoreFails (s : State) (g : Nat) : State :=
  match (s.ctx g).hoisting with
  | some x =>
    hoistFail ((s.onRing g fun r => r.setStripe x.ps { r.stripe x.ps with occ := none }).onCtx g fun c => { c with hoisting := none })
      g x.vs x.ps 17 0
  | none => s

/-- The hoist complete: the configuration goes live whole, the state is restored or zeroed, and SCRF and the count of R321 move (R92, R96);
in a replay the values that the log holds are put back (R367). -/
def hoistDone (s : State) (g : Nat) (x : HoistRun) : State :=
  let note := replayNote s g x.h
  let s := s.onRing g fun r =>
    { r.setStripe x.ps (hoistElements x.rc { r.stripe x.ps with record := some x.rc } x.got 8) with
      scrf := packBits 64 [(32, 32, x.h), (22, 10, x.vs), (18, 4, x.ps)] }
  let s := match note with
    | some m => s.onRing g fun r => putNote r x.ps x.rc (x.h == 0) m
    | none => s
  s.onCtx g fun c =>
    { hearHoist c x.h (((s.ring g).stripe x.ps).occ.elim 0 (·.n)) x.rc (s.ring g) x.ps (if x.first then [] else x.got) with
      hoisting := none }.addEv 7 1

/-- Bytes of the slot that a hoist under way restores: those of the save area, or in a replay those that the log holds (R92, R367). -/
def restoreBytes (s : State) (g : Nat) (x : HoistRun) (o n : Nat) : List Byte :=
  match replayNote s g x.h with
  | some m => (m.restored.drop x.got.length).take n
  | none => saveBytes s g o n

/-- A ring cycle of a hoist under way, held or not (R30): 128 bytes of the slot are restored, or zeros in the same time, until its
cost has passed (R92). -/
def hoistCycle (s : State) (g : Nat) : State :=
  match (s.ctx g).hoisting with
  | none => s
  | some x =>
    match restorePart s g x with
    | none => hoistDone s g x
    | some (o, n) =>
      if restoreWaits s g || restoreBad s g then s
      else
        let bs := if x.first then List.replicate n 0 else restoreBytes s g x o n
        s.onCtx g fun c => { c with hoisting := some { x with left := x.left - 1, got := x.got ++ bs } }

/-- HOIST (R92, R96): the hoist whose time has come. An absent record holds the ring with cause 3; a record that failed its fetch,
or a virtual stripe at or beyond V, raises the image fault. -/
def hoistEvent (s : State) (g : Nat) : Option State :=
  let c := s.ctx g
  match hoistDue c, c.armedRun with
  | some x, some r =>
    if hdrV c.hdr ≤ x.vs then some (hoistFail s g x.vs x.ps 19 x.vs)
    else
      match c.fetchBad.find? fun e => e.1 == x.vs with
      | some (_, v) => some (hoistFail s g x.vs x.ps (v % 256) (v / 256))
      | none =>
        match c.cache.find? fun e => e.1 == x.vs with
        | none => some (askHold (s.onCtx g fun c => c.wantRecord x.vs) g 3)
        | some (_, rc) => some (makeHoist s g r x rc)
  | _, _ => none

/-- HOIST. -/
def execHoist (g : Nat) (s : State) : Host.Outcome State Fault Refusal :=
  match hoistEvent (knowTimes s g) g with
  | some t => .next t
  | none => .refused .notDue

/-- The wave of a hoist of a run; a resident run is one wave (R90, R364). -/
def waveOf (r : Run) (h : Nat) : Nat := if r.res then 0 else h / max r.nv 1

/-- What the auditor's signature takes from a strike (R366), kept for an image that the auditor may sample; and the instances that have
entered, which a park may have made fewer. -/
def hearStrike (c : Ctx) (h n : Nat) (saved : List Byte) (flags : W32) : Ctx :=
  match hdrElig c.hdr, c.armedRun with
  | true, some r =>
    let w := waveOf r h
    { c with
      audState := if saved.isEmpty then c.audState else c.audState ++ [(h, saved)],
      audHoist := c.audHoist.map fun m => if m.h = h then { m with n := n } else m,
      audFlags := tset c.audFlags w (tget c.audFlags w 0 ||| flags) }
  | _, _ => c

/-- The next 128 bytes that a struck stripe has to save written to its slot (R93); a replay writes no memory (R367). -/
def writeNext (s : State) (g ps : Nat) : State :=
  let st := (s.ring g).stripe ps
  if st.saveLeft.isEmpty then s
  else
    (if (s.ctx g).replay.isSome then s else writeSave s g st.saveAt (st.saveLeft.take 128)).onRing g fun r =>
      r.setStripe ps { r.stripe ps with saveAt := st.saveAt + 128, saveLeft := st.saveLeft.drop 128 }

/-- A ring cycle of the saves under way, which a hold does not stop (R30 names what it stops): 128 bytes of each (R93). -/
def writeCycle (s : State) (g : Nat) : State := (List.range 16).foldl (fun s ps => writeNext s g ps) s

/-- STRIKE (R93, R51): what the state map names begins to be saved, 128 bytes a cycle from this one on, and the flags are ORed into the
context's and cleared. An unwinding context saves nothing (R316). -/
def strikeStripe (s : State) (g ps : Nat) (o : Occupant) (rc : Rec) : State :=
  let st := (s.ring g).stripe ps
  let blocks := (List.range 8).flatMap fun k => if (mapOf rc k).isEmpty then [] else saveBlock (st.elem k) (mapOf rc k)
  let flags := (List.range 8).foldl (fun a k => a ||| (st.elem k).flags ||| (st.elem k).flagsNew) 0
  let none_ := recSt rc = 0 ∨ (s.ctx g).unwinding.isSome
  let s := (s.onRing g fun r =>
    let st := (List.range 8).foldl (fun (st : Stripe) k => st.setElem k { st.elem k with flags := 0, flagsNew := 0 }) (r.stripe ps)
    r.setStripe ps
      { st with
        occ := some { o with struck := true }, saveAt := slotBase s g o.vs, saveLeft := if none_ then [] else blocks }).onCtx g fun c =>
      hearStrike { c with flagw := c.flagw ||| flags } o.h o.n (if recSt rc = 0 then [] else blocks) flags
  writeNext s g ps

/-- The log entry of the occupant of a physical stripe. -/
def occLog (s : State) (g ps : Nat) : Option (Occupant × HoistLog × Rec) :=
  let st := (s.ring g).stripe ps
  match st.occ, st.record with
  | some o, some rc => ((s.ctx g).hlog.find? fun x => x.h == o.h).map fun x => (o, x, rc)
  | _, _ => none

/-- STRIKE. -/
def execStrike (g ps : Nat) (s : State) : Host.Outcome State Fault Refusal :=
  match occLog s g ps with
  | some (o, x, rc) =>
    if !o.struck ∧ x.strike ≤ (s.ctx g).tc then .next (strikeStripe s g ps o rc) else .refused .notDue
  | none => .refused .notDue

/-- Whether every hoist of [lo, hi) has been freed. -/
def allFreed (log : List HoistLog) (lo hi : Nat) : Bool :=
  (List.range (hi - lo)).all fun i => log.any fun x => x.h == lo + i && x.freed

/-- A command of the start queue that names a hoist of run `id` that will not occur (R143). -/
def Posted.orphan (p : Posted) (id limit : Nat) : Bool := p.hoist.any fun x => x.1 == id && decide (limit ≤ x.2)

/-- The effect of dropping a command on its context (R143): a dropped copy or collective releases its token count. -/
def dropCommand (c : Ctx) : Command → Ctx
  | .copy r _ => c.setTok (trTok r) (c.token (trTok r) - 1)
  | .coll d _ => c.setTok (cdTok d) (c.token (cdTok d) - 1)
  | _ => c

/-- Commands of the start queue that satisfy a test dropped. -/
def dropCommands (c : Ctx) (f : Posted → Bool) : Ctx :=
  (c.startq.filter f).foldl (fun c p => dropCommand c p.cmd) { c with startq := c.startq.filter fun p => !f p }

/-- The run over when its hoists are all freed (R162, R163): `sl0`, and for a parked one `sl3` and the dropping of R143. -/
def endRun (c : Ctx) (r : Run) : Ctx :=
  if r.done ∨ !allFreed c.hlog 0 r.limit then c
  else
    let c := c.setRun { r with done := true, parked := r.parkAt.isSome }
    let c := if r.limit = r.total then c.setLine 0 true else c
    if r.parkAt.isSome then dropCommands (c.setLine 3 true) fun p => p.orphan r.id r.limit else c

/-- One step of the auditor's Galois LFSR (R363): x^32 + x^22 + x^2 + x + 1. -/
def lfsrStep (x : BitVec 32) : BitVec 32 := if bit x 0 then (x >>> 1) ^^^ 0x80200003 else x >>> 1

/-- STRIPE_FREE without the auditor: the stripe is free, a complete wave sets `sl1`, a complete run ends; a resident run is one wave (R364).
Answers the number of the wave it completed, if any. -/
def freeStripe (s : State) (g : Nat) (x : HoistLog) : State × Option Nat :=
  let s := s.onRing g fun r =>
    let st := r.stripe x.ps
    if st.occ.any fun o => o.h == x.h then r.setStripe x.ps { st with occ := none } else r
  let s := s.onCtx g fun c => { c with hlog := c.hlog.map fun y => if y.h = x.h then { y with freed := true } else y }
  let c := s.ctx g
  match c.armedRun with
  | none => (s, none)
  | some r =>
    let w := x.h / max r.nv 1
    let wave := !r.res && allFreed c.hlog (w * r.nv) ((w + 1) * r.nv)
    let s := if wave then s.onCtx g fun c => { c with waves := c.waves + 1 }.setLine 1 true else s
    let s := s.onCtx g fun c => endRun c r
    let whole := r.res && (s.ctx g).armedRun != some r && r.limit == r.total
    (if whole then s.onCtx g fun c => { c with waves := c.waves + 1 } else s, if wave then some w else if whole then some 0 else none)

/-- The hoist whose save ends now, if h is one. -/
def freeDue (s : State) (g h : Nat) : Option HoistLog :=
  let c := s.ctx g
  c.hlog.find? fun x => x.h == h && !x.freed && decide (x.free ≤ c.tc) &&
    (((s.ring g).stripe x.ps).occ.any fun o => o.h == h && o.struck)

/-! ### Park (R163) -/

/-- The new strike of a hoisted stripe of a parked resident run, with its instances. -/
def parkHoist (tm : RecTimes) (r : Run) (tc : Nat) (x : HoistLog) : HoistLog × Nat :=
  let n := if tc < x.start then 0 else min (r.w * r.b) ((tc - x.start) / max tm.ii 1 + 1)
  let strike := if n = 0 then max (tc + 1) x.ready else x.start + n * tm.ii + tm.tail
  ({ x with strike := strike, free := strike + tm.save }, n)

/-- How many hoists of the armed run have begun by a cycle (R91): those made, and the next when its time has come. -/
def begunHoists (c : Ctx) (tc : Nat) : Nat :=
  c.hoistNext + (if c.hlog.any fun x => x.h == c.hoistNext && decide (x.hb ≤ tc) then 1 else 0)

/-- `park` applied to the armed run. -/
def parkRun (s : State) (g : Nat) : State :=
  let s := knowTimes s g
  let c := s.ctx g
  match c.armedRun with
  | none => s.onCtx g fun c => c.setLine 3 true
  | some r =>
    if r.parkAt.isSome then s
    else
      let begun := begunHoists c c.tc
      let limit := min r.limit (if r.res then begun else ceilDiv begun (max r.nv 1) * r.nv)
      let r' := { r with parkAt := some c.tc, limit := limit }
      let s :=
        if r.res then
          (c.hlog.filter fun x => x.h < limit && !x.freed).foldl (fun s x =>
            let y := parkHoist (recTimes (recHeader s g x.vs)) r c.tc x
            (s.onCtx g fun c => { c with hlog := c.hlog.map fun z => if z.h = x.h then y.1 else z }).onRing g fun ring =>
              let st := ring.stripe x.ps
              match st.occ with
              | some o => if o.h = x.h ∧ !o.struck then ring.setStripe x.ps { st with occ := some { o with n := y.2 } } else ring
              | none => ring) s
        else s
      s.onCtx g fun c => endRun (c.setRun r') r'

end Sys2Proof.Machine
end

