-- ==== Sys2Proof/Machine/Streams.lean ====
section
/-!
DEFINITION. Streams (spec/09 R166 to R176, spec/05 R82 to R84 and R95): what `sopen` checks, the visits of a stream,
segment framing and bridges, and closing.
-/

namespace Sys2Proof.Machine

open Sys2Proof

/-! ### Descriptors (R167, R168) -/

/-- The byte range of an affine pattern (R169), lowest and highest. -/
def affineRange (d : StreamDesc) : Int × Int :=
  (List.range 4).foldl (fun x i =>
    let t := ((sdC d i : Int) - 1) * sdS d i
    (x.1 + min 0 t, x.2 + max 0 t)) ((sdBase d : Int), (sdBase d : Int) + 127)

/-- The faults of R168 that rest on the descriptor and the port alone. -/
def descBad (d : StreamDesc) (out : Bool) : Bool :=
  let sp := sdSpace d
  let strides := (List.range 4).map (sdS d)
  bits d 0 92 != 0 || bits d 100 4 != 0 || decide (10 ≤ sdAtom d) || decide (2 ≤ sdFrame d) || decide (2 ≤ sdMode d) ||
    sp == 3 || (sdLayout d && sp != 1) || decide (65536 < sdRl d) ||
    (sp != 2 && (sdBase d % 128 != 0 || strides.any fun x => x % 128 != 0)) ||
    (sp != 2 && (List.range 4).any fun i => sdC d i == 0) ||
    (sp == 2 && ((List.range 4).any (fun i => sdC d i != 0) || strides.any (fun x => x != 0) || sdMode d == 1 ||
      sdFrame d == 0 || sdAtom d != 0 || sdBase d % pow2 47 != 0)) ||
    (sp == 1 && sdMode d == 0 && (decide ((affineRange d).1 < 0) || decide (33554432 ≤ (affineRange d).2))) ||
    (sp == 1 && sdMode d == 1 && decide (33554432 ≤ sdBase d)) ||
    (sdMode d == 1 && (sdC d 1 != 1 || sdC d 2 != 1 || sdC d 3 != 1 || strides.any fun x => x != 0)) ||
    (sdAtom d != 0 && (!out || sdFrame d == 1))

/-- The faults of R168 that rest on the streams and queues of the context in the cycle the command begins. -/
def openBad (s : State) (g n vs : Nat) (out : Bool) (q : Nat) (d : StreamDesc) : Bool :=
  let c := s.ctx g
  (c.stream n).isOpen || (c.streams.any fun e => e.2.isOpen && e.2.vs == vs && e.2.out == out && e.2.q == q) ||
    (match (s.ring g).queue q with
    | none => true
    | some k => k.tile && (sdFrame d == 1 || sdAtom d != 0))

/-- The count of `spos` (R176): as the cycle began, before an opening that falls in it. -/
def Ctx.position (c : Ctx) (n : Nat) : Nat :=
  let x := c.stream n
  if x.openTc = c.tc then x.before else x.moved

/-- `sopen` in the cycle its command begins: the stream opens, or the step-operand fault of R168 falls on its step. -/
def beginSopen (s : State) (g si req n vs : Nat) (out : Bool) (q : Nat) (d : StreamDesc) : State :=
  if openBad s g n vs out q d then takeFault s g { faultAt s g 1 9 0 0 with si := si }
  else
    s.onCtx g fun c =>
      c.setStream n
        { Stream.reset with
          isOpen := true, desc := d, vs := vs, out := out, q := q, post := req, openTc := c.tc, before := c.position n }

/-- The run a stream follows. -/
def streamRun (c : Ctx) (x : Stream) : Option Run :=
  match x.run with
  | some id => c.runs.find? fun r => r.id == id
  | none => none

/-- Visits of a whole pattern (R169). -/
def totalVisits (d : StreamDesc) : Nat := sdC d 0 * sdC d 1 * sdC d 2 * sdC d 3

/-- The address of visit k (R169), i0 fastest. -/
def visitAddr (d : StreamDesc) (k : Nat) : Nat :=
  let i0 := k % max (sdC d 0) 1
  let k1 := k / max (sdC d 0) 1
  let i1 := k1 % max (sdC d 1) 1
  let k2 := k1 / max (sdC d 1) 1
  let i2 := k2 % max (sdC d 2) 1
  let i3 := k2 / max (sdC d 2) 1
  (((sdBase d : Int) + i0 * sdS d 0 + i1 * sdS d 1 + i2 * sdS d 2 + i3 * sdS d 3) % (pow2 64 : Int)).toNat

/-- A place of a stream at a byte address: virtual, modulo 2^56 (log 71), or the own scratchpad (R167). -/
def streamPlace (g : Nat) (d : StreamDesc) (a : Nat) : Place :=
  if sdSpace d = 1 then .spad g (a % 33554432) (sdLayout d) else .virt (a % pow2 56)

/-- Requests of stream n still listed, in order of issue. -/
def streamReqs (s : State) (g n : Nat) : List Req :=
  s.reqs.filter fun q => q.ring == g && q.ctx == (s.ctx g).id && q.party == .stream n

/-- Reads of stream n issued and not delivered. -/
def readsOut (s : State) (g n : Nat) : List Req :=
  (streamReqs s g n).filter fun q => q.kind == .read

/-- A stream as its delivered words leave it (R314): the visits made for words that have not been delivered, and the address words they
took, still to come. -/
def deliveredStream (s : State) (g n : Nat) : Stream :=
  let x := (s.ctx g).stream n
  let out := readsOut s g n
  let back : List (Vec × W32 × Nat) := out.filterMap fun q => match q.purpose with
    | .streamGather _ _ mask a => some (a, mask, 0)
    | _ => none
  { x with visits := x.visits - out.length, gather := back ++ x.gather, stopped := none }

/-- A stream's issuer is stopped on a fault or a repair wait, or has a request that is (R266). -/
def streamStopped (s : State) (g n : Nat) : Bool :=
  ((s.ctx g).stream n).stopped.isSome || (streamReqs s g n).any fun q => q.stop.isSome

/-- Lane addresses of an address word (R171). -/
def laneAddr (d : StreamDesc) (a : Vec) (l : Nat) : Nat := sdBase d + 4 * (a.lane l).toNat

/-- The address of a gather lane of SPACE 1 at or beyond 32 MiB (R171). -/
def gatherOutside (d : StreamDesc) (a : Vec) (mask : W32) : Option Nat :=
  if sdSpace d = 1 then ((maskList mask).map (laneAddr d a)).find? fun x => decide (33554432 ≤ x) else none

/-- The schedule fault of a stream (R171, R84, R351), with the stream as issuer, its bound stripe, and the stream address at which it
arose: of the visit of a header, of the lane that lies outside, or the peer of a bridge (log 78). -/
def streamFault (s : State) (g n code addr : Nat) : State :=
  let s := s.onCtx g fun c => c.setStream n { c.stream n with done := true }
  let x := (s.ctx g).stream n
  let f := { faultAt s g 1 code 0 (BitVec.ofNat 64 addr) with locStripe := true, si := 0, vs := x.vs, issuer := n }
  takeFault s g (if sdSpace x.desc = 0 then f.virt s else f)

/-- Aligned 64-byte lines among byte addresses (R138). -/
def lineCount (as : List Nat) : Nat := (as.map fun a => a / 64).eraseDups.length

/-! ### Input streams -/

/-- The next visit of an input stream issued (R169, R171). -/
def issueRead (s : State) (g n : Nat) : Option State :=
  let x := (s.ctx g).stream n
  let d := x.desc
  let bump (s : State) : State := s.onCtx g fun c => c.setStream n { c.stream n with visits := x.visits + 1 }
  if sdMode d = 1 then
    match x.gather with
    | [] => none
    | (a, mask, _) :: rest =>
      let s := s.onCtx g fun c => c.setStream n { c.stream n with gather := rest }
      match gatherOutside d a mask with
      | some bad => some (streamFault s g n 12 bad)
      | none =>
        some (bump (issueReq s g (.stream n) .read
          ((maskList mask).map fun l => .new (streamPlace g d (laneAddr d a l)) (List.replicate 4 0)) 0
          (.streamGather n x.visits mask a)))
  else
    some (bump (issueReq s g (.stream n) .read
      (partsOf (streamPlace g d (visitAddr d x.visits)) (List.replicate 128 0)) 0 (.streamWord n x.visits)))

/-- Whether the queue that an input stream targets has room for one more word beside those of the visits under way and of the entry being
formed, and the word belongs there: the stream moves to the next hoist's block after its wave length (R95). What is read can therefore be
pushed, also once the stream is aborted (R174, log 113). -/
def inputCredit (s : State) (g n : Nat) : Bool :=
  let r := s.ring g
  let x := r.ctx.stream n
  let out := (readsOut s g n).length
  let waves := sdWavew x.desc != 0 && !((streamRun r.ctx x).elim true (·.res))
  (streamRun r.ctx x).any (fun u => decide (x.hoist < u.total)) && (!waves || decide (out < x.waveLeft)) &&
    (r.queue x.q).any fun k =>
      let st := r.qstate (r.streamBlock x) x.q
      decide (x.pendWords.length + out < (k.size - (st.tail - st.head)) * k.ent)

/-- Whether an input stream may make a visit now: it follows a run, is not stopped or over, has room for its word, and (R170) does not
read past the segment it is in. -/
def mayRead (s : State) (g n : Nat) : Bool :=
  let c := s.ctx g
  let x := c.stream n
  x.isOpen && !x.out && x.run.isSome && !x.abort && !x.done && !streamStopped s g n && sdSpace x.desc != 2 &&
    decide (x.visits < totalVisits x.desc) && !c.killed && !c.fault.isSome && inputCredit s g n &&
    (sdFrame x.desc == 0 || decide ((readsOut s g n).length < (if x.inSeg then x.segLeft else 1))) &&
    (sdMode x.desc == 0 || x.supplied c.tc)

/-- The word delivered by a performed read of a stream. -/
def reqWord (q : Req) : Vec :=
  match q.purpose with
  | .streamGather _ _ mask _ =>
    let ls := maskList mask
    Vec.ofLanes fun l =>
      match ls.idxOf? l with
      | some i => BitVec.ofNat 32 (leNat ((q.parts.getD i (.new (.virt 0) [])).bytes))
      | none => 0
  | _ => vecOfBytes q.data

/-- A word counted as moved and, on a wave's last word, the stream retargeted to the next hoist (R95): in resident mode
there is none, and the stream keeps its block. -/
def countWord (c : Ctx) (n : Nat) : Ctx :=
  let x := c.stream n
  let c := c.addEv 14 1
  let resident := (streamRun c x).elim true (·.res)
  let nv := (streamRun c x).elim 1 (·.nv)
  let x := { x with moved := x.moved + 1, waveLeft := x.waveLeft - 1 }
  if !x.out ∧ sdWavew x.desc ≠ 0 ∧ x.waveLeft = 0 ∧ !resident then
    c.setStream n { x with hoist := x.hoist + nv, waveLeft := sdWavew x.desc }
  else c.setStream n x

/-- Whether the hoist a stream targets is one its run makes. -/
def hasTarget (c : Ctx) (x : Stream) : Bool :=
  match streamRun c x with
  | some r => decide (x.hoist < r.total)
  | none => false

/-- Room for an entry in the queue an input stream targets. -/
def queueRoom (s : State) (g : Nat) (x : Stream) : Bool :=
  let r := s.ring g
  hasTarget r.ctx x && (r.queue x.q).any fun k => !(r.qstate (r.streamBlock x) x.q).full k

/-- Whether the tile that words begin lies swizzled (R77, R124): LAYOUT 2 of its ensign. -/
def tileSwizzled (ws : List Vec) : Bool :=
  enLayout (BitVec.ofNat 256 (leNat ((ws.flatMap vecBytes).take 32)) : Ensign) == 2

/-- Whether a word can be pushed into the queue an input stream targets (R78): there is room, and no element uses in this cycle the banks
of the entry that it completes, in the layout in which the entry lies. -/
def inputRoom (s : State) (g : Nat) (x : Stream) (v : Vec) : Bool :=
  let r := s.ring g
  queueRoom s g x && (r.queue x.q).any fun k =>
    let blk := r.streamBlock x
    let ws := x.pendWords.map (·.1) ++ [v]
    if k.tile then decide (ws.length < k.ent) || !r.banksBusy blk (k.word (r.qstate blk x.q).tail) (tileSwizzled ws) k.ent
    else !r.banksBusy blk (k.word (r.qstate blk x.q).tail) false 1

/-- A word with its sideband pushed into the target block of an input stream: a word queue's entry at once, a tile
queue's when its ENT words are whole (R81, R170); a pop sees it two cycles later (R76). Its lane mask is all ones (R171). `bad` is the
class of its poison, 0 for none, and the line it came from (R315). -/
def pushInput (s : State) (g n : Nat) (v : Vec) (lr ls : Bool) (bad : Nat × Nat) : State :=
  let r := s.ring g
  let x := r.ctx.stream n
  match r.queue x.q with
  | none => s
  | some k =>
    let blk := r.streamBlock x
    if !k.tile then
      let m : QMeta :=
        { lr := lr, ls := ls, mask := allTags, vis := r.ctx.rcyc + 2, poison := bad.1, line := bad.2, swz := false }
      (s.setRing g (r.pushWord blk x.q k v m)).onCtx g fun c => countWord c n
    else
      let m : QMeta :=
        { lr := false, ls := false, mask := allTags, vis := r.ctx.rcyc + 2, poison := bad.1, line := bad.2, swz := false }
      let ws := x.pendWords ++ [(v, m)]
      if ws.length < k.ent then s.onCtx g fun c => countWord (c.setStream n { x with pendWords := ws }) n
      else
        let bs := ws.flatMap fun w => vecBytes w.1
        let swz := tileSwizzled (ws.map (·.1))
        let st := r.qstate blk x.q
        let r := r.spadWrite blk (128 * k.word st.tail) swz bs
        let first := (ws.find? fun w => w.2.poison != 0).elim (0, 0) fun w => (w.2.poison, w.2.line)
        let m := { m with poison := first.1, line := first.2, swz := swz }
        let r := r.setQ blk x.q { st with tail := st.tail + 1, info := tset st.info st.tail m }
        (s.setRing g r).onCtx g fun c => countWord (c.setStream n { c.stream n with pendWords := [] }) n

/-- Whether a segment header breaks R83 or R84. -/
def headerBad (h : BitVec 64) (d : StreamDesc) : Bool :=
  let kind := bits h 44 4
  decide (4 ≤ kind) || bits h 32 12 != 0 || ((bits h 0 32 == 0) != (kind == 3)) ||
    (sdTagchk d && bits h 48 16 != sdTag d)

/-- The sideband of payload word number `i` (from 1) of a stream in segment framing (R84): the word that ends the stream
carries (1, 1). -/
def segMarks (d : StreamDesc) (i kind : Nat) (last : Bool) : Bool × Bool :=
  let ls := last && kind == 2
  (if sdRl d = 0 then last && (kind == 1 || kind == 2) else i % sdRl d == 0 || ls, ls)

/-- What the auditor's log takes from a word or bubble that visit k of an input stream delivers by request q (R365). -/
def hearInput (c : Ctx) (n k : Nat) (q : Req) (v : Vec) (lr ls : Bool) : Ctx :=
  let x := c.stream n
  match hdrElig c.hdr, streamRun c x with
  | true, some r =>
    let gens := if sdSpace x.desc = 0 then (q.parts.map fun p => (p.region, p.gen)).eraseDups else []
    { c with audIn := c.audIn ++ [⟨waveOf r x.hoist, n, k, x.desc, gens, lr, ls, vecBytes v⟩] }
  | _, _ => c

/-- The oldest undelivered read of an input stream delivered (R170): a word, a header, or the whole stream's last word. A bubble is no
word of the count that sets LR (log 25). -/
def deliverInput (s : State) (g n : Nat) (q : Req) : State :=
  let x := (s.ctx g).stream n
  let d := x.desc
  let v := reqWord q
  let k : Nat := match q.purpose with
    | .streamWord _ k => k
    | .streamGather _ k _ _ => k
    | _ => 0
  let lastVisit := k + 1 == totalVisits d
  let s := s.dropReq q.id
  let heard (s : State) (lr ls : Bool) : State := s.onCtx g fun c => hearInput c n k q v lr ls
  let upd (s : State) (f : Stream → Stream) : State := s.onCtx g fun c => c.setStream n (f (c.stream n))
  if sdFrame d = 0 then
    let lr := lastVisit || (sdRl d != 0 && (k + 1) % sdRl d == 0)
    upd (pushInput (heard s lr lastVisit) g n v lr lastVisit (q.cls, q.line)) fun x => { x with done := x.done || lastVisit }
  else if !x.inSeg then
    let h : BitVec 64 := (v.lane 1) ++ (v.lane 0)
    if headerBad h d then streamFault s g n 8 (visitAddr d k)
    else if bits h 44 4 = 3 then
      upd (pushInput (heard s false true) g n Vec.zero false true (q.cls, q.line)) fun x => { x with done := x.done || lastVisit }
    else upd s fun x => { x with inSeg := true, segLeft := bits h 0 32, segKind := bits h 44 4, done := x.done || lastVisit }
  else
    let m := segMarks d (x.rows + 1) x.segKind (x.segLeft == 1)
    upd (pushInput (heard s m.1 m.2) g n v m.1 m.2 (q.cls, q.line)) fun y =>
      { y with
        rows := y.rows + 1, segLeft := x.segLeft - 1, inSeg := decide (1 < x.segLeft),
        done := y.done || lastVisit || (decide (x.segLeft ≤ 1) && x.segKind == 2) }

/-- The oldest read of an input stream that can be delivered now. -/
def deliverable (s : State) (g n : Nat) : Option Req :=
  match readsOut s g n with
  | q :: _ => if q.done.isSome && inputRoom s g ((s.ctx g).stream n) (reqWord q) then some q else none
  | [] => none

/-! ### Output streams -/

/-- Whether the target hoist of an output stream has been struck (R95); a run that is over has struck all of its own. -/
def targetStruck (s : State) (g : Nat) (x : Stream) : Bool :=
  let c := s.ctx g
  match streamRun c x with
  | none => false
  | some r =>
    r.done || (r.arm.isSome && decide (x.hoist < c.hoistNext) &&
      !((s.ring g).stripes.any fun e => e.2.occ.any fun o => o.h == x.hoist && !o.struck))

/-- The entry an output stream would pop, once it is visible (R76) and no element uses its banks (R78): block, configuration,
position, its word queue entry. -/
def outputEntry (s : State) (g : Nat) (x : Stream) : Option (Nat × QCfg × Nat × QMeta) :=
  let r := s.ring g
  if !hasTarget r.ctx x then none
  else
    match r.queue x.q with
    | none => none
    | some k =>
      let blk := r.streamBlock x
      let st := r.qstate blk x.q
      match st.entry st.resv with
      | some m => if m.vis ≤ r.ctx.rcyc ∧ !r.banksBusy blk (k.word st.resv) m.swz k.ent then some (blk, k, st.resv, m) else none
      | none => none

/-- The writes of one 128-byte word at the next visit of an output stream (R169, R171, R172): `m` is what its queue entry carries. A
scatter or atomic stream applies the lanes of its mask. `counted` says whether it is a word of the stream's count (R176), as a header is
not. A replay writes no memory: its visits go by without a request (R367). -/
def writeVisit (s : State) (g n : Nat) (v : Vec) (m : QMeta) (counted : Bool) : State :=
  let x := (s.ctx g).stream n
  let d := x.desc
  let k := x.visits
  let mask := if sdMode d = 1 ∨ sdAtom d ≠ 0 then m.mask else allTags
  let addrs := (x.gather.headD (Vec.zero, 0, 0)).1
  let what : Purpose := .streamOut n k (v, m) addrs counted
  let lanes : List Nat := (maskList mask).filter fun l => sdAtom d != 8 || l % 2 == 1
  let mk : W32 := lanes.foldl (fun m l => setBit m l true) 0
  let addr (l : Nat) : Nat :=
    if sdMode d = 1 then laneAddr d addrs l else visitAddr d k + 4 * l
  let s := s.onCtx g fun c => c.setStream n
    { c.stream n with visits := k + 1, gather := if sdMode d = 1 then (c.stream n).gather.drop 1 else (c.stream n).gather }
  let id := s.reqNext
  if (s.ctx g).replay.isSome then s else
  let s :=
    if sdAtom d ≠ 0 then
      issueReq s g (.stream n) .atomic (lanes.map fun l => .new (streamPlace g d (addr l)) (List.replicate 4 0))
        (lineCount (lanes.map addr)) (.streamAtomic n k (sdAtom d) mk (v, m) addrs)
    else if sdMode d = 1 then
      issueReq s g (.stream n) .write (lanes.map fun l => .new (streamPlace g d (addr l)) (leBytes 4 (v.lane l).toNat))
        (lineCount (lanes.map addr)) what
    else issueReq s g (.stream n) .write (partsOf (streamPlace g d (visitAddr d k)) (vecBytes v)) 2 what
  if m.poison ≠ 0 then
    match s.req id with
    | some q => s.setReq { q with poison := true, cls := m.poison, line := m.line }
    | none => s
  else s

/-- The header of a segment (R83). -/
def headerOf (tag kind len : Nat) : BitVec 64 := packBits 64 [(48, 16, tag), (44, 4, kind), (0, 32, len)]

/-- The header of a segment (R83) as a visit's word. -/
def headerWord (tag kind len : Nat) : Vec :=
  let h := headerOf tag kind len
  Vec.ofLanes fun l => if l = 0 then h.extractLsb' 0 32 else if l = 1 then h.extractLsb' 32 32 else 0

/-- A word that carries no sideband and no poison. -/
def plainMeta : QMeta := { lr := false, ls := false, mask := allTags, vis := 0, poison := 0, line := 0, swz := false }

/-- Words held for the segment being formed become a segment of a kind (R84): the header and then the words, each a visit to come. -/
def segmentToMemory (s : State) (g n kind : Nat) : State :=
  s.onCtx g fun c =>
    let x := c.stream n
    c.setStream n
      { x with
        pendWords := (headerWord (sdTag x.desc) kind x.pendWords.length, plainMeta) :: x.pendWords, inSeg := true, segKind := kind }

/-- The next visit of a segment under way to memory (R170, R171), while the pattern lasts: in gather mode the header and each word take
an address word, and the lanes are checked first. The stream is complete after a segment of KIND 2, or with its pattern. -/
def segmentVisit (s : State) (g n : Nat) : State :=
  let x := (s.ctx g).stream n
  let d := x.desc
  match x.pendWords with
  | [] => s.onCtx g fun c => c.setStream n { x with inSeg := false }
  | (v, m) :: rest =>
    match (if sdMode d = 1 then gatherOutside d (x.gather.headD (Vec.zero, 0, 0)).1 m.mask else none) with
    | some bad => streamFault s g n 12 bad
    | none =>
      (writeVisit s g n v m (m != plainMeta)).onCtx g fun c =>
        let y := c.stream n
        let atEnd := decide (totalVisits d ≤ y.visits)
        let rest := if atEnd then [] else rest
        c.setStream n
          { y with pendWords := rest, inSeg := !rest.isEmpty, done := y.done || atEnd || (rest.isEmpty && x.segKind == 2) }

/-! ### Bridges (R84, R97, R173) -/

/-- The peer of a bridge stream: package node, global ring and stream (R167). -/
def bridgePeer (d : StreamDesc) : Nat × Nat × Nat := (bits d 505 7, bits d 500 5, bits d 495 5)

/-- Whether stream m of ring r is an open bridge end of the opposite port whose peer is `src` (R173), of a context that is bound, runs
and is not saved (R27). -/
def peerOpen (s : State) (r m : Nat) (out : Bool) (src : Nat × Nat × Nat) : Bool :=
  let x := (s.ctx r).stream m
  (s.ring r).bound && (s.ring r).slotState != .saving && (s.ctx r).fault.isNone && !(s.ctx r).killed && x.isOpen &&
    sdSpace x.desc == 2 && x.out != out && bridgePeer x.desc == src && !x.done && !(x.closing && x.abort)

/-- BRIDGE_SEGMENT_RECEIVE (R84, R97): a segment checked whole and its words delivered, in order, to the bridge of the
receiving stream; a bad one is a schedule fault naming the stream, and no word of it is delivered. -/
def receiveSegment (s : State) (g n : Nat) (h : BitVec 64) (ws : List Vec) : State :=
  let x := (s.ctx g).stream n
  let d := x.desc
  let kind := bits h 44 4
  if headerBad h d || ws.length != bits h 0 32 then streamFault s g n 8 (sdBase d)
  else
    let mk (lr ls : Bool) : QMeta := { plainMeta with lr := lr, ls := ls }
    let new : List (Vec × QMeta) :=
      if kind = 3 then [(Vec.zero, mk false true)]
      else ws.zipIdx.map fun w =>
        let m := segMarks d (x.rows + w.2 + 1) kind (w.2 + 1 == ws.length)
        (w.1, mk m.1 m.2)
    s.onCtx g fun c =>
      c.setStream n { x with
                             gather := x.gather, pendWords := x.pendWords ++ new, rows := x.rows + ws.length,
                             segKind := if kind = 2 then 2 else x.segKind }

/-- Words that wait in the bridge of an input stream pushed while there is room. The stream is complete when the last
word of a KIND 2 segment has been pushed. -/
def bridgePush (s : State) (g n : Nat) : State :=
  let x := (s.ctx g).stream n
  match x.pendWords with
  | [] => s
  | (v, m) :: rest =>
    let s := s.onCtx g fun c => c.setStream n { c.stream n with pendWords := [] }
    let s := pushInput s g n v m.lr m.ls (m.poison, m.line)
    s.onCtx g fun c =>
      let y := c.stream n
      c.setStream n { y with pendWords := rest, done := y.done || (rest.isEmpty && x.segKind == 2) }

/-- BRIDGE_SEGMENT_RECEIVE: due at an open input bridge, of a context that runs, whose peer is the sender (R173). A segment of another
address space is refused to its sender (R264) and does nothing here. -/
def execBridgeSegmentReceive (g n : Nat) (header : SegmentHead) (words : List (BitVec 1024)) (s : State) :
    Host.Outcome State Fault Refusal :=
  if !peerOpen s g n true (header.node, header.ring, header.stream) then .refused .notDue
  else if (s.ctx g).asid ≠ header.asid then .next s
  else .next (receiveSegment s g n header.bits (words.map fun w => vecOfBytes (bytesOf w)))

/-- Words held for the segment being formed, sent across a bridge: whole out of the package, or to the peer of this package, whose
bridge checks the header first and then takes the words one by one. An empty segment is a bubble at once. A segment to a package that
cannot be reached is dropped (R387). -/
def segmentToBridge (s : State) (g n kind : Nat) : State :=
  let x := (s.ctx g).stream n
  let (node, r, m) := bridgePeer x.desc
  let ws := x.pendWords
  if node ≠ s.hub.node.toNat then
    let t := s.onCtx g fun c => c.setStream n { x with pendWords := [], done := x.done || kind == 2 }
    if (kamvaPort s node).isNone then unreachable t node true
    else
      { t with
        egress := s.egress ++ [.segment node r m (s.ctx g).asid (headerOf (sdTag x.desc) kind ws.length) (ws.map (·.1))] }
  else if headerBad (headerOf (sdTag x.desc) kind ws.length) ((s.ctx r).stream m).desc then
    streamFault (s.onCtx g fun c => c.setStream n { x with pendWords := [], done := x.done || kind == 2 }) r m 8 (sdBase ((s.ctx r).stream m).desc)
  else if ws.isEmpty then pushInput s r m Vec.zero false true (0, 0)
  else s.onCtx g fun c => c.setStream n { x with inSeg := true, segLeft := ws.length, segKind := kind }

/-- The next word of a segment under way to a peer of this package (R84, R97): pushed into the peer's target queue with the
markers of R84. -/
def bridgeWord (s : State) (g n : Nat) : State :=
  let x := (s.ctx g).stream n
  let (_, r, m) := bridgePeer x.desc
  match x.pendWords with
  | [] => s.onCtx g fun c => c.setStream n { x with inSeg := false }
  | (v, w) :: rest =>
    let last := rest.isEmpty
    let y := (s.ctx r).stream m
    let k := segMarks y.desc (y.rows + 1) x.segKind last
    let s := (pushInput s r m v k.1 k.2 (w.poison, w.line)).onCtx r fun c =>
      c.setStream m { c.stream m with rows := y.rows + 1, done := y.done || (last && x.segKind == 2) }
    s.onCtx g fun c =>
      c.setStream n { x with pendWords := rest, segLeft := rest.length, inSeg := !last, done := x.done || (last && x.segKind == 2) }

/-- Whether the member of a context's task that runs on ring r is saved (R27): what depends on its streams holds. -/
def memberSaved (s : State) (c : Ctx) (r : Nat) : Bool :=
  s.saved.any fun x => x.ring == r && x.ctx.asid == c.asid && bindTask x.ctx.bind == bindTask c.bind

/-- Whether a bridge output of ring g may send now (R97): its peer is open, in its address space (R264) and not a saved member's (R27), has
taken what it was sent, and grants a credit for a word of free space in its target queue. How soon another package grants one is as
free as the engines' pace (log 8); what goes to one that cannot be reached is dropped (R387). -/
def bridgeReady (s : State) (g n : Nat) : Bool :=
  let c := s.ctx g
  let (node, r, m) := bridgePeer (c.stream n).desc
  let y := (s.ctx r).stream m
  if node = s.hub.node.toNat then
    peerOpen s r m true (node, g, n) && (s.ctx r).asid == c.asid && !memberSaved s c r && y.pendWords.isEmpty &&
      inputRoom s r y Vec.zero
  else true

/-- Whether the peer of a bridge output is open in another address space, with no context of its own saved there: the target ring
refuses what is sent (R264). Whether a ring of another package does is free (log 9). -/
def bridgeForeign (s : State) (g n : Nat) : Bool :=
  let c := s.ctx g
  let (node, r, m) := bridgePeer (c.stream n).desc
  if node = s.hub.node.toNat then
    peerOpen s r m true (node, g, n) && (s.ctx r).asid != c.asid && (spadTarget s r c.asid 0 0).isNone
  else (kamvaPort s node).isSome && Config.ready s.freeCtr

/-- The access of a bridge output that its target ring refuses (R264): an empty write, which meets cause 4. -/
def sendForeign (s : State) (g n : Nat) : State :=
  let (node, r, _) := bridgePeer ((s.ctx g).stream n).desc
  issueReq s.tickFree g (.stream n) .write [.new (.remote node r 0 false) []] 0 .other

/-- A segment sent by an output stream. -/
def sendSegment (s : State) (g n kind : Nat) : State :=
  if sdSpace ((s.ctx g).stream n).desc = 2 then segmentToBridge s g n kind else segmentToMemory s g n kind

/-- What the auditor's signature takes from a word popped by an output stream (R366): its bytes and 2 LR + LS. -/
def hearWord (c : Ctx) (n : Nat) (v : Vec) (lr ls : Bool) : Ctx :=
  let x := c.stream n
  match hdrElig c.hdr, streamRun c x with
  | true, some r =>
    { c with
      audOut := c.audOut ++ [(r.id, waveOf r x.hoist, n, vecBytes v ++ [(if lr then 2 else 0) + (if ls then 1 else 0)])] }
  | _, _ => c

/-- A word that an output stream has popped becomes its next visit (R170, R171); a scatter checks its lanes first, and a pattern that
is exhausted completes the stream. -/
def visitWord (s : State) (g n : Nat) (v : Vec) (m : QMeta) : State :=
  let x := (s.ctx g).stream n
  let d := x.desc
  match (if sdMode d = 1 then gatherOutside d (x.gather.headD (Vec.zero, 0, 0)).1 m.mask else none) with
  | some bad => streamFault s g n 12 bad
  | none =>
    (writeVisit s g n v m true).onCtx g fun c =>
      let c := countWord c n
      let y := c.stream n
      c.setStream n { y with done := y.done || decide (totalVisits d ≤ y.visits) || m.ls }

/-- The words of a tile entry that wait for their address words (R171): the next of them is written. -/
def scatterHeld (s : State) (g n : Nat) : State :=
  let x := (s.ctx g).stream n
  match x.pendWords with
  | [] => s
  | (v, m) :: rest => visitWord (s.onCtx g fun c => c.setStream n { x with pendWords := rest }) g n v m

/-- The entry of a queue that an output stream takes popped, and stored errors of its chunks met (R355). -/
def popEntry (s : State) (g n blk : Nat) (k : QCfg) (pos : Nat) (m : QMeta) : State :=
  s.onRing g fun r =>
    let r := r.meetFlaws fun c => (List.range (128 * k.ent)).any fun i =>
      blk * Config.blockBytes + placeOf m.swz ((128 * k.word pos + i) % Config.blockBytes) == 16 * c
    let q := (r.ctx.stream n).q
    let st := r.qstate blk q
    r.setQ blk q ({ st with resv := st.resv + 1 }.pop pos)

/-- Word i of an entry as an output stream takes it: with the entry's sideband and poison, or that of its own chunks (R354, R355). -/
def entryWord (r : Ring) (blk : Nat) (k : QCfg) (pos i : Nat) (m : QMeta) : Vec × QMeta :=
  let w := k.word pos + i
  let poison := if m.poison ≠ 0 then m.poison else if r.spadPoisoned blk (128 * w) 128 m.swz then 2 else 0
  (r.wordAt blk w m.swz, { m with poison := poison, ls := m.ls && !k.tile })

/-- The next of the visits that a save set back (R341), made again at the same visit with the word that the stream holds or the next
of its queue; what the auditor has heard of it stands. -/
def visitAgain (s : State) (g n : Nat) : Option State :=
  let x := (s.ctx g).stream n
  match x.again with
  | [] => none
  | .held v m counted :: rest =>
    some ((writeVisit s g n v m counted).onCtx g fun c =>
      let c := if counted then countWord c n else c
      c.setStream n { c.stream n with again := rest })
  | .queued :: rest =>
    match outputEntry s g x with
    | none => none
    | some (blk, k, pos, m) =>
      let w := entryWord (s.ring g) blk k pos x.skip m
      let last : Bool := x.skip + 1 == k.ent || (rest.isEmpty && x.done)
      let s := if last then popEntry s g n blk k pos m else s
      let s := s.onCtx g fun c => c.setStream n { c.stream n with again := rest, skip := if last then 0 else x.skip + 1 }
      some (visitWord s g n w.1 w.2)

/-- An output stream takes the next entry of its queue (R170): a payload word becomes a visit, a bubble takes none, a row
in segment framing is gathered until it ends or holds 256 words. Where a bubble follows an unfinished row, the row's words go as a
segment that continues and the bubble as an empty one (log 75). The words of a tile entry wait for their address words when the
stream scatters. -/
def popOutput (s : State) (g n blk : Nat) (k : QCfg) (pos : Nat) (m : QMeta) : State :=
  let r := s.ring g
  let x := r.ctx.stream n
  let d := x.desc
  let pop (s : State) : State := popEntry s g n blk k pos m
  let upd (s : State) (f : Stream → Stream) : State := s.onCtx g fun c => c.setStream n (f (c.stream n))
  let counted (s : State) : State := s.onCtx g fun c => countWord c n
  if k.tile then
    let ws := (List.range k.ent).map fun i => entryWord r blk k pos i m
    let s := (pop s).onCtx g fun c => ws.foldl (fun c w => hearWord c n w.1 false false) c
    if sdMode d = 1 then upd s fun y => { y with pendWords := ws }
    else ws.foldl (fun s w => if ((s.ctx g).stream n).done then s else visitWord s g n w.1 w.2) s
  else
    let w := entryWord r blk k pos 0 m
    let pop (s : State) : State := (pop s).onCtx g fun c => hearWord c n w.1 m.lr m.ls
    if sdFrame d = 0 then
      if !m.lr && m.ls then counted (pop s)
      else if sdMode d = 1 && (gatherOutside d (x.gather.headD (Vec.zero, 0, 0)).1 m.mask).isSome then visitWord s g n w.1 m
      else visitWord (pop s) g n w.1 w.2
    else
      if x.pendWords.length = 256 || (!m.lr && m.ls && !x.pendWords.isEmpty) then sendSegment s g n 0
      else if !m.lr && m.ls then sendSegment (counted (pop s)) g n 3
      else
        upd (counted (pop s)) fun y => { y with pendWords := y.pendWords ++ [w] }

/-- The row of an output stream in segment framing whose last word has been taken is sent (R84). -/
def rowWhole (x : Stream) : Option Nat :=
  match x.pendWords.getLast? with
  | some (_, m) => if m.lr then some (if m.ls then 2 else 1) else none
  | none => none

/-- Whether an output stream may act now. -/
def mayWrite (s : State) (g n : Nat) : Bool :=
  let c := s.ctx g
  let x := c.stream n
  x.isOpen && x.out && x.run.isSome && (!x.done || !x.again.isEmpty) && !streamStopped s g n && !c.killed && !c.fault.isSome &&
    (sdSpace x.desc == 2 || decide (x.visits < totalVisits x.desc))

/-- Whether the queue an output stream drains holds an entry that is not popped (R95). -/
def outputQueued (s : State) (g : Nat) (x : Stream) : Bool :=
  let r := s.ring g
  let st := r.qstate (r.streamBlock x) x.q
  hasTarget r.ctx x && (st.entry st.resv).isSome

/-- What an output stream does next, if anything: a word that a save set back, one of the segment or of the tile entry under way, a row that is whole, its next
entry, or, when its target is struck, its queue there empty and its visits performed, its next hoist. An abort leaves what has not been
sent, but for a bridge, and for an ending context, which writes what it popped (R147, R174). -/
def outputStep (s : State) (g n : Nat) : Option State :=
  let x := (s.ctx g).stream n
  let bridge := sdSpace x.desc == 2
  let ready := x.supplied (s.ctx g).tc
  if !mayWrite s g n then none
  else if bridge && bridgeForeign s g n then
    (if outputQueued s g x || !x.pendWords.isEmpty then some (sendForeign s g n) else none)
  else if bridge && !bridgeReady s g n then none
  else
    if !x.again.isEmpty then (if sdMode x.desc = 1 ∧ !ready then none else visitAgain s g n)
    else if x.inSeg ∧ bridge then some (bridgeWord s g n)
    else if x.abort ∧ (s.ctx g).ending.isNone then none
    else if x.inSeg then (if sdMode x.desc = 1 ∧ !ready then none else some (segmentVisit s g n))
    else if sdFrame x.desc = 0 ∧ !x.pendWords.isEmpty then (if ready then some (scatterHeld s g n) else none)
    else
    match rowWhole x with
    | some kind => some (sendSegment s g n kind)
    | none =>
      if x.abort then (if x.pendWords.isEmpty then none else some (sendSegment s g n 0))
      else
        match outputEntry s g x with
        | some (blk, k, pos, m) =>
          if sdMode x.desc = 1 && sdFrame x.desc = 0 && !ready && !k.tile && (m.lr || !m.ls) then none else some (popOutput s g n blk k pos m)
        | none =>
          match streamRun (s.ctx g) x with
          | some r =>
            if targetStruck s g x ∧ !outputQueued s g x ∧ x.hoist + r.nv < r.total ∧ (streamReqs s g n).all (fun q => q.done.isSome) then
              some (s.onCtx g fun c => c.setStream n { x with hoist := x.hoist + r.nv })
            else none
          | none => none

/-- The word that a replay reads at a visit of a logged input stream, through the descriptor and the windows of the context (R367). -/
def rereadWord (s : State) (a : AuditLog) (d : StreamDesc) (k : Nat) : List Byte :=
  if sdSpace d = 1 then
    (List.range 128).map fun i => (s.ring a.ring).spad.read (spadPlace ((visitAddr d k + i) % 33554432) (sdLayout d))
  else
    match (translateVa s (dieOf a.ring) { Ctx.reset with bind := a.bind, rwin := a.rwin } (visitAddr d k) .read).walk with
    | .ok place _ _ => s.placeBytes place 128
    | .fault _ _ _ => List.replicate 128 0

/-- What an input stream of a replay does next (R367): it re-reads the next word of its wave and pushes it with the markers that it had, so
long as there is room. -/
def replayInput (s : State) (g n : Nat) (a : AuditLog) : Option State :=
  let x := (s.ctx g).stream n
  match a.inputs.find? fun i => i.stream == n with
  | none => none
  | some i =>
    match i.marks[((s.ctx g).audIn.filter fun w => w.stream == n).length]? with
    | none => none
    | some (k, lr, ls) =>
      let bs := if !lr && ls then List.replicate 128 0 else rereadWord s a i.desc k
      if inputRoom s g x (vecOfBytes bs) then
        let s := s.onCtx g fun c => { c with audIn := c.audIn ++ [⟨0, n, k, i.desc, [], lr, ls, bs⟩] }
        some ((pushInput s g n (vecOfBytes bs) lr ls (0, 0)).onCtx g fun c => c.setStream n { c.stream n with hoist := x.hoist })
      else none

/-- What an input stream does next: a delivery, a word out of its bridge, or a visit; where both are possible the choice
is free (log 8). -/
def inputStep (s : State) (g n : Nat) : Option State :=
  let x := (s.ctx g).stream n
  match replayLog s g with
  | some a => replayInput s g n a
  | none =>
  if sdSpace x.desc = 2 then
    if x.isOpen && inputRoom s g { x with pendWords := [] } Vec.zero && !x.pendWords.isEmpty then some (bridgePush s g n) else none
  else
    match deliverable s g n with
    | some q =>
      if mayRead s g n && Config.ready s.freeCtr then (issueRead s g n).map State.tickFree
      else some (deliverInput s.tickFree g n q)
    | none => if mayRead s g n then issueRead s g n else none

/-! ### Closing (R170, R174) -/

/-- Whether an output stream has nothing left that it popped and has still to send (R147, R174): an abort gives up the words of an
unfinished row and of a segment that has still visits to issue, but not of one under way across a bridge. -/
def outputOver (c : Ctx) (x : Stream) : Bool :=
  x.again.isEmpty && (x.pendWords.isEmpty || (x.abort && c.ending.isNone && !(x.inSeg && sdSpace x.desc == 2)) ||
    (sdFrame x.desc == 0 && x.done))

/-- Whether a stream marked to close is closed now: complete, or aborted, with every visit it made delivered and, for an input bridge,
every word it received for which its queue has room: for another the bridge grants no credit (R97, log 17). -/
def closesNow (s : State) (g n : Nat) : Bool :=
  let x := (s.ctx g).stream n
  x.isOpen && x.closing && (x.done || x.abort) &&
    (if x.out then outputOver (s.ctx g) x
      else (readsOut s g n).isEmpty && (sdSpace x.desc != 2 || x.pendWords.isEmpty || (x.abort && !queueRoom s g x)))

/-- A stream closed: its queue binding is released and its count kept for `spos`; reads it has not delivered are dropped. -/
def closeStream (s : State) (g n : Nat) : State :=
  let drop := (readsOut s g n).map (·.id)
  { s with reqs := s.reqs.filter fun q => !drop.contains q.id }.onCtx g fun c => c.setStream n
    { c.stream n with
      isOpen := false, closing := false, inSeg := false, stopped := none, gather := [], pendWords := [], again := [], skip := 0 }

/-- `sclose` in the cycle it takes effect. -/
def beginSclose (s : State) (g n : Nat) (abort : Bool) : State :=
  let x := (s.ctx g).stream n
  if !x.isOpen then s
  else
    let s := s.onCtx g fun c => c.setStream n { x with closing := true, abort := x.abort || abort }
    if closesNow s g n then closeStream s g n else s

/-- STREAM_VISIT (R169): one action of stream n, and its closing where it follows. -/
def streamVisit (s : State) (g n : Nat) : Option State :=
  let x := (s.ctx g).stream n
  if closesNow s g n then some (closeStream s g n)
  else (if x.out then outputStep s g n else inputStep s g n).map fun s =>
    if closesNow s g n then closeStream s g n else s

/-- STREAM_VISIT. -/
def execStreamVisit (g n : Nat) (s : State) : Host.Outcome State Fault Refusal :=
  match streamVisit s g n with
  | some t => .next t
  | none => .refused .notDue

end Sys2Proof.Machine
end

