-- ==== Sys2Proof/Machine/Barriers.lean ====
section
/-!
DEFINITION. The barrier unit (spec/17 R288 to R297): objects, arrivals, expectations, byte decrements and the test of a
phase.
-/

namespace Sys2Proof.Machine

open Sys2Proof

/-- A barrier name's package node (R288). -/
def nameNode (n : Nat) : Nat := n / pow2 17 % 128
/-- A barrier name's global ring. -/
def nameRing (n : Nat) : Nat := n / pow2 12 % 32
/-- A barrier name's object number. -/
def nameNum (n : Nat) : Nat := n % pow2 12

/-- Object `num` of ring r. -/
def State.barrier (s : State) (r num : Nat) : Barrier := tget (s.ring r).bars num 0
/-- Object written. -/
def State.setBarrier (s : State) (r num : Nat) (b : Barrier) : State :=
  s.onRing r fun x => { x with bars := tset x.bars num b }

/-- The phase test after an arrival or a byte decrement (R290). -/
def phaseTest (b : Barrier) : Barrier :=
  if !barFlt b ∧ barPend b = 0 ∧ barInb b = 0 ∧ barOutb b = 0 then
    let b := setBits b 0 4 (barGen b + 1)
    let b := setBits b 4 12 (barCount b)
    let b := setBits b 107 1 (if barPois b then 1 else 0)
    setBits b 106 1 0
  else b

/-- Whether a party of ring g of this package, or of another package (`none`), lies outside a scope centred on ring r (R293). -/
def outsideScope (scope : Nat) (g : Option Nat) (r : Nat) : Bool :=
  match scope with
  | 0 => g != some r
  | 1 => g.elim true fun g => dieOf g != dieOf r
  | 2 => g.isNone
  | _ => false

/-- The ASID of an object's owner, which is a context of the object's own ring; one that was killed still owns its objects until its
generation bump has cleared BUSY (R288). -/
def ownerAsid (s : State) (r : Nat) (b : Barrier) : Option (BitVec 10) :=
  ((s.ctxById r (barOwner b)).map Ctx.asid) <|>
    ((s.hub.bumps.find? fun x => x.free.contains (r, barOwner b)).map fun x => x.value.extractLsb' 16 10)

/-- Causes 4, 5 and 6 (R297) of an operation on an object by ring g, or by another package, under an ASID; 0 none. -/
def barrierRefusal (s : State) (r : Nat) (g : Option Nat) (asid : BitVec 10) (b : Barrier) : Nat :=
  if barOwner b = 0 then 4
  else if ownerAsid s r b ≠ some asid then 5
  else if outsideScope (barScope b) g r then 6
  else 0

/-- An operation on an object of ring r by ring g of this package, or by another package (`none`), under an ASID: the object after it,
and the cause of R297 with which it is refused or faults, 0 for none. Bytes are counted one by one (R295). -/
def barrierOp (s : State) (r : Nat) (g : Option Nat) (asid : BitVec 10) (b : Barrier) : BarrierOp → Barrier × Nat
  | .arrive =>
    let cause := barrierRefusal s r g asid b
    if cause ≠ 0 then (b, cause)
    else if barPend b = 0 then (setBits b 105 1 1, 2)
    else (phaseTest (setBits b 4 12 (barPend b - 1)), 0)
  | .expect n outb =>
    let cause := barrierRefusal s r g asid b
    let old := if outb then barOutb b else barInb b
    if cause ≠ 0 then (b, cause)
    else if pow2 36 ≤ old + n.toNat then (b, 1)
    else (setBits b (if outb then 64 else 28) 36 (old + n.toNat), 0)
  | .count n outb poison =>
    let cause := barrierRefusal s r g asid b
    let old := if outb then barOutb b else barInb b
    if cause ≠ 0 then (b, cause)
    else
      let k := min old n
      let c := if k = 0 then b
        else phaseTest (if poison then setBits (setBits b (if outb then 64 else 28) 36 (old - k)) 106 1 1
          else setBits b (if outb then 64 else 28) 36 (old - k))
      if k < n then (setBits c 104 1 1, 3) else (c, 0)

/-- The causes that an operation can answer (R297). -/
def opCauses : BarrierOp → List Nat
  | .arrive => [2, 4, 5, 6]
  | .expect _ _ => [1, 4, 5, 6]
  | .count _ _ _ => [3, 4, 5, 6]

/-- The cause with which another package answers an operation (log 9); 0 none. -/
def remoteCause (s : State) (op : BarrierOp) : Nat :=
  let c := (Config.free64 s.freeCtr).toNat % 8
  if (opCauses op).contains c then c else 0

/-- An operation on the object that a name names, for a context of ring g under an ASID (R290, R293 to R295): the state, and the
cause of a refusal or fault, 0 for none. The object takes no other operation in this cycle. What goes to a package that cannot be
reached is dropped (R387), and the step goes on (log 114). -/
def applyBarrier (s : State) (g : Nat) (asid : BitVec 10) (name : Nat) (op : BarrierOp) : State × Nat :=
  if nameNode name ≠ s.hub.node.toNat then
    if (kamvaPort s (nameNode name)).isNone then (unreachable s (nameNode name) true, 0)
    else ({ s.tickFree with egress := s.egress ++ [.barrier (nameNode name) asid name op] }, remoteCause s op)
  else
    let r := nameRing name
    let x := barrierOp s r (some g) asid (s.barrier r (nameNum name)) op
    ({ s.setBarrier r (nameNum name) x.1 with barUsed := (r, nameNum name) :: s.barUsed }, x.2)

/-- Whether the object that a name names can take an operation in this cycle (R290). -/
def barrierFree (s : State) (name : Nat) : Bool :=
  nameNode name != s.hub.node.toNat || !s.barUsed.contains (nameRing name, nameNum name)

/-- A byte count as an operation. -/
def ByteDec.op (d : ByteDec) : BarrierOp := .count d.bytes (d.bk == 2) d.poison

/-- A barrier fault of a copy (R295): not precise, with the issuer and the name; a saved context keeps its record. -/
def copyBarrierFault (s : State) (d : ByteDec) (cause : Nat) : State :=
  takeFaultFor s d.ring d.ctx
    { faultFor s d.ring d.ctx 6 cause 0 (BitVec.ofNat 64 d.bar) with asid := d.asid, si := 0, issuer := issuerCode d.party }

/-- BARRIER_BYTE_DECREMENT (R295): due when the copy's bytes have reached the point that R178 and R281 fix. -/
def execBarrierByteDecrement (id bytes : Nat) (poisoned : Bool) (s : State) : Host.Outcome State Fault Refusal :=
  match s.decs.find? fun d => d.id == id && d.bytes == bytes && d.poison == poisoned with
  | none => .refused .notDue
  | some d =>
    if !barrierFree s d.bar then .refused .notDue
    else
    let (s, cause) := applyBarrier { s with decs := s.decs.erase d } d.ring d.asid d.bar d.op
    .next (if cause = 0 then s else copyBarrierFault s d cause)

/-- Every object that a context of ring g owns freed (R288): done at its end or after its kill. -/
def freeBarriers (s : State) (g : Nat) (id : BitVec 16) : State :=
  s.onRing g fun r => { r with bars := r.bars.map fun e => if barOwner e.2 = id then (e.1, setBits e.2 112 16 0) else e }

end Sys2Proof.Machine
end

