-- ==== Sys2Proof/Machine/Copies.lean ====
section
/-!
DEFINITION. Bulk copies and copy channels (spec/09 R177 to R182) and their byte counts (R178, R281).
-/

namespace Sys2Proof.Machine

open Sys2Proof

/-- The lowest and highest scratchpad offset a side of a copy reaches (R177). -/
def sideRange (r : TransferRec) (src : Bool) : Int × Int :=
  let a : Int := if src then (trSrc r % pow2 25 : Nat) else (trDst r % pow2 25 : Nat)
  let st (i : Nat) : Int := if src then trSS r i else trDS r i
  let ext (i c : Nat) : Int := ((c : Int) - 1) * st i
  let es := [ext 1 (trC1 r), ext 2 (trC2 r), ext 3 (trC3 r)]
  (a + (es.map (min 0)).sum, a + (es.map (max 0)).sum + ((trC0 r : Int) - 1))

/-- Whether an address field carries bits outside those its space defines, or reaches past 32 MiB (R177). -/
def sideBad (r : TransferRec) (src : Bool) : Bool :=
  let sp := if src then trSsp r else trDsp r
  let a := if src then trSrc r else trDst r
  match sp with
  | 0 => false
  | 3 => true
  | _ =>
    (if sp = 1 then decide (33554432 ≤ a) else a / pow2 25 % pow2 19 != 0) ||
      decide ((sideRange r src).1 < 0) || decide (33554432 ≤ (sideRange r src).2)

/-- An invalid transfer record (R177). -/
def recordInvalid (r : TransferRec) : Bool :=
  trBytes r == 0 || trBk r == 3 || bits r 1 35 != 0 || trNext r % 64 != 0 || sideBad r true || sideBad r false ||
    ((trBk r == 1 || trBk r == 2) && decide (24 ≤ nameRing (trBar r)))

/-- Copies and collectives counted in the tokens of a context (R180). -/
def inFlight (c : Ctx) : Nat := ((List.range 8).map c.token).sum

/-- A token raised (R180). -/
def raiseToken (c : Ctx) (t : Nat) : Ctx := c.setTok t (c.token t + 1)

/-- The party that performs a copy (R275). -/
def Copy.party (c : Copy) : Party := match c.chan with
  | some n => .chan n
  | none => .copyEngine

/-- A copy begun (R178, R275); its token is already counted. -/
def beginCopy (s : State) (g : Nat) (chan : Option Nat) (r : TransferRec) (recAddr req : Nat) : State :=
  let c := s.ctx g
  let k : Copy :=
    { id := s.copyNext, ring := g, ctx := c.id, asid := c.asid, chan := chan, record := r,
      recAddr := BitVec.ofNat 64 recAddr, next := 0, readDone := 0, writeDone := 0, owning := false, stopped := none,
      post := req }
  { s with copies := s.copies ++ [k], copyNext := s.copyNext + 1 }

/-- A copy by its number. -/
def State.copy (s : State) (id : Nat) : Option Copy := s.copies.find? fun c => c.id == id
/-- A copy replaced. -/
def State.setCopy (s : State) (c : Copy) : State := { s with copies := s.copies.map fun x => if x.id = c.id then c else x }

/-- The place of byte `o` of a copy's order on a side (R178): runs of C0 bytes, i1 fastest of the counts. Virtual addresses are taken
modulo 2^56 (log 71). -/
def copyPlace (c : Copy) (src : Bool) (o : Nat) : Place :=
  let r := c.record
  let c0 := max (trC0 r) 1
  let i0 := o % c0
  let k1 := o / c0
  let i1 := k1 % max (trC1 r) 1
  let k2 := k1 / max (trC1 r) 1
  let i2 := k2 % max (trC2 r) 1
  let i3 := k2 / max (trC2 r) 1
  let st (i : Nat) : Int := if src then trSS r i else trDS r i
  let base := if src then trSrc r else trDst r
  let sp := if src then trSsp r else trDsp r
  let swz := if src then trSlay r else trDlay r
  let off (b : Nat) : Int := (b : Int) + i0 + i1 * st 1 + i2 * st 2 + i3 * st 3
  match sp with
  | 1 => .spad c.ring ((off base) % 33554432).toNat swz
  | 2 => .remote (base / pow2 49 % 128) (base / pow2 44 % 32) ((off (base % pow2 25)) % 33554432).toNat swz
  | _ => .virt ((off base) % (pow2 56 : Int)).toNat

/-- Bytes of the piece that starts at byte `o`: within one run and one aligned destination line (R138). -/
def pieceLen (c : Copy) (o : Nat) : Nat :=
  min (max (trC0 c.record) 1 - o % max (trC0 c.record) 1) (64 - (copyPlace c false o).addr % 64)

/-- Requests of a copy still listed. -/
def copyReqs (s : State) (id : Nat) : List Req :=
  s.reqs.filter fun q =>
    match q.purpose with
    | .copyRead i _ => i == id
    | .copyWrite i _ _ => i == id
    | .copyOwn i => i == id
    | _ => false

/-- Whether a party of a context is stopped (R266): a request of it is, or its copy engine is in a collective. -/
def partyStopped (s : State) (g : Nat) (id : BitVec 16) (p : Party) : Bool :=
  (s.reqs.any fun q => q.ring == g && q.ctx == id && q.party == p && q.stop.isSome) ||
    (p == .copyEngine && s.colls.any fun c => c.ring == g && c.ctx == id && c.stop.isSome)

/-- Whether the issuer of a copy is stopped (R266): the engine, or the copy's channel. -/
def copyStopped (s : State) (c : Copy) : Bool := partyStopped s c.ring c.ctx c.party

/-- Bytes to be counted against the copy's barrier (R178). -/
def addDec (s : State) (ring : Nat) (ctx : BitVec 16) (asid : BitVec 10) (party : Party) (bar bk n : Nat) (poison : Bool) :
    State :=
  let d : ByteDec :=
    { id := s.copyNext, ring := ring, ctx := ctx, asid := asid, party := party, bar := bar, bk := bk, bytes := n,
      poison := poison }
  { s with decs := s.decs ++ [d], copyNext := s.copyNext + 1 }

/-- A performed read of a copy turned into the write of its line; with BK = 2 its bytes are counted against OUTB. A
poisoned line is written as poisoned and not consumed (R315): a RAS event of kind 2 reports it (R361, log 80). -/
def copyLanded (s : State) (c : Copy) (q : Req) (o : Nat) : State :=
  let r := c.record
  let bs := q.data
  let s := s.dropReq q.id
  let s := s.setCopy { c with readDone := c.readDone + bs.length }
  let s := if trBk r = 2 then addDec s c.ring c.ctx c.asid c.party (trBar r) 2 bs.length q.poison else s
  let id := s.reqNext
  let s := issueReqFor s c.ring c.ctx c.party .write (partsOf (copyPlace c false o) bs) 1 (.copyWrite c.id (trBar r) (trBk r))
  if q.poison then
    let stack := (q.parts.head?.map fun p => placeStack (p.dest.getD p.place)).getD 15
    let s := s.rasEvent 2 q.line 0 c.ctx c.ring stack 0 0
    match s.req id with
    | some w => s.setReq { w with poison := true, cls := q.cls }
    | none => s
  else s

/-- What a copy does next of its own: a landed read turned into a write, the next read, or the write of OWN after all
its writes (R181). -/
def copyStep (s : State) (id : Nat) : Option State :=
  match s.copy id with
  | none => none
  | some c =>
    if copyStopped s c then none
    else
    let landed := (copyReqs s id).find? fun q => q.done.isSome && (match q.purpose with | .copyRead _ _ => true | _ => false)
    match landed with
    | some q =>
      match q.purpose with
      | .copyRead _ o => some (copyLanded s c q o)
      | _ => none
    | none =>
      if c.next < trBytes c.record then
        let n := pieceLen c c.next
        let s := s.setCopy { c with next := c.next + n }
        some (issueReqFor s c.ring c.ctx c.party .read (partsOf (copyPlace c true c.next) (List.replicate n 0)) 0
          (.copyRead id c.next))
      else if c.chan.isSome ∧ !c.owning ∧ c.writeDone = trBytes c.record then
        let s := s.setCopy { c with owning := true }
        some (issueReqFor s c.ring c.ctx c.party .write [.new (.virt (c.recAddr.toNat % pow2 56)) [0]] 1 (.copyOwn id))
      else none

/-- The bookkeeping of a copy's write performed at a scope (R178, R281): counted for the copy at the scope of its
destination (R280), and against INB at the wider of that and the barrier's scope, which for an object of another package may be
any (log 68). -/
def copyWritePerformed (s : State) (q : Req) (sc : Scope) : State :=
  match q.purpose with
  | .copyWrite id bar bk =>
    let dest := (q.parts.map fun p => scopeRank (destScope q.ring s.hub.node.toNat (p.dest.getD p.place))).foldl max 0
    let old := q.done.elim 0 fun d => scopeRank d + 1
    let n := q.data.length
    let s :=
      if old ≤ dest ∧ dest ≤ scopeRank sc then
        match s.copy id with
        | some c => s.setCopy { c with writeDone := c.writeDone + n }
        | none => s
      else s
    let wide :=
      if nameNode bar = s.hub.node.toNat then max dest (barScope (s.barrier (nameRing bar) (nameNum bar))) else 4
    if bk = 1 ∧ old ≤ min wide 4 ∧ min wide 4 ≤ scopeRank sc then addDec s q.ring q.ctx q.asid q.party bar 1 n q.poison else s
  | _ => s

/-- A token count of a context falls (R346): in the bound context, in a saved one and the byte of its halyard image, or,
while it is being restored, in PTOK. -/
def tokenFall (s : State) (g : Nat) (id : BitVec 16) (t : Nat) : State :=
  if (s.ctx g).id = id ∧ (s.ring g).bound ∧ (remapOf (s.ring g) id).isNone then s.onCtx g fun c => c.setTok t (c.token t - 1)
  else
    match remapOf (s.ring g) id with
    | some (i, e) =>
      if remapState e = 3 then
        s.onRing g fun r => { r with remap := tset r.remap i (setBits e (128 + 8 * t) 8 (remapPtok e t + 1)) }
      else
        let a := remapSave e + 33024 + t
        { s with mem := s.mem.write a (s.mem.read a - 1) }.onCtxId g id fun c => c.setTok t (c.token t - 1)
    | none => s.onCtxId g id fun c => c.setTok t (c.token t - 1)

/-- Numeric flags that arrive for a context (R51, R346): in the bound context, in the control page of a saved one, or,
while it is being restored, in PFLG. -/
def orFlags (s : State) (g : Nat) (id : BitVec 16) (w : W32) : State :=
  match remapOf (s.ring g) id with
  | some (i, e) =>
    if remapState e = 3 then
      s.onRing g fun r => { r with remap := tset r.remap i (setBits e 28 9 (remapPflg e ||| w).toNat) }
    else
      let a := remapSave e + 4718656
      { s with mem := s.mem.writeN a (leBytes 4 (s.mem.readNat a 4 ||| w.toNat)) }
  | none => s.onCtxId g id fun c => { c with flagw := c.flagw ||| w }

/-- Whether a copy is complete (R178, R181): every byte written at its destination's scope, and OWN written and performed at a scope, the
first (log 119). -/
def copyDone (s : State) (c : Copy) : Bool :=
  c.writeDone == trBytes c.record &&
    (c.chan.isNone || (c.owning && !(s.reqs.any fun q => q.purpose == .copyOwn c.id && q.done.isNone)))

/-- A copy of a context counted (R321): in the context, and in the counts of its halyard image once that stands (log 95). -/
def countCopy (s : State) (g : Nat) (id : BitVec 16) : State :=
  let s := s.onCtxId g id fun x => x.addEv 13 1
  match remapOf (s.ring g) id with
  | some (_, e) =>
    let a := remapSave e + 44400 + 8 * 13
    if 2 ≤ remapState e then { s with mem := s.mem.writeN a (leBytes 8 (satAdd 48 (s.mem.readNat a 8) 1)) } else s
  | none => s

/-- COPY_COMPLETE (R178, R180): the token falls and the place is released. -/
def execCopyComplete (id : Nat) (s : State) : Host.Outcome State Fault Refusal :=
  match s.copy id with
  | none => .refused .notDue
  | some c =>
    if copyDone s c then
      let s := { s with copies := s.copies.filter fun x => x.id != id }
      .next (countCopy (tokenFall s c.ring c.ctx (trTok c.record)) c.ring c.ctx)
    else .refused .notDue

/-! ### Channels (R181) -/

/-- Whether channel n of ring g is walking. -/
def chanWalking (c : Ctx) (n : Nat) : Bool := (c.chan n).mode == .fetching || (c.chan n).mode == .waiting

/-- The fetch of the record at a channel's address, modulo 2^56 (log 71), sent; a channel that one of its accesses has stopped sends
none before the replay (R266). -/
def chanFetch (s : State) (g n : Nat) : State :=
  if partyStopped s g (s.ctx g).id (.chan n) then s
  else
    issueReq s g (.chan n) .read (partsOf (.virt (((s.ctx g).chan n).addr.toNat % pow2 56)) (List.replicate 64 0)) 0 (.chanRecord n)

/-- `copyc` in the cycle it takes effect: the channel walks from `addr`. -/
def beginCopyc (s : State) (g req n : Nat) (addr : BitVec 64) : State :=
  chanFetch (s.onCtx g fun c => c.setChan n { Chan.reset with mode := .fetching, addr := addr, armed := true, post := req }) g n

/-- `copyc … resume`: the channel walks from the record that parked it, or from that record's NEXT, read again, when it
parked on a null NEXT. -/
def beginResume (s : State) (g si req n : Nat) : State :=
  let x := (s.ctx g).chan n
  if !x.armed then takeFault s g { faultAt s g 1 9 0 0 with si := si }
  else chanFetch (s.onCtx g fun c => c.setChan n { x with mode := .fetching, post := req }) g n

/-- A channel parked. -/
def parkChan (s : State) (g n : Nat) (nullNext : Bool) : State :=
  s.onCtx g fun c => c.setChan n { c.chan n with mode := .parked, nullNext := nullNext }

/-- Whether the record a channel waits with may begin (R181): a place is free, and with ORD its earlier records are
complete. -/
def chanMayBegin (s : State) (g n : Nat) : Bool :=
  let c := s.ctx g
  decide (inFlight c < 128) &&
    (!trOrd (c.chan n).record || !(s.copies.any fun k => k.ring == g && k.ctx == c.id && k.chan == some n))

/-- The record a channel waits with begun; then the next is fetched, or the channel parks. -/
def chanBegin (s : State) (g n : Nat) : State :=
  let x := (s.ctx g).chan n
  let r := x.record
  let s := s.onCtx g fun c => raiseToken c (trTok r)
  let s := beginCopy s g (some n) r x.addr.toNat x.post
  if trNext r = 0 then parkChan s g n true
  else
    let s := s.onCtx g fun c => c.setChan n { x with mode := .fetching, addr := BitVec.ofNat 64 (trNext r), nullNext := false }
    if x.last then parkChan s g n false else chanFetch s g n

/-- A fetched record handled (R181): parked on OWN = 0 or, with a transfer-record fault, on an invalid one. A NEXT read again
parks the channel once more while it is null, and is fetched as it stands otherwise (log 82). -/
def chanRecordGot (s : State) (g n : Nat) (r : TransferRec) : State :=
  let x := (s.ctx g).chan n
  if x.nullNext then
    if trNext r = 0 then parkChan s g n true
    else
      chanFetch (s.onCtx g fun c => c.setChan n { x with addr := BitVec.ofNat 64 (trNext r), nullNext := false }) g n
  else if !trOwn r then parkChan s g n false
  else if recordInvalid r then
    takeFault (parkChan s g n false) g ({ faultAt s g 1 10 0 x.addr with issuer := 32 + n }.virt s)
  else s.onCtx g fun c => c.setChan n { x with mode := .waiting, record := r }

/-- COPY_CHANNEL_RECORD_FETCH (R181): the record of a walking channel has arrived, or the one it waits with may begin. A channel does
not act on a poisoned record: it parks there and the context consumes the poison (log 90). -/
def chanEvent (s : State) (g n : Nat) : Option State :=
  let c := s.ctx g
  match (c.chan n).mode with
  | .fetching =>
    if partyStopped s g c.id (.chan n) then none
    else
      match s.reqs.find? fun q => q.ring == g && q.ctx == c.id && q.purpose == .chanRecord n with
      | some q =>
        if q.done.isNone then none
        else
          let s := s.dropReq q.id
          if q.poison then
            some (consumePoisonAt (parkChan s g n false) g q.cls c.nextTc
              { faultAt s g 7 q.cls 0 (BitVec.ofNat 64 q.line) with issuer := 32 + n })
          else some (chanRecordGot s g n (BitVec.ofNat 512 (leNat q.data)))
      | none => some (chanFetch s g n)
  | .waiting => if chanMayBegin s g n ∧ !partyStopped s g c.id (.chan n) then some (chanBegin s g n) else none
  | _ => none

/-- COPY_CHANNEL_RECORD_FETCH. -/
def execCopyChannelRecordFetch (g n : Nat) (s : State) : Host.Outcome State Fault Refusal :=
  match chanEvent s g n with
  | some t => .next t
  | none => .refused .notDue

end Sys2Proof.Machine
end

