-- ==== Sys2Proof/Machine/LaneRows.lean ====
section
/-!
DEFINITION. The LANE rows (spec/11 R217 to R220); the tree of R219 serves collectives too (spec/17 R311).
-/

namespace Sys2Proof.Machine

open Sys2Proof

/-- A node of the tree of R219: absent, or a pattern. -/
abbrev Leaf := Option Nat

/-- Which combination a reduction makes. -/
inductive Comb where
  | add | max | min
  deriving DecidableEq, Repr

/-- Two present values combined (R219), with flags. -/
def combine (c : Comb) (t : Ty) (m : Rm) (sat : Bool) (u v : Nat) : Nat × W32 :=
  match c, t with
  | .add, .f32 =>
    let x := sumNum m [decodeCode Fmt.f32 u, decodeCode Fmt.f32 v]
    let y := roundFmt Fmt.f32 x.1 m sat
    (y.1, x.2 ||| y.2)
  | .add, .bf16 | .add, .f16 =>
    let x := sumNum m [decodeCode (fmtOfTy t) u, decodeCode (fmtOfTy t) v]
    let y := roundFmt (fmtOfTy t) x.1 m sat
    (y.1, x.2 ||| y.2)
  | .add, _ => narrowInt t sat (tyInt t u + tyInt t v)
  | .max, .f32 => (fminmax Fmt.f32 true u v, 0)
  | .min, .f32 => (fminmax Fmt.f32 false u v, 0)
  | .max, .bf16 | .max, .f16 => (fminmax (fmtOfTy t) true u v, 0)
  | .min, .bf16 | .min, .f16 => (fminmax (fmtOfTy t) false u v, 0)
  | .max, _ => (if tyInt t u ≤ tyInt t v then v else u, 0)
  | .min, _ => (if tyInt t u ≤ tyInt t v then u else v, 0)

/-- A floating-point pattern as a result (R48): a NaN becomes the canonical one. -/
def canonical (t : Ty) (u : Nat) : Nat :=
  match t with
  | .f32 | .bf16 | .f16 => if decodeCode (fmtOfTy t) u = .nan then (fmtOfTy t).nanCode else u
  | _ => u

/-- `comb` of R219: an absent side gives the other, a NaN being a result like any other (R48). -/
def comb (c : Comb) (t : Ty) (m : Rm) (sat : Bool) (u v : Leaf) : Leaf × W32 :=
  match u, v with
  | none, y => (y.map (canonical t), 0)
  | x, none => (x.map (canonical t), 0)
  | some x, some y => let z := combine c t m sat x y; (some z.1, z.2)

/-- One level of the tree: neighbours combined. -/
def treeLevel (c : Comb) (t : Ty) (m : Rm) (sat : Bool) : List Leaf → List Leaf × W32
  | x :: y :: r =>
    let z := comb c t m sat x y
    let w := treeLevel c t m sat r
    (z.1 :: w.1, z.2 ||| w.2)
  | [x] => ([x], 0)
  | [] => ([], 0)

/-- All levels of the tree, leaves first (R219). -/
def treeLevels (c : Comb) (t : Ty) (m : Rm) (sat : Bool) : Nat → List Leaf → List (List Leaf) × W32
  | 0, l => ([l], 0)
  | n + 1, l =>
    let x := treeLevel c t m sat l
    let y := treeLevels c t m sat n x.1
    (l :: y.1, x.2 ||| y.2)

/-- The identity of a reduction (R219). -/
def identityOf (c : Comb) (t : Ty) : Nat :=
  match c, t with
  | .add, _ => 0
  | .max, .f32 => 0xFF800000
  | .max, .i32 => 0x80000000
  | .max, _ => 0
  | .min, .f32 => 0x7F800000
  | .min, .i32 => 0x7FFFFFFF
  | .min, _ => 0xFFFFFFFF

/-- Leaves of the lanes whose guard is true (R219). -/
def leavesOf (guard : W32) (v : Vec) : List Leaf :=
  (List.range 32).map fun l => if bit guard l then some (v.lane l).toNat else none

/-- `lred` (R219): the tree's root in every lane. -/
def reduceRow (r : Row) (c : Comb) (s : State) (up : Vec) : RowResult :=
  let x := treeLevels c r.ty r.rm r.sat 5 (leavesOf (guardNow s r) (srcA s up r (.ty r.ty)).val)
  let root := ((x.1.getLast?.getD []).getD 0 none).getD (identityOf c r.ty)
  ⟨Vec.splat (BitVec.ofNat 32 root), 0, x.2⟩

/-- The blocks of the prefix of `n` lanes, as (level, node), larger first (R220). -/
def prefixBlocks (n : Nat) : List (Nat × Nat) :=
  [5, 4, 3, 2, 1, 0].filterMap fun k =>
    if (n >>> k) % 2 = 1 then some (k, (n >>> (k + 1)) * 2) else none

/-- `lscan.add` (R220): in each lane the comb of its prefix's blocks in lane order. -/
def scanRow (r : Row) (s : State) (up : Vec) : RowResult :=
  let x := treeLevels .add r.ty r.rm r.sat 5 (leavesOf (guardNow s r) (srcA s up r (.ty r.ty)).val)
  let node (k m : Nat) : Leaf := (x.1.getD k []).getD m none
  let pre (l : Nat) : Leaf × W32 :=
    (prefixBlocks (l + 1)).foldl
      (fun a b => let z := comb .add r.ty r.rm r.sat a.1 (node b.1 b.2); (z.1, a.2 ||| z.2)) (none, 0)
  let flags := (List.range 32).foldl (fun w l => w ||| (pre l).2) 0
  ⟨Vec.ofLanes fun l => BitVec.ofNat 32 ((pre l).1.getD 0), 0, x.2 ||| flags⟩

/-- `lrot` (R218). -/
def execLrot (r : Row) (s : State) : Host.Outcome State Fault Refusal :=
  resultRow (.lrot r) r (perLane fun s up l => laneA s up r ((l + bits r.imm 0 5) % 32)) s

/-- `lbcast` (R218). -/
def execLbcast (r : Row) (s : State) : Host.Outcome State Fault Refusal :=
  resultRow (.lbcast r) r (perLane fun s up _ => laneA s up r (bits r.imm 0 5)) s

/-- `lshuf` (R218). -/
def execLshuf (r : Row) (s : State) : Host.Outcome State Fault Refusal :=
  resultRow (.lshuf r) r (perLane fun s up l => laneA s up r (bits (laneB s up r l) 0 5)) s

/-- `lred.add` (R219). -/
def execLredAdd (r : Row) (s : State) : Host.Outcome State Fault Refusal :=
  resultRow (.lredAdd r) r (reduceRow r .add) s

/-- `lred.max` (R219). -/
def execLredMax (r : Row) (s : State) : Host.Outcome State Fault Refusal :=
  resultRow (.lredMax r) r (reduceRow r .max) s

/-- `lred.min` (R219). -/
def execLredMin (r : Row) (s : State) : Host.Outcome State Fault Refusal :=
  resultRow (.lredMin r) r (reduceRow r .min) s

/-- `lscan.add` (R220). -/
def execLscanAdd (r : Row) (s : State) : Host.Outcome State Fault Refusal :=
  resultRow (.lscanAdd r) r (scanRow r) s

/-- `lzip` (R218). -/
def execLzip (r : Row) (s : State) : Host.Outcome State Fault Refusal :=
  resultRow (.lzip r) r (perLane fun s up l =>
      if l % 2 = 0 then laneA s up r (16 * bits r.imm 0 1 + l / 2) else laneB s up r (16 * bits r.imm 0 1 + (l - 1) / 2)) s

/-- `lunzip` (R218). -/
def execLunzip (r : Row) (s : State) : Host.Outcome State Fault Refusal :=
  resultRow (.lunzip r) r (perLane fun s up l =>
      if l < 16 then laneA s up r (2 * l + bits r.imm 0 1) else laneB s up r (2 * (l - 16) + bits r.imm 0 1)) s


end Sys2Proof.Machine
end

