-- ==== Sys2Proof/Machine/Collectives.lean ====
section
/-!
DEFINITION. Collectives (spec/17 R306 to R312): groups, descriptors, matching, data and failure.
-/

namespace Sys2Proof.Machine

open Sys2Proof

/-- The header of group n of the group table (R306). -/
def groupHeader (s : State) (n : Nat) : BitVec 64 :=
  BitVec.ofNat 64 (s.mem.readNat (s.hub.gtbase.toNat + 16384 * n) 8)
/-- Ranks of a group. -/
def groupRanks (h : BitVec 64) : Nat := bits h 41 12
/-- Member r of group n. -/
def groupMember (s : State) (n r : Nat) : BitVec 32 :=
  BitVec.ofNat 32 (s.mem.readNat (s.hub.gtbase.toNat + 16384 * n + 64 + 4 * r) 4)
/-- Package node and global ring of a member. -/
def memberPlace (m : BitVec 32) : Nat × Nat := (bits m 25 7, bits m 20 5)

/-- Whether a group is valid (R306). -/
def groupValid (s : State) (n : Nat) : Bool :=
  let h := groupHeader s n
  let ms := (List.range (groupRanks h)).map (groupMember s n)
  bit h 63 && bits h 0 41 == 0 && decide (1 ≤ groupRanks h) && decide (groupRanks h ≤ 3072) &&
    ms.eraseDups.length == ms.length && ms.all fun m => decide (bits m 20 5 < 24) && bits m 0 20 == 0

/-- The rank of ring g of this package in a group (R306). -/
def rankOf (s : State) (n g : Nat) : Option Nat :=
  (List.range (groupRanks (groupHeader s n))).find? fun r =>
    memberPlace (groupMember s n r) == (s.hub.node.toNat, g)

/-- Bytes of an element of a type code that a collective accepts (R308). -/
def collSize (t : Nat) : Option Nat :=
  match t with
  | 0 => some 4
  | 1 => some 2
  | 2 => some 2
  | 3 => some 4
  | 6 => some 4
  | _ => none

/-- Bytes that rank r reads and writes (R310). -/
def collBytes (d : CollDesc) (nrank rank : Nat) : Nat × Nat :=
  let n := cdCount d * (collSize (cdType d)).getD 4
  match cdOp d with
  | 1 => (n, if rank = cdRoot d then n else 0)
  | 2 => (if rank = cdRoot d then n else 0, n)
  | 3 => (n, nrank * n)
  | 4 => (nrank * n, n)
  | _ => (n, n)

/-- The step-operand faults of a descriptor (R308). -/
def collBad (d : CollDesc) (nrank rank : Nat) : Bool :=
  let (rd, wr) := collBytes d nrank rank
  let overlap := rd != 0 && wr != 0 && decide (cdSrc d < cdDst d + wr) && decide (cdDst d < cdSrc d + rd)
  let equal := cdSrc d == cdDst d && (cdOp d == 0 || (cdOp d == 2 && rank == cdRoot d))
  bits d 0 309 != 0 || decide (255 < cdGroup d) || decide (5 ≤ cdOp d) || decide (3 ≤ cdRed d) ||
    (collSize (cdType d)).isNone || ((cdOp d == 2 || cdOp d == 3) && cdRed d != 0) ||
    (cdOp d != 1 && cdOp d != 2 && cdRoot d != 0) || cdSrc d % 64 != 0 || cdDst d % 64 != 0 || cdCount d == 0 ||
    decide (pow2 28 < cdCount d) || (overlap && !equal)

/-- The in-flight place and token of a collective released (R309, R312). -/
def collRelease (s : State) (c : Coll) : State := tokenFall s c.ring c.ctx c.tok

/-- A barrier fault of a collective's member (R309, R351) at the state index of its `coll`: in the bound context, or kept for a saved
one. -/
def collFault (s : State) (c : Coll) (cause : Nat) : State :=
  takeFaultFor s c.ring c.ctx
    { faultFor s c.ring c.ctx 6 cause 0 (BitVec.ofNat 64 c.group) with si := c.si, issuer := 48 }

/-- A collective failed for a member: its token and place are released and it takes the fault. -/
def collFail (s : State) (c : Coll) (cause : Nat) : State :=
  collFault (collRelease { s with colls := s.colls.erase c } c) c cause

/-- A collective posted in the cycle it begins (R309): the j-th of its context on the group. -/
def beginColl (s : State) (g si req : Nat) (d : CollDesc) (rank : Nat) : State :=
  let c := s.ctx g
  let j := tget c.collCount (cdGroup d) 0
  let x : Coll :=
    { si := si, group := cdGroup d, seqNo := j, ring := g, ctx := c.id, rank := rank, desc := d, tok := cdTok d, begun := false,
      post := req, copies := s.copyNext, stop := none }
  let s := s.onCtx g fun c => { c with collCount := tset c.collCount (cdGroup d) ((j + 1) % 65536) }
  let s := { s with colls := s.colls ++ [x], copyNext := s.copyNext + 1 }
  match s.collFailed.find? fun e => e.1 == cdGroup d with
  | some (_, n) => if n ≤ j then collFail s x 15 else s
  | none => s

/-- A member context has ended (R309): every collective of its groups that it had not posted, and every one that it had
posted and that is not over, fails for the others (log 91). -/
def collMemberEnds (s : State) (g : Nat) (x : Ctx) : State :=
  let id := x.id
  let mine := s.colls.filter fun c => c.ring == g && c.ctx == id
  let s := (List.range 256).foldl (fun s n =>
    if groupValid s n && (rankOf s n g).isSome && bits (groupHeader s n) 53 10 == x.asid.toNat then
      let j := (mine.filter fun c => c.group == n).foldl (fun m c => min m c.seqNo) (tget x.collCount n 0)
      { s with collFailed := tset s.collFailed n (min j (tget s.collFailed n j)) }
    else s) s
  let s := { s with colls := s.colls.filter fun c => !(c.ring == g && c.ctx == id) }
  (s.colls.filter fun c =>
    (mine.any fun m => m.group == c.group && m.seqNo == c.seqNo) ||
      (match s.collFailed.find? fun e => e.1 == c.group with
      | some (_, n) => decide (n ≤ c.seqNo)
      | none => false)).foldl (fun s c => collFail s c 15) s

/-- The lowest collective of a group that is posted and not begun. -/
def collNext (s : State) (n : Nat) : Option Coll :=
  (s.colls.filter fun c => c.group == n && !c.begun).foldl (fun b c =>
    match b with
    | none => some c
    | some x => if c.seqNo < x.seqNo then some c else b) none

/-- Whether every member of this package has posted collective `j` of a group; members of other packages are taken to
have (log 9). -/
def collPosted (s : State) (n j : Nat) : Bool :=
  (List.range (groupRanks (groupHeader s n))).all fun r =>
    (memberPlace (groupMember s n r)).1 != s.hub.node.toNat ||
      s.colls.any fun c => c.group == n && c.seqNo == j && c.rank == r

/-- What R309 compares. -/
def collShape (d : CollDesc) : Nat × Nat × Nat × Nat × Nat := (cdOp d, cdRed d, cdType d, cdCount d, cdRoot d)

/-- The bytes of a place where an access of a kind finds them (R254): each unit's translation, or its address after the rename windows where
it has none. -/
def spansOf (s : State) (d : Nat) (x : Ctx) (k : ReqKind) (p : Place) (n : Nat) : List (Place × Nat) :=
  match p with
  | .virt va =>
    (splitAt 65536 (va % pow2 56) n (n / 65536 + 2)).map fun u =>
      let t := translateVa s d x u.1 k
      match t.walk with
      | .ok place _ _ => (place, u.2)
      | .fault _ _ _ => (.virt t.va, u.2)
  | p => [(p, n)]

/-- Whether two runs of bytes share one. -/
def spanMeets (a b : Place × Nat) : Bool :=
  let meet (x y : Nat) : Bool := decide (x < y + b.2) && decide (y < x + a.2)
  match a.1, b.1 with
  | .virt x, .virt y => meet x y
  | .phys x, .phys y => meet x y
  | .node m x, .node n y => m == n && meet x y
  | _, _ => false

/-- Whether two lists of runs share a byte. -/
def spansMeet (a b : List (Place × Nat)) : Bool := a.any fun x => b.any (spanMeets x)

/-- Whether a copy that is not complete reads or writes one of the bytes named. -/
def copyMeets (s : State) (x : Ctx) (k : Copy) (named : List (Place × Nat)) : Bool :=
  !(k.writeDone == trBytes k.record) &&
    (List.range (trBytes k.record / max (trC0 k.record) 1)).any fun i =>
      let o := i * trC0 k.record
      let meets (src : Bool) : Bool :=
        spansMeet (spansOf s (dieOf k.ring) x (if src then .read else .write) (copyPlace k src o) (trC0 k.record)) named
      meets true || meets false

/-- What a member has issued before its collective: up to its post, or, at its completion, up to now, but for what a later fence of the
member orders after the collective (R278). -/
def collBefore (s : State) (x : Ctx) (c : Coll) (now : Bool) : Divider :=
  if now then
    (x.dividers.filter fun dv => dv.streams.isNone && decide (c.copies < dv.copies)).foldl
      (fun b dv => { b with before := min b.before dv.before, copies := min b.copies dv.copies }) ⟨s.reqNext, s.copyNext, .pod, .full, none⟩
  else ⟨c.post, c.copies, .pod, .full, none⟩

/-- Whether a member has accesses that come before its collective, or before its completion, and are not yet performed: an `ast` before its
post (R158), what a line of its context holds back (R278), or, at `pod` scope, an access to the buffers that it names (R285); every line of
a copy that began before it is such an access (R275). -/
def collWaits (s : State) (nrank : Nat) (now : Bool) (c : Coll) : Bool :=
  match s.ctxById c.ring c.ctx with
  | none => false
  | some x =>
    let (rd, wr) := collBytes c.desc nrank c.rank
    let d := dieOf c.ring
    let named := spansOf s d x .read (.virt (cdSrc c.desc)) rd ++ spansOf s d x .write (.virt (cdDst c.desc)) wr
    let before := collBefore s x c now
    (s.reqs.any fun q => q.ring == c.ring && q.ctx == c.ctx && inDivider before q &&
      ((q.purpose == .ast && decide (q.id < c.post) && q.done.isNone) ||
        (!q.performedAt .pod && q.parts.any fun p => spansMeet (spansOf s d x q.kind (p.dest.getD p.place) p.bytes.length) named))) ||
      (s.copies.any fun k => k.ring == c.ring && k.ctx == c.ctx && decide (k.id < before.copies) && copyMeets s x k named) ||
      x.dividers.any fun dv => dv.streams.isNone && decide (dv.copies ≤ c.copies) && dividerBlocks s c.ring c.ctx dv

/-- COLLECTIVE_START (R309): every member has posted, and has performed what comes before (R285); a difference fails all of them
with cause 14. -/
def execCollectiveStart (group : Nat) (s : State) : Host.Outcome State Fault Refusal :=
  match collNext s group with
  | none => .refused .notDue
  | some x =>
    if !collPosted s group x.seqNo then .refused .notDue
    else
      let all := s.colls.filter fun c => c.group == group && c.seqNo == x.seqNo
      let nrank := groupRanks (groupHeader s group)
      if all.any (collWaits s nrank false) then .refused .notDue
      else if (all.all fun c => collShape c.desc == collShape x.desc) && decide (cdRoot x.desc < nrank) then
        .next { s with
          colls := s.colls.map fun c => if c.group = group ∧ c.seqNo = x.seqNo then { c with begun := true } else c }
      else .next (all.foldl (fun s c => collFail s c 14) s)

/-- A range of a member's virtual memory as places, or the fault of its translation. -/
def collPlaces (s : State) (c : Coll) (va n : Nat) (k : ReqKind) : Except (Nat × BitVec 64 × Nat × Nat) (List (Place × Nat)) :=
  match s.ctxById c.ring c.ctx with
  | none => .ok []
  | some x =>
    (splitAt 65536 (va % pow2 56) n (n / 65536 + 2)).foldl (fun r p =>
      match r with
      | .error e => .error e
      | .ok l =>
        let t := translateVa s (dieOf c.ring) x p.1 k
        match t.walk with
        | .ok place _ _ => .ok (l ++ [(place, p.2)])
        | .fault cause pte level => .error (cause, pte, level, t.va)) (.ok [])

/-- A request that stands for a collective's accesses of a member, made by its copy engine. -/
def collReq (c : Coll) (k : ReqKind) : Req :=
  { id := 0, ring := c.ring, ctx := c.ctx, asid := 0, party := .copyEngine, kind := k, parts := [], wdi := 0, lines := 0,
    tc := 0, purpose := .other, done := none, stop := none, poison := false, cls := 0, line := 0, stale := false }

/-- A member's source bytes. -/
def collRead (s : State) (c : Coll) (n : Nat) : Except (Nat × BitVec 64 × Nat × Nat) (List Byte) :=
  match collPlaces s c (cdSrc c.desc) n .read with
  | .error e => .error e
  | .ok ps => .ok (ps.flatMap fun p => (readPlace s (collReq c .read) p.1 p.2).1)

/-- The element type of a type code. -/
def collTy (t : Nat) : Ty := (Ty.ofCode t).getD .f32

/-- The combination of RED. -/
def collComb (r : Nat) : Comb := match r with | 1 => .min | 2 => .max | _ => .add

/-- Levels of the tree for a number of ranks (R311). -/
def treeDepth (n : Nat) : Nat := if n ≤ 1 then 0 else bitLen (n - 1)

/-- One reduced element of the ranks' patterns, with its flags (R311). -/
def reduceElem (red ty : Nat) (xs : List Nat) : Nat × W32 :=
  let m := treeDepth xs.length
  let leaves : List Leaf := (List.range (pow2 m)).map fun i => xs[i]?
  let x := treeLevels (collComb red) (collTy ty) .rne false m leaves
  (((x.1.getLast?.getD []).getD 0 none).getD 0, x.2)

/-- The reduction of blocks of `n` elements of `e` bytes, one block for each rank. -/
def reduceBlocks (red ty e n : Nat) (blocks : List (List Byte)) : List Byte × W32 :=
  let ws := blocks.map fun b => wordsOf e n b
  (List.range n).foldl (fun a i =>
    let x := reduceElem red ty (ws.map fun w => w.getD i 0)
    (a.1 ++ leBytes e x.1, a.2 ||| x.2)) ([], 0)

/-- What rank r writes (R310), from every rank's source bytes, and the flags raised. -/
def collResult (d : CollDesc) (srcs : List (List Byte)) (rank : Nat) : List Byte × W32 :=
  let e := (collSize (cdType d)).getD 4
  let n := cdCount d
  let red (bs : List (List Byte)) := reduceBlocks (cdRed d) (cdType d) e n bs
  match cdOp d with
  | 0 => red srcs
  | 1 => let x := red srcs; if rank = cdRoot d then x else ([], x.2)
  | 2 => (srcs.getD (cdRoot d) [], 0)
  | 3 => (srcs.flatMap id, 0)
  | _ => red (srcs.map fun b => (b.drop (rank * n * e)).take (n * e))

/-- The flags that the combs of a collective raise, over every rank's part of the result (R311). -/
def collFlags (d : CollDesc) (srcs : List (List Byte)) : W32 :=
  if cdOp d = 4 then (List.range srcs.length).foldl (fun a r => a ||| (collResult d srcs r).2) 0 else (collResult d srcs (cdRoot d)).2

/-- The sources of every rank in order; another package's are free bytes (log 9). -/
def collSources (s : State) (n j nrank : Nat) : Except (Coll × Nat × BitVec 64 × Nat × Nat) (List (List Byte)) :=
  (List.range nrank).foldl (fun r k =>
    match r with
    | .error e => .error e
    | .ok l =>
      match s.colls.find? fun c => c.group == n && c.seqNo == j && c.rank == k with
      | none =>
        let len := ((s.colls.find? fun c => c.group == n && c.seqNo == j).elim 0 fun c => (collBytes c.desc nrank k).1)
        .ok (l ++ [(List.range len).map fun i => Config.remoteByte (s.freeCtr + i)])
      | some c =>
        match collRead s c (collBytes c.desc nrank k).1 with
        | .error e => .error (c, e)
        | .ok bs => .ok (l ++ [bs])) (.ok [])

/-- A collective's translation fault posted for service (R266): it stops the member's copy engine until a replay. -/
def collStop (s : State) (c : Coll) (k : ReqKind) (e : Nat × BitVec 64 × Nat × Nat) : State :=
  let since := (c.stop.map (·.since)).getD s.tick.toNat
  let st : Stop := ⟨e.1, e.2.1, e.2.2.1, e.2.2.2, kindCode k, false, since⟩
  postFault { s with colls := s.colls.map fun x => if x = c then { x with stop := some st } else x } (dieOf c.ring) c.ring
    { collReq c k with asid := ((s.ctxById c.ring c.ctx).elim 0 Ctx.asid) } e.2.2.2 e.1 e.2.1 e.2.2.1

/-- A stopped collective's access made again (R268): it goes on where it translates now. -/
def replayColl (s : State) (c : Coll) : State :=
  match c.stop with
  | none => s
  | some st =>
    let (rd, wr) := collBytes c.desc (groupRanks (groupHeader s c.group)) c.rank
    let x : ReqKind × Nat × Nat := if st.kind = 1 then (.write, cdDst c.desc, wr) else (.read, cdSrc c.desc, rd)
    match collPlaces s c x.2.1 x.2.2 x.1 with
    | .ok _ => { s with colls := s.colls.map fun y => if y = c then { y with stop := none } else y }
    | .error e => collStop s c x.1 e

/-- The line requests of a collective's accesses for one member counted at their pages (R262). -/
def collWalks (s : State) (c : Coll) (nrank : Nat) : State :=
  match s.ctxById c.ring c.ctx with
  | none => s
  | some x =>
    let (rd, wr) := collBytes c.desc nrank c.rank
    countWalks (countWalks s (dieOf c.ring) x (cdSrc c.desc) rd .read) (dieOf c.ring) x (cdDst c.desc) wr .write

/-- Whether what a member writes carries poison (R316): its context unwinds, and it had not posted the collective before. -/
def collPoisoned (s : State) (c : Coll) : Bool :=
  (s.ctxById c.ring c.ctx).any fun x => x.unwinding.any fun u => decide (u.copies ≤ c.copies)

/-- COLLECTIVE_COMPLETE (R310 to R312): every member's reads and writes performed, once what it issued to its buffers is (R285), flags ORed
into every member's flag word, tokens fallen and places released. Bytes of a source are used as they are read, poisoned or not (log 117). -/
def execCollectiveComplete (group : Nat) (s : State) : Host.Outcome State Fault Refusal :=
  match s.colls.find? fun c => c.group == group && c.begun with
  | none => .refused .notDue
  | some x =>
    let nrank := groupRanks (groupHeader s group)
    let all := s.colls.filter fun c => c.group == group && c.seqNo == x.seqNo && c.begun
    if all.any fun c => partyStopped s c.ring c.ctx .copyEngine || collWaits s nrank true c then .refused .notDue
    else
    match collSources s group x.seqNo nrank with
    | .error (c, e) => .next (collStop s c .read e)
    | .ok srcs =>
      let outs := all.map fun c =>
        let r := collResult c.desc srcs c.rank
        (c, r, collPlaces s c (cdDst c.desc) r.1.length .write)
      match outs.findSome? fun o => match o.2.2 with
        | .error e => some (o.1, e)
        | .ok _ => none with
      | some (c, e) => .next (collStop s c .write e)
      | none =>
        let s := outs.foldl (fun s o =>
          match o.2.2 with
          | .ok ps =>
            let q := collReq o.1 .write
            if collPoisoned s o.1 then ps.foldl (fun s p => poisonPlace s q p.1 p.2) s
            else
              (ps.foldl (fun (a : State × List Byte) p =>
                (writePlace a.1 q p.1 (a.2.take p.2), a.2.drop p.2)) (s, o.2.1.1)).1
          | .error _ => s) s
        let s := all.foldl (fun s c => collWalks s c nrank) s
        let flags := collFlags x.desc srcs
        let s := outs.foldl (fun s o => orFlags (collRelease s o.1) o.1.ring o.1.ctx flags) s
        .next { s with
          colls := s.colls.filter fun c => !(c.group == group && c.seqNo == x.seqNo),
          freeCtr := s.freeCtr + (srcs.map List.length).sum }

end Sys2Proof.Machine
end

