-- ==== Sys2Proof/Machine/Commands.lean ====
section
/-!
DEFINITION. The form of a step's meaning (spec/07 R107 to R112, spec/09 R136 to R143): completing, waiting, posting a
command into the start queue, and the commands that begin.
-/

namespace Sys2Proof.Machine

open Sys2Proof

/-- How a step's effect ends in this cycle: complete, waiting, or cut by a fault or an unwinding. -/
inductive StepEnd where
  | done (s : State)
  | wait (s : State)
  | stop (s : State)

/-- The next state of a step's effect on ring g: a completed step takes its transition (R109). -/
def endStepState (g : Nat) (t : Trans) : StepEnd → State
  | .done s => finishStep s g t
  | .wait s => s
  | .stop s => s

/-- A step issued on the ring in focus: its effect sees no earlier wait. -/
def stepMeaning (i : Instr) (t : Trans) (f : State → Nat → Option Wait → StepEnd) (s : State) :
    Host.Outcome State Fault Refusal :=
  match i.check with
  | some e => .refused (.illFormed e.code)
  | none => .next (endStepState s.focus.ring t (f s s.focus.ring none))

/-- A step that completes in one cycle by changing its context. -/
def ctxStep (f : Ctx → Ctx) (s : State) (g : Nat) (_ : Option Wait) : StepEnd := .done (s.onCtx g f)

/-- A wait at stage 0 with nothing received. -/
def Wait.first (c : Ctx) : Wait := ⟨0, 0, 0, c.tc, none⟩

/-! ### Commands that begin (R141) -/

/-- A context with a queue's counters and entries gone in every block. -/
def resetQueue (r : Ring) (q : Nat) : Ring := { r with qst := r.qst.filter fun e => e.1 % 16 != q }

/-- `qset` in the cycle it takes effect (R165): queue q configured in every block, or a step-operand fault when it is
bound to an open stream. -/
def beginQset (s : State) (g si q base size ent : Nat) : State :=
  if (s.ctx g).streams.any fun e => e.2.isOpen && e.2.q == q then takeFault s g { faultAt s g 1 9 0 0 with si := si }
  else s.onRing g fun r => resetQueue { r with qcfg := tset r.qcfg q ⟨ent != 1, base, size, ent⟩ } q

/-- `sbar` at its dividing cycle (R175): a named stream that is closed is ignored. -/
def beginSbar (s : State) (g : Nat) (mask : BitVec 32) (scope : Scope) : State :=
  s.onCtx g fun c =>
    let named : BitVec 32 := (maskList mask).foldl (fun m n => if (c.stream n).isOpen then setBit m n true else m) 0
    { c with dividers := c.dividers ++ [⟨s.reqNext, s.copyNext, scope, .full, some named⟩] }

/-- A command that begins in this cycle, posted at state index `si` when `req` was the next request: it takes its effect or makes
its first request (R141). -/
def beginCommand (s : State) (g si req : Nat) : Command → State
  | .run _ _ _ _ => armRun s g
  | .qset q base size ent => beginQset s g si q base size ent
  | .sopen n vs out q d => beginSopen s g si req n vs out q d
  | .sclose n abort => beginSclose s g n abort
  | .sbar mask scope => beginSbar s g mask scope
  | .copy r a =>
    let s' := beginCopy s g none r a.toNat req
    (copyStep s' s.copyNext).getD s'
  | .copyc n a => beginCopyc s g req n a
  | .copycResume n => beginResume s g si req n
  | .coll d rank => beginColl s g si req d rank

/-- Whether a fence of the context is waiting: commands whose T falls in the wait begin when it completes (R303). -/
def fenceWaiting (c : Ctx) : Bool := c.wait.isSome && c.dividers.any fun d => d.streams.isNone

/-- Whether a command of the start queue may begin: its cycle has come, no fence waits, and the channel of a `copyc` has
parked or is idle (R181). -/
def mayBegin (c : Ctx) (p : Posted) : Bool :=
  (match p.start with
  | .at t => decide (t ≤ c.tc)
  | .hoist _ _ _ => false) && !fenceWaiting c &&
    (match p.cmd with
    | .copyc n _ => !chanWalking c n
    | .copycResume n => !chanWalking c n
    | _ => true)

/-- The commands that may begin, the earliest posted first among those of least T (R141). -/
def nextCommand (c : Ctx) : Option Posted :=
  (c.startq.filter (mayBegin c)).foldl (fun b p =>
    match b with
    | none => some p
    | some x =>
      match x.start, p.start with
      | .at t, .at u => if u < t then some p else some x
      | _, _ => some x) none

/-- START_COMMAND_BEGIN (R141). -/
def execStartCommandBegin (g : Nat) (s : State) : Host.Outcome State Fault Refusal :=
  match nextCommand (s.ctx g) with
  | none => .refused .notDue
  | some p =>
    let s := s.onCtx g fun c => { c with startq := c.startq.erase p }
    .next (beginCommand s g p.si p.req p.cmd)

/-! ### Posting (R108, R141, R142) -/

/-- T of a task-relative start (R108): the least value not below TC - 2^31 that is START modulo 2^32. -/
def taskStart (tc start : Nat) : Int :=
  let lo : Int := (tc : Int) - 2147483648
  lo + ((start : Int) - lo) % 4294967296

/-- The hoist that a start relative to virtual stripe VS names (R142): run, hoist number. -/
def postHoist (c : Ctx) (vs : Nat) : Option (Run × Nat) :=
  match c.lastRun with
  | none => none
  | some r =>
    let w := (c.kreg r.ksel).toInt
    if vs < r.first ∨ r.first + r.nv ≤ vs ∨ w < 0 ∨ (r.done && r.arm.isNone) then none
    else
      let h := w.toNat * r.nv + (vs - r.first)
      if h < r.limit then some (r, h) else none

/-- The start that a post names (R108, R142): none for a step-operand fault. -/
def resolveStart (c : Ctx) (l : LongForm) : Option (Int ⊕ StartAt) :=
  match l.vs with
  | none => some (.inl (taskStart c.tc l.start.toNat))
  | some vs => (postHoist c vs.toNat).map fun x => .inr (.hoist x.1.id x.2 l.start.toNat)

/-- A start as it is known now: at a cycle once the start of the hoist it names is known (R142). -/
def StartAt.now (c : Ctx) (st : StartAt) : StartAt :=
  match st with
  | .at t => .at t
  | .hoist r h off =>
    match c.runs.find? fun x => x.id == r && x.arm.isSome, c.hlog.find? fun x => x.h == h with
    | some _, some x => .at (x.start + off)
    | _, _ => .hoist r h off

/-- The hoist that a start names. -/
def StartAt.named : StartAt → Option (Nat × Nat)
  | .at _ => none
  | .hoist r h _ => some (r, h)

/-- A command entered in the start queue, or begun at once when its T is now (R141, R352). -/
def enterQueue (s : State) (g : Nat) (st : StartAt) (cmd : Command) : State :=
  let c := s.ctx g
  let p : Posted := ⟨st.now c, c.si, s.reqNext, cmd, st.named⟩
  if mayBegin c p then beginCommand s g p.si p.req cmd
  else s.onCtx g fun c => { c with startq := c.startq ++ [p] }

/-- A post in this cycle (R141): late, waiting for room, or entered; dropped when the hoist it names will not occur, its run having
parked while the post waited (R143). -/
def postAt (s : State) (g : Nat) (st : StartAt) (cmd : Command) (stage : Nat) (data : BitVec 512) : StepEnd :=
  let c := s.ctx g
  let late : Option Nat := match st.now c with
    | .at t => if t < c.tc then some t else none
    | .hoist _ _ _ => none
  if st.named.any fun x => c.runs.any fun r => r.id == x.1 && r.parked && decide (r.limit ≤ x.2) then
    .done (s.onCtx g fun c => dropCommand c cmd)
  else if late.isSome then .stop (lateFault s g (late.getD 0) c.si)
  else if 16 ≤ c.startq.length then .wait (waitStep s g ⟨stage, 0, data, c.tc, some st⟩)
  else .done (enterQueue s g st cmd)

/-- A command of a step whose own waits are over (R112, R141): in the short form it begins in this cycle, in the long
form it is posted; `w` carries a start already resolved by a post that waits for room. -/
def issueCommand (s : State) (g : Nat) (l : Option LongForm) (w : Option Wait) (cmd : Command) (stage : Nat)
    (data : BitVec 512) : StepEnd :=
  match l with
  | none => .done (beginCommand s g (s.ctx g).si s.reqNext cmd)
  | some f =>
    match w.bind (·.post) with
    | some st => postAt s g st cmd stage data
    | none =>
      match resolveStart (s.ctx g) f with
      | none => .stop (stepOperandFault s g)
      | some (.inr st) => postAt s g st cmd stage data
      | some (.inl t) =>
        if t < (s.ctx g).tc then
          .stop (takeFault s g (faultAt s g 2 1 (BitVec.ofNat 32 (t % 4294967296).toNat) 0))
        else postAt s g (.at t.toNat) cmd stage data

/-- START_CYCLE_RESOLVED (R142): the n-th command of the start queue learns its T; if TC has passed it, the post's timing
fault. -/
def execStartCycleResolved (g n : Nat) (s : State) : Host.Outcome State Fault Refusal :=
  let c := s.ctx g
  match c.startq[n]? with
  | none => .refused .notDue
  | some p =>
    match p.start with
    | .at _ => .refused .notDue
    | .hoist r h off =>
      match (StartAt.hoist r h off).now c with
      | .at t =>
        if t < c.tc then .next (lateFault (s.onCtx g fun c => { c with startq := c.startq.eraseIdx n }) g t p.si)
        else .next (s.onCtx g fun c => { c with startq := c.startq.set n { p with start := .at t } })
      | .hoist _ _ _ => .refused .notDue

/-! ### Reads that a step waits for -/

/-- What became of the read a step waits for: not yet, its bytes, or poison consumed (R315). -/
inductive Fetched where
  | pending
  | got (s : State) (bs : List Byte)
  | stop (s : State)

/-- The access of a waiting step whose answer is taken: gone, but for an `atom` that is still to be performed at `sys` scope, which
nothing waits for any more. -/
def takenReq (s : State) (q : Req) : State :=
  if q.kind = .atomic ∧ !q.performedAt .sys then s.setReq { q with purpose := .other } else s.dropReq q.id

/-- The read number `id` of a waiting step, dropped once its data is taken; poisoned data is consumed by the step. -/
def takeRead (s : State) (g id : Nat) : Fetched :=
  match s.req id with
  | none => .pending
  | some q =>
    if q.done.isNone then .pending
    else if q.poison then
      .stop (consumePoison (takenReq s q) g q.cls (faultAt s g 7 q.cls 0 (BitVec.ofNat 64 q.line)))
    else .got (takenReq s q) q.data

/-- The read of a 64-byte descriptor or record at a virtual address, sent: the state and its number. -/
def sendRead (s : State) (g a n : Nat) (p : Purpose) : State × Nat :=
  (issueReq s g .seq .read (partsOf (.virt (a % pow2 56)) (List.replicate n 0)) 0 p, s.reqNext)

end Sys2Proof.Machine
end

