-- ==== Sys2Proof/Machine/ControlSteps.lean ====
section
/-!
DEFINITION. The control steps (spec/09 R144 to R151).
-/

namespace Sys2Proof.Machine

open Sys2Proof

/-- `nop` (R145): no effect. -/
def execStepNop (t : Trans) (s : State) : Host.Outcome State Fault Refusal :=
  stepMeaning (.stepNop t) t (fun s _ _ => .done s) s

/-- `go target` (R145): the transition is taken. -/
def execGo (target : BitVec 12) (s : State) : Host.Outcome State Fault Refusal :=
  stepMeaning (.go target) .fall (fun s g _ => .stop (enterState s g target.toNat target.toNat)) s

/-- `go kA` (R145): control to kA[11:0], or the state-overrun image fault with kA[31:0]. -/
def goIndirectStep (a : Fin 16) (s : State) (g : Nat) (_ : Option Wait) : StepEnd :=
  let k := (s.ctx g).kreg a.val
  if 4096 ≤ k.toNat then .stop (takeFault s g (faultAt s g 4 18 (k.truncate 32) 0))
  else .stop (enterState s g k.toNat k.toNat)

/-- `go kA`. -/
def execGoIndirect (a : Fin 16) (s : State) : Host.Outcome State Fault Refusal :=
  stepMeaning (.goIndirect a) .fall (goIndirectStep a) s

/-- `call target` (R146): the following state pushed, control to XT; a full stack is code 18 with INFO zero. -/
def callStep (target : BitVec 12) (s : State) (g : Nat) (_ : Option Wait) : StepEnd :=
  let c := s.ctx g
  if 4 ≤ c.rstack.length then .stop (takeFault s g (faultAt s g 4 18 0 0))
  else .stop (enterState (s.onCtx g fun c => { c with rstack := c.rstack ++ [nextIndex c] }) g target.toNat target.toNat)

/-- `call`. -/
def execCall (target : BitVec 12) (s : State) : Host.Outcome State Fault Refusal :=
  stepMeaning (.call target) .fall (callStep target) s

/-- `ret` (R146): control to the popped index; an empty stack is code 18 with INFO zero. -/
def retStep (s : State) (g : Nat) (_ : Option Wait) : StepEnd :=
  match (s.ctx g).rstack.getLast? with
  | none => .stop (takeFault s g (faultAt s g 4 18 0 0))
  | some n => .stop (enterState (s.onCtx g fun c => { c with rstack := c.rstack.dropLast }) g n n)

/-- `ret`. -/
def execRet (s : State) : Host.Outcome State Fault Refusal := stepMeaning .ret .fall retStep s

/-- `end` (R147): no further step issues; input streams are closed as by `sclose` with abort, output streams write what
they have popped and close, and walking channels park after their current record. -/
def endingState (s : State) (g : Nat) (status : BitVec 16) : State :=
  let s := s.onCtx g fun c =>
    { c with
      ending := some status,
      chans := c.chans.map fun e =>
        if e.2.mode = .fetching ∨ e.2.mode = .waiting then (e.1, { e.2 with last := true }) else e }
  (List.range 32).foldl (fun s n => beginSclose s g n true) s

/-- `end`. -/
def execEndStep (status : BitVec 16) (s : State) : Host.Outcome State Fault Refusal :=
  stepMeaning (.endStep status) .fall (fun s g _ => .stop (endingState s g status)) s

/-- `waitt` (R148): until every named token is idle. -/
def waittStep (mask : BitVec 8) (s : State) (g : Nat) (w : Option Wait) : StepEnd :=
  let c := s.ctx g
  if (maskList mask).all fun n => c.token n == 0 then .done s else .wait (waitStep s g (w.getD (Wait.first c)))

/-- `waitt`. -/
def execWaitt (mask : BitVec 8) (t : Trans) (s : State) : Host.Outcome State Fault Refusal :=
  stepMeaning (.waitt mask t) t (waittStep mask) s

/-- `waits` (R148): until any named line is set, or all of them with ALL; no line is cleared. -/
def waitsStep (mask : BitVec 16) (all : Bool) (s : State) (g : Nat) (w : Option Wait) : StepEnd :=
  let c := s.ctx g
  let l := maskList mask
  if (if all then l.all fun n => c.line n else l.any fun n => c.line n) then .done s
  else .wait (waitStep s g (w.getD (Wait.first c)))

/-- `waits`. -/
def execWaits (mask : BitVec 16) (all : Bool) (t : Trans) (s : State) : Host.Outcome State Fault Refusal :=
  stepMeaning (.waits mask all t) t (waitsStep mask all) s

/-- `trap` (R149): a software-trap fault with CODE. -/
def execStepTrap (code : BitVec 16) (s : State) : Host.Outcome State Fault Refusal :=
  stepMeaning (.stepTrap code) .fall (fun s g _ => .stop (takeFault s g (faultAt s g 8 code.toNat 0 0))) s

/-- `brk` (R149): a debug break with CODE when BRKEN is 1, else `nop`. -/
def stepBrkStep (code : BitVec 16) (s : State) (g : Nat) (_ : Option Wait) : StepEnd :=
  if (s.ring g).brken then .stop (takeFault s g (faultAt s g 9 code.toNat 0 0)) else .done s

/-- `brk`. -/
def execStepBrk (code : BitVec 16) (t : Trans) (s : State) : Host.Outcome State Fault Refusal :=
  stepMeaning (.stepBrk code t) t (stepBrkStep code) s

/-- `yield` (R151): waits for Eosen's answer and completes when Eosen has declined; acceptance is `yieldDecision`'s. -/
def yieldStep (s : State) (g : Nat) (w : Option Wait) : StepEnd :=
  match w, (s.ctx g).answer with
  | some _, some _ => .done (s.onCtx g fun c => { c with answer := none })
  | _, _ => .wait (waitStep (s.onCtx g fun c => { c with answer := if w.isNone then none else c.answer }) g
      (w.getD (Wait.first (s.ctx g))))

/-- `yield`. -/
def execYield (t : Trans) (s : State) : Host.Outcome State Fault Refusal := stepMeaning (.yield t) t yieldStep s

/-- `sys` (R150): waits for Eosen's answer. An undefined SVC is answered with -1 in `k0` and no other change; the defined
ones are answered by the `sys…` events, which write their registers. -/
def sysStep (svc : BitVec 16) (s : State) (g : Nat) (w : Option Wait) : StepEnd :=
  match w, (s.ctx g).answer with
  | some _, some _ => .done (s.onCtx g fun c => { c with answer := none })
  | some x, none =>
    if 5 ≤ svc.toNat then .done (s.onCtx g fun c => c.setK 0 (BitVec.ofInt 48 (-1))) else .wait (waitStep s g x)
  | none, _ => .wait (waitStep (s.onCtx g fun c => { c with answer := none }) g
      { Wait.first (s.ctx g) with data := svc.zeroExtend 512, stage := 1 })

/-- `sys`. -/
def execSys (svc : BitVec 16) (t : Trans) (s : State) : Host.Outcome State Fault Refusal :=
  stepMeaning (.sys svc t) t (sysStep svc) s

end Sys2Proof.Machine
end

