-- ==== Sys2Proof/Machine/ConvertRows.lean ====
section
/-!
DEFINITION. The CVT rows (spec/11 R208 to R213).
-/

namespace Sys2Proof.Machine

open Sys2Proof

/-- The source type of `cvt`, `itof` and `ftoi` (R208). -/
def cvtSource (r : Row) : Ty := (Ty.ofCode (bits r.imm 0 4)).getD .f32

/-- A source value of `cvt`, `itof` and `ftoi` as an exact value (R209). -/
def cvtNum (t : Ty) (n : Nat) : Num :=
  match t with
  | .f32 | .bf16 | .f16 => decodeCode (fmtOfTy t) n
  | _ => let i := tyInt t n; .fin (i < 0) i.natAbs 0 false

/-- The source sub-element of result sub-element `e` (R209): equal widths take the same place, 32 to 16 takes A then B,
and widening takes the place SEL names. -/
def cvtPick (r : Row) (a b : W32) (e : Nat) : Nat :=
  let ws := tyWidth (cvtSource r)
  let wd := tyWidth r.ty
  if ws = wd then subElem ws a e
  else if wd < ws then (if e = 0 then a else b).toNat
  else if ws = 16 then subElem 16 a (bits r.imm 4 1)
  else subElem 8 a (bits r.imm 4 2)

/-- `cvt`, `itof` and `ftoi` (R209): `f` is the rounding into the destination. An immediate in A or B is read in the source type (log 101). -/
def convertRow (r : Row) (f : Num → Nat × W32) (s : State) (up : Vec) : RowResult :=
  let a := (srcA s up r (.ty (cvtSource r))).val
  let b := (srcB s up r (.ty (cvtSource r))).val
  let x := lanesFlags (guardNow s r) fun l =>
    subMap (tyWidth r.ty) fun e => f (cvtNum (cvtSource r) (cvtPick r (a.lane l) (b.lane l) e))
  ⟨x.1, 0, x.2⟩

/-- The format in the slot a row names, as it stands at issue (R194, R211). -/
def slotFmt (s : State) (r : Row) : Fmt := fmtOfDesc ((s.ctx s.focus.ring).fslot (bits r.imm 0 3))

/-- The byte `k` a row names in IMM[5:4]. -/
def byteSel (r : Row) : Nat := bits r.imm 4 2

/-- A lane with byte `k` replaced (R211). -/
def putByte (base : W32) (k code : Nat) : W32 := setBits base (8 * k) 8 code

/-- `quant` and `pack.f32` (R211): `v` is the value of each lane. -/
def packRow (r : Row) (v : State → Vec → Nat → Num) (base : State → Vec → Nat → W32) (s : State) (up : Vec) : RowResult :=
  let x := lanesFlags (guardNow s r) fun l =>
    let y := roundFmt (slotFmt s r) (v s up l) r.rm r.sat
    (putByte (base s up l) (byteSel r) y.1, y.2)
  ⟨x.1, 0, x.2⟩

/-- A lane of A as an `f32` value. -/
def f32A (s : State) (up : Vec) (r : Row) (l : Nat) : Num :=
  decodeCode Fmt.f32 ((srcA s up r (.ty .f32)).val.lane l).toNat

/-- Nibble `j` of a lane. -/
def nibble (x : W32) (j : Nat) : Nat := subElem 4 x j

/-- `cvt` (R209); under `.sat` an infinity is clamped as R53 rounds it, with its flag, also where the conversion widens (log 102). -/
def execCvt (r : Row) (s : State) : Host.Outcome State Fault Refusal :=
  resultRow (.cvt r) r (convertRow r fun x => roundFmt (fmtOfTy r.ty) x r.rm r.sat) s

/-- `pack.f32` (R211): the base is B. -/
def execPackF32 (r : Row) (s : State) : Host.Outcome State Fault Refusal :=
  resultRow (.packF32 r) r (packRow r (fun s up l => f32A s up r l) (fun s up l => laneB s up r l)) s

/-- `pack.n8` (R213): the low nibbles of the bytes of A, then of B. -/
def execPackN8 (r : Row) (s : State) : Host.Outcome State Fault Refusal :=
  resultRow (.packN8 r) r (perLane fun s up l =>
      BitVec.ofNat 32 (joinSubs 4 ((List.range 8).map fun j =>
        if j < 4 then nibble ((srcA s up r (.ty r.ty)).val.lane l) (2 * j)
        else nibble ((srcB s up r (.ty r.ty)).val.lane l) (2 * (j - 4))))) s

/-- `unpack.f32` (R212). -/
def execUnpackF32 (r : Row) (s : State) : Host.Outcome State Fault Refusal :=
  resultRow (.unpackF32 r) r (map1 r (.int 32) 32 fun a =>
      let f := slotFmt s r
      roundFmt Fmt.f32 (decodeCode f ((a >>> (8 * byteSel r)) % pow2 f.width)) r.rm false) s

/-- `unpack.n8` (R213): nibbles 4h to 4h + 3 of A, one per byte. -/
def execUnpackN8 (r : Row) (s : State) : Host.Outcome State Fault Refusal :=
  resultRow (.unpackN8 r) r (perLane fun s up l =>
      BitVec.ofNat 32 (joinSubs 8 ((List.range 4).map fun j => nibble ((srcA s up r (.ty r.ty)).val.lane l) (4 * bits r.imm 4 1 + j)))) s

/-- `quant` (R211): the base is C and the scale byte is B[7:0]. -/
def execQuant (r : Row) (s : State) : Host.Outcome State Fault Refusal :=
  resultRow (.quant r) r (packRow r
      (fun s up l =>
        let e := bits (laneB s up r l) 0 8
        if e = 255 then .nan else (f32A s up r l).shift (127 - (e : Int)))
      (fun s up l => laneC s up r l)) s

/-- `fexp8` (R210). -/
def execFexp8 (r : Row) (s : State) : Host.Outcome State Fault Refusal :=
  resultRow (.fexp8 r) r (map1 r (.ty .f32) 32 fun a => fexp8Of (decodeCode Fmt.f32 a) r.imm.toInt) s

/-- `itof` (R209). -/
def execItof (r : Row) (s : State) : Host.Outcome State Fault Refusal :=
  resultRow (.itof r) r (convertRow r fun x => roundFmt (fmtOfTy r.ty) x r.rm r.sat) s

/-- `ftoi` (R209). -/
def execFtoi (r : Row) (s : State) : Host.Outcome State Fault Refusal :=
  resultRow (.ftoi r) r (convertRow r fun x => roundInt (tyWidth r.ty) (tySigned r.ty) x r.rm) s


end Sys2Proof.Machine
end

