-- ==== Sys2Proof/Machine/CounterSteps.lean ====
section
/-!
DEFINITION. The counter and address steps, `ald` and `ast` (spec/09 R152 to R158).
-/

namespace Sys2Proof.Machine

open Sys2Proof

/-- `kset` (R153). -/
def ksetValue (old : BitVec 48) (hi : Bool) (imm : BitVec 32) : BitVec 48 :=
  if hi then (imm.extractLsb' 0 16) ++ (old.extractLsb' 0 32) else imm.signExtend 48

/-- `kset`. -/
def execKset (d : Fin 16) (hi : Bool) (imm : BitVec 32) (t : Trans) (s : State) : Host.Outcome State Fault Refusal :=
  stepMeaning (.kset d hi imm t) t (ctxStep fun c => c.setK d.val (ksetValue (c.kreg d.val) hi imm)) s

/-- The source of `kmov` (R154). -/
def kmovValue (c : Ctx) : KSrc → BitVec 48
  | .k a => c.kreg a.val
  | .a a => (c.areg a.val).truncate 48
  | .tc => BitVec.ofNat 48 c.tc
  | .wdi => BitVec.ofNat 48 c.wdi
  | .wdp => BitVec.ofNat 48 c.wdp
  | .tok n => BitVec.ofNat 48 (c.token n.val)

/-- `kmov`. -/
def execKmov (d : Fin 16) (src : KSrc) (t : Trans) (s : State) : Host.Outcome State Fault Refusal :=
  stepMeaning (.kmov d src t) t (ctxStep fun c => c.setK d.val (kmovValue c src)) s

/-- The second operand of a counter step (R155). -/
def koperand (c : Ctx) : KOperand → BitVec 48
  | .reg b => c.kreg b.val
  | .imm i => i.signExtend 48

/-- A two-operand counter step (R155): kD := op(kA, y). -/
def counterStep (f : BitVec 48 → BitVec 48 → BitVec 48) (d a : Fin 16) (y : KOperand) : State → Nat → Option Wait → StepEnd :=
  ctxStep fun c => c.setK d.val (f (c.kreg a.val) (koperand c y))

/-- `kadd`. -/
def execKadd (d a : Fin 16) (y : KOperand) (t : Trans) (s : State) : Host.Outcome State Fault Refusal :=
  stepMeaning (.kadd d a y t) t (counterStep (fun x y => x + y) d a y) s

/-- `ksub`. -/
def execKsub (d a : Fin 16) (y : KOperand) (t : Trans) (s : State) : Host.Outcome State Fault Refusal :=
  stepMeaning (.ksub d a y t) t (counterStep (fun x y => x - y) d a y) s

/-- `kmul`. -/
def execKmul (d a : Fin 16) (y : KOperand) (t : Trans) (s : State) : Host.Outcome State Fault Refusal :=
  stepMeaning (.kmul d a y t) t (counterStep (fun x y => x * y) d a y) s

/-- `kand`. -/
def execKand (d a : Fin 16) (y : KOperand) (t : Trans) (s : State) : Host.Outcome State Fault Refusal :=
  stepMeaning (.kand d a y t) t (counterStep (fun x y => x &&& y) d a y) s

/-- `kor`. -/
def execKor (d a : Fin 16) (y : KOperand) (t : Trans) (s : State) : Host.Outcome State Fault Refusal :=
  stepMeaning (.kor d a y t) t (counterStep (fun x y => x ||| y) d a y) s

/-- `kxor`. -/
def execKxor (d a : Fin 16) (y : KOperand) (t : Trans) (s : State) : Host.Outcome State Fault Refusal :=
  stepMeaning (.kxor d a y t) t (counterStep (fun x y => x ^^^ y) d a y) s

/-- The shift amount y[5:0] (R155). -/
def shiftAmount (y : BitVec 48) : Nat := (y.extractLsb' 0 6).toNat

/-- `kshl`: 0 when the amount is 48 or more. -/
def execKshl (d a : Fin 16) (y : KOperand) (t : Trans) (s : State) : Host.Outcome State Fault Refusal :=
  stepMeaning (.kshl d a y t) t (counterStep (fun x y => x <<< shiftAmount y) d a y) s

/-- `kshr`: zeros come in; 0 when the amount is 48 or more. -/
def execKshr (d a : Fin 16) (y : KOperand) (t : Trans) (s : State) : Host.Outcome State Fault Refusal :=
  stepMeaning (.kshr d a y t) t (counterStep (fun x y => x >>> shiftAmount y) d a y) s

/-- `kmin`: signed. -/
def execKmin (d a : Fin 16) (y : KOperand) (t : Trans) (s : State) : Host.Outcome State Fault Refusal :=
  stepMeaning (.kmin d a y t) t (counterStep (fun x y => if x.toInt ≤ y.toInt then x else y) d a y) s

/-- `kmax`: signed. -/
def execKmax (d a : Fin 16) (y : KOperand) (t : Trans) (s : State) : Host.Outcome State Fault Refusal :=
  stepMeaning (.kmax d a y t) t (counterStep (fun x y => if x.toInt ≤ y.toInt then y else x) d a y) s

/-- `kdec` (R156): zero stays zero. -/
def kdecValue (k : BitVec 48) : BitVec 48 := if k = 0 then 0 else k - 1

/-- `kdec`. -/
def execKdec (d : Fin 16) (t : Trans) (s : State) : Host.Outcome State Fault Refusal :=
  stepMeaning (.kdec d t) t (ctxStep fun c => c.setK d.val (kdecValue (c.kreg d.val))) s

/-- `aset` (R153). -/
def asetValue (old : BitVec 64) (hi : Bool) (imm : BitVec 32) : BitVec 64 :=
  if hi then imm ++ (old.extractLsb' 0 32) else imm.signExtend 64

/-- `aset`. -/
def execAset (d : Fin 16) (hi : Bool) (imm : BitVec 32) (t : Trans) (s : State) : Host.Outcome State Fault Refusal :=
  stepMeaning (.aset d hi imm t) t (ctxStep fun c => c.setA d.val (asetValue (c.areg d.val) hi imm)) s

/-- `amov` (R157). -/
def execAmov (d : Fin 16) (src : SReg) (t : Trans) (s : State) : Host.Outcome State Fault Refusal :=
  stepMeaning (.amov d src t) t (ctxStep fun c => c.setA d.val (c.sreg src)) s

/-- `aadd` (R157). -/
def execAadd (d a : Fin 16) (y : KOperand) (t : Trans) (s : State) : Host.Outcome State Fault Refusal :=
  stepMeaning (.aadd d a y t) t (ctxStep fun c => c.setA d.val (c.areg a.val + (koperand c y).signExtend 64)) s

/-- `amad` (R157). -/
def execAmad (d a b : Fin 16) (imm : BitVec 24) (t : Trans) (s : State) : Host.Outcome State Fault Refusal :=
  stepMeaning (.amad d a b imm t) t
    (ctxStep fun c => c.setA d.val (c.areg a.val + (c.kreg b.val).signExtend 64 * imm.signExtend 64)) s

/-! ### Memory of the sequencer (R158) -/

/-- The precise alignment fault (R158, R265). -/
def alignFault (s : State) (g : Nat) (x : BitVec 64) (kind : Nat) : State :=
  takeFault s g { faultAt s g 3 3 (BitVec.ofNat 32 kind) x with
    region := regionOf x.toNat, issuer := 49, gen := generation s (dieOf g) (s.ctx g).asid (regionOf x.toNat) }

/-- Bytes of an access. -/
def accessBytes : AccessSize → Nat
  | .d => 8
  | _ => 4

/-- The value an `ald` writes. -/
def loadedValue (sz : AccessSize) (bs : List Byte) : BitVec 64 :=
  match sz with
  | .w => (BitVec.ofNat 32 (leNat bs)).signExtend 64
  | .wz => BitVec.ofNat 64 (leNat bs)
  | .d => BitVec.ofNat 64 (leNat bs)

/-- Whether an access of the sequencer is stopped on a translation fault: it makes no later one (R266). -/
def seqStopped (s : State) (g : Nat) : Bool :=
  s.reqs.any fun q => q.ring == g && q.ctx == (s.ctx g).id && q.party == .seq && q.stop.isSome

/-- `ald` (R158): a misaligned address faults precisely; the read is sent and the step waits for its data. Bits 63 to 56 of
the address take no part (log 71). -/
def aldStep (d : SReg) (a : Fin 16) (sz : AccessSize) (off : BitVec 20) (s : State) (g : Nat) (w : Option Wait) : StepEnd :=
  let x := (s.ctx g).areg a.val + off.signExtend 64
  let w := w.getD (Wait.first (s.ctx g))
  if w.stage = 0 then
    if x.toNat % accessBytes sz ≠ 0 then .stop (alignFault s g x 0)
    else if seqStopped s g then .wait (waitStep s g w)
    else
      let (s, id) := sendRead s g x.toNat (accessBytes sz) .ald
      .wait (waitStep s g { w with stage := 1, req := id })
  else
    match takeRead s g w.req with
    | .pending => .wait s
    | .stop s => .stop s
    | .got s bs => .done (s.onCtx g fun c => c.setS d (loadedValue sz bs))

/-- `ald`. -/
def execAld (d : SReg) (a : Fin 16) (sz : AccessSize) (off : BitVec 20) (t : Trans) (s : State) :
    Host.Outcome State Fault Refusal := stepMeaning (.ald d a sz off t) t (aldStep d a sz off) s

/-- `ast` (R158): the write is issued with the next WDI number; the step does not wait, unless an earlier access of the
sequencer is stopped on a translation fault (R266). Bits 63 to 56 of the address take no part (log 71). -/
def astStep (b : SReg) (a : Fin 16) (wide : Bool) (off : BitVec 20) (s : State) (g : Nat) (w : Option Wait) : StepEnd :=
  let c := s.ctx g
  let x := c.areg a.val + off.signExtend 64
  let n := if wide then 8 else 4
  if x.toNat % n ≠ 0 then .stop (alignFault s g x 1)
  else if seqStopped s g then
    .wait (waitStep s g (w.getD (Wait.first c)))
  else
    .done (issueReq s g .seq .write (partsOf (.virt (x.toNat % pow2 56)) (leBytes n (c.sreg b).toNat)) 1 .ast)

/-- `ast`. -/
def execAst (b : SReg) (a : Fin 16) (wide : Bool) (off : BitVec 20) (t : Trans) (s : State) :
    Host.Outcome State Fault Refusal := stepMeaning (.ast b a wide off t) t (astStep b a wide off) s

end Sys2Proof.Machine
end

