-- ==== Sys2Proof/Machine/EngineSteps.lean ====
section
/-!
DEFINITION. The steps that command streams, copies and collectives (spec/09 R166 to R181, spec/17 R307, R308).
-/

namespace Sys2Proof.Machine

open Sys2Proof

/-- The first part of a step that reads 64 bytes at aA (R167, R180, R307): a misaligned address is a step-operand fault,
otherwise the read is sent in stage 0 and awaited in stage 1; `f` goes on with the bytes in stage 2. -/
def readingStep (a : Fin 16) (f : State → BitVec 512 → Wait → StepEnd) (s : State) (g : Nat) (w : Option Wait) : StepEnd :=
  let x := (s.ctx g).areg a.val
  let w := w.getD (Wait.first (s.ctx g))
  match w.stage with
  | 0 =>
    if x.toNat % 64 ≠ 0 then .stop (stepOperandFault s g)
    else if seqStopped s g then .wait (waitStep s g w)
    else
      let (s, id) := sendRead s g x.toNat 64 .descriptor
      .wait (waitStep s g { w with stage := 1, req := id })
  | 1 =>
    match takeRead s g w.req with
    | .pending => .wait s
    | .stop s => .stop s
    | .got s bs =>
      let d : BitVec 512 := BitVec.ofNat 512 (leNat bs)
      f s d { w with stage := 2, data := d }
  | _ => f s w.data w

/-- Whether an image's mask declares what a stream descriptor uses (R117): gather mode, and an atomic operation. -/
def declaresOpen (mask : BitVec 64) (d : StreamDesc) : Bool :=
  (sdMode d == 0 || bit mask 16) && (sdAtom d == 0 || bit mask 17)

/-- `sopen` (R167, R168): reads the descriptor and opens the stream, or posts its opening. A descriptor that uses what the image's
mask does not declare raises the image fault of R117, which registration could not see (log 77). -/
def sopenStep (n : Fin 32) (vs : BitVec 10) (out : Bool) (q a : Fin 16) (l : Option LongForm) (s : State) (g : Nat)
    (w : Option Wait) : StepEnd :=
  readingStep a (fun s d w =>
    if descBad d out then .stop (stepOperandFault s g)
    else if !declaresOpen (hdrOpmask (s.ctx g).hdr) d then .stop (takeFault s g (faultAt s g 4 13 0 0))
    else issueCommand s g l (some w) (.sopen n.val vs.toNat out q.val d) 2 d) s g w

/-- `sopen`. -/
def execSopen (n : Fin 32) (vs : BitVec 10) (out : Bool) (q a : Fin 16) (l : Option LongForm) (t : Trans) (s : State) :
    Host.Outcome State Fault Refusal :=
  stepMeaning (.sopen n vs out q a l t) t (sopenStep n vs out q a l) s

/-- `sclose` (R174): at completion, or at once with abort; with W = 1 the sequencer waits until the stream is closed. -/
def scloseStep (n : Fin 32) (abort wait : Bool) (l : Option LongForm) (s : State) (g : Nat) (w : Option Wait) : StepEnd :=
  let after (s : State) : StepEnd :=
    if wait && ((s.ctx g).stream n.val).isOpen then .wait (waitStep s g { Wait.first (s.ctx g) with stage := 1 }) else .done s
  if (w.elim 0 (·.stage)) = 1 then after s
  else
    match issueCommand s g l w (.sclose n.val abort) 0 0 with
    | .done s => after s
    | e => e

/-- `sclose`. -/
def execSclose (n : Fin 32) (abort wait : Bool) (l : Option LongForm) (t : Trans) (s : State) :
    Host.Outcome State Fault Refusal :=
  stepMeaning (.sclose n abort wait l t) t (scloseStep n abort wait l) s

/-- `sbar` (R175): the sequencer does not wait for the order it makes. -/
def execSbar (mask : BitVec 32) (scope : Scope) (l : Option LongForm) (t : Trans) (s : State) :
    Host.Outcome State Fault Refusal :=
  stepMeaning (.sbar mask scope l t) t (fun s g w => issueCommand s g l w (.sbar mask scope) 0 0) s

/-- `spos` (R176). -/
def execSpos (d : Fin 16) (n : Fin 32) (t : Trans) (s : State) : Host.Outcome State Fault Refusal :=
  stepMeaning (.spos d n t) t (ctxStep fun c => c.setK d.val (BitVec.ofNat 48 (c.position n.val))) s

/-- A read record that waits for an in-flight place, then counts its token and posts (R180, R307). -/
def placeStep (g : Nat) (l : Option LongForm) (tok : Nat) (cmd : Command) (s : State) (w : Wait) : StepEnd :=
  if 128 ≤ inFlight (s.ctx g) then .wait (waitStep s g w)
  else
    match issueCommand (s.onCtx g fun c => raiseToken c tok) g l (some w) cmd w.stage w.data with
    | .done s => .done s
    | _ => issueCommand s g l (some w) cmd w.stage w.data

/-- `copy` (R180): NEXT and OWN of the record are ignored. -/
def copyStepMeaning (a : Fin 16) (l : Option LongForm) (s : State) (g : Nat) (w : Option Wait) : StepEnd :=
  readingStep a (fun s d w =>
    let r := setBits d 448 64 0
    if recordInvalid r then .stop (stepOperandFault s g)
    else placeStep g l (trTok r) (.copy r ((s.ctx g).areg a.val)) s w) s g w

/-- `copy`. -/
def execCopy (a : Fin 16) (l : Option LongForm) (t : Trans) (s : State) : Host.Outcome State Fault Refusal :=
  stepMeaning (.copy a l t) t (copyStepMeaning a l) s

/-- `copyc` (R181): waits while the channel walks, then arms it at aA. -/
def copycStep (n a : Fin 16) (l : Option LongForm) (s : State) (g : Nat) (w : Option Wait) : StepEnd :=
  let c := s.ctx g
  let x := c.areg a.val
  if x.toNat % 64 ≠ 0 then .stop (stepOperandFault s g)
  else if chanWalking c n.val then .wait (waitStep s g (w.getD (Wait.first c)))
  else issueCommand s g l w (.copyc n.val x) 0 0

/-- `copyc`. -/
def execCopyc (n a : Fin 16) (l : Option LongForm) (t : Trans) (s : State) : Host.Outcome State Fault Refusal :=
  stepMeaning (.copyc n a l t) t (copycStep n a l) s

/-- `copyc … resume` (R181). -/
def copycResumeStep (n : Fin 16) (l : Option LongForm) (s : State) (g : Nat) (w : Option Wait) : StepEnd :=
  let c := s.ctx g
  if chanWalking c n.val then .wait (waitStep s g (w.getD (Wait.first c)))
  else issueCommand s g l w (.copycResume n.val) 0 0

/-- `copyc … resume`. -/
def execCopycResume (n : Fin 16) (l : Option LongForm) (t : Trans) (s : State) : Host.Outcome State Fault Refusal :=
  stepMeaning (.copycResume n l t) t (copycResumeStep n l) s

/-- `coll` (R307, R308): causes 13 and 5 for the group, a step-operand fault for the descriptor. -/
def collStep (a : Fin 16) (l : Option LongForm) (s : State) (g : Nat) (w : Option Wait) : StepEnd :=
  readingStep a (fun s d w =>
    let n := cdGroup d
    if bits d 344 8 ≠ 0 then .stop (stepOperandFault s g)
    else if !groupValid s n then .stop (barrierFault s g 13 n)
    else
      match rankOf s n g with
      | none => .stop (barrierFault s g 13 n)
      | some rank =>
        if collBad d (groupRanks (groupHeader s n)) rank then .stop (stepOperandFault s g)
        else if bits (groupHeader s n) 53 10 ≠ (s.ctx g).asid.toNat then .stop (barrierFault s g 5 n)
        else placeStep g l (cdTok d) (.coll d rank) s w) s g w

/-- `coll`. -/
def execColl (a : Fin 16) (l : Option LongForm) (t : Trans) (s : State) : Host.Outcome State Fault Refusal :=
  stepMeaning (.coll a l t) t (collStep a l) s

end Sys2Proof.Machine
end

