-- ==== Sys2Proof/Machine/FloatRows.lean ====
section
/-!
DEFINITION. The FLT, FCMP and FXN rows (spec/11 R201 to R207).
-/

namespace Sys2Proof.Machine

open Sys2Proof

/-- `round_fmt` of an exact value with the flag of the exact operation, in the row's type, mode and saturation (R202). -/
def roundRow (r : Row) (x : Num × W32) : Nat × W32 :=
  let y := roundFmt (fmtOfTy r.ty) x.1 r.rm r.sat
  (y.1, x.2 ||| y.2)

/-- `decode` in the row's type. -/
def dec (r : Row) (a : Nat) : Num := decodeCode (fmtOfTy r.ty) a

/-- A rounded row of one operand (R54, R55). -/
def float1 (r : Row) (f : Num → Num × W32) : State → Vec → RowResult :=
  map1 r (.ty r.ty) (tyWidth r.ty) fun a => roundRow r (f (dec r a))

/-- A rounded row of two operands. -/
def float2 (r : Row) (f : Num → Num → Num × W32) : State → Vec → RowResult :=
  map2 r (.ty r.ty) (.ty r.ty) (tyWidth r.ty) fun a b => roundRow r (f (dec r a) (dec r b))

/-- A rounded row of three operands. -/
def float3 (r : Row) (f : Num → Num → Num → Num × W32) : State → Vec → RowResult :=
  map3 r (.ty r.ty) (tyWidth r.ty) fun a b c => roundRow r (f (dec r a) (dec r b) (dec r c))

/-- The exact `±(a * b) ± c` of the fused forms as one sum (R202). -/
def fusedNum (m : Rm) (negP negC : Bool) (a b c : Num) : Num × W32 :=
  let p := mulNum a b
  let x := sumNum m [if negP then p.1.neg else p.1, if negC then c.neg else c]
  (x.1, p.2 ||| x.2)

/-- `fcopysign` and its like (R203): canonical NaN for NaN, else `f` of the pattern. -/
def signRow (r : Row) (a : Nat) (f : Nat → Nat) : Nat × W32 :=
  if dec r a = .nan then ((fmtOfTy r.ty).nanCode, 0) else (f a, 0)

/-- The sign bit of a pattern of the row's type. -/
def topBit (r : Row) : Nat := pow2 (tyWidth r.ty - 1)

/-- `fscale` (R202): a times 2 to the signed integer in B, rounded as the other rows' results are, so that `.sat` clamps an infinity (log 102). -/
def fscaleNum (a : Num) (n : Int) : Num × W32 := (a.shift n, 0)

/-- `fcmp` (R206): `f` of the order; `un` for a NaN operand. -/
def fcmpRow (r : Row) (un : Bool) (f : Ordering → Bool) : State → Vec → RowResult :=
  mapCmp r (tyWidth r.ty) fun a b =>
    if dec r a = .nan ∨ dec r b = .nan then un else f (cmpNum (dec r a) (dec r b))

/-- `fadd` (R202). -/
def execFadd (r : Row) (s : State) : Host.Outcome State Fault Refusal :=
  resultRow (.fadd r) r (float2 r fun a b => sumNum r.rm [a, b]) s

/-- `fsub` (R202). -/
def execFsub (r : Row) (s : State) : Host.Outcome State Fault Refusal :=
  resultRow (.fsub r) r (float2 r fun a b => sumNum r.rm [a, b.neg]) s

/-- `fmul` (R202). -/
def execFmul (r : Row) (s : State) : Host.Outcome State Fault Refusal :=
  resultRow (.fmul r) r (float2 r mulNum) s

/-- `ffma` (R202): product and addend form one exact sum. -/
def execFfma (r : Row) (s : State) : Host.Outcome State Fault Refusal :=
  resultRow (.ffma r) r (float3 r (fusedNum r.rm false false)) s

/-- `ffms` (R202): product and addend form one exact sum. -/
def execFfms (r : Row) (s : State) : Host.Outcome State Fault Refusal :=
  resultRow (.ffms r) r (float3 r (fusedNum r.rm false true)) s

/-- `fnfma` (R202): product and addend form one exact sum. -/
def execFnfma (r : Row) (s : State) : Host.Outcome State Fault Refusal :=
  resultRow (.fnfma r) r (float3 r (fusedNum r.rm true false)) s

/-- `fnfms` (R202): product and addend form one exact sum. -/
def execFnfms (r : Row) (s : State) : Host.Outcome State Fault Refusal :=
  resultRow (.fnfms r) r (float3 r (fusedNum r.rm true true)) s

/-- `fmin` (R203). -/
def execFmin (r : Row) (s : State) : Host.Outcome State Fault Refusal :=
  resultRow (.fmin r) r (map2 r (.ty r.ty) (.ty r.ty) (tyWidth r.ty) fun a b => (fminmax (fmtOfTy r.ty) false a b, 0)) s

/-- `fmax` (R203). -/
def execFmax (r : Row) (s : State) : Host.Outcome State Fault Refusal :=
  resultRow (.fmax r) r (map2 r (.ty r.ty) (.ty r.ty) (tyWidth r.ty) fun a b => (fminmax (fmtOfTy r.ty) true a b, 0)) s

/-- `fabs` (R203). -/
def execFabs (r : Row) (s : State) : Host.Outcome State Fault Refusal :=
  resultRow (.fabs r) r (map1 r (.ty r.ty) (tyWidth r.ty) fun a => signRow r a fun x => x % topBit r) s

/-- `fneg` (R203). -/
def execFneg (r : Row) (s : State) : Host.Outcome State Fault Refusal :=
  resultRow (.fneg r) r (map1 r (.ty r.ty) (tyWidth r.ty) fun a => signRow r a fun x => x ^^^ topBit r) s

/-- `fcopysign` (R203): the sign of b, NaN or not. -/
def execFcopysign (r : Row) (s : State) : Host.Outcome State Fault Refusal :=
  resultRow (.fcopysign r) r (map2 r (.ty r.ty) (.ty r.ty) (tyWidth r.ty) fun a b =>
      signRow r a fun x => x % topBit r + (if b < topBit r then 0 else topBit r)) s

/-- `fscale` (R202); an immediate in B is the integer. -/
def execFscale (r : Row) (s : State) : Host.Outcome State Fault Refusal :=
  resultRow (.fscale r) r (map2 r (.ty r.ty) (.int (tyWidth r.ty)) (tyWidth r.ty) fun a b =>
      roundRow r (fscaleNum (dec r a) (toSigned (tyWidth r.ty) b))) s

/-- `fround` (R204). -/
def execFround (r : Row) (s : State) : Host.Outcome State Fault Refusal :=
  resultRow (.fround r) r (map1 r (.ty r.ty) (tyWidth r.ty) fun a => froundOf (fmtOfTy r.ty) a r.rm) s

/-- The result of `fclass` (R205): the class masks, and as predicate bit whether the class is in MASK. -/
def fclassRow (r : Row) (s : State) (up : Vec) : RowResult :=
  let x := map1 r (.ty r.ty) (tyWidth r.ty) (fun a => (fclassOf (fmtOfTy r.ty) a, 0)) s up
  ⟨x.val, (List.range 32).foldl (fun m l => setBit m l ((x.val.lane l &&& (r.imm &&& 0x1FF).zeroExtend 32) != 0)) 0, 0⟩

/-- `fclass` (R205). -/
def execFclass (r : Row) (s : State) : Host.Outcome State Fault Refusal :=
  resultRow (.fclass r) r (fclassRow r) s

/-- `fcmp.eq` (R206). -/
def execFcmpEq (r : Row) (s : State) : Host.Outcome State Fault Refusal :=
  resultRow (.fcmpEq r) r (fcmpRow r false (fun o => o == .eq)) s

/-- `fcmp.ne` (R206). -/
def execFcmpNe (r : Row) (s : State) : Host.Outcome State Fault Refusal :=
  resultRow (.fcmpNe r) r (fcmpRow r true (fun o => o != .eq)) s

/-- `fcmp.lt` (R206). -/
def execFcmpLt (r : Row) (s : State) : Host.Outcome State Fault Refusal :=
  resultRow (.fcmpLt r) r (fcmpRow r false (fun o => o == .lt)) s

/-- `fcmp.le` (R206). -/
def execFcmpLe (r : Row) (s : State) : Host.Outcome State Fault Refusal :=
  resultRow (.fcmpLe r) r (fcmpRow r false (fun o => o != .gt)) s

/-- `fcmp.gt` (R206). -/
def execFcmpGt (r : Row) (s : State) : Host.Outcome State Fault Refusal :=
  resultRow (.fcmpGt r) r (fcmpRow r false (fun o => o == .gt)) s

/-- `fcmp.ge` (R206). -/
def execFcmpGe (r : Row) (s : State) : Host.Outcome State Fault Refusal :=
  resultRow (.fcmpGe r) r (fcmpRow r false (fun o => o != .lt)) s

/-- `fcmp.un` (R206). -/
def execFcmpUn (r : Row) (s : State) : Host.Outcome State Fault Refusal :=
  resultRow (.fcmpUn r) r (fcmpRow r true (fun _ => false)) s

/-- `fcmp.ord` (R206). -/
def execFcmpOrd (r : Row) (s : State) : Host.Outcome State Fault Refusal :=
  resultRow (.fcmpOrd r) r (fcmpRow r false (fun _ => true)) s

/-- `frcp` (R55, R56, R207). -/
def execFrcp (r : Row) (s : State) : Host.Outcome State Fault Refusal :=
  resultRow (.frcp r) r (float1 r rcpNum) s

/-- `frsq` (R55, R56, R207). -/
def execFrsq (r : Row) (s : State) : Host.Outcome State Fault Refusal :=
  resultRow (.frsq r) r (float1 r rsqNum) s

/-- `fsqrt` (R55, R56, R207). -/
def execFsqrt (r : Row) (s : State) : Host.Outcome State Fault Refusal :=
  resultRow (.fsqrt r) r (float1 r sqrtNum) s

/-- `fexp2` (R55, R56, R207). -/
def execFexp2 (r : Row) (s : State) : Host.Outcome State Fault Refusal :=
  resultRow (.fexp2 r) r (float1 r exp2Num) s

/-- `flog2` (R55, R56, R207). -/
def execFlog2 (r : Row) (s : State) : Host.Outcome State Fault Refusal :=
  resultRow (.flog2 r) r (float1 r log2Num) s

/-- `ftanh` (R55, R56, R207). -/
def execFtanh (r : Row) (s : State) : Host.Outcome State Fault Refusal :=
  resultRow (.ftanh r) r (float1 r tanhNum) s

/-- `fdiv` (R55, R56, R207). -/
def execFdiv (r : Row) (s : State) : Host.Outcome State Fault Refusal :=
  resultRow (.fdiv r) r (float2 r divNum) s


end Sys2Proof.Machine
end

