-- ==== Sys2Proof/Machine/IntRows.lean ====
section
/-!
DEFINITION. The INT and ICMP rows (spec/11 R197 to R200).
-/

namespace Sys2Proof.Machine

open Sys2Proof

/-- An arithmetic INT row of two operands (R198): the exact integer, wrapped or saturated. -/
def intArith2 (r : Row) (always : Bool) (f : Int → Int → Int) : State → Vec → RowResult :=
  map2 r (.ty r.ty) (.ty r.ty) (tyWidth r.ty) fun a b => narrowInt r.ty (always || r.sat) (f (tyInt r.ty a) (tyInt r.ty b))

/-- An arithmetic INT row of one operand (R198). -/
def intArith1 (r : Row) (f : Int → Int) : State → Vec → RowResult :=
  map1 r (.ty r.ty) (tyWidth r.ty) fun a => narrowInt r.ty r.sat (f (tyInt r.ty a))

/-- A bit row of two operands (R199). -/
def intBits2 (r : Row) (f : Nat → Nat → Nat → Nat) : State → Vec → RowResult :=
  map2 r (.ty r.ty) (.ty r.ty) (tyWidth r.ty) fun a b => (f (tyWidth r.ty) a b, 0)

/-- A bit row of one operand (R199). -/
def intBits1 (r : Row) (f : Nat → Nat → Nat) : State → Vec → RowResult :=
  map1 r (.ty r.ty) (tyWidth r.ty) fun a => (f (tyWidth r.ty) a, 0)

/-- Arithmetic shift right of a pattern of width `w` (R199). -/
def sraPat (w a k : Nat) : Nat := ((toSigned w a >>> (min k w)) % (pow2 w : Int)).toNat

/-- Rotation toward the most significant end (R199). -/
def rotPat (w a k : Nat) : Nat :=
  let n := k % w
  (a * pow2 n) % pow2 w + a >>> (w - n)

/-- Set bits of a pattern (R199). -/
def popPat (w a : Nat) : Nat := ((List.range w).filter fun i => (a >>> i) % 2 == 1).length

/-- `ibfx` of one sub-element (R199): offset in IMM[7:0], length in IMM[15:8]. -/
def ibfxPat (t : Ty) (imm : BitVec 16) (a : Nat) : Nat :=
  let o := bits imm 0 8
  let n := bits imm 8 8
  let f := (a >>> o) % pow2 n
  if tySigned t && decide (n < tyWidth t) && decide ((f >>> (n - 1)) % 2 = 1) then f + pow2 (tyWidth t) - pow2 n else f

/-- `ibfi` of one sub-element (R199). -/
def ibfiPat (t : Ty) (imm : BitVec 16) (a b : Nat) : Nat :=
  let o := bits imm 0 8
  let n := bits imm 8 8
  let m := (pow2 n - 1) * pow2 o
  (a &&& (pow2 (tyWidth t) - 1 - m)) ||| ((b * pow2 o) &&& m)

/-- `iadd` (R198). -/
def execIadd (r : Row) (s : State) : Host.Outcome State Fault Refusal :=
  resultRow (.iadd r) r (intArith2 r false (· + ·)) s

/-- `isub` (R198). -/
def execIsub (r : Row) (s : State) : Host.Outcome State Fault Refusal :=
  resultRow (.isub r) r (intArith2 r false (· - ·)) s

/-- `imul` (R198). -/
def execImul (r : Row) (s : State) : Host.Outcome State Fault Refusal :=
  resultRow (.imul r) r (intArith2 r false (· * ·)) s

/-- `imulhi` (R198): the high half of the exact product. -/
def execImulhi (r : Row) (s : State) : Host.Outcome State Fault Refusal :=
  resultRow (.imulhi r) r (map2 r (.ty r.ty) (.ty r.ty) (tyWidth r.ty) fun a b =>
      (((tyInt r.ty a * tyInt r.ty b) >>> tyWidth r.ty % (pow2 (tyWidth r.ty) : Int)).toNat, 0)) s

/-- `imad` (R198). -/
def execImad (r : Row) (s : State) : Host.Outcome State Fault Refusal :=
  resultRow (.imad r) r (map3 r (.ty r.ty) (tyWidth r.ty) fun a b c =>
      narrowInt r.ty r.sat (tyInt r.ty a * tyInt r.ty b + tyInt r.ty c)) s

/-- `iaddsat` (R38, R198): saturates whatever MOD[1] holds. -/
def execIaddsat (r : Row) (s : State) : Host.Outcome State Fault Refusal :=
  resultRow (.iaddsat r) r (intArith2 r true (· + ·)) s

/-- `isubsat` (R38, R198). -/
def execIsubsat (r : Row) (s : State) : Host.Outcome State Fault Refusal :=
  resultRow (.isubsat r) r (intArith2 r true (· - ·)) s

/-- `iabs` (R198). -/
def execIabs (r : Row) (s : State) : Host.Outcome State Fault Refusal :=
  resultRow (.iabs r) r (intArith1 r fun a => a.natAbs) s

/-- `ineg` (R198). -/
def execIneg (r : Row) (s : State) : Host.Outcome State Fault Refusal :=
  resultRow (.ineg r) r (intArith1 r fun a => -a) s

/-- `imin` (R198): signed by the type. -/
def execImin (r : Row) (s : State) : Host.Outcome State Fault Refusal :=
  resultRow (.imin r) r (intBits2 r fun _ a b => if tyInt r.ty a ≤ tyInt r.ty b then a else b) s

/-- `imax` (R198). -/
def execImax (r : Row) (s : State) : Host.Outcome State Fault Refusal :=
  resultRow (.imax r) r (intBits2 r fun _ a b => if tyInt r.ty a ≤ tyInt r.ty b then b else a) s

/-- `iand` (R199). -/
def execIand (r : Row) (s : State) : Host.Outcome State Fault Refusal :=
  resultRow (.iand r) r (intBits2 r fun _ a b => a &&& b) s

/-- `ior` (R199). -/
def execIor (r : Row) (s : State) : Host.Outcome State Fault Refusal :=
  resultRow (.ior r) r (intBits2 r fun _ a b => a ||| b) s

/-- `ixor` (R199). -/
def execIxor (r : Row) (s : State) : Host.Outcome State Fault Refusal :=
  resultRow (.ixor r) r (intBits2 r fun _ a b => a ^^^ b) s

/-- `inot` (R199). -/
def execInot (r : Row) (s : State) : Host.Outcome State Fault Refusal :=
  resultRow (.inot r) r (intBits1 r fun w a => pow2 w - 1 - a) s

/-- `ishl` (R199): 0 when the count reaches the width. -/
def execIshl (r : Row) (s : State) : Host.Outcome State Fault Refusal :=
  resultRow (.ishl r) r (intBits2 r fun w a k => if w ≤ k then 0 else (a * pow2 k) % pow2 w) s

/-- `ishr` (R199). -/
def execIshr (r : Row) (s : State) : Host.Outcome State Fault Refusal :=
  resultRow (.ishr r) r (intBits2 r fun w a k => if w ≤ k then 0 else a >>> k) s

/-- `isra` (R199). -/
def execIsra (r : Row) (s : State) : Host.Outcome State Fault Refusal :=
  resultRow (.isra r) r (intBits2 r sraPat) s

/-- `irot` (R199). -/
def execIrot (r : Row) (s : State) : Host.Outcome State Fault Refusal :=
  resultRow (.irot r) r (intBits2 r rotPat) s

/-- `iclz` (R199). -/
def execIclz (r : Row) (s : State) : Host.Outcome State Fault Refusal :=
  resultRow (.iclz r) r (intBits1 r fun w a => w - bitLen a) s

/-- `ipop` (R199). -/
def execIpop (r : Row) (s : State) : Host.Outcome State Fault Refusal :=
  resultRow (.ipop r) r (intBits1 r popPat) s

/-- `ibfx` (R199). -/
def execIbfx (r : Row) (s : State) : Host.Outcome State Fault Refusal :=
  resultRow (.ibfx r) r (map1 r (.ty r.ty) (tyWidth r.ty) fun a => (ibfxPat r.ty r.imm a, 0)) s

/-- `ibfi` (R199). -/
def execIbfi (r : Row) (s : State) : Host.Outcome State Fault Refusal :=
  resultRow (.ibfi r) r (map2 r (.ty r.ty) (.ty r.ty) (tyWidth r.ty) fun a b => (ibfiPat r.ty r.imm a b, 0)) s

/-- `icmp.eq` (R200). -/
def execIcmpEq (r : Row) (s : State) : Host.Outcome State Fault Refusal :=
  resultRow (.icmpEq r) r (mapCmp r (tyWidth r.ty) fun a b => a == b) s

/-- `icmp.ne` (R200). -/
def execIcmpNe (r : Row) (s : State) : Host.Outcome State Fault Refusal :=
  resultRow (.icmpNe r) r (mapCmp r (tyWidth r.ty) fun a b => a != b) s

/-- `icmp.lt` (R200). -/
def execIcmpLt (r : Row) (s : State) : Host.Outcome State Fault Refusal :=
  resultRow (.icmpLt r) r (mapCmp r (tyWidth r.ty) fun a b => tyInt r.ty a < tyInt r.ty b) s

/-- `icmp.le` (R200). -/
def execIcmpLe (r : Row) (s : State) : Host.Outcome State Fault Refusal :=
  resultRow (.icmpLe r) r (mapCmp r (tyWidth r.ty) fun a b => tyInt r.ty a ≤ tyInt r.ty b) s

/-- `icmp.gt` (R200). -/
def execIcmpGt (r : Row) (s : State) : Host.Outcome State Fault Refusal :=
  resultRow (.icmpGt r) r (mapCmp r (tyWidth r.ty) fun a b => tyInt r.ty b < tyInt r.ty a) s

/-- `icmp.ge` (R200). -/
def execIcmpGe (r : Row) (s : State) : Host.Outcome State Fault Refusal :=
  resultRow (.icmpGe r) r (mapCmp r (tyWidth r.ty) fun a b => tyInt r.ty b ≤ tyInt r.ty a) s


end Sys2Proof.Machine
end

