-- ==== Sys2Proof/Machine/SysRows.lean ====
section
/-!
DEFINITION. The SYS rows (spec/11 R190 to R195).
-/

namespace Sys2Proof.Machine

open Sys2Proof

/-- `nop` (R191): no effect under any guard. -/
def execRowNop (r : Row) (s : State) : Host.Outcome State Fault Refusal :=
  effectRow (.rowNop r) r (fun s _ => s) s

/-- `sig` (R191): one row-signal event for this column, and CODE as the most recent signal code. -/
def execSig (r : Row) (s : State) : Host.Outcome State Fault Refusal :=
  effectRow (.sig r) r (fun s _ => s.onCtx s.focus.ring fun c => (c.addEv 9 1).setEv 10 r.imm.toNat) s

/-- `trap` (R192): a software-trap fault, CODE in the record. -/
def execRowTrap (r : Row) (s : State) : Host.Outcome State Fault Refusal :=
  effectRow (.rowTrap r) r (fun s _ => takeFault s s.focus.ring (rowFault s 8 r.imm.toNat 0 0)) s

/-- `brk` (R192): a debug break when BRKEN is 1, else `nop`. -/
def execRowBrk (r : Row) (s : State) : Host.Outcome State Fault Refusal :=
  effectRow (.rowBrk r) r
    (fun s _ => if (s.ring s.focus.ring).brken then takeFault s s.focus.ring (rowFault s 9 r.imm.toNat 0 0) else s) s

/-- `flagrd` (R193): the element's flag word in every lane. -/
def execFlagrd (r : Row) (s : State) : Host.Outcome State Fault Refusal :=
  resultRow (.flagrd r) r (perLane fun s _ _ => s.me.flags ||| s.me.flagsNew) s

/-- The lowest lane of a mask. -/
def lowestLane (m : W32) : Nat := ((List.range 32).find? fun l => bit m l).getD 0

/-- A write of a format slot that takes effect after this cycle (R164, R194); `step` for an `fmtset`. -/
def writeSlot (s : State) (g n : Nat) (d : BitVec 24) (place : Option Nat) : State :=
  s.onCtx g fun c => { c with fslotNew := c.fslotNew ++ [(n, d, place)] }

/-- The place of the row now issuing in the order of R194: the stripe's hoist, then the column. -/
def State.slotPlace (s : State) : Nat := 8 * ((s.ring s.focus.ring).stripe s.focus.ps).occ.elim 0 (·.h) + s.focus.col

/-- `fmtld` (R194): the descriptor in the lowest true lane; an invalid one raises a schedule fault. -/
def execFmtld (r : Row) (s : State) : Host.Outcome State Fault Refusal :=
  effectRow (.fmtld r) r
    (fun s up =>
      let d := (laneA s up r (lowestLane (guardNow s r))).extractLsb' 0 24
      if descValid d then writeSlot s s.focus.ring (bits r.imm 0 3) d (some s.slotPlace) else scheduleFault s 11) s

/-- `tagchk` (R195): a schedule fault unless TAG equals CHT. -/
def execTagchk (r : Row) (s : State) : Host.Outcome State Fault Refusal :=
  effectRow (.tagchk r) r
    (fun s _ => if s.me.cht = r.imm then s else takeFault s s.focus.ring (rowFault s 1 5 (r.imm ++ s.me.cht) 0)) s

end Sys2Proof.Machine
end

