-- ==== Sys2Proof/Machine/KernelSteps.lean ====
section
/-!
DEFINITION. The kernel steps (spec/09 R159 to R165).
-/

namespace Sys2Proof.Machine

open Sys2Proof

/-- Several records requested into the configuration cache (R160). -/
def wantRecords (c : Ctx) (n : Nat) : Nat → Ctx
  | 0 => c
  | k + 1 => wantRecords (c.wantRecord n) (n + 1) k

/-- `vpl` (R160): one cycle; numbers at or beyond V are left out. -/
def execVpl (vs : BitVec 10) (cm1 : BitVec 6) (t : Trans) (s : State) : Host.Outcome State Fault Refusal :=
  stepMeaning (.vpl vs cm1 t) t (ctxStep fun c => wantRecords c vs.toNat (cm1.toNat + 1)) s

/-- B of a `run` (R161): kKB, or the record's default wave size; none when it is no legal wave size. -/
def waveSize (s : State) (g first : Nat) (kb : Option (Fin 16)) : Option Nat :=
  let b : Int := match kb with
    | some k => ((s.ctx g).kreg k.val).toInt
    | none => ((recBm1 (recHeader s g first) + 1 : Nat) : Int)
  if 1 ≤ b ∧ b ≤ 65536 then some b.toNat else none

/-- A run entered as posted: streams of its range follow it from its first hoists (R95, R161). -/
def addRun (s : State) (g first nv w b ksel : Nat) : State :=
  let res := runResident s g first nv
  let total := if w = 0 then 0 else if res then nv else w * nv
  s.onCtx g fun c =>
    let r : Run :=
      { id := c.runs.length, si := c.si, first := first, nv := nv, w := w, b := b, ksel := ksel, res := res, total := total,
        limit := total, arm := none, parkAt := none, done := false, parked := false }
    followRun { c with runs := c.runs ++ [r], ksel := ksel } r

/-- A command that arms a run. -/
def Command.isRun : Command → Bool
  | .run _ _ _ _ => true
  | _ => false

/-- `run` (R161): waits for the previous run, then arms the scroll or posts the run. The long form reads its counters and the
record of FIRST at its post (log 76). -/
def runStep (first nvm1 : BitVec 10) (kw : Fin 16) (kb : Option (Fin 16)) (ksel : Fin 16) (l : Option LongForm) (s : State)
    (g : Nat) (w : Option Wait) : StepEnd :=
  let c := s.ctx g
  if c.lastRun.any fun r => !r.done then .wait (waitStep s g (w.getD (Wait.first c)))
  else
    match waveSize s g first.toNat kb with
    | none => .stop (stepOperandFault s g)
    | some b =>
      let nv := nvm1.toNat + 1
      let waves := bits (c.kreg kw.val) 0 32
      let add (s : State) : State := addRun s g first.toNat nv waves b ksel.val
      match l with
      | none => .done (armRun (add s) g)
      | some _ =>
        match issueCommand s g l w (.run first.toNat nv waves b) 0 0 with
        | .done s' =>
          let s' := add s'
          .done (if (s'.ctx g).startq.any fun p => p.cmd.isRun then s' else armRun s' g)
        | e => e

/-- `run`. -/
def execRun (first nvm1 : BitVec 10) (kw : Fin 16) (kb : Option (Fin 16)) (ksel : Fin 16) (l : Option LongForm) (t : Trans)
    (s : State) : Host.Outcome State Fault Refusal :=
  stepMeaning (.run first nvm1 kw kb ksel l t) t (runStep first nvm1 kw kb ksel l) s

/-- `park` (R163): stops the armed run; with W = 1 the sequencer waits for `sl3`. -/
def parkStep (wait : Bool) (s : State) (g : Nat) (w : Option Wait) : StepEnd :=
  let s := if w.isNone then parkRun s g else s
  if wait && !(s.ctx g).line 3 then .wait (waitStep s g (w.getD (Wait.first (s.ctx g)))) else .done s

/-- `park`. -/
def execPark (wait : Bool) (t : Trans) (s : State) : Host.Outcome State Fault Refusal :=
  stepMeaning (.park wait t) t (parkStep wait) s

/-- `fmtset` (R164): rows of later cycles use the new descriptor. -/
def execFmtset (n : Fin 8) (desc : BitVec 24) (t : Trans) (s : State) : Host.Outcome State Fault Refusal :=
  stepMeaning (.fmtset n desc t) t (fun s g _ => .done (writeSlot s g n.val desc none)) s

/-- `qset` (R165): operand faults at the step, with kKB as the step finds it (log 76); the queue is configured when the command
begins. -/
def qsetStep (q kb : Fin 16) (szm1 : BitVec 14) (ent : BitVec 11) (l : Option LongForm) (s : State) (g : Nat)
    (w : Option Wait) : StepEnd :=
  let k := ((s.ctx g).kreg kb.val).toInt
  let size := szm1.toNat + 1
  if k < 0 ∨ 16383 < k ∨ 16384 < k.toNat + size * ent.toNat then .stop (stepOperandFault s g)
  else issueCommand s g l w (.qset q.val k.toNat size ent.toNat) 0 0

/-- `qset`. -/
def execQset (q kb : Fin 16) (szm1 : BitVec 14) (ent : BitVec 11) (l : Option LongForm) (t : Trans) (s : State) :
    Host.Outcome State Fault Refusal :=
  stepMeaning (.qset q kb szm1 ent l t) t (qsetStep q kb szm1 ent l) s

end Sys2Proof.Machine
end

