-- ==== Sys2Proof/Machine/MatrixRows.lean ====
section
/-!
DEFINITION. The tile steps as they issue (spec/13 R234, R235, R240) and the MACC rows (R241 to R249).
-/

namespace Sys2Proof.Machine

open Sys2Proof

/-- Whether an element's sequencer is still in a repetition (R234). -/
def tileBusy (e : Element) (tc : Nat) : Bool :=
  match e.tile with
  | some o => decide (tc < o.start + 4 * o.reps)
  | none => false

/-- Positions a tile step reserves of one queue (R235). -/
def tileTiles (reps pop : Nat) : Nat := if pop = 0 then 1 else ceilDiv reps pop

/-- One operand of a tile step at its issue: positions reserved in its queue (R228, R235). -/
def reserveOperand (s : State) (q : QName) (pop reps : Nat) (pen : BitVec 16) (trans : Bool) : State × TileOperand :=
  let blk := s.block q.down
  let st := (s.ring s.focus.ring).qstate blk q.n.val
  let n := tileTiles reps pop
  (s.onRing s.focus.ring fun r => r.setQ blk q.n.val { st with resv := st.resv + n },
    { down := q.down, q := q.n.val, first := st.resv, count := n, cur := 0, used := 0, pop := pop, pen := pen,
      read := false, trans := trans })

/-- The bank of window 0 (R239). -/
def firstBank (e : Element) (win : Nat) : Nat :=
  match win with
  | 0 => match e.lastWin with
    | some b => 1 - b
    | none => 0
  | 1 => 0
  | _ => 1

/-- The write windows a tile step issued at `issue` opens (R242). -/
def tileWindows (kind acb issue start reps : Nat) : List Window :=
  let win (res till : Nat) : Window := ⟨res, issue, start + 4 * reps + till, true⟩
  if kind < 3 then [win acb 12] else if kind = 3 then [win 4 2, win 5 2, win 6 2] else [win 4 0, win 5 0]

/-- A tile step issued on a free sequencer: operands reserved, the first repetition at c, or at c + MWAKE when the
array is gated (R240). -/
def startTile (r : TileRow) (kind : Nat) (s : State) : State :=
  let reps := r.rep.toNat + 1
  let (s1, a) := reserveOperand s r.qa r.apop.toNat reps r.pen r.ta
  let (s2, b) := reserveOperand s1 r.qb r.bpop.toNat reps r.pen r.tb
  let start := s.now + (if s.me.gated then Config.mwake else 0)
  let op : TileOp :=
    { issued := s.now, start := start, kind := kind, reps := reps, acb := r.acb.val, zero := r.zero, ck := r.ck,
      bank := firstBank s.me r.win.val, a := a, b := b, ent := s.focus.ent,
      vs := ((s.ring s.focus.ring).stripe s.focus.ps).occ.elim 0 (·.vs), slot := s.focus.slot, afmt := 0, bfmt := 0,
      scaled := (false, false), sus := false, abuf := [], bbuf := [], undo := ⟨none, []⟩ }
  s2.onMe fun e => { e with tile := some op, gated := false, wins := e.wins ++ tileWindows kind r.acb.val s.now start reps }

/-- The tile part of an element that issues in this cycle, run at once: repetition 0 reads its A operand in the cycle
of issue on an awake array (R236). A hold or a fault leaves `s0`, in which the row has not issued (R251). -/
def tileNow (s0 s : State) : State :=
  let f := s.focus
  match tileCycle (s.ring f.ring) f.ring f.ps f.col with
  | .ok r => s.setRing f.ring r
  | .hold c => askHold s0 f.ring c
  | .fault _ x => takeFault s0 f.ring x
  | .poison r cls a => consumeAtRow (s.setRing f.ring r) cls a

/-- The last repetition's tiles popped when the next tile step issues in the cycle in which the array falls free. -/
def finishTile (s : State) : State :=
  s.onRing s.focus.ring fun r => tilePop r s.focus.ps s.focus.col

/-- A tile step (R234): a drain overlap while the previous one's repetitions last; GRD = 0b1000 does nothing. -/
def tileRowExec (i : Instr) (r : TileRow) (kind : Nat) (s : State) : Host.Outcome State Fault Refusal :=
  match i.check with
  | some e => .refused (.illFormed e.code)
  | none =>
    if r.nop then .next s
    else if tileBusy s.me s.now then .next (scheduleFault s 4)
    else .next (tileNow s (startTile r kind (finishTile s)))

/-- `mma.bf16` (R234 to R239). -/
def execMmaBf16 (r : TileRow) (s : State) : Host.Outcome State Fault Refusal := tileRowExec (.mmaBf16 r) r 0 s

/-- `mma.f16` (R234 to R239). -/
def execMmaF16 (r : TileRow) (s : State) : Host.Outcome State Fault Refusal := tileRowExec (.mmaF16 r) r 1 s

/-- `mma.f8` (R234 to R239). -/
def execMmaF8 (r : TileRow) (s : State) : Host.Outcome State Fault Refusal := tileRowExec (.mmaF8 r) r 2 s

/-- `mmc` (R234 to R239). -/
def execMmc (r : TileRow) (s : State) : Host.Outcome State Fault Refusal := tileRowExec (.mmc r) r 3 s

/-- `mmc.ch` (R234 to R239). -/
def execMmcCh (r : TileRow) (s : State) : Host.Outcome State Fault Refusal := tileRowExec (.mmcCh r) r 4 s

/-- Whether a resource lies in an open write window at TC `tc` (R242). -/
def windowOpen (e : Element) (res tc : Nat) : Bool := e.wins.any fun w => w.res == res && decide (w.since ≤ tc) && decide (tc < w.till)

/-- The resource number of a matrix register: 0-3 banks with their checksum vectors, 4-5 counter banks, 6 `xa`. -/
def resOf : MatReg → Nat
  | .acc n => n.val
  | .cb n => 4 + n.val
  | .xa => 6
  | .ckr n => n.val
  | .ckc n => n.val

/-- The matrix register of an operand; no other operand passes `check`. -/
def matOf : Opnd → MatReg
  | .mat m => m
  | _ => .xa

/-- A window on a resource from `since` until `till`, ones that have closed dropped. -/
def openFrom (s : State) (res since till : Nat) : State :=
  s.onMe fun e => { e with wins := (e.wins.filter fun w => s.now < w.till) ++ [⟨res, since, till, false⟩] }

/-- A window opened now on a resource until `till`. -/
def openWindow (s : State) (res till : Nat) : State := openFrom s res s.now till

/-- A MACC row that writes `res` (R242): a drain overlap inside another window, found before the row pops `up`. -/
def maccRow (i : Instr) (r : Row) (res : Nat) (f : State → Vec → State) (s : State) : Host.Outcome State Fault Refusal :=
  checkedRow i r (fun s => if windowOpen s.me res s.now then some 4 else none) f s

/-- `accz` (R243): lands at c + 1. -/
def execAccz (r : Row) (s : State) : Host.Outcome State Fault Refusal :=
  maccRow (.accz r) r (resOf (matOf r.dst))
    (fun s _ =>
      let m := matOf r.dst
      let d : PendDst := match m with
        | .cb n => .counters n.val
        | .xa => .xaClear
        | .acc n => .bank n.val
        | .ckr n => .bank n.val
        | .ckc n => .bank n.val
      addPend (openWindow s (resOf m) (s.now + 1)) [{ Pend.empty (s.now + 1) with dst := d }]) s

/-- Half-rows of a bank, or a checksum vector, as a vector (R244). -/
def matLanes (e : Element) (m : MatReg) (h l : Nat) : W32 :=
  match m with
  | .acc n => e.accCell n.val (2 * h + l / 16) (l % 16)
  | .ckr n => if l < 16 then e.ckrAt n.val l else 0
  | .ckc n => if l < 16 then e.ckcAt n.val l else 0
  | _ => 0

/-- `accrd` (R244): the value at issue. -/
def execAccrd (r : Row) (s : State) : Host.Outcome State Fault Refusal :=
  resultRow (.accrd r) r (perLane fun s _ l => matLanes s.me (matOf r.sa) (bits r.imm 0 3) l) s

/-- `accwr` (R244): the cells of lanes whose guard is true, landing at c + 2, or later when the row reads `up` (R184). An
immediate in SA is the f32 pattern of TY 0 (log 103). -/
def execAccwr (r : Row) (s : State) : Host.Outcome State Fault Refusal :=
  maccRow (.accwr r) r (resOf (matOf r.dst))
    (fun s up =>
      let m := matOf r.dst
      let t := s.now + rowLatency 2 r
      let d : PendDst := match m with
        | .ckr n => .check n.val false
        | .ckc n => .check n.val true
        | .acc n => .bankCells n.val (bits r.imm 0 3)
        | .cb n => .bankCells n.val 0
        | .xa => .bankCells 0 0
      addPend (openWindow s (resOf m) t) [{ Pend.empty t with
        dst := d, val := (srcA s up r (.ty .f32)).val, mask := guardNow s r }]) s

/-- A cell of `xa` as an exact value at its weight (R64). -/
def xaNum (e : Element) (cell : Nat) : Num :=
  let v := e.xaAt cell
  .fin (v < 0) v.natAbs e.lexp false

/-- The result of `xcvt` (R245): rows 2h and 2h + 1, one rounding per cell. -/
def xcvtRow (r : Row) (s : State) (_ : Vec) : RowResult :=
  let x := lanesFlags (guardNow s r) fun l =>
    let y := roundFmt Fmt.f32 (xaNum s.me (16 * (2 * bits r.imm 0 3 + l / 16) + l % 16)) r.rm false
    (BitVec.ofNat 32 y.1, y.2)
  ⟨x.1, 0, x.2⟩

/-- `xcvt` (R245). -/
def execXcvt (r : Row) (s : State) : Host.Outcome State Fault Refusal := resultRow (.xcvt r) r (xcvtRow r) s

/-- The element a `cmerge` takes its source from: its own, or the column to the west; none for NONE or for west of
column 0. -/
def mergeSource (s : State) (r : Row) : Option (Nat × Nat) :=
  if bit r.imm 2 then none
  else
    match r.sa with
    | .mat (.cb n) => if bit r.imm 1 then (if s.focus.col = 0 then none else some (s.focus.col - 1, n.val))
      else some (s.focus.col, n.val)
    | _ => none

/-- `cmerge` (R246): take, merge at c + 2, and a drain that lands at c + 4; its window on `xa` is the drain's, from c + 2
(R242). Only scale pairs are compared, as R63 says: two descriptors in one bank leave its drain's descriptor open (log 64). -/
def cmergeEffect (r : Row) (s : State) : State :=
  let d := match matOf r.dst with | .cb n => n.val | _ => 0
  let e := s.me
  let src := mergeSource s r
  let srcEl := src.map fun x => s.elem s.focus.ring s.focus.ps x.1
  let sb := (src.map Prod.snd).getD 0
  let srcDepth := (srcEl.map fun x => x.depthOf sb).getD 0
  let cells := (srcEl.map fun x => bankCells x sb).getD []
  let fmt := (srcEl.map fun x => x.cfmtOf sb).getD 0
  let scaled := (srcEl.map fun x => tget x.cscaled sb false).getD false
  let drain := bit r.imm 0
  let taken := match srcEl with | some x => windowOpen x (4 + sb) s.now | none => false
  if windowOpen e (4 + d) s.now || taken || (drain && windowOpen e 6 (s.now + 2)) then scheduleFault s 4
  else if srcDepth != 0 && e.depthOf d != 0 && cells.zipIdx.any (fun p => p.1.2 != e.pairOf d p.2) then scheduleFault s 3
  else if 127 < srcDepth + e.depthOf d then scheduleFault s 2
  else
    let s := match src with
      | some (col, b) => s.onElem s.focus.ring s.focus.ps col fun x => x.clearCb b
      | none => s
    let s := if drain then openFrom s 6 (s.now + 2) (s.now + 4) else s
    let s := openWindow s (4 + d) (s.now + (if drain then 4 else 2))
    s.onMe fun x =>
      { x with
        lands := x.lands ++
          (if srcDepth = 0 then [] else [(s.now + 2, TileLand.counts d srcDepth fmt scaled cells)]) ++
          (if drain then [(s.now + 4, TileLand.drain d)] else []) }

/-- `cmerge` (R246). -/
def execCmerge (r : Row) (s : State) : Host.Outcome State Fault Refusal := effectRow (.cmerge r) r (fun s _ => cmergeEffect r s) s

/-- A multi-word access to `xa` that starts with the row now issuing. -/
def xopOf (s : State) (kind : Nat) (down swz : Bool) (word : Nat) : XOp :=
  { start := s.now, vs := ((s.ring s.focus.ring).stripe s.focus.ps).occ.elim 0 (·.vs), slot := s.focus.slot,
    ent := s.focus.ent, kind := kind, down := down, swz := swz, word := word, bytes := [] }

/-- One word of a multi-word `xa` access read in its cycle. -/
def xopWord (r : Ring) (ps : Nat) (o : XOp) (k : Nat) : Ring × List Byte :=
  let blk := r.blockOf ps o.down
  let w := (o.word + k) % 16384
  (r.useBank blk w o.swz, r.spadRead blk (128 * w) o.swz 128)

/-- A multi-word load of `xa` started (R247): words n to n + 23 in cycles c to c + 23, landing at c + 28. -/
def xaLoad (r : Row) (kind : Nat) (s : State) (up : Vec) : State :=
  let o := xopOf s kind (rowBlk r) (rowSwz r) (rowWord0 s up r)
  let (rg, bs) := xopWord (s.ring s.focus.ring) s.focus.ps o 0
  if rg.spadPoisoned (s.block (rowBlk r)) (128 * o.word) 128 (rowSwz r) then
    consumeAtRow (s.setRing s.focus.ring rg) 2 (s.block (rowBlk r) * Config.blockBytes + 128 * o.word)
  else (openWindow (s.setRing s.focus.ring rg) 6 (s.now + 28)).onMe fun e =>
    { e with xops := e.xops ++ [{ o with bytes := bs }] }

/-- `xmerge` (R247): the image added to `xa` cell by cell. -/
def execXmerge (r : Row) (s : State) : Host.Outcome State Fault Refusal := maccRow (.xmerge r) r 6 (fun s up => xaLoad r 1 s up) s

/-- `xld` (R247): `xa` becomes the image. -/
def execXld (r : Row) (s : State) : Host.Outcome State Fault Refusal := maccRow (.xld r) r 6 (fun s up => xaLoad r 0 s up) s

/-- `xst` (R247): the `xa` landed at c, word k performed at the end of c + k + 1. -/
def execXst (r : Row) (s : State) : Host.Outcome State Fault Refusal :=
  effectRow (.xst r) r
    (fun s up =>
      let n := rowWord0 s up r
      let bs := s.me.xaBytes
      let o := xopOf s 2 (rowBlk r) (rowSwz r) n
      let t := s.onRing s.focus.ring fun x => x.useBank (s.block (rowBlk r)) n (rowSwz r)
      addPend (t.onMe fun e => { e with xops := e.xops ++ [o] })
        ((List.range 24).map fun k => { Pend.empty (s.now + k + 2) with
          dst := .store (rowBlk r) ((n + k) % 16384) (rowSwz r), val := vecOfBytes ((bs.drop (128 * k)).take 128),
          mask := allTags, tag := BitVec.ofNat 32 k })) s

/-- The bank a row reads. -/
def bankRead (r : Row) : Nat := match matOf r.sa with | .acc n => n.val | _ => 0

/-- A cell of a bank as an exact value. -/
def accNum (e : Element) (b i j : Nat) : Num := decodeCode Fmt.f32 (e.accCell b i j).toNat

/-- The result of `mchk` (R248): checksum minus the row or column sum, one rounding per lane. -/
def mchkRow (r : Row) (s : State) (_ : Vec) : RowResult :=
  let e := s.me
  let b := bankRead r
  let x := lanesFlags (guardNow s r) fun l =>
    let ck := decodeCode Fmt.f32 (if l < 16 then e.ckrAt b l else e.ckcAt b (l - 16)).toNat
    let terms := (List.range 16).map fun k => (if l < 16 then accNum e b l k else accNum e b k (l - 16)).neg
    let v := sumNum .rne (ck :: terms)
    let y := roundFmt Fmt.f32 v.1 r.rm false
    (BitVec.ofNat 32 y.1, v.2 ||| y.2)
  ⟨x.1, 0, x.2⟩

/-- `mchk` (R248). -/
def execMchk (r : Row) (s : State) : Host.Outcome State Fault Refusal := resultRow (.mchk r) r (mchkRow r) s

/-- E(x) of `mbnd` (R248). -/
def boundExp (x : Num) : Int :=
  match x with
  | .fin _ n e _ => if n = 0 then -(pow2 31 : Int) else ilog2 n e
  | _ => (pow2 31 : Int) - 1

/-- `mbnd` (R248): the largest exponent of each row and column. -/
def execMbnd (r : Row) (s : State) : Host.Outcome State Fault Refusal :=
  resultRow (.mbnd r) r
    (perLane fun s _ l =>
      let es := (List.range 16).map fun k =>
        boundExp (if l < 16 then accNum s.me (bankRead r) l k else accNum s.me (bankRead r) k (l - 16))
      BitVec.ofInt 32 (es.foldl max (-(pow2 31 : Int)))) s

/-- `xcfg` (R249): the weight l, at c + 2. -/
def execXcfg (r : Row) (s : State) : Host.Outcome State Fault Refusal :=
  effectRow (.xcfg r) r (fun s _ => addPend s [{ Pend.empty (s.now + 2) with dst := .xaWeight r.imm.toInt }]) s

end Sys2Proof.Machine
end

