-- ==== Sys2Proof/Machine/PredRows.lean ====
section
/-!
DEFINITION. The PRD rows (spec/11 R214 to R216).
-/

namespace Sys2Proof.Machine

open Sys2Proof

/-- A predicate row's result: its bits (R214). -/
def predResult (f : State → Vec → W32) (s : State) (up : Vec) : RowResult := ⟨Vec.zero, f s up, 0⟩

/-- The bits of lanes of A that are not zero (R216). -/
def nonzeroBits (v : Vec) : W32 := (List.range 32).foldl (fun m l => setBit m l (v.lane l != 0)) 0

/-- All ones when `b`. -/
def allOrNone (b : Bool) : W32 := if b then 0xFFFFFFFF else 0

/-- `psel` by tags (R215): A where its tag bit is set, else B. -/
def execPselTag (r : Row) (s : State) : Host.Outcome State Fault Refusal :=
  resultRow (.pselTag r) r (perLane fun s up l =>
      if bit (srcA s up r (.int 32)).tag l then laneA s up r l else laneB s up r l) s

/-- `psel` by a predicate (R215): B where it is set, else C. -/
def execPselPred (r : Row) (s : State) : Host.Outcome State Fault Refusal :=
  resultRow (.pselPred r) r (perLane fun s up l =>
      if bit (readPred s r.sa) l then laneB s up r l else laneC s up r l) s

/-- `pand` (R216). -/
def execPand (r : Row) (s : State) : Host.Outcome State Fault Refusal :=
  resultRow (.pand r) r (predResult fun s _ => readPred s r.sa &&& readPred s r.sb) s

/-- `por` (R216). -/
def execPor (r : Row) (s : State) : Host.Outcome State Fault Refusal :=
  resultRow (.por r) r (predResult fun s _ => readPred s r.sa ||| readPred s r.sb) s

/-- `pxor` (R216). -/
def execPxor (r : Row) (s : State) : Host.Outcome State Fault Refusal :=
  resultRow (.pxor r) r (predResult fun s _ => readPred s r.sa ^^^ readPred s r.sb) s

/-- `pnot` (R216). -/
def execPnot (r : Row) (s : State) : Host.Outcome State Fault Refusal :=
  resultRow (.pnot r) r (predResult fun s _ => ~~~(readPred s r.sa)) s

/-- `pset` (R216): IMM, twice. -/
def execPset (r : Row) (s : State) : Host.Outcome State Fault Refusal :=
  resultRow (.pset r) r (predResult fun _ _ => r.imm ++ r.imm) s

/-- `pmov` of a predicate (R216). -/
def execPmovPred (r : Row) (s : State) : Host.Outcome State Fault Refusal :=
  resultRow (.pmovPred r) r (predResult fun s _ => readPred s r.sa) s

/-- `pmov` from a vector (R216): nonzero lanes, or the tag with TAG = 1. -/
def execPmovVecToPred (r : Row) (s : State) : Host.Outcome State Fault Refusal :=
  resultRow (.pmovVecToPred r) r (predResult fun s up =>
      if bit r.imm 0 then (srcA s up r (.int 32)).tag else nonzeroBits (srcA s up r (.int 32)).val) s

/-- `pmov` to a vector (R216). -/
def execPmovPredToVec (r : Row) (s : State) : Host.Outcome State Fault Refusal :=
  resultRow (.pmovPredToVec r) r (perLane fun s _ l => if bit (readPred s r.sa) l then 0xFFFFFFFF else 0) s

/-- `pany` (R216): OR over true lanes. -/
def execPany (r : Row) (s : State) : Host.Outcome State Fault Refusal :=
  resultRow (.pany r) r (predResult fun s _ => allOrNone ((readPred s r.sa &&& guardNow s r) != 0)) s

/-- `pall` (R216): AND over true lanes. -/
def execPall (r : Row) (s : State) : Host.Outcome State Fault Refusal :=
  resultRow (.pall r) r (predResult fun s _ => allOrNone ((~~~(readPred s r.sa) &&& guardNow s r) == 0)) s


end Sys2Proof.Machine
end

