-- ==== Sys2Proof/Machine/SyncSteps.lean ====
section
/-!
DEFINITION. The barrier steps, handoff, `trig`, `fence` and `atom` (spec/17 R288 to R305).
-/

namespace Sys2Proof.Machine

open Sys2Proof

/-! ### Barriers -/

/-- A barrier name in a counter (R288): none when bits [47:24] are set or RING is 24 or above. -/
def barrierName (k : BitVec 48) : Option Nat :=
  if pow2 24 ≤ k.toNat ∨ 24 ≤ nameRing k.toNat then none else some k.toNat

/-- Whether a name is local to ring g (R291). -/
def nameLocal (s : State) (g n : Nat) : Bool := nameNode n == s.hub.node.toNat && nameRing n == g

/-- `binit` (R292). -/
def binitStep (b c : Fin 16) (scope : Scope) (s : State) (g : Nat) (_ : Option Wait) : StepEnd :=
  let x := s.ctx g
  let kc := (x.kreg c.val).toInt
  match barrierName (x.kreg b.val) with
  | none => .stop (stepOperandFault s g)
  | some n =>
    if kc < 0 ∨ 4095 < kc then .stop (stepOperandFault s g)
    else if !nameLocal s g n then .stop (barrierFault s g 10 n)
    else
      let o := s.barrier g (nameNum n)
      if barOwner o ≠ 0 ∧ barOwner o ≠ x.id then .stop (barrierFault s g 4 n)
      else if barOwner o = x.id ∧ !(barPend o == barCount o && barInb o == 0 && barOutb o == 0) ∧ !barFlt o ∧ !barOvf o then
        .stop (barrierFault s g 9 n)
      else
        .done ({ s with barUsed := (g, nameNum n) :: s.barUsed }.setBarrier g (nameNum n)
          (packBits 128 [(112, 16, x.id.toNat), (100, 4, scopeRank scope), (16, 12, kc.toNat), (4, 12, kc.toNat)]))

/-- `binit`. -/
def execBinit (b c : Fin 16) (scope : Scope) (t : Trans) (s : State) : Host.Outcome State Fault Refusal :=
  stepMeaning (.binit b c scope t) t (binitStep b c scope) s

/-- The set P of the accesses a context has issued so far, as a line of a scope and kind (R275, R278). -/
def lineNow (s : State) (scope : Scope) (kind : FenceKind) : Divider := ⟨s.reqNext, s.copyNext, scope, kind, none⟩

/-- Whether an access issued before a waiting step's cycle is still to be performed, with the step's numbers kept in its
wait. -/
def earlierPending (s : State) (g : Nat) (w : Wait) (scope : Scope) (kind : FenceKind) : Bool :=
  dividerBlocks s g (s.ctx g).id ⟨bits w.data 0 64, bits w.data 64 64, scope, kind, none⟩

/-- A wait that keeps the line of its cycle. -/
def lineWait (s : State) (g : Nat) : Wait :=
  { Wait.first (s.ctx g) with data := packBits 512 [(0, 64, s.reqNext), (64, 64, s.copyNext)] }

/-- The scope of an object that a name names; another package's may be any, and is taken as the widest (log 68). -/
def objectScope (s : State) (n : Nat) : Scope :=
  if nameNode n = s.hub.node.toNat then scopeOfNat (barScope (s.barrier (nameRing n) (nameNum n))) else .sys

/-- `barr` (R293): stage 0 until every earlier access is performed at the object's scope, stage 1 until the arrival sent
then is acknowledged. The acknowledgement is the cause in `answer`, 0 for none. -/
def barrStep (b : Fin 16) (s : State) (g : Nat) (w : Option Wait) : StepEnd :=
  match barrierName ((s.ctx g).kreg b.val) with
  | none => .stop (stepOperandFault s g)
  | some n =>
    let w := w.getD (lineWait s g)
    if w.stage = 0 then
      if earlierPending s g w (objectScope s n) .rel then .wait (waitStep s g w)
      else .wait (waitStep (s.onCtx g fun c => { c with answer := none }) g { w with stage := 1 })
    else
      match (s.ctx g).answer with
      | none => .wait s
      | some a =>
        let s := s.onCtx g fun c => { c with answer := none }
        if a = 0 then .done s else .stop (barrierFault s g a.toNat n)

/-- `barr`. -/
def execBarr (b : Fin 16) (t : Trans) (s : State) : Host.Outcome State Fault Refusal :=
  stepMeaning (.barr b t) t (barrStep b) s

/-- BARRIER_ARRIVAL (R290): the arrival that ring g's `barr` has sent is applied and acknowledged, when its object has taken no other
operation in this cycle. -/
def execBarrierArrival (g : Nat) (s : State) : Host.Outcome State Fault Refusal :=
  let c := s.ctx g
  match c.wait, c.stepAt c.si with
  | some w, .ok (.barr b _) =>
    if w.stage = 1 && c.answer.isNone && barrierFree s (c.kreg b.val).toNat then
      let (s, cause) := applyBarrier s g c.asid (c.kreg b.val).toNat .arrive
      .next (s.onCtx g fun c => { c with answer := some (BitVec.ofNat 64 cause) })
    else .refused .notDue
  | _, _ => .refused .notDue

/-- `bexp` (R294): the addition to an object of the own ring, whose sequencer comes first (R290), is applied and acknowledged in
this cycle; one to another object is sent, and the step waits for its acknowledgement, the cause in `answer`, 0 for none. -/
def bexpStep (b n : Fin 16) (outb : Bool) (s : State) (g : Nat) (w : Option Wait) : StepEnd :=
  let c := s.ctx g
  let k := (c.kreg n.val).toInt
  match barrierName (c.kreg b.val) with
  | none => .stop (stepOperandFault s g)
  | some name =>
    if k < 0 ∨ (pow2 36 : Int) ≤ k then .stop (stepOperandFault s g)
    else if nameLocal s g name then
      let (s', cause) := applyBarrier s g c.asid name (.expect (BitVec.ofInt 36 k) outb)
      if cause = 0 then .done s' else .stop (barrierFault s' g cause name)
    else if (w.elim 0 (·.stage)) = 0 then
      .wait (waitStep (s.onCtx g fun c => { c with answer := none }) g { Wait.first c with stage := 1 })
    else
      match c.answer with
      | none => .wait s
      | some a =>
        let s := s.onCtx g fun c => { c with answer := none }
        if a = 0 then .done s else .stop (barrierFault s g a.toNat name)

/-- The addition that ring g's `bexp` has sent to another object, applied and acknowledged (R290, R294). -/
def expectArrives (s : State) (g : Nat) : Option State :=
  let c := s.ctx g
  match c.wait, c.stepAt c.si with
  | some w, .ok (.bexp b n outb _) =>
    if w.stage = 1 && c.answer.isNone && barrierFree s (c.kreg b.val).toNat then
      let (s, cause) := applyBarrier s g c.asid (c.kreg b.val).toNat (.expect ((c.kreg n.val).truncate 36) outb)
      some (s.onCtx g fun c => { c with answer := some (BitVec.ofNat 64 cause) })
    else none
  | _, _ => none

/-- `bexp`. -/
def execBexp (b n : Fin 16) (outb : Bool) (t : Trans) (s : State) : Host.Outcome State Fault Refusal :=
  stepMeaning (.bexp b n outb t) t (bexpStep b n outb) s

/-- `bwait` (R296): waits for phase kG[3:0] of a local object. -/
def bwaitStep (b g' : Fin 16) (s : State) (g : Nat) (w : Option Wait) : StepEnd :=
  let c := s.ctx g
  match barrierName (c.kreg b.val) with
  | none => .stop (stepOperandFault s g)
  | some n =>
    if !nameLocal s g n then .stop (barrierFault s g 10 n)
    else
      let o := s.barrier g (nameNum n)
      let d := (barGen o + 16 - bits (c.kreg g'.val) 0 4) % 16
      if barOwner o ≠ c.id then .stop (barrierFault s g 4 n)
      else if barFlt o then .stop (barrierFault s g 7 n)
      else if d = 0 ∨ 9 ≤ d then .wait (waitStep s g (w.getD (Wait.first c)))
      else if d = 1 ∧ barLpois o then
        if c.regions.isEmpty then .stop (barrierFault s g 8 n)
        else .stop (consumePoison s g 5 (faultAt s g 7 5 0 (BitVec.ofNat 64 n)))
      else .done s

/-- `bwait`. -/
def execBwait (b g' : Fin 16) (t : Trans) (s : State) : Host.Outcome State Fault Refusal :=
  stepMeaning (.bwait b g' t) t (bwaitStep b g') s

/-! ### Handoff (R298 to R301) -/

/-- Ring cycles of the module since reset: the hub's order of events. -/
def State.cycleNo (s : State) : Nat := s.tick.toNat * Config.cyclesPerTick + s.sub

/-- Handoff queue n. -/
def State.handoff (s : State) (n : Nat) : HQueue := tget s.hub.hq n ⟨0, [], []⟩
/-- Handoff queue n written. -/
def State.setHandoff (s : State) (n : Nat) (q : HQueue) : State := s.onHub fun h => { h with hq := tset h.hq n q }

/-- LIVE, ASID and depth of a queue (R298). -/
def hqLive (q : HQueue) : Bool := bit q.cfg 63
/-- The address space that may use a queue. -/
def hqAsid (q : HQueue) : BitVec 10 := q.cfg.extractLsb' 53 10
/-- Entries a queue holds. -/
def hqDepth (q : HQueue) : Nat := bits q.cfg 47 6 + 1

/-- What is wrong with a use of a queue by a context (R300, R301): cause 11 or 5, or 0. -/
def hqCause (q : HQueue) (c : Ctx) : Nat := if !hqLive q then 11 else if hqAsid q ≠ c.asid then 5 else 0

/-- `hpost` (R300): waits while the queue is full, then appends the value with the WDI of its cycle. -/
def hpostStep (q : Fin 16) (src : SReg) (s : State) (g : Nat) (w : Option Wait) : StepEnd :=
  let c := s.ctx g
  let n := (c.kreg q.val).toNat
  if 1024 ≤ n then .stop (stepOperandFault s g)
  else
    let x := s.handoff n
    let cause := hqCause x c
    if cause ≠ 0 then .stop (barrierFault s g cause n)
    else if hqDepth x ≤ x.entries.length then .wait (waitStep s g (w.getD (Wait.first c)))
    else
      let e : HEntry := ⟨c.sreg src, c.wdi, c.id, s.cycleNo, none⟩
      .done (s.setHandoff n { x with entries := x.entries ++ [e] })

/-- `hpost`. -/
def execHpost (q : Fin 16) (src : SReg) (t : Trans) (s : State) : Host.Outcome State Fault Refusal :=
  stepMeaning (.hpost q src t) t (hpostStep q src) s

/-- WDP of a context that is neither bound nor saved any more (R282): its writes are numbered below the first that is not
performed, and all of them count once none is left. -/
def leftWdp (s : State) (id : BitVec 16) : Nat :=
  (s.reqs.filter fun q => q.ctx == id && q.lines != 0 && !q.performedAt (q.countScope s)).foldl (fun w q => min w (q.wdi - 1)) (pow2 48)

/-- What is known of a producer (R301): its WDP, and whether it was killed; one that is neither bound nor saved has
ended or was killed. -/
def producerOf (s : State) (id : BitVec 16) : Nat × Bool :=
  match (List.range Config.rings).find? fun g => (s.ring g).bound && (s.ctx g).id == id with
  | some g => ((s.ctx g).wdp, (s.ctx g).killed)
  | none =>
    match s.saved.find? fun x => x.ctx.id == id with
    | some x => (x.ctx.wdp, x.ctx.killed)
    | none =>
      (leftWdp s id, s.hub.killed.contains id)

/-- Whether a context waits on its ring in an `htake` on queue n; one that was saved, or whose step was abandoned, does not. -/
def waitsNow (s : State) (n : Nat) (id : BitVec 16) : Bool :=
  (List.range Config.rings).any fun g =>
    let c := s.ctx g
    (s.ring g).bound && c.id == id && c.wait.isSome && c.fault.isNone && (s.ring g).slotState != .saving &&
      (match c.stepAt c.si with
      | .ok (.htake _ q _) => (c.kreg q.val).toNat == n
      | _ => false)

/-- The entry a taker has claimed, or else may claim now: it is first among the takers that still wait and an entry is visible
(R300, R301). -/
def takerEntry (s : State) (n : Nat) (x : HQueue) (id : BitVec 16) : Option HEntry :=
  match x.entries.find? fun e => e.claimed == some id with
  | some e => some e
  | none =>
    if (x.takers.find? fun t => t == id || waitsNow s n t) = some id then x.entries.find? fun e => e.claimed.isNone && decide (e.posted < s.cycleNo) else none

/-- The first entry equal to `e` replaced or removed. -/
def replaceEntry (l : List HEntry) (e : HEntry) (n : Option HEntry) : List HEntry :=
  match l with
  | [] => []
  | x :: r => if x = e then (match n with | some y => y :: r | none => r) else x :: replaceEntry r e n

/-- `htake` (R301): claims the head entry, waits until the producer's WDP reaches its stamp, and takes its value. -/
def htakeStep (d : SReg) (q : Fin 16) (s : State) (g : Nat) (w : Option Wait) : StepEnd :=
  let c := s.ctx g
  let n := (c.kreg q.val).toNat
  if 1024 ≤ n then .stop (stepOperandFault s g)
  else
    let x := s.handoff n
    let cause := hqCause x c
    if cause ≠ 0 then .stop (barrierFault s g cause n)
    else
      let x := if w.isNone then { x with takers := x.takers.filter fun t => t != c.id } else x
      let has := x.takers.contains c.id || x.entries.any fun e => e.claimed == some c.id
      let x := if has then x else { x with takers := x.takers ++ [c.id] }
      match takerEntry s n x c.id with
      | none => .wait (waitStep (s.setHandoff n x) g (w.getD (Wait.first c)))
      | some e =>
        let e' := { e with claimed := some c.id }
        let x := { x with entries := replaceEntry x.entries e (some e'), takers := x.takers.filter fun t => t != c.id }
        let (wdp, killed) := producerOf s e.producer
        let gone := { x with entries := replaceEntry x.entries e' none }
        if killed then .stop (barrierFault (s.setHandoff n gone) g 12 n)
        else if e.stamp ≤ wdp then .done ((s.setHandoff n gone).onCtx g fun c => c.setS d e.value)
        else .wait (waitStep (s.setHandoff n x) g (w.getD (Wait.first c)))

/-- `htake`. -/
def execHtake (d : SReg) (q : Fin 16) (t : Trans) (s : State) : Host.Outcome State Fault Refusal :=
  stepMeaning (.htake d q t) t (htakeStep d q) s

/-- A function applied to task n. -/
def State.onTask (s : State) (n : Nat) (f : Task → Task) : State :=
  s.onHub fun h => { h with tasks := h.tasks.map fun e => if e.1 = n then (e.1, f e.2) else e }

/-- `trig` (R302): the first one records WDI and reports it to the task table. -/
def trigStep (s : State) (g : Nat) (_ : Option Wait) : StepEnd :=
  let c := s.ctx g
  if c.trigRec.isSome then .done s
  else
    .done ((s.onCtx g fun c => { c with trigRec := some c.wdi }).onTask (bindTask c.bind) fun k =>
      { k with triggered := tset k.triggered (bindMember c.bind) c.wdi })

/-- `trig`. -/
def execTrig (t : Trans) (s : State) : Host.Outcome State Fault Refusal := stepMeaning (.trig t) t trigStep s

/-! ### Fences and atomics -/

/-- `fence` (R278, R303): the line is kept in force while the step waits, and is dropped when its condition holds. -/
def fenceStep (kind : FenceKind) (scope : Scope) (s : State) (g : Nat) (w : Option Wait) : StepEnd :=
  let (s, w) := match w with
    | none => (s.onCtx g fun c => { c with dividers := c.dividers ++ [lineNow s scope kind] }, lineWait s g)
    | some w => (s, w)
  if earlierPending s g w scope kind then .wait (waitStep s g w)
  else .done (s.onCtx g fun c => { c with dividers := c.dividers.filter fun d => d.streams.isSome })

/-- `fence`. -/
def execFence (kind : FenceKind) (scope : Scope) (t : Trans) (s : State) : Host.Outcome State Fault Refusal :=
  stepMeaning (.fence kind scope t) t (fenceStep kind scope) s

/-- The value an `atom` returns (R305). -/
def atomResult (op : AtomOp) (wide : Bool) (bs : List Byte) : BitVec 64 :=
  if wide || op == .fadd then BitVec.ofNat 64 (leNat bs) else (BitVec.ofNat 32 (leNat bs)).signExtend 64

/-- `atom` (R305): the access is sent, and the step waits until it is performed at its target's scope. -/
def atomStep (op : AtomOp) (wide : Bool) (d : SReg) (a : Fin 16) (b c : SReg) (off : BitVec 14) (s : State) (g : Nat)
    (w : Option Wait) : StepEnd :=
  let x := (s.ctx g).areg a.val + off.signExtend 64
  let n := if wide then 8 else 4
  let w := w.getD (Wait.first (s.ctx g))
  if w.stage = 0 then
    if x.toNat % n ≠ 0 then .stop (alignFault s g x 2)
    else if seqStopped s g then .wait (waitStep s g w)
    else
      let k := s.ctx g
      let id := s.reqNext
      let s := issueReq s g .seq .atomic [.new (.virt (x.toNat % pow2 56)) (List.replicate n 0)] 0
        (.atom op wide (k.sreg b) (k.sreg c))
      .wait (waitStep s g { w with stage := 1, req := id })
  else
    match s.req w.req with
    | none => .wait s
    | some q =>
      let p := q.parts.headD (.new (.virt 0) [])
      if q.performedAt (destScope g s.hub.node.toNat (p.dest.getD p.place)) then
        match takeRead s g w.req with
        | .pending => .wait s
        | .stop s => .stop s
        | .got s bs => .done (s.onCtx g fun c => c.setS d (atomResult op wide bs))
      else .wait s

/-- `atom`. -/
def execAtom (op : AtomOp) (wide : Bool) (d : SReg) (a : Fin 16) (b c : SReg) (off : BitVec 14) (t : Trans) (s : State) :
    Host.Outcome State Fault Refusal := stepMeaning (.atom op wide d a b c off t) t (atomStep op wide d a b c off) s

end Sys2Proof.Machine
end

