-- ==== Sys2Proof/Machine/SystemSteps.lean ====
section
/-!
DEFINITION. The containment and system steps (spec/17 R313 to R322).
-/

namespace Sys2Proof.Machine

open Sys2Proof

/-- `cnopen` (R314). -/
def cnopenStep (region : BitVec 8) (hnd : BitVec 12) (m : Fin 16) (s : State) (g : Nat) (_ : Option Wait) : StepEnd :=
  let c := s.ctx g
  let k := c.kreg m.val
  let mask : BitVec 32 := k.extractLsb' 0 32
  let l := maskList mask
  if 8 < l.length ∨ (l.any fun n => !(c.stream n).isOpen) ∨ bits k 32 16 ≠ 0 ∨ 4 ≤ c.regions.length ∨
      (c.regions.any fun r => r.id == region.toNat) then .stop (stepOperandFault s g)
  else
    let r : Region :=
      { id := region.toNat, hnd := hnd.toNat, depth := c.rstack.length, mask := mask,
        marks := l.map fun n => (n, deliveredStream s g n), nev := 0, hit := false }
    .done (s.onCtx g fun c => { c with regions := c.regions ++ [r] })

/-- `cnopen`. -/
def execCnopen (region : BitVec 8) (hnd : BitVec 12) (m : Fin 16) (t : Trans) (s : State) :
    Host.Outcome State Fault Refusal := stepMeaning (.cnopen region hnd m t) t (cnopenStep region hnd m) s

/-- Whether a read issued before a waiting step's cycle has still to deliver its data (R317): a request stays listed until its
reader takes it, an atomic access ends with its result, and a copy counts the bytes it has read. -/
def readsOwed (s : State) (g : Nat) (w : Wait) : Bool :=
  let id := (s.ctx g).id
  (s.reqs.any fun q => q.ring == g && q.ctx == id && decide (q.id < bits w.data 0 64) && needsRd q.kind &&
    (q.kind != .atomic || q.done.isNone)) ||
    (s.copies.any fun k => k.ring == g && k.ctx == id && decide (k.id < bits w.data 64 64) && decide (k.readDone < trBytes k.record)) ||
    s.colls.any fun c => c.ring == g && c.ctx == id && decide (c.copies < bits w.data 64 64)

/-- `cnclose` (R317): waits until every earlier read has delivered its data, then closes the innermost region. -/
def cncloseStep (region : BitVec 8) (s : State) (g : Nat) (w : Option Wait) : StepEnd :=
  let c := s.ctx g
  match c.regions.getLast? with
  | none => .stop (stepOperandFault s g)
  | some r =>
    if r.id ≠ region.toNat then .stop (stepOperandFault s g)
    else
      let w := w.getD (lineWait s g)
      if readsOwed s g w then .wait (waitStep s g w)
      else
        .done (s.onCtx g fun c =>
          let c := { c with regions := c.regions.dropLast }
          if r.hit then c.setLine 13 false else c)

/-- `cnclose`. -/
def execCnclose (region : BitVec 8) (t : Trans) (s : State) : Host.Outcome State Fault Refusal :=
  stepMeaning (.cnclose region t) t (cncloseStep region) s

/-- The value of `tick` (R319). -/
def tickValue (s : State) (g : Nat) : TickSrc → Nat
  | .reference => s.tick.toNat
  | .watchdog => (s.ctx g).wdcount
  | .remaining => bindWdog (s.ctx g).bind - (s.ctx g).wdcount

/-- `tick` (R319). -/
def execTick (d : Fin 16) (src : TickSrc) (t : Trans) (s : State) : Host.Outcome State Fault Refusal :=
  stepMeaning (.tick d src t) t (fun s g _ => .done (s.onCtx g fun c => c.setK d.val (BitVec.ofNat 48 (tickValue s g src)))) s

/-- The value of `capq` (R320). -/
def capqValue (s : State) (g sel : Nat) : Nat :=
  let r := s.ring g
  match sel with
  | 0 => 1
  | 1 => Config.rings
  | 2 => Config.positions
  | 3 => r.nLive
  | 4 => r.budget
  | 5 => Config.mwake
  | 6 => bits r.capmask 0 48
  | 7 => g
  | 8 => s.hub.node.toNat
  | 9 => dieOf g
  | 10 => r.ctx.id.toNat
  | 11 => r.ctx.asid.toNat
  | 12 => r.holdlim.toNat
  | 13 => hdrStlen r.ctx.hdr
  | 14 => 128
  | 15 => 4096
  | 16 => 1024
  | _ => 256

/-- `capq` (R320). -/
def execCapq (d : Fin 16) (sel : BitVec 8) (t : Trans) (s : State) : Host.Outcome State Fault Refusal :=
  stepMeaning (.capq d sel t) t
    (fun s g _ => .done (s.onCtx g fun c => c.setK d.val (BitVec.ofNat 48 (capqValue s g sel.toNat)))) s

/-- `perf` (R321): the count as it stood, then cleared with CLR. -/
def execPerf (d ev : Fin 16) (clr : Bool) (t : Trans) (s : State) : Host.Outcome State Fault Refusal :=
  stepMeaning (.perf d ev clr t) t
    (ctxStep fun c =>
      let v := c.evCount ev.val
      (if clr then c.setEv ev.val 0 else c).setK d.val (BitVec.ofNat 48 v)) s

/-- The flag words of the elements that hold the context's stripes set to zero (R322). -/
def Ring.clearFlags (r : Ring) : Ring :=
  { r with
    stripes := r.stripes.map fun e =>
      if e.2.occ.isSome then (e.1, { e.2 with elems := e.2.elems.map fun x => (x.1, { x.2 with flags := 0 }) }) else e,
    ctx := { r.ctx with flagw := 0 } }

/-- `flagsq` (R322): the context's flag word with the elements'; with CLR they are then cleared, but for flags that land
in this cycle. -/
def execFlagsq (d : Fin 16) (clr : Bool) (t : Trans) (s : State) : Host.Outcome State Fault Refusal :=
  stepMeaning (.flagsq d clr t) t
    (fun s g _ =>
      let v := (s.ring g).allFlags
      let s := if clr then s.onRing g Ring.clearFlags else s
      .done (s.onCtx g fun c => c.setK d.val (BitVec.ofNat 48 v.toNat))) s

/-! ### Steps that wait (R136) -/

/-- The effect of a step that can wait, and its transition. -/
def waitingStep : Instr → Option (Trans × (State → Nat → Option Wait → StepEnd))
  | .waitt m t => some (t, waittStep m)
  | .waits m all t => some (t, waitsStep m all)
  | .yield t => some (t, yieldStep)
  | .sys svc t => some (t, sysStep svc)
  | .run f n kw kb ks l t => some (t, runStep f n kw kb ks l)
  | .park w t => some (t, parkStep w)
  | .ald d a sz off t => some (t, aldStep d a sz off)
  | .ast b a wide off t => some (t, astStep b a wide off)
  | .qset q kb szm1 ent l t => some (t, qsetStep q kb szm1 ent l)
  | .sopen n vs out q a l t => some (t, sopenStep n vs out q a l)
  | .sclose n abort wait l t => some (t, scloseStep n abort wait l)
  | .sbar mask scope l t => some (t, fun s g w => issueCommand s g l w (.sbar mask scope) 0 0)
  | .copy a l t => some (t, copyStepMeaning a l)
  | .copyc n a l t => some (t, copycStep n a l)
  | .copycResume n l t => some (t, copycResumeStep n l)
  | .barr b t => some (t, barrStep b)
  | .bexp b n outb t => some (t, bexpStep b n outb)
  | .bwait b g' t => some (t, bwaitStep b g')
  | .hpost q src t => some (t, hpostStep q src)
  | .htake d q t => some (t, htakeStep d q)
  | .fence kind scope t => some (t, fenceStep kind scope)
  | .atom op wide d a b c off t => some (t, atomStep op wide d a b c off)
  | .coll a l t => some (t, collStep a l)
  | .cnclose region t => some (t, cncloseStep region)
  | _ => none

/-- STEP_WAIT_COMPLETE (R136): the waiting step at SI looks at its condition in this non-held cycle; when it holds the
step completes and takes its transition. -/
def execStepWaitComplete (g : Nat) (s : State) : Host.Outcome State Fault Refusal :=
  let c := s.ctx g
  match c.wait, c.stepAt c.si with
  | some w, .ok i =>
    match waitingStep i with
    | some (t, f) => .next (endStepState g t (f s g (some w)))
    | none => .refused .notDue
  | _, _ => .refused .notDue

end Sys2Proof.Machine
end

