-- ==== Sys2Proof/Machine/Image.lean ====
section
/-!
DEFINITION. The checks of an image: registration by Eosen and load by dispatch (spec/07 R113 to R127, spec/05 R71, R75,
R89, R93, spec/03 R62). The first stage that fails gives the validation code: header, state table, then each record in
ascending order, and within a record the lowest code (log 16).
-/

namespace Sys2Proof.Machine

open Sys2Proof

/-- Capability bits of an instruction (R117), as bit numbers of OPMASK. -/
def capBits (i : Instr) : List Nat :=
  match i.tile? with
  | some (maj, fn, r) => (if maj = 11 then 9 + fn else 12) :: (if r.ck then [14] else [])
  | none =>
    match i.shape?, i.row? with
    | some sh, some r =>
      let ck := match r.sa with
        | .mat (.ckr _) => [14]
        | .mat (.ckc _) => [14]
        | _ => []
      match sh.maj with
      | 2 => if 2 ≤ sh.fn ∧ sh.fn ≤ 4 then [2] else [1]
      | 3 => [1]
      | 4 => if r.ty = .f32 then [3] else [4]
      | 5 => if r.ty = .f32 then [3] else [4]
      | 6 => [5]
      | 7 => [6]
      | 9 => if 3 ≤ sh.fn ∧ sh.fn ≤ 6 then [8] else [7]
      | 10 => if sh.fn = 2 then [16] else if sh.fn = 6 then [15] else [0]
      | 13 =>
        if sh.fn ≤ 2 then 23 :: ck
        else if sh.fn = 4 then [12]
        else if sh.fn = 8 then [14]
        else if sh.fn = 9 then [23]
        else [13]
      | _ => [0]
    | _, _ =>
      match i with
      | .atom .. => [17]
      | .coll .. => [18]
      | .cnopen .. => [19]
      | .cnclose .. => [19]
      | .binit .. => [20]
      | .barr .. => [20]
      | .bexp .. => [20]
      | .bwait .. => [20]
      | .hpost .. => [21]
      | .htake .. => [21]
      | .trig .. => [21]
      | .sopen .. => [22]
      | .sclose .. => [22]
      | .sbar .. => [22]
      | .spos .. => [22]
      | .copy .. => [22]
      | .copyc .. => [22]
      | .copycResume .. => [22]
      | _ => [0]

/-- Whether a mask declares every capability of an instruction. -/
def declares (mask : BitVec 64) (i : Instr) : Bool := (capBits i).all fun b => bit mask b

/-! ### Header and state table -/

/-- The parts of an image by offset and length (R114). -/
def imageParts (h : BitVec 2048) (recs : List (Nat × Nat)) : List (Nat × Nat) :=
  [(0, 256), (hdrRecdir h, 4 * (hdrV h + 1)), (hdrStoff h, 8 * hdrStlen h)] ++
    (if hdrDatalen h = 0 then [] else [(hdrDataoff h, hdrDatalen h)]) ++ recs

/-- Whether two parts overlap. -/
def partsMeet (a b : Nat × Nat) : Bool := decide (a.1 < b.1 + b.2) && decide (b.1 < a.1 + a.2)

/-- Whether any two of a list of parts overlap. -/
def anyMeet : List (Nat × Nat) → Bool
  | [] => false
  | a :: r => r.any (partsMeet a) || anyMeet r

/-- The header fields of R115 out of range (code 1). -/
def headerFieldsBad (h : BitVec 2048) : Bool :=
  hdrMagic h != 0x564B494D || hdrVersion h != 1 || bits h 480 1536 != 0 || bits h 48 16 != 0 || bits h 273 15 != 0 ||
    hdrV h == 0 || decide (1024 < hdrV h) || hdrStlen h == 0 || decide (4096 < hdrStlen h) ||
    decide (hdrStlen h ≤ hdrEntry h) || decide (65536 < hdrArglen h) || decide (512 < hdrFootprint h) ||
    decide (15 < hdrMaxreach h) || hdrRecdir h % 64 != 0 || hdrStoff h % 64 != 0 || hdrDataoff h % 64 != 0 ||
    hdrImglen h % 64 != 0 || (hdrDatalen h == 0 && hdrDataoff h != 0)

/-- Whether a step names a virtual stripe outside the image (code 3, R113, R159, R166). -/
def stepStripeBad (v : Nat) (i : Instr) : Bool :=
  (match i with
  | .vpl vs _ _ => decide (v ≤ vs.toNat)
  | .run f n _ _ _ _ _ => decide (v ≤ f.toNat) || decide (v ≤ f.toNat + n.toNat)
  | .sopen _ vs _ _ _ _ _ => decide (v ≤ vs.toNat)
  | _ => false) ||
    (match i.long? with
    | some l => l.vs.any fun x => decide (v ≤ x.toNat)
    | none => false)

/-- A state table's steps from a slot with their indices, or the code of the first that is refused (R113, R118); no word at STLEN or
beyond is read. -/
def tableSteps (word : Nat → BitVec 64) (stlen v : Nat) : Nat → Nat → Except Nat (List (Nat × Instr))
  | 0, _ => .ok []
  | fuel + 1, i =>
    if stlen ≤ i then .ok []
    else
      match decodeStep (word i) (if i + 1 < stlen then word (i + 1) else 0) with
      | .error e => .error e.code
      | .ok x =>
        match x.check with
        | some e => .error e.code
        | none =>
          if stepStripeBad v x then .error 3
          else if stepIsLong (word i) && decide (stlen ≤ i + 1) then .error 4
          else
            match tableSteps word stlen v fuel (if stepIsLong (word i) then i + 2 else i + 1) with
            | .error e => .error e
            | .ok l => .ok ((i, x) :: l)

/-- The state index a step names, if any: its transition's target, or a handler (R109, R313). -/
def stepTarget : Instr → Option Nat
  | .go t => some t.toNat
  | .call t => some t.toNat
  | i =>
    match i.trans? with
    | some (.goto _ t) => some t.toNat
    | _ => none

/-- Whether the table enters a second word (code 4): from ENTRY, a transition or a handler; a handler also lies below
STLEN. A transition at or beyond STLEN is the overrun of R109 at run time. -/
def tableEntersSecond (word : Nat → BitVec 64) (stlen entry : Nat) (l : List (Nat × Instr)) : Bool :=
  let second := l.filterMap fun x => if stepIsLong (word x.1) then some (x.1 + 1) else none
  second.contains entry ||
    l.any fun x =>
      (match stepTarget x.2 with
      | some t => second.contains t
      | none => false) ||
      (match x.2 with
      | .cnopen _ h _ _ => decide (stlen ≤ h.toNat) || second.contains h.toNat
      | _ => false)

/-! ### Records -/

/-- A row slot of a record with its row: slot number, stage, instruction. -/
abbrev SlotRow := Nat × Nat × Instr

/-- The rows of a record, or the code of the first slot that is refused (R113, R120). -/
def recordRows (r : Rec) : Except Nat (List SlotRow) :=
  (List.range (recIi r)).foldl (fun a j =>
    match a with
    | .error e => .error e
    | .ok l =>
      let w := recSlot r j
      if bits w 92 36 ≠ 0 then .error 6
      else
        match decodeRow (slotRow w) with
        | .error e => .error e.code
        | .ok i =>
          match i.check with
          | some e => .error e.code
          | none => .ok (l ++ [(j, slotStage w, i)])) (.ok [])

/-- Whether a row performs nothing (R100, R105). -/
def rowIdle (i : Instr) : Bool :=
  match i.tile?, i.row? with
  | some (_, _, r), _ => r.nop
  | none, some r => isNoOp r.guard
  | none, none => false

/-- Cycles from a row's issue to its latest completion (R93, R183, R184, R238 to R241, R247); a `qtx` counts to its issue. -/
def rowFinish (mgate : Nat) (i : Instr) : Nat :=
  match i.tile? with
  | some (maj, fn, r) =>
    4 * (r.rep.toNat + 1) + (if mgate = 0 then 0 else Config.mwake) + (if maj = 11 then 12 else if fn = 0 then 2 else 0)
  | none =>
    match i.row? with
    | none => 0
    | some r =>
      match i with
      | .xst _ => 25
      | .cmerge r => if bit r.imm 0 then 4 else 2
      | .qtx _ => 0
      | _ => rowLatency (shapeOf i).lat r

/-- What a row writes for R186: (class, number), class 0 `v`, 1 `x`, 2 `e`, 3 `po`, 5 predicate. -/
def rowWrites (i : Instr) : List (Nat × Nat) :=
  match i.row? with
  | none => []
  | some r =>
    if isNoOp r.guard then []
    else
      (match (shapeOf i).d, r.dst with
      | .d, .v n => [(0, n.val)]
      | .d, .x n => [(1, n.val)]
      | .d, .port .e => [(2, 0)]
      | .d, .port (.po m) => [(3, m.val)]
      | .p, .pred n => [(5, n.val)]
      | _, _ => []) ++
      (match r.pro with
      | some n => [(5, n.val)]
      | none => [])

/-- Whether writes of two slots land on one place in one cycle, from any two instances (R185, R186). -/
def writesMeet (ii : Nat) (a b : SlotRow) : Bool :=
  let la : Int := a.1 + a.2.1 * ii + rowFinish 0 a.2.2
  let lb : Int := b.1 + b.2.1 * ii + rowFinish 0 b.2.2
  decide ((la - lb) % (max ii 1 : Nat) = 0) &&
    let d := (la - lb) / (max ii 1 : Nat)
    (rowWrites a.2.2).any fun x => (rowWrites b.2.2).any fun y =>
      x.1 == y.1 &&
        (if x.1 = 0 then decide (((x.2 : Int) - a.2.1 - y.2 + d + b.2.1) % 64 = 0) else x.2 == y.2)

/-- Whether any two slots' writes meet (code 8). -/
def anyWritesMeet (ii : Nat) : List SlotRow → Bool
  | [] => false
  | a :: r => r.any (writesMeet ii a) || anyWritesMeet ii r

/-- The ports a row names: as destination, as sources. -/
def rowPorts (i : Instr) : List Port × List Port :=
  match i.row? with
  | none => ([], [])
  | some r =>
    let p : Opnd → List Port := fun o => match o with
      | .port p => [p]
      | _ => []
    (p r.dst, p r.sa ++ p r.sb ++ p r.sc)

/-- Whether a port is enabled for its direction in a slot's switch entry and the pass map (R68, R71, R121). -/
def portBound (sw pass : BitVec 64) (write : Bool) (p : Port) : Bool :=
  match p with
  | .up => (swUp sw).isSome
  | .dn => (swDn sw).isSome
  | .w => true
  | .e => true
  | .pi m => bit pass m.val
  | .po m => bit pass (4 + m.val)
  | .tap m =>
    match swTap sw m.val with
    | some (w, _) => w == write
    | none => false

/-- Whether a port is a pass register. -/
def passPort : Port → Bool
  | .pi _ => true
  | .po _ => true
  | _ => false

/-- The port, switch-table and pass-map checks (code 7): a row may name only ports whose binding is enabled (R71), and one that performs
nothing reads and writes no pass register (R100, R121). -/
def portsBad (r : Rec) (rows : List SlotRow) : Bool :=
  bits r.pass 8 56 != 0 ||
    rows.any fun x =>
      let sw := recSwitch r x.1
      let free (p : Port) : Bool := rowIdle x.2.2 && passPort p
      bits sw 40 24 != 0 || bits sw 0 6 != 0 || (rowPorts x.2.2).1.any (fun p => !free p && !portBound sw r.pass true p) ||
        (rowPorts x.2.2).2.any fun p => !free p && !portBound sw r.pass false p

/-- Whether a row reads a pass register. -/
def readsPi (i : Instr) : Bool := (rowPorts i).2.any fun p => match p with
  | .pi _ => true
  | _ => false

/-- The latest completion of an instance's rows, with the column skew (R93); a row that performs nothing completes nothing. -/
def latestFinish (mgate : Nat) (r : Rec) (rows : List SlotRow) : Nat :=
  (rows.filter fun x => !rowIdle x.2.2).foldl (fun m x => max m (x.1 + x.2.1 * recIi r + rowFinish mgate x.2.2 + 7)) 0

/-- Depths of the two counter banks and the bank of the latest window after a row (R62, R239, R246); none past 127. Of a west merge R251
says only that it brings the local bank's own depth; that it also leaves the local source bank empty, as the merge of the eastern column
does in the columns that have one, is the model's choice (log 92). -/
def depthAfter (st : Nat × Nat × Option Nat) (i : Instr) : Option (Nat × Nat × Option Nat) :=
  let (d0, d1, last) := st
  match i.tile?, i.row? with
  | some (12, fn, r), _ =>
    if r.nop then some st
    else
      let first := match r.win.val with
        | 0 => match last with
          | some b => 1 - b
          | none => 0
        | 1 => 0
        | _ => 1
      let n := r.rep.toNat + 1
      let z0 := if r.zero then 0 else d0
      let z1 := if r.zero then 0 else d1
      if fn = 0 then
        if 95 < z0 ∨ 95 < z1 then none else some (0, 0, some (1 - first))
      else if 127 < z0 + 32 * n ∨ 127 < z1 + 32 * n then none
      else some (z0 + 32 * n, z1 + 32 * n, some (1 - first))
  | none, some r =>
    if isNoOp r.guard then some st
    else
      match i with
      | .cmerge r =>
        let d := match matOf r.dst with
          | .cb n => n.val
          | _ => 0
        let src := if bit r.imm 2 then none
          else match r.sa with
            | .mat (.cb n) => some n.val
            | _ => none
        let of (b : Nat) : Nat := if b = 0 then d0 else d1
        let sum := of d + (src.elim 0 of)
        if 127 < sum then none
        else
          let after (b : Nat) : Nat :=
            if b = d then (if bit r.imm 0 then 0 else sum) else if src = some b then 0 else of b
          some (after 0, after 1, last)
      | .accz r =>
        match matOf r.dst with
        | .cb n => some (if n = 0 then 0 else d0, if n = 1 then 0 else d1, last)
        | _ => some st
      | _ => some st
  | _, _ => some st

/-- The schedule of `n` instances of a record walked for its counting depths (R22, R62). -/
def depthWalk (rows : List SlotRow) (ii n : Nat) : Nat → Nat → Nat × Nat × Option Nat → Bool
  | 0, _, _ => false
  | fuel + 1, t, st =>
    match rows.find? fun x => x.1 == t % max ii 1 with
    | some (_, stage, i) =>
      let inst := t / max ii 1
      if stage ≤ inst ∧ inst < stage + n then
        match depthAfter st i with
        | none => true
        | some st' => depthWalk rows ii n fuel (t + 1) st'
      else depthWalk rows ii n fuel (t + 1) st
    | none => depthWalk rows ii n fuel (t + 1) st

/-- The rows of one instance in the order of their times. -/
def instanceRows (r : Rec) (rows : List SlotRow) : List Instr :=
  (List.range (recMaxStage r + 1)).flatMap fun stage => (List.range (recIi r)).flatMap fun slot =>
    (rows.filter fun x => x.1 == slot && x.2.1 == stage).map fun x => x.2.2

/-- Whether the depth of a bank after an instance is above its depth after the instance before, over `n` instances taken one after the
other (log 93). -/
def depthGrows (is_ : List Instr) : Nat → Bool → Nat × Nat × Option Nat → Bool
  | 0, _, _ => false
  | n + 1, first, st =>
    match is_.foldl (fun (a : Option (Nat × Nat × Option Nat)) i => a.bind fun st => depthAfter st i) (some st) with
    | none => false
    | some st' => (!first && (decide (st.1 < st'.1) || decide (st.2.1 < st'.2.1))) || depthGrows is_ n false st'

/-- A counting depth above 127, or one that grows from one instance to the next (code 12, R62, R251). The wave size need not be the
record's own, so both are walked. -/
def depthBad (r : Rec) (rows : List SlotRow) : Bool :=
  let many := recMaxStage r + 33
  let walk (n : Nat) : Bool := depthWalk rows (recIi r) n ((n + recMaxStage r) * recIi r) 0 (0, 0, none)
  (rows.any fun x => (x.2.2.tile?.any fun y => y.1 == 12)) &&
    (walk (min (recBm1 r + 1) many) || walk many || depthGrows (instanceRows r rows) 12 true (0, 0, none))

/-- The state-map checks (code 14, R122). -/
def stateMapBad (r : Rec) : Bool :=
  let m := r.smap
  let specs := m.map fun e => bits e 0 9
  let legal (e : BitVec 32) : Bool :=
    let n := bits e 0 6
    match bits e 6 3 with
    | 0 => true
    | 1 => decide (n < 16)
    | 5 => decide (1 ≤ n) && decide (n ≤ 7)
    | 7 => decide (n ≤ 3) || n == 6 || (decide (8 ≤ n) && decide (n ≤ 15))
    | _ => false
  let cols := (List.range 8).filter fun k => !(mapOf r k).isEmpty
  (m.any fun e => bits e 24 8 != 0 || bits e 9 7 != 0 || bits e 16 8 == 0 || !legal e) ||
    specs.eraseDups.length != specs.length ||
    (cols.any fun k => decide (30 < ((mapOf r k).filter fun e => bits e 6 3 != 7).length)) ||
    recSt r != (cols.map (blockLen r)).sum

/-- Whether a switch entry of a record binds a tap for writing. -/
def writesTap (r : Rec) : Bool :=
  r.switches.any fun sw => (List.range 4).any fun m => (swTap sw m).any fun x => x.1

/-- The checks of one record alone, lowest code first (R119 to R122); 0 when it passes. Nonzero bytes after the state map have code 5
(log 121). -/
def recordCode (h : BitVec 2048) (n : Nat) (bs : List Byte) : Nat :=
  let r := recOfBytes bs
  let ii := recIi r
  let used := 72 + 24 * ii + 4 * recSmn r
  if recTerm r ∨ recNum r ≠ n % 1024 ∨ ii = 0 ∨ 32 < ii ∨ recRlen r ≠ ceilDiv used 64 ∨ bits r.hdr 208 272 ≠ 0 ∨
      bits r.hdr 184 8 ≠ 0 ∨ bits r.hdr 36 12 ≠ 0 ∨ (recState r != (recSmn r != 0)) ∨ (n = 0 ∧ recLock r) ∨
      (!recState r && recSt r != 0) ∨ (recReach r != 0 && !writesTap r) ∨ ((bs.drop used).any fun b => b != 0) then 5
  else
    match recordRows r with
    | .error e => e
    | .ok rows =>
      if portsBad r rows then 7
      else if anyWritesMeet ii rows then 8
      else if recReach r = 0 ∧ writesTap r then 9
      else if (!recLock r && !recPin r && rows.any fun x => readsPi x.2.2) ∨ recTail r < latestFinish (hdrMgate h) r rows then 10
      else if depthBad r rows then 12
      else if (rows.any fun x => !declares (recOpmask r) x.2.2) ∨ recOpmask r &&& ~~~(hdrOpmask h) ≠ 0 ∨
          bits (recOpmask r) 24 40 ≠ 0 then 13
      else if stateMapBad r then 14
      else
        let zeroed := bs.zipIdx.map fun b => if 60 ≤ b.2 ∧ b.2 < 64 then (0 : Byte) else b.1
        if crc32c zeroed ≠ recCrc r then 16 else 0

/-! ### Lanes (R75) -/

/-- A tap that a row of a record uses: written or read, lane 0-15, time of the write's completion or of the read within
an instance. -/
structure TapUse where
  write : Bool
  lane : Nat
  time : Nat
  deriving DecidableEq, Repr

/-- The taps a record's rows use. -/
def tapUses (r : Rec) (rows : List SlotRow) : List TapUse :=
  rows.flatMap fun x =>
    if rowIdle x.2.2 then []
    else
      let t := x.1 + x.2.1 * recIi r
      let sw := recSwitch r x.1
      let one (write : Bool) (p : Port) : List TapUse :=
        match p with
        | .tap m =>
          match swTap sw m.val with
          | some (w, lane) => if w = write then [⟨write, lane, if write then t + rowFinish 0 x.2.2 else t⟩] else []
          | none => []
        | _ => []
      (rowPorts x.2.2).1.flatMap (one true) ++ (rowPorts x.2.2).2.flatMap (one false)

/-- A stripe of a lock group for the lane check: its place, start offset, II, reach and taps. -/
structure LaneStripe where
  place : Nat
  start : Nat
  ii : Nat
  reach : Nat
  taps : List TapUse
  deriving DecidableEq, Repr

/-- Whether words of two write taps can be present at one position of a lane in one cycle (R73, R75): the same diagonal
of position and time, and meeting reaches; `wrap` is a turn of the ring by which the second is taken further. -/
def lanesMeet (wrap : Int) (a : LaneStripe) (x : TapUse) (b : LaneStripe) (y : TapUse) : Bool :=
  let cw := decide (x.lane < 8)
  let pa : Int := 2 * a.place
  let pb : Int := 2 * b.place + wrap
  let ta : Int := a.start + x.time
  let tb : Int := b.start + y.time
  let diff := if cw then (ta - pa) - (tb - pb) else (ta + pa) - (tb + pb)
  x.lane == y.lane && decide (diff % (max (Nat.gcd a.ii b.ii) 1 : Nat) = 0) &&
    (if cw then decide (max pa pb + 1 ≤ min (pa + 2 * a.reach) (pb + 2 * b.reach))
      else decide (max (pa - 2 * a.reach) (pb - 2 * b.reach) ≤ min pa pb - 1))

/-- Whether any two write taps of a lock group collide, on the lanes as a line and, for `turn` above 0, once round a ring of as many
positions (R73). -/
def groupLanesMeet (turn : Nat) (l : List LaneStripe) : Bool :=
  let ws := l.flatMap fun s => (s.taps.filter (·.write)).map fun t => (s, t)
  let turns : List Int := if turn = 0 then [0] else [0, turn, -turn]
  ws.zipIdx.any fun p => ws.zipIdx.any fun q =>
    decide (p.2 < q.2) && turns.any fun t => lanesMeet t p.1.1 p.1.2 q.1.1 q.1.2

/-- The least stripe budget that R75 and R89 let an image be bound with: above its reach, and no less than its longest lock group. -/
def leastBudget (h : BitVec 2048) (longest : Nat) : Nat := max 2 (max (hdrMaxreach h + 1) longest)

/-- The rings on which an image can run (R87, R88): live stripes N and budget P. -/
def ringsFor (least : Nat) : List (Nat × Nat) :=
  (List.range 17).flatMap fun n => ((List.range 17).filter fun p => decide (least ≤ p) && decide (p ≤ n)).map fun p => (n, p)

/-- A range of virtual stripes that a `run` covers, and whether one of them has PIN, so that it scrolls on every ring (R90). -/
structure LaneRange where
  first : Nat
  nv : Nat
  pin : Bool
  deriving DecidableEq, Repr

/-- The ranges of a table's runs. -/
def laneRanges (recs : Nat → Rec) (steps : List (Nat × Instr)) : List LaneRange :=
  steps.flatMap fun x =>
    match x.2 with
    | .run f n _ _ _ _ _ => [⟨f.toNat, n.toNat + 1, (List.range (n.toNat + 1)).any fun i => recPin (recs (f.toNat + i))⟩]
    | _ => []

/-- Whether a range holds two stripes. -/
def LaneRange.holds (r : LaneRange) (a b : Nat) : Bool := [a, b].all fun x => decide (r.first ≤ x) && decide (x < r.first + r.nv)

/-- Whether, where a range scrolls with some budget, the stripe `down` of a wave lies within `reach` stripes of `up` in the wave before. -/
def LaneRange.nextWave (r : LaneRange) (least up down reach : Nat) : Bool :=
  r.holds up down && (r.pin || decide (least < r.nv)) && decide (down < up) && decide (down + r.nv - up ≤ reach)

/-- Whether, on a ring of n live stripes with budget p, two hoists of a range that may be resident together lie within `reach` stripes of
each other round the ring (R73): `up` is the later one, in the same wave or, where the range scrolls, a later one. -/
def LaneRange.roundRing (r : LaneRange) (n p up down reach : Nat) : Bool :=
  r.holds up down && (List.range 17).any fun k =>
    (k == 0 || r.pin || decide (p < r.nv)) && decide (down < k * r.nv + up) && decide (k * r.nv + up - down < p) &&
      decide (n ≤ reach + (k * r.nv + up - down))

/-- Whether a read tap of stripe n can see a word from a stripe outside its lock group (R75): from one upstream on a clockwise lane,
or downstream on the other, which `near` finds within that stripe's reach. -/
def readsOutside (taps : Nat → List TapUse) (reach group : Nat → Nat) (v : Nat) (near : Nat → Nat → Nat → Bool) : Bool :=
  (List.range v).any fun n => ((taps n).filter fun t => !t.write).any fun t =>
    (List.range v).any fun w =>
      let up := if t.lane < 8 then w else n
      let down := if t.lane < 8 then n else w
      group w != group n && ((taps w).any fun u => u.write && u.lane == t.lane) && near up down (reach w)

/-- The first stripe of the lock group of record n (R89). -/
def groupHead (recs : Nat → Rec) : Nat → Nat
  | 0 => 0
  | n + 1 => if recLock (recs (n + 1)) then groupHead recs n else n + 1

/-- The lane checks over a whole image (code 9). The ring on which it will run is not known: what goes wrong only once round the ring is
a fault where it does so on every ring on which the image can be bound (log 34). -/
def imageLanesBad (h : BitVec 2048) (steps : List (Nat × Instr)) (recs : List Rec) : Bool :=
  let rec_ (n : Nat) : Rec := recs.getD n ⟨0, [], [], 0, []⟩
  let rowsOf (n : Nat) : List SlotRow := match recordRows (rec_ n) with
    | .ok l => l
    | .error _ => []
  let taps (n : Nat) : List TapUse := tapUses (rec_ n) (rowsOf n)
  let head (n : Nat) : Nat := groupHead rec_ n
  let v := recs.length
  let least := leastBudget h (((List.range v).map fun n => n - head n + 1).foldl max 0)
  let rings := ringsFor least
  let ranges := laneRanges rec_ steps
  let sees := readsOutside taps (fun n => recReach (rec_ n)) head v
  let group (n : Nat) : List LaneStripe := ((List.range v).filter fun m => head m == n).map fun m =>
    { place := m - n, start := (((List.range v).filter fun k => head k == n && decide (n < k) && decide (k ≤ m)).map
        fun k => recOff (rec_ k)).sum, ii := recIi (rec_ m), reach := recReach (rec_ m), taps := taps m }
  sees (fun up down reach => (decide (up < down) && decide (down - up ≤ reach)) || ranges.any fun r => r.nextWave least up down reach) ||
    (!rings.isEmpty && rings.all fun x => sees fun up down reach => ranges.any fun r => r.roundRing x.1 x.2 up down reach) ||
    (List.range v).any fun n =>
      head n == n && (groupLanesMeet 0 (group n) || (!rings.isEmpty && rings.all fun x => groupLanesMeet (2 * x.1) (group n)))

/-! ### The whole image -/

/-- The header's CRC input (R116). -/
def headerCrcBytes (img : List Byte) (h : BitVec 2048) : List Byte :=
  img.take 252 ++ (img.drop (hdrRecdir h)).take (4 * (hdrV h + 1)) ++ (img.drop (hdrStoff h)).take (8 * hdrStlen h)

/-- The header of an image's bytes. -/
def imageHeader (img : List Byte) : BitVec 2048 := BitVec.ofNat 2048 (leNat (img.take 256))

/-- Entry n of the directory. -/
def imageDir (img : List Byte) (h : BitVec 2048) (n : Nat) : Nat := leNat ((img.drop (hdrRecdir h + 4 * n)).take 4)

/-- Slot i of the state table. -/
def imageSlot (img : List Byte) (h : BitVec 2048) (i : Nat) : BitVec 64 :=
  BitVec.ofNat 64 (leNat ((img.drop (hdrStoff h + 8 * i)).take 8))

/-- Record n's offset and length in bytes. -/
def imageRecord (img : List Byte) (h : BitVec 2048) (n : Nat) : Nat × Nat :=
  let o := imageDir img h n
  (o, 64 * bits (BitVec.ofNat 512 (leNat ((img.drop o).take 64))) 192 16)

/-- Whether the terminator record breaks R123. -/
def terminatorBad (bs : List Byte) (v : Nat) : Bool :=
  let h : BitVec 512 := BitVec.ofNat 512 (leNat (bs.take 64))
  let want : BitVec 512 := packBits 512 [(480, 32, bits h 480 32), (192, 16, 1), (35, 1, 1), (0, 10, v % 1024)]
  bs.length != 64 || h != want

/-- The records checked in order: the first code that is not 0. -/
def recordsCode (img : List Byte) (h : BitVec 2048) (steps : List (Nat × Instr)) : Nat :=
  let at_ (n : Nat) : List Byte := let r := imageRecord img h n; (img.drop r.1).take r.2
  match (List.range (hdrV h)).findSome? fun n => let c := recordCode h n (at_ n); if c = 0 then none else some c with
  | some c => c
  | none =>
    let last := at_ (hdrV h)
    let recs := (List.range (hdrV h)).map fun n => recOfBytes (at_ n)
    if terminatorBad last (hdrV h) then 5
    else if imageLanesBad h steps recs then 9
    else if hdrSsaneed h ≠ (recs.map fun r => 128 * ceilDiv (recSt r) 128).sum ∨
        hdrMaxreach h ≠ recs.foldl (fun m r => max m (recReach r)) 0 then 14
    else if crc32c (last.take 60 ++ [0, 0, 0, 0] ++ last.drop 64) ≠ bits (BitVec.ofNat 512 (leNat last)) 480 32 then 16
    else 0

/-- Registration (R126): the validation code of an image's bytes, 0 when it passes every static check. A record counts at least its
header, so that RLEN 0 is the record's own fault; a reserved bit of OPMASK is one of the mask (log 73). -/
def registrationCode (img : List Byte) : Nat :=
  let h := imageHeader img
  if headerFieldsBad h ∨ hdrImglen h ≠ img.length then 1
  else
    let recs := (List.range (hdrV h + 1)).map (imageRecord img h)
    let parts := imageParts h (recs.map fun r => (r.1, max r.2 64))
    if (parts.any fun p => decide (hdrImglen h < p.1 + p.2)) ∨ (recs.any fun r => r.1 % 64 != 0) ∨ anyMeet parts then 1
    else
      match tableSteps (imageSlot img h) (hdrStlen h) (hdrV h) (hdrStlen h) 0 with
      | .error e => e
      | .ok steps =>
        if tableEntersSecond (imageSlot img h) (hdrStlen h) (hdrEntry h) steps then 4
        else if bits (hdrOpmask h) 24 40 ≠ 0 ∨ (steps.any fun x => !declares (hdrOpmask h) x.2) then 13
        else
          let c := recordsCode img h steps
          if c ≠ 0 then c else if crc32c (headerCrcBytes img h) ≠ hdrCrc h then 16 else 0

/-- Load (R126): MAGIC and VERSION, then the header CRC; 0 when they pass. -/
def loadCode (img : List Byte) : Nat :=
  let h := imageHeader img
  if hdrMagic h ≠ 0x564B494D ∨ hdrVersion h ≠ 1 then 1
  else if crc32c (headerCrcBytes img h) ≠ hdrCrc h then 16
  else 0

end Sys2Proof.Machine
end

