-- ==== Sys2Proof/Machine/Performed.lean ====
section
/-!
DEFINITION. The events of the memory system: accesses performed and replayed (spec/15 R272, R275 to R280), the fault
buffer's flush (R268, R269), shoot-downs (R261) and generation bumps (R273, R274).
-/

namespace Sys2Proof.Machine

open Sys2Proof

/-- A request that nothing waits for any more: a write or an atomic stream's lanes performed at `sys` scope. -/
def Req.finished (q : Req) : Bool :=
  q.performedAt .sys &&
    (match q.purpose with
    | .atom _ _ _ _ => false
    | _ => q.kind == .write || q.kind == .atomic)

/-- A request dropped once it is finished. -/
def dropFinished (s : State) (id : Nat) : State :=
  match s.req id with
  | some q => if q.finished then s.dropReq id else s
  | none => s

/-- A request performed at a scope, with a copy's bookkeeping (R178, R281). -/
def performAccess (s : State) (q : Req) (sc : Scope) : State :=
  if q.done.isNone && (!genFresh s q || spadRefused s q) then performReq s q sc
  else dropFinished (performReq (copyWritePerformed s q sc) q sc) q.id

/-- MEMORY_ACCESS_PERFORMED (R275, R276): due when order allows the request to be performed at the scope. -/
def execMemoryAccessPerformed (req : Nat) (scope : Scope) (s : State) : Host.Outcome State Fault Refusal :=
  match s.req req with
  | none => .refused .notDue
  | some q => if mayPerform s q scope && !q.performedAt scope then .next (performAccess s q scope) else .refused .notDue

/-- Whether a request's context can still issue: it is bound or saved, and not killed (R272). -/
def Req.live (s : State) (q : Req) : Bool :=
  match s.ctxById q.ring q.ctx with
  | some c => !c.killed
  | none => false

/-- STALE_REFUSAL_REPLAY (R272): a live issuer retranslates and replays; a killed context's access is dropped. -/
def execStaleRefusalReplay (req : Nat) (s : State) : Host.Outcome State Fault Refusal :=
  match s.req req with
  | none => .refused .notDue
  | some q =>
    if !q.stale then .refused .notDue
    else if q.live s then .next (translateReq s req)
    else .next (s.dropReq req)

/-! ### The fault buffer -/

/-- The faulting accesses that satisfy a test, replayed in order of issue (R268, R270). -/
def replayStops (s : State) (f : Req → Bool) : State :=
  ((s.reqs.filter fun q => q.stop.isSome && f q).map (·.id)).foldl translateReq s

/-- The accesses of a die's stopped scroll controllers, whose heap windows stand as they did, and of its copy engines stopped in a
collective, made again (R268). -/
def replayEngines (s : State) (d : Nat) : State :=
  let s := (List.range Config.rings).foldl (fun s g =>
    match (s.ctx g).fetchStop with
    | some x => if ((s.ring g).bound || (s.ring g).slotState == .loading) && dieOf g == d then postFault s d g (scrollReq s g) x.va x.cause x.pte x.level else s
    | none => s) s
  (s.colls.filter fun c => dieOf c.ring == d).foldl replayColl s

/-- FAULT_BUFFER_FLUSH (R268): a write of 1 to `DIE.FBFLUSH`. -/
def execFaultBufferFlush (die : Nat) (s : State) : Host.Outcome State Fault Refusal :=
  .next (s.onDie die fun d => { d with fbflush := true })

/-- FLUSH_COMPLETE (R268): the buffer emptied, the batch advanced, every stopped issuer of the die replayed. -/
def execFlushComplete (die : Nat) (s : State) : Host.Outcome State Fault Refusal :=
  if (s.die die).fbflush then
    let s := s.onDie die fun d =>
      { d with fbtail := d.fbhead, fbunread := 0, fbatch := d.fbatch + 1, fbrecs := [], fbflush := false }
    .next (replayEngines (replayStops s fun q => dieOf q.ring == die && !(q.stop.any (·.repair))) die)
  else .refused .notDue

/-- FBSTAT_OVF_CLEAR (R269): a write of 1 to `DIE.FBSTAT.OVF`. -/
def execFbstatOvfClear (die : Nat) (s : State) : Host.Outcome State Fault Refusal :=
  .next (s.onDie die fun d => { d with fbovf := false })

/-! ### Shoot-downs (R261) -/

/-- Whether a cached translation overlaps the range of a shoot-down. -/
def shotDown (v : BitVec 64) (e : TlbEntry) : Bool :=
  e.asid == v.extractLsb' 52 10 &&
    (bit v 62 || (decide (e.vpn < bits v 12 40 + bits v 0 12 + 1) && decide (bits v 12 40 < e.vpn + e.pages)))

/-- SHOOT_DOWN (R261): a write to `HUB.TLBINV` with BUSY 1 discards the range in every unit; one while BUSY is 1, or
without BUSY, is ignored. -/
def execShootDown (value : BitVec 64) (s : State) : Host.Outcome State Fault Refusal :=
  if !bit value 63 || bit s.hub.tlbinv 63 then .next s
  else
    .next ((List.range 4).foldl (fun s d => s.onDie d fun x => { x with tlb := x.tlb.filter fun e => !shotDown value e })
      (s.onHub fun h => { h with tlbinv := value }))

/-- SHOOT_DOWN_COMPLETE (R261): every unit has acknowledged. -/
def execShootDownComplete (s : State) : Host.Outcome State Fault Refusal :=
  if bit s.hub.tlbinv 63 then .next (s.onHub fun h => { h with tlbinv := setBit h.tlbinv 63 false }) else .refused .notDue

/-! ### Generation bumps (R273) -/

/-- One region's generation advanced in every translation unit and target, and in the address-space table (R257). -/
def bumpRegion (s : State) (asid : BitVec 10) (r : Nat) : State :=
  let n := (generation s 0 asid r + 1) % 4096
  (List.range 4).foldl (fun s d =>
      s.physWrite (bits (s.die d).astbase 15 37 * 32768 + 32 * asid.toNat)
        (bytesOf (setBits (astEntry s d asid) (64 + 12 * r) 12 n)))
    (s.onHub fun h => { h with gens := tset h.gens (16 * asid.toNat + r) n })

/-- A bump begun: BUSY set, every region of the mask advanced. -/
def startBump (s : State) (v : BitVec 64) : State :=
  (maskList (v.extractLsb' 0 16)).foldl (fun s r => bumpRegion s (v.extractLsb' 16 10) r)
    (s.onHub fun h => { h with genbump := packBits 64 [(63, 1, 1), (16, 10, bits v 16 10), (0, 16, bits v 0 16)] })

/-- GENERATION_BUMP (R273): a write to `HUB.GENBUMP` with BUSY 1; one while BUSY is 1, or without BUSY, is ignored. -/
def execGenerationBump (value : BitVec 64) (s : State) : Host.Outcome State Fault Refusal :=
  if !bit value 63 || bit s.hub.genbump 63 then .next s else .next (startBump s value)

/-- Eosen's next bump written when GENBUMP is free. -/
def nextBump (s : State) : State :=
  if bit s.hub.genbump 63 then s
  else
    match s.hub.bumps with
    | b :: _ => startBump s b.value
    | [] => s

/-- A bump that Eosen owes (R274), for a function's reset when `f` says so (R381), after which the barriers of `own` are free
(R288). -/
def queueBump (s : State) (asid : BitVec 10) (mask : Nat) (f : Option Nat) (own : List (Nat × BitVec 16)) : State :=
  nextBump (s.onHub fun h =>
    { h with bumps := h.bumps ++ [⟨packBits 64 [(63, 1, 1), (16, 10, asid.toNat), (0, 16, mask)], f, own⟩] })

/-- Whether a request carries an older generation of a region under change. -/
def olderGen (s : State) (v : BitVec 64) (q : Req) : Bool :=
  q.asid == v.extractLsb' 16 10 && (q.parts.any fun p => bit v p.region && !p.fresh s q) && q.parts.all fun p => p.dest.isSome

/-- Whether an access was forwarded to another package or a host and not yet performed there. -/
def forwarded (s : State) (q : Req) : Bool :=
  q.done.isSome && q.parts.any fun p =>
    let d := scopeRank (destScope q.ring s.hub.node.toNat (p.dest.getD p.place))
    decide (3 ≤ d) && (q.done.any fun x => decide (scopeRank x < d))

/-- Versions of the rename pool that no task maps given back after a bump of the pool's region (R331). -/
def returnVersions (s : State) (v : BitVec 64) : State :=
  let base := bits s.hub.rnpool 0 40
  let mapped (u : BitVec 10 × Nat × Nat) : Bool :=
    s.hub.tasks.any fun t => seAsid t.2.entry == u.1 && t.2.windows.any fun w =>
      (w.base + w.off) % pow2 56 == (base + u.2.1) * 65536
  if bit v (base / pow2 36) then
    s.onHub fun h => { h with rnheld := h.rnheld.filter fun u => u.1 != v.extractLsb' 16 10 || mapped u }
  else s

/-- Eosen's bump that has cleared BUSY taken off its list, and the barriers that waited for it freed (R274, R288). -/
def bumpCleared (s : State) (v : BitVec 64) : State :=
  match s.hub.bumps with
  | [] => s
  | b :: rest =>
    if b.value = v then b.free.foldl (fun s x => freeBarriers s x.1 x.2) (s.onHub fun h => { h with bumps := rest }) else s

/-- GENERATION_BUMP_COMPLETE (R273): the queued accesses of older generations are refused, those forwarded have been
performed, and BUSY clears; Eosen's next bump begins. -/
def execGenerationBumpComplete (s : State) : Host.Outcome State Fault Refusal :=
  let v := s.hub.genbump
  if !bit v 63 || s.reqs.any fun q => olderGen s v q && forwarded s q then .refused .notDue
  else
    let old (q : Req) : Bool := olderGen s v q && q.done.isNone
    let s := { s with
      reqs := (s.reqs.filter fun q => !old q || q.live s).map fun q => if old q then { q with stale := true } else q }
    .next (nextBump (returnVersions (bumpCleared (s.onHub fun h => { h with genbump := setBit v 63 false }) v) v))

end Sys2Proof.Machine
end

