-- ==== Sys2Proof/Machine/Tasks.lean ====
section
/-!
DEFINITION. The path from a submission entry to a completion record: queues, the task table, dependences and renaming,
kills (spec/19 R323 to R331), and handoff queue configuration (spec/17 R298).
-/

namespace Sys2Proof.Machine

open Sys2Proof

/-! ### Reads that Eosen makes in an address space -/

/-- Bytes at virtual addresses of an address space, or none where a page does not translate for the access or the bytes come poisoned
(log 97). -/
def readAsid (s : State) (asid : BitVec 10) (va n : Nat) (k : ReqKind) : Option (List Byte) :=
  (splitAt 65536 (va % pow2 56) n (n / 65536 + 2)).foldl (fun r x =>
    match r, pagedWalk s 0 asid x.1 k with
    | some l, .ok place _ _ => if s.placeLost place x.2 k then none else some (l ++ s.placeBytes place x.2)
    | _, _ => none) (some [])

/-- Words of `n` bits from bytes. -/
def bvWords (n : Nat) (bs : List Byte) : List (BitVec n) := (wordsOf (n / 8) (bs.length * 8 / n) bs).map (BitVec.ofNat n)

/-! ### Queues (R323, R379) -/

/-- Entries a queue register gives its queue; none while it is disabled. -/
def queueSize (cfg : BitVec 64) : Nat := if bit cfg 0 then pow2 (bits cfg 20 4) else 0
/-- Address of entry 0. -/
def queueBase (cfg : BitVec 64) : Nat := bits cfg 24 40 * 4096
/-- The submission queue register. -/
def State.sqcfg (s : State) (q : Nat) : BitVec 64 := tget s.hub.sqcfg q 0
/-- The completion queue register. -/
def State.cqcfg (s : State) (q : Nat) : BitVec 64 := tget s.hub.cqcfg q 0
/-- The function that owns a queue. -/
def queueOwner (s : State) (q : Nat) : Nat := tget s.hub.sqown q 0
/-- FLRBUSY of a function (R381): some bump of its last reset has not cleared. -/
def flrBusy (s : State) (f : Nat) : Bool := s.hub.bumps.any fun b => b.flr == some f

/-- SUBMISSION_DOORBELL (R323, R379, R381): TAIL taken; one outside the queue, from another function or during FLRBUSY is
ignored with a host event of kind 4. -/
def execSubmissionDoorbell (f q : Nat) (tail : BitVec 16) (s : State) : Host.Outcome State Fault Refusal :=
  if queueOwner s q ≠ f ∨ queueSize (s.sqcfg q) ≤ tail.toNat ∨ flrBusy s f then .next (s.hostEvent f 4 q 0 0)
  else .next (s.onHub fun h => { h with sqtail := tset h.sqtail q tail.toNat })

/-- COMPLETION_QUEUE_HEAD_WRITE (R323, R377): by the owner, within the queue. -/
def execCompletionQueueHeadWrite (f q : Nat) (head : BitVec 16) (s : State) : Host.Outcome State Fault Refusal :=
  if queueOwner s q ≠ f ∨ queueSize (s.cqcfg q) ≤ head.toNat then .next s
  else .next (s.onHub fun h => { h with cqhead := tset h.cqhead q head.toNat })

/-- HANDOFF_QUEUE_CONFIG (R298): the queue configured and emptied. -/
def execHandoffQueueConfig (n : Nat) (value : BitVec 64) (s : State) : Host.Outcome State Fault Refusal :=
  .next (s.setHandoff n ⟨setBits value 0 47 0, [], []⟩)

/-! ### The task table (R328) -/

/-- Task n of the table. -/
def State.task (s : State) (n : Nat) : Option Task := (s.hub.tasks.find? fun e => e.1 == n).map Prod.snd

/-- Members of a task. -/
def Task.count (t : Task) : Nat := seNm1 t.entry + 1

/-- The contexts of a task's members. -/
def Task.ctxs (t : Task) : List (BitVec 16) := t.memberCtx.map Prod.snd

/-- Whether every write of every member is performed at `sys` scope (R286). -/
def writesDone (s : State) (t : Task) : Bool :=
  s.reqs.all fun q => !(t.ctxs.contains q.ctx) || !(q.kind == .write || q.kind == .atomic) || q.performedAt .sys

/-- Whether the task accepted as number `order` has completed (R329): it has left the table, or is done with its writes
performed. -/
def taskComplete (s : State) (order : Nat) : Bool :=
  match s.hub.tasks.find? fun e => e.2.order == order with
  | none => true
  | some (_, t) => t.state == .done && writesDone s t

/-- A completion record (R327). -/
def completionRecord (s : State) (t : Task) (phase : Bool) : BitVec 256 :=
  let r := t.result.getD (0, 0)
  packBits 256 [(192, 64, t.frec.toNat), (128, 64, s.tick.toNat), (112, 16, (seTag t.entry).toNat), (96, 16, t.status.toNat),
    (88, 8, r.1), (80, 8, r.2), (64, 16, t.fctx.toNat), (0, 1, if phase then 1 else 0)]

/-- Whether a completion queue is enabled and has room. -/
def cqRoom (s : State) (q : Nat) : Bool :=
  let n := queueSize (s.cqcfg q)
  n != 0 && (tget s.hub.cqtail q 0 + 1) % n != tget s.hub.cqhead q 0

/-- A task leaves the table; versions of the rename pool that it was the last to map are to be given back after a bump. -/
def freeTask (s : State) (n : Nat) (t : Task) : State :=
  let s := s.onHub fun h => { h with tasks := tdel h.tasks n }
  if t.windows.isEmpty then s
  else queueBump s (seAsid t.entry) (pow2 (bits s.hub.rnpool 0 40 / pow2 36)) none []

/-- A task's record written and its interrupt raised (R327, R286), and its entry freed; a task that gets none is freed. -/
def completeTask (s : State) (n : Nat) (t : Task) : State :=
  if t.noRecord then freeTask s n t
  else
    let q := t.queue
    let cfg := s.cqcfg q
    let tail := tget s.hub.cqtail q 0
    let ph := tget s.hub.cqphase q true
    let s := s.physWrite (queueBase cfg + 32 * tail) (bytesOf (completionRecord s t ph))
    let tail' := (tail + 1) % max (queueSize cfg) 1
    let s := s.onHub fun h =>
      { h with cqtail := tset h.cqtail q tail', cqphase := if tail' = 0 then tset h.cqphase q (!ph) else h.cqphase }
    freeTask (if bit cfg 8 then s.raiseMsi (queueOwner s q) (bits cfg 9 11) else s) n t

/-- Whether a task's record may be written now. -/
def mayComplete (s : State) (t : Task) : Bool := t.state == .done && writesDone s t && (t.noRecord || cqRoom s t.queue)

/-- A task done with a result (R327), its record written at once when it can be. -/
def endTask (s : State) (n res fclass : Nat) (ctx : BitVec 16) (frec : BitVec 64) (status : BitVec 16) : State :=
  let s := s.onTask n fun t =>
    { t with state := .done, result := some (res, fclass), fctx := ctx, frec := frec, status := status }
  match s.task n with
  | some t => if mayComplete s t then completeTask s n t else s
  | none => s

/-- COMPLETION_RECORD_DEFERRED_WRITE (R327): the earliest held record of a queue that can be written. -/
def execCompletionRecordDeferredWrite (q : Nat) (s : State) : Host.Outcome State Fault Refusal :=
  match s.hub.tasks.find? fun e => e.2.queue == q && mayComplete s e.2 with
  | some (n, t) => .next (completeTask s n t)
  | none => .refused .notDue

/-! ### The signatures of the auditor (R365, R366, R369) -/

/-- A count of `HUB.AUDSTAT` (R369): 0 SAMP, 1 MATCH, 2 DEV, 3 UND, 4 SKIP, 5 GEN, 6 INPUT, 7 LOG, 8 QUEUE, 9 RING. -/
def countAudit (s : State) (n : Nat) : State :=
  s.onHub fun h => { h with audstat := tset h.audstat n (satAdd 32 (tget h.audstat n 0) 1) }

/-- The signature of a wave (R366): for each output stream the words that it has popped, then the saved state in the order of the hoists,
then the flags. -/
def waveSignature (c : Ctx) (a : AuditLog) : BitVec 64 :=
  let outs := a.outs.flatMap fun n =>
    let mine := c.audOut.filter fun x => x.1 == a.run && x.2.1 == a.wave && x.2.2.1 == n
    leBytes 8 mine.length ++ mine.flatMap (·.2.2.2)
  BitVec.ofNat 64 (crc64 (outs ++ a.states ++ bytesOf a.flags))

/-- The bytes of a log, in a layout beyond R365 that is free (log 10). -/
def AuditLog.bytes (a : AuditLog) : List Byte :=
  Config.layout 9 ([leBytes 8 a.img, leBytes 2 a.igen, leBytes 2 a.first, leBytes 2 a.nv, leBytes 8 a.b, leBytes 8 a.wave,
    a.fslots.flatMap fun d => leBytes 4 d.toNat] ++
    (a.notes.flatMap fun n => [n.weights.flatMap fun l => leBytes 4 (l % 4294967296).toNat, n.regs, n.restored]) ++
    (a.inputs.flatMap fun x => [leBytes 1 x.stream, bytesOf x.desc, leBytes 8 x.first, leBytes 8 x.count,
      x.gens.flatMap fun q => leBytes 1 q.1 ++ leBytes 2 q.2, bytesOf x.crc]) ++ [bytesOf a.sig])

/-- A log's signature formed over what its context's output streams have popped, and its bytes written (R365, R366); a log longer than
1 MiB is abandoned (R367). -/
def signLog (s : State) (c : Ctx) (slot : Nat) (a : AuditLog) : State :=
  let a := { a with sig := waveSignature c a, whole := true }
  if 1048576 < a.bytes.length then countAudit (s.onHub fun h => { h with audlogs := tdel h.audlogs slot }) 7
  else (s.physWrite (s.hub.audbase.toNat + slot * 1048576) a.bytes).onHub fun h => { h with audlogs := tset h.audlogs slot a }

/-- The logs of a context that goes, whose output streams pop nothing more, made whole. -/
def signLogsOf (s : State) (g : Nat) (c : Ctx) : State :=
  (s.hub.audlogs.filter fun e => !e.2.whole && e.2.ring == g && e.2.ctx == c.id).foldl (fun s e => signLog s c e.1 e.2) s

/-! ### Contexts that leave for good (R272, R274, R288, R301, R345, R352) -/

/-- The claims and places of a context in the handoff queues given back. -/
def unclaim (s : State) (id : BitVec 16) : State :=
  s.onHub fun h =>
    { h with
      hq := h.hq.map fun e =>
        (e.1, { e.2 with
          entries := e.2.entries.map fun x => if x.claimed = some id then { x with claimed := none } else x,
          takers := e.2.takers.filter fun t => t != id }) }

/-- The context of ring g no longer bound, its slot ENDED (R334). -/
def leaveRing (s : State) (g : Nat) : State :=
  s.onRing g fun r => { r with slotState := .ended, bound := false, saving := .idle, bankUse := [] }

/-- A killed context leaves its ring, unless a hoist is under way (R31). -/
def leaveKilled (s : State) (g : Nat) : State := if (s.ctx g).hoisting.isSome then s.onRing g fun r => { r with saving := .idle } else leaveRing s g

/-- The entries of a table of `n` that are not all zero, with their indices. -/
def tableEntries (m : Memory) (t n : Nat) : List (Nat × BitVec 64) :=
  ((m.filter fun c => decide (t ≤ c.1) && decide (c.1 < t + 8 * n)).map fun c => (c.1 - t) / 8).eraseDups.map fun i =>
    (i, BitVec.ofNat 64 (m.readNat (t + 8 * i) 8))

/-- Entries of a table of a level (R258). -/
def tableSize (level : Nat) : Nat := tableAlign level / 8

/-- Whether an entry of a level lets something be written: a leaf with W, or a table that holds such a leaf (R259). -/
def entryWrites (m : Memory) : Nat → Nat → BitVec 64 → Bool
  | 0, _, _ => false
  | fuel + 1, level, p =>
    if !bit p 63 || entryBad p then false
    else if bit p 62 then bit p 1
    else (tableEntries m (bits p 8 44 * 256) (tableSize (level + 1))).any fun e => entryWrites m fuel (level + 1) e.2

/-- The regions that its windows or tables let a context write, as a mask (R274). -/
def writableRegions (s : State) (d : Nat) (c : Ctx) : Nat :=
  let e := astEntry s d c.asid
  let root := if bit e 0 then tableEntries s.mem (bits e 16 36 * 65536) (tableSize 1) else []
  let walked := root.filter fun (x : Nat × BitVec 64) => entryWrites s.mem 4 1 x.2
  let heap := if bindHbase c.bind < bindHlim c.bind then [regionOf (bindHbase c.bind)] else []
  ((walked.map (fun (x : Nat × BitVec 64) => x.1 / 512) ++ heap).eraseDups.map pow2).sum

/-- What a killed context leaves in the memory system (R272): its reads, and its accesses that are stopped, refused or not
translated, are dropped; the others are performed or refused. -/
def dropKilled (s : State) (g : Nat) (id : BitVec 16) : State :=
  { s with
      reqs := s.reqs.filter fun q =>
      !(q.ring == g && q.ctx == id &&
        (q.kind == .read || (q.done.isNone && (q.stop.isSome || q.stale || q.parts.any fun p => p.dest.isNone)))) }

/-- A context killed (R272, R274): it issues nothing new, its copies stop, its remap entry is freed, and every region that it may
write is bumped; its barriers are free once that bump has cleared (R288). -/
def killContext (s : State) (g : Nat) (id : BitVec 16) (f : Option Nat) : State :=
  match s.ctxById g id with
  | none => s
  | some c =>
    let live := decide ((s.ctx g).id = id) && (s.ring g).bound
    let s := signLogsOf s g c
    let s := if live then leaveKilled (s.onCtx g fun c => { c with killed := true }) g
      else { s with saved := s.saved.filter fun x => !(x.ring == g && x.ctx.id == id) }
    let s := dropKilled { s with copies := s.copies.filter fun k => !(k.ring == g && k.ctx == id) } g id
    let s := s.onRing g fun r => { r with remap := r.remap.filter fun e => !(remapState e.2 != 0 && remapCtx e.2 == id) }
    let s := (collMemberEnds (unclaim s id) g c).onHub fun h => { h with killed := id :: h.killed }
    let mask := writableRegions s (dieOf g) c
    if mask = 0 then freeBarriers s g id else queueBump s c.asid mask f [(g, id)]

/-- The ring whose slot holds member m of task n, with a context or a bind record that has not ended. -/
def memberSlot (s : State) (n m : Nat) : Option Nat :=
  (List.range Config.rings).find? fun g =>
    let r := s.ring g
    r.slotState != .empty && r.slotState != .ended && r.ctx.replay.isNone && bindTask r.slot == n && bindMember r.slot == m

/-- A member of a task killed, wherever it is: bound, in a slot that has not started it, or saved. -/
def killMember (s : State) (n m : Nat) (f : Option Nat) : State :=
  let s : State := match memberSlot s n m with
    | some g =>
      if (s.ring g).bound then killContext s g (s.ctx g).id f
      else s.onRing g fun r =>
        { r with slotState := if r.slotState = SlotState.gang then .empty else .ended, saving := .idle }
    | none => s
  match s.saved.find? fun x => bindTask x.ctx.bind == n && bindMember x.ctx.bind == m with
  | some x => killContext s x.ring x.ctx.id f
  | none => s

/-- Every member of a task killed. -/
def killMembers (s : State) (n count : Nat) (f : Option Nat) : State :=
  (List.range count).foldl (fun s m => killMember s n m f) s

/-- A task ended with a result other than completion: its remaining members are killed. -/
def stopTask (s : State) (n res fclass : Nat) (ctx : BitVec 16) (frec : BitVec 64) (status : BitVec 16) : State :=
  match s.task n with
  | none => s
  | some t => if t.state = .done then s else endTask (killMembers s n t.count none) n res fclass ctx frec status

/-- A task whose every member that has not ended is saved (R328). -/
def noteSaved (s : State) (n : Nat) : State :=
  match s.task n with
  | some t =>
    if t.state = .bound ∧ ((List.range t.count).all fun m => t.memberEnded.contains m ||
        s.saved.any fun x => bindTask x.ctx.bind == n && bindMember x.ctx.bind == m) then
      (s.onTask n fun t => { t with state := .saved, readyNo := s.hub.taskOrder }).onHub fun h =>
        { h with taskOrder := h.taskOrder + 1 }
    else s
  | none => s

/-- A member's own end (R147, R348): the task ends when every member has, and is SAVED when every other one is (R328); `res` 5 for a
drained one. -/
def memberEnds (s : State) (n m res : Nat) (status : BitVec 16) : State :=
  let s := s.onTask n fun t =>
    { t with
      memberEnded := m :: t.memberEnded, status := if m = 0 ∧ res = 0 then status else t.status,
      result := if res = 0 then t.result else some (res, 0) }
  match s.task n with
  | none => s
  | some t =>
    if (List.range t.count).all fun i => t.memberEnded.contains i then
      let r := t.result.getD (0, 0)
      endTask s n r.1 r.2 (tget t.memberCtx 0 0) 0 (if r.1 = 0 then t.status else 0)
    else noteSaved s n

/-! ### The end of a context (R147) -/

/-- The conditions of R147 for a context that has issued `end`. -/
def endHolds (c : Ctx) : Bool :=
  c.startq.isEmpty && (c.line 0 || c.lastRun.any (·.parked)) && ((List.range 8).all fun t => c.token t == 0) &&
    (c.streams.all fun e => !e.2.isOpen) && c.wdp == c.wdi

/-- A member leaves its ring for good without having been killed: its barriers are freed and its collectives fail. -/
def retireContext (s : State) (g res : Nat) (status : BitVec 16) : State :=
  let c := s.ctx g
  let s := leaveRing ((signLogsOf s g c).onCtx g fun c => { c with ended := true }) g
  let s := collMemberEnds (unclaim (freeBarriers s g c.id) c.id) g c
  memberEnds s (bindTask c.bind) (bindMember c.bind) res status

/-- The context of a ring ends now when it has issued `end`, every condition of R147 holds and it has taken no fault (R353); none
otherwise. -/
def endsNow (s : State) (g : Nat) : Option State :=
  let r := s.ring g
  match r.ctx.ending with
  | some status =>
    if r.bound && !r.ctx.fault.isSome && r.slotState == .running && endHolds r.ctx then some (retireContext s g 0 status) else none
  | none => none

/-- A task ended from outside: members whose conditions of R147 hold in the same cycle complete (R353), and what is left of the task
is stopped as `f` says. -/
def stopFromOutside (s : State) (n : Nat) (f : State → Task → State) : State :=
  match s.task n with
  | none => s
  | some t =>
    let s := (List.range t.count).foldl (fun s m => ((memberSlot s n m).bind fun g => endsNow s g).getD s) s
    match s.task n with
    | some u => if u.order = t.order ∧ u.state ≠ .done then f s u else s
    | none => s

/-! ### Accepting an entry (R324 to R326, R328) -/

/-- A range list entry (R326). -/
def rangeOf (w : BitVec 128) : Range :=
  { base := bits w 88 40, units := bits w 68 20 + 1, wr := bit w 66, ren := bit w 65 }

/-- Whether a range list is refused (R326). -/
def rangesBad (ws : List (BitVec 128)) : Bool :=
  let used := ws.filter fun w => bit w 67
  (ws.any fun w => bits w 0 65 != 0) || (used.any fun w => bit w 65 && !bit w 66) ||
    decide (4 < (used.filter fun w => !bit w 66).length) || decide (4 < (used.filter fun w => bit w 66).length)

/-- Whether a member array is refused (R325, R326). -/
def membersBad (ms : List (BitVec 512)) : Bool :=
  let places := (ms.map mdPlace).filter fun p => p != 63
  (ms.any fun m => bits m 0 213 != 0 || (decide (24 ≤ mdPlace m) && mdPlace m != 63) || mdImg m % 64 != 0) ||
    places.eraseDups.length != places.length

/-- Whether a submission entry is refused by its own fields (R324). -/
def entryFieldsBad (e : SubEntry) : Bool :=
  bits e 0 216 != 0 || seKind e == 3 || bit (seDep e 0) 22 || bit (seDep e 1) 22 ||
    (seKind e == 0 && (seMemb e % 64 != 0 || seRng e % 64 != 0 || decide (23 < seNm1 e) || seAsid e == 0))

/-- The least free index of the table. -/
def freeIndex (s : State) : Option Nat := (List.range 1024).find? fun n => (s.task n).isNone

/-- Whether a context id is in use (R333). -/
def ctxUsed (s : State) (id : BitVec 16) : Bool :=
  id == 0 || (s.hub.tasks.any fun t => t.2.ctxs.contains id) || (s.saved.any fun x => x.ctx.id == id) ||
    (s.hub.bumps.any fun b => b.free.any fun x => x.2 == id) ||
    (List.range Config.rings).any fun g => (s.ring g).bound && (s.ctx g).id == id

/-- `n` fresh context ids from a start that is Eosen's choice (log 11). -/
def freshIds (s : State) (start n : Nat) : List (BitVec 16) :=
  (((List.range 65536).map fun i => BitVec.ofNat 16 (start + i)).filter fun id => !ctxUsed s id).take n

/-- A task table entry just taken. -/
def newTask (e : SubEntry) (q order : Nat) : Task :=
  { entry := e, queue := q, order := order, state := .wait, members := [], ranges := [], deps := [], windows := [],
    memberCtx := [], memberEnded := [], triggered := [], pri := sePri e, result := none, fctx := 0, frec := 0, status := 0,
    noRecord := false, readyNo := 0 }

/-- The bytes of an image as registration reads them (R126): none when the header, or a page of the directory, the state table or a
record that lies within IMGLEN, cannot be fetched. What else cannot be fetched, in the data section, reads zero: it is not checked. -/
def registrationBytes (s : State) (asid : BitVec 10) (img : Nat) : Option (List Byte) :=
  match readAsid s asid img 256 .fetch with
  | none => none
  | some hb =>
    let h := imageHeader hb
    let bs := (splitAt 65536 img (hdrImglen h) (hdrImglen h / 65536 + 2)).flatMap fun x =>
      (readAsid s asid x.1 x.2 .fetch).getD (List.replicate x.2 0)
    let reached (o n : Nat) : Bool := decide (hdrImglen h < o + n) || (readAsid s asid (img + o) n .fetch).isSome
    if headerFieldsBad h then some bs
    else if reached (hdrRecdir h) (4 * (hdrV h + 1)) && reached (hdrStoff h) (8 * hdrStlen h) &&
        (List.range (hdrV h + 1)).all fun n => let r := imageRecord bs h n; reached r.1 64 && reached r.1 r.2 then some bs
    else none

/-- Registration of the images of members (R126): the first code that is not 0, with the member; images that pass are
remembered by address space, base and generation, with their FOOTPRINT. -/
def registerImages (s : State) (asid : BitVec 10) : List (BitVec 512) → Nat → State × Option (Nat × Nat)
  | [], _ => (s, none)
  | m :: rest, i =>
    let img := mdImg m
    let igen := generation s 0 asid (regionOf img)
    if s.hub.registered.any fun r => r.1 == asid && r.2.1 == img && r.2.2.1 == igen then registerImages s asid rest (i + 1)
    else
      match registrationBytes s asid img with
      | none => (s, some (i, 15))
      | some bs =>
        let code := registrationCode bs
        if code ≠ 0 then (s, some (i, code))
        else
          registerImages (s.onHub fun h =>
            { h with
              registered := (asid, img, igen, hdrFootprint (imageHeader bs)) ::
                (h.registered.filter fun r => !(r.1 == asid && r.2.1 == img)) }) asid rest (i + 1)

/-- Whether two ranges overlap in units. -/
def rangesMeet (a b : Range) : Bool := decide (a.base < b.base + b.units) && decide (b.base < a.base + a.units)

/-- The derived dependences of ranges on earlier tasks of the queue (R329). -/
def derivedDeps (s : State) (q order : Nat) (rs : List Range) : List Dep :=
  s.hub.tasks.flatMap fun e =>
    let u := e.2
    if u.queue = q ∧ u.order < order ∧ !taskComplete s u.order then
      rs.zipIdx.flatMap fun r => u.ranges.filterMap fun x =>
        if (r.1.wr || x.wr) && rangesMeet r.1 x then some ⟨u.order, true, x.wr && !r.1.wr, some r.2⟩ else none
    else []

/-- The dependences of an entry on the earlier fences of its queue (R324). -/
def fenceDeps (s : State) (q order : Nat) : List Dep :=
  s.hub.tasks.filterMap fun x =>
    if x.2.queue = q ∧ x.2.order < order ∧ seKind x.2.entry = 1 ∧ !taskComplete s x.2.order then
      some (⟨x.2.order, false, false, none⟩ : Dep)
    else none

/-- The declared dependences of an entry (R324, R329), and those on the earlier fences of its queue. Of several entries with the TAG the
last in the table is meant (log 123). -/
def declaredDeps (s : State) (q order : Nat) (e : SubEntry) : List Dep :=
  let named (d : BitVec 24) : List Dep :=
    if bit d 23 then
      match (s.hub.tasks.filter fun x => x.2.queue == bits d 16 6 && seTag x.2.entry == d.extractLsb' 0 16 &&
          decide (x.2.order < order)).getLast? with
      | some (_, u) => [⟨u.order, false, false, none⟩]
      | none => []
    else []
  named (seDep e 0) ++ named (seDep e 1) ++ fenceDeps s q order

/-- The least offset in the rename pool at which `n` units are free; a version has its place in every address space that uses it. -/
def poolFit (s : State) (n : Nat) : Option Nat :=
  let held := s.hub.rnheld
  (0 :: held.map fun u => u.2.1 + u.2.2).find? fun o =>
    decide (o + n ≤ bits s.hub.rnpool 40 24) && held.all fun u => decide (o + n ≤ u.2.1) || decide (u.2.1 + u.2.2 ≤ o)

/-- The window over exactly a range that the earlier task of the queue accepted last has, among those that have one, with the address
space of that task (R331). -/
def inheritedWindow (s : State) (q order : Nat) (r : Range) : Option (BitVec 10 × Rename) :=
  (s.hub.tasks.foldl (fun (b : Option (Nat × BitVec 10 × Rename)) x =>
    if x.2.queue ≠ q ∨ order ≤ x.2.order ∨ (b.any fun y => decide (x.2.order ≤ y.1)) then b
    else
      match x.2.windows.find? fun w => w.base == r.base * 65536 && w.lim == (r.base + r.units) * 65536 with
      | some w => some (x.2.order, seAsid x.2.entry, w)
      | none => b) none).map Prod.snd

/-- Physical bytes, from one address up to another, that a table of a level and what it points to take: tables and mapped pages. -/
def tableSpans (m : Memory) : Nat → Nat → Nat → List (Nat × Nat)
  | 0, _, _ => []
  | fuel + 1, level, t =>
    (t, t + tableAlign level) :: (tableEntries m t (tableSize level)).flatMap fun e =>
      let a := bits e.2 8 44 * 256
      if !bit e.2 63 then []
      else if bit e.2 62 then (if bits e.2 60 2 = 0 then [(a, a + pageBytes level)] else [])
      else tableSpans m fuel (level + 1) a

/-- Physical bytes in use in device HBM, or retired (R359): Eosen's own structures (R402), the page tables and what they map, and the save
areas and heaps of contexts. -/
def heldSpans (s : State) : List (Nat × Nat) :=
  ((List.range 4).flatMap fun d =>
    let ast := bits (s.die d).astbase 15 37 * 32768
    let fb := bits (s.die d).fbbase 16 36 * 65536
    (ast, ast + 32768) :: (fb, fb + 65536) :: (List.range 1024).flatMap fun n =>
      let e := astEntry s d (BitVec.ofNat 10 n)
      if bit e 0 then tableSpans s.mem 4 1 (bits e 16 36 * 65536) else []) ++
    [(s.hub.gtbase.toNat, s.hub.gtbase.toNat + 4194304), (s.hub.audbase.toNat, s.hub.audbase.toNat + 67108864),
      (s.hub.rasbase.toNat, s.hub.rasbase.toNat + 8192)] ++ s.hub.retired ++
    ((((List.range Config.rings).filter fun g => (s.ring g).bound).map fun g => (s.ctx g).bind) ++ s.saved.map fun x => x.ctx.bind).flatMap
      fun b => [(bindSave b, bindSave b + 4784128 + (bindFoot b + bindCsa b + bindOvfl b) * 65536),
        (bindHoff b, bindHoff b + (bindHlim b - bindHbase b))]

/-- The address of page n of HBM, of a size that divides 96 GiB, over the four dies. -/
def hbmPageAddr (size n : Nat) : Nat :=
  let per := 103079215104 / max size 1
  n % (4 * per) / max per 1 * 1099511627776 + n % max per 1 * size

/-- Whether a span meets one of a list. -/
def meetsHeld (held : List (Nat × Nat)) (lo hi : Nat) : Bool := held.any fun x => decide (x.1 < hi) && decide (lo < x.2)

/-- The first page of a size from n on that meets no span. -/
def freePage (held : List (Nat × Nat)) (size : Nat) : Nat → Nat → Nat
  | 0, n => hbmPageAddr size n
  | fuel + 1, n =>
    let a := hbmPageAddr size n
    if meetsHeld held a (a + size) then freePage held size fuel (n + 1) else a

/-- `n` pages of HBM, all different, that Eosen takes where nothing else lies (R402, log 47). -/
def takePages (held : List (Nat × Nat)) (k : Nat) : Nat → List Nat
  | 0 => []
  | n + 1 =>
    let a := freePage held 65536 6291456 (Config.hbmPage k)
    a :: takePages ((a, a + 65536) :: held) (k + 1) n

/-- An address mapped to a page of 64 KiB by a walk from the table `t` of a level, with new tables, in the pages that `pg` gives, where
there are none (R258, R259); an address that is mapped, or whose walk meets a larger page, is left as it is. -/
def mapFrom (va leaf : Nat) (pg : Nat → Nat) : Nat → Nat → Nat → Memory → Memory
  | 0, _, _, m => m
  | fuel + 1, level, t, m =>
    let a := t + 8 * walkIndex level va
    let p : BitVec 64 := BitVec.ofNat 64 (m.readNat a 8)
    if level = 4 then (if bit p 63 then m else m.writeN a (leBytes 8 leaf))
    else if !bit p 63 then
      let t' := pg level
      mapFrom va leaf pg fuel (level + 1) t'
        ((m.writeN t' (List.replicate (tableAlign (level + 1)) 0)).writeN a (leBytes 8 (pow2 63 + t' / 256 * 256)))
    else if bit p 62 ∨ entryBad p then m
    else mapFrom va leaf pg fuel (level + 1) (bits p 8 44 * 256) m

/-- The pages of a version of `n` units at unit `u` of an address space mapped, readable and writable, in the tables of every die
(R331): for each unit a page of its own, and pages for the tables of four dies. -/
def mapVersion (s : State) (asid : BitVec 10) (u n : Nat) : State :=
  (List.range n).foldl (fun s i =>
    let pages := takePages (heldSpans s) s.freeCtr 13
    let leaf := packBits 64 [(62, 2, 3), (8, 44, pages.getD 12 0 / 256), (0, 2, 3)]
    (List.range 4).foldl (fun s d =>
      let e := astEntry s d asid
      if bit e 0 then
        { s with mem := mapFrom ((u + i) * 65536) leaf.toNat (fun l => pages.getD (3 * d + l - 1) 0) 4 1 (bits e 16 36 * 65536) s.mem }
      else s)
      { s with freeCtr := s.freeCtr + 13 }) s

/-- The pages of a version of `n` units at unit `u`, mapped in one address space, mapped in another too (R331). -/
def shareVersion (s : State) (own asid : BitVec 10) (u n : Nat) : State :=
  if own = asid then s
  else
    (List.range n).foldl (fun s i =>
      let pages := takePages (heldSpans s) s.freeCtr 12
      (List.range 4).foldl (fun s d =>
        let e := astEntry s d asid
        match pagedWalk s d own ((u + i) * 65536) .read with
        | .ok _ leaf _ =>
          if bit e 0 then
            { s with mem := mapFrom ((u + i) * 65536) leaf.toNat (fun l => pages.getD (3 * d + l - 1) 0) 4 1 (bits e 16 36 * 65536) s.mem }
          else s
        | .fault _ _ _ => s) { s with freeCtr := s.freeCtr + 12 })
      (s.onHub fun h =>
        let x := (asid, u - bits h.rnpool 0 40, n)
        { h with rnheld := if h.rnheld.contains x then h.rnheld else h.rnheld ++ [x] })

/-- Renaming, range by range (R331): windows and the dependences that stay. The pages of the version are mapped. -/
def renameRanges (q order : Nat) (asid : BitVec 10) (rs : List Range) :
    List (Range × Nat) → State → List Rename → List Dep → State × List Rename × List Dep
  | [], s, ws, ds => (s, ws, ds)
  | (r, i) :: rest, s, ws, ds =>
    let mine := ds.filter fun d => d.range == some i
    let raw := ds.any fun d => d.raw && (d.range.any fun j => (rs[j]?).any fun x => rangesMeet x r)
    let fresh := if r.wr && r.ren && !mine.isEmpty && !raw && decide (ws.length < 4) then poolFit s r.units else none
    match fresh with
    | some o =>
      let w : Rename := ⟨r.base * 65536, (r.base + r.units) * 65536,
        ((bits s.hub.rnpool 0 40 + o) * 65536 + pow2 56 - r.base * 65536 % pow2 56) % pow2 56⟩
      renameRanges q order asid rs rest
        (mapVersion (s.onHub fun h => { h with rnheld := h.rnheld ++ [(asid, o, r.units)] }) asid (bits s.hub.rnpool 0 40 + o) r.units)
        (ws ++ [w]) (ds.filter fun d => d.range != some i)
    | none =>
      match inheritedWindow s q order r with
      | some (own, w) =>
        if ws.length < 4 ∧ !ws.contains w then
          renameRanges q order asid rs rest (shareVersion s own asid ((w.base + w.off) % pow2 56 / 65536) r.units) (ws ++ [w]) ds
        else renameRanges q order asid rs rest s ws ds
      | none => renameRanges q order asid rs rest s ws ds

/-- A task whose dependences are all released becomes READY (R328). -/
def wakeTask (s : State) (n : Nat) : State :=
  match s.task n with
  | some t =>
    if t.state = .wait ∧ t.deps.isEmpty ∧ seKind t.entry = 0 then
      (s.onTask n fun t => { t with state := .ready, readyNo := s.hub.taskOrder }).onHub fun h => { h with taskOrder := h.taskOrder + 1 }
    else s
  | none => s

/-- A task (KIND 0) accepted at index n: refused with result 4, or entered with its members, dependences and windows. -/
def acceptTask (s : State) (n q order : Nat) (e : SubEntry) : State :=
  let asid := seAsid e
  let refuse (s : State) : State := endTask s n 4 0 0 0 0
  match readAsid s asid (seMemb e) (64 * (seNm1 e + 1)) .read,
      (if seRng e = 0 then some [] else readAsid s asid (seRng e) 128 .read) with
  | some mb, some rb =>
    let ms : List (BitVec 512) := bvWords 512 mb
    let ws : List (BitVec 128) := bvWords 128 rb
    if membersBad ms ∨ rangesBad ws then refuse s
    else
      let ids := freshIds s (Config.contextId s.freeCtr) ms.length
      let rs := (ws.filter fun w => bit w 67).map rangeOf
      let s := s.tickFree.onTask n fun t =>
        { t with members := ms, ranges := rs, memberCtx := ids.zipIdx.map fun x => (x.2, x.1) }
      match registerImages s asid ms 0 with
      | (s, some (m, code)) => endTask s n 4 4 (ids.getD m 0) 0 (BitVec.ofNat 16 code)
      | (s, none) =>
        let ds := derivedDeps s q order rs ++ declaredDeps s q order e
        let (s, wins, ds) := renameRanges q order asid rs rs.zipIdx s [] ds
        wakeTask (s.onTask n fun t => { t with windows := wins, deps := ds }) n
  | _, _ => refuse s

/-- TASK_ENTRY (R323, R328): the entry at SQHEAD accepted into the table; one that is delivered poisoned is not taken (R380, log 97). -/
def execTaskEntry (q : Nat) (s : State) : Host.Outcome State Fault Refusal :=
  let cfg := s.sqcfg q
  let head := tget s.hub.sqhead q 0
  match freeIndex s with
  | none => .refused .notDue
  | some n =>
    if queueSize cfg = 0 ∨ head = tget s.hub.sqtail q 0 ∨ s.aon.lc = .blank ∨
        s.readPoisoned (queueBase cfg + 64 * head) 64 then .refused .notDue
    else
      let e : SubEntry := BitVec.ofNat 512 (leNat (s.physRead (queueBase cfg + 64 * head) 64))
      let order := s.hub.taskOrder
      let s := s.onHub fun h =>
        { h with
          sqhead := tset h.sqhead q ((head + 1) % queueSize cfg), taskOrder := h.taskOrder + 1,
          tasks := tset h.tasks n (newTask e q order) }
      if entryFieldsBad e then .next (endTask s n 4 0 0 0 0)
      else if seKind e = 0 then .next (acceptTask s n q order e)
      else .next (s.onTask n fun t => { t with deps := if seKind e = 2 then fenceDeps s q order else [] })

/-- QUEUE_FENCE (R324): released when every earlier entry of its queue has completed. -/
def execQueueFence (task : Nat) (s : State) : Host.Outcome State Fault Refusal :=
  match s.task task with
  | none => .refused .notDue
  | some t =>
    if seKind t.entry = 1 ∧ t.state = .wait ∧
        (s.hub.tasks.all fun x => x.2.queue != t.queue || decide (t.order ≤ x.2.order) || taskComplete s x.2.order) then
      .next (endTask s task 0 0 0 0 0)
    else .refused .notDue

/-- Whether a task has a member that has taken a fault not yet saved (R353); one halted at a debug break has not ended by it (R400). -/
def taskFaulted (s : State) (n : Nat) (t : Task) : Bool :=
  (List.range t.count).any fun m => (memberSlot s n m).any fun g => (s.ring g).bound && (s.ring g).slotState != .halted && (s.ctx g).fault.isSome

/-- KILL (R324, R353): once the fences before it are complete, the named task is ended with result 2 unless it has completed or has
faulted. -/
def execKill (task : Nat) (s : State) : Host.Outcome State Fault Refusal :=
  match s.task task with
  | none => .refused .notDue
  | some k =>
    if seKind k.entry ≠ 2 ∨ k.state ≠ .wait ∨ !k.deps.isEmpty then .refused .notDue
    else
      let d := seDep k.entry 0
      let s := match s.hub.tasks.find? fun x =>
          x.2.queue == bits d 16 6 && seTag x.2.entry == d.extractLsb' 0 16 && seKind x.2.entry == 0 && x.2.state != .done with
        | some (n, t) =>
          if taskFaulted s n t then s else stopFromOutside s n fun s t => stopTask s n 2 0 (tget t.memberCtx 0 0) 0 0
        | none => s
      .next (endTask s task 0 0 0 0 0)

/-- The dependences of a task on the task accepted as `dep` that satisfy a test released. -/
def releaseDeps (s : State) (n dep : Nat) (f : Dep → Bool) : State :=
  wakeTask (s.onTask n fun t => { t with deps := t.deps.filter fun d => !(d.task == dep && f d) }) n

/-- DEPENDENCE_RELEASE (R329): the dependence on the task accepted as number `dep`, which has completed. -/
def execDependenceRelease (task dep : Nat) (s : State) : Host.Outcome State Fault Refusal :=
  match s.task task with
  | none => .refused .notDue
  | some t =>
    if (t.deps.any fun d => d.task == dep) ∧ taskComplete s dep then .next (releaseDeps s task dep fun _ => true)
    else .refused .notDue

/-- Whether every member of a task has triggered and reached its recorded WDP (R302, R330); one that has ended without a `trig`
counts as triggered at its end, with every write it issued. -/
def allTriggered (s : State) (u : Task) : Bool :=
  (List.range u.count).all fun m =>
    let wdp := (producerOf s (tget u.memberCtx m 0)).1
    match u.triggered.find? fun x => x.1 == m with
    | some (_, w) => decide (w ≤ wdp)
    | none => u.memberEnded.contains m && decide (pow2 48 ≤ wdp)

/-- TRIGGER_RELEASE (R330): a derived dependence of an EARLY task on one whose members have triggered. -/
def execTriggerRelease (task dep : Nat) (s : State) : Host.Outcome State Fault Refusal :=
  match s.task task, s.hub.tasks.find? fun e => e.2.order == dep with
  | some t, some (_, u) =>
    if seEarly t.entry ∧ (t.deps.any fun d => d.task == dep && d.derived) ∧ u.memberCtx.length = u.count ∧ allTriggered s u then
      .next (releaseDeps s task dep fun d => d.derived)
    else .refused .notDue
  | _, _ => .refused .notDue

end Sys2Proof.Machine
end

