-- ==== Sys2Proof/Machine/Halyard.lean ====
section
/-!
DEFINITION. The halyard (spec/19 R341 to R347): the image it shifts out, the footprint copy with its front, and the save and
restore of a context.
-/

namespace Sys2Proof.Machine

open Sys2Proof

/-! ### The halyard image (R342) -/

/-- `n` bytes whose layout the spec does not give (log 10). -/
def freeRegion (k n : Nat) : List Byte := (Config.freeBytes k ++ List.replicate n 0).take n

/-- Bytes cut or filled with zeros to a length. -/
def padTo (n : Nat) (bs : List Byte) : List Byte := (bs ++ List.replicate n 0).take n

/-- The region at 33,056. -/
def seqRegion (c : Ctx) : List Byte :=
  padTo 736 (leBytes 8 c.si ++ leBytes 8 c.rstack.length ++ ((List.range 4).flatMap fun i => leBytes 8 (c.rstack.getD i 0)) ++
    leBytes 8 c.ksel ++ leBytes 8 c.wdcount ++ leBytes 8 c.qcount ++
    (List.range 256).flatMap fun g => leBytes 2 (tget c.collCount g 0 % 65536))

/-- An open region's 80 bytes. -/
def regionBytes (r : Region) : List Byte :=
  padTo 16 (leBytes 1 r.id ++ leBytes 1 r.nev ++ leBytes 2 r.hnd ++ leBytes 1 r.depth ++ leBytes 3 0 ++ bytesOf r.mask) ++
    padTo 64 (r.marks.flatMap fun m => leBytes 8 m.2.moved)

/-- Status lines as a word, bit N for line N. -/
def Ctx.lines (c : Ctx) : BitVec 16 := (List.range 16).foldl (fun w n => setBit w n (c.line n)) 0

/-- The region at 44,032. -/
def formatRegion (c : Ctx) : List Byte :=
  padTo 512 (((List.range 8).flatMap fun n => leBytes 4 (c.fslot n).toNat) ++ leBytes 8 c.lines.toNat ++
    leBytes 8 c.regions.length ++ padTo 320 (c.regions.flatMap regionBytes) ++
    (List.range 16).flatMap fun n => leBytes 8 (c.evCount n))

/-- The fixed part below the stripes. -/
def contextBytes (k : Nat) (c : Ctx) : List Byte :=
  ((List.range 4096).flatMap fun i => bytesOf (c.slotWord i)) ++
    ((List.range 16).flatMap fun i => bytesOf ((c.kreg i).signExtend 64)) ++
    ((List.range 16).flatMap fun i => bytesOf (c.areg i)) ++ ((List.range 8).flatMap fun t => leBytes 1 (c.token t)) ++
    leBytes 8 c.wdi ++ leBytes 8 c.wdp ++ leBytes 8 c.tc ++ seqRegion c ++ freeRegion k 1024 ++
    ((List.range 32).flatMap fun n => bytesOf (c.stream n).desc ++ leBytes 8 (c.stream n).moved ++ freeRegion (k + n) 56) ++
    freeRegion (k + 32) 2048 ++ freeRegion (k + 33) 2048 ++ freeRegion (k + 34) 1024 ++ formatRegion c ++
    List.replicate 217600 0

/-- Bytes of a table of vectors. -/
def vecsBytes (t : Table Vec) (n : Nat) : List Byte := (List.range n).flatMap fun i => vecBytes (tget t i Vec.zero)
/-- Bytes of a table of 32-bit words. -/
def wordsBytes (t : Table (BitVec 32)) (n : Nat) : List Byte := (List.range n).flatMap fun i => bytesOf (tget t i 0)

/-- An element's 33,792 bytes. -/
def elementBytes (k : Nat) (e : Element) : List Byte :=
  vecsBytes e.v 64 ++ vecsBytes e.x 16 ++ wordsBytes e.vt 64 ++ wordsBytes e.xt 16 ++ vecsBytes e.po 4 ++ wordsBytes e.pot 4 ++
    padTo 176 (((List.range 7).flatMap fun i => bytesOf (tget e.p (i + 1) 0)) ++ leBytes 4 e.rb.toNat ++ bytesOf e.flags ++
      leBytes 4 (e.lexp % 4294967296).toNat ++ bytesOf e.cht) ++
    wordsBytes e.acc 1024 ++ wordsBytes e.ckr 64 ++ wordsBytes e.ckc 64 ++ e.xaBytes ++
    ((List.range 14336).flatMap fun i => leBytes 1 ((tget e.cb i 0) % 256).toNat) ++ freeRegion k 512

/-- A physical stripe's bytes. -/
def stripeBytes (k : Nat) (x : Stripe) : List Byte :=
  let r := x.record.getD ⟨0, [], [], 0, []⟩
  ((List.range 32).flatMap fun j => bytesOf (recSlot r j)) ++ ((List.range 32).flatMap fun j => bytesOf (recSwitch r j)) ++
    bytesOf r.hdr ++ freeRegion k 7360 ++ (List.range 8).flatMap fun i => elementBytes (k + 1 + i) (x.elem i)

/-- The image of ring g. -/
def halyardImage (s : State) (g : Nat) : List Byte :=
  contextBytes s.freeCtr (s.ctx g) ++
    (List.range 16).flatMap fun j => stripeBytes (s.freeCtr + 40 + 9 * j) ((s.ring g).stripe j)

/-! ### The footprint copy (R343) -/

/-- 128-byte words of the footprint copy. -/
def copyWords (e : RemapEntry) : Nat := 512 * (remapFoot e + remapCsa e)

/-- The place in the banks of a word of the footprint copy. -/
def wordPlace (e : RemapEntry) (w : Nat) : Nat :=
  let per := 32 * remapFoot e
  if w < 16 * per then w / max per 1 * Config.blockBytes + w % max per 1 * 128
  else 33554432 - remapCsa e * 65536 + (w - 16 * per) * 128

/-- The two lines of a word's copy in the save area, each with the four chunks of the word that it holds. -/
def wordLines (e : RemapEntry) (w : Nat) : List (Nat × List Nat) :=
  (List.range 2).map fun i => ((remapSave e + 4784128 + 128 * w) / 64 + i, (List.range 4).map fun j => wordPlace e w / 16 + 4 * i + j)

/-- One word copied to the save area: the line of a poisoned chunk is written poisoned (R355). -/
def saveWord (s : State) (g : Nat) (e : RemapEntry) (w : Nat) : State :=
  let bad := (wordLines e w).filter fun x => x.2.any fun c => (s.ring g).spoison.contains c
  let s := s.busWrite (remapSave e + 4784128 + 128 * w) ((s.ring g).spad.readN (wordPlace e w) 128)
  bad.foldl (fun s x => s.poisonLine x.1) s

/-- One word copied from the save area: the chunks of a poisoned line are written poisoned (R355). -/
def restoreWord (s : State) (g : Nat) (e : RemapEntry) (w : Nat) : State :=
  let bs := s.mem.readN (remapSave e + 4784128 + 128 * w) 128
  let here := (wordLines e w).flatMap (·.2)
  let bad := ((wordLines e w).filter fun x => s.poison.contains x.1).flatMap (·.2)
  s.onRing g fun r =>
    { r with spad := r.spad.writeN (wordPlace e w) bs, spoison := bad ++ r.spoison.filter fun c => !here.contains c }

/-- Cycles of a save or a restore (R344). -/
def saveCycles (e : RemapEntry) : Nat := 18432 + 128 * (remapFoot e + remapCsa e)

/-- FRONT of an entry moved. -/
def setFront (s : State) (g i : Nat) (e : RemapEntry) (n : Nat) : State :=
  s.onRing g fun r => { r with remap := tset r.remap i (setBits e 37 19 n) }

/-- One cycle of a save or restore under way: the halyard shifts first in a save and last in a restore; the copy moves four
words a cycle. -/
def saveCycle (s : State) (g : Nat) : State :=
  let r := s.ring g
  match r.saving with
  | .save i left =>
    if left = 0 then s
    else
      let e := tget r.remap i 0
      let s := s.onRing g fun r => { r with saving := .save i (left - 1) }
      if left ≤ 128 * (remapFoot e + remapCsa e) then
        let f := remapFront e
        setFront ((List.range 4).foldl (fun s j => saveWord s g e (f + j)) s) g i e (f + 4)
      else s
  | .restore i left =>
    if left = 0 then s
    else
      let e := tget r.remap i 0
      let s := s.onRing g fun r => { r with saving := .restore i (left - 1) }
      if 18432 < left then
        let f := remapFront e
        setFront ((List.range 4).foldl (fun s j => restoreWord s g e (f + j)) s) g i e (f + 4)
      else s
  | _ => s

/-! ### A save (R341) -/

/-- Whether the halyard is shifting a context out: its image stands from then on, and nothing of it counts (R341, R342). -/
def Ring.shifting (r : Ring) : Bool :=
  match r.saving with
  | .save _ _ => true
  | _ => false

/-- The least free remap entry of 0 to 62 (R345). -/
def freeEntry (r : Ring) : Option Nat := (List.range 63).find? fun i => remapState (tget r.remap i 0) == 0

/-- A replay ended or given up: its ring is empty again (R367). A hoist under way is waited for (R31). -/
def endReplay (s : State) (g : Nat) : State :=
  if (s.ctx g).hoisting.isSome then s
  else s.onRing g fun r =>
    { r with
      slotState := .empty, bound := false, saving := .idle, bankUse := [], slot := setBits r.slot 0 1 0,
      ctx := { r.ctx with replay := none } }

/-- Command 1 to a running slot (R404, R345): the save is asked for, or refused with a host event of kind 7. A replay is not saved: Eosen
gives it up and makes it again (log 125). -/
def requestSave (s : State) (g : Nat) : State :=
  let r := s.ring g
  if r.slotState ≠ .running ∨ r.saving ≠ .idle ∨ r.ctx.fault.isSome then s
  else if r.ctx.replay.isSome then endReplay s g
  else
    match freeEntry r with
    | none => s.ctxHostEvent g 7 0
    | some i => s.onRing g fun r => { r with saving := .waitSave i }

/-- HALYARD_SAVE (R341, R404): command 1 of `HUB.SLOTCMD[g]`; ignored for a slot that is not RUNNING. -/
def execHalyardSave (g : Nat) (s : State) : Host.Outcome State Fault Refusal := .next (requestSave s g)

/-- Whether a save may stop the ring (R341 step 1, R140): no hoist under way, and no step between its request and its
answer. -/
def mayStop (s : State) (g : Nat) : Bool :=
  let c := s.ctx g
  c.hoisting.isNone &&
    (match c.wait, c.stepAt c.si with
    | some _, .ok (.sys _ _) => false
    | some w, .ok (.atom _ _ _ _ _ _ _ _) => w.stage == 0 || (s.req w.req).any fun q => q.stop.isSome
    | some w, .ok (.barr _ _) => w.stage == 0
    | some w, .ok (.bexp _ _ _ _) => w.stage == 0
    | _, _ => true)

/-- Whether the visits already issued are over (R341 step 2), but for those of a stopped stream from the stopped one on, and gather
streams have used what they can of their buffers. -/
def visitsOver (s : State) (g : Nat) : Bool :=
  let c := s.ctx g
  (List.range 32).all fun n =>
    let x := c.stream n
    if streamStopped s g n then ((streamReqs s g n).takeWhile fun q => q.stop.isNone).all fun q => q.done.isSome
    else ((streamReqs s g n).all fun q => q.done.isSome) &&
      !(x.isOpen && sdMode x.desc == 1 && x.supplied c.tc &&
        (if x.out then mayWrite s g n && (outputEntry s g x).isSome else mayRead s g n))

/-- The visit number of a stream's request. -/
def Req.visit (q : Req) : Option Nat :=
  match q.purpose with
  | .streamWord _ k | .streamGather _ k _ _ | .streamOut _ k _ _ _ | .streamAtomic _ k _ _ _ _ => some k
  | _ => none

/-- The word of an output stream's request, with what its queue entry carried and whether the stream counts it (R176). -/
def Req.popped (q : Req) : Option (Vec × QMeta × Bool) :=
  match q.purpose with
  | .streamOut _ _ w _ b => some (w.1, w.2, b)
  | .streamAtomic _ _ _ _ w _ => some (w.1, w.2, true)
  | _ => none

/-- The address word that a request of a gather stream used, with its lane mask. -/
def Req.addressWord (q : Req) : Option (Vec × W32 × Nat) :=
  match q.purpose with
  | .streamGather _ _ m a => some (a, m, 0)
  | .streamOut _ _ w a _ | .streamAtomic _ _ _ _ w a => some (a, w.2.mask, 0)
  | _ => none

/-- The sideband of an entry whose words are put back, the poison of the entry where all of them carry it. -/
def entryMeta (ws : List (Vec × QMeta)) : QMeta :=
  match ws with
  | [] => plainMeta
  | w :: rest => if rest.all fun y => y.2.poison == w.2.poison then w.2 else { w.2 with poison := 0, line := 0 }

/-- Words put back at the head of a queue of a block, in order (R341), from word `lead` of an entry: none when there is no room for
them. A word that is poisoned in an entry that is not has its chunks marked. -/
def Ring.putBack (r : Ring) (blk q lead : Nat) (ws : List (Vec × QMeta)) : Option Ring :=
  match r.queue q with
  | none => none
  | some k =>
    let st := r.qstate blk q
    let per := max k.ent 1
    let m := (lead + ws.length + per - 1) / per
    if !st.popped.isEmpty || st.resv != st.head || decide (st.head < m) || decide (k.size < st.tail - st.head + m) then none
    else
      let place (j : Nat) : Nat := k.word (st.head - m + j / per) + j % per
      let inEntry (e : Nat) : List (Vec × QMeta) := (ws.zipIdx.filter fun x => (lead + x.2) / per == e).map Prod.fst
      let r := ws.zipIdx.foldl (fun r x =>
        let w := place (lead + x.2)
        let r := r.spadWrite blk (128 * w) x.1.2.swz (vecBytes x.1.1)
        if x.1.2.poison ≠ (entryMeta (inEntry ((lead + x.2) / per))).poison then r.poisonWord blk w x.1.2.swz allTags else r) r
      some (r.setQ blk q
        { st with
          head := st.head - m, resv := st.head - m,
          info := (List.range m).foldl (fun t e => tset t (st.head - m + e) (entryMeta (inEntry e))) st.info })

/-- A stopped stream set back to its stopped visit (R341 step 2): that visit and the later ones are discarded and made again after the
restore, and a gather stream's address words go back to its buffer. An output stream's words go back to the head of its queue, with those
of a tile that wait for their address words; the header of a segment, which is no word of the queue, and words for which the queue has no
room left stay with the stream's saved visits (log 17). A visit made again is issued anew, after any `sbar` line (log 127). A stream that is
closed keeps its requests. -/
def rewindStopped (s : State) (g n : Nat) : State :=
  let x := (s.ctx g).stream n
  match (streamReqs s g n).dropWhile fun q => q.stop.isNone, x.isOpen with
  | q0 :: rest, true =>
    let mine := q0 :: rest
    let addrs := if sdMode x.desc = 1 then mine.filterMap Req.addressWord else []
    let words := mine.filterMap Req.popped
    let tile := ((s.ring g).queue x.q).any fun k => k.tile
    let lead := if tile then q0.visit.getD 0 % ((s.ring g).queue x.q).elim 1 (fun k => max k.ent 1) else 0
    let waiting := if tile then x.pendWords else []
    let counted := (words.filter fun w => w.2.2).map fun w => (w.1, w.2.1)
    let back : Option Ring :=
      if counted.isEmpty then some (s.ring g)
      else if x.again.isEmpty ∨ !tile ∧ x.again.all (fun a => a == .queued) then
        (s.ring g).putBack ((s.ring g).streamBlock x) x.q lead (counted ++ waiting)
      else none
    let moved := tile && back.isSome && !counted.isEmpty
    let again : List Again :=
      words.map (fun w => if back.isSome && w.2.2 then .queued else .held w.1 w.2.1 w.2.2) ++
        (if moved then waiting.map fun _ => .queued else []) ++ x.again
    { s.setRing g (back.getD (s.ring g)) with reqs := s.reqs.filter fun q => !(mine.any fun p => p.id == q.id) }.onCtx g fun c =>
      (c.setEv 14 (c.evCount 14 - counted.length)).setStream n
        { x with
          visits := (q0.visit).getD x.visits, gather := addrs ++ x.gather, stopped := none, moved := x.moved - counted.length,
          again := again, skip := if moved then lead else x.skip, pendWords := if moved then [] else x.pendWords }
  | _, _ => s

/-- Reads of the step under way given up: after the restore it issues again from the beginning (R140). An `ast`, and an atomic access
that has been performed, are still to be performed at wider scopes (R277, R287). -/
def dropStepReads (s : State) (g : Nat) : State :=
  let id := (s.ctx g).id
  { s with
    reqs := s.reqs.filter fun q =>
      !(q.ring == g && q.ctx == id && q.party == .seq && q.purpose != .ast && !(q.kind == .atomic && q.done.isSome)) }

/-- The flag words of the context's elements ORed into the context's word and cleared, as at a strike (R51), with what lands in the cycle
of the save. -/
def gatherFlags (s : State) (g : Nat) : State :=
  let w := (s.ring g).stripes.foldl (fun a e => (List.range 8).foldl (fun a k => a ||| (e.2.elem k).flagsNew) a)
    ((s.ring g).allFlags ||| (s.ctx g).flagwNew)
  (s.onRing g fun r =>
    { r with
      stripes := r.stripes.map fun e =>
        (e.1, (List.range 8).foldl (fun (st : Stripe) k =>
          let x := st.elem k
          st.setElem k { x with flags := 0, flagsNew := 0, lands := [], lateLands := x.lateLands ++ x.lands }) e.2) }).onCtx g
    fun c => { c with flagw := w, flagwNew := 0, savedAt := some c.tc }

/-- The wait that a save keeps (R140): a long-form `sclose` whose command has been posted waits again for the closing and posts no
second one (log 79); any other waiting step issues again. -/
def keptWait (c : Ctx) : Option Wait :=
  match c.wait, c.stepAt c.si with
  | some w, .ok (.sclose _ _ _ (some _) _) => if w.stage = 1 then some w else none
  | _, _ => none

/-- The remap entry opened, the flags of the elements gathered, the control page's flag word and status lines written, and the shift
begun (R341 steps 3 and 4, R343). A throttle notice whose handler has not been called is one of a saved context (R339, R353): its line 14
is in the image, and a host event is posted. -/
def openSave (s : State) (g i : Nat) : State :=
  let s := gatherFlags (dropStepReads ((List.range 32).foldl (fun s n => rewindStopped s g n) s) g) g
  let c := s.ctx g
  let b := c.bind
  let e : RemapEntry := packBits 192 [(112, 16, c.id.toNat), (76, 36, bits b 248 36), (66, 10, bindFoot b), (58, 8, bindCsa b),
    (56, 2, 1)]
  let s := { s with mem := s.mem.writeN (remapSave e + 4718656) (bytesOf c.flagw ++ bytesOf c.lines) }
  let s := if c.thNotice then s.ctxHostEvent g 2 0 else s
  (s.onRing g fun r => { r with remap := tset r.remap i e, saving := .save i (saveCycles e) }).onCtx g fun c =>
    { c with wait := keptWait c, yielded := false, thNotice := false, dividers := c.dividers.filter fun d => d.streams.isSome }

/-- A save that has been asked for goes on (R341 steps 1 to 3): it stops the ring once it may, and opens its entry once the
visits are over. -/
def advanceSave (s : State) (g : Nat) : State :=
  let r := s.ring g
  match r.saving with
  | .waitSave i =>
    if r.slotState = .saving then (if visitsOver s g then openSave s g i else s)
    else if mayStop s g then s.onRing g fun r => { r with slotState := .saving }
    else s
  | _ => s

/-- The control page of a save area (R343). -/
def controlPage (b : BindRecord) : Nat := bindSave b + 4718592

/-- A fault recorded and its context killed with its task (R352): the record stands at offset 0 of the control page, and the
task completes with result 1. -/
def faultEnds (s : State) (g : Nat) (c : Ctx) (f : FaultRec) : State :=
  let a := controlPage c.bind
  let s := s.physWrite a (bytesOf (faultBits f))
  let n := bindTask c.bind
  let s := stopTask s n 1 f.cls c.id (BitVec.ofNat 64 a) 0
  killContext s g c.id none

/-- HALYARD_SAVE_COMPLETE (R344, R341 step 6): the image is whole and the slot ENDED; a context saved at a fault has its
record written and is killed (R352). -/
def execHalyardSaveComplete (g : Nat) (s : State) : Host.Outcome State Fault Refusal :=
  let r := s.ring g
  match r.saving with
  | .save i 0 =>
    let c := r.ctx
    let e := tget r.remap i 0
    let s := { s with mem := s.mem.writeN (remapSave e) (halyardImage s g), freeCtr := s.freeCtr + 200 }
    let s := s.onRing g fun r => { r with remap := tset r.remap i (setBits e 56 2 2) }
    (match c.fault with
    | some f => .next (faultEnds s g c f)
    | none =>
      let x : Saved := { ring := g, ctx := c, stripes := r.stripes, qcfg := r.qcfg, qst := r.qst, lanes := r.lanes, scrf := r.scrf }
      let s := leaveRing { s with saved := s.saved ++ [x] } g
      .next (noteSaved s (bindTask c.bind)))
  | _ => .refused .notDue

/-- Whether a fault save may be asked for: none is under way. A drain is given up for it, and a save that has been asked for and has not
opened its entry goes to entry 63 instead (R352, R353). -/
def Ring.maySaveFault (r : Ring) : Bool :=
  match r.saving with
  | .idle | .drain => true
  | .waitSave i => i != 63
  | _ => false

/-- FAULT_SAVE (R345, R352, R404): command 3 for a context stopped at a precise fault, into entry 63, which must be free; a
context that faulted while saved needs no save. Ignored for any other context. -/
def execFaultSave (g : Nat) (s : State) : Host.Outcome State Fault Refusal :=
  let r := s.ring g
  match s.saved.find? fun x => x.ring == g && x.ctx.fault.isSome with
  | some x => .next (match x.ctx.fault with
    | some f => faultEnds s g x.ctx f
    | none => s)
  | none =>
    if r.bound && r.ctx.fault.isSome && r.ctx.replay.isNone && r.slotState != .halted && r.maySaveFault then
      if remapState (tget r.remap 63 0) = 0 then .next (s.onRing g fun r => { r with saving := .waitSave 63 })
      else .refused .notDue
    else .next s

/-! ### A restore (R347) -/

/-- The vectors, words and numbers of a part of an image: `n` of them from an offset. -/
def imageVecs (rd : Nat → Nat → List Byte) (o n : Nat) : Table Vec := (List.range n).map fun i => (i, vecOfBytes (rd (o + 128 * i) 128))
def imageWords (rd : Nat → Nat → List Byte) (o n : Nat) : Table W32 :=
  (List.range n).map fun i => (i, BitVec.ofNat 32 (leNat (rd (o + 4 * i) 4)))

/-- An element from its 33,792 bytes at `o` of an image (R342). What R342 lays out comes from the image, the rest from the context as
it was saved (log 10). -/
def imageElement (rd : Nat → Nat → List Byte) (o : Nat) (e : Element) : Element :=
  let num (a n : Nat) : Nat := leNat (rd (o + a) n)
  { e with
    v := imageVecs rd o 64, x := imageVecs rd (o + 8192) 16, vt := imageWords rd (o + 10240) 64,
    xt := imageWords rd (o + 10496) 16, po := imageVecs rd (o + 10560) 4, pot := imageWords rd (o + 11072) 4,
    p := (imageWords rd (o + 11088) 7).map fun w => (w.1 + 1, w.2), rb := BitVec.ofNat 6 (num 11116 4),
    flags := BitVec.ofNat 32 (num 11120 4 % 512), lexp := toSigned 32 (num 11124 4), cht := BitVec.ofNat 16 (num 11128 2),
    acc := imageWords rd (o + 11264) 1024, ckr := imageWords rd (o + 15360) 64, ckc := imageWords rd (o + 15616) 64,
    xa := tsetList [] 0 (xaOfBytes (rd (o + 15872) 3072)),
    cb := tsetList [] 0 ((rd (o + 18944) 14336).map fun b => b.toInt) }

/-- A physical stripe from its bytes at `o` of an image. -/
def imageStripe (rd : Nat → Nat → List Byte) (o : Nat) (x : Stripe) : Stripe :=
  let rows (r : Rec) : Rec :=
    { r with
      slots := (List.range r.slots.length).map fun j => BitVec.ofNat 128 (leNat (rd (o + 16 * j) 16)),
      switches := (List.range r.switches.length).map fun j => BitVec.ofNat 64 (leNat (rd (o + 512 + 8 * j) 8)),
      hdr := BitVec.ofNat 512 (leNat (rd (o + 768) 64)) }
  { x with record := x.record.map rows, elems := (List.range 8).map fun k => (k, imageElement rd (o + 8192 + 33792 * k) (x.elem k)) }

/-- An open region from its 80 bytes at `o` of an image. -/
def imageRegion (rd : Nat → Nat → List Byte) (o : Nat) (r : Region) : Region :=
  { r with
    id := leNat (rd o 1), nev := leNat (rd (o + 1) 1), hnd := leNat (rd (o + 2) 2), depth := leNat (rd (o + 4) 1),
    mask := BitVec.ofNat 32 (leNat (rd (o + 8) 4)),
    marks := r.marks.zipIdx.map fun m => (m.1.1, { m.1.2 with moved := leNat (rd (o + 16 + 8 * m.2) 8) }) }

/-- A context from its image (R342): `rd o n` reads n bytes at offset o. -/
def imageCtx (rd : Nat → Nat → List Byte) (c : Ctx) : Ctx :=
  let num (o n : Nat) : Nat := leNat (rd o n)
  let words (o n : Nat) : List Nat := (List.range n).map fun i => num (o + 8 * i) 8
  let marked (i : Nat) : Nat := num (33128 + 2 * i) 2
  { c with
    stable := tsetList [] 0 ((words 0 4096).map (BitVec.ofNat 64)), k := tsetList [] 0 ((words 32768 16).map (BitVec.ofNat 48)),
    a := tsetList [] 0 ((words 32896 16).map (BitVec.ofNat 64)), tok := (List.range 8).map fun t => (t, num (33024 + t) 1),
    wdi := num 33032 8, wdp := max (num 33040 8) c.wdp, tc := num 33048 8, si := num 33056 8 % 4096,
    rstack := (words 33072 (min 4 (num 33064 8))).map (· % 4096), ksel := num 33104 8 % 16, wdcount := num 33112 8,
    qcount := num 33120 8,
    collCount := (List.range 256).map fun i => (i, let n := tget c.collCount i 0; n - n % 65536 + marked i),
    streams := (List.range 32).map fun n =>
      (n, { c.stream n with desc := BitVec.ofNat 512 (num (34816 + 128 * n) 64), moved := num (34880 + 128 * n) 8 }),
    fslots := (List.range 8).map fun n => (n, BitVec.ofNat 24 (num (44032 + 4 * n) 4)),
    regions := (c.regions.take (num 44072 8)).zipIdx.map fun r => imageRegion rd (44080 + 80 * r.2) r.1,
    ev := (List.range 16).map fun n => (n, num (44400 + 8 * n) 8) }

/-- HALYARD_RESTORE_COMPLETE (R347, R346): the image has been shifted in, and the context is back on its ring with PTOK, PFLG and the
control page's lines applied (their reserved bits, R50 and R110, read as zero whatever the area holds, R6), `sl15` set, its entry freed,
and its stopped accesses, those of a collective among them, replayed
(R270). -/
def execHalyardRestoreComplete (g : Nat) (s : State) : Host.Outcome State Fault Refusal :=
  let r := s.ring g
  match r.saving, s.saved.find? fun x => x.ring == g && x.ctx.id == bindCtx r.slot with
  | .restore i 0, some x =>
    let e := tget r.remap i 0
    let page := remapSave e + 4718592
    let lines : BitVec 16 := setBit (BitVec.ofNat 16 (s.mem.readNat (page + 68) 2) &&& 57407#16) 15 true
    let flags : W32 := BitVec.ofNat 32 ((s.mem.readNat (page + 64) 4 ||| (remapPflg e).toNat) % 512)
    let rd (o n : Nat) : List Byte := s.mem.readN (remapSave e + o) n
    let y := imageCtx rd x.ctx
    let c : Ctx :=
      { y with
        bind := r.slot, fetchStop := none, thNotice := false, sl := lines, flagw := flags, qcount := 0,
        tok := (List.range 8).map fun t => (t, y.token t - remapPtok e t) }
    let stripes := x.stripes.map fun z => (z.1, imageStripe rd (262144 + 278528 * z.1) z.2)
    let s := { s with saved := s.saved.filter fun y => !(y.ring == g && y.ctx.id == c.id) }
    let s := s.onRing g fun r =>
      { r with
        ctx := c, stripes := stripes, qcfg := x.qcfg, qst := x.qst, lanes := x.lanes, scrf := x.scrf, bound := true,
        slotState := .running, saving := .idle, remap := tdel r.remap i }
    let s := replayStops s fun q => q.ring == g && q.ctx == c.id && !(q.stop.any (·.repair))
    .next ((s.colls.filter fun x => x.ring == g && x.ctx == c.id).foldl replayColl s)
  | _, _ => .refused .notDue

end Sys2Proof.Machine
end

