-- ==== Sys2Proof/Machine/Contexts.lean ====
section
/-!
DEFINITION. Contexts on their rings: bind records and dispatch (spec/19 R333 to R336), the end (spec/09 R147), drains
(R348, R349), the debugger (spec/23 R400), the watchdog and the quantum (R337, R340), and Eosen's answers to `yield` and
`sys` (spec/09 R150, R151, spec/19 R338).
-/

namespace Sys2Proof.Machine

open Sys2Proof

/-! ### Bind records (R333, R334) -/

/-- A slot returned to EMPTY (R334); ignored unless it is ENDED or GANG. -/
def releaseSlot (s : State) (g : Nat) : State :=
  if (s.ring g).slotState = .ended ∨ (s.ring g).slotState = .gang then
    s.onRing g fun r => { r with slotState := .empty, slot := setBits r.slot 0 1 0 }
  else s

/-- SLOT_RELEASE (R334): Eosen writes VLD = 0. -/
def execSlotRelease (g : Nat) (s : State) : Host.Outcome State Fault Refusal := .next (releaseSlot s g)

/-- BIND_RECORD_WRITE (R333): VLD = 1 into an EMPTY slot arms dispatch; a write to any other slot is ignored, and VLD = 0
acts as R334 gives. `HUB.SLOT` is a register, so its reserved bits [51:43] read zero whatever is written (R6); no refusal of such a
record is stated (log 69). -/
def execBindRecordWrite (g : Nat) (rc : BitVec 512) (s : State) : Host.Outcome State Fault Refusal :=
  if !bindVld rc then .next (releaseSlot s g)
  else if (s.ring g).slotState ≠ .empty then .next s
  else
    let s := s.onRing g fun r => { r with slot := setBits rc 43 9 0, slotState := .gang }
    .next (s.onTask (bindTask rc) fun t =>
      { t with state := if t.state = .done then t.state else .bound, memberCtx := tset t.memberCtx (bindMember rc) (bindCtx rc) })

/-! ### Dispatch (R335, R336) -/

/-- The other ring of a stacked pair (R13). -/
def pairRing (g : Nat) : Nat := if g % 2 = 0 then g + 1 else g - 1
/-- The pair of a ring, 3 x die + pair (R390). -/
def pairOf (g : Nat) : Nat := g / 2

/-- Whether a place of the scratchpad lies in the footprint or the carve-out of a bind record (R263). -/
def keptPlace (b : BindRecord) (p : Nat) : Bool :=
  decide (p % Config.blockBytes < bindFoot b * 4096) || decide (33554432 - bindCsa b * 65536 ≤ p)

/-- A ring made ready for a context (R263, R335): everything outside the footprint and carve-out zero, nothing of the last
context left. -/
def freshRing (r : Ring) (b : BindRecord) (keep : Bool) : Ring :=
  { r with
    spad := if keep then r.spad.filter fun c => keptPlace b c.1 else [],
    spoison := if keep then r.spoison.filter fun c => keptPlace b (16 * c) else [],
    flaws := if keep then r.flaws.filter fun c => keptPlace b (16 * c.1) else [],
    qcfg := [], qst := [], lanes := [], stripes := [], holdlim := 0x100000, holdCause := 0, holdCount := 0, holdAsk := 0,
    bankUse := [], bankServed := 0, scrf := 0, ctx := { Ctx.reset with bind := b }, bound := false, slotState := .loading,
    saving := .idle }

/-- The parts of an image that dispatch reads: the header, the directory and the state table (R126). -/
def loadParts (b : BindRecord) (h : BitVec 2048) : List (Nat × Nat) :=
  let img := bindImg b
  [(img, 256), (img + hdrRecdir h, 4 * (hdrV h + 1)), (img + hdrStoff h, 8 * hdrStlen h)]

/-- The header, the directory and the state table read from the image (R118, R126); a slot from a poisoned line holds an
uncorrectable error (R354). -/
def loadImage (s : State) (g : Nat) : State :=
  let img := bindImg (s.ctx g).bind
  let h := imageHeader (peekImage s g img 256)
  let dir := wordsOf 4 (hdrV h + 1) (peekImage s g (img + hdrRecdir h) (4 * (hdrV h + 1)))
  let st := wordsOf 8 (hdrStlen h) (peekImage s g (img + hdrStoff h) (8 * hdrStlen h))
  let bad := (List.range (hdrStlen h)).filter fun i => imagePoisoned s g (img + hdrStoff h + 8 * i) 8
  let s := (loadParts (s.ctx g).bind h).foldl (fun s p => countWalks s (dieOf g) (s.ctx g) p.1 p.2 .fetch) s
  s.onCtx g fun c =>
    { c with
      hdr := h, directory := dir.map (BitVec.ofNat 32), stable := tsetList [] 0 (st.map (BitVec.ofNat 64)), badSlots := bad }

/-- The first address of those parts that the load would make through the heap window (R256). -/
def loadHeap (s : State) (g : Nat) : Option Nat :=
  (loadParts (s.ctx g).bind (s.ctx g).hdr).findSome? fun p => fetchHeap s g p.1 p.2

/-- The bytes of an image that its load reads: its length, or, where that has been lowered since registration, up to the end of the parts
that the header CRC covers (R116). -/
def loadLength (c : Ctx) : Nat := (loadParts c.bind c.hdr).foldl (fun m p => max m (p.1 + p.2 - bindImg c.bind)) (hdrImglen c.hdr)

/-- The load checks (R126, R128): an unreachable page, then MAGIC, VERSION and the header CRC; 0 when they pass. -/
def loadRefusal (s : State) (g : Nat) : Nat :=
  let c := s.ctx g
  if (loadParts c.bind c.hdr).any fun p => (fetchBadPage s g p.1 p.2).isSome then 15
  else loadCode (peekImage s g (bindImg c.bind) (loadLength c))

/-- The longest lock group of the image (R89). -/
def longestLock (s : State) (g : Nat) : Nat :=
  ((List.range (hdrV (s.ctx g).hdr)).foldl (fun (a : Nat × Nat) n =>
    let k := if recLock (recHeader s g n) then a.2 + 1 else 1
    (max a.1 k, k)) (0, 0)).1

/-- Whether a heap window breaks R256: two regions, or a physical range outside one die's HBM. -/
def heapBad (b : BindRecord) : Bool :=
  let lo := bindHbase b
  let hi := bindHlim b
  let p0 := bindHoff b
  let p1 := p0 + (hi - lo) - 1
  decide (lo < hi) && (regionOf lo != regionOf (hi - 1) || !isHbm p0 || !isHbm p1 || p0 / 1099511627776 != p1 / 1099511627776)

/-- The checks of R336 in their order: the refusal code, 0 when every one passes. A context whose restore is under way does not count
as bound for code 6 (log 70), and CSA is taken as it stands (log 72). -/
def dispatchCode (s : State) (g : Nat) : Nat :=
  let r := s.ring g
  let b := r.ctx.bind
  let h := r.ctx.hdr
  let foot := bindFoot b
  let csa := bindCsa b
  let mate := s.ring (pairRing g)
  let mateCpeak := if mate.bound then hdrCpeak mate.ctx.hdr else 0
  if bindBudget b < 2 ∨ 16 < bindBudget b then 1
  else if hdrOpmask h &&& ~~~r.capmask ≠ 0 then 2
  else if r.budget ≤ hdrMaxreach h ∨ r.budget < longestLock s g then 3
  else if foot < hdrFootprint h ∨ (0 < foot ∧ 0 < csa ∧ Config.blockBytes < foot * 4096 + csa * 65536) ∨
      (csa + bindOvfl b) * 65536 < hdrSsaneed h ∨ 512 < foot + csa then 4
  else if bindAllot b < hdrCpeak h then 5
  else if tget s.hub.pairallot (pairOf g) 0 < hdrCpeak h + mateCpeak then 6
  else if heapBad b then 7
  else if bindIgen b ≠ generation s (dieOf g) (bindAsid b) (regionOf (bindImg b)) then 8
  else if bindRes b ∧ (remapOf r (bindCtx b)).isNone then 9
  else if !bit (astEntry s (dieOf g) (bindAsid b)) 0 ∨
      ((List.range Config.rings).any fun k => k != g && (s.ring k).bound && (s.ctx k).id == bindCtx b) then 10
  else 0

/-- The entry state of a new context (R118, R135, R335), or of one started from a drain record (R349). -/
def entryCtx (s : State) (c : Ctx) (wins : List Rename) : Ctx :=
  let b := c.bind
  let c := { c with si := hdrEntry c.hdr, rwin := wins }
  if bindDrn b then
    let d := controlPage b + 128
    let c := (List.range 16).foldl (fun (c : Ctx) i =>
      (c.setK i (BitVec.ofNat 48 (s.mem.readNat (d + 16 + 8 * i) 8))).setA i (BitVec.ofNat 64 (s.mem.readNat (d + 144 + 8 * i) 8))) c
    c.setA 15 (BitVec.ofNat 64 (bindDrva b * 65536 + 128))
  else (c.setA 0 (BitVec.ofNat 64 (bindArgs b))).setA 1 (BitVec.ofNat 64 (bindImg b + hdrDataoff c.hdr))

/-- A context started: bound, running, and no longer known as a killed one. -/
def startContext (s : State) (g : Nat) (wins : List Rename) : State :=
  (s.onRing g fun r => { r with ctx := entryCtx s r.ctx wins, bound := true, slotState := .running }).onHub fun h =>
    { h with killed := h.killed.filter fun id => id != (s.ctx g).id }

/-- A restore begun (R347): its entry in state 3 with FRONT, PTOK and PFLG zero. -/
def startRestore (s : State) (g i : Nat) (e : RemapEntry) : State :=
  let e := setBits (setBits (setBits (setBits e 56 2 3) 37 19 0) 128 64 0) 28 9 0
  s.onRing g fun r => { r with remap := tset r.remap i e, saving := .restore i (saveCycles e) }

/-- One slot of a gang dispatched: refused with a code, or loaded and started, or its restore begun; an image fetch through the heap window
stops the load for service, and the slot stays LOADING (R256, log 28). REFUSE holds the code of the last
capability refusal, so a refused load leaves it (R334). -/
def dispatchSlot (s : State) (n : Nat) (wins : List Rename) (g : Nat) : State :=
  let b := (s.ring g).slot
  let res := bindRes b
  let s := loadImage (s.onRing g fun r => freshRing r b (!res)) g
  let code := dispatchCode s g
  let refused (s : State) (v : Nat) : State := s.onRing g fun r => { r with slotState := .ended, refuse := v }
  if code ≠ 0 then stopTask (refused s code) n 3 5 (bindCtx b) 0 (BitVec.ofNat 16 code)
  else if res then
    match remapOf (s.ring g) (bindCtx b) with
    | some (i, e) => startRestore s g i e
    | none => s
  else
    match loadHeap s g with
    | some va => stopScroll s g va
    | none =>
    let v := loadRefusal s g
    if v ≠ 0 then stopTask (refused s (s.ring g).refuse) n 4 4 (bindCtx b) 0 (BitVec.ofNat 16 v) else startContext s g wins

/-- The rings whose slots hold a bind record of task n that waits for its gang. -/
def gangSlots (s : State) (n : Nat) : List Nat :=
  (List.range Config.rings).filter fun g => (s.ring g).slotState == .gang && bindTask (s.ring g).slot == n

/-- Whether the bind records of every member that has not ended are in slots (R27). -/
def gangWhole (s : State) (n : Nat) (t : Task) : Bool :=
  (List.range t.count).all fun m => t.memberEnded.contains m || (memberSlot s n m).isSome

/-- GANG_DISPATCH (R335): every waiting slot of the task goes through LOADING, in ring order, until one is refused. -/
def execGangDispatch (task : Nat) (s : State) : Host.Outcome State Fault Refusal :=
  match s.task task with
  | none => .refused .notDue
  | some t =>
    if (gangSlots s task).isEmpty ∨ !gangWhole s task t then .refused .notDue
    else
      .next ((gangSlots s task).foldl (fun s g =>
        if (s.ring g).slotState = .gang then dispatchSlot s task t.windows g else s) s)

/-! ### The end of a context (R147) -/

/-- CONTEXT_END (R147): due when every condition holds and no fault has been taken (R353). -/
def execContextEnd (g : Nat) (s : State) : Host.Outcome State Fault Refusal :=
  match endsNow s g with
  | some t => .next t
  | none => .refused .notDue

/-! ### Drains (R348, R349) -/

/-- A drain begun (R348): no further step, the armed run parked, the start queue dropped, channels stopped after their
records. A replay is given up (log 125). -/
def beginDrain (s : State) (g : Nat) : State :=
  if (s.ctx g).replay.isSome then endReplay s g else
  let s := (s.onRing g fun r => { r with slotState := .draining, saving := .drain }).onCtx g fun c =>
    { c with
      draining := true, wait := none,
      chans := c.chans.map fun e =>
        if e.2.mode = .fetching ∨ e.2.mode = .waiting then (e.1, { e.2 with last := true }) else e }
  let s := if ((s.ctx g).armedRun).isSome then parkRun s g else s
  s.onCtx g fun c =>
    let c := dropCommands c fun _ => true
    { c with runs := c.runs.map fun r => if r.arm.isNone then { r with done := true } else r }

/-- DRAIN (R348, R404): command 2 of `HUB.SLOTCMD[g]`; ignored for a slot that is not RUNNING or a context that has taken a
fault (R353). -/
def execDrain (g : Nat) (s : State) : Host.Outcome State Fault Refusal :=
  let r := s.ring g
  if r.slotState ≠ .running ∨ r.saving ≠ .idle ∨ r.ctx.fault.isSome then .next s else .next (beginDrain s g)

/-- Whether the queues of an output stream are empty for good in a drain (R348): it holds no word, its visits are performed, and, unless it is
complete, its queue is empty in the block of the last of its hoists that the park leaves to be made (R95). -/
def outputDrained (s : State) (g n : Nat) : Bool :=
  let c := s.ctx g
  let x := c.stream n
  !(x.isOpen && x.out) || (x.pendWords.isEmpty && x.again.isEmpty && (streamReqs s g n).all (fun q => q.done.isSome) &&
    (x.done || (!outputQueued s g x && (streamRun c x).all fun r => decide (r.limit ≤ x.hoist + r.nv))))

/-- Whether a drain is quiescent (R348 step 4): every hoist that the park leaves to be made is made and struck, every output queue is
empty, no copy or collective is in flight, and every write of the context has been performed (R286, log 94). -/
def quiescent (s : State) (g : Nat) : Bool :=
  let r := s.ring g
  let c := r.ctx
  (c.armedRun.all fun x => decide (x.limit ≤ c.hoistNext)) && (r.stripes.all fun x => x.2.occ.all fun o => o.struck) &&
    (s.reqs.all fun q => !(q.ring == g && q.ctx == c.id && needsW q.kind) || q.done.isSome) &&
    ((List.range 32).all fun n => outputDrained s g n) &&
    ((List.range 8).all fun t => c.token t == 0) && ((List.range 16).all fun n => !chanWalking c n)

/-- The drain record (R349). -/
def drainRecord (c : Ctx) : List Byte :=
  bytesOf (match c.runSi with
    | some i => BitVec.ofNat 64 i
    | none => (1#64 <<< 63)) ++ leBytes 8 c.waves ++
    ((List.range 16).flatMap fun i => bytesOf ((c.kreg i).signExtend 64)) ++ ((List.range 16).flatMap fun i => bytesOf (c.areg i)) ++
    (List.range 32).flatMap fun n => leBytes 8 (c.stream n).moved

/-- DRAIN_QUIESCENCE (R348): the drain record written and the context ended with result 5. -/
def execDrainQuiescence (g : Nat) (s : State) : Host.Outcome State Fault Refusal :=
  let r := s.ring g
  if r.slotState = .draining ∧ r.ctx.fault.isNone ∧ quiescent s g then
    .next (retireContext (s.physWrite (controlPage r.ctx.bind + 128) (drainRecord r.ctx)) g 5 0)
  else .refused .notDue

/-! ### The debugger (R400) -/

/-- DEBUG_RESUME (R400): ignored unless the slot is HALTED at a debug break. A `brk` step counts as completed. -/
def execDebugResume (g : Nat) (s : State) : Host.Outcome State Fault Refusal :=
  let r := s.ring g
  if r.slotState ≠ .halted ∨ r.ctx.fault.isNone then .next s
  else
    let s := resumeBreak s g
    match r.ctx.brkResume, r.ctx.stepAt r.ctx.si with
    | some ⟨_, none, _⟩, .ok (.stepBrk _ t) => .next (finishStep s g t)
    | _, _ => .next s

/-- DEBUG_KILL (R400): the halted context is killed as a fault of its recorded class: it waits for the fault save of R352.
Ignored while it is not halted. -/
def execDebugKill (g : Nat) (s : State) : Host.Outcome State Fault Refusal :=
  if (s.ring g).slotState ≠ .halted ∨ (s.ctx g).fault.isNone then .next s
  else .next ((s.onRing g fun r => { r with slotState := .running }).onCtx g fun c => { c with brkResume := none })

/-! ### Members and the rings that may take them (R333, R336, R337) -/

def mdArgs (m : BitVec 512) : Nat := bits m 400 56
def mdBudget (m : BitVec 512) : Nat := bits m 237 5
def mdCsa (m : BitVec 512) : Nat := bits m 229 8
def mdOvfl (m : BitVec 512) : Nat := bits m 213 16

/-- A registered image of an address space: its FOOTPRINT. -/
def registeredFoot (s : State) (asid : BitVec 10) (img : Nat) : Nat :=
  (s.hub.registered.find? fun r => r.1 == asid && r.2.1 == img).elim 0 (·.2.2.2)

/-- The header of a member's image as Eosen reads it. -/
def memberHeader (s : State) (asid : BitVec 10) (m : BitVec 512) : BitVec 2048 :=
  (readAsid s asid (mdImg m) 256 .fetch).elim 0 imageHeader

/-- The current Eosen allots a ring for a member: at least CPEAK, within the pair's budget beside the other ring (R390); what
lies between is Eosen's choice (log 11). -/
def allotment (h : BitVec 2048) : Nat := hdrCpeak h

/-- The bind record of member i of task n (R333). -/
def bindRecordOf (s : State) (n i : Nat) (t : Task) (m : BitVec 512) : BindRecord :=
  let e := t.entry
  let asid := seAsid e
  packBits 512 [(456, 56, mdImg m), (400, 56, mdArgs m), (360, 40, bits m 360 40), (320, 40, bits m 320 40),
    (284, 36, bits m 284 36), (248, 36, bits m 248 36), (200, 48, seWdog e),
    (168, 32, if seQuant e = 0 then Config.defaultQuantum else seQuant e), (152, 16, (tget t.memberCtx i 0).toNat),
    (136, 16, allotment (memberHeader s asid m)), (120, 16, mdOvfl m), (110, 10, registeredFoot s asid (mdImg m)),
    (102, 8, mdCsa m), (92, 10, asid.toNat), (80, 12, generation s 0 asid (regionOf (mdImg m))), (75, 5, mdBudget m),
    (72, 3, t.pri), (62, 10, n), (57, 5, i), (52, 5, seNm1 e), (0, 1, 1)]

/-- The state in which ring g has loaded a bind record, as dispatch would (R335). -/
def loadedAt (s : State) (b : BindRecord) (g : Nat) : State := loadImage (s.onRing g fun r => freshRing r b false) g

/-- Whether the checks of R336 let a bind record pass on a ring as the pair stands. -/
def passesAt (s : State) (b : BindRecord) (g : Nat) : Bool := dispatchCode (loadedAt s b g) g == 0

/-- Whether the checks of R336 could let a bind record pass on a ring were the other ring of its pair idle. -/
def couldPass (s : State) (b : BindRecord) (g : Nat) : Bool :=
  passesAt (s.onRing (pairRing g) fun r => { r with bound := false }) b g

/-! ### Watchdog and quantum (R337, R340) -/

/-- WATCHDOG_EXPIRY (R340): the count has reached WDOG. -/
def execWatchdogExpiry (g : Nat) (s : State) : Host.Outcome State Fault Refusal :=
  let r := s.ring g
  let w := bindWdog r.ctx.bind
  if r.bound && w != 0 && decide (w ≤ r.ctx.wdcount) && r.slotState != .halted && !r.ctx.fault.isSome then
    .next (takeFault s g (faultAt s g 10 0 (BitVec.ofNat 32 r.ctx.wdcount) 0))
  else .refused .notDue

/-- The priority of a context's task as it stands (R338), and 0 of a replay (R367). -/
def ctxPri (s : State) (c : Ctx) : Nat := if c.replay.isSome then 0 else (s.task (bindTask c.bind)).elim (bindPri c.bind) (·.pri)

/-- Whether a member of a READY task may be placed on ring g once its context has left (R337): its PLACE names the ring, or the ring's
mask covers OPMASK and the other checks of R336 can pass. -/
def mayTake (s : State) (g n i : Nat) (t : Task) (m : BitVec 512) : Bool :=
  mdPlace m == g ||
    (mdPlace m == 63 && hdrOpmask (memberHeader s (seAsid t.entry) m) &&& ~~~(s.ring g).capmask == 0 &&
      couldPass s (bindRecordOf s n i t m) g)

/-- Whether ready work of at least a priority waits for ring g (R337): a READY task with a member that may be placed there,
or one saved from it; to a ring whose fence stands for all of it nothing is bound (R370). -/
def workWaits (s : State) (g pri : Nat) : Bool :=
  !bit (tget s.hub.fences g 0) 0 && s.hub.tasks.any fun e =>
    let t := e.2
    decide (pri ≤ t.pri) &&
      ((t.state == .ready && t.members.zipIdx.any fun m => mayTake s g e.1 m.2 t m.1) ||
        (t.state == .saved && s.saved.any fun x => x.ring == g && bindTask x.ctx.bind == e.1))

/-- QUANTUM_EXPIRY (R337): a save when work waits, otherwise the quantum is renewed. -/
def execQuantumExpiry (g : Nat) (s : State) : Host.Outcome State Fault Refusal :=
  let r := s.ring g
  let q := bindQuant r.ctx.bind
  if r.bound && q != 0 && decide (q ≤ r.ctx.qcount) && r.slotState == .running && r.saving == .idle && !r.ctx.fault.isSome then
    let s := s.onCtx g fun c => { c with qcount := 0 }
    .next (if workWaits s g (ctxPri s r.ctx) then requestSave s g else s)
  else .refused .notDue

/-! ### Faults that Eosen handles (R270) -/

/-- The stops of an issuer of the bound context of ring g (R266): of its requests, of its copy engine in a collective, and of the
scroll controller. -/
def issuerStops (s : State) (g issuer : Nat) : List Stop :=
  let id := (s.ctx g).id
  ((s.reqs.filter fun q => q.ring == g && q.ctx == id && issuerCode q.party == issuer).filterMap (·.stop)) ++
    (if issuer = 48 then (s.colls.filter fun c => c.ring == g && c.ctx == id).filterMap (·.stop) else []) ++
    (if issuer = 50 then (s.ctx g).fetchStop.toList else [])

/-- The issuers of the bound context of ring g that are stopped (R267). -/
def stoppedIssuers (s : State) (g : Nat) : List Nat := (List.range 52).filter fun n => !(issuerStops s g n).isEmpty

/-- FAULTHOLD_EXPIRY (R270): an issuer of the bound context has been stopped for FAULTHOLD ticks: a save, when an entry is
free for it. -/
def execFaultholdExpiry (g issuer : Nat) (s : State) : Host.Outcome State Fault Refusal :=
  let r := s.ring g
  if r.bound && ((issuerStops s g issuer).any fun x => decide ((s.die (dieOf g)).faulthold.toNat ≤ s.tick.toNat - x.since)) then
    .next (if (freeEntry r).isSome then requestSave s g else s)
  else .refused .notDue

/-- The context of a fault record: bound or saved, or stopped in its load (R256). -/
def faultedCtx (s : State) (r : FbRec) : Option Ctx :=
  let c := s.ctx r.ring
  if (s.ring r.ring).slotState == .loading && c.id == r.ctx && c.fetchStop.isSome then some c else s.ctxById r.ring r.ctx

/-- UNSERVICED_FAULT_END (R270): the earliest record of the context that Eosen has not serviced ends it with a translation
fault, bound, saved or loading; its records stay in the batch until the flush (R268). -/
def execUnservicedFaultEnd (die : Nat) (ctx : BitVec 16) (s : State) : Host.Outcome State Fault Refusal :=
  match (s.die die).fbrecs.find? fun r => r.ctx == ctx with
  | none => .refused .notDue
  | some r =>
    match faultedCtx s r with
    | none => .refused .notDue
    | some c =>
      if c.fault.isSome then .refused .notDue
      else
      let f : FaultRec :=
        { faultAt s r.ring 3 r.cause (BitVec.ofNat 32 r.kind) (BitVec.ofNat 64 r.va) with
          tc := r.tc, ctx := ctx, asid := r.asid, region := regionOf r.va, gen := r.gen, issuer := r.issuer,
          locStripe := decide (r.issuer < 32), si := if r.issuer < 32 then 0 else c.si,
          vs := if r.issuer < 32 then (c.stream r.issuer).vs else 0 }
      if (s.ring r.ring).bound ∧ (s.ctx r.ring).id = ctx then .next (takeFault s r.ring f)
      else .next (faultEnds s r.ring c f)

/-! ### Answers (R151, R338) -/

/-- The step on which the sequencer of ring g waits for Eosen. -/
def askedStep (s : State) (g : Nat) : Option Instr :=
  let c := s.ctx g
  if (s.ring g).bound && c.wait.isSome && c.answer.isNone then
    match c.stepAt c.si with
    | .ok i => some i
    | .error _ => none
  else none

/-- YIELD_DECISION (R151, R337): accepted when work of at least its priority waits and a remap entry is free; the step then
counts as completed and a save follows. -/
def execYieldDecision (g : Nat) (s : State) : Host.Outcome State Fault Refusal :=
  match askedStep s g with
  | some (.yield t) =>
    if workWaits s g (ctxPri s (s.ctx g)) && (freeEntry (s.ring g)).isSome then .next ((requestSave (finishStep s g t) g).onCtx g fun c => { c with yielded := true })
    else .next (s.onCtx g fun c => { c with answer := some 0 })
  | _ => .refused .notDue

/-- An answer to a `sys` step of a service: its registers written and the answer given. -/
def answerSys (svc g : Nat) (f : State → State) (s : State) : Host.Outcome State Fault Refusal :=
  match askedStep s g with
  | some (.sys n _) =>
    if n.toNat = svc then .next ((f s).onCtx g fun c => { c with answer := some 0 }) else .refused .notDue
  | _ => .refused .notDue

/-- `k0` of ring g. -/
def setK0 (s : State) (g : Nat) (v : Int) : State := s.onCtx g fun c => c.setK 0 (BitVec.ofInt 48 v)

/-- SYS_PING (R338). -/
def execSysPing (g : Nat) (s : State) : Host.Outcome State Fault Refusal := answerSys 0 g (fun s => setK0 s g 0) s

/-- SYS_HOSTEV (R338, R380): a host event of kind 1. -/
def execSysHostev (g : Nat) (s : State) : Host.Outcome State Fault Refusal :=
  answerSys 1 g (fun s =>
    let c := s.ctx g
    let full := s.hostEventFull (s.taskFunction (bindTask c.bind))
    let info := ((c.kreg 1).signExtend 64).toNat + pow2 64 * ((c.kreg 2).signExtend 64).toNat
    setK0 (s.ctxHostEvent g 1 info) g (if full then -1 else 0)) s

/-- SYS_SETPRI (R338). -/
def execSysSetpri (g : Nat) (s : State) : Host.Outcome State Fault Refusal :=
  answerSys 2 g (fun s =>
    let c := s.ctx g
    let v := (c.kreg 1).toInt
    if 0 ≤ v ∧ v ≤ ctxPri s c then setK0 (s.onTask (bindTask c.bind) fun t => { t with pri := v.toNat }) g 0 else setK0 s g (-1)) s

/-- SYS_THANDLER (R338). -/
def execSysThandler (g : Nat) (s : State) : Host.Outcome State Fault Refusal :=
  answerSys 3 g (fun s =>
    let c := s.ctx g
    let k := c.kreg 1
    let n := bits k 0 12
    if k.toInt = -1 then setK0 (s.onCtx g fun c => { c with thandler := none }) g 0
    else if hdrStlen c.hdr ≤ n ∨ isSecondWord c n then setK0 s g (-1)
    else setK0 (s.onCtx g fun c => { c with thandler := some n }) g 0) s

/-- SYS_QUANTUM (R338): the ticks left; without a quantum the spec gives none, and the value is free. -/
def execSysQuantum (g : Nat) (s : State) : Host.Outcome State Fault Refusal :=
  answerSys 4 g (fun s =>
    let c := s.ctx g
    let q := bindQuant c.bind
    if q = 0 then setK0 s.tickFree g (Config.free64 s.freeCtr).toInt else setK0 s g ((q - c.qcount : Nat) : Int)) s

end Sys2Proof.Machine
end

