-- ==== Sys2Proof/Machine/Containment.lean ====
section
/-!
DEFINITION. Containment (spec/17 R315, R316) and the events of stripes and of the hold line (spec/01 R22, R23, spec/05 R85,
R86, spec/09 R162, spec/13 R240), with the auditor's sampling at a wave's end (spec/21 R363 to R366).
-/

namespace Sys2Proof.Machine

open Sys2Proof

/-! ### Containment -/

/-- POISON_CONSUMPTION (R315, R354): an uncorrectable error is met before the next cycle of the ring's bound context. Poisoned data makes
an unwinding, or a containment fault. An error of the state table is raised at the step that reads the slot, and one of the cached record
at the hoist that needs it (R96); one of a barrier object sets its FLT, whether or not a context is bound. -/
def execPoisonConsumption (g : Nat) (met : ErrorMet) (addr : BitVec 64) (s : State) : Host.Outcome State Fault Refusal :=
  match met with
  | .barrier n => .next (s.setBarrier g n (setBit (s.barrier g n) 104 true))
  | .data cls =>
    if (s.ring g).bound ∧ (s.ctx g).fault.isNone then .next (consumePoisonAt s g cls.val (s.ctx g).nextTc (faultAt s g 7 cls.val 0 addr))
    else .refused .notDue
  | .stateSlot i =>
    if (s.ring g).bound then .next (s.onCtx g fun c => { c with badSlots := i :: c.badSlots }) else .refused .notDue
  | .record vs =>
    if (s.ring g).bound then
      .next (s.onCtx g fun c => { c with cache := tdel c.cache vs, fetchBad := tset c.fetchBad vs 17 })
    else .refused .notDue

/-- A hoisted stripe of an unwinding ring (R316 step 2): no instance enters from cycle `at_` on, and the stripe is struck as
it empties. -/
def unwindHoist (tm : RecTimes) (n at_ : Nat) (x : HoistLog) : HoistLog × Nat :=
  let k := if at_ ≤ x.start then 0 else min n (ceilDiv (at_ - x.start) (max tm.ii 1))
  let strike := if k = 0 then max at_ x.ready else x.start + k * tm.ii + tm.tail
  ({ x with strike := strike, free := strike + tm.save }, k)

/-- The drain of an unwinding (R316 steps 2 and 3) put in force: it changes nothing once it stands. -/
def unwindStart (s : State) (g : Nat) (u : Unwind) : State :=
  let s := knowTimes s g
  let c := s.ctx g
  let s : State := match c.armedRun with
    | none => s
    | some r =>
      let begun := begunHoists c u.at_
      let limit := min r.limit (if r.res then begun else ceilDiv begun (max r.nv 1) * r.nv)
      let s := s.onCtx g fun c => c.setRun { r with limit := limit }
      (c.hlog.filter fun x => x.h < c.hoistNext && !x.freed).foldl (fun s x =>
        match ((s.ring g).stripe x.ps).occ with
        | some o =>
          if o.h = x.h ∧ !o.struck then
            let y := unwindHoist (recTimes (recHeader s g x.vs)) o.n u.at_ x
            (s.onCtx g fun c => { c with hlog := c.hlog.map fun z => if z.h = x.h then y.1 else z }).onRing g fun ring =>
              ring.setStripe x.ps { ring.stripe x.ps with occ := some { o with n := y.2 } }
          else s
        | none => s) s
  let s := s.onCtx g fun c =>
    let c := dropCommands c fun _ => true
    { c with runs := c.runs.map fun r => if r.arm.isNone then { r with done := true } else r }
  let marks := (((s.ctx g).regions.find? fun r => r.id == u.region).elim [] fun r => r.marks.map Prod.fst)
  (List.range 32).foldl (fun s n => 
    let x := (s.ctx g).stream n
    if marks.contains n ∨ (x.closing && x.abort) then s else beginSclose s g n true) s

/-- Whether an unwinding is over (R316): every stripe free, and every write issued before it performed, a copy's lines and what a
collective posted before it writes among them. -/
def unwindOver (s : State) (g : Nat) (u : Unwind) : Bool :=
  let c := s.ctx g
  ((s.ring g).stripes.all fun e => e.2.occ.isNone) &&
    (s.copies.all fun k => !(k.ring == g && k.ctx == c.id && decide (k.id < u.copies)) || k.writeDone == trBytes k.record) &&
    (s.colls.all fun k => !(k.ring == g && k.ctx == c.id && decide (k.copies < u.copies))) &&
    s.reqs.all fun q => !(q.ring == g && q.ctx == c.id && needsW q.kind && (!q.poison || decide (q.tc < u.at_))) || q.done.isSome

/-- A checkpointed stream rewound (R316 step 3): its recorded position, its queue empty in every block, its reads dropped. -/
def rewindMark (s : State) (g : Nat) (m : Nat × Stream) : State :=
  let id := (s.ctx g).id
  let s : State := { s with reqs := s.reqs.filter fun q => !(q.ring == g && q.ctx == id && q.party == .stream m.1 && q.kind == .read) }
  (s.onRing g fun r => resetQueue r m.2.q).onCtx g fun c => c.setStream m.1 { m.2 with stopped := none }

/-- k15 at the handler (R315). -/
def eventWord (r : Region) (cls : Nat) : BitVec 48 := packBits 48 [(12, 8, r.nev), (8, 4, cls), (0, 8, r.id)]

/-- The step in progress given up (R316 step 4): its reads are dropped, and an atomic access of it has only to be performed at every
scope. -/
def abandonStep (s : State) (g : Nat) : State :=
  let mine (q : Req) : Bool := q.ring == g && q.ctx == (s.ctx g).id && q.party == .seq
  { s with
    reqs := (s.reqs.filter fun q => !(mine q && q.kind == .read)).map fun q =>
      if mine q ∧ q.kind = .atomic ∧ (q.done.isSome ∨ q.poison) then { q with purpose := .other } else q }

/-- CONTAINMENT_HANDLER_ENTRY (R316 step 4): due once the drain is complete. -/
def execContainmentHandlerEntry (g : Nat) (s : State) : Host.Outcome State Fault Refusal :=
  let c := s.ctx g
  match c.unwinding with
  | none => .refused .notDue
  | some u =>
    match c.regions.find? fun r => r.id == u.region with
    | none => .refused .notDue
    | some r =>
      if !unwindOver s g u then .refused .notDue
      else
        let s : State := r.marks.foldl (fun s m => rewindMark s g m) (abandonStep s g)
        let s := s.onCtx g fun c =>
          let c : Ctx :=
            { c with
              regions := (c.regions.takeWhile fun x => x.id != r.id) ++ [{ r with hit := true }],
              rstack := c.rstack.take r.depth, unwinding := none, wait := none,
              dividers := c.dividers.filter fun d => d.streams.isSome,
              runs := c.runs.map fun x => { x with done := true } }
          ((c.setK 15 (eventWord r u.cls)).setLine 13 true).setLine 0 true
        .next (enterState s g r.hnd r.hnd)

/-! ### Instances (R22, R23) -/

/-- Whether an entry cycle of a stripe's occupant falls in column `col` now, and which: (index, an instance enters). -/
def entryIndex (s : State) (g ps col : Nat) : Option (Nat × Bool) :=
  let st := (s.ring g).stripe ps
  match st.occ, st.record with
  | some o, some rc =>
    let ii := max (recIi rc) 1
    let tc := (s.ctx g).tc
    if o.struck ∨ tc < o.start + col then none
    else
      let t := tc - col - o.start
      if t % ii = 0 ∧ t / ii < o.n + recMaxStage rc then some (t / ii, decide (t / ii < o.n)) else none
  | _, _ => none

/-- INSTANCE_ENTRY (R22, R23): the entry cycle decrements the element's rotating base; `rbIn` keeps the base of the last
instance that entered, which a strike saves (R93). -/
def execInstanceEntry (g ps col : Nat) (s : State) : Host.Outcome State Fault Refusal :=
  match entryIndex s g ps col with
  | some (_, enters) =>
    .next (s.onElem g ps col fun e => { e with rb := e.rb - 1, rbIn := if enters then e.rb - 1 else e.rbIn })
  | none => .refused .notDue

/-! ### The auditor (R363 to R366) -/

/-- Whether a row bars its wave from audit (R364). -/
def barsAudit (i : Instr) : Bool :=
  match i with
  | .sld _ | .sst _ | .gadr _ | .xld _ | .xst _ | .xmerge _ | .tcrd _ => true
  | _ => (i.row?.any fun r => r.sa == .special .tcl || r.sb == .special .tcl || r.sc == .special .tcl)

/-- Record n of the image, whole: the cached one, or what the image holds. -/
def wholeRecord (s : State) (g n : Nat) : Rec :=
  match (s.ctx g).cache.find? fun e => e.1 == n with
  | some (_, r) => r
  | none =>
    let va := recordVa (s.ctx g) n
    recOfBytes (peekImage s g va (max 64 (64 * recRlen (recHeader s g n))))

/-- The records of a run. -/
def runRecords (s : State) (g : Nat) (r : Run) : List Rec := (List.range r.nv).map fun i => wholeRecord s g (r.first + i)

/-- Whether a stream is bound to a port of a run's stripes (R364): it is open, or follows the run. -/
def boundTo (r : Run) (x : Stream) : Bool :=
  (x.isOpen || x.run == some r.id) && decide (r.first ≤ x.vs) && decide (x.vs < r.first + r.nv)

/-- Whether the waves of a run are eligible (R364). -/
def waveEligible (s : State) (g : Nat) (r : Run) : Bool :=
  let c := s.ctx g
  hdrElig c.hdr &&
    ((runRecords s g r).all fun rc => rc.slots.all fun w =>
      match decodeRow (slotRow w) with
      | .ok i => !barsAudit i
      | .error _ => true) &&
    c.streams.all fun e => !boundTo r e.2 || (sdSpace e.2.desc != 2 && sdMode e.2.desc == 0 && (!e.2.out || sdAtom e.2.desc == 0))

/-- Whether what was heard is a word and no bubble (R82). -/
def HeardWord.real (x : HeardWord) : Bool := x.lr || !x.ls

/-- A stream's binding to its port, as a replay opens it (R367): nothing moved yet. -/
def Stream.bound (x : Stream) : Stream :=
  { Stream.reset with isOpen := true, desc := x.desc, vs := x.vs, out := x.out, q := x.q }

/-- What the log holds of input stream n of a wave (R365). -/
def auditInput (c : Ctx) (w n : Nat) : AuditInput :=
  let heard := c.audIn.filter fun x => x.wave == w && x.stream == n
  let words := heard.filter HeardWord.real
  let visits := words.map HeardWord.visit
  { stream := n, desc := words.head?.elim (c.stream n).desc HeardWord.desc, first := visits.headD (c.stream n).visits,
    count := words.length, visits := visits, gens := (words.flatMap HeardWord.gens).eraseDups,
    crc := BitVec.ofNat 64 (crc64 (words.flatMap HeardWord.bytes)), marks := heard.map fun x => (x.visit, x.lr, x.ls) }

/-- The log of wave w of a run (R365), its signature still to come. -/
def waveLog (s : State) (g : Nat) (r : Run) (w : Nat) : AuditLog :=
  let c := s.ctx g
  let mine (f : Stream → Bool) (heard : Nat → Bool) : List Nat :=
    (List.range 32).filter fun n => (f (c.stream n) && boundTo r (c.stream n)) || heard n
  let ins := mine (fun x => !x.out) fun n => c.audIn.any fun x => x.wave == w && x.stream == n
  let outs := mine (·.out) fun n => c.audOut.any fun x => x.1 == r.id && x.2.1 == w && x.2.2.1 == n
  let notes := (c.audHoist.filter fun x => waveOf r x.h == w).foldr (insertBy HoistNote.h) []
  { ring := g, ctx := c.id, task := bindTask c.bind, owner := s.taskFunction (bindTask c.bind),
    tag := (s.task (bindTask c.bind)).elim 0 fun t => seTag t.entry, img := bindImg c.bind, igen := bindIgen c.bind,
    first := r.first, nv := r.nv, b := r.b, wave := w,
    opmask := (runRecords s g r).foldl (fun m rc => m ||| recOpmask rc) 0, sig := 0, since := s.tick.toNat,
    qcfg := (s.ring g).qcfg, streams := (ins ++ outs).map fun n => (n, (c.stream n).bound), tries := [],
    bind := c.bind, rwin := c.rwin, run := r.id,
    fslots := (notes.head?.map HoistNote.fslots).getD ((List.range 8).map c.fslot), notes := notes,
    inputs := ins.map (auditInput c w), outs := outs,
    states := ((c.audState.filter fun x => waveOf r x.1 == w).foldr (insertBy Prod.fst) []).flatMap (·.2),
    flags := tget c.audFlags w 0, whole := false }

/-- Whether output stream n has popped its last word of a logged wave: it has gone on to another, is closed or complete, or its stripe of
the wave is struck and its queue there empty (R95). -/
def streamPast (s : State) (g : Nat) (a : AuditLog) (n : Nat) : Bool :=
  let x := (s.ctx g).stream n
  match streamRun (s.ctx g) x with
  | none => true
  | some r => r.id != a.run || decide (a.wave < waveOf r x.hoist) || !x.isOpen || x.done ||
      (targetStruck s g x && !outputQueued s g x)

/-- A log made whole once the output streams are past its wave; a saved context's log waits with it, and one whose context goes is signed
then (`signLogsOf`). -/
def finishLog (s : State) (slot : Nat) : State :=
  match s.hub.audlogs.find? fun e => e.1 == slot with
  | none => s
  | some (_, a) =>
    if a.whole then s
    else if (s.ring a.ring).bound && (s.ctx a.ring).id == a.ctx && a.outs.all (streamPast s a.ring a) then
      signLog s (s.ctx a.ring) slot a
    else s

/-- A finished wave is sampled or passed over (R363 to R367). -/
def auditSample (s : State) (g : Nat) (r : Run) (w : Nat) : State :=
  if !bit s.hub.audctl 63 then s
  else if !waveEligible s g r then countAudit s 4
  else
    let x := lfsrStep (s.ring g).lfsr
    let s := s.onRing g fun k => { k with lfsr := x }
    if bits x 0 (bits s.hub.audctl 58 5) ≠ 0 then s
    else
      let s := countAudit s 0
      match (List.range 64).find? fun i => (s.hub.audlogs.find? fun e => e.1 == i).isNone with
      | none => countAudit s 8
      | some i => finishLog (s.onHub fun h => { h with audlogs := tset h.audlogs i (waveLog s g r w) }) i

/-- STRIPE_FREE (R162, R363): due at free[h]; a wave that it completes may be audited, but not one that is itself a replay. -/
def execStripeFree (g h : Nat) (s : State) : Host.Outcome State Fault Refusal :=
  match freeDue s g h, (s.ctx g).armedRun with
  | some x, some r =>
    let (s, w) := freeStripe s g x
    .next (match w with
      | some w => if (s.ctx g).replay.isSome then s else auditSample s g r w
      | none => s)
  | _, _ => .refused .notDue

/-! ### Holds (R85, R86) and gating (R240) -/

/-- HOLD_RESUME (R85): the ring holds and no cause is asked for any more. -/
def execHoldResume (g : Nat) (s : State) : Host.Outcome State Fault Refusal :=
  if (s.ring g).holdCause ≠ 0 ∧ (s.ring g).holdAsk = 0 then
    .next (s.onRing g fun r => { r with holdCause := 0, holdCount := 0, bankServed := 0 })
  else .refused .notDue

/-- HOLD_LIMIT_FAULT (R86): the count of held cycles has reached HOLDLIM and the cause is not 5: a timing fault. -/
def execHoldLimitFault (g : Nat) (s : State) : Host.Outcome State Fault Refusal :=
  let r := s.ring g
  if r.bound ∧ r.holdCause ≠ 0 ∧ r.holdCause ≠ 5 ∧ r.holdlim.toNat ≤ r.holdCount ∧ r.ctx.fault.isNone then
    .next (takeFault s g (faultAt s g 2 2 (BitVec.ofNat 32 r.holdCause) 0))
  else .refused .notDue

/-- MATRIX_GATE (R240): the idle count has reached MGATE. -/
def execMatrixGate (g ps col : Nat) (s : State) : Host.Outcome State Fault Refusal :=
  let m := hdrMgate (s.ctx g).hdr
  let e := s.elem g ps col
  if m ≠ 0 ∧ m ≤ e.idle ∧ !e.gated then .next (s.onElem g ps col fun e => { e with gated := true })
  else .refused .notDue

end Sys2Proof.Machine
end

