-- ==== Sys2Proof/Machine/Reliability.lean ====
section
/-!
DEFINITION. Reliability (spec/21): the corrected-error classifier and repairs (R354 to R360), the auditor's control and
arbitration with fencing (R363 to R370), and fault injection (R371, R372).
-/

namespace Sys2Proof.Machine

open Sys2Proof

/-! ### The classifier (R357 to R359) -/

def clsKind (e : ClsEntry) : Nat := bits e 61 2
def clsReq (e : ClsEntry) : Bool := bit e 60
def clsBank (e : ClsEntry) : Nat := bits e 51 8
def clsRow (e : ClsEntry) : Nat := bits e 33 18
def clsCol (e : ClsEntry) : Nat := bits e 23 10
def clsCount (e : ClsEntry) : Nat := bits e 8 8

/-- A classifier entry (R357), in use and not yet requesting repair. -/
def clsNew (kind bank row col count : Nat) : ClsEntry :=
  packBits 64 [(63, 1, 1), (61, 2, kind), (51, 8, bank), (33, 18, row), (23, 10, col), (8, 8, min count 255)]

/-- An entry counted once more, with a kind. -/
def clsBump (kind : Nat) (e : ClsEntry) : ClsEntry :=
  setBits (setBits e 61 2 kind) 8 8 (min (clsCount e + 1) 255)

/-- The entry that an error at (b, r, c) updates, by the order of R358, and the kind it has then. -/
def clsHit (t : List ClsEntry) (b r c : Nat) : Option (ClsEntry × Nat) :=
  let mine := t.filter fun e => clsBank e == b
  let pick (k : Nat) (f : ClsEntry → Bool) (k' : Nat) : Option (ClsEntry × Nat) :=
    (mine.find? fun e => clsKind e == k && f e).map fun e => (e, k')
  (pick 3 (fun _ => true) 3).or <| (pick 1 (fun e => clsRow e == r) 1).or <| (pick 2 (fun e => clsCol e == c) 2).or <|
    (pick 0 (fun e => clsRow e == r && clsCol e == c) 0).or <| (pick 0 (fun e => clsRow e == r) 1).or <|
    pick 0 (fun e => clsCol e == c) 2

/-- The least recently updated cell entry dropped from a full table; none when there is no cell entry. -/
def clsMakeRoom (t : List ClsEntry) : Option (List ClsEntry) :=
  if t.length < 64 then some t
  else (t.reverse.find? fun e => clsKind e == 0).map fun v => t.filter fun e => e != v

/-- Row and column entries of a bank that name four or more rows and columns become one bank entry (R358). -/
def clsMerge (t : List ClsEntry) (b : Nat) : List ClsEntry :=
  let lines := t.filter fun e => clsBank e == b && (clsKind e == 1 || clsKind e == 2)
  if 4 ≤ lines.length then
    clsNew 3 b 0 0 (lines.foldl (fun n e => n + clsCount e) 0) :: t.filter fun e => !lines.contains e
  else t

/-- The table after a corrected error, newest update first; none when the error is not recorded. -/
def clsUpdate (t : List ClsEntry) (b r c : Nat) : Option (List ClsEntry) :=
  match clsHit t b r c with
  | some (e, k) => some (clsMerge (clsBump k e :: t.filter fun x => x != e) b)
  | none => (clsMakeRoom t).map fun t => clsMerge (clsNew 0 b r c 1 :: t) b

/-- Whether an entry asks for repair (R359). -/
def clsWants (thr : Nat) (e : ClsEntry) : Bool := (clsKind e != 0 || decide (thr ≤ clsCount e)) && !clsReq e

/-- A RAS event about a classifier's stack or block; its ADDR and INFO have no layout in the spec (log 10). -/
def tableRas (s : State) (kind table : Nat) : State :=
  let s' := s.tickFree
  let addr := (Config.free64 s.freeCtr).toNat
  if table < 8 then s'.rasEvent kind addr (addr % pow2 32) 0 63 table 0 0
  else s'.rasEvent kind addr (addr % pow2 32) 0 ((table - 8) / 16) 15 ((table - 8) % 16) 0

/-- Whether a place exists in a table: HBM banks, rows and columns, or SRAM banks, bank rows and chunks (R357). -/
def siteOk (x : ErrorSite) : Bool :=
  if x.table < 8 then decide (x.bank < 256) && decide (x.row < 262144) && decide (x.col < 1024)
  else decide (x.table < 392) && decide (x.bank < 16) && decide (x.row < 1024) && decide (x.col < 8)

/-- CORRECTED_ERROR (R355, R358, R359): the data is delivered corrected; the classifier counts the error and may request a
repair. -/
def execCorrectedError (bank : ErrorSite) (s : State) : Host.Outcome State Fault Refusal :=
  if !siteOk bank then .refused .notDue
  else
    match clsUpdate (tget s.hub.cls bank.table []) bank.bank bank.row bank.col with
    | none => .next (tableRas s 6 bank.table)
    | some t =>
      let put (s : State) (t : List ClsEntry) : State := s.onHub fun h => { h with cls := tset h.cls bank.table t }
      match t with
      | e :: r =>
        if clsWants s.hub.cellthr.toNat e then .next (tableRas (put s (setBit e 60 true :: r)) 4 bank.table)
        else .next (put s t)
      | [] => .next s

/-! ### Scrubbing and repair (R356, R359, R360) -/

/-- HBM lines of a compute die. -/
def dieLines : Nat := 1610612736
/-- 16-byte SRAM chunks of a compute die: six rings of sixteen blocks. -/
def dieChunks : Nat := 12582912

/-- A corrected error passed to the classifier (R355). -/
def classify (s : State) (x : ErrorSite) : State :=
  match execCorrectedError x s with
  | .next t => t
  | _ => s

/-- Where a chunk of the scratchpads of ring g lies (R357). -/
def chunkSite (g c : Nat) : ErrorSite :=
  let o := 16 * c % Config.blockBytes
  ⟨8 + 16 * g + 16 * c / Config.blockBytes, o / 128 % 16, o / 2048, o / 16 % 8⟩

/-- Stored errors that accesses have met, corrected and passed to the classifier (R355, R371). -/
def reportFlaws (s : State) : State :=
  (List.range Config.rings).foldl (fun s g =>
    let met := (s.ring g).flaws.filter fun x => x.2 == .met
    if met.isEmpty then s
    else
      met.foldl (fun s x => classify s (chunkSite g x.1)) (s.onRing g fun r => { r with flaws := r.flaws.filter fun x => x.2 != .met })) s

/-- A scrub of chunk k of ring g (R356): a stored error that an injection has left is found too (R371). -/
def scrubChunk (s : State) (g k : Nat) (found : ScrubFound) : State :=
  let r := s.ring g
  let flaw := (r.flaws.find? fun x => x.1 == k).map Prod.snd
  let s := s.onRing g fun r => { r with flaws := r.flaws.filter fun x => x.1 != k }
  if found == .uncorrectable || (flaw == some .uncorrectable && r.spoison.contains k) then
    (s.onRing g fun r => { r with spoison := if r.spoison.contains k then r.spoison else k :: r.spoison }).rasEvent 3 (k / 8) 0 0 g 15 (k / 131072) 0
  else if found != .clean || flaw == some .latent || flaw == some .met then classify s (chunkSite g k)
  else s

/-- A tick of a die's patrol (R356): every line and chunk is read once in SCRUBINT ticks, so a tick reads its share, less what
PATROL_SCRUB has read ahead (log 8); a stored error in that share is found. Zero disables the patrol. -/
def patrolTick (s : State) (i : Nat) : State :=
  let d := s.die i
  if d.scrubint = 0 then s
  else
    let pass := dieLines + dieChunks
    let acc := d.scrubacc + pass
    let owed := acc / d.scrubint.toNat
    let n := owed - d.scrubahead
    let s := s.onDie i fun d =>
      { d with scrubpos := (d.scrubpos + n) % pass, scrubacc := acc % d.scrubint.toNat, scrubahead := d.scrubahead - owed }
    let met := (List.range 6).flatMap fun j =>
      (s.ring (6 * i + j)).flaws.map fun x => ((dieLines + 2097152 * j + x.1 + pass - d.scrubpos) % pass, 6 * i + j, x.1)
    ((met.filter fun x => x.1 < n).foldr (insertBy Prod.fst) []).foldl (fun s x => scrubChunk s x.2.1 x.2.2 .clean) s

/-- PATROL_SCRUB (R356): the die's scrubbers read their next line or chunk and find an error the model has no other cause for. What
is corrected is passed to the classifier, and an uncorrectable one is marked poisoned and reported. One position runs over the HBM
lines and then the chunks (log 8). -/
def execPatrolScrub (die : Nat) (found : ScrubFound) (s : State) : Host.Outcome State Fault Refusal :=
  let d := s.die die
  if 4 ≤ die ∨ d.scrubint = 0 then .refused .notDue
  else
    let p := d.scrubpos
    let s := s.onDie die fun d => { d with scrubpos := (d.scrubpos + 1) % (dieLines + dieChunks), scrubahead := d.scrubahead + 1 }
    if p < dieLines then
      let line := die * 17179869184 + p
      let stack := 2 * die + stackOf (64 * line)
      match found with
      | .clean => .next s
      | .corrected b r c => .next (classify s ⟨stack, b, r, c⟩)
      | .uncorrectable =>
        let s : State := { s with poison := if s.poison.contains line then s.poison else line :: s.poison }
        .next (s.rasEvent 3 (64 * line) 0 0 63 stack 0 0)
    else
      let c := p - dieLines
      .next (scrubChunk s (6 * die + c / 2097152) (c % 2097152) found)

/-- Requests whose bank a repair now holds stop and wait (R359). -/
def stopForRepair (s : State) : State :=
  (s.reqs.filter fun q => q.stop.isNone && q.done.isNone && partsHeld s q.parts).foldl (fun s q =>
    let st : Stop := ⟨0, 0, 0, 0, kindCode q.kind, true, s.tick.toNat⟩
    stopParty (s.setReq { q with stop := some st }) q (some st)) s

/-- POST_PACKAGE_REPAIR (R360): a write to `DIE.PPR` with BUSY 1 starts a repair; one while BUSY is 1, or without BUSY, is
ignored. -/
def execPostPackageRepair (die : Nat) (value : BitVec 64) (s : State) : Host.Outcome State Fault Refusal :=
  if 4 ≤ die || !bit value 63 || bit (s.die die).ppr 63 then .next s
  else
    .next (stopForRepair (s.onDie die fun d =>
      { d with ppr := packBits 64 [(63, 1, 1), (56, 1, bits value 56 1), (48, 8, bits value 48 8), (30, 18, bits value 30 18)] }))

/-- The repair of a row marked DONE in the classifier of its stack (R359). -/
def markRepaired (s : State) (stack bank row : Nat) : State :=
  s.onHub fun h =>
    { h with
        cls := tset h.cls stack ((tget h.cls stack []).map fun e =>
        if clsBank e = bank ∧ clsRow e = row ∧ clsKind e < 2 ∧ clsReq e then setBit e 59 true else e) }

/-- Whether a bank of an SRAM block has a spare left for an entry (R359): two rows and one chunk column. -/
def spareLeft (s : State) (n : Nat) (e : ClsEntry) : Bool :=
  let used := tget s.hub.spares (16 * n + clsBank e) (0, 0)
  if clsKind e = 2 then used.2 == 0 else decide (clsKind e < 2) && decide (used.1 < 2)

/-- An SRAM repair that Eosen makes while the ring is unbound (R359): a spare row or chunk column, or the retirement of the block's
stripe, as R87 allows it, where none is left or the whole bank is bad. -/
def repairSram (n : Nat) (s : State) (e : ClsEntry) : State :=
  let g := (n - 8) / 16
  let r := s.ring g
  let retire := r.retire ||| BitVec.ofNat 16 (pow2 ((n - 8) % 16))
  let done (s : State) : State :=
    tableRas (s.onHub fun h =>
      { h with cls := tset h.cls n ((tget h.cls n []).map fun x => if x = e then setBit x 59 true else x) }) 5 n
  if r.bound || r.saving != .idle then s
  else if spareLeft s n e then
    let k := 16 * n + clsBank e
    let used := tget s.hub.spares k (0, 0)
    done (s.onHub fun h => { h with spares := tset h.spares k (if clsKind e = 2 then (used.1, 1) else (used.1 + 1, used.2)) })
  else if popCount retire ≤ 14 then done (s.onRing g fun r => { r with retire := retire })
  else s

/-- The leaves under a table of a level: address of the entry, level, entry. -/
def leafEntries (m : Memory) : Nat → Nat → Nat → List (Nat × Nat × BitVec 64)
  | 0, _, _ => []
  | fuel + 1, level, t =>
    (tableEntries m t (tableSize level)).flatMap fun e =>
      if !bit e.2 63 || entryBad e.2 then []
      else if bit e.2 62 then [(t + 8 * e.1, level, e.2)]
      else leafEntries m fuel (level + 1) (bits e.2 8 44 * 256)

/-- The leaves of every live address space that map device memory, with the space and the region. -/
def mappedLeaves (s : State) : List (BitVec 10 × Nat × Nat × Nat × BitVec 64) :=
  (List.range 4).flatMap fun d => (List.range 1024).flatMap fun n =>
    let e := astEntry s d (BitVec.ofNat 10 n)
    if !bit e 0 then []
    else
      (tableEntries s.mem (bits e 16 36 * 65536) (tableSize 1)).flatMap fun x =>
        if !bit x.2 63 || entryBad x.2 || bit x.2 62 then []
        else
          ((leafEntries s.mem 3 2 (bits x.2 8 44 * 256)).filter fun l => bits l.2.2 60 2 == 0).map fun l =>
            (BitVec.ofNat 10 n, x.1 / 512, l)

/-- `n` bytes of device memory moved from one address to another, with the poison of their lines. -/
def moveBytes (s : State) (a b n : Nat) : State :=
  let within (lo len x : Nat) : Bool := decide (lo ≤ x) && decide (x < lo + len)
  { s with
    mem := (s.mem.filter fun c => within a n c.1).foldl (fun m c => m.write (b + (c.1 - a)) c.2) (s.mem.filter fun c => !within b n c.1),
    poison := ((s.poison.filter (within (a / 64) (n / 64))).map fun l => b / 64 + (l - a / 64)) ++
      s.poison.filter fun l => !within (b / 64) (n / 64) l }

/-- A page mapped on retired memory migrated (R274): its bytes copied to a page that Eosen takes, every leaf that maps it rewritten, its
translations shot down, and its regions bumped; none when no leaf maps such memory. -/
def evacuate (s : State) (spans : List (Nat × Nat)) : Option State :=
  let leaves := mappedLeaves s
  let base (p : BitVec 64) : Nat := bits p 8 44 * 256
  (leaves.find? fun l => meetsHeld spans (base l.2.2.2.2) (base l.2.2.2.2 + pageBytes l.2.2.2.1)).map fun l =>
    let a := base l.2.2.2.2
    let size := pageBytes l.2.2.2.1
    let b := freePage (heldSpans s) size 6291456 (Config.hbmPage s.freeCtr)
    let mine := leaves.filter fun x => base x.2.2.2.2 == a && x.2.2.2.1 == l.2.2.2.1
    let s := moveBytes s.tickFree a b size
    let s := mine.foldl (fun s x => s.physWrite x.2.2.1 (bytesOf (setBits x.2.2.2.2 8 44 (b / 256)))) s
    let s := (List.range 4).foldl (fun s d => s.onDie d fun x => { x with tlb := x.tlb.filter fun e => base e.pte != a }) s
    (mine.map fun x => (x.1, x.2.1)).eraseDups.foldl (fun s x => queueBump s x.1 (pow2 x.2) none []) s

/-- The entry of a stack's classifier whose repair is over: DONE, and a RAS event of kind 5 (R359). -/
def repaired (n : Nat) (s : State) (e : ClsEntry) : State :=
  tableRas (s.onHub fun h =>
    { h with cls := tset h.cls n ((tget h.cls n []).map fun x => if x = e then setBit x 59 true else x) }) 5 n

/-- The pages that cover an entry of a stack retired, one migration after another (R359). -/
def retirePages (n : Nat) (s : State) (e : ClsEntry) : State :=
  let spans := (Config.hbmCover n (clsKind e) (clsBank e) (clsRow e) (clsCol e)).map fun p =>
    (hbmPageAddr 65536 p, hbmPageAddr 65536 p + 65536)
  let s := s.onHub fun h => { h with retired := spans.filter (fun x => !h.retired.contains x) ++ h.retired }
  (evacuate s spans).getD (repaired n s e)

/-- Whether the last post-package repair of a stack's die found no spare for the row of an entry (R360). -/
def spareless (p : BitVec 64) (n : Nat) (e : ClsEntry) : Bool :=
  bit p 62 && bits p 56 1 == n % 2 && bits p 48 8 == clsBank e && bits p 30 18 == clsRow e

/-- The repair of a stack that Eosen owes (R359): a post-package repair of a cell or row, and the retirement of the pages that cover a
column, a bank, or a row for which there was no spare. -/
def repairStack (n : Nat) (s : State) (e : ClsEntry) : State :=
  let p := (s.die (n / 2)).ppr
  if 2 ≤ clsKind e ∨ spareless p n e then retirePages n s e
  else
    match execPostPackageRepair (n / 2) (packBits 64 [(63, 1, 1), (56, 1, n % 2), (48, 8, clsBank e), (30, 18, clsRow e)]) s with
    | .next t => t
    | _ => s

/-- The repairs of a stack or an SRAM block that Eosen owes (R359). -/
def tendTable (s : State) (n : Nat) : State :=
  ((tget s.hub.cls n []).filter fun e => clsReq e && !bit e 59).foldl (if n < 8 then repairStack n else repairSram n) s

/-- PPR_COMPLETE (R359, R360): BUSY clears; a repair that found no spare sets FAIL and changes nothing else. The issuers
that waited go on. -/
def execPprComplete (die : Nat) (fail : Bool) (s : State) : Host.Outcome State Fault Refusal :=
  let p := (s.die die).ppr
  if !bit p 63 then .refused .notDue
  else
    let s := s.onDie die fun d => { d with ppr := setBit (setBit p 63 false) 62 fail }
    let stack := 2 * die + bits p 56 1
    let s := if fail then s else tableRas (markRepaired s stack (bits p 48 8) (bits p 30 18)) 5 stack
    .next (replayStops s fun q => q.stop.any (·.repair))

/-! ### The auditor (R363, R367 to R370) -/

/-- AUDIT_CONTROL_WRITE (R363): NEXP of 21 to 31 is ignored; otherwise every ring's LFSR is loaded from SEED. -/
def execAuditControlWrite (value : BitVec 64) (s : State) : Host.Outcome State Fault Refusal :=
  if 20 < bits value 58 5 then .next s
  else
    let seed : BitVec 32 := if value.extractLsb' 0 32 = 0 then 1 else value.extractLsb' 0 32
    let s := s.onHub fun h => { h with audctl := packBits 64 [(58, 6, bits value 58 6), (0, 32, bits value 0 32)] }
    .next ((List.range Config.rings).foldl (fun s g => s.onRing g fun r => { r with lfsr := seed ^^^ BitVec.ofNat 32 g }) s)

/-- The bits a fence of ring g is to clear (R370); bit 0 stands for a ring to which nothing is bound. -/
def fenceBits (s : State) (g : Nat) : BitVec 64 := tget s.hub.fences g 0

/-- Whether a context uses an operation group that a fence clears. -/
def usesFenced (f : BitVec 64) (c : Ctx) : Bool := hdrOpmask c.hdr &&& setBit f 0 false != 0

/-- A fence in force (R370): a bound context that uses a fenced group is drained, and the mask is written once no bound or
saved context of the ring uses one. -/
def applyFence (s : State) (g : Nat) : State :=
  let r := s.ring g
  let f := fenceBits s g
  let boundUse := r.bound && usesFenced f r.ctx
  let s := if boundUse ∧ r.slotState = .running ∧ r.saving = .idle ∧ r.ctx.fault.isNone then beginDrain s g else s
  if boundUse ∨ s.saved.any fun x => x.ring == g && usesFenced f x.ctx then s
  else s.onRing g fun r => { r with capmask := r.capmask &&& ~~~(setBit f 0 false) }

/-- The fence that a finding against ring g raises (R370): every group of the operations at fault but that of bit 0, or with no other the
whole ring. -/
def raiseFence (s : State) (g : Nat) (opmask : BitVec 64) : State :=
  let m := setBit opmask 0 false
  s.onHub fun h => { h with fences := tset h.fences g (tget h.fences g 0 ||| (if m = 0 then 1 else m)) }

/-- A deviant finding against ring g (R368, R370): the ring stands in [31:24] of INFO and the wave below it (log 10). -/
def deviant (s : State) (slot g : Nat) (a : AuditLog) : State :=
  let s := countAudit s 2
  let n := s.freeCtr
  let s := s.rasEvent 8 slot (g * pow2 24 + a.wave % pow2 24) a.ctx g 15 0 0
  let s := s.tickFree.hostEvent a.owner 3 (Config.free64 n).toNat a.tag a.ctx
  applyFence (raiseFence s g a.opmask) g

/-- A log slot freed. -/
def freeLog (s : State) (slot : Nat) : State := s.onHub fun h => { h with audlogs := tdel h.audlogs slot }

/-- The bind record of a replay (R367): that of the sampled context, at priority 0, with a context id and a budget of its own, and to be
neither restored nor started from a drain record. -/
def replayBind (a : AuditLog) (id : BitVec 16) (budget : Nat) : BindRecord :=
  setBits (setBits (setBits (setBits a.bind 152 16 id.toNat) 75 5 budget) 72 3 0) 0 3 1

/-- The budgets with which R336 could let the replay of a sample pass on a ring. -/
def replayBudgets (s : State) (a : AuditLog) (g : Nat) : List Nat :=
  let id := (freshIds s 0 1).headD 0
  ((List.range 15).map (· + 2)).filter fun b => couldPass s (replayBind a id b) g

/-- Whether a ring may replay a sample (R367): another ring than the wave's and than those that have replayed it, whose mask covers the
records' OPMASK, with a budget that R336 accepts. -/
def mayReplay (s : State) (a : AuditLog) (g : Nat) : Bool :=
  g != a.ring && decide (g < Config.rings) && (a.opmask &&& ~~~(s.ring g).capmask) == 0 && (a.tries.all fun t => t.1 != g) &&
    !(replayBudgets s a g).isEmpty

/-- The ring that replays a sample now. -/
def liveReplay (s : State) (slot : Nat) : Option Nat :=
  (List.range Config.rings).find? fun g => (s.ring g).bound && (s.ctx g).replay == some slot

/-- Whether a generation that the log holds, of an input's regions or of the image's, is no longer the current one (R367). -/
def logStale (s : State) (a : AuditLog) : Bool :=
  let now (r : Nat) : Nat := generation s (dieOf a.ring) (bindAsid a.bind) r
  now (regionOf a.img) != a.igen || a.inputs.any fun x => x.gens.any fun q => now q.1 != q.2

/-- What a replay finds different from the log before it runs (R367): the counter of a generation, or of an input's CRC. -/
def replayDiffers (s : State) (a : AuditLog) : Option Nat :=
  if logStale s a then some 5
  else if a.inputs.any fun x => BitVec.ofNat 64 (crc64 (x.visits.flatMap (rereadWord s a x.desc))) != x.crc then some 6
  else none

/-- Whether the replay on ring g has run its wave: every hoist is freed, and every output stream is complete or has emptied its queue. -/
def replayOver (s : State) (g : Nat) (a : AuditLog) : Bool :=
  let c := s.ctx g
  (c.runs.all fun r => r.done) && a.outs.all fun n => (c.stream n).done || !outputQueued s g (c.stream n)

/-- What the replay on ring g has found different as it reads (R367): a generation that has changed meanwhile, or, once it is over, the
CRC of the words that it has read. -/
def replayRead (s : State) (g : Nat) (a : AuditLog) : Option Nat :=
  let read (n : Nat) : List Byte := (((s.ctx g).audIn.filter fun w => w.stream == n && w.real).flatMap HeardWord.bytes)
  if logStale s a then some 5
  else if replayOver s g a && a.inputs.any (fun x => BitVec.ofNat 64 (crc64 (read x.stream)) != x.crc) then some 6
  else none

/-- The signature that the replay on ring g has formed (R366, R367): of the one wave that its run has. -/
def replaySignature (s : State) (g : Nat) (a : AuditLog) : BitVec 64 :=
  let c := s.ctx g
  waveSignature c
    { a with
      run := (c.runs.head?.map Run.id).getD 0, wave := 0, flags := tget c.audFlags 0 0,
      states := (c.audState.foldr (insertBy Prod.fst) []).flatMap (·.2) }

/-- Eosen binds the context of a replay to a ring (R367), where the checks of R336 pass: the logged format slots stand, the wave's queues and
streams are set up anew, and a run of its one wave arms. -/
def bindReplay (s : State) (g slot : Nat) (a : AuditLog) (b : BindRecord) : State :=
  let s := loadedAt s b g
  let run : Run :=
    { id := 0, si := 0, first := a.first, nv := a.nv, w := 1, b := a.notes.foldl (fun m x => max m x.n) 1, ksel := 0,
      res := runResident s g a.first a.nv, total := a.nv, limit := a.nv, arm := none, parkAt := none, done := false, parked := false }
  armRun (s.onRing g fun r =>
    { r with
      slot := b, bound := true, slotState := .running, qcfg := a.qcfg,
      ctx := { r.ctx with
        replay := some slot, stable := [], badSlots := [], rwin := a.rwin, fslots := a.fslots.zipIdx.map fun d => (d.2, d.1),
        streams := a.streams, runs := [run] } }) g

/-- A replay begun on an empty ring (R367), with a budget that R336 accepts there: which of them is Eosen's choice (log 11). -/
def beginReplay (s : State) (slot : Nat) (a : AuditLog) : State :=
  let n := s.freeCtr
  let id := (freshIds s n 1).headD 0
  let able := ((List.range Config.rings).filter fun g =>
      mayReplay s a g && (s.ring g).slotState == .empty && !bit (fenceBits s g) 0).flatMap fun g =>
    (((List.range 15).map fun b => (g, replayBind a id (b + 2))).filter fun x => passesAt s x.2 g)
  match able[Config.placement n % max able.length 1]? with
  | some (g, b) => bindReplay s.tickFree g slot a b
  | none => s.tickFree

/-- Why a sample is abandoned now, if it is (R367): before a replay runs, and as it reads, but for a hoist under way (R31). -/
def replayAbandons (s : State) (slot : Nat) (a : AuditLog) : Option Nat :=
  match liveReplay s slot with
  | some g => if (s.ctx g).hoisting.isSome then none else replayRead s g a
  | none => replayDiffers s a

/-- AUDIT_REPLAY (R367, R368): the sample is abandoned on what the replay finds different, or the signatures that its replays have formed
are compared: `p` is the first, and `q` that on a third ring, made where the first differs from the log's. -/
def execAuditReplay (slot : Nat) (p q : AuditFinding) (s : State) : Host.Outcome State Fault Refusal :=
  match s.hub.audlogs.find? fun e => e.1 == slot with
  | none => .refused .notDue
  | some (_, a) =>
    let abandon : Host.Outcome State Fault Refusal :=
      match replayAbandons s slot a with
      | some n => .next (countAudit (freeLog ((liveReplay s slot).elim s (endReplay s)) slot) n)
      | none => .refused .notDue
    let s' := freeLog s slot
    if !a.whole then .refused .notDue
    else
      match a.tries with
      | [] => abandon
      | (g, sig) :: rest =>
        if sig = a.sig then (if p = ⟨g, sig⟩ then .next (countAudit s' 1) else .refused .notDue)
        else
          match rest with
          | [] => abandon
          | (k, third) :: _ =>
            if p ≠ ⟨g, sig⟩ ∨ q ≠ ⟨k, third⟩ then .refused .notDue
            else if third = sig then .next (deviant s' slot a.ring a)
            else if third = a.sig then .next (deviant s' slot g a)
            else .next ((countAudit s' 3).tickFree.rasEvent 9 slot ((Config.free64 s.freeCtr).toNat % pow2 32) a.ctx a.ring 15 0 0)

/-- What Eosen does for a whole log (R367, R368): it compares, begins a replay, or takes the signature of one that is over and frees its
ring. A replay that has taken a fault has formed no signature, and is made again (log 125). -/
def tendReplay (s : State) (slot : Nat) : State :=
  match s.hub.audlogs.find? fun e => e.1 == slot with
  | none => s
  | some (_, a) =>
    let found (n : Nat) : AuditFinding := (a.tries[n]?).elim ⟨0, 0⟩ fun t => ⟨t.1, t.2⟩
    match execAuditReplay slot (found 0) (found 1) s with
    | .next t => t
    | _ =>
      if !a.whole then s
      else
        match liveReplay s slot with
        | none => beginReplay s slot a
        | some g =>
          if (s.ctx g).fault.isSome then endReplay s g
          else if replayOver s g a then
            (endReplay s g).onHub fun h => { h with audlogs := tset h.audlogs slot { a with tries := a.tries ++ [(g, replaySignature s g a)] } }
          else s

/-- AUDIT_RING_TIMEOUT (R367): no ring may replay the sample within 10^9 ticks of it. -/
def execAuditRingTimeout (slot : Nat) (s : State) : Host.Outcome State Fault Refusal :=
  match s.hub.audlogs.find? fun e => e.1 == slot with
  | none => .refused .notDue
  | some (_, a) =>
    if a.since + 1000000000 ≤ s.tick.toNat ∧ (liveReplay s slot).isNone ∧ !((List.range Config.rings).any (mayReplay s a)) then
      .next (countAudit (freeLog s slot) 9)
    else .refused .notDue

/-! ### Injection (R371, R372) -/

/-- A value of `RAS.INJ` with a reserved value in one of its fields (R371). -/
def injReserved (v : BitVec 64) : Bool :=
  let kind := bits v 61 2
  decide (1 < kind) || bits v 59 2 == 3 ||
    (kind == 0 && (bits v 59 2 != 0 || bits v 28 14 != 0 || decide (31 < bits v 18 10))) ||
    (kind == 1 && bits v 42 13 != 0)

/-- Whether ring g's injection is due in this cycle (R372). -/
def injectDue (r : Ring) : Bool :=
  bit r.inj 63 && r.bound && r.ctx.id == r.inj.extractLsb' 0 16 && r.ctx.tc == bits r.injt 0 48 && r.holdCause == 0

/-- An accumulator bit flipped. -/
def flipCell (r : Ring) : Ring :=
  let v := r.inj
  r.onElem (bits v 55 4) (bits v 52 3) fun e =>
    let n := 256 * bits v 50 2 + 16 * bits v 46 4 + bits v 42 4
    { e with acc := tset e.acc n (tget e.acc n 0 ^^^ (1#32 <<< bits v 18 10)) }

/-- A bit of an SRAM word flipped. -/
def flipSpad (r : Ring) (blk word b : Nat) : Ring :=
  let o := 128 * word + b / 8
  r.spadPut blk o false (r.spadByte blk o false ^^^ (1#8 <<< (b % 8)))

/-- The chunk of a bit of an SRAM word. -/
def chunkOf (blk word b : Nat) : Nat := (blk * Config.blockBytes + 128 * word + b / 8) / 16

/-- An SRAM word changed by mode (R371): silently, by a stored bit, which changes nothing read and is corrected when an access or the
scrubber meets it (R354), or uncorrectably. -/
def flipWord (r : Ring) : Ring :=
  let v := r.inj
  let blk := bits v 55 4
  let w := bits v 28 14
  let b := bits v 18 10
  match bits v 59 2 with
  | 0 => flipSpad r blk w b
  | 1 => { r with flaws := (chunkOf blk w b, .latent) :: r.flaws }
  | 2 =>
    let r := flipSpad (flipSpad r blk w b) blk w (b ^^^ 1)
    { r with
      flaws := (chunkOf blk w b, .uncorrectable) :: r.flaws,
      spoison := chunkOf blk w b :: r.spoison.filter fun c => c != chunkOf blk w b }
  | _ => r

/-- INJECTION_FIRE (R372): the flip, ARM cleared, and a RAS event of kind 10. -/
def execInjectionFire (g : Nat) (s : State) : Host.Outcome State Fault Refusal :=
  let r := s.ring g
  if !injectDue r then .refused .notDue
  else
    let s := s.onRing g fun r => { (if bits r.inj 61 2 = 0 then flipCell r else flipWord r) with inj := setBit r.inj 63 false }
    let x := (Config.free64 s.freeCtr).toNat
    .next (s.tickFree.rasEvent 10 x (x % pow2 32) r.ctx.id g 15 (bits r.inj 55 4) (bits r.inj 52 3))

end Sys2Proof.Machine
end

