-- ==== Sys2Proof/Machine/Host.lean ====
section
/-!
DEFINITION. Hosts, links, power and registers (spec/23 R374 to R394, R403, R405; spec/19 R339): the writes that hosts and
Eosen make, resets of a function, the Kamva ports, pair frequencies and thermal events.
-/

namespace Sys2Proof.Machine

open Sys2Proof

/-! ### Power (R389, R390) -/

/-- Cap of a source. -/
def capOf (s : State) (src : Nat) : Nat := tget s.hub.pcap src 0
/-- The effective cap (R389). -/
def effectiveCap (s : State) : Nat :=
  (List.range 5).foldl (fun m i => if capOf s i = 0 then m else min m (capOf s i)) Config.envelope
/-- The sum of the partitions' floors. -/
def floorSum (s : State) : Nat := ((List.range 8).map fun i => tget s.hub.pfloor i 0).sum
/-- The function that hears of a source's cap; the side-band has none and function 0 stands for it (log 6). -/
def capFunction (src : Nat) : Nat := if src < 4 then src else 0

/-- `HUB.PCAPST` as it reads (R389). -/
def pcapst (s : State) : BitVec 64 :=
  packBits 64 [(48, 16, effectiveCap s), (32, 16, Config.idleFloor), (0, 7, s.hub.pcapst.toNat)]

/-- A cap written by a source (R389): clamped to the idle floor, refused below the floors. -/
def applyCap (s : State) (src c : Nat) : State :=
  let low := decide (c ≠ 0) && decide (c < Config.idleFloor)
  let c1 := if low then Config.idleFloor else c
  let status (s : State) (v : Nat) : State := s.onHub fun h => { h with pcapst := packBits 7 [(4, 3, src), (0, 4, v)] }
  let s := if low then s.hostEvent (capFunction src) 5 0 0 0 else s
  if c1 ≠ 0 ∧ c1 < floorSum s then status (s.hostEvent (capFunction src) 6 0 0 0) 2
  else status (s.onHub fun h => { h with pcap := tset h.pcap src c1 }) (if low then 1 else 0)

/-- CAP_WRITE (R389): taken at the end of the tick, with the others of that tick in the order of their sources (log 87). -/
def execCapWrite (src : Nat) (value : BitVec 16) (s : State) : Host.Outcome State Fault Refusal :=
  if 5 ≤ src then .refused .notDue
  else .next (s.onHub fun h => { h with capWrites := h.capWrites ++ [(src, value.toNat)] })

/-- The cap writes of a tick applied in ascending source number (R389), those of one source in the order they came. -/
def applyCaps (s : State) : State :=
  (s.hub.capWrites.foldr (insertBy Prod.fst) []).foldl (fun s w => applyCap s w.1 w.2) (s.onHub fun h => { h with capWrites := [] })

/-- The least pair that has a context of a partition bound, 12 for none. -/
def partitionPair (s : State) (i : Nat) : Nat :=
  ((List.range Config.rings).find? fun g =>
    (s.ring g).bound && (s.task (bindTask (s.ctx g).bind)).any fun t => sePart t.entry == i).elim 12 pairOf

/-- What the floors of partitions with a bound context take of a pair's allotment, in its units (R390): each in its least pair (log 96). -/
def pairDue (s : State) (p : Nat) : Nat :=
  ((List.range 8).filterMap fun i =>
    if partitionPair s i = p then some (Config.wattUnits (tget s.hub.pfloor i 0)) else none).sum

/-- The effective cap divided again into pair allotments (R390) when it, a floor or the place of a partition with a bound context has
changed: the floors that are due first, then, pair after pair, Eosen's share of what is left (log 96). -/
def divideCap (s : State) : State :=
  let now := (effectiveCap s, (List.range 8).map fun i => tget s.hub.pfloor i 0, (List.range 8).map (partitionPair s))
  if s.hub.capDone = some now then s
  else
    let n := s.freeCtr
    let left := Config.wattUnits (effectiveCap s) - ((List.range 12).map (pairDue s)).sum
    let give (x : Table Nat × Nat) (p : Nat) : Table Nat × Nat :=
      let more := min (Config.pairShare n (effectiveCap s) p) x.2
      (tset x.1 p (pairDue s p + more), x.2 - more)
    s.tickFree.onHub fun h => { h with capDone := some now, pairallot := ((List.range 12).foldl give (h.pairallot, left)).1 }

/-! ### Host registers (R377, R382, R405) -/

/-- The number by which `HUB.SLOTST` names a slot's state (R334). -/
def slotCode : SlotState → Nat
  | .empty => 0
  | .gang => 1
  | .loading => 2
  | .running => 3
  | .saving => 4
  | .draining => 5
  | .halted => 6
  | .ended => 7

/-- `HUB.SLOTST[g]` as it reads (R334): state, the code of the last refused bind, the context in the slot. -/
def slotst (s : State) (g : Nat) : BitVec 64 :=
  let r := s.ring g
  packBits 64 [(60, 4, slotCode r.slotState), (56, 4, r.refuse), (40, 16, (bindCtx r.slot).toNat)]

/-- `RING.HOLDST` as it reads (R86). -/
def holdst (r : Ring) : BitVec 64 := packBits 64 [(60, 4, r.holdCause), (0, 32, r.holdRun)]

/-- `RING.DBGCTL` as it reads (R400): the halted context, HALTED and BRKEN; the commands KILL and RESUME read 0. -/
def dbgctl (r : Ring) : BitVec 64 :=
  let halted := r.slotState == .halted
  packBits 64 [(16, 16, if halted then r.ctx.id.toNat else 0), (3, 1, halted.toNat), (0, 1, r.brken.toNat)]

/-- `DIE.FBSTAT` as it reads (R269). -/
def fbstat (d : Die) : BitVec 64 :=
  packBits 64 [(63, 1, d.fbovf.toNat), (62, 1, d.fbflush.toNat), (0, 11, d.fbunread)]

/-- `HUB.PSTAT[f]` as it reads (R382); CLR reads 0. -/
def pstat (s : State) (f : Nat) : BitVec 64 :=
  packBits 64
    [(63, 1, (s.linkUp f).toNat), (62, 1, (flrBusy s f).toNat), (16, 16, tget s.hub.drop f 0), (0, 16, tget s.hub.evlost f 0)]

/-- `HUB.KSTAT[p]` as it reads (R388); port 16 counts the requests whose route is absent. -/
def kstat (h : Hub) (p : Nat) : BitVec 64 :=
  packBits 64
    [(63, 1, (p != 16 && tget h.kup p false).toNat), (32, 16, if p = 16 then 0 else tget h.kreplay p 0),
      (16, 16, tget h.kdrop p 0), (0, 16, tget h.kpois p 0)]

/-- PSTAT_CLEAR (R382). -/
def execPstatClear (f : Nat) (s : State) : Host.Outcome State Fault Refusal :=
  if 4 ≤ f then .refused .notDue
  else .next (s.onHub fun h => { h with drop := tset h.drop f 0, evlost := tset h.evlost f 0 })

/-- HOST_EVENT_BASE_WRITE (R405): head and tail become 0. -/
def execHostEventBaseWrite (f : Nat) (value : BitVec 64) (s : State) : Host.Outcome State Fault Refusal :=
  if 4 ≤ f then .refused .notDue
  else
    .next (s.onHub fun h =>
      { h with
        hevbase := tset h.hevbase f (packBits 64 [(13, 39, bits value 13 39), (0, 1, bits value 0 1)]),
        hevhead := tset h.hevhead f 0, hevtail := tset h.hevtail f 0 })

/-- The bytes an aperture read returns (R377, R378); a host behind a link that is down gives none (R380). -/
def apertureRead (s : State) (f offset n : Nat) : List Byte :=
  let ap := tget s.hub.apbase f 0
  if bit ap 4 then (List.range n).map fun i =>
      let pa := bits ap 36 16 * 68719476736 + offset + i
      if isMapped pa && (isHbm pa || s.linkUp (hostFunction s pa)) then s.hostByte pa else 0
  else List.replicate n 0

/-- Bytes that a host writes at a device physical address, line by line (R377). -/
def apertureStore (s : State) (pa : Nat) (data : List Byte) : State :=
  (splitAt 64 pa data.length (data.length / 64 + 2)).foldl (fun s x => s.physWrite x.1 ((data.drop (x.1 - pa)).take x.2)) s

/-- A status register as a function reads it in its register window (R377, R382, R388, R389, R391, R380, R396); any other place reads
zero. -/
def statusRead (s : State) : StatusReg → BitVec 64
  | .pstat k => if k < 4 then pstat s k else 0
  | .kstat p => if p ≤ 16 then kstat s.hub p else 0
  | .pcapst => pcapst s
  | .pairf p => if p < 12 then BitVec.ofNat 64 (tget s.hub.pairf p Config.nominalMHz) else 0
  | .hevhead k => if k < 4 then BitVec.ofNat 64 (tget s.hub.hevhead k 0) else 0
  | .ready => BitVec.ofNat 64 s.hub.ready.toNat
  | .other => 0

/-- APERTURE_ACCESS (R377, R378): a write reaches device memory line by line, and a read returns it as hosts see it; a disabled aperture and
reserved ranges take nothing and read zero. The access carries the region of ASID 0 that APBASE names, with the generation that it
has then: one refused as stale is made again with the current one, so that each is made once with that (log 110). A read of the register
window returns a status register. -/
def execApertureAccess (f offset : Nat) (write : HostAccess) (data : List Byte) (s : State) : Host.Outcome State Fault Refusal :=
  let ap := tget s.hub.apbase f 0
  let region := bits ap 0 4
  let say (s : State) (x : HostAccessed) : State := s.onHub fun h => { h with hostAcc := tset h.hostAcc f x }
  if 4 ≤ f ∨ 68719476736 < offset + data.length then .refused .notDue
  else
    match write with
    | .window r => .next (say s ⟨0, 0, bytesOf (statusRead s r)⟩)
    | .apertureRead => .next (say s ⟨region, generation s 0 0 region, apertureRead s f offset data.length⟩)
    | .apertureWrite =>
      if bit ap 4 then .next (apertureStore (say s ⟨region, generation s 0 0 region, []⟩) (bits ap 36 16 * 68719476736 + offset) data)
      else .next s

/-! ### Registers without an operation of their own -/

/-- Whether debug is open (R385). -/
def debugOpen (s : State) : Bool :=
  s.aon.lc == .blank || s.aon.lc == .provisioned || s.aon.lc == .returned || (s.aon.lc == .deployed && s.aon.unlocked)

/-- Whether a ring of a die is bound. -/
def dieBound (s : State) (d : Nat) : Bool := (List.range 6).any fun i => (s.ring (6 * d + i)).bound

/-- A queue register written (R323, R381): taken only while the queue is disabled, and enabled only outside FLRBUSY. -/
def queueWrite (s : State) (q : Nat) (old v : BitVec 64) (f : Hub → BitVec 64 → Hub) : State :=
  if bit old 0 || (bit v 0 && flrBusy s (queueOwner s q)) then s
  else s.onHub fun h => f h (v &&& ~~~(0xFE#64))

/-- `RING.DBGCTL` written (R400): BRKEN while debug is open, then KILL or RESUME. -/
def debugWrite (s : State) (g : Nat) (v : BitVec 64) : Host.Outcome State Fault Refusal :=
  let s := if debugOpen s then s.onRing g fun r => { r with brken := bit v 0 } else s
  if bit v 2 then execDebugKill g s else if bit v 1 then execDebugResume g s else .next s

/-- `HUB.PAIRALLOT[p]` written (R390): what Eosen writes divides the effective cap and gives no partition with a bound context less than its
floor, so a value that would do otherwise is none of its (log 96). -/
def allotPair (s : State) (p v : Nat) : State :=
  let others := ((List.range 12).filter (· != p)).foldl (fun n i => n + tget s.hub.pairallot i 0) 0
  if v < pairDue s p || Config.wattUnits (effectiveCap s) < v + others then s
  else s.onHub fun h => { h with pairallot := tset h.pairallot p v }

/-- `HUB.APBASE[f]` written: where that changes the memory that the aperture reaches, Eosen bumps its region of ASID 0 (R377), of an aperture
opened the region it names now (log 110). -/
def moveAperture (s : State) (f : Nat) (v : BitVec 64) : State :=
  let old := tget s.hub.apbase f 0
  let reach (v : BitVec 64) : Option Nat := if bit v 4 then some (bits v 36 16) else none
  let s := s.onHub fun h => { h with apbase := tset h.apbase f v }
  if reach old = reach v then s else queueBump s 0 (pow2 (bits (if bit old 4 then old else v) 0 4)) none []

/-- A register written by Eosen, with the condition each register carries; a mask that it writes ends the fence of its ring (R370). -/
def eosenWrite (s : State) (reg : RegName) (v : BitVec 64) : State :=
  match reg with
  | .ringHoldlim g => if v.extractLsb' 0 32 = 0 then s else s.onRing g fun r => { r with holdlim := v.extractLsb' 0 32 }
  | .ringRetire g =>
    let m := v.extractLsb' 0 16
    if (s.ring g).bound || decide (14 < popCount m) then s else s.onRing g fun r => { r with retire := m }
  | .ringCapmask g =>
    (s.onRing g fun r => { r with capmask := v &&& 0xFFFFFF }).onHub fun h => { h with fences := tdel h.fences g }
  | .rasInj g =>
    if !s.hub.injen || injReserved v then s else s.onRing g fun r => { r with inj := v &&& ~~~(0x30000#64) }
  | .rasInjt g => if !s.hub.injen then s else s.onRing g fun r => { r with injt := v &&& 0xFFFFFFFFFFFF }
  | .rasCellthr => if v.extractLsb' 0 8 = 0 then s else s.onHub fun h => { h with cellthr := v.extractLsb' 0 8 }
  | .rasClassifier n => s.onHub fun h => { h with cls := tdel h.cls n }
  | .rasBase => s.onHub fun h => { h with rasbase := v }
  | .rasTail => s.onHub fun h => { h with rastail := bits v 0 8 }
  | .dieAstbase d =>
    if dieBound s d then s else s.onDie d fun x => { x with astbase := packBits 64 [(15, 37, bits v 15 37)] }
  | .dieFbbase d =>
    if dieBound s d then s else s.onDie d fun x => { x with fbbase := packBits 64 [(16, 36, bits v 16 36)] }
  | .dieFbtail d => s.onDie d fun x => -- FBTAIL = FBHEAD reads as no record unread, also while 1,024 are (log 98)
      { x with fbtail := v.extractLsb' 0 10, fbunread := (x.fbhead.toNat + 1024 - bits v 0 10) % 1024 }
  | .dieFaulthold d => if v.extractLsb' 0 32 = 0 then s else s.onDie d fun x => { x with faulthold := v.extractLsb' 0 32 }
  | .dieScrubint d => s.onDie d fun x => { x with scrubint := v.extractLsb' 0 48 }
  | .hubSqcfg q => queueWrite s q (s.sqcfg q) v fun h v =>
      { h with sqcfg := tset h.sqcfg q v, sqtail := tset h.sqtail q 0, sqhead := tset h.sqhead q 0 }
  | .hubCqcfg q => queueWrite s q (s.cqcfg q) v fun h v =>
      { h with
        cqcfg := tset h.cqcfg q v, cqtail := tset h.cqtail q 0, cqhead := tset h.cqhead q 0, cqphase := tset h.cqphase q true }
  | .hubSqhead q => s.onHub fun h => { h with sqhead := tset h.sqhead q (bits v 0 16) }
  | .hubSqown q => s.onHub fun h => { h with sqown := tset h.sqown q (bits v 0 2) }
  | .hubPairallot p => allotPair s p v.toNat
  | .hubApbase f => moveAperture s f (packBits 64 [(36, 16, bits v 36 16), (0, 5, bits v 0 5)])
  | .hubKrt n =>
    s.onHub fun h => { h with krt := tset h.krt n (if n = h.node.toNat then packBits 64 [(0, 4, bits v 0 4)] else packBits 64 [(0, 5, bits v 0 5)]) }
  | .hubNode =>
    if (List.range Config.rings).any fun g => (s.ring g).bound then s else s.onHub fun h => { h with node := v.extractLsb' 0 7 }
  | .hubRnpool => if s.hub.rnheld.isEmpty then s.onHub fun h => { h with rnpool := v } else s
  | .hubGtbase => if s.colls.isEmpty then s.onHub fun h => { h with gtbase := v } else s
  | .hubTthrot => if 85 ≤ v.toNat ∧ v.toNat ≤ 110 then s.onHub fun h => { h with tthrot := v.toNat } else s
  | .hubAudbase => s.onHub fun h => { h with audbase := v }
  | .hubGroupHeader n =>
    if s.colls.any fun c => c.group == n then s
    else { s.physWrite (s.hub.gtbase.toNat + 16384 * n) (bytesOf v) with collFailed := tdel s.collFailed n }
  | .ringDbgctl _ | .hubHevtail _ | .readOnly => s

/-- REGISTER_WRITE (R6, R377): a register's value is stored when the writer may write it, and the write is ignored otherwise.
A function writes only its own `HUB.HEVTAIL` here; the side-band writes `RING.DBGCTL` while debug is open (R400). -/
def execRegisterWrite (who : Writer) (reg : RegName) (value : BitVec 64) (s : State) : Host.Outcome State Fault Refusal :=
  match who, reg with
  | .eosen, .ringDbgctl g => debugWrite s g value
  | .sideband, .ringDbgctl g => if debugOpen s then debugWrite s g value else .next s
  | .host f, .hubHevtail k =>
    if f = k then .next (s.onHub fun h => { h with hevtail := tset h.hevtail f (bits value 0 8) }) else .next s
  | .eosen, r => .next (eosenWrite s r value)
  | _, _ => .next s

/-! ### Functions and links (R380, R381) -/

/-- The tasks submitted through a function's queues. -/
def functionTasks (s : State) (f : Nat) : List Nat :=
  (s.hub.tasks.filter fun e => queueOwner s e.2.queue == f).map Prod.fst

/-- A function's queues disabled. -/
def disableQueues (s : State) (f : Nat) : State :=
  s.onHub fun h =>
    let off (t : Table (BitVec 64)) : Table (BitVec 64) :=
      t.map fun e => if tget h.sqown e.1 0 = f then (e.1, setBit e.2 0 false) else e
    { h with sqcfg := off h.sqcfg, cqcfg := off h.cqcfg }

/-- One task of a function under reset killed, without a completion record (R381). -/
def resetTask (f : Nat) (s : State) (n : Nat) : State :=
  match s.task n with
  | none => s
  | some t =>
    let s := s.onTask n fun t => { t with noRecord := true }
    if t.state = .done then (match s.task n with
      | some t => if mayComplete s t then completeTask s n t else s
      | none => s)
    else endTask (killMembers s n t.count (some f)) n 2 0 0 0 0

/-- The sequence of R381. -/
def resetFunction (s : State) (f : Nat) : State := (functionTasks s f).foldl (resetTask f) (disableQueues s f)

/-- FUNCTION_LEVEL_RESET (R381). -/
def execFunctionLevelReset (f : Nat) (s : State) : Host.Outcome State Fault Refusal :=
  if 4 ≤ f then .refused .notDue else .next (resetFunction s f)

/-- LINK_DOWN (R380): later accesses to the function's host are dropped or poisoned; a host event of kind 9. -/
def execLinkDown (f : Nat) (s : State) : Host.Outcome State Fault Refusal :=
  if !s.linkUp f then .refused .notDue
  else .next ((s.onHub fun h => { h with link := tset h.link f false }).hostEvent f 9 0 0 0)

/-- LINK_RETRAIN (R381): the link comes up again, with the sequence of a function's reset. -/
def execLinkRetrain (f : Nat) (s : State) : Host.Outcome State Fault Refusal :=
  if !s.hasFunction f ∨ s.linkUp f then .refused .notDue
  else .next (resetFunction (s.onHub fun h => { h with link := tset h.link f true }) f)

/-! ### Kamva (R386 to R388) -/

/-- KAMVA_FLIT_REPLAY (R386, R388): counted; no data and no order changes. -/
def execKamvaFlitReplay (port : Nat) (s : State) : Host.Outcome State Fault Refusal :=
  if 16 ≤ port then .refused .notDue
  else .next (s.onHub fun h => { h with kreplay := tset h.kreplay port (satAdd 16 (tget h.kreplay port 0) 1) })

/-- KAMVA_LINK_DOWN (R388). -/
def execKamvaLinkDown (port : Nat) (s : State) : Host.Outcome State Fault Refusal :=
  if 16 ≤ port ∨ !tget s.hub.kup port false then .refused .notDue
  else .next (s.onHub fun h => { h with kup := tset h.kup port false })

/-- KAMVA_LINK_UP (R388). -/
def execKamvaLinkUp (port : Nat) (s : State) : Host.Outcome State Fault Refusal :=
  if 16 ≤ port ∨ tget s.hub.kup port false then .refused .notDue
  else .next (s.onHub fun h => { h with kup := tset h.kup port true })

/-- The request of another package as this one's targets see it. -/
def inboundReq (r : InboundRequest) : Req :=
  { id := 0, ring := 63, ctx := 0, asid := r.asid, party := .node 0, kind := if r.write then .write else .read, parts := [],
    wdi := 0, lines := 0, tc := 0, purpose := .other, done := none, stop := none, poison := false, cls := 0, line := 0,
    stale := false }

/-- An operation of another package on a barrier object of this one, whose answer goes back over Kamva. -/
def inboundBarrier (s : State) (r : InboundRequest) (op : BarrierOp) : State :=
  let g := nameRing r.addr
  let n := nameNum r.addr
  { s.setBarrier g n (barrierOp s g none r.asid (s.barrier g n) op).1 with barUsed := (g, n) :: s.barUsed }

/-- KAMVA_INBOUND_REQUEST (R264, R290, R387): a line of HBM or of a host's memory, or of a scratchpad that R264 lets the address space reach, or an
operation on a barrier object; a read changes nothing here. The sender has compared the generation (R271). -/
def execKamvaInboundRequest (req : InboundRequest) (s : State) : Host.Outcome State Fault Refusal :=
  let n := req.data.length
  match req.barrier with
  | some op =>
    if nameNode req.addr ≠ s.hub.node.toNat ∨ 24 ≤ nameRing req.addr ∨ !barrierFree s req.addr then .refused .notDue
    else .next (inboundBarrier s req op)
  | none =>
  if 64 < req.addr % 64 + n then .refused .notDue
  else if !req.write then .next s
  else
    match req.scratchpad with
    | none => .next (s.physWrite req.addr req.data)
    | some g =>
      if (spadTarget s g req.asid req.addr n).isSome then .next (writePlace s (inboundReq req) (.spad g req.addr false) req.data)
      else .next s

/-! ### Pair frequencies (R339, R391 to R393) -/

/-- The address of the word with the status lines in the control page of a saved context (R343). -/
def savedLines (e : RemapEntry) : Nat := remapSave e + 4718592 + 68

/-- A throttle notice to a saved context (R339): `sl14` set in its image, and a host event of kind 2. -/
def noticeSaved (s : State) (x : Saved) : State :=
  let s : State :=
    { s with saved := s.saved.map fun y => if y.ring = x.ring ∧ y.ctx.id = x.ctx.id then { y with ctx := y.ctx.setLine 14 true } else y }
  let s := match remapOf (s.ring x.ring) x.ctx.id with
    | some (_, e) =>
      let w : BitVec 16 := BitVec.ofNat 16 (s.mem.readNat (savedLines e) 2)
      s.physWrite (savedLines e) (bytesOf (setBit w 14 true))
    | none => s
  let t := bindTask x.ctx.bind
  s.hostEvent (s.taskFunction t) 2 0 ((s.task t).elim 0 fun t => seTag t.entry) x.ctx.id

/-- A throttle notice to the context bound on a ring (R339, R353): `sl14` now, with a call of the handler before the next step where
one is set. One that is being saved is told as a saved one is: its lines are in the control page from the opening of its entry. -/
def noticeBound (s : State) (g : Nat) : State :=
  let r := s.ring g
  let s := s.onCtx g fun c => { c.setLine 14 true with thNotice := !r.shifting && (c.thNotice || c.thandler.isSome || r.slotState == .saving) }
  if !r.shifting then s
  else noticeSaved s ⟨g, r.ctx, r.stripes, r.qcfg, r.qst, r.lanes, r.scrf⟩

/-- A throttle notice on a ring (R339). -/
def noticeRing (s : State) (g : Nat) : State :=
  let s := if (s.ring g).bound then noticeBound s g else s
  (s.saved.filter fun x => x.ring == g).foldl noticeSaved s

/-- A pair's frequency changed; lowered below the nominal one, every context on it hears of it (R391). -/
def setPairFrequency (s : State) (pair mhz : Nat) : State :=
  let old := tget s.hub.pairf pair Config.nominalMHz
  let s := s.onHub fun h => { h with pairf := tset h.pairf pair mhz }
  if mhz < old ∧ mhz < Config.nominalMHz then noticeRing (noticeRing s (2 * pair)) (2 * pair + 1) else s

/-- A frequency of R391: 475 to 1,900 in steps of 25. -/
def frequencyOk (mhz : Nat) : Bool := decide (475 ≤ mhz) && decide (mhz ≤ Config.nominalMHz) && mhz % 25 == 0

/-- PAIR_FREQUENCY_CHANGE (R391). -/
def execPairFrequencyChange (pair : Nat) (mhz : BitVec 16) (s : State) : Host.Outcome State Fault Refusal :=
  if 12 ≤ pair ∨ !frequencyOk mhz.toNat then .refused .notDue else .next (setPairFrequency s pair mhz.toNat)

/-- Whether two currents differ by more than a tenth of the larger. -/
def unbalanced (a b : Nat) : Bool := decide (max a b < 10 * (max a b - min a b))

/-- PAIR_BALANCE (R392): the least ballast that balances, up to 20 A on the lighter ring; beyond it both clocks of the pair
are stretched alike for a tick. -/
def execPairBalance (pair amps0 amps1 : Nat) (s : State) : Host.Outcome State Fault Refusal :=
  if 12 ≤ pair then .refused .notDue
  else if !unbalanced amps0 amps1 then .next s
  else
    let light := if amps0 ≤ amps1 then 2 * pair else 2 * pair + 1
    let lo := min amps0 amps1
    let add := min 20 (ceilDiv (9 * max amps0 amps1) 10 - lo)
    let s := s.onHub fun h => { h with ballast := tset h.ballast light add }
    if unbalanced (lo + add) (max amps0 amps1) then
      .next (s.onHub fun h => { h with pairStretch := tset h.pairStretch pair (s.nominalCycle + Config.cyclesPerTick + 1) })
    else .next s

/-- DROOP_DETECT (R393): the ring's clock is stretched for at least 16 of its cycles. -/
def execDroopDetect (g cycles : Nat) (s : State) : Host.Outcome State Fault Refusal :=
  if cycles < 16 then .refused .notDue
  else .next (s.onRing g fun r => { r with stretch := max r.stretch cycles })

/-! ### The end of a wipe (R373, R396) -/

/-- The queues as Eosen configures them at boot step 5: which it enables, where, and for which functions, is its choice (log 55). -/
def configureQueues (s : State) : State :=
  let n := s.freeCtr
  (List.range 64).foldl (fun s q =>
    let w (s : State) (reg : RegName) (i : Nat) : State := eosenWrite s reg (Config.free64 (n + 3 * q + i))
    w (w (w s (.hubSqown q) 0) (.hubSqcfg q) 1) (.hubCqcfg q) 2) { s with freeCtr := n + 192 }

/-- Boot steps 4 to 6 once the wipe is complete (R396): the masks that the fuses hold, the queues, READY. -/
def bootDone (s : State) : State :=
  let s := (List.range Config.rings).foldl (fun s g =>
    s.onRing g fun r => { r with capmask := tget s.aon.fuseCap g 0xFFFFFF, retire := tget s.aon.fuseRet g 0 }) s
  (configureQueues s).onHub fun h => { h with wipest := false, ready := true }

/-- A tick of the wipe (R373). -/
def wipeTick (s : State) : State :=
  if !s.hub.wipest then s
  else
    let s := s.onHub fun h => { h with wipeLeft := h.wipeLeft - 1 }
    if s.hub.wipeLeft = 0 then bootDone s else s

/-! ### Thermal protection (R394) -/

/-- THERMAL_THROTTLE (R394): a die's pairs are throttled; a host event of kind 8, to function 0 (log 6). -/
def execThermalThrottle (die celsius : Nat) (mhz : BitVec 16) (s : State) : Host.Outcome State Fault Refusal :=
  if 4 ≤ die ∨ celsius < s.hub.tthrot ∨ !frequencyOk mhz.toNat ∨ mhz.toNat = Config.nominalMHz then .refused .notDue
  else
    let s := (List.range 3).foldl (fun s i =>
      setPairFrequency s (3 * die + i) (min mhz.toNat (tget s.hub.pairf (3 * die + i) Config.nominalMHz))) s
    .next ((s.onDie die fun d => { d with throttled := true }).hostEvent 0 8 die 0 0)

/-- What a loss of the main rails, or a wipe, leaves of the module (R373, R383, R394): the tick counter and the always-on
registers, the memory of the hosts, what has left for other packages, and events that are still to arrive. Numbers the model keeps for
its own bookkeeping go on. -/
def lostRails (s : State) : State :=
  { State.reset with
    tick := s.tick, sub := s.sub, freeCtr := s.freeCtr, reqNext := s.reqNext, copyNext := s.copyNext, aon := s.aon,
    inputs := s.inputs, egress := s.egress, mem := s.mem.filter fun c => isHost c.1 }

/-- The main rails lose power. -/
def dropRails (s : State) : State :=
  ((lostRails s).onAon fun a => { a with powered := false, frozen := false }).onHub fun h => { h with ready := false }

/-- MAIN_RAILS_DOWN (R383, R394): the main rails go; while a trip has removed them, the 48 V input is cycled (log 109). -/
def execMainRailsDown (s : State) : Host.Outcome State Fault Refusal :=
  if s.aon.powered then .next (dropRails s)
  else if s.aon.tripOff then .next (s.onAon fun a => { a with tripOff := false })
  else .refused .notDue

/-- THERMAL_TRIP (R394): recorded unless an earlier trip is, and the main rails go. -/
def execThermalTrip (die sensor code : Nat) (s : State) : Host.Outcome State Fault Refusal :=
  if !s.aon.powered ∨ 4 < die ∨ 31 < sensor ∨ code = 0 ∨ 3 < code then .refused .notDue
  else
    let s := s.onAon fun a =>
      let a := { a with tripOff := true, hot := true }
      if bit a.ttrip 63 then a
      else
        { a with
          ttrip := packBits 64 [(63, 1, 1), (0, 48, s.tick.toNat)],
          ttripx := packBits 64 [(13, 3, die), (8, 5, sensor), (0, 8, code)], tripPending := true }
    .next (dropRails s)

end Sys2Proof.Machine
end

