-- ==== Sys2Proof/Machine/SideBand.lean ====
section
/-!
DEFINITION. The side-band port and the always-on domain (spec/23 R375, R383 to R385, R390, R395 to R399, R401): commands,
resets and boot, life-cycle states, signed objects and attestation.
-/

namespace Sys2Proof.Machine

open Sys2Proof

/-! ### Signed objects (R398) -/

def objLen (o : List Byte) : Nat := leNat ((o.drop 56).take 8)
def objSvn (o : List Byte) : Nat := leNat ((o.drop 52).take 4)
def objKind (o : List Byte) : Nat := leNat ((o.drop 2).take 2)
def objMagic (o : List Byte) : Nat := leNat (o.take 2)
/-- The payload of a signed object. -/
def objPayload (o : List Byte) : List Byte := (o.drop 64).take (objLen o)

/-- Whether an object is whole, of a kind, not below the fused version, and validly signed under a key. -/
def objValid (s : State) (o : List Byte) (kind : Nat) (key : List Byte) : Bool :=
  o.length == 64 + objLen o + 1280 && objMagic o == 0x4757 && objKind o == kind && decide (s.aon.svn.toNat ≤ objSvn o) &&
    (o.drop 4).take 48 == List.replicate 48 0 &&
    Config.falconVerify key (o.take (64 + objLen o)) (o.drop (64 + objLen o))

/-- The fused counter advanced by a verified object. -/
def advanceSvn (s : State) (o : List Byte) : State :=
  s.onAon fun a => { a with svn := BitVec.ofNat 32 (max a.svn.toNat (objSvn o)) }

/-! ### Answers -/

/-- A command answered with a status and bytes. -/
def answer (s : State) (ok : Bool) (bs : List Byte) : Host.Outcome State Fault Refusal :=
  .next (s.onAon fun a => { a with sbok := ok, sbresp := bs })

/-- Error status, with no effect (R385). -/
def sbError (s : State) : Host.Outcome State Fault Refusal := answer s false []

/-- A command's effect with status ok when the module is in a state that accepts it: the life cycle, and outside recovery
mode unless the command is one of those it leaves (R385, R396). -/
def command (s : State) (accepted inRecovery : Bool) (f : State → Host.Outcome State Fault Refusal) :
    Host.Outcome State Fault Refusal :=
  if accepted && (!s.aon.recovery || inRecovery) then f s else sbError s

/-! ### Wipe, reset and boot (R373, R395, R396) -/

/-- The wipe begun (R373, boot step 3): what it clears reads zero from here on, and WIPEST reads 1 until it is complete, when boot goes on
with `bootDone`. READY is clear meanwhile. -/
def wipe (s : State) : State :=
  (lostRails s).onHub fun h => { h with ready := false, wipest := true, wipeLeft := Config.wipeTicks }

/-- Whether an image store verifies (boot steps 1 and 2): an empty one holds the image the part was made with, whose signature is good and
whose security version the fused counter may have passed (log 124). -/
def imageGood (s : State) (img : List Byte) (kind : Nat) : Bool :=
  if img.isEmpty then decide (s.aon.svn.toNat ≤ Config.factorySvn) else objValid s img kind Config.gnowellKey

/-- The security version of an image store. -/
def imageSvn (img : List Byte) : Nat := if img.isEmpty then Config.factorySvn else objSvn img

/-- The Eosen image that boot runs (R396 step 2): the recovery store's when it is valid and newer, otherwise the primary
store's; none when that does not verify. -/
def bootImage (s : State) : Option (List Byte) :=
  let a := s.aon
  if !a.recImg.isEmpty ∧ imageGood s a.recImg 2 ∧ imageSvn a.eosenImg < imageSvn a.recImg then some a.recImg
  else if imageGood s a.eosenImg 2 then some a.eosenImg
  else none

/-- The boot sequence, with the cause recorded (R395, R396), up to the wipe that runs in it: a warm reset begins at step 2. On a failed
verification READY stays clear and the side-band reports recovery mode. Debug is closed again (R385), and the reference tick counter
starts again from 0 (R319). -/
def boot (s : State) (cause : BitVec 4) (warm : Bool) : State :=
  let s : State := { s with tick := 0, sub := 0 }.onAon fun a =>
    { a with rstcause := cause, unlocked := false, powered := true, frozen := false, recovery := false }
  let failed : State := ((lostRails s).onHub fun h => { h with ready := false }).onAon fun a => { a with recovery := true }
  if !warm && !imageGood s s.aon.bootImg 1 then failed
  else
    match bootImage s with
    | none => failed
    | some img =>
      let s := if warm || s.aon.bootImg.isEmpty then s else advanceSvn s s.aon.bootImg
      let s := if img.isEmpty then s else advanceSvn s img
      (wipe s).onAon fun a => { a with running := img, bootRunning := a.bootImg }

/-- Whether registers on the main rails can change (R383, R401): with power, and with their clocks running. -/
def mainLive (s : State) : Bool := s.aon.powered && !s.aon.frozen

/-- RESET (R385, R395): a warm reset; without the main rails there is nothing to reset (log 99). -/
def execReset (s : State) : Host.Outcome State Fault Refusal :=
  answer (if s.aon.powered then boot s 2 true else s) true []

/-- EOSEN_FATAL_ERROR (R395): a warm reset; Eosen runs only with power and clocks. -/
def execEosenFatalError (s : State) : Host.Outcome State Fault Refusal :=
  if s.aon.powered ∧ !s.aon.frozen ∧ s.hub.ready then .next (boot s 4 true) else .refused .notDue

/-- Whether each of the module's sensors (R384) reads below 100 °C now (R394). -/
def sensorsCool (s : State) : Bool := (List.range 76).all fun i => decide ((Config.sensor i s.freeCtr).toNat < 100)

/-- COLD_RESET (R375, R394 to R396): the main rails come up; after a trip only once the 48 V input has been cycled and every sensor reads
below 100 °C (log 109). -/
def execColdReset (s : State) : Host.Outcome State Fault Refusal :=
  if s.aon.powered ∨ s.aon.tripOff then .refused .notDue
  else if s.aon.hot && !sensorsCool s then .next s.tickFree
  else
    let cause : BitVec 4 := if s.aon.tripPending && bit s.aon.ttrip 63 then 5 else 1
    .next (boot (s.onAon fun a => { a with pcfgLive := a.pcfg, tripPending := false, hot := false }) cause false)

/-! ### Sticky registers and power (R375, R385, R389, R390) -/

/-- RDSTICKY: every AON register, in a layout of its own. -/
def execRdsticky (s : State) : Host.Outcome State Fault Refusal :=
  let a := s.aon
  answer s true (Config.layout 0 [bytesOf a.pcfg, bytesOf a.ttrip, bytesOf a.ttripx, leBytes 8 a.rstcause.toNat])

/-- CLRSTICKY. -/
def execClrsticky (s : State) : Host.Outcome State Fault Refusal :=
  answer (s.onAon fun a => { a with ttrip := 0, rstcause := 0 }) true []

/-- Whether tasks may run in the life-cycle state that has been deployed or provisioned. -/
def inService (s : State) : Bool := s.aon.lc == .provisioned || s.aon.lc == .deployed

/-- SETCAP: `HUB.PCAP[4]` written under R389; while the main rails are down or the clocks stand the register does not change (log 99). -/
def execSetcap (value : BitVec 16) (s : State) : Host.Outcome State Fault Refusal :=
  command s (inService s) false fun s =>
    if !mainLive s then answer s true []
    else
      match execCapWrite 4 value s with
      | .next t => answer t true []
      | o => o

/-- SETFLOOR (R390): refused when the floors would exceed the effective cap; while the main rails are down or the clocks stand the register
does not change (log 99). -/
def execSetfloor (i : Nat) (value : BitVec 16) (s : State) : Host.Outcome State Fault Refusal :=
  command s (inService s && decide (i < 8)) false fun s =>
    if !mainLive s then answer s true [] else
    let t := s.onHub fun h => { h with pfloor := tset h.pfloor i value.toNat }
    if effectiveCap s < floorSum t then sbError s else answer t true []

/-- PCFG (R375): refused with a reserved field nonzero. -/
def execPcfg (value : BitVec 64) (s : State) : Host.Outcome State Fault Refusal :=
  command s (inService s && bits value 8 56 == 0 && bits value 2 2 == 0) false fun s =>
    answer (s.onAon fun a => { a with pcfg := value }) true []

/-! ### Firmware (R384, R385) -/

/-- RECOVER (R385, R398): a verified Eosen image stored, and a warm reset that runs it if it is newer; without the main rails the next
boot finds it stored (log 99). -/
def execRecover (image : List Byte) (s : State) : Host.Outcome State Fault Refusal :=
  command s (s.aon.lc != .blank && objValid s image 2 Config.gnowellKey) true fun s =>
    let t := (advanceSvn s image).onAon fun a => { a with recImg := image }
    answer (if s.aon.powered then boot t 3 true else t) true []

/-- PLDM_FIRMWARE_UPDATE (R384, R398): a verified boot or Eosen image stored, in effect at the next warm reset. -/
def execPldmFirmwareUpdate (image : List Byte) (s : State) : Host.Outcome State Fault Refusal :=
  if s.aon.recovery then sbError s
  else if objValid s image 1 Config.gnowellKey then answer ((advanceSvn s image).onAon fun a => { a with bootImg := image }) true []
  else if objValid s image 2 Config.gnowellKey then answer ((advanceSvn s image).onAon fun a => { a with eosenImg := image }) true []
  else sbError s

/-- PLDM_SENSOR_READ (R384): 68 junction sensors, 8 stack sensors, input current and module power, twelve pair frequencies and
the effective cap, numbered in that order (log 9). -/
def execPldmSensorRead (sensor : Nat) (s : State) : Host.Outcome State Fault Refusal :=
  if sensor < 78 then answer s.tickFree true (bytesOf (Config.sensor sensor s.freeCtr))
  else if sensor < 90 then answer s true (leBytes 8 (tget s.hub.pairf (sensor - 78) Config.nominalMHz))
  else if sensor = 90 then answer s true (leBytes 8 (effectiveCap s))
  else sbError s

/-! ### Attestation (R399) -/

/-- The code of a life-cycle state in a report. -/
def lcCode : LifeCycle → Nat
  | .blank => 0 | .provisioned => 1 | .deployed => 2 | .returned => 3

/-- A value of a fixed number of bytes. -/
def fixedBytes (n : Nat) (bs : List Byte) : List Byte := (bs ++ List.replicate n 0).take n

/-- The measurement of an image store's image, 64 bytes (R399): one that is empty holds what the part was made with. -/
def measure (img : List Byte) (kind : Nat) : List Byte :=
  fixedBytes 64 (Config.shake256 (if img.isEmpty then Config.factory kind else img))

/-- The payload of an attestation report: the boot firmware and the Eosen image measured are those that run. -/
def attestPayload (s : State) (nonce : List Byte) : List Byte :=
  let a := s.aon
  Config.layout 1 ([nonce, leBytes 1 (lcCode a.lc), bytesOf a.svn, measure a.bootRunning 1, measure a.running 2] ++
    ((List.range Config.rings).map fun g => bytesOf (s.ring g).capmask) ++
    ((List.range Config.rings).map fun g => bytesOf (s.ring g).retire) ++
    [bytesOf a.pcfg, bytesOf a.ttrip, bytesOf a.ttripx, leBytes 8 a.rstcause.toNat, Config.identityKey a.idKey])

/-- ATTEST: a signed object of KIND 5 for a nonce of 32 bytes. -/
def execAttest (nonce : List Byte) (s : State) : Host.Outcome State Fault Refusal :=
  command s (s.aon.lc != .blank && nonce.length == 32) true fun s =>
    let p := attestPayload s nonce
    let body := bytesOf (packBits 512 [(448, 64, p.length), (416, 32, s.aon.svn.toNat), (16, 16, 5), (0, 16, 0x4757)]) ++ p
    answer s true (body ++ fixedBytes 1280 (Config.falconSign s.aon.idKey body))

/-! ### Debug (R385, R401) -/

/-- FREEZE (R401, R334): every clock stops, running contexts are HALTED and the links go down; without the main rails no clock runs
(log 99). -/
def execFreeze (s : State) : Host.Outcome State Fault Refusal :=
  command s (debugOpen s) false fun s =>
    if !s.aon.powered then answer s true [] else
    let s := s.onAon fun a => { a with frozen := true }
    let s := (List.range Config.rings).foldl (fun s g =>
      if (s.ring g).slotState = .running then s.onRing g fun r => { r with slotState := .halted } else s) s
    answer (s.onHub fun h => { h with link := (List.range 4).foldl (fun t f => tset t f false) h.link }) true []

/-- The registers of a ring outside its halyard image (R86, R87, R96, R334, R345, R362, R371, R400). -/
def ringRegisters (s : State) (g : Nat) : List (List Byte) :=
  let r := s.ring g
  [bytesOf r.capmask, bytesOf r.retire, bytesOf r.holdlim, bytesOf (holdst r), bytesOf (dbgctl r), bytesOf (slotst s g), bytesOf r.slot,
    bytesOf r.suscnt, bytesOf r.inj, bytesOf r.injt, bytesOf r.scrf] ++ (List.range 64).map fun i => bytesOf (tget r.remap i 0)

/-- The registers of a die (R257, R267 to R270, R356, R360). -/
def dieRegisters (d : Die) : List (List Byte) :=
  [bytesOf d.astbase, bytesOf d.fbbase, leBytes 8 d.fbhead.toNat, leBytes 8 d.fbtail.toNat, bytesOf (fbstat d), bytesOf d.fbatch,
    bytesOf d.faulthold, bytesOf d.ppr, bytesOf d.scrubint]

/-- The registers of the hub, the configurations of its handoff queues (R298) and the 64 entries of each of its 392 classifier tables (R357)
among them. -/
def hubRegisters (s : State) : List (List Byte) :=
  let h := s.hub
  let each (n : Nat) (f : Nat → List Byte) : List (List Byte) := (List.range n).map f
  let num (t : Table Nat) (d n : Nat) : List (List Byte) := each n fun i => leBytes 8 (tget t i d)
  let word (t : Table (BitVec 64)) (n : Nat) : List (List Byte) := each n fun i => bytesOf (tget t i 0)
  word h.sqcfg 64 ++ word h.cqcfg 64 ++ num h.sqhead 0 64 ++ num h.sqtail 0 64 ++ num h.cqhead 0 64 ++ num h.sqown 0 64 ++
    num h.pairallot 0 12 ++ num h.pairf Config.nominalMHz 12 ++ num h.pcap 0 5 ++ [bytesOf (pcapst s)] ++ num h.pfloor 0 8 ++
    word h.hevbase 4 ++ num h.hevhead 0 4 ++ num h.hevtail 0 4 ++ each 4 (fun f => bytesOf (pstat s f)) ++
    [bytesOf h.rasbase, leBytes 8 h.rashead, leBytes 8 h.rastail, leBytes 8 h.raslost, bytesOf h.cellthr, leBytes 1 h.injen.toNat,
      bytesOf h.audctl, bytesOf h.audbase, bytesOf h.tlbinv, bytesOf h.genbump] ++
    num h.audstat 0 10 ++ word h.apbase 4 ++ word h.krt 128 ++ each 17 (fun p => bytesOf (kstat h p)) ++
    [leBytes 8 h.node.toNat, bytesOf h.rnpool, bytesOf h.gtbase, leBytes 8 h.tthrot, leBytes 1 h.ready.toNat, leBytes 1 h.wipest.toNat] ++
    (each 1024 fun n => bytesOf (tget h.hq n ⟨0, [], []⟩).cfg) ++
    (each 392 fun n => (List.range 64).flatMap fun i => bytesOf ((tget h.cls n []).getD i 0))

/-- What READOUT returns for one of its numbers: the halyard image of a ring (0 to 23), the registers of a die (24 to 27), of the hub (28)
or of a ring (32 to 55). The numbers beyond the rings' and the layout of registers are the model's (log 108). -/
def readoutBytes (s : State) (n : Nat) : Option (List Byte) :=
  if n < Config.rings then some (halyardImage s n)
  else if n < 28 then some (Config.layout n (dieRegisters (s.die (n - 24))))
  else if n = 28 then some (Config.layout n (hubRegisters s))
  else if 32 ≤ n ∧ n < 56 then some (Config.layout n (ringRegisters s (n - 32)))
  else none

/-- READOUT (R401): halyard and register state after a freeze, nothing destroyed. -/
def execReadout (g : Nat) (s : State) : Host.Outcome State Fault Refusal :=
  match readoutBytes s g with
  | none => sbError s
  | some bs => command s (debugOpen s && s.aon.powered && s.aon.frozen) false fun s => answer s true bs

/-- INJEN (R371, R385); while the main rails are down or the clocks stand the register does not change (log 99). -/
def execInjen (on : Bool) (s : State) : Host.Outcome State Fault Refusal :=
  command s (debugOpen s) false fun s => answer (if mainLive s then s.onHub fun h => { h with injen := on } else s) true []

/-- UNLOCK (R385, R398): a token of KIND 4 under the stored owner key opens debug until the next reset. -/
def execUnlock (token : List Byte) (s : State) : Host.Outcome State Fault Refusal :=
  match s.aon.ownerKey with
  | none => sbError s
  | some key =>
    command s (s.aon.lc == .deployed && objValid s token 4 key) false fun s =>
      answer ((advanceSvn s token).onAon fun a => { a with unlocked := true }) true []

/-! ### Life cycle (R397, R398) -/

/-- The key that authorises a change of state, where the change exists: a Gnowell token, the key an owner token carries while
the store holds none, or the stored owner key. -/
def changeKey (s : State) (target : LifeCycle) (token : List Byte) : Option (List Byte) :=
  match s.aon.lc, target with
  | .blank, .provisioned => some Config.gnowellKey
  | .provisioned, .deployed => if s.aon.ownerKey.isNone then some (Config.tokenKey (objPayload token)) else none
  | .deployed, .returned => s.aon.ownerKey
  | .returned, .provisioned => some Config.gnowellKey
  | _, _ => none

/-- The keys after a change of state: a new identity for a part that becomes PROVISIONED, with the owner key erased when it
leaves RETURNED; the owner key installed when it becomes DEPLOYED. -/
def changeState (a : Aon) (target : LifeCycle) (token : List Byte) : Aon :=
  match target with
  | .provisioned => { a with lc := target, idKey := a.idKey + 1, ownerKey := none }
  | .deployed => { a with lc := target, ownerKey := some (Config.tokenKey (objPayload token)) }
  | _ => { a with lc := target }

/-- LCSTATE (R385, R397): the wipe first, then the change; the links stay as they are. Without the main rails nothing is left to wipe; with
the clocks stopped no wipe can run, and the state does not change (log 99). -/
def execLcstate (target : LifeCycle) (token : List Byte) (s : State) : Host.Outcome State Fault Refusal :=
  match changeKey s target token with
  | none => sbError s
  | some key =>
    command s (!s.aon.frozen && objValid s token 3 key) false fun s =>
      let u := advanceSvn s token
      let t := if s.aon.powered then (wipe u).onHub fun h => { h with link := s.hub.link, kup := s.hub.kup } else u
      answer (t.onAon fun a => changeState a target token) true []

end Sys2Proof.Machine
end

