-- ==== Sys2Proof/Machine/Special.lean ====
section
/-!
DEFINITION. The SPC rows (spec/11 R196): what a row reads of its place, and moves.
-/

namespace Sys2Proof.Machine

open Sys2Proof

/-- `iter` (R196): the instance index. -/
def execIter (r : Row) (s : State) : Host.Outcome State Fault Refusal :=
  resultRow (.iter r) r (perLane fun s _ l => specialLane s .it l) s

/-- `eid` (R196): the column. -/
def execEid (r : Row) (s : State) : Host.Outcome State Fault Refusal :=
  resultRow (.eid r) r (perLane fun s _ l => specialLane s .eid l) s

/-- `lid` (R196): the lane. -/
def execLid (r : Row) (s : State) : Host.Outcome State Fault Refusal :=
  resultRow (.lid r) r (perLane fun s _ l => specialLane s .lid l) s

/-- `sid` (R196): the virtual stripe. -/
def execSid (r : Row) (s : State) : Host.Outcome State Fault Refusal :=
  resultRow (.sid r) r (perLane fun s _ l => specialLane s .sid l) s

/-- `tcrd` (R196): a half of TC at issue. -/
def execTcrd (r : Row) (s : State) : Host.Outcome State Fault Refusal :=
  resultRow (.tcrd r) r (perLane fun s _ _ => BitVec.ofNat 32 (if bit r.imm 0 then s.now >>> 32 else s.now)) s

/-- `imov` (R196): a copy of A. -/
def execImov (r : Row) (s : State) : Host.Outcome State Fault Refusal :=
  resultRow (.imov r) r (perLane fun s up l => laneA s up r l) s

/-- `ilui` (R196): IMM above the upper half of A. -/
def execIlui (r : Row) (s : State) : Host.Outcome State Fault Refusal :=
  resultRow (.ilui r) r (perLane fun s up l => r.imm ++ (laneA s up r l).extractLsb' 16 16) s


end Sys2Proof.Machine
end

