-- ==== Sys2Proof/Machine/Dispatch.lean ====
section
/-!
DEFINITION. One arm per constructor of `Instr`, each one call of that instruction's meaning.
-/

namespace Sys2Proof.Machine

open Sys2Proof

/-- The meaning of one operation or event. -/
def exec (i : Instr) (s : State) : Host.Outcome State Fault Refusal :=
  match i with
  | .rowNop r => Sys2Proof.Machine.execRowNop r s
  | .sig r => Sys2Proof.Machine.execSig r s
  | .rowTrap r => Sys2Proof.Machine.execRowTrap r s
  | .rowBrk r => Sys2Proof.Machine.execRowBrk r s
  | .flagrd r => Sys2Proof.Machine.execFlagrd r s
  | .fmtld r => Sys2Proof.Machine.execFmtld r s
  | .tagchk r => Sys2Proof.Machine.execTagchk r s
  | .iter r => Sys2Proof.Machine.execIter r s
  | .eid r => Sys2Proof.Machine.execEid r s
  | .lid r => Sys2Proof.Machine.execLid r s
  | .sid r => Sys2Proof.Machine.execSid r s
  | .tcrd r => Sys2Proof.Machine.execTcrd r s
  | .imov r => Sys2Proof.Machine.execImov r s
  | .ilui r => Sys2Proof.Machine.execIlui r s
  | .iadd r => Sys2Proof.Machine.execIadd r s
  | .isub r => Sys2Proof.Machine.execIsub r s
  | .imul r => Sys2Proof.Machine.execImul r s
  | .imulhi r => Sys2Proof.Machine.execImulhi r s
  | .imad r => Sys2Proof.Machine.execImad r s
  | .iaddsat r => Sys2Proof.Machine.execIaddsat r s
  | .isubsat r => Sys2Proof.Machine.execIsubsat r s
  | .iabs r => Sys2Proof.Machine.execIabs r s
  | .ineg r => Sys2Proof.Machine.execIneg r s
  | .imin r => Sys2Proof.Machine.execImin r s
  | .imax r => Sys2Proof.Machine.execImax r s
  | .iand r => Sys2Proof.Machine.execIand r s
  | .ior r => Sys2Proof.Machine.execIor r s
  | .ixor r => Sys2Proof.Machine.execIxor r s
  | .inot r => Sys2Proof.Machine.execInot r s
  | .ishl r => Sys2Proof.Machine.execIshl r s
  | .ishr r => Sys2Proof.Machine.execIshr r s
  | .isra r => Sys2Proof.Machine.execIsra r s
  | .irot r => Sys2Proof.Machine.execIrot r s
  | .iclz r => Sys2Proof.Machine.execIclz r s
  | .ipop r => Sys2Proof.Machine.execIpop r s
  | .ibfx r => Sys2Proof.Machine.execIbfx r s
  | .ibfi r => Sys2Proof.Machine.execIbfi r s
  | .icmpEq r => Sys2Proof.Machine.execIcmpEq r s
  | .icmpNe r => Sys2Proof.Machine.execIcmpNe r s
  | .icmpLt r => Sys2Proof.Machine.execIcmpLt r s
  | .icmpLe r => Sys2Proof.Machine.execIcmpLe r s
  | .icmpGt r => Sys2Proof.Machine.execIcmpGt r s
  | .icmpGe r => Sys2Proof.Machine.execIcmpGe r s
  | .fadd r => Sys2Proof.Machine.execFadd r s
  | .fsub r => Sys2Proof.Machine.execFsub r s
  | .fmul r => Sys2Proof.Machine.execFmul r s
  | .ffma r => Sys2Proof.Machine.execFfma r s
  | .ffms r => Sys2Proof.Machine.execFfms r s
  | .fnfma r => Sys2Proof.Machine.execFnfma r s
  | .fnfms r => Sys2Proof.Machine.execFnfms r s
  | .fmin r => Sys2Proof.Machine.execFmin r s
  | .fmax r => Sys2Proof.Machine.execFmax r s
  | .fabs r => Sys2Proof.Machine.execFabs r s
  | .fneg r => Sys2Proof.Machine.execFneg r s
  | .fcopysign r => Sys2Proof.Machine.execFcopysign r s
  | .fscale r => Sys2Proof.Machine.execFscale r s
  | .fround r => Sys2Proof.Machine.execFround r s
  | .fclass r => Sys2Proof.Machine.execFclass r s
  | .fcmpEq r => Sys2Proof.Machine.execFcmpEq r s
  | .fcmpNe r => Sys2Proof.Machine.execFcmpNe r s
  | .fcmpLt r => Sys2Proof.Machine.execFcmpLt r s
  | .fcmpLe r => Sys2Proof.Machine.execFcmpLe r s
  | .fcmpGt r => Sys2Proof.Machine.execFcmpGt r s
  | .fcmpGe r => Sys2Proof.Machine.execFcmpGe r s
  | .fcmpUn r => Sys2Proof.Machine.execFcmpUn r s
  | .fcmpOrd r => Sys2Proof.Machine.execFcmpOrd r s
  | .frcp r => Sys2Proof.Machine.execFrcp r s
  | .frsq r => Sys2Proof.Machine.execFrsq r s
  | .fsqrt r => Sys2Proof.Machine.execFsqrt r s
  | .fdiv r => Sys2Proof.Machine.execFdiv r s
  | .fexp2 r => Sys2Proof.Machine.execFexp2 r s
  | .flog2 r => Sys2Proof.Machine.execFlog2 r s
  | .ftanh r => Sys2Proof.Machine.execFtanh r s
  | .cvt r => Sys2Proof.Machine.execCvt r s
  | .packF32 r => Sys2Proof.Machine.execPackF32 r s
  | .packN8 r => Sys2Proof.Machine.execPackN8 r s
  | .unpackF32 r => Sys2Proof.Machine.execUnpackF32 r s
  | .unpackN8 r => Sys2Proof.Machine.execUnpackN8 r s
  | .quant r => Sys2Proof.Machine.execQuant r s
  | .fexp8 r => Sys2Proof.Machine.execFexp8 r s
  | .itof r => Sys2Proof.Machine.execItof r s
  | .ftoi r => Sys2Proof.Machine.execFtoi r s
  | .pselTag r => Sys2Proof.Machine.execPselTag r s
  | .pselPred r => Sys2Proof.Machine.execPselPred r s
  | .pand r => Sys2Proof.Machine.execPand r s
  | .por r => Sys2Proof.Machine.execPor r s
  | .pxor r => Sys2Proof.Machine.execPxor r s
  | .pnot r => Sys2Proof.Machine.execPnot r s
  | .pset r => Sys2Proof.Machine.execPset r s
  | .pmovPred r => Sys2Proof.Machine.execPmovPred r s
  | .pmovVecToPred r => Sys2Proof.Machine.execPmovVecToPred r s
  | .pmovPredToVec r => Sys2Proof.Machine.execPmovPredToVec r s
  | .pany r => Sys2Proof.Machine.execPany r s
  | .pall r => Sys2Proof.Machine.execPall r s
  | .lrot r => Sys2Proof.Machine.execLrot r s
  | .lbcast r => Sys2Proof.Machine.execLbcast r s
  | .lshuf r => Sys2Proof.Machine.execLshuf r s
  | .lredAdd r => Sys2Proof.Machine.execLredAdd r s
  | .lredMax r => Sys2Proof.Machine.execLredMax r s
  | .lredMin r => Sys2Proof.Machine.execLredMin r s
  | .lscanAdd r => Sys2Proof.Machine.execLscanAdd r s
  | .lzip r => Sys2Proof.Machine.execLzip r s
  | .lunzip r => Sys2Proof.Machine.execLunzip r s
  | .sld r => Sys2Proof.Machine.execSld r s
  | .sst r => Sys2Proof.Machine.execSst r s
  | .gadr r => Sys2Proof.Machine.execGadr r s
  | .qpop r => Sys2Proof.Machine.execQpop r s
  | .qpeek r => Sys2Proof.Machine.execQpeek r s
  | .qpush r => Sys2Proof.Machine.execQpush r s
  | .qtx r => Sys2Proof.Machine.execQtx r s
  | .mmaBf16 r => Sys2Proof.Machine.execMmaBf16 r s
  | .mmaF16 r => Sys2Proof.Machine.execMmaF16 r s
  | .mmaF8 r => Sys2Proof.Machine.execMmaF8 r s
  | .mmc r => Sys2Proof.Machine.execMmc r s
  | .mmcCh r => Sys2Proof.Machine.execMmcCh r s
  | .accz r => Sys2Proof.Machine.execAccz r s
  | .accrd r => Sys2Proof.Machine.execAccrd r s
  | .accwr r => Sys2Proof.Machine.execAccwr r s
  | .xcvt r => Sys2Proof.Machine.execXcvt r s
  | .cmerge r => Sys2Proof.Machine.execCmerge r s
  | .xmerge r => Sys2Proof.Machine.execXmerge r s
  | .xld r => Sys2Proof.Machine.execXld r s
  | .xst r => Sys2Proof.Machine.execXst r s
  | .mchk r => Sys2Proof.Machine.execMchk r s
  | .mbnd r => Sys2Proof.Machine.execMbnd r s
  | .xcfg r => Sys2Proof.Machine.execXcfg r s
  | .stepNop t => Sys2Proof.Machine.execStepNop t s
  | .go target => Sys2Proof.Machine.execGo target s
  | .goIndirect a => Sys2Proof.Machine.execGoIndirect a s
  | .call target => Sys2Proof.Machine.execCall target s
  | .ret => Sys2Proof.Machine.execRet s
  | .endStep status => Sys2Proof.Machine.execEndStep status s
  | .waitt mask t => Sys2Proof.Machine.execWaitt mask t s
  | .waits mask all t => Sys2Proof.Machine.execWaits mask all t s
  | .stepTrap code => Sys2Proof.Machine.execStepTrap code s
  | .yield t => Sys2Proof.Machine.execYield t s
  | .sys svc t => Sys2Proof.Machine.execSys svc t s
  | .stepBrk code t => Sys2Proof.Machine.execStepBrk code t s
  | .kset d hi imm t => Sys2Proof.Machine.execKset d hi imm t s
  | .kmov d src t => Sys2Proof.Machine.execKmov d src t s
  | .kadd d a y t => Sys2Proof.Machine.execKadd d a y t s
  | .ksub d a y t => Sys2Proof.Machine.execKsub d a y t s
  | .kmul d a y t => Sys2Proof.Machine.execKmul d a y t s
  | .kand d a y t => Sys2Proof.Machine.execKand d a y t s
  | .kor d a y t => Sys2Proof.Machine.execKor d a y t s
  | .kxor d a y t => Sys2Proof.Machine.execKxor d a y t s
  | .kshl d a y t => Sys2Proof.Machine.execKshl d a y t s
  | .kshr d a y t => Sys2Proof.Machine.execKshr d a y t s
  | .kmin d a y t => Sys2Proof.Machine.execKmin d a y t s
  | .kmax d a y t => Sys2Proof.Machine.execKmax d a y t s
  | .kdec d t => Sys2Proof.Machine.execKdec d t s
  | .aset d hi imm t => Sys2Proof.Machine.execAset d hi imm t s
  | .amov d src t => Sys2Proof.Machine.execAmov d src t s
  | .aadd d a y t => Sys2Proof.Machine.execAadd d a y t s
  | .amad d a b imm t => Sys2Proof.Machine.execAmad d a b imm t s
  | .ald d a sz off t => Sys2Proof.Machine.execAld d a sz off t s
  | .ast b a wide off t => Sys2Proof.Machine.execAst b a wide off t s
  | .vpl vs cm1 t => Sys2Proof.Machine.execVpl vs cm1 t s
  | .run first nvm1 kw kb ksel l t => Sys2Proof.Machine.execRun first nvm1 kw kb ksel l t s
  | .park wait t => Sys2Proof.Machine.execPark wait t s
  | .fmtset n desc t => Sys2Proof.Machine.execFmtset n desc t s
  | .qset q kb szm1 ent l t => Sys2Proof.Machine.execQset q kb szm1 ent l t s
  | .sopen n vs out q a l t => Sys2Proof.Machine.execSopen n vs out q a l t s
  | .sclose n abort wait l t => Sys2Proof.Machine.execSclose n abort wait l t s
  | .sbar mask scope l t => Sys2Proof.Machine.execSbar mask scope l t s
  | .spos d n t => Sys2Proof.Machine.execSpos d n t s
  | .copy a l t => Sys2Proof.Machine.execCopy a l t s
  | .copyc n a l t => Sys2Proof.Machine.execCopyc n a l t s
  | .copycResume n l t => Sys2Proof.Machine.execCopycResume n l t s
  | .binit b c scope t => Sys2Proof.Machine.execBinit b c scope t s
  | .barr b t => Sys2Proof.Machine.execBarr b t s
  | .bexp b n outb t => Sys2Proof.Machine.execBexp b n outb t s
  | .bwait b g t => Sys2Proof.Machine.execBwait b g t s
  | .hpost q src t => Sys2Proof.Machine.execHpost q src t s
  | .htake d q t => Sys2Proof.Machine.execHtake d q t s
  | .trig t => Sys2Proof.Machine.execTrig t s
  | .fence kind scope t => Sys2Proof.Machine.execFence kind scope t s
  | .atom op wide d a b c off t => Sys2Proof.Machine.execAtom op wide d a b c off t s
  | .coll a l t => Sys2Proof.Machine.execColl a l t s
  | .cnopen region hnd m t => Sys2Proof.Machine.execCnopen region hnd m t s
  | .cnclose region t => Sys2Proof.Machine.execCnclose region t s
  | .tick d src t => Sys2Proof.Machine.execTick d src t s
  | .capq d sel t => Sys2Proof.Machine.execCapq d sel t s
  | .perf d ev clr t => Sys2Proof.Machine.execPerf d ev clr t s
  | .flagsq d clr t => Sys2Proof.Machine.execFlagsq d clr t s
  | .stepWaitComplete g => Sys2Proof.Machine.execStepWaitComplete g s
  | .startCommandBegin g => Sys2Proof.Machine.execStartCommandBegin g s
  | .startCycleResolved g n => Sys2Proof.Machine.execStartCycleResolved g n s
  | .instanceEntry g ps col => Sys2Proof.Machine.execInstanceEntry g ps col s
  | .hoist g => Sys2Proof.Machine.execHoist g s
  | .configRecordFetch g vs => Sys2Proof.Machine.execConfigRecordFetch g vs s
  | .strike g ps => Sys2Proof.Machine.execStrike g ps s
  | .stripeFree g h => Sys2Proof.Machine.execStripeFree g h s
  | .holdResume g => Sys2Proof.Machine.execHoldResume g s
  | .holdLimitFault g => Sys2Proof.Machine.execHoldLimitFault g s
  | .matrixGate g ps col => Sys2Proof.Machine.execMatrixGate g ps col s
  | .streamVisit g n => Sys2Proof.Machine.execStreamVisit g n s
  | .bridgeSegmentReceive g n header words => Sys2Proof.Machine.execBridgeSegmentReceive g n header words s
  | .staleRefusalReplay req => Sys2Proof.Machine.execStaleRefusalReplay req s
  | .faultholdExpiry g issuer => Sys2Proof.Machine.execFaultholdExpiry g issuer s
  | .unservicedFaultEnd die ctx => Sys2Proof.Machine.execUnservicedFaultEnd die ctx s
  | .copyChannelRecordFetch g n => Sys2Proof.Machine.execCopyChannelRecordFetch g n s
  | .copyComplete id => Sys2Proof.Machine.execCopyComplete id s
  | .barrierByteDecrement id bytes poisoned => Sys2Proof.Machine.execBarrierByteDecrement id bytes poisoned s
  | .barrierArrival g => Sys2Proof.Machine.execBarrierArrival g s
  | .collectiveStart group => Sys2Proof.Machine.execCollectiveStart group s
  | .collectiveComplete group => Sys2Proof.Machine.execCollectiveComplete group s
  | .poisonConsumption g met addr => Sys2Proof.Machine.execPoisonConsumption g met addr s
  | .containmentHandlerEntry g => Sys2Proof.Machine.execContainmentHandlerEntry g s
  | .pairFrequencyChange pair mhz => Sys2Proof.Machine.execPairFrequencyChange pair mhz s
  | .pairBalance pair amps0 amps1 => Sys2Proof.Machine.execPairBalance pair amps0 amps1 s
  | .droopDetect g cycles => Sys2Proof.Machine.execDroopDetect g cycles s
  | .watchdogExpiry g => Sys2Proof.Machine.execWatchdogExpiry g s
  | .quantumExpiry g => Sys2Proof.Machine.execQuantumExpiry g s
  | .contextEnd g => Sys2Proof.Machine.execContextEnd g s
  | .completionRecordDeferredWrite q => Sys2Proof.Machine.execCompletionRecordDeferredWrite q s
  | .submissionDoorbell f q tail => Sys2Proof.Machine.execSubmissionDoorbell f q tail s
  | .completionQueueHeadWrite f q head => Sys2Proof.Machine.execCompletionQueueHeadWrite f q head s
  | .taskEntry q => Sys2Proof.Machine.execTaskEntry q s
  | .queueFence task => Sys2Proof.Machine.execQueueFence task s
  | .kill task => Sys2Proof.Machine.execKill task s
  | .dependenceRelease task dep => Sys2Proof.Machine.execDependenceRelease task dep s
  | .triggerRelease task dep => Sys2Proof.Machine.execTriggerRelease task dep s
  | .bindRecordWrite g r0 => Sys2Proof.Machine.execBindRecordWrite g r0 s
  | .slotRelease g => Sys2Proof.Machine.execSlotRelease g s
  | .gangDispatch task => Sys2Proof.Machine.execGangDispatch task s
  | .halyardSave g => Sys2Proof.Machine.execHalyardSave g s
  | .halyardSaveComplete g => Sys2Proof.Machine.execHalyardSaveComplete g s
  | .drain g => Sys2Proof.Machine.execDrain g s
  | .drainQuiescence g => Sys2Proof.Machine.execDrainQuiescence g s
  | .faultSave g => Sys2Proof.Machine.execFaultSave g s
  | .halyardRestoreComplete g => Sys2Proof.Machine.execHalyardRestoreComplete g s
  | .debugResume g => Sys2Proof.Machine.execDebugResume g s
  | .debugKill g => Sys2Proof.Machine.execDebugKill g s
  | .shootDown value => Sys2Proof.Machine.execShootDown value s
  | .shootDownComplete => Sys2Proof.Machine.execShootDownComplete s
  | .generationBump value => Sys2Proof.Machine.execGenerationBump value s
  | .generationBumpComplete => Sys2Proof.Machine.execGenerationBumpComplete s
  | .faultBufferFlush die => Sys2Proof.Machine.execFaultBufferFlush die s
  | .flushComplete die => Sys2Proof.Machine.execFlushComplete die s
  | .fbstatOvfClear die => Sys2Proof.Machine.execFbstatOvfClear die s
  | .handoffQueueConfig n value => Sys2Proof.Machine.execHandoffQueueConfig n value s
  | .auditControlWrite value => Sys2Proof.Machine.execAuditControlWrite value s
  | .auditReplay slot p q => Sys2Proof.Machine.execAuditReplay slot p q s
  | .injectionFire g => Sys2Proof.Machine.execInjectionFire g s
  | .correctedError bank => Sys2Proof.Machine.execCorrectedError bank s
  | .patrolScrub die found => Sys2Proof.Machine.execPatrolScrub die found s
  | .postPackageRepair die value => Sys2Proof.Machine.execPostPackageRepair die value s
  | .pprComplete die fail => Sys2Proof.Machine.execPprComplete die fail s
  | .capWrite src value => Sys2Proof.Machine.execCapWrite src value s
  | .pstatClear f => Sys2Proof.Machine.execPstatClear f s
  | .hostEventBaseWrite f value => Sys2Proof.Machine.execHostEventBaseWrite f value s
  | .apertureAccess f offset write data => Sys2Proof.Machine.execApertureAccess f offset write data s
  | .registerWrite who reg value => Sys2Proof.Machine.execRegisterWrite who reg value s
  | .sysPing g => Sys2Proof.Machine.execSysPing g s
  | .sysHostev g => Sys2Proof.Machine.execSysHostev g s
  | .sysSetpri g => Sys2Proof.Machine.execSysSetpri g s
  | .sysThandler g => Sys2Proof.Machine.execSysThandler g s
  | .sysQuantum g => Sys2Proof.Machine.execSysQuantum g s
  | .rdsticky => Sys2Proof.Machine.execRdsticky s
  | .clrsticky => Sys2Proof.Machine.execClrsticky s
  | .setcap value => Sys2Proof.Machine.execSetcap value s
  | .setfloor it value => Sys2Proof.Machine.execSetfloor it value s
  | .reset => Sys2Proof.Machine.execReset s
  | .recover image => Sys2Proof.Machine.execRecover image s
  | .attest nonce => Sys2Proof.Machine.execAttest nonce s
  | .freeze => Sys2Proof.Machine.execFreeze s
  | .readout g => Sys2Proof.Machine.execReadout g s
  | .injen on => Sys2Proof.Machine.execInjen on s
  | .lcstate target token => Sys2Proof.Machine.execLcstate target token s
  | .unlock token => Sys2Proof.Machine.execUnlock token s
  | .pcfg value => Sys2Proof.Machine.execPcfg value s
  | .pldmSensorRead sensor => Sys2Proof.Machine.execPldmSensorRead sensor s
  | .pldmFirmwareUpdate image => Sys2Proof.Machine.execPldmFirmwareUpdate image s
  | .coldReset => Sys2Proof.Machine.execColdReset s
  | .eosenFatalError => Sys2Proof.Machine.execEosenFatalError s
  | .functionLevelReset f => Sys2Proof.Machine.execFunctionLevelReset f s
  | .linkDown f => Sys2Proof.Machine.execLinkDown f s
  | .linkRetrain f => Sys2Proof.Machine.execLinkRetrain f s
  | .kamvaFlitReplay port => Sys2Proof.Machine.execKamvaFlitReplay port s
  | .thermalThrottle die celsius mhz => Sys2Proof.Machine.execThermalThrottle die celsius mhz s
  | .thermalTrip die sensor code => Sys2Proof.Machine.execThermalTrip die sensor code s
  | .memoryAccessPerformed req scope => Sys2Proof.Machine.execMemoryAccessPerformed req scope s
  | .kamvaLinkDown port => Sys2Proof.Machine.execKamvaLinkDown port s
  | .kamvaLinkUp port => Sys2Proof.Machine.execKamvaLinkUp port s
  | .kamvaInboundRequest req => Sys2Proof.Machine.execKamvaInboundRequest req s
  | .mainRailsDown => Sys2Proof.Machine.execMainRailsDown s
  | .auditRingTimeout slot => Sys2Proof.Machine.execAuditRingTimeout slot s
  | .yieldDecision g => Sys2Proof.Machine.execYieldDecision g s

end Sys2Proof.Machine
end

