-- ==== Sys2Proof/Machine/Cycle.lean ====
section
/-!
DEFINITION. One ring cycle (spec/05 R76, R85, R86, spec/11 R183, spec/13 R232 to R239 and R247, spec/19 R352): what lands at
its start, the units that run beside the rows, the strikes and hoists that fall in it, its end, and the settling of results
that were under way at a fault.
-/

namespace Sys2Proof.Machine

open Sys2Proof

/-- What a meaning does when its event is due; nothing when it is not. -/
def happen (f : State → Host.Outcome State Fault Refusal) (s : State) : State :=
  match f s with
  | .next t => t
  | _ => s

/-- Physical stripes: the occupied ones in the order of their hoists, then the others. -/
def Ring.byHoist (r : Ring) : List Nat :=
  let occ := (List.range 16).filterMap fun ps => (r.stripe ps).occ.map fun o => (o.h, ps)
  (occ.foldr (insertBy Prod.fst) []).map Prod.snd ++ (List.range 16).filter fun ps => (r.stripe ps).occ.isNone

/-- Every element of a ring as stripe and column, stripes in the order of their hoists. -/
def Ring.places (r : Ring) : List (Nat × Nat) := r.byHoist.flatMap fun ps => (List.range 8).map fun k => (ps, k)

/-! ### Results that land (R183) -/

/-- A result that lands in its element: flags, predicate, and a destination of the element itself. -/
def landElement (p : Pend) (e : Element) : Element :=
  let e := { e with flagsNew := e.flagsNew ||| p.flags }
  let e := match p.pred with
    | some (n, w) => if n = 0 then e else { e with p := tset e.p n w }
    | none => e
  let lanes := maskList p.mask
  match p.dst with
  | .v n => { e with v := tset e.v n p.val, vt := tset e.vt n p.tag }
  | .x n => { e with x := tset e.x n p.val, xt := tset e.xt n p.tag }
  | .e => { e with e := p.val, et := p.tag }
  | .po m => { e with po := tset e.po m p.val, pot := tset e.pot m p.tag }
  | .bank n => e.clearBank n
  | .bankCells n h => { e with acc := lanes.foldl (fun t l => tset t (256 * n + 32 * h + l) (p.val.lane l)) e.acc }
  | .check n col =>
    let ls := lanes.filter fun l => l < 16
    if col then { e with ckc := ls.foldl (fun t l => tset t (16 * n + l) (p.val.lane l)) e.ckc }
    else { e with ckr := ls.foldl (fun t l => tset t (16 * n + l) (p.val.lane l)) e.ckr }
  | .counters n => e.clearCb n
  | .xaClear => { e with xa := [] }
  | .xaWeight l => { e with lexp := l }
  | .none | .push _ _ _ _ | .lane _ _ _ | .store _ _ _ => e

/-- A push that completes now (R76, R223): its word is stored and charged, and a pop sees it two cycles later; a full queue
holds the ring. A word issued at or after an unwinding's cycle is poisoned (R316). -/
def landPush (r : Ring) (ps : Nat) (v : Vec) (mask : W32) (down : Bool) (q : Nat) (lr ls : Bool) (issued : Nat) : Ring :=
  let blk := r.blockOf ps down
  match r.queue q with
  | none => r.ask (r.pushCause blk q)
  | some c =>
    let st := r.qstate blk q
    if st.full c then r.ask (r.pushCause blk q)
    else
      let m : QMeta :=
        { lr := lr, ls := ls, mask := mask, vis := r.ctx.rcyc + 2, poison := if r.poisonFrom issued then 3 else 0, line := 0,
          swz := false }
      (r.useBank blk (c.word st.tail) false).pushWord blk q c v m

/-- REACH of the record in a stripe (R73). -/
def Ring.reach (r : Ring) (ps : Nat) : Nat := (r.stripe ps).record.elim 0 recReach

/-- One result of the element in column k of stripe ps lands; a write to `e` by column 7 is discarded (R69), and a store issued at or
after an unwinding's cycle (R316). A lane word that is a bubble has a payload of zero (R82). -/
def landPend (ps k : Nat) (r : Ring) (p : Pend) : Ring :=
  let r := if k = 7 ∧ p.dst = .e then r else r.onElem ps k (landElement p)
  match p.dst with
  | .push down q lr ls => landPush r ps p.val p.mask down q lr ls p.issued
  | .lane l lr ls =>
    { r with
      lanes := { lane := l, col := k, pos := r.lanePos ps, born := r.ctx.tc, reach := r.reach ps,
                 val := if !lr && ls then Vec.zero else p.val, tag := p.tag, lr := lr, ls := ls } :: r.lanes }
  | .store down w swz =>
    if r.poisonFrom p.issued then r.poisonWord (r.blockOf ps down) w swz p.mask else r.putWord (r.blockOf ps down) w swz p.val p.mask
  | _ => r

/-- Whether a result goes to a queue, which takes what one cycle gives it in the order of R228. -/
def Pend.ordered (p : Pend) : Bool :=
  match p.dst with
  | .push _ _ _ _ => true
  | _ => false

/-- Whether a result is a store. -/
def Pend.stores (p : Pend) : Bool :=
  match p.dst with
  | .store _ _ _ => true
  | _ => false

/-- The places in SRAM of the words that a store of the element in stripe ps writes, with the lane of each. -/
def Pend.storePlaces (r : Ring) (ps : Nat) (p : Pend) : List (Nat × Nat) :=
  match p.dst with
  | .store down w swz =>
    (maskList p.mask).map fun l => (l, r.blockOf ps down * Config.blockBytes + placeOf swz ((128 * w + 4 * l) % Config.blockBytes))
  | _ => []

/-- The TC of the issue that R226 orders a store by: word k of an `xst`, which is charged k cycles after its row (R247), stands at that
cycle, which its `tag` counts. -/
def Pend.storeTc (p : Pend) : Nat := p.issued + p.tag.toNat

/-- A store under way loses the lanes whose bytes are among `places`. -/
def Pend.yields (r : Ring) (ps : Nat) (places : List Nat) (p : Pend) : Pend :=
  { p with mask := ((p.storePlaces r ps).filter fun x => places.contains x.2).foldl (fun m x => setBit m x.1 false) p.mask }

/-- A store that lands before one issued earlier takes its bytes from it: the later issue wins, and of one cycle the later place in the
order of stripes and columns (R226, R78). Such an earlier store is one that awaited `up` (R184). -/
def overrule (at_ : Nat × Nat) (p : Pend) (r : Ring) : Ring :=
  let order := r.places
  let places := (p.storePlaces r at_.1).map Prod.snd
  let first := order.takeWhile fun x => x != at_
  order.foldl (fun r x =>
    let earlier (q : Pend) : Bool :=
      q.stores && (decide (q.storeTc < p.storeTc) || (q.storeTc == p.storeTc && first.contains x))
    if (r.elem x.1 x.2).pend.any earlier then
      r.onElem x.1 x.2 fun e => { e with pend := e.pend.map fun q => if earlier q then q.yields r x.1 places else q }
    else r) r

/-- One result that is due lands. -/
def landNext (at_ : Nat × Nat) (r : Ring) (p : Pend) : Ring :=
  let r := r.landSaved at_.1 at_.2 (p.flags != 0 && r.issuerSaved p.issued) fun r => landPend at_.1 at_.2 r p
  if p.stores then overrule at_ p r else r

/-- The results of an element due by TC `tc` that satisfy a test land. -/
def landWhere (f : Pend → Bool) (tc : Nat) (r : Ring) (at_ : Nat × Nat) : Ring :=
  let e := r.elem at_.1 at_.2
  let now (p : Pend) : Bool := decide (p.due ≤ tc) && f p
  if e.pend.any now then
    (e.pend.filter now).foldl (landNext at_) (r.onElem at_.1 at_.2 fun e => { e with pend := e.pend.filter fun p => !now p })
  else r

/-- Everything of an element that is due lands but what enters a queue. -/
def landAt (r : Ring) (at_ : Nat × Nat) : Ring :=
  (landWhere (fun p => !p.ordered) r.ctx.tc r at_).landTiles at_.1 at_.2 r.ctx.tc

/-! ### The transpose path (R232, R233) -/

/-- A containment fault of a unit that runs beside the rows (R315), at the place of its row. -/
def unitPoison (r : Ring) (g ps k vs slot ent cls addr : Nat) : FaultRec :=
  { addr := BitVec.ofNat 64 addr, tc := r.ctx.tc, info := 0, ctx := r.ctx.id, code := cls, asid := r.ctx.asid, ring := g,
    region := 0, gen := 0, cls := 7, locStripe := true, si := 0, vs := vs, slot := slot, col := k, ent := ent, prodctx := 0,
    issuer := 0, pstr := ps }

/-- Output word j: input column j, value (i, j) at bytes e x i (R232). -/
def QtxOp.word (o : QtxOp) (j : Nat) : Vec :=
  let v := 16 / o.esize
  vecOfBytes ((List.range o.rows).flatMap fun i =>
    ((vecBytes (o.words.getD (j / v * v + i % v) Vec.zero)).drop (16 * (i / v) + o.esize * (j % v))).take o.esize)

/-- The ensign of the transposed tile (R233). -/
def QtxOp.outEnsign (o : QtxOp) : Ensign :=
  let e := setBits (setBits o.ensign 16 8 (o.cols - 1)) 24 8 (o.rows - 1)
  let e := setBits e 60 4 (if o.olay then 2 else 0)
  let e := setBits e 56 4 (match enSmode o.ensign with | 1 => 2 | 2 => 1 | 3 => 4 | 4 => 3 | m => m)
  if enCrcp o.ensign then
    setBits e 128 32 (crc32c ((List.range o.cols).flatMap fun j => vecBytes (o.word j)))
  else e

/-- A later read cycle of a `qtx`. -/
def qtxReadAt (r : Ring) (g ps k : Nat) (o : QtxOp) (n : Nat) : Ring × List FaultRec :=
  let blk := r.blockOf ps o.srcDown
  match r.queue o.src, (r.qstate blk o.src).entry o.pos with
  | some c, some m =>
    let t := r.tileAt blk c o.pos m
    let x := qtxRead r t o.esize o.cols n
    let r2 := x.1.onElem ps k fun e => { e with qtx := some { o with words := o.words ++ [x.2] } }
    (r2, if qtxPoisoned r t o.esize o.cols n then
      [unitPoison r g ps k o.vs o.slot o.ent 2 (blk * Config.blockBytes + 128 * t.word)] else [])
  | _, _ => (r, [])

/-- Output word j pushed (R232, R233): an entry of a word queue with sideband (1, 0), or part of one tile entry, reserved by
word 0 and visible when whole. -/
def qtxPush (r : Ring) (ps k : Nat) (o : QtxOp) (j : Nat) : Ring :=
  let blk := r.blockOf ps o.dstDown
  match r.queue o.dst with
  | none => r.ask (r.pushCause blk o.dst)
  | some c =>
    if !c.tile then landPush r ps (o.word j) allTags o.dstDown o.dst true false o.start
    else
      let st := r.qstate blk o.dst
      if o.dpos.isNone ∧ st.full c then r.ask (r.pushCause blk o.dst)
      else
        let pos := o.dpos.getD st.tail
        let head := 32 + o.scale.length
        let w0 := 128 * c.word pos
        let st := if o.dpos.isNone then { st with tail := st.tail + 1 } else st
        let r := (r.setQ blk o.dst st).onElem ps k fun e => { e with qtx := some { o with dpos := some pos } }
        let lo := head + 128 * j
        let r := r.useBanks blk (c.word pos + lo / 128) o.olay ((lo + 127) / 128 - lo / 128 + 1)
        let r := r.spadWrite blk (w0 + lo) o.olay (vecBytes (o.word j))
        if j + 1 < o.cols then r
        else
          let r := r.useBanks blk (c.word pos) o.olay ((head - 1) / 128 + 1)
          let r := r.spadWrite blk w0 o.olay (bytesOf o.outEnsign ++ o.scale)
          let st := r.qstate blk o.dst
          r.setQ blk o.dst
            { st with
              info := tset st.info pos
                { lr := false, ls := false, mask := allTags, vis := r.ctx.rcyc + 2, poison := if r.poisonFrom o.start then 3 else 0,
                  line := 0, swz := o.olay } }

/-- The transpose path of an element reads in this cycle. -/
def qtxCycle (r : Ring) (g ps k : Nat) : Ring × List FaultRec :=
  match (r.elem ps k).qtx with
  | none => (r, [])
  | some o =>
    let n := r.ctx.tc - o.start
    if 1 ≤ n ∧ n < o.cols then qtxReadAt r g ps k o n else (r, [])

/-- What an element pushes in this cycle (R228): results of rows, then the transpose path's word. -/
def pushAt (r : Ring) (at_ : Nat × Nat) : Ring :=
  let r := landWhere Pend.ordered r.ctx.tc r at_
  match (r.elem at_.1 at_.2).qtx with
  | none => r
  | some o =>
    let n := r.ctx.tc - o.start
    let v := 16 / o.esize
    if v + 4 ≤ n then qtxPush r at_.1 at_.2 o (n - v - 4) else r

/-- What an element's units let go at the start of this cycle: tiles whose repetitions are over (R235), and the tile that a
transpose has read whole (R232). -/
def retireAt (r : Ring) (at_ : Nat × Nat) : Ring :=
  let r := tilePop r at_.1 at_.2
  match (r.elem at_.1 at_.2).qtx with
  | none => r
  | some o =>
    let blk := r.blockOf at_.1 o.srcDown
    if o.busyTill ≤ r.ctx.tc then r.onElem at_.1 at_.2 fun e => { e with qtx := none }
    else if r.ctx.tc - o.start = o.cols then r.setQ blk o.src ((r.qstate blk o.src).pop o.pos)
    else r

/-! ### Multi-word accesses to `xa` (R247) -/

/-- One such access in this cycle: the word it reads, or the word that an `xst` is charged for. -/
def xopCycle (g ps k : Nat) (a : Ring × List FaultRec) (o : XOp) : Ring × List FaultRec :=
  let (r, fs) := a
  let n := r.ctx.tc - o.start
  if r.ctx.tc ≤ o.start then (r.onElem ps k fun e => { e with xops := e.xops ++ [o] }, fs)
  else if o.kind = 2 then
    let r := r.useBank (r.blockOf ps o.down) ((o.word + n) % 16384) o.swz
    (if n < 23 then r.onElem ps k fun e => { e with xops := e.xops ++ [o] } else r, fs)
  else
    let blk := r.blockOf ps o.down
    let w := (o.word + n) % 16384
    let bad := r.spadPoisoned blk (128 * w) 128 o.swz
    let (r, bs) := xopWord r ps o n
    let o := { o with bytes := o.bytes ++ bs }
    (if n < 23 then r.onElem ps k fun e => { e with xops := e.xops ++ [o] }
      else r.addLand ps k o.start (o.start + 28, .xload (o.kind == 1) o.bytes),
      if bad then fs ++ [unitPoison r g ps k o.vs o.slot o.ent 2 (blk * Config.blockBytes + 128 * w)] else fs)

/-- The accesses of an element in this cycle. -/
def xopsCycle (r : Ring) (g ps k : Nat) : Ring × List FaultRec :=
  match (r.elem ps k).xops with
  | [] => (r, [])
  | os => os.foldl (xopCycle g ps k) (r.onElem ps k fun e => { e with xops := [] }, [])

/-- The units of an element that run beside its rows: the matrix sequencer, the transpose path and the accesses to `xa`. A
fault that one finds is kept with its column. -/
def unitsAt (g : Nat) (a : Ring × List (Nat × FaultRec)) (at_ : Nat × Nat) : Ring × List (Nat × FaultRec) :=
  let (ps, k) := at_
  let (r, f1) : Ring × List FaultRec :=
    match tileCycle a.1 g ps k with
    | .ok r => (r, [])
    | .hold c => (a.1.ask c, [])
    | .fault r f => (r.onElem ps k fun e => { e with tile := none }, [f])
    | .poison r cls addr =>
      match (r.elem ps k).tile with
      | some o => (r, [unitPoison r g ps k o.vs o.slot o.ent cls addr])
      | none => (r, [])
  let (r, f2) := qtxCycle r g ps k
  let (r, f3) := xopsCycle r g ps k
  (r, a.2 ++ (f1 ++ f2 ++ f3).map fun f => (k, f))

/-- What is over at the start of the cycle at a ring's TC: entries are freed and results land. -/
def prepareLands (r : Ring) : Ring := r.places.foldl landAt (r.places.foldl retireAt r)

/-- What enters the queues and works beside the rows in the cycle: pushes in the order of R228, then the units. -/
def prepareUnits (r : Ring) (g : Nat) : Ring × List (Nat × FaultRec) :=
  let at_ := r.places
  at_.foldl (unitsAt g) (at_.foldl pushAt r, [])

/-- What happens inside the elements of a ring in the cycle at its TC before any row. -/
def prepareRing (r : Ring) (g : Nat) : Ring × List (Nat × FaultRec) := prepareUnits (prepareLands r) g

/-! ### Strikes, frees and hoists (R91 to R96, R162) -/

/-- The strikes that fall in this cycle. -/
def strikesDue (s : State) (g : Nat) : State :=
  (List.range 16).foldl (fun s ps =>
    match occLog s g ps with
    | some (o, x, rc) => if !o.struck ∧ x.strike ≤ (s.ctx g).tc then strikeStripe s g ps o rc else s
    | none => s) s

/-- The saves that end in this cycle. -/
def freesDue (s : State) (g : Nat) : State :=
  (s.ctx g).hlog.foldl (fun s x => if x.freed then s else happen (execStripeFree g x.h) s) s

/-- The RAS events of the self-checks that have failed (R362), which Eosen takes as evidence against the ring as it takes an audit
deviation: a fence on the operations of the record at fault (R370). -/
def postSus (s : State) (g : Nat) : State :=
  (s.ring g).susNew.foldl (fun s x =>
    raiseFence (s.rasEvent 7 0 x.2.2 (s.ctx g).id g 15 x.1 x.2.1) g (((s.ring g).stripe x.1).record.elim 0 recOpmask))
    (s.onRing g fun r => { r with susNew := [] })

/-- The pushes and the units of a cycle, run after the commands and the step. -/
def runUnits (s : State) (g : Nat) : State := postSus (s.setRing g (prepareUnits (s.ring g) g).1) g

/-- The cycle's part before anything issues, with the faults found at columns: all of it, or, when a `qset` may take effect in the cycle,
what comes before the pushes and the units, which use the new configuration (R165). -/
def prepareCycle (s : State) (g : Nat) (late : Bool) : State × List (Nat × FaultRec) :=
  let x : Ring × List (Nat × FaultRec) := if late then (prepareLands (s.ring g), []) else prepareRing (s.ring g) g
  let s := postSus (s.setRing g x.1) g
  let s : State := match (s.ctx g).unwinding with
    | some u => unwindStart s g u
    | none => s
  let s := freesDue (strikesDue (knowTimes s g) g) g
  let s := if restoreWaits s g then askHold s g 3 else if restoreBad s g then restoreFails s g else s
  ((hoistEvent (knowTimes s g) g).getD (knowTimes s g), x.2)

/-! ### The end of a cycle -/

/-- Flags that land in this cycle join their element's word, or the context's when its stripe has been struck (R51). -/
def settleFlags (r : Ring) (at_ : Nat × Nat) : Ring :=
  let e := r.elem at_.1 at_.2
  if e.flagsNew = 0 then r
  else
    let w := e.flagsNew
    if (r.stripe at_.1).occ.any fun o => !o.struck then
      r.onElem at_.1 at_.2 fun e => { e with flags := e.flags ||| w, flagsNew := 0 }
    else { r with ctx := { r.ctx with flagw := r.ctx.flagw ||| w } }.onElem at_.1 at_.2 fun e => { e with flagsNew := 0 }

/-- Idle counts, gating (R240) and closed write windows of an element. -/
def endElement (r : Ring) (at_ : Nat × Nat) : Ring :=
  let e := r.elem at_.1 at_.2
  let tc := r.ctx.tc
  let idle := (r.stripe at_.1).occ.isSome && e.tile.isNone
  if !idle && e.wins.isEmpty then r
  else
    r.onElem at_.1 at_.2 fun e =>
      { e with idle := if idle then e.idle + 1 else e.idle, wins := e.wins.filter fun w => tc + 1 < w.till }

/-- Whether a ring runs below the nominal clock (R321 EV 15). -/
def slowClock (s : State) (g : Nat) : Bool :=
  decide (tget s.hub.pairf (pairOf g) Config.nominalMHz < Config.nominalMHz) || decide (0 < (s.ring g).stretch) || s.pairStretched (pairOf g)

/-- The counts of a ring cycle in which a context is bound (R321). -/
def countCycle (s : State) (g : Nat) (c : Ctx) : Ctx :=
  let c := c.addEv 0 1
  if slowClock s g then c.addEv 15 1 else c

/-- What ends with the cycle at TC. -/
def closeCycle (s : State) (g : Nat) : State :=
  let at_ := (s.ring g).places
  let s := s.onRing g fun r =>
    let r := at_.foldl endElement (at_.foldl settleFlags (r.meetFlaws r.usedChunk))
    let tc := r.ctx.tc
    { r with
      lanes := r.lanes.filter fun w => tc + 1 ≤ w.born + 2 * w.reach, bankServed := 0, holdAsk := 0 }
  let s := s.onCtx g fun c =>
    let rows := (c.fslotNew.filter fun x => x.2.2.isSome).foldr (insertBy fun x => x.2.2.getD 0) []
    let slots := rows ++ c.fslotNew.filter fun x => x.2.2.isNone
    countCycle s g
      { c with
        fslots := slots.foldl (fun t x => tset t x.1 x.2.1) c.fslots, fslotNew := [],
        flagw := c.flagw ||| c.flagwNew, flagwNew := 0,
        dividers := c.dividers.filter fun d => d.streams.isNone || dividerBlocks s g c.id d, faultPref := none,
        brkResume := none }
  at_.foldl (fun s x => happen (execMatrixGate g x.1 x.2) s) s

/-- The stores performed at the end of this cycle, which a load sees in the next (R226, R247). -/
def landStores (r : Ring) : Ring := r.places.foldl (landWhere Pend.stores (r.ctx.tc + 1)) r

/-- An injection that is due put after everything that lands in this cycle, the engines' and the fabric's accesses among it (R372). -/
def injectLast (s : State) (g : Nat) : State :=
  if injectDue (s.ring g) then
    let now := s.agenda.takeWhile fun w => w != .firmware
    { s with agenda := now ++ .inject g :: s.agenda.drop now.length }
  else s

/-- The end of a ring cycle; a watchdog's fault cuts nothing of it (R340). -/
def endCycle (s : State) (g : Nat) : State :=
  if !(s.ring g).bound || (s.ctx g).fault.any (fun f => f.cls != 10) then s
  else injectLast (closeCycle (s.onRing g landStores) g) g

/-! ### After a fault (R352) -/

/-- Whether an element still has a result to land or a unit at work. -/
def Element.busy (e : Element) : Bool :=
  !e.pend.isEmpty || !e.lands.isEmpty || !e.lateLands.isEmpty || e.tile.isSome || e.qtx.isSome || !e.xops.isEmpty

/-- Whether anything of the rows issued before a cut is still to take effect. -/
def Ring.unsettled (r : Ring) : Bool := r.stripes.any fun st => st.2.elems.any fun e => e.2.busy

/-- Whether a fault is precise (R352): not a watchdog's, a hold limit's, a translation's but for the alignment of a step (R158), nor an
engine's barrier fault. -/
def preciseFault (f : FaultRec) : Bool :=
  f.cls != 10 && !(f.cls == 3 && f.code != 3) && !(f.cls == 2 && f.code == 2) && !(f.cls == 6 && f.issuer != 49)

/-- Results issued before the cut land in the cycles in which they fall due, although TC stands; one that would hold stays. -/
def settleFrom (g : Nat) : Nat → Nat → Ring → Ring
  | 0, _, r => r
  | n + 1, t, r =>
    if !r.unsettled then r
    else
      let tc := r.ctx.tc
      let x := (prepareRing { r with ctx := { r.ctx with tc := t }, bankUse := [], holdAsk := 0 } g).1
      if x.holdAsk ≠ 0 then r
      else settleFrom g n (t + 1) (x.places.foldl settleFlags { x with ctx := { x.ctx with tc := tc }, bankUse := [] })

/-- The state at a precise fault made whole (R352). -/
def settleFault (s : State) (g : Nat) : State :=
  if ((s.ctx g).fault.any preciseFault) && (s.ring g).unsettled then
    postSus (s.onRing g fun r => settleFrom g 2048 (r.ctx.tc + 1) r) g
  else s

end Sys2Proof.Machine
end

