-- ==== Sys2Proof/Machine/Firmware.lean ====
section
/-!
DEFINITION. The parts of the module that act beside the ring cycles: the engines of a ring (spec/09 R166 to R182), the memory
fabric (spec/15 R275 to R281), and Eosen (spec/19 R323 to R353, spec/21 R363 to R370). None has a stated pace: each takes a
chance that `Config.ready` answers (log 8).
-/

namespace Sys2Proof.Machine

open Sys2Proof

/-- A unit's chance to act: a free value says whether it does now. -/
def chance (f : State → State) (s : State) : State :=
  let n := s.freeCtr
  let s := s.tickFree
  if Config.ready n then f s else s

/-! ### The engines of a ring -/

/-- A stream's chance. While the context drains (R348) an input only delivers; while it stops for a save (R341) a gather
stream goes on with its buffer and the others only deliver. -/
def streamChance (s : State) (g n : Nat) : State :=
  let x := (s.ctx g).stream n
  let deliver (s : State) : State := match deliverable s g n with
    | some q => deliverInput s g n q
    | none => s
  let gather := sdMode x.desc == 1 && x.supplied (s.ctx g).tc
  match (s.ring g).slotState with
  | .saving =>
    (match (s.ring g).saving with
    | .waitSave _ => if gather then happen (execStreamVisit g n) s else if x.out then s else deliver s
    | _ => s)
  | .draining => if x.out ∨ sdSpace x.desc = 2 then happen (execStreamVisit g n) s else deliver s
  | _ => happen (execStreamVisit g n) s

/-- The engines of ring g: copies, those of channels in their order and then those of the copy engine (R138), also of a saved context
(R346), and while a context is bound and has not faulted
its records, channels and streams. -/
def runEngines (s : State) (g : Nat) : State :=
  let mine := s.copies.filter fun k => k.ring == g
  let ordered := ((mine.filter fun k => k.chan.isSome).foldr (insertBy fun k => k.chan.getD 0) []) ++ mine.filter fun k => k.chan.isNone
  let s := ordered.foldl (fun s k => chance (fun s => (copyStep s k.id).getD s) s) s
  let r := s.ring g
  if !r.bound || r.ctx.fault.isSome || r.ctx.killed then s
  else
    let s := r.ctx.fetching.foldl (fun s n => chance (happen (execConfigRecordFetch g n)) s) s
    let s := if r.slotState = .saving then s
      else r.ctx.chans.foldl (fun s e => chance (happen (execCopyChannelRecordFetch g e.1)) s) s
    r.ctx.streams.foldl (fun s e => if e.2.isOpen then chance (fun s => streamChance s g e.1) s else s) s

/-! ### The memory fabric -/

/-- A request's chance: replayed when a target refused it, otherwise performed at a scope that is free among those that order
allows. -/
def requestChance (s : State) (q : Req) : State :=
  if q.stale then happen (execStaleRefusalReplay q.id) s
  else
    let n := s.freeCtr
    happen (execMemoryAccessPerformed q.id (scopeOfNat (Config.scopeOf n).val)) s.tickFree

/-- The place of an operation on the object of a name in the order of R290: the own sequencer, the own copy engine and channels,
then those of other rings in order of their rings, the copy engine before the channels and these before the sequencer. -/
def barrierRank (name g : Nat) (p : Party) : Nat :=
  match p with
  | .seq => if nameRing name = g then 0 else 100 * (g + 1) + 50
  | .chan n => if nameRing name = g then 2 + n else 100 * (g + 1) + 2 + n
  | _ => if nameRing name = g then 1 else 100 * (g + 1) + 1

/-- The operations that have been sent to barrier objects, in the order of R290. -/
def barrierQueue (s : State) : List (Nat × (State → State)) :=
  let seq := ((List.range Config.rings).filter fun g => (s.ring g).bound && (s.ctx g).wait.isSome).map fun g =>
    let c := s.ctx g
    let name := match c.stepAt c.si with
      | .ok (.barr b _) => (c.kreg b.val).toNat
      | .ok (.bexp b _ _ _) => (c.kreg b.val).toNat
      | _ => 0
    (barrierRank name g .seq, fun s => (expectArrives s g).getD (happen (execBarrierArrival g) s))
  let cnt := s.decs.map fun d => (barrierRank d.bar d.ring d.party, happen (execBarrierByteDecrement d.id d.bytes d.poison))
  (seq ++ cnt).foldr (insertBy Prod.fst) []

/-- The fabric's chances: requests in order of issue, operations on barriers, copies that are complete, collectives, and the ends of
flushes, shoot-downs, bumps and repairs; and what accesses have met in SRAM, corrected. -/
def runFabric (s : State) : State :=
  let s := s.reqs.foldl (fun s q => chance (fun s => requestChance s q) s) s
  let s := (barrierQueue s).foldl (fun s x => chance x.2 s) s
  let s := s.copies.foldl (fun s c => chance (happen (execCopyComplete c.id)) s) s
  let s := (s.colls.map (·.group)).eraseDups.foldl (fun s n =>
    chance (fun s => happen (execCollectiveComplete n) (happen (execCollectiveStart n) s)) s) s
  let s := (List.range 4).foldl (fun s d =>
    let s := if (s.die d).fbflush then chance (happen (execFlushComplete d)) s else s
    if bit (s.die d).ppr 63 then
      chance (fun s => let n := s.freeCtr; happen (execPprComplete d (Config.ready n)) s.tickFree) s
    else s) s
  let s := if bit s.hub.tlbinv 63 then chance (happen execShootDownComplete) s else s
  let s := if bit s.hub.genbump 63 then chance (happen execGenerationBumpComplete) s else s
  reportFlaws s

/-! ### Placing members (R333, R335, R337) -/

/-- Whether a slot may take a new bind record. -/
def slotFree (s : State) (taken : List Nat) (g : Nat) : Bool :=
  (s.ring g).slotState == .empty && !taken.contains g && !bit (fenceBits s g) 0

/-- Whether the CPEAK of a header and that of the context on the other ring of the pair differ by at most a tenth (R337). -/
def balanced (s : State) (h : BitVec 2048) (g : Nat) : Bool :=
  let mate := s.ring (pairRing g)
  !mate.bound || !unbalanced (hdrCpeak h) (hdrCpeak mate.ctx.hdr)

/-- Whether a fence stands on a ring that could give back every bit of OPMASK that its mask misses (R337, R370). -/
def mayGiveBack (s : State) (opmask : BitVec 64) (g : Nat) : Bool :=
  opmask &&& ~~~((s.ring g).capmask ||| setBit (fenceBits s g) 0 false) == 0

/-- The ring for a member (R337): its PLACE, or one of Eosen's choice among those whose mask covers OPMASK and where the other checks of
R336 can pass, a balanced pair first. With no ring whose mask covers it, the member waits while a fence stands that could give back the
bits a ring misses (R370); where the checks could pass only later, it waits; and where they can never pass, any ring will do, which
refuses it. -/
def placeMember (s : State) (taken : List Nat) (h : BitVec 2048) (m : BitVec 512) (b : BindRecord) : Option Nat :=
  if mdPlace m ≠ 63 then (if slotFree s taken (mdPlace m) then some (mdPlace m) else none)
  else
    let all := List.range Config.rings
    let able := all.filter fun g => hdrOpmask h &&& ~~~(s.ring g).capmask == 0
    let fits :=
      if able.isEmpty then (if all.any (mayGiveBack s (hdrOpmask h)) then [] else all)
      else if able.any (couldPass s b) then able.filter (passesAt s b)
      else able
    let free := fits.filter (slotFree s taken)
    let even := free.filter (balanced s h)
    let best := if even.isEmpty then free else even
    best[Config.placement s.freeCtr % max best.length 1]?

/-- Rings for the members of a task, those with a PLACE first; none when one cannot be placed. Each member placed counts as bound for
those after it. -/
def placeAll (s : State) (n : Nat) (t : Task) : List (Nat × BitVec 512) → List (Nat × Nat) → Option (List (Nat × Nat))
  | [], acc => some acc
  | (i, m) :: rest, acc =>
    let b := bindRecordOf s n i t m
    match placeMember s (acc.map Prod.snd) (memberHeader s (seAsid t.entry) m) m b with
    | some g => placeAll ((loadedAt s b g).onRing g fun r => { r with bound := true }) n t rest (acc ++ [(i, g)])
    | none => none

/-- The members of a READY task bound, all at once (R27, R335), when every one can be placed. -/
def bindReady (s : State) (n : Nat) (t : Task) : State :=
  let ms := t.members.zipIdx.map fun x => (x.2, x.1)
  let order := (ms.filter fun x => mdPlace x.2 != 63) ++ ms.filter fun x => mdPlace x.2 == 63
  match placeAll s n t order [] with
  | none => s
  | some gs =>
    gs.foldl (fun s x => happen (execBindRecordWrite x.2 (bindRecordOf s n x.1 t (t.members.getD x.1 0))) s) s.tickFree

/-- The saved members of a task bound again on their rings, when all of those slots are free. -/
def bindSaved (s : State) (n : Nat) : State :=
  let mine := s.saved.filter fun x => bindTask x.ctx.bind == n
  if !mine.isEmpty && mine.all (fun x => slotFree s [] x.ring && x.ctx.fault.isNone) then
    mine.foldl (fun s x =>
      let b := setBits (setBits x.ctx.bind 72 3 (ctxPri s x.ctx)) 80 12 (generation s 0 x.ctx.asid (regionOf (bindImg x.ctx.bind)))
      happen (execBindRecordWrite x.ring (setBits (setBits b 0 3 3) 3 40 0)) s) s
  else s

/-- Tasks that wait to be bound, highest priority first, then the one that became ready or was saved first. -/
def bindOrder (s : State) : List (Nat × Task) :=
  (s.hub.tasks.filter fun e => e.2.state != .wait && e.2.state != .done).foldr
    (insertBy fun e => (7 - e.2.pri) * pow2 64 + e.2.readyNo) []

/-- Eosen binds what it can. -/
def bindTasks (s : State) : State :=
  (bindOrder s).foldl (fun s e =>
    match s.task e.1 with
    | some t => if t.state = .ready then bindReady s e.1 t else bindSaved s e.1
    | none => s) s

/-! ### Eosen -/

/-- What Eosen owes the context of a ring: an answer, a quantum, a fault held too long, a fault save (R150, R337, R270, R352). -/
def tendRing (s : State) (g : Nat) : State :=
  if (s.ring g).bound && (s.ctx g).replay.isSome then happen (execQuantumExpiry g) s else
  let s := happen (execQuantumExpiry g) s
  let s := (stoppedIssuers s g).foldl (fun s n =>
    if (s.ring g).slotState = .running then happen (execFaultholdExpiry g n) s else s) s
  let s := if (s.ctx g).fault.isSome ∨ s.saved.any fun x => x.ring == g && x.ctx.fault.isSome then happen (execFaultSave g) s else s
  let s := happen (execYieldDecision g)
    (happen (execSysQuantum g) (happen (execSysThandler g) (happen (execSysSetpri g) (happen (execSysHostev g) (happen (execSysPing g) s)))))
  let s := if (s.ring g).slotState = .ended then happen (execSlotRelease g) s else s
  if fenceBits s g = 0 then s else applyFence s g

/-- Translation faults of a die (R268, R270): the context of a record is ended or the record is serviced, which is free (log 12);
once no record is left to decide on, or after an overflow, a flush. -/
def tendFaults (s : State) (d : Nat) : State :=
  let x := s.die d
  if x.fbflush || (x.fbrecs.isEmpty && !x.fbovf) then s
  else
    match x.fbrecs.find? fun r => (faultedCtx s r).any fun c => c.fault.isNone && !c.killed with
    | some r =>
      let n := s.freeCtr
      let s := s.tickFree
      if r.cause < 3 ∧ Config.services n then happen (execFaultBufferFlush d) (happen (execFbstatOvfClear d) s)
      else happen (execUnservicedFaultEnd d r.ctx) s
    | none => happen (execFaultBufferFlush d) (happen (execFbstatOvfClear d) s)

/-- What the task table allows now (R324, R327, R329, R330). -/
def tendTask (s : State) (n : Nat) : State :=
  let s := happen (execKill n) (happen (execQueueFence n) s)
  let s := ((s.task n).elim [] (·.deps)).foldl (fun s d =>
    happen (execTriggerRelease n d.task) (happen (execDependenceRelease n d.task) s)) s
  let s := happen (execGangDispatch n) s
  match s.task n with
  | some t => happen (execCompletionRecordDeferredWrite t.queue) s
  | none => s

/-- Eosen's chances (log 8): nothing while the hub is not up, the module is blank, or the rails are down (R396). -/
def runFirmware (s : State) : State :=
  if !s.hub.ready || !s.aon.powered || s.aon.lc == .blank then s
  else
    let s := (List.range Config.rings).foldl (fun s g => chance (fun s => tendRing s g) s) s
    let s := (List.range 4).foldl (fun s d => chance (fun s => tendFaults s d) s) s
    let s := s.hub.sqcfg.foldl (fun s e => chance (happen (execTaskEntry e.1)) s) s
    let s := s.hub.tasks.foldl (fun s e => chance (fun s => tendTask s e.1) s) s
    let s := s.hub.cls.foldl (fun s e => chance (fun s => tendTable s e.1) s) s
    let s := chance bindTasks (chance divideCap s)
    s.hub.audlogs.foldl (fun s e => happen (execAuditRingTimeout e.1) (chance (fun s => tendReplay s e.1) (finishLog s e.1))) s

end Sys2Proof.Machine
end

