-- ==== Sys2Proof/Machine/Schedule.lean ====
section
/-!
DEFINITION. The order of work (spec/19 R352, R353): what issues in a ring cycle, the hold and the cut decided on a dry run of
it, the start of a ring cycle, and the module cycle that calls the rings, engines, fabric and firmware in turn.
-/

namespace Sys2Proof.Machine

open Sys2Proof

/-! ### Issue -/

/-- The throttle notice (R339): the handler entered as by a `call` in place of the step; with four return entries no call is
made. -/
def throttleCall (s : State) (g n : Nat) : State :=
  enterState (s.onCtx g fun c => { c with thNotice := false, rstack := c.rstack ++ [c.si] }) g n n

/-- The sequencer in this cycle (R136, R147): nothing once the context ends, drains, unwinds, has faulted, has been accepted by Eosen to
`yield` (R151), or is a replay, which runs its wave alone (R367); a waiting step
looks at its condition; otherwise the step at SI issues, or its slot's uncorrectable error is raised (R354). -/
def issueStep (s : State) (g : Nat) : Host.Outcome State Fault Refusal :=
  let c := s.ctx g
  if c.fault.isSome || c.ended || c.ending.isSome || c.draining || c.unwinding.isSome || c.yielded || c.replay.isSome then .next s
  else if c.wait.isSome then exec (.stepWaitComplete g) s
  else
    match (if c.thNotice && decide (c.rstack.length < 4) then c.thandler else none) with
    | some n => .next (throttleCall s g n)
    | none =>
      if c.badSlots.contains c.si || (stepIsLong (c.slotWord c.si) && c.badSlots.contains (c.si + 1)) then
        .next (takeFault s g (faultAt s g 4 20 0 0))
      else
      match c.stepAt c.si with
      | .ok i => exec i (if c.thNotice then s.onCtx g fun c => { c with thNotice := false } else s)
      | .error e => .refused (.undecodable e.code)

/-- The word of a row slot of a physical stripe. -/
def rowWordAt (s : State) (g ps slot : Nat) : BitVec 80 :=
  ((s.ring g).stripe ps).record.elim 0 fun rc => slotRow (recSlot rc slot)

/-- The row of a slot issued at a column for an instance (R20, R22); an instance that would have entered after an unwinding
began does not (R316). -/
def issueRow (s : State) (g ps slot ent : Nat) : Host.Outcome State Fault Refusal :=
  if (s.ctx g).unwinding.any fun u => decide (u.at_ ≤ ent) then .next s
  else
    match decodeRow (rowWordAt s g ps slot) with
    | .ok i => exec i s
    | .error e => .refused (.undecodable e.code)

/-- A row that has faulted takes no effect on its ring but the fault (R352). -/
def undoRow (s t : State) (g : Nat) : State :=
  match (s.ctx g).fault, (t.ctx g).fault with
  | none, some f => { t with rings := (takeFault s g f).rings }
  | _, _ => t

/-- One item of a ring cycle. An event that is not due does not occur. -/
def runItem (w : Work) (s : State) : Host.Outcome State Fault Refusal :=
  match w with
  | .event i =>
    (match exec i s with
    | .refused .notDue => .next s
    | o => o)
  | .fault g f => .next (if f.cls = 7 then consumePoison s g f.code f else takeFault s g f)
  | .seq g =>
    (match issueStep { s with focus := ⟨g, 0, 0, 0, 0, 0⟩ } g with
    | .refused .notDue => .next s
    | o => o)
  | .row g ps col slot inst ent =>
    (match issueRow { s with focus := ⟨g, ps, col, slot, inst, ent⟩ } g ps slot ent with
    | .next t => .next (undoRow s t g)
    | o => o)
  | .endCycle g => .next (endCycle s g)
  | .units g => .next (runUnits s g)
  | .begin _ | .engines _ | .fabric | .inject _ | .firmware => .next s

/-! ### The items of a cycle -/

/-- The row that a stripe issues in a column in this cycle (R20 to R22). -/
def rowDue (s : State) (g ps k : Nat) : Option Work :=
  let st := (s.ring g).stripe ps
  match st.occ, st.record with
  | some o, some rc =>
    let tc := (s.ctx g).tc
    let ii := max (recIi rc) 1
    if o.struck ∨ tc < o.start + k then none
    else
      let t := tc - k - o.start
      let slot := t % ii
      let stage := slotStage (recSlot rc slot)
      if stage ≤ t / ii ∧ t / ii - stage < o.n then
        some (.row g ps k slot (t / ii - stage) (o.start + (t / ii - stage) * ii))
      else none
  | _, _ => none

/-- What falls in a column of a stripe: an entry cycle, then its row. -/
def columnItems (s : State) (g : Nat) (at_ : Nat × Nat) : List Work :=
  (if (entryIndex s g at_.1 at_.2).isSome then [Work.event (.instanceEntry g at_.1 at_.2)] else []) ++
    (rowDue s g at_.1 at_.2).toList

/-- The commands of the start queue that begin in a cycle, and its step (R352). -/
def commandItems (s : State) (g : Nat) : List Work :=
  let q := (s.ctx g).startq
  ((List.range q.length).map fun n => Work.event (.startCycleResolved g n)) ++
    List.replicate q.length (Work.event (.startCommandBegin g)) ++ [.seq g]

/-- The rows of a cycle in columns, with what the units beside them found. Of several `sig` codes of one cycle the last here is the most
recent (log 122). -/
def rowItems (s : State) (g : Nat) (found : List (Nat × FaultRec)) : List Work :=
  (s.ring g).places.flatMap (columnItems s g) ++ found.map fun x => .fault g x.2

/-- The physical stripe of an item that has a column. -/
def Work.stripe : Work → Option Nat
  | .row _ ps _ _ _ _ => some ps
  | .event (.instanceEntry _ ps _) => some ps
  | .fault _ f => some f.pstr
  | _ => none

/-- The column of an item, for one that has a column. -/
def Work.column : Work → Option Nat
  | .row _ _ k _ _ _ => some k
  | .event (.instanceEntry _ _ k) => some k
  | .fault _ f => if f.locStripe then some f.col else none
  | _ => none

/-! ### The dry run -/

/-- The faults that the items of a cycle raise, with their places in the list, and the state after those that raise none. -/
def dryRun (g : Nat) : List Work → Nat → State → List (Nat × FaultRec) → State × List (Nat × FaultRec)
  | [], _, s, fs => (s, fs)
  | w :: l, n, s, fs =>
    match runItem w s with
    | .next t =>
      match (t.ctx g).fault with
      | some f => if (s.ctx g).fault.isSome then dryRun g l (n + 1) t fs else dryRun g l (n + 1) s (fs ++ [(n, f)])
      | none => dryRun g l (n + 1) t fs
    | _ => dryRun g l (n + 1) s fs

/-- The fault that R353 records of several. -/
def bestFault : List (Nat × FaultRec) → Option FaultRec
  | [] => none
  | (_, f) :: l =>
    match bestFault l with
    | some b => if faultRank b < faultRank f then some b else some f
    | none => some f

/-- Whether an item is the watchdog's. -/
def Work.watchdog : Work → Bool
  | .event (.watchdogExpiry _) => true
  | _ => false

/-- What issues when items fault (R352): everything before the first command or step that faults, and it, with the units that go on
beside the rows; otherwise what stands in columns below the lowest that faults, and there the entry cycle of the element that faults
first and its fault. A watchdog's fault cuts nothing of the cycle (R340), and stands aside for another (R353). -/
def cutItems (items : List Work) (fs : List (Nat × FaultRec)) : List Work :=
  let at_ := items.zipIdx
  let bad (x : Work × Nat) : Bool := fs.any fun f => f.1 == x.2
  match at_.find? fun x => bad x && x.1.column.isNone && !x.1.watchdog with
  | some x =>
    items.take x.2 ++ ((items.drop x.2).filter fun w => match w with | .units _ => true | _ => false) ++ [x.1]
  | none =>
    let k := (at_.filterMap fun x => if bad x then x.1.column else none).foldl min 8
    match at_.find? fun x => bad x && x.1.column == some k with
    | none => items
    | some x =>
      let before (w : Work) : Bool := !w.watchdog && w.column.all fun c => decide (c < k)
      let entry := at_.filter fun y => decide (y.2 < x.2) && y.1.column == some k && y.1.stripe == x.1.stripe && !bad y
      items.filter before ++ entry.map Prod.fst ++ [x.1]

/-! ### Holds (R85, R86) -/

/-- A held cycle of the context: nothing issues, TC stands, the counts of R321 and R86 move, and the record that a hoist
misses is requested. -/
def holdCycle (s : State) (g cause : Nat) : State :=
  let r := s.ring g
  let s : State := if cause = 3 then
      (match hoistDue ((knowTimes s g).ctx g).advanceTc with
      | some x => s.onCtx g fun c => c.wantRecord x.vs
      | none => s)
    else s
  let s := s.onCtx g fun c =>
    let c := ((countCycle s g c).addEv 1 1).addEv (1 + cause) 1
    if cause = 3 ∧ r.holdCause ≠ 3 then c.addEv 8 1 else c
  let s := s.onRing g fun r =>
    { r with
      holdCause := cause, holdRun := if r.holdCause = 0 then 1 else min (r.holdRun + 1) (pow2 32 - 1),
      holdCount := if cause = 5 then 0 else r.holdCount + 1, holdAsk := 0, bankUse := [],
      bankServed := if cause = 4 then r.bankServed + 1 else r.bankServed }
  if cause ≠ 5 ∧ (s.ring g).holdlim.toNat ≤ (s.ring g).holdCount then { s with agenda := .event (.holdLimitFault g) :: s.agenda } else s

/-- The items of a cycle put before the rest of the agenda. -/
def commit (s : State) (g : Nat) (items : List Work) (fs : List (Nat × FaultRec)) : State :=
  let s := s.onRing g fun r => { r with holdAsk := 0 }
  let resume : List Work := if (s.ring g).holdCause ≠ 0 then [.event (.holdResume g)] else []
  let items := if fs.isEmpty then items else cutItems items fs
  { s.onCtx g (fun c => { c with faultPref := bestFault fs }) with agenda := resume ++ items ++ .endCycle g :: s.agenda }

/-- The items that a resume from a debug break issues (R400): what the cut suppressed, which in the column of the break is what stripes
other than those that have broken there were to issue. -/
def resumedItems (b : BrkResume) (items : List Work) : List Work :=
  items.filter fun w =>
    match w.column, w.stripe with
    | some k, some ps => b.col.all fun c => decide (c < k) || (k == c && !b.done.contains ps)
    | _, _ => false

/-- Whether a command is a `qset`. -/
def Command.isQset : Command → Bool
  | .qset _ _ _ _ => true
  | _ => false

/-- Whether a `qset` may take effect in the cycle at TC (R165): one of the start queue whose cycle it may be, or the step at SI. -/
def qsetNow (c : Ctx) : Bool :=
  (c.startq.any fun p => p.cmd.isQset && (match p.start.now c with | .at t => decide (t ≤ c.tc) | .hoist _ _ _ => false)) ||
    (match c.stepAt c.si with
    | .ok (.qset _ _ _ _ _ _) => true
    | _ => false)

/-- The state that the items of a cycle find, and the items in the order of R352. Where a `qset` may take effect, the pushes and the units
of the cycle come after the commands and the step, so that they use the new configuration (R165); what they find is taken from a
run of those alone. -/
def cycleWork (s : State) (g : Nat) : State × List Work :=
  let late := qsetNow (s.ctx g)
  let (s, found) := prepareCycle s g late
  let first := commandItems s g
  if late then
    let t := first.foldl (fun t w => match runItem w t with | .next u => u | _ => t) { s with agenda := [] }
    (s, first ++ .units g :: rowItems s g (prepareUnits (t.ring g) g).2)
  else (s, first ++ rowItems s g found)

/-- A cycle that the ring's clock runs, TC advanced (R29): what issues is decided on a dry run; a hold drops the whole cycle,
and TC stands. A watchdog that expires in it comes last (R353). -/
def attempt (s : State) (g : Nat) (watchdog : Bool) : State :=
  let s := s.onRing g fun r => { r with holdAsk := 0, bankUse := [] }
  let (s1, items) : State × List Work :=
    match (s.ctx g).brkResume with
    | some b => (s, resumedItems b (rowItems s g []))
    | none => cycleWork (s.onCtx g Ctx.advanceTc) g
  let dog : List Work := if watchdog then [.event (.watchdogExpiry g)] else []
  let items := items ++ dog
  if (s1.ctx g).fault.isSome then s1
  else
    let (t, fs) := dryRun g items 0 { s1 with agenda := [] } []
    let r := if (s.ring g).bankServed < (t.ring g).bankExtra then (t.ring g).ask 4 else t.ring g
    if r.holdAsk ≠ 0 then holdCycle { s with agenda := dog ++ s.agenda } g r.holdAsk
    else commit s1 g items fs

/-! ### The start of a ring cycle -/

/-- The clock of a ring (R391 to R393): its pair's frequency against the nominal one; a cycle that the balancer stretches runs for both
rings of the pair or for neither, and one that a droop stretches when it may, which counts the cycles that run. -/
def clockTick (s : State) (g : Nat) : State × Bool :=
  let f := tget s.hub.pairf (pairOf g) Config.nominalMHz
  let acc := (s.ring g).clkAcc + f
  if acc < Config.nominalMHz then (s.onRing g fun r => { r with clkAcc := acc }, false)
  else
    let s := s.onRing g fun r => { r with clkAcc := acc - Config.nominalMHz }
    let even := !s.pairStretched (pairOf g) || Config.pairRuns s.nominalCycle (pairOf g)
    if (s.ring g).stretch = 0 then (s, even)
    else
      let run := even && Config.ready s.freeCtr
      (if run then s.tickFree.onRing g fun r => { r with stretch := r.stretch - 1 } else s.tickFree, run)

/-- Whether the watchdog of a bound context has reached its bound, with no fault before it (R340). -/
def watchdogDue (s : State) (g : Nat) : Bool :=
  match execWatchdogExpiry g s with
  | .next _ => !(s.ctx g).killed && !(s.ring g).shifting
  | _ => false

/-- The end of a context whose conditions hold, or whose drain is quiescent: before a save that has been asked for, and not in a
cycle in which the watchdog expires (R353). -/
def ringEnds (s : State) (g : Nat) : State :=
  if (s.ctx g).killed || watchdogDue s g then s else happen (execDrainQuiescence g) (happen (execContextEnd g) s)

/-- The other events of a ring that its hardware raises by itself, each when it is due. -/
def ringEvents (s : State) (g : Nat) : State :=
  if (s.ctx g).killed then s
  else
    happen (execHalyardRestoreComplete g) (happen (execHalyardSaveComplete g) (happen (execContainmentHandlerEntry g) s))

/-- The ring cycle that begins: a hoist and the saves under way go on whatever else the cycle does (R30, R93), and a killed context leaves
once no hoist is (R31). -/
def tickRing (s : State) (g : Nat) : State :=
  let s := hoistCycle (s.onRing g fun r => { r with bankUse := [], ctx := { r.ctx with rcyc := r.ctx.rcyc + 1 } }) g
  let s := if (s.ring g).shifting then s else writeCycle s g
  if (s.ring g).bound ∧ (s.ctx g).killed then leaveKilled s g else s

/-- A ring's part of a module cycle: its context's end, saves and restores, other events, and a cycle of the bound context. A watchdog
that expires goes before a save (R353). -/
def beginRing (s : State) (g : Nat) : State :=
  let dog := watchdogDue s g
  let (s, run) := clockTick (ringEnds s g) g
  let s := if run then (let t := tickRing s g; saveCycle (if dog then t else advanceSave t g) g) else s
  let s := ringEvents s g
  let r := s.ring g
  let late := if dog then happen (execWatchdogExpiry g) s else s
  if !run || !r.bound || r.ctx.killed || r.slotState == .halted || r.slotState == .loading then late
  else if r.ctx.fault.isSome then settleFault s g
  else if r.slotState = .saving then (if r.shifting then s else late.onCtx g (countCycle s g))
  else attempt s g dog

/-! ### The module cycle -/

/-- Whether a ring has anything to do by itself. -/
def Ring.active (r : Ring) : Bool := r.bound || r.saving != .idle

/-- Watchdog and quantum counts (R340): ticks while bound and not halted by the debugger. -/
def countTicks (s : State) : State :=
  (List.range Config.rings).foldl (fun s g =>
    if (s.ring g).bound ∧ (s.ring g).slotState ≠ .halted ∧ !(s.ring g).shifting then
      s.onCtx g fun c => { c with wdcount := satAdd 48 c.wdcount 1, qcount := satAdd 32 c.qcount 1 }
    else s) s

/-- The time base (R8): nineteen nominal ring cycles a tick, at whose end the caps written in it apply (R389), the wipe goes on (R373)
and the patrol of each die reads its share (R356). -/
def advanceTime (s : State) : State :=
  if s.sub + 1 < Config.cyclesPerTick then { s with sub := s.sub + 1 }
  else
    let live := s.aon.powered && !s.aon.frozen
    let s : State := { (if live then applyCaps s else s) with sub := 0, tick := s.tick + 1 }
    if live then countTicks ((List.range 4).foldl patrolTick (wipeTick s)) else s

/-- A module cycle: time moves, and the cycle's work is laid out; with the clocks stopped or the rails down only time
moves (R383, R385). -/
def moduleCycle (s : State) : State :=
  let s := advanceTime s
  if s.aon.powered && !s.aon.frozen then
    let gs := (List.range Config.rings).filter fun g => (s.ring g).active
    let eng := (List.range Config.rings).filter fun g => (s.ring g).bound || s.copies.any fun k => k.ring == g
    { s with barUsed := [], agenda := gs.map .begin ++ eng.map .engines ++ [.fabric, .firmware] }
  else s

/-- One item of the agenda. -/
def runWork (w : Work) (s : State) : Host.Outcome State Fault Refusal :=
  match w with
  | .begin g => .next (beginRing s g)
  | .engines g => .next (runEngines s g)
  | .fabric => .next (runFabric s)
  | .inject g => .next (happen (execInjectionFire g) s)
  | .firmware => .next (runFirmware s)
  | .event i => runItem (.event i) s
  | .fault g f => runItem (.fault g f) s
  | .seq g => runItem (.seq g) s
  | .units g => runItem (.units g) s
  | .row g ps col slot inst ent => runItem (.row g ps col slot inst ent) s
  | .endCycle g => runItem (.endCycle g) s

/-- The events of the auxiliary rail, which may occur with the clocks stopped or the main rails down (R383, R401). -/
def auxiliary : Instr → Bool
  | .rdsticky | .clrsticky | .setcap _ | .setfloor _ _ | .reset | .recover _ | .attest _ | .freeze | .readout _ | .injen _
  | .lcstate _ _ | .unlock _ | .pcfg _ | .pldmSensorRead _ | .pldmFirmwareUpdate _ | .coldReset | .mainRailsDown
  | .thermalTrip _ _ _ => true
  | _ => false

/-- The function through whose link an event comes (R377, R381). -/
def throughLink : Instr → Option Nat
  | .submissionDoorbell f _ _ | .completionQueueHeadWrite f _ _ | .pstatClear f | .apertureAccess f _ _ _
  | .registerWrite (.host f) _ _ | .functionLevelReset f => some f
  | .capWrite src _ => if src < 4 then some src else none
  | _ => none

/-- Whether an event from outside can reach the module: nothing but the auxiliary rail's while the clocks stand or the main rails are
down, and a host's only over its link, once the module is ready (R374, R396, R401). -/
def mayArrive (s : State) (i : Instr) : Bool :=
  (auxiliary i || (s.aon.powered && !s.aon.frozen)) && (throughLink i).all fun f => s.hub.ready && s.linkUp f

/-- An event from outside the module: what it does when it can arrive and occur; nothing otherwise. -/
def takeInput (i : Instr) (s : State) : Host.Outcome State Fault Refusal :=
  if mayArrive s i then runItem (.event i) s else .next s

/-- What the machine does next: an item of the agenda, else an event from outside, else a new module cycle. -/
def advance (s : State) : Host.Outcome State Fault Refusal :=
  match s.agenda with
  | w :: rest => runWork w { s with agenda := rest }
  | [] =>
    match s.inputs with
    | i :: rest => takeInput i { s with inputs := rest }
    | [] => .next (moduleCycle s)

/-! ### An instruction placed for the next step -/

/-- The words of an instruction of the table put where the machine issues its next row or step: row slot 0 of stripe 0, with
an instance entering, or the state at SI; and an agenda that holds that issue. -/
def placeWord (s : State) (nbits w : Nat) : State :=
  if nbits = 80 then
    let rc : Rec := { hdr := packBits 512 [(10, 6, 1)], slots := [BitVec.ofNat 128 w], switches := [0], pass := 0, smap := [] }
    let s := s.onRing 0 fun r =>
      r.setStripe 0 { r.stripe 0 with record := some rc, occ := some ⟨0, 0, (s.ctx 0).tc, 1, false⟩ }
    { s with agenda := [.row 0 0 0 0 0 (s.ctx 0).tc] }
  else
    let s := s.onCtx 0 fun c =>
      { c with
        hdr := setBits c.hdr 80 16 4096,
        stable := tset (tset c.stable c.si (BitVec.ofNat 64 w)) (c.si + 1) (BitVec.ofNat 64 (w >>> 64)) }
    { s with agenda := [.seq 0] }

end Sys2Proof.Machine
end

