-- ==== Sys2Proof/Machine/Step.lean ====
section
/-!
DEFINITION. The step of the machine, and the placing of one instruction for it. Both are what Machine/Schedule.lean
describes.
-/

namespace Sys2Proof.Machine

/-- One step of the module: the next item of work in the order of R352. -/
def step (s : State) : Host.Outcome State Fault Refusal := advance s

/-- The state in which the very next step runs the instruction whose bits are `w` (log 18). -/
def State.withFetchWord (s : State) (nbits w : Nat) : State := placeWord s nbits w

end Sys2Proof.Machine
end

