-- ==== Sys2Proof/Safety.lean ====
section
/-!
DEFINITION. What counts as a safe run: the module never stops by itself, its memories keep their canonical form and its
time base stays within a tick, and no ring has fewer live stripes than spec/05 R87 allows.
-/

namespace Sys2Proof.Safety

open Sys2Proof.Machine

/-- A step that goes on. -/
def goesOn (o : Host.Outcome State Fault Refusal) : Prop := ∃ t, o = .next t

/-- The memory of the packages and every scratchpad in canonical form. -/
def MemoriesCanonical (s : State) : Prop := s.mem.wf = true ∧ ∀ g, (s.ring g).spad.wf = true

/-- The place within a tick (spec/00 R8): nineteen nominal ring cycles. -/
def InTick (s : State) : Prop := s.sub < Config.cyclesPerTick

/-- At least two live stripes on every ring (spec/05 R87). -/
def StripesLive (s : State) : Prop := ∀ g, 2 ≤ (s.ring g).nLive

/-- A run of `n` steps that goes on. -/
def runsOn (n : Nat) (s : State) : Prop := ∃ t, Sys2Proof.core.run n s = .next t

/-! ### Rows that run to their own effect -/

/-- The state of the queue that a slot binds to `up`, with its number, configuration and the entry that a pop takes:
none when the slot binds no word queue, or nothing visible stands at the row's position (R72, R228). -/
def upEntry (s : State) : Option (Nat × QCfg × QState × QMeta) :=
  match boundQueue s false with
  | none => none
  | some q =>
    match (s.ring s.focus.ring).queue q with
    | none => none
    | some c =>
      let st := (s.ring s.focus.ring).qstate (s.block false) q
      match st.entry (st.upPos s.focus) with
      | none => none
      | some m =>
        if c.tile = true then none
        else if (s.ring s.focus.ring).ctx.rcyc < m.vis then none
        else some (q, c, st, m)

/-- A row that reads `up` finds a word to pop, and none of its bytes is poisoned (R72, R315). -/
def upGoes (r : Row) (s : State) : Bool :=
  !rowReadsUp r ||
    match upEntry s with
    | none => false
    | some (_, c, st, m) => m.poison == 0 && !(s.ring s.focus.ring).spadPoisoned (s.block false) (128 * c.word (st.upPos s.focus)) 128 false

/-- A row that writes `dn` finds a word queue bound to it (R72). -/
def dnGoes (r : Row) (s : State) : Bool :=
  r.dst != .port .dn ||
    match boundQueue s true with
    | none => false
    | some q => !isTileQueue s q

/-- A row that registration accepts, whose guard is not the no-op's, and whose queues are ready: it neither holds nor
faults on its ports. -/
def rowGoes (i : Instr) (r : Row) (s : State) : Bool :=
  i.check == none && !isNoOp r.guard && upGoes r s && dnGoes r s

/-- The word that a row takes from `up` (R72): the block's bytes at the entry, and zero for a bubble (R82). -/
def upWord (r : Row) (s : State) : Vec :=
  if rowReadsUp r then
    match upEntry s with
    | some (_, c, st, m) =>
      if m.lr = false ∧ m.ls = true then Vec.zero else (s.ring s.focus.ring).wordAt (s.block false) (c.word (st.upPos s.focus)) false
    | none => Vec.zero
  else Vec.zero

/-- The state once a row's `up` word has been taken (R72, R228, R229): its position is reserved and popped, the bank is
charged, and the word's sideband stands in `sb`. -/
def afterUp (r : Row) (s : State) : State :=
  if rowReadsUp r then
    match upEntry s with
    | some (q, c, st, m) =>
      (s.onRing s.focus.ring fun x =>
        (x.useBank (s.block false) (c.word (st.upPos s.focus)) false).setQ (s.block false) q (st.takeUp s.focus)).onMe
        fun e => { e with sb := BitVec.ofBool m.lr ++ BitVec.ofBool m.ls }
    | none => s
  else s

/-- Row `i` completes with latency `lat` (at least 4 when it reads `up`, R184): its next state is the one with its `up` word
taken and the results of R183 recorded, for a result of which `P` holds. -/
def rowDoes (i : Instr) (r : Row) (lat : Nat) (s : State) (P : State → Vec → RowResult → Prop) : Prop :=
  ∃ res, exec i s = .next (addPend (afterUp r s) (rowPends (afterUp r s) r (if rowReadsUp r then max lat 4 else lat) res)) ∧
    P (afterUp r s) (upWord r s) res

/-- Every lane of a result that raises no flag. -/
def lanes (F : State → Vec → Nat → W32) (s : State) (up : Vec) (res : RowResult) : Prop :=
  (∀ l, l < 32 → res.val.lane l = F s up l) ∧ res.flags = 0

/-- The flags of a result (R50): each bit is raised when some sub-element of a lane whose guard is true raises it. -/
def raised (guard : W32) (w : Nat) (F : Nat → Nat → W32) (res : RowResult) : Prop :=
  ∀ b, b < 32 → (bit res.flags b = true ↔
    ∃ l, l < 32 ∧ bit guard l = true ∧ ∃ e, e < 32 / w ∧ bit (F l e) b = true)

/-- Sub-element `e` of lane `l` of a source in the row's type. -/
def subOf (r : Row) (x : Src) (l e : Nat) : Nat := subElem (tyWidth r.ty) (x.val.lane l) e

/-- Every sub-element of a result, and what it raises, is a function of that of A (R37). -/
def subs1 (r : Row) (k : ImmKind) (F : Nat → Nat × W32) (s : State) (up : Vec) (res : RowResult) : Prop :=
  (∀ l, l < 32 → ∀ e, e < 32 / tyWidth r.ty → subElem (tyWidth r.ty) (res.val.lane l) e = (F (subOf r (srcA s up r k) l e)).1) ∧
    raised (guardMask s.me r.guard) (tyWidth r.ty) (fun l e => (F (subOf r (srcA s up r k) l e)).2) res

/-- Every sub-element of a result, and what it raises, is a function of those of A and B. -/
def subs2 (r : Row) (ka kb : ImmKind) (F : Nat → Nat → Nat × W32) (s : State) (up : Vec) (res : RowResult) : Prop :=
  (∀ l, l < 32 → ∀ e, e < 32 / tyWidth r.ty →
    subElem (tyWidth r.ty) (res.val.lane l) e = (F (subOf r (srcA s up r ka) l e) (subOf r (srcB s up r kb) l e)).1) ∧
    raised (guardMask s.me r.guard) (tyWidth r.ty)
      (fun l e => (F (subOf r (srcA s up r ka) l e) (subOf r (srcB s up r kb) l e)).2) res

/-- Every sub-element of a result, and what it raises, is a function of those of A, B and C. -/
def subs3 (r : Row) (k : ImmKind) (F : Nat → Nat → Nat → Nat × W32) (s : State) (up : Vec) (res : RowResult) : Prop :=
  (∀ l, l < 32 → ∀ e, e < 32 / tyWidth r.ty → subElem (tyWidth r.ty) (res.val.lane l) e =
    (F (subOf r (srcA s up r k) l e) (subOf r (srcB s up r k) l e) (subOf r (srcC s up r k) l e)).1) ∧
    raised (guardMask s.me r.guard) (tyWidth r.ty)
      (fun l e => (F (subOf r (srcA s up r k) l e) (subOf r (srcB s up r k) l e) (subOf r (srcC s up r k) l e)).2) res

/-- A comparison (R189): all ones or zero in each sub-element, the predicate output of a lane its bit 0, and no flag. -/
def compares (r : Row) (F : Nat → Nat → Prop) (s : State) (up : Vec) (res : RowResult) : Prop :=
  (∀ l, l < 32 → ∀ e, e < 32 / tyWidth r.ty →
    (F (subOf r (srcA s up r (.ty r.ty)) l e) (subOf r (srcB s up r (.ty r.ty)) l e) →
      subElem (tyWidth r.ty) (res.val.lane l) e = 2 ^ tyWidth r.ty - 1) ∧
    (¬F (subOf r (srcA s up r (.ty r.ty)) l e) (subOf r (srcB s up r (.ty r.ty)) l e) →
      subElem (tyWidth r.ty) (res.val.lane l) e = 0)) ∧
    (∀ l, l < 32 → bit res.pbits l = bit (res.val.lane l) 0) ∧ res.flags = 0

/-- A row with an effect (R188): its `up` word is taken, and the effect `F` happens when the guard is true in some lane. -/
def rowEffect (i : Instr) (r : Row) (s : State) (F : State → Vec → State) : Prop :=
  exec i s = .next (if guardMask (afterUp r s).me r.guard = 0 then afterUp r s else F (afterUp r s) (upWord r s))

/-- Sub-element `e` of lane `l` of a result, and the flags it raises in lanes whose guard is true. -/
def eachSub (r : Row) (w : Nat) (F : State → Vec → Nat → Nat → Nat × W32) (s : State) (up : Vec) (res : RowResult) : Prop :=
  (∀ l, l < 32 → ∀ e, e < 32 / w → subElem w (res.val.lane l) e = (F s up l e).1) ∧
    raised (guardMask s.me r.guard) w (fun l e => (F s up l e).2) res

/-- Every bit of a predicate result that raises no flag. -/
def predBits (F : State → Vec → Nat → Bool) (s : State) (up : Vec) (res : RowResult) : Prop :=
  (∀ l, l < 32 → bit res.pbits l = F s up l) ∧ res.flags = 0

/-- node[n][m] of the tree of R219 over leaves, with the flags its combs raise. -/
def treeNode (c : Comb) (t : Ty) (m : Rm) (sat : Bool) (leaf : Nat → Leaf) : Nat → Nat → Leaf × W32
  | 0, j => (leaf j, 0)
  | n + 1, j =>
    let x := treeNode c t m sat leaf n (2 * j)
    let y := treeNode c t m sat leaf n (2 * j + 1)
    let z := comb c t m sat x.1 y.1
    (z.1, x.2 ||| y.2 ||| z.2)

/-- The prefix of lanes 0 to `l` as R220 builds it from the nodes of R219, with the flags of its own combs. -/
def prefixOf (t : Ty) (m : Rm) (sat : Bool) (leaf : Nat → Leaf) (l : Nat) : Leaf × W32 :=
  ([5, 4, 3, 2, 1, 0].filter fun n => (l + 1).testBit n).foldl
    (fun a n =>
      let z := comb .add t m sat a.1 (treeNode .add t m sat leaf n ((l + 1) / 2 ^ (n + 1) * 2)).1
      (z.1, a.2 ||| z.2)) (none, 0)

/-- The leaf of a lane of A: absent where the guard is false (R219). -/
def leafOf (r : Row) (s : State) (up : Vec) (l : Nat) : Leaf :=
  if bit (guardMask s.me r.guard) l then some ((srcA s up r (.ty r.ty)).val.lane l).toNat else none

/-- The word that a scratchpad row names (R222): lane 0 of A and the displacement, modulo the block. -/
def memWord (r : Row) (s : State) (up : Vec) : Nat :=
  (((srcA s up r (.int 32)).val.lane 0).toNat / 128 % 2 ^ 14 + r.imm.toNat % 2 ^ 14) % 2 ^ 14

/-- The block that a scratchpad row names (R222): the upstream one, or with BLK the stripe's own downstream one. -/
def memBlock (r : Row) (s : State) : Nat :=
  if bit r.imm 15 then s.focus.ps else (s.ring s.focus.ring).upstream s.focus.ps

/-- The state once a row has been charged for a bank word (R78, R223). -/
def charged (r : Row) (s : State) (up : Vec) : State :=
  s.onRing s.focus.ring fun x => x.useBank (memBlock r s) (memWord r s up) (bit r.imm 14)

/-- A schedule fault at the row now issuing, with its code (R98, R351). -/
def scheduleFaultAt (s : State) (code : Nat) : State := takeFault s s.focus.ring (rowFault s 1 code 0 0)

/-- A schedule fault at the row now issuing about a tile that it may not consume (R125, R350). -/
def tileFaultAt (s : State) (code : Nat) (info : BitVec 32) (producer : BitVec 16) : State :=
  takeFault s s.focus.ring { rowFault s 1 code info 0 with prodctx := producer }

/-- The code of a tile that fails the check of its first read (R351): 11 for a descriptor invalid under R40, 6 otherwise. -/
def badTileCode (e : Ensign) : Nat := if fmtIsWide (enFmt e) = false ∧ descValid (enFmt e) = false then 11 else 6

/-- A matrix resource has a write window open at a TC (R242): 0 to 3 banks, 4 and 5 counter banks, 6 `xa`. -/
def inWindowAt (t : Nat) (e : Element) (res : Nat) : Prop := ∃ w ∈ e.wins, w.res = res ∧ w.since ≤ t ∧ t < w.till

/-- A matrix resource has a write window open now. -/
def inWindow (s : State) (e : Element) (res : Nat) : Prop := inWindowAt s.now e res

/-- A row that writes a matrix resource finds it in an open window (R242, R251): a drain overlap when its guard is true in some
lane, with nothing popped, and no effect otherwise. -/
def windowFaults (i : Instr) (r : Row) (s : State) : Prop :=
  exec i s = .next (if guardMask s.me r.guard = 0 then afterUp r s else scheduleFaultAt s 4)

/-- An integer as a pattern of `w` bits. -/
def wrapped (w : Nat) (x : Int) : Nat := (x % (2 : Int) ^ w).toNat

/-- An exact integer result of a type (R38, R198): wrapped, or saturated with SAT raised when it lies outside the type. -/
def intResult (t : Ty) (sat : Bool) (x : Int) : Nat × W32 :=
  if sat = true ∧ (x < tyLo t ∨ tyHi t < x) then (wrapped (tyWidth t) (max (tyLo t) (min (tyHi t) x)), flagSAT)
  else (wrapped (tyWidth t) x, 0)

/-- An element without what an issue may change in it: its results under way and the sideband of the last `up` word. -/
def settled (e : Element) : Element := { e with pend := [], sb := 0 }

/-! ### Steps -/

/-- Step `i` completes on the ring in focus: its effect gives `u`, and it takes its transition from there (R109). -/
def stepCompletes (i : Instr) (s : State) (t : Trans) (u : State) : Prop := exec i s = .next (finishStep u s.focus.ring t)

/-- Step `i` waits (R136): the ring in focus keeps `w`, and nothing else changes. -/
def stepWaits (i : Instr) (s : State) (w : Wait) : Prop :=
  exec i s = .next (s.onCtx s.focus.ring fun c => { c with wait := some w })

/-- Step `i` raises a fault at the state index of the ring in focus. -/
def stepFaults (i : Instr) (s : State) (cls code : Nat) (info : BitVec 32) (addr : BitVec 64) : Prop :=
  exec i s = .next (takeFault s s.focus.ring (faultAt s s.focus.ring cls code info addr))

/-- A step-operand fault (R139): schedule class, code 9. -/
def operandFaults (i : Instr) (s : State) : Prop := stepFaults i s 1 9 0 0

/-- A barrier fault (R297) with its cause and the object's name. -/
def barrierFaults (i : Instr) (s : State) (cause name : Nat) : Prop := stepFaults i s 6 cause 0 (BitVec.ofNat 64 name)

/-- The waiting step of ring g completes: its effect gives `u`, and it takes its transition from there (R136). -/
def waitCompletes (g : Nat) (s : State) (t : Trans) (u : State) : Prop :=
  exec (.stepWaitComplete g) s = .next (finishStep u g t)

/-- The start that a long-form post of a context names (R108, R142): the least T not below TC - 2^31 that is START modulo 2^32; or,
relative to VS, hoist w NV + (VS - F) of the last run, which that run will make, with w in its KSEL counter: a cycle once its start is
known. `hoist` is the run and the hoist. -/
def namesStart (c : Ctx) (l : LongForm) (st : StartAt) (hoist : Option (Nat × Nat)) : Prop :=
  match l.vs with
  | none => hoist = none ∧ ∃ T, st = .at T ∧ T % 2 ^ 32 = l.start.toNat ∧ c.tc ≤ T + 2 ^ 31 ∧ T < c.tc + 2 ^ 31
  | some vs => ∃ r w, c.lastRun = some r ∧ (c.kreg r.ksel).toInt = (w : Nat) ∧ (r.done = true → r.arm.isSome = true) ∧
      r.first ≤ vs.toNat ∧ vs.toNat < r.first + r.nv ∧
      let h := w * r.nv + (vs.toNat - r.first)
      let armed := c.runs.find? fun y => y.id == r.id && y.arm.isSome
      let made := c.hlog.find? fun x => x.h == h
      h < r.limit ∧ (∀ y ∈ c.runs, y.id = r.id → y.parked = true → h < y.limit) ∧ hoist = some (r.id, h) ∧
      ((armed.isSome = true ∧ ∃ x, made = some x ∧ st = .at (x.start + l.start.toNat)) ∨
        ((armed = none ∨ made = none) ∧ st = .hoist r.id h l.start.toNat))

/-- A long-form post of a command on ring h in state `u` (R141): with room in the start queue and a T that has not come it enters the
queue with its start, and `done` holds of the state that then stands. -/
def posts (h : Nat) (l : LongForm) (cmd : Command) (u : State) (done : State → Prop) : Prop :=
  ∀ st hoist, namesStart (u.ctx h) l st hoist → (∀ T, st = .at T → (u.ctx h).tc < T) → (u.ctx h).startq.length < 16 →
    done (u.onCtx h fun c => { c with startq := c.startq ++ [⟨st, c.si, u.reqNext, cmd, hoist⟩] })

/-- A long-form post on ring h in state `u` whose T has passed (R108, R141): `fault` holds of the low 32 bits of T. -/
def postsLate (h : Nat) (l : LongForm) (u : State) (fault : BitVec 32 → Prop) : Prop :=
  (∀ T : Int, l.vs = none → T % 2 ^ 32 = l.start.toNat → (u.ctx h).tc ≤ T + 2 ^ 31 → T < (u.ctx h).tc → fault l.start) ∧
  (∀ T hoist, l.vs.isSome = true → namesStart (u.ctx h) l (.at T) hoist → T < (u.ctx h).tc → fault (BitVec.ofNat 32 T))

/-- A long-form post on ring h in state `u` that finds sixteen commands in the start queue and whose T has not passed (R141): `wait`
holds of the start it keeps, a hoist's as the post names it. -/
def postsFull (h : Nat) (l : LongForm) (u : State) (wait : StartAt → Prop) : Prop :=
  ∀ st hoist, namesStart (u.ctx h) l st hoist → (∀ T, st = .at T → (u.ctx h).tc ≤ T) → 16 ≤ (u.ctx h).startq.length →
    wait (match hoist with
      | none => st
      | some (r, n) => .hoist r n l.start.toNat)

/-- Ring g waits in step `i` with `w`. -/
def waitsIn (g : Nat) (s : State) (i : Instr) (w : Wait) : Prop :=
  (s.ctx g).wait = some w ∧ (s.ctx g).stepAt (s.ctx g).si = .ok i

end Sys2Proof.Safety
end

