-- ==== Sys2Proof/Certificates/Slice0/Obligations.lean ====
section
/-!
DEFINITION. The statements for the provers. Each says in its docstring which rules of the spec it formalises. A statement
about a row rests on `rowGoes`: the word is one that registration accepts, its guard is not the no-op's, and its ports are
ready. A statement about a step rests on `check` and on the operands.
-/

open Sys2Proof Sys2Proof.Machine Sys2Proof.Safety

/-! ### Rows -/

/-- R100: a row with GRD 0b1000 occupies its slot and does nothing.
R196: what the SPC rows write in every lane: instance index, column, lane, virtual stripe, a half of TC, A, and IMM above
the upper half of A. -/
def Obligations.PlaceRowsAndNoOps : Prop :=
  (∀ (i : Instr) (s : State), i.check = none →
    ((∃ r, i.row? = some r ∧ isNoOp r.guard = true) ∨ (∃ m f r, i.tile? = some (m, f, r) ∧ r.nop = true)) →
      exec i s = .next s) ∧
  (∀ (r : Row) (s : State),
    (rowGoes (.iter r) r s = true → rowDoes (.iter r) r 2 s (lanes fun u _ _ => BitVec.ofNat 32 u.focus.inst)) ∧
    (rowGoes (.eid r) r s = true → rowDoes (.eid r) r 2 s (lanes fun u _ _ => BitVec.ofNat 32 u.focus.col)) ∧
    (rowGoes (.lid r) r s = true → rowDoes (.lid r) r 2 s (lanes fun _ _ l => BitVec.ofNat 32 l)) ∧
    (rowGoes (.sid r) r s = true → rowDoes (.sid r) r 2 s (lanes fun u _ _ =>
      BitVec.ofNat 32 (((u.ring u.focus.ring).stripe u.focus.ps).occ.elim 0 (·.vs)))) ∧
    (rowGoes (.tcrd r) r s = true → rowDoes (.tcrd r) r 2 s (lanes fun u _ _ =>
      BitVec.ofNat 32 ((u.ctx u.focus.ring).tc / (if bit r.imm 0 then 2 ^ 32 else 1)))) ∧
    (rowGoes (.imov r) r s = true → rowDoes (.imov r) r 2 s (lanes fun u up l => (srcA u up r (.int 32)).val.lane l)) ∧
    (rowGoes (.ilui r) r s = true → rowDoes (.ilui r) r 2 s (lanes fun u up l =>
      BitVec.ofNat 32 (r.imm.toNat * 2 ^ 16 + ((srcA u up r (.int 32)).val.lane l).toNat / 2 ^ 16))))

/-- R198, R38: the arithmetic INT rows compute on integers of the type and wrap, or saturate with MOD[1]; `iaddsat` and
`isubsat` always saturate; SAT is raised only where saturation acts. -/
def Obligations.IntegerArithmeticIsExactThenNarrowed : Prop :=
  ∀ (r : Row) (s : State),
    let v := tyInt r.ty
    let k := ImmKind.ty r.ty
    (rowGoes (.iadd r) r s = true → rowDoes (.iadd r) r 2 s (subs2 r k k fun a b => intResult r.ty r.sat (v a + v b))) ∧
    (rowGoes (.isub r) r s = true → rowDoes (.isub r) r 2 s (subs2 r k k fun a b => intResult r.ty r.sat (v a - v b))) ∧
    (rowGoes (.imul r) r s = true → rowDoes (.imul r) r 4 s (subs2 r k k fun a b => intResult r.ty r.sat (v a * v b))) ∧
    (rowGoes (.imad r) r s = true → rowDoes (.imad r) r 4 s (subs3 r k fun a b c => intResult r.ty r.sat (v a * v b + v c))) ∧
    (rowGoes (.iaddsat r) r s = true → rowDoes (.iaddsat r) r 2 s (subs2 r k k fun a b => intResult r.ty true (v a + v b))) ∧
    (rowGoes (.isubsat r) r s = true → rowDoes (.isubsat r) r 2 s (subs2 r k k fun a b => intResult r.ty true (v a - v b))) ∧
    (rowGoes (.iabs r) r s = true → rowDoes (.iabs r) r 2 s (subs1 r k fun a => intResult r.ty r.sat ((v a).natAbs : Int))) ∧
    (rowGoes (.ineg r) r s = true → rowDoes (.ineg r) r 2 s (subs1 r k fun a => intResult r.ty r.sat (-v a))) ∧
    (rowGoes (.imulhi r) r s = true → rowDoes (.imulhi r) r 4 s (subs2 r k k fun a b =>
      (wrapped (tyWidth r.ty) ((v a * v b) / 2 ^ tyWidth r.ty), 0))) ∧
    (rowGoes (.imin r) r s = true → rowDoes (.imin r) r 2 s (subs2 r k k fun a b => (wrapped (tyWidth r.ty) (min (v a) (v b)), 0))) ∧
    (rowGoes (.imax r) r s = true → rowDoes (.imax r) r 2 s (subs2 r k k fun a b => (wrapped (tyWidth r.ty) (max (v a) (v b)), 0)))

/-- R199: the bit rows act on the pattern of each sub-element; a shift by the width or more leaves zeros, or copies of the
sign. Each bit `j` of the result is said in terms of the bits of the operands. -/
def Obligations.BitRowsActOnPatterns : Prop :=
  ∀ (r : Row) (s : State),
    let w := tyWidth r.ty
    let k := ImmKind.ty r.ty
    let bits1 (i : Instr) (F : Nat → Nat → Bool) : Prop := rowGoes i r s = true →
      ∃ f : Nat → Nat, rowDoes i r 2 s (subs1 r k fun a => (f a, 0)) ∧
        ∀ a, a < 2 ^ w → f a < 2 ^ w ∧ ∀ j, j < w → (f a).testBit j = F a j
    let bits2 (i : Instr) (F : Nat → Nat → Nat → Bool) : Prop := rowGoes i r s = true →
      ∃ f : Nat → Nat → Nat, rowDoes i r 2 s (subs2 r k k fun a b => (f a b, 0)) ∧
        ∀ a b, a < 2 ^ w → b < 2 ^ w → f a b < 2 ^ w ∧ ∀ j, j < w → (f a b).testBit j = F a b j
    bits2 (.iand r) (fun a b j => a.testBit j && b.testBit j) ∧
    bits2 (.ior r) (fun a b j => a.testBit j || b.testBit j) ∧
    bits2 (.ixor r) (fun a b j => a.testBit j ^^ b.testBit j) ∧
    bits1 (.inot r) (fun a j => !a.testBit j) ∧
    bits2 (.ishl r) (fun a n j => decide (n ≤ j) && a.testBit (j - n)) ∧
    bits2 (.ishr r) (fun a n j => a.testBit (j + n)) ∧
    bits2 (.isra r) (fun a n j => a.testBit (min (j + n) (w - 1))) ∧
    bits2 (.irot r) (fun a n j => a.testBit ((j + (w - n % w)) % w)) ∧
    bits1 (.ibfx r) (fun a j =>
      let o := bits r.imm 0 8
      let n := bits r.imm 8 8
      if j < n then a.testBit (o + j) else tySigned r.ty && a.testBit (o + n - 1)) ∧
    bits2 (.ibfi r) (fun a b j =>
      let o := bits r.imm 0 8
      let n := bits r.imm 8 8
      if o ≤ j ∧ j < o + n then b.testBit (j - o) else a.testBit j) ∧
    (rowGoes (.iclz r) r s = true → ∃ f : Nat → Nat, rowDoes (.iclz r) r 2 s (subs1 r k fun a => (f a, 0)) ∧
      ∀ a, a < 2 ^ w → f a ≤ w ∧ (∀ j, w - f a ≤ j → a.testBit j = false) ∧ (f a < w → a.testBit (w - 1 - f a) = true)) ∧
    (rowGoes (.ipop r) r s = true → rowDoes (.ipop r) r 2 s (subs1 r k fun a =>
      ((List.range w).countP fun j => a.testBit j, 0)))

/-- R202, R204, R55, R56, R207: a rounded row is `round_fmt` of the exact operation in the row's type, mode and
saturation; a fused row is one exact sum of the product and the addend; the flags are those of the operation and of
the rounding. `fround` passes an infinity and a zero, gives the canonical NaN for a NaN, and otherwise the integer that the mode
picks, with a's sign, raising NX when it differs from a. Where it rests on the model's own choices: logs 14, 102. -/
def Obligations.FloatRowsRoundTheExactResultOnce : Prop :=
  ∀ (r : Row) (s : State),
    let f := fmtOfTy r.ty
    let k := ImmKind.ty r.ty
    let d := decodeCode f
    let rnd (x : Machine.Num × W32) : Nat × W32 :=
      ((roundFmt f x.1 r.rm r.sat).1 % 2 ^ tyWidth r.ty, x.2 ||| (roundFmt f x.1 r.rm r.sat).2)
    let w := tyWidth r.ty
    let mag (a : Nat) : Nat := a % 2 ^ (w - 1)
    let top : Nat := (2 ^ f.e - 1) * 2 ^ f.m
    -- the value of a finite code is `value` over `one`
    let one : Int := 2 ^ (f.bias + f.m).toNat
    let value (a : Nat) : Int := (if a < 2 ^ (w - 1) then 1 else -1) *
      ((if mag a < 2 ^ f.m then mag a else 2 ^ f.m + mag a % 2 ^ f.m) * 2 ^ max (mag a / 2 ^ f.m) 1 : Nat)
    let picks (x n : Int) : Prop := match r.rm with
      | .rne => 2 * (x - n * one).natAbs ≤ one ∧ (2 * (x - n * one).natAbs = one → n % 2 = 0)
      | .rtz => n = if 0 ≤ x then x / one else -(-x / one)
      | .rdn => n = x / one
      | .rup => n = -(-x / one)
    let fused (neg negC : Bool) (a b c : Nat) : Machine.Num × W32 :=
      let p := mulNum (d a) (d b)
      let t := sumNum r.rm [if neg then p.1.neg else p.1, if negC then (d c).neg else d c]
      (t.1, p.2 ||| t.2)
    (rowGoes (.fadd r) r s = true → rowDoes (.fadd r) r 6 s (subs2 r k k fun a b => rnd (sumNum r.rm [d a, d b]))) ∧
    (rowGoes (.fsub r) r s = true → rowDoes (.fsub r) r 6 s (subs2 r k k fun a b => rnd (sumNum r.rm [d a, (d b).neg]))) ∧
    (rowGoes (.fmul r) r s = true → rowDoes (.fmul r) r 6 s (subs2 r k k fun a b => rnd (mulNum (d a) (d b)))) ∧
    (rowGoes (.ffma r) r s = true → rowDoes (.ffma r) r 8 s (subs3 r k fun a b c => rnd (fused false false a b c))) ∧
    (rowGoes (.ffms r) r s = true → rowDoes (.ffms r) r 8 s (subs3 r k fun a b c => rnd (fused false true a b c))) ∧
    (rowGoes (.fnfma r) r s = true → rowDoes (.fnfma r) r 8 s (subs3 r k fun a b c => rnd (fused true false a b c))) ∧
    (rowGoes (.fnfms r) r s = true → rowDoes (.fnfms r) r 8 s (subs3 r k fun a b c => rnd (fused true true a b c))) ∧
    (rowGoes (.fscale r) r s = true → rowDoes (.fscale r) r 6 s (subs2 r k (.int (tyWidth r.ty)) fun a b =>
      rnd ((d a).shift (toSigned (tyWidth r.ty) b), 0))) ∧
    (rowGoes (.fround r) r s = true → ∃ F : Nat → Nat × W32, rowDoes (.fround r) r 6 s (subs1 r k F) ∧ ∀ a, a < 2 ^ w →
      (top < mag a → F a = (f.nanCode, 0)) ∧ (mag a = top ∨ mag a = 0 → F a = (a, 0)) ∧
      (0 < mag a → mag a < top →
        (F a).1 < 2 ^ w ∧ mag (F a).1 < top ∧ ((F a).1 < 2 ^ (w - 1) ↔ a < 2 ^ (w - 1)) ∧
        (∃ n : Int, value (F a).1 = n * one ∧ picks (value a) n) ∧
        (F a).2 = if value (F a).1 = value a then 0 else flagNX)) ∧
    (rowGoes (.frcp r) r s = true → rowDoes (.frcp r) r 14 s (subs1 r k fun a => rnd (divNum (.fin false 1 0 false) (d a)))) ∧
    (rowGoes (.frsq r) r s = true → rowDoes (.frsq r) r 14 s (subs1 r k fun a => rnd (rsqNum (d a)))) ∧
    (rowGoes (.fsqrt r) r s = true → rowDoes (.fsqrt r) r 14 s (subs1 r k fun a => rnd (sqrtNum (d a)))) ∧
    (rowGoes (.fdiv r) r s = true → rowDoes (.fdiv r) r 18 s (subs2 r k k fun a b => rnd (divNum (d a) (d b)))) ∧
    (rowGoes (.fexp2 r) r s = true → rowDoes (.fexp2 r) r 16 s (subs1 r k fun a => rnd (exp2Num (d a)))) ∧
    (rowGoes (.flog2 r) r s = true → rowDoes (.flog2 r) r 16 s (subs1 r k fun a => rnd (log2Num (d a)))) ∧
    (rowGoes (.ftanh r) r s = true → rowDoes (.ftanh r) r 20 s (subs1 r k fun a => rnd (tanhNum (d a))))

/-- R203, R205: the sign rows change only the sign bit and give the canonical NaN for a NaN in A; `fmin` and `fmax` return one
operand unchanged, with −0 below +0, the other operand for one NaN and the canonical NaN for two, and raise nothing; `fclass` sets the one
bit of the table for each value and tests it against MASK. -/
def Obligations.FloatSignRowsAndClasses : Prop :=
  ∀ (r : Row) (s : State),
    let f := fmtOfTy r.ty
    let k := ImmKind.ty r.ty
    let w := tyWidth r.ty
    let d := decodeCode f
    let sign (F : Nat → Bool) (a : Nat) : Nat × W32 :=
      (if d a = .nan then f.nanCode % 2 ^ w else a % 2 ^ (w - 1) + (if F a then 2 ^ (w - 1) else 0), 0)
    let mag (a : Nat) : Nat := a % 2 ^ (w - 1)
    let top : Nat := (2 ^ f.e - 1) * 2 ^ f.m
    let neg (a : Nat) : Bool := decide (2 ^ (w - 1) ≤ a)
    -- the order of the patterns that are not NaN, −0 next below +0
    let key (a : Nat) : Int := if neg a then -(mag a : Int) - 1 else mag a
    let one (a b : Nat) (second : Bool) : Nat :=
      if top < mag a ∧ top < mag b then f.nanCode else if top < mag a then b else if top < mag b then a else if second then b else a
    let cls (a : Nat) : Nat :=
      if top < mag a then 8
      else if mag a = top then (if neg a then 0 else 7)
      else if mag a = 0 then (if neg a then 3 else 4)
      else if mag a < 2 ^ f.m then (if neg a then 2 else 5)
      else (if neg a then 1 else 6)
    (rowGoes (.fabs r) r s = true → rowDoes (.fabs r) r 2 s (subs1 r k (sign fun _ => false))) ∧
    (rowGoes (.fneg r) r s = true → rowDoes (.fneg r) r 2 s (subs1 r k (sign fun a => decide (a < 2 ^ (w - 1))))) ∧
    (rowGoes (.fcopysign r) r s = true → rowDoes (.fcopysign r) r 2 s (subs2 r k k fun a b =>
      sign (fun _ => decide (2 ^ (w - 1) ≤ b)) a)) ∧
    (rowGoes (.fmin r) r s = true → rowDoes (.fmin r) r 2 s (subs2 r k k fun a b => (one a b (decide (key b < key a)), 0))) ∧
    (rowGoes (.fmax r) r s = true → rowDoes (.fmax r) r 2 s (subs2 r k k fun a b => (one a b (decide (key a < key b)), 0))) ∧
    (rowGoes (.fclass r) r s = true → rowDoes (.fclass r) r 2 s fun u up res =>
      subs1 r k (fun a => (2 ^ cls a, 0)) u up ⟨res.val, 0, res.flags⟩ ∧
      ∀ l, l < 32 → (bit res.pbits l = true ↔ ∃ j, j < 9 ∧ bit r.imm j = true ∧ bit (res.val.lane l) j = true))

/-- R200: the integer compares, signed for `i` types and unsigned for `n` types.
R206: the float compares; a NaN makes `ne` and `un` true and every other relation false; no flag is raised. -/
def Obligations.Comparisons : Prop :=
  (∀ (r : Row) (s : State),
    let v := tyInt r.ty
    (rowGoes (.icmpEq r) r s = true → rowDoes (.icmpEq r) r 2 s (compares r fun a b => v a = v b)) ∧
    (rowGoes (.icmpNe r) r s = true → rowDoes (.icmpNe r) r 2 s (compares r fun a b => v a ≠ v b)) ∧
    (rowGoes (.icmpLt r) r s = true → rowDoes (.icmpLt r) r 2 s (compares r fun a b => v a < v b)) ∧
    (rowGoes (.icmpLe r) r s = true → rowDoes (.icmpLe r) r 2 s (compares r fun a b => v a ≤ v b)) ∧
    (rowGoes (.icmpGt r) r s = true → rowDoes (.icmpGt r) r 2 s (compares r fun a b => v a > v b)) ∧
    (rowGoes (.icmpGe r) r s = true → rowDoes (.icmpGe r) r 2 s (compares r fun a b => v a ≥ v b))) ∧
  (∀ (r : Row) (s : State),
    let d := decodeCode (fmtOfTy r.ty)
    let un (a b : Nat) : Prop := d a = .nan ∨ d b = .nan
    (rowGoes (.fcmpEq r) r s = true → rowDoes (.fcmpEq r) r 3 s (compares r fun a b => ¬un a b ∧ cmpNum (d a) (d b) = .eq)) ∧
    (rowGoes (.fcmpNe r) r s = true → rowDoes (.fcmpNe r) r 3 s (compares r fun a b => un a b ∨ cmpNum (d a) (d b) ≠ .eq)) ∧
    (rowGoes (.fcmpLt r) r s = true → rowDoes (.fcmpLt r) r 3 s (compares r fun a b => ¬un a b ∧ cmpNum (d a) (d b) = .lt)) ∧
    (rowGoes (.fcmpLe r) r s = true → rowDoes (.fcmpLe r) r 3 s (compares r fun a b => ¬un a b ∧ cmpNum (d a) (d b) ≠ .gt)) ∧
    (rowGoes (.fcmpGt r) r s = true → rowDoes (.fcmpGt r) r 3 s (compares r fun a b => ¬un a b ∧ cmpNum (d a) (d b) = .gt)) ∧
    (rowGoes (.fcmpGe r) r s = true → rowDoes (.fcmpGe r) r 3 s (compares r fun a b => ¬un a b ∧ cmpNum (d a) (d b) ≠ .lt)) ∧
    (rowGoes (.fcmpUn r) r s = true → rowDoes (.fcmpUn r) r 3 s (compares r un)) ∧
    (rowGoes (.fcmpOrd r) r s = true → rowDoes (.fcmpOrd r) r 3 s (compares r fun a b => ¬un a b)))

/-- R191 to R194: `nop` does nothing; `sig` counts one event in EV 9 and records CODE in EV 10; `trap`, an enabled `brk` and
a `tagchk` that differs take a fault at the row; `flagrd` reads the flag word; `fmtld` loads a slot from the lowest lane
whose guard is true, or takes a schedule fault. -/
def Obligations.SystemRows : Prop :=
  ∀ (r : Row) (s : State),
    let fault (u : State) (cls code : Nat) (info : BitVec 32) : State := takeFault u u.focus.ring (rowFault u cls code info 0)
    (rowGoes (.rowNop r) r s = true → rowEffect (.rowNop r) r s fun u _ => u) ∧
    (rowGoes (.sig r) r s = true → rowEffect (.sig r) r s fun u _ => u.onCtx u.focus.ring fun c =>
      { c with ev := tset (tset c.ev 9 (min (tget c.ev 9 0 + 1) (2 ^ 48 - 1))) 10 r.imm.toNat }) ∧
    (rowGoes (.rowTrap r) r s = true → rowEffect (.rowTrap r) r s fun u _ => fault u 8 r.imm.toNat 0) ∧
    (rowGoes (.rowBrk r) r s = true → rowEffect (.rowBrk r) r s fun u _ =>
      if (u.ring u.focus.ring).brken = true then fault u 9 r.imm.toNat 0 else u) ∧
    (rowGoes (.flagrd r) r s = true → rowDoes (.flagrd r) r 2 s (lanes fun u _ _ => u.me.flags ||| u.me.flagsNew)) ∧
    (rowGoes (.tagchk r) r s = true → rowEffect (.tagchk r) r s fun u _ =>
      if u.me.cht = r.imm then u else fault u 1 5 (r.imm ++ u.me.cht)) ∧
    (rowGoes (.fmtld r) r s = true →
      ∀ m, m < 32 → bit (guardMask (afterUp r s).me r.guard) m = true →
        (∀ l, l < m → bit (guardMask (afterUp r s).me r.guard) l = false) →
        let u := afterUp r s
        let d := ((srcA u (upWord r s) r (.int 32)).val.lane m).extractLsb' 0 24
        exec (.fmtld r) s = .next (if descValid d = true then
          u.onCtx u.focus.ring fun c => { c with fslotNew := c.fslotNew ++ [(r.imm.toNat % 8, d, some (8 * ((u.ring u.focus.ring).stripe u.focus.ps).occ.elim 0 (·.h) + u.focus.col))] }
        else fault u 1 11 0))

/-- R209 to R213: the conversions. `cvt`, `itof` and `ftoi` round the exact source value, placed as the table of R209 says;
`fexp8` gives the scale byte; `pack.f32` and `quant` replace byte k of the base by the code of the rounded value, and
`unpack.f32` decodes byte k, in the format of the slot as it stands; `pack.n8` and `unpack.n8` move nibbles. Where it rests on the
model's own choices: that an immediate of `cvt`, `itof` and `ftoi` is read in the source type (log 101), and that a widening `cvt` of an
infinity under `.sat` clamps it and raises SAT (log 102). -/
def Obligations.Conversions : Prop :=
  ∀ (r : Row) (s : State),
    let w := tyWidth r.ty
    let src := cvtSource r
    let ws := tyWidth src
    let pick (u : State) (up : Vec) (l e : Nat) : Nat :=
      let a := (srcA u up r (.ty src)).val.lane l
      let b := (srcB u up r (.ty src)).val.lane l
      if ws = w then subElem ws a e
      else if w < ws then (if e = 0 then a else b).toNat
      else subElem ws a (if ws = 16 then bits r.imm 4 1 else bits r.imm 4 2)
    let conv (round : Machine.Num → Nat × W32) :=
      eachSub r w fun u up l e => ((round (cvtNum src (pick u up l e))).1 % 2 ^ w, (round (cvtNum src (pick u up l e))).2)
    let slot (u : State) : Fmt := fmtOfDesc ((u.ctx u.focus.ring).fslot (bits r.imm 0 3))
    let k := bits r.imm 4 2
    let packed (v : State → Vec → Nat → Machine.Num) (base : State → Vec → Nat → W32) := eachSub r 32 fun u up l _ =>
      let y := roundFmt (slot u) (v u up l) r.rm r.sat
      ((setBits (base u up l) (8 * k) 8 y.1).toNat, y.2)
    let f32 (u : State) (up : Vec) (l : Nat) : Machine.Num := decodeCode Fmt.f32 ((srcA u up r (.ty .f32)).val.lane l).toNat
    let a32 (u : State) (up : Vec) (l : Nat) : W32 := (srcA u up r (.int 32)).val.lane l
    let b32 (u : State) (up : Vec) (l : Nat) : W32 := (srcB u up r (.int 32)).val.lane l
    let a8 (u : State) (up : Vec) (l : Nat) : W32 := (srcA u up r (.ty r.ty)).val.lane l
    let b8 (u : State) (up : Vec) (l : Nat) : W32 := (srcB u up r (.ty r.ty)).val.lane l
    let c32 (u : State) (up : Vec) (l : Nat) : W32 := (srcC u up r (.int 32)).val.lane l
    (rowGoes (.cvt r) r s = true → rowDoes (.cvt r) r 4 s (conv fun x => roundFmt (fmtOfTy r.ty) x r.rm r.sat)) ∧
    (rowGoes (.itof r) r s = true → rowDoes (.itof r) r 4 s (conv fun x => roundFmt (fmtOfTy r.ty) x r.rm r.sat)) ∧
    (rowGoes (.ftoi r) r s = true → rowDoes (.ftoi r) r 4 s (conv fun x => roundInt w (tySigned r.ty) x r.rm)) ∧
    (rowGoes (.fexp8 r) r s = true → rowDoes (.fexp8 r) r 4 s (eachSub r 32 fun u up l _ =>
      match f32 u up l with
      | .nan => (255, 0)
      | .inf _ => (255, 0)
      | .fin _ n e _ =>
        let x := ilog2 n e - r.imm.toInt + 127
        if n = 0 then (127, 0) else if x < 0 then (0, flagSAT) else if 254 < x then (254, flagSAT) else (x.toNat, 0))) ∧
    (rowGoes (.packF32 r) r s = true → rowDoes (.packF32 r) r 3 s (packed f32 b32)) ∧
    (rowGoes (.quant r) r s = true → rowDoes (.quant r) r 4 s (packed (fun u up l =>
      let e := (b32 u up l).toNat % 256
      if e = 255 then .nan else (f32 u up l).shift (127 - (e : Int))) c32)) ∧
    (rowGoes (.unpackF32 r) r s = true → rowDoes (.unpackF32 r) r 3 s (eachSub r 32 fun u up l _ =>
      let y := roundFmt Fmt.f32 (decodeCode (slot u) ((a32 u up l).toNat / 2 ^ (8 * k) % 2 ^ (slot u).width)) r.rm false
      (y.1 % 2 ^ 32, y.2))) ∧
    (rowGoes (.packN8 r) r s = true → rowDoes (.packN8 r) r 3 s fun u up res => res.flags = 0 ∧
      ∀ l, l < 32 → ∀ j, j < 4 → subElem 4 (res.val.lane l) j = subElem 8 (a8 u up l) j % 16 ∧
        subElem 4 (res.val.lane l) (4 + j) = subElem 8 (b8 u up l) j % 16) ∧
    (rowGoes (.unpackN8 r) r s = true → rowDoes (.unpackN8 r) r 3 s fun u up res => res.flags = 0 ∧
      ∀ l, l < 32 → ∀ j, j < 4 → subElem 8 (res.val.lane l) j = subElem 4 (a8 u up l) (4 * bits r.imm 4 1 + j))

/-- R215, R216: `psel` chooses whole lanes by tags or by a predicate; the predicate rows compute each bit; `pany` and `pall`
look at the lanes whose guard is true.
R218: which source lane each lane of the moving rows takes. -/
def Obligations.PredicateAndLaneRows : Prop :=
  (∀ (r : Row) (s : State),
    let k := ImmKind.int 32
    let p (u : State) (o : Opnd) (l : Nat) : Bool := bit (readPred u o) l
    let g (u : State) (l : Nat) : Bool := bit (guardMask u.me r.guard) l
    (rowGoes (.pselTag r) r s = true → rowDoes (.pselTag r) r 1 s (lanes fun u up l =>
      if bit (srcA u up r k).tag l then (srcA u up r k).val.lane l else (srcB u up r k).val.lane l)) ∧
    (rowGoes (.pselPred r) r s = true → rowDoes (.pselPred r) r 1 s (lanes fun u up l =>
      if p u r.sa l then (srcB u up r k).val.lane l else (srcC u up r k).val.lane l)) ∧
    (rowGoes (.pmovPredToVec r) r s = true → rowDoes (.pmovPredToVec r) r 1 s (lanes fun u _ l =>
      if p u r.sa l then 0xFFFFFFFF else 0)) ∧
    (rowGoes (.pand r) r s = true → rowDoes (.pand r) r 1 s (predBits fun u _ l => p u r.sa l && p u r.sb l)) ∧
    (rowGoes (.por r) r s = true → rowDoes (.por r) r 1 s (predBits fun u _ l => p u r.sa l || p u r.sb l)) ∧
    (rowGoes (.pxor r) r s = true → rowDoes (.pxor r) r 1 s (predBits fun u _ l => p u r.sa l ^^ p u r.sb l)) ∧
    (rowGoes (.pnot r) r s = true → rowDoes (.pnot r) r 1 s (predBits fun u _ l => !p u r.sa l)) ∧
    (rowGoes (.pset r) r s = true → rowDoes (.pset r) r 1 s (predBits fun _ _ l => bit r.imm (l % 16))) ∧
    (rowGoes (.pmovPred r) r s = true → rowDoes (.pmovPred r) r 1 s (predBits fun u _ l => p u r.sa l)) ∧
    (rowGoes (.pmovVecToPred r) r s = true → rowDoes (.pmovVecToPred r) r 1 s (predBits fun u up l =>
      if bit r.imm 0 then bit (srcA u up r k).tag l else (srcA u up r k).val.lane l != 0)) ∧
    (rowGoes (.pany r) r s = true → rowDoes (.pany r) r 1 s fun u _ res => res.flags = 0 ∧
      ∀ l, l < 32 → (bit res.pbits l = true ↔ ∃ m, m < 32 ∧ g u m = true ∧ p u r.sa m = true)) ∧
    (rowGoes (.pall r) r s = true → rowDoes (.pall r) r 1 s fun u _ res => res.flags = 0 ∧
      ∀ l, l < 32 → (bit res.pbits l = true ↔ ∀ m, m < 32 → g u m = true → p u r.sa m = true))) ∧
  (∀ (r : Row) (s : State),
    let a (u : State) (up : Vec) (l : Nat) : W32 := (srcA u up r (.int 32)).val.lane l
    let b (u : State) (up : Vec) (l : Nat) : W32 := (srcB u up r (.int 32)).val.lane l
    let n := r.imm.toNat % 32
    let h := r.imm.toNat % 2
    (rowGoes (.lrot r) r s = true → rowDoes (.lrot r) r 3 s (lanes fun u up l => a u up ((l + n) % 32))) ∧
    (rowGoes (.lbcast r) r s = true → rowDoes (.lbcast r) r 3 s (lanes fun u up _ => a u up n)) ∧
    (rowGoes (.lshuf r) r s = true → rowDoes (.lshuf r) r 3 s (lanes fun u up l => a u up ((b u up l).toNat % 32))) ∧
    (rowGoes (.lzip r) r s = true → rowDoes (.lzip r) r 3 s (lanes fun u up l =>
      if l % 2 = 0 then a u up (16 * h + l / 2) else b u up (16 * h + (l - 1) / 2))) ∧
    (rowGoes (.lunzip r) r s = true → rowDoes (.lunzip r) r 3 s (lanes fun u up l =>
      if l < 16 then a u up (2 * l + h) else b u up (2 * (l - 16) + h))))

/-- R219, R220: a reduction writes the root of the tree over the lanes whose guard is true, or the identity, into every lane;
a scan writes each lane's prefix, made of nodes of the same tree; the flags are those of every comb made. -/
def Obligations.ReductionsFollowTheTree : Prop :=
  ∀ (r : Row) (s : State),
    let red (c : Comb) (u : State) (up : Vec) (res : RowResult) : Prop :=
      let root := treeNode c r.ty r.rm r.sat (leafOf r u up) 5 0
      (∀ l, l < 32 → res.val.lane l = BitVec.ofNat 32 (root.1.getD (identityOf c r.ty))) ∧ res.flags = root.2
    (rowGoes (.lredAdd r) r s = true → rowDoes (.lredAdd r) r 10 s (red .add)) ∧
    (rowGoes (.lredMax r) r s = true → rowDoes (.lredMax r) r 10 s (red .max)) ∧
    (rowGoes (.lredMin r) r s = true → rowDoes (.lredMin r) r 10 s (red .min)) ∧
    (rowGoes (.lscanAdd r) r s = true → rowDoes (.lscanAdd r) r 12 s fun u up res =>
      let leaf := leafOf r u up
      (∀ l, l < 32 → res.val.lane l = BitVec.ofNat 32 ((prefixOf r.ty r.rm r.sat leaf l).1.getD 0)) ∧
      ∀ b, b < 32 → (bit res.flags b = true ↔ bit (treeNode .add r.ty r.rm r.sat leaf 5 0).2 b = true ∨
        ∃ l, l < 32 ∧ bit (prefixOf r.ty r.rm r.sat leaf l).2 b = true))

/-! ### Rows of memory, queues and the matrix unit -/

/-- R222, R225, R226, R315: `sld` reads the word that lane 0 of A and the displacement name, at once, for result time c + 4,
and consumes poison instead when a chunk of it is poisoned; `sst` records the store of B in the lanes of the guard, whose
effect R226 places at the end of c + 1, and R184 two cycles later when the row reads `up`. Both are charged for the bank word.
R226, R77: a store that lands outside an unwinding writes the bytes 4ℓ to 4ℓ + 3 of its word for every lane ℓ of its mask and no
other byte of any block, in either layout. -/
def Obligations.ScratchpadAccesses : Prop :=
  (∀ (r : Row) (s : State),
    let u := afterUp r s
    let up := upWord r s
    let n := memWord r u up
    let blk := memBlock r u
    (rowGoes (.sld r) r s = true → (u.ring u.focus.ring).spadPoisoned blk (128 * n) 128 (bit r.imm 14) = false →
      exec (.sld r) s = .next (addPend (charged r u up) (rowPends (charged r u up) r 4
        (RowResult.ofVec ((u.ring u.focus.ring).wordAt blk n (bit r.imm 14)))))) ∧
    (rowGoes (.sld r) r s = true → (u.ring u.focus.ring).spadPoisoned blk (128 * n) 128 (bit r.imm 14) = true →
      exec (.sld r) s = .next (consumeAtRow (charged r u up) 2 (blk * Config.blockBytes + 128 * n))) ∧
    (rowGoes (.sst r) r s = true → rowEffect (.sst r) r s fun u up =>
      addPend (charged r u up) [{ Pend.empty (u.now + (if rowReadsUp r then 4 else 2)) with
        dst := .store (bit r.imm 15) (memWord r u up) (bit r.imm 14), val := (srcB u up r (.int 32)).val,
        mask := guardMask u.me r.guard }])) ∧
  (∀ (x : Ring) (ps k w : Nat) (down swz : Bool) (p : Pend), p.dst = .store down w swz → w < 16384 → ps < 16 →
    x.spad.wf = true → x.ctx.unwinding = none →
    let y := landPend ps k x p
    let blk := x.blockOf ps down
    (∀ l, l < 32 → ∀ i, i < 4 → y.spadByte blk (128 * w + 4 * l + i) swz =
      if bit p.mask l = true then BitVec.ofNat 8 ((p.val.lane l).toNat / 2 ^ (8 * i))
      else x.spadByte blk (128 * w + 4 * l + i) swz) ∧
    (∀ o, o < Config.blockBytes → o / 128 ≠ w → y.spadByte blk o swz = x.spadByte blk o swz) ∧
    (∀ a, a / Config.blockBytes ≠ blk → y.spad.read a = x.spad.read a))

/-- R228, R229, R80, R82: `qpop` and `qpeek` deliver the entry at the next unreserved position: the word of a word queue, zero
for a bubble, or bytes 128W to 128W + 127 of a tile's payload with zeros beyond the padding, when the tile's checks pass, and then
CHT takes CHTAG. `qpop` reserves and pops the position, whatever the guard. Where no entry is visible the ring is
asked to hold; a tile that fails its checks, or W other than 0 in a word queue, is a schedule fault that leaves the entry. R230, R227:
`qpush` records one word for c + 1, or at result time c + 4 when it reads `up`, with zero in false lanes, the guard as lane mask and
the sideband of IMM; `gadr` joins one address word with its mask to an open gather stream, which may use it at once, or from c + 4 when
the row reads `up`, and holds the ring on a full buffer. A tile queue, and a stream that is not open in MODE 1, are schedule faults with
nothing popped (R251). Where it rests on the model's own choices: log 20. -/
def Obligations.QueueRows : Prop :=
  (∀ (pop : Bool) (r : Row) (s : State) (q : QName),
    let i : Instr := if pop then .qpop r else .qpeek r
    let g := s.focus.ring
    let x := s.ring g
    let blk := s.block q.down
    let st := x.qstate blk q.n.val
    let w := r.imm.toNat % 2048
    let taken (u : State) : State := if pop then popReserved u blk q.n.val else u
    i.check = none → isNoOp r.guard = false → dnGoes r s = true → r.sa = .queue q →
    (∀ c m, x.queue q.n.val = some c → st.entry st.resv = some m → m.vis ≤ x.ctx.rcyc → m.poison = 0 → c.tile = false →
      w = 0 → x.spadPoisoned blk (128 * c.word st.resv) 128 false = false →
        let u := taken (s.onRing g fun x => x.useBank blk (c.word st.resv) false)
        exec i s = .next (addPend u (rowPends u r 4 (RowResult.ofVec
          (if m.lr = false ∧ m.ls = true then Vec.zero else x.wordAt blk (c.word st.resv) false))))) ∧
    (∀ c m, x.queue q.n.val = some c → st.entry st.resv = some m → m.vis ≤ x.ctx.rcyc → m.poison = 0 → c.tile = true →
      let t := x.tileAt blk c st.resv m
      x.firstPoisoned t = false → x.tileCheck t c.ent = none →
      x.tilePoisoned t (t.payloadAt + 128 * w) (min 128 (pad32 t.payloadLen - 128 * w)) = false →
        let y := (x.useTile t 0 t.payloadAt).useTile t (t.payloadAt + 128 * w) (min 128 (pad32 t.payloadLen - 128 * w))
        let u := taken ((s.setRing g y).onMe fun e => { e with cht := enChtag t.ensign })
        exec i s = .next (addPend u (rowPends u r 4 (RowResult.ofVec (vecOfBytes ((List.range 128).map fun n =>
          if 128 * w + n < pad32 t.payloadLen then x.tileByte t (t.payloadAt + 128 * w + n) else 0)))))) ∧
    (∀ c m, x.queue q.n.val = some c → st.entry st.resv = some m → m.vis ≤ x.ctx.rcyc →
      (c.tile = false → w ≠ 0 → exec i s = .next (scheduleFaultAt s 7)) ∧
      (c.tile = true →
        let e := (x.tileAt blk c st.resv m).ensign
        m.poison = 0 → x.firstPoisoned (x.tileAt blk c st.resv m) = false → x.tileCheck (x.tileAt blk c st.resv m) c.ent ≠ none →
          exec i s = .next (tileFaultAt s (badTileCode e) 0 (enProdctx e)))) ∧
    ((x.queue q.n.val = none ∨ st.entry st.resv = none ∨ ∃ m, st.entry st.resv = some m ∧ x.ctx.rcyc < m.vis) →
      exec i s = .next (askHold s g (x.popCause blk q.n.val)))) ∧
  (∀ (r : Row) (s : State),
    let someLane := guardMask s.me r.guard ≠ 0
    (∀ q : QName, rowGoes (.qpush r) r s = true → r.dst = .queue q →
      (isTileQueue s q.n.val = true → someLane → exec (.qpush r) s = .next (scheduleFaultAt s 7)) ∧
      (isTileQueue s q.n.val = false ∨ ¬someLane → rowEffect (.qpush r) r s fun u up =>
        let guard := guardMask u.me r.guard
        addPend u [{ Pend.empty (u.now + (if rowReadsUp r then 4 else 1)) with
          dst := .push q.down q.n.val (bit r.imm 1) (bit r.imm 0), mask := guard,
          val := Vec.ofLanes fun l => if bit guard l then (srcA u up r (.int 32)).val.lane l else 0 }])) ∧
    (rowGoes (.gadr r) r s = true →
      let g := s.focus.ring
      let n := r.imm.toNat % 32
      let x := (s.ctx g).stream n
      let gathering : Prop := x.isOpen = true ∧ sdMode x.desc = 1
      (¬gathering → someLane → exec (.gadr r) s = .next (scheduleFaultAt s 12)) ∧
      (gathering ∨ ¬someLane → rowEffect (.gadr r) r s fun u up =>
        if x.gather.length < 64 then
          u.onCtx g fun c => c.setStream n
            { x with gather := x.gather ++
                [((srcA u up r (.int 32)).val, guardMask u.me r.guard, u.now + (if rowReadsUp r then 4 else 0))] }
        else askHold u g (if x.stopped.isSome then 5 else 2))))

/-- R231, R232: a `qtx` whose source tile meets the list of R231, with room in its destination and in the record's TAIL, completes:
it reserves one position of the source, takes CHT from the ensign, and starts the transpose of a rows by b columns in this cycle.
A second one before the first is through is a schedule fault with code 4; a tile that fails is one with code 11 or 6, a word queue as
source one with code 7, and neither is consumed; a tile not visible yet asks the ring to hold.
R234, R235, R236, R240, R242: a tile step on a busy sequencer is a schedule fault with code 4. On a free one it completes: at once
when the array is gated, with its start MWAKE later; and awake when its first tile of A is visible and meets the checks of R235 to
R237, which it then reads in this cycle, taking CHT from it. Either way it reserves its positions in both queues and opens the
windows of what it writes. An awake one whose tile of A is not visible yet asks the ring to hold and has not issued; one whose tile of A
fails a check of R236, or whose first window's bank is still to be drained, takes the schedule fault of that check (R239, R251). -/
def Obligations.TransposesAndTileStepsStart : Prop :=
  (∀ (r : Row) (s : State) (sq dq : QName), rowGoes (.qtx r) r s = true → r.sa = .queue sq → r.dst = .queue dq →
    let u := afterUp r s
    let x := u.ring u.focus.ring
    let blk := u.block sq.down
    let st := x.qstate blk sq.n.val
    guardMask u.me r.guard ≠ 0 →
    (∀ o, u.me.qtx = some o → u.now < o.start + 16 / o.esize + 4 + o.cols → exec (.qtx r) s = .next (scheduleFaultAt u 4)) ∧
    (∀ c dc, (∀ o, u.me.qtx = some o → o.start + 16 / o.esize + 4 + o.cols ≤ u.now) →
      x.queue sq.n.val = some c → x.queue dq.n.val = some dc →
      (c.tile = false → exec (.qtx r) s = .next (scheduleFaultAt u 7)) ∧
      (c.tile = true → (st.entry st.resv = none ∨ ∃ m, st.entry st.resv = some m ∧ x.ctx.rcyc < m.vis) →
        exec (.qtx r) s = .next (askHold u u.focus.ring (x.popCause blk sq.n.val)))) ∧
    (∀ c dc m, (∀ o, u.me.qtx = some o → o.start + 16 / o.esize + 4 + o.cols ≤ u.now) →
      x.queue sq.n.val = some c → x.queue dq.n.val = some dc → c.tile = true → st.entry st.resv = some m →
      m.vis ≤ x.ctx.rcyc →
      let t := x.tileAt blk c st.resv m
      let a := enNrows t.ensign
      let b := enNcols t.ensign
      let fits (es : Nat) : Prop := qtxSize (enFmt t.ensign) = some es ∧ enLayout t.ensign ≠ 1 ∧ a * es = 128 ∧
        b * es % 16 = 0 ∧ (dc.tile = true → t.payloadAt + 128 * b ≤ 128 * dc.ent) ∧
        u.now - u.focus.col - u.focus.ent + 16 / es + 4 + (b - 1) + 7 ≤ (x.stripe u.focus.ps).record.elim 0 recTail
      (m.poison = 0 → x.firstPoisoned t = false → x.tileCheck t c.ent ≠ none ∨ (∀ es, ¬fits es) →
        exec (.qtx r) s = .next (tileFaultAt u (badTileCode t.ensign) 0 (enProdctx t.ensign))) ∧
      ∀ es, x.tileCheck t c.ent = none → fits es → m.poison = 0 →
        x.firstPoisoned t = false → qtxPoisoned x t es b 0 = false →
        ∃ (v : State) (o : QtxOp), exec (.qtx r) s = .next v ∧ v.me.qtx = some o ∧ o.start = u.now ∧ o.rows = a ∧ o.cols = b ∧
          o.esize = es ∧ o.src = sq.n.val ∧ o.srcDown = sq.down ∧ o.dst = dq.n.val ∧ o.dstDown = dq.down ∧ o.pos = st.resv ∧
          o.olay = bit r.imm 0 ∧ v.me.cht = enChtag t.ensign ∧
          ((v.ring u.focus.ring).qstate blk sq.n.val).resv = st.resv + 1)) ∧
  (∀ (r : TileRow) (s : State) (n : Nat) (i : Instr),
    (i, n) ∈ [(Instr.mmaBf16 r, 0), (.mmaF16 r, 1), (.mmaF8 r, 2), (.mmc r, 3), (.mmcCh r, 4)] → i.check = none → r.nop = false →
    let g := s.focus.ring
    -- the tiles of a tile step whose last repetition ended with the cycle before are popped first
    let u := finishTile s
    let x := u.ring g
    let blk := u.block r.qa.down
    let st := x.qstate blk r.qa.n.val
    let reps := r.rep.toNat + 1
    let positions (pop : Nat) : Nat := if pop = 0 then 1 else (reps + pop - 1) / pop
    let start := s.now + (if u.me.gated = true then 64 else 0)
    let opens (v : State) (res late : Nat) : Prop := (⟨res, s.now, start + 4 * reps + late, true⟩ : Window) ∈ v.me.wins
    let starts (reads : TileOp → State → Prop) : Prop :=
      ∃ (v : State) (o : TileOp), exec i s = .next v ∧ v.me.tile = some o ∧ reads o v ∧
        o.start = start ∧ o.kind = n ∧ o.reps = reps ∧ o.acb = r.acb.val ∧ o.zero = r.zero ∧ o.ck = r.ck ∧
        o.a.q = r.qa.n.val ∧ o.a.down = r.qa.down ∧ o.a.pop = r.apop.toNat ∧ o.a.pen = r.pen ∧ o.a.trans = r.ta ∧
        o.b.q = r.qb.n.val ∧ o.b.down = r.qb.down ∧ o.b.pop = r.bpop.toNat ∧ o.b.pen = r.pen ∧ o.b.trans = r.tb ∧
        o.a.first = st.resv ∧ o.a.count = positions r.apop.toNat ∧ o.b.count = positions r.bpop.toNat ∧
        (16 * blk + r.qa.n.val ≠ 16 * u.block r.qb.down + r.qb.n.val →
          o.b.first = (x.qstate (u.block r.qb.down) r.qb.n.val).resv ∧
          ((v.ring g).qstate blk r.qa.n.val).resv = st.resv + o.a.count ∧
          ((v.ring g).qstate (u.block r.qb.down) r.qb.n.val).resv = o.b.first + o.b.count) ∧
        v.me.gated = false ∧ (∀ w ∈ u.me.wins, w ∈ v.me.wins) ∧ (n < 3 → opens v r.acb.val 12) ∧
        (n = 3 → opens v 4 2 ∧ opens v 5 2 ∧ opens v 6 2) ∧ (n = 4 → opens v 4 0 ∧ opens v 5 0)
    ((∃ o, s.me.tile = some o ∧ s.now < o.start + 4 * o.reps) → exec i s = .next (scheduleFaultAt s 4)) ∧
    ((∀ o, s.me.tile = some o → o.start + 4 * o.reps ≤ s.now) →
      (u.me.gated = true → starts fun o v => o.a.read = false ∧ v.me.cht = s.me.cht) ∧
      (u.me.gated = false →
        (x.queue r.qa.n.val = none ∨ ∃ c, x.queue r.qa.n.val = some c ∧ c.tile = true ∧
          (st.entry st.resv = none ∨ ∃ m, st.entry st.resv = some m ∧ x.ctx.rcyc < m.vis)) →
        exec i s = .next (askHold s g (x.popCause blk r.qa.n.val))) ∧
      (u.me.gated = false → ∀ c, x.queue r.qa.n.val = some c → c.tile = false → exec i s = .next (tileFaultAt s 7 0 0)) ∧
      (u.me.gated = false → ∀ c m, x.queue r.qa.n.val = some c → c.tile = true → st.entry st.resv = some m → m.vis ≤ x.ctx.rcyc →
        let t := x.tileAt blk c st.resv m
        let e := t.ensign
        let bad (code : Nat) (info : BitVec 32) : Prop := exec i s = .next (tileFaultAt s code info (enProdctx e))
        let valid : Prop := fmtIsWide (enFmt e) = true ∨ descValid (enFmt e) = true
        let drains : Prop := ∃ y ∈ u.me.lands ++ u.me.lateLands, y.2 = .drain (firstBank u.me r.win.val % 2)
        let clean : Prop := m.poison = 0 ∧ x.firstPoisoned t = false
        let passes : Prop := enPennant e = r.pen ∧ (3 ≤ n → countingDesc (enFmt e) = true) ∧ x.tileCheck t c.ent = none ∧
          tileFits n true r.ta e = true ∧ clean ∧
          groupPoisoned x t true r.ta (if n ≤ 1 then 16 else if n = 2 then 32 else 64) 0 = false
        (clean → enPennant e ≠ r.pen → bad 1 (r.pen ++ enPennant e)) ∧
        (clean → enPennant e = r.pen → ¬valid → bad 11 0) ∧
        (clean → enPennant e = r.pen → valid → 3 ≤ n → countingDesc (enFmt e) = false → bad 3 0) ∧
        (clean → enPennant e = r.pen → valid → (3 ≤ n → countingDesc (enFmt e) = true) →
          (x.tileCheck t c.ent ≠ none ∨ tileFits n true r.ta e = false) → bad 6 0) ∧
        (passes → 3 ≤ n → drains → bad 4 0) ∧
        (passes → (3 ≤ n → ¬drains) →
          starts fun o v => o.a.read = true ∧ o.afmt = enFmt e ∧ v.me.cht = enChtag e))))

/-- R242 to R245, R248, R249: `accz` and `accwr` write a resource at c + 1 and c + 2 (c + 4 when it reads `up`, R184), with a write
window until then, and fault inside an open one; `xcfg` sets the weight at c + 2; `accrd` reads cells or entries as they stand at issue; `xcvt` rounds
the cells of `xa` once, `mchk` the exact difference of a checksum and its sum, whose zero is +0 unless every term is -0; `mbnd` gives the largest exponents.
Where it rests on the model's own choice: an immediate in A of `accwr` is read as an `f32` pattern (log 103). -/
def Obligations.MatrixRegisterRows : Prop :=
  ∀ (r : Row) (s : State),
    let bank : Nat := match r.sa with | .mat (.acc n) => n.val | _ => 0
    let cell (u : State) (i j : Nat) : Machine.Num := decodeCode Fmt.f32 (u.me.accCell bank i j).toNat
    let h := r.imm.toNat % 8
    (∀ m, rowGoes (.accz r) r s = true → r.dst = .mat m →
      (inWindow s s.me (resOf m) → windowFaults (.accz r) r s) ∧
      (¬inWindow s s.me (resOf m) → rowEffect (.accz r) r s fun u _ =>
        addPend (openWindow u (resOf m) (u.now + 1)) [{ Pend.empty (u.now + 1) with
          dst := match m with
            | .acc n => .bank n.val
            | .ckr n => .bank n.val
            | .ckc n => .bank n.val
            | .cb n => .counters n.val
            | .xa => .xaClear }])) ∧
    (∀ m d, rowGoes (.accwr r) r s = true → r.dst = .mat m →
      (m, d) ∈ (List.finRange 4).flatMap (fun n => [(MatReg.acc n, PendDst.bankCells n.val h), (.ckr n, .check n.val false),
        (.ckc n, .check n.val true)]) →
      (inWindow s s.me (resOf m) → windowFaults (.accwr r) r s) ∧
      (¬inWindow s s.me (resOf m) → rowEffect (.accwr r) r s fun u up =>
        let at_ := u.now + (if rowReadsUp r then 4 else 2)
        addPend (openWindow u (resOf m) at_) [{ Pend.empty at_ with
          dst := d, val := (srcA u up r (.ty .f32)).val, mask := guardMask u.me r.guard }])) ∧
    (rowGoes (.xcfg r) r s = true → rowEffect (.xcfg r) r s fun u _ =>
      addPend u [{ Pend.empty (u.now + 2) with dst := .xaWeight r.imm.toInt }]) ∧
    (∀ n, rowGoes (.accrd r) r s = true → r.sa = .mat (.acc n) →
      rowDoes (.accrd r) r 4 s (lanes fun u _ l => u.me.accCell n.val (2 * h + l / 16) (l % 16))) ∧
    (∀ n, rowGoes (.accrd r) r s = true → r.sa = .mat (.ckr n) →
      rowDoes (.accrd r) r 4 s (lanes fun u _ l => if l < 16 then u.me.ckrAt n.val l else 0)) ∧
    (∀ n, rowGoes (.accrd r) r s = true → r.sa = .mat (.ckc n) →
      rowDoes (.accrd r) r 4 s (lanes fun u _ l => if l < 16 then u.me.ckcAt n.val l else 0)) ∧
    (rowGoes (.xcvt r) r s = true → rowDoes (.xcvt r) r 4 s (eachSub r 32 fun u _ l _ =>
      let x := u.me.xaAt (16 * (2 * h + l / 16) + l % 16)
      let y := roundFmt Fmt.f32 (.fin (x < 0) x.natAbs u.me.lexp false) r.rm false
      (y.1 % 2 ^ 32, y.2))) ∧
    (rowGoes (.mchk r) r s = true → rowDoes (.mchk r) r 6 s (eachSub r 32 fun u _ l _ =>
      let ck := if l < 16 then u.me.ckrAt bank l else u.me.ckcAt bank (l - 16)
      let v := sumNum .rne (decodeCode Fmt.f32 ck.toNat ::
        (List.range 16).map fun k => (if l < 16 then cell u l k else cell u k (l - 16)).neg)
      let y := roundFmt Fmt.f32 v.1 r.rm false
      (y.1 % 2 ^ 32, v.2 ||| y.2))) ∧
    (rowGoes (.mbnd r) r s = true → rowDoes (.mbnd r) r 4 s fun u _ res => res.flags = 0 ∧
      ∀ l, l < 32 →
        let e (k : Nat) : Int := match (if l < 16 then cell u l k else cell u k (l - 16)) with
          | .fin _ n x _ => if n = 0 then -2 ^ 31 else ilog2 n x
          | _ => 2 ^ 31 - 1
        (∀ k, k < 16 → e k ≤ (res.val.lane l).toInt) ∧ ∃ k, k < 16 ∧ (res.val.lane l).toInt = e k)

/-- R246: a `cmerge` outside every window takes its source, empty where there is none, clears it, and lands at c + 2;
with DRAIN `cbD` is drained into `xa` at c + 4, whose window on `xa` runs from c + 2. It faults with code 4 inside a window, 3
where the scale pairs of two non-empty banks differ, and 2 where the depths exceed 127. R247, R242, R315: `xld` and `xmerge` read words n to n
+ 23, the first now, into a window on `xa` until c + 28, and fault with code 4 inside one; `xst` records 24 stores of
the `xa` that stands now, word k for the end of c + k + 1. Where it rests on the model's own choices: log 35. -/
def Obligations.CounterMergesAndImages : Prop :=
  (∀ (r : Row) (s : State) (d : Fin 2), rowGoes (.cmerge r) r s = true → r.dst = .mat (.cb d) →
    let u := afterUp r s
    guardMask u.me r.guard ≠ 0 →
    let drain := bit r.imm 0
    let here (d : Nat) : Prop := inWindow u u.me (4 + d) ∨ (drain = true ∧ inWindowAt (u.now + 2) u.me 6)
    -- without a source, or west of column 0
    (mergeSource u r = none →
      (here d.val → exec (.cmerge r) s = .next (scheduleFaultAt u 4)) ∧
      (¬here d.val → u.me.depthOf d.val ≤ 127 → ∃ v, exec (.cmerge r) s = .next v ∧
        v.me.lands = u.me.lands ++ (if drain = true then [(u.now + 4, TileLand.drain d.val)] else []))) ∧
    -- from counter bank b of column k
    (∀ k b, mergeSource u r = some (k, b) →
      let x := u.elem u.focus.ring u.focus.ps k
      let mixed : Prop := x.depthOf b ≠ 0 ∧ u.me.depthOf d.val ≠ 0 ∧ ∃ c, c < 256 ∧ x.pairOf b c ≠ u.me.pairOf d.val c
      (here d.val ∨ inWindow u x (4 + b) → exec (.cmerge r) s = .next (scheduleFaultAt u 4)) ∧
      (¬(here d.val ∨ inWindow u x (4 + b)) → mixed → exec (.cmerge r) s = .next (scheduleFaultAt u 3)) ∧
      (¬(here d.val ∨ inWindow u x (4 + b)) → ¬mixed → 127 < x.depthOf b + u.me.depthOf d.val →
        exec (.cmerge r) s = .next (scheduleFaultAt u 2)) ∧
      (¬(here d.val ∨ inWindow u x (4 + b)) → ¬mixed → x.depthOf b + u.me.depthOf d.val ≤ 127 →
        ∃ v, exec (.cmerge r) s = .next v ∧
          (v.elem u.focus.ring u.focus.ps k).cb = tdelRange x.cb (256 * b * 28) (256 * 28) ∧
          (v.elem u.focus.ring u.focus.ps k).depthOf b = 0 ∧
          v.me.lands = u.me.lands ++
            (if x.depthOf b = 0 then []
              else [(u.now + 2, TileLand.counts d.val (x.depthOf b) (x.cfmtOf b) (tget x.cscaled b false) (bankCells x b))]) ++
            (if drain = true then [(u.now + 4, TileLand.drain d.val)] else [])))) ∧
  (∀ (r : Row) (s : State),
    let word (u : State) (up : Vec) (k : Nat) : Nat := (memWord r u up + k) % 16384
    let op (u : State) (up : Vec) (kind : Nat) (bs : List Byte) : XOp :=
      { start := u.now, vs := ((u.ring u.focus.ring).stripe u.focus.ps).occ.elim 0 (·.vs), slot := u.focus.slot,
        ent := u.focus.ent, kind := kind, down := bit r.imm 15, swz := bit r.imm 14, word := memWord r u up, bytes := bs }
    let load (kind : Nat) (u : State) (up : Vec) : State :=
      let x := u.ring u.focus.ring
      let at_ := 128 * memWord r u up
      if x.spadPoisoned (memBlock r u) at_ 128 (bit r.imm 14) = true then
        consumeAtRow (charged r u up) 2 (memBlock r u * Config.blockBytes + at_)
      else (openWindow (charged r u up) 6 (u.now + 28)).onMe fun e =>
        { e with xops := e.xops ++ [op u up kind (x.spadRead (memBlock r u) at_ (bit r.imm 14) 128)] }
    (∀ i kind, (i, kind) ∈ [(Instr.xld r, 0), (.xmerge r, 1)] → rowGoes i r s = true →
      (inWindow s s.me 6 → windowFaults i r s) ∧
      (¬inWindow s s.me 6 → rowEffect i r s (load kind))) ∧
    (rowGoes (.xst r) r s = true → rowEffect (.xst r) r s fun u up =>
      addPend ((charged r u up).onMe fun e => { e with xops := e.xops ++ [op u up 2 []] })
        ((List.range 24).map fun k => { Pend.empty (u.now + k + 2) with
          dst := .store (bit r.imm 15) (word u up k) (bit r.imm 14),
          val := vecOfBytes ((u.me.xaBytes.drop (128 * k)).take 128), mask := 0xFFFFFFFF,
          -- the cycle after the row's own in which word k is charged
          tag := BitVec.ofNat 32 k })))

/-! ### Where results go -/

/-- R100, R185, R183, R69, R70, R72, R189: what a row of latency `lat` records at its issue. A register is the
physical one of this cycle; every lane is written, zero in false lanes with Z; the tag is the guard; a predicate
output has zero in false lanes; `e` is seen one cycle later and `po` two; a word goes to `dn` with zero in false lanes
unless the guard is false everywhere. Where it rests on the model's own choices: log 19; and log 66, by whose reading (DEDUCED) a word
sent to a lane on a tap carries the sideband of the element, as one sent to `dn` does. -/
def Obligations.RowResultsGoToTheirDestination : Prop :=
  ∀ (r : Row) (s : State) (lat : Nat) (res : RowResult),
    let guard := guardMask s.me r.guard
    let holds (v : Vec) : Prop := ∀ l, l < 32 → v.lane l = if r.z = true ∧ bit guard l = false then 0 else res.val.lane l
    let first (p : Pend) : Prop := p.due = s.now + lat ∧ p.flags = res.flags ∧
      p.pred = r.pro.map fun n => (n.val, res.pbits &&& guard)
    (∀ n, r.dst = .v n → ∃ p, rowPends s r lat res = [p] ∧ first p ∧ p.dst = .v ((n.val + s.me.rb.toNat) % 64) ∧
      holds p.val ∧ p.tag = guard) ∧
    (∀ n, r.dst = .x n → ∃ p, rowPends s r lat res = [p] ∧ first p ∧ p.dst = .x n.val ∧ holds p.val ∧ p.tag = guard) ∧
    (∀ n, r.dst = .pred n → ∃ p, rowPends s r lat res = [p] ∧ p.due = s.now + lat ∧ p.flags = res.flags ∧ p.dst = .none ∧
      p.pred = some (n.val, if r.z = true then res.pbits &&& guard else res.pbits)) ∧
    (r.dst = .port .e → ∃ p q, rowPends s r lat res = [p, q] ∧ first p ∧ p.dst = .none ∧ q.dst = .e ∧
      q.due = s.now + lat + 1 ∧ holds q.val ∧ q.tag = guard ∧ q.pred = none ∧ q.flags = 0) ∧
    (∀ m, r.dst = .port (.po m) → ∃ p q, rowPends s r lat res = [p, q] ∧ first p ∧ p.dst = .none ∧ q.dst = .po m.val ∧
      q.due = s.now + lat + 2 ∧ holds q.val ∧ q.tag = guard ∧ q.pred = none ∧ q.flags = 0) ∧
    (∀ q, r.dst = .port .dn → boundQueue s true = some q → guard ≠ 0 → ∃ p, rowPends s r lat res = [p] ∧ first p ∧
      p.dst = .push true q (bit s.me.sb 1) (bit s.me.sb 0) ∧ p.mask = guard ∧
      ∀ l, l < 32 → p.val.lane l = if bit guard l = true then res.val.lane l else 0) ∧
    (r.dst = .port .dn → guard = 0 → ∃ p, rowPends s r lat res = [p] ∧ first p ∧ p.dst = .none) ∧
    (∀ m lane, r.dst = .port (.tap m) → swTap s.switchNow m.val = some (true, lane) → ∃ p, rowPends s r lat res = [p] ∧
      first p ∧ p.dst = .lane lane (bit s.me.sb 1) (bit s.me.sb 0) ∧ holds p.val ∧ p.tag = guard)

/-- R183, R18, R69: of the results under way in an element, those that are due land, those of one cycle in the order of their issue, and
the others stay; one to `e` in column 7 is discarded; what the matrix unit has due lands after them. A result changes the register, tag,
port or predicate it names and adds its flags, whatever lands beside it: a register holds the last that lands in it, the flags are those
of all. `p0` reads all ones whatever lands. R51: the flags of a result whose issuer has been saved since go to the context's flag
word (log 105). -/
def Obligations.ResultsLandWhenDue : Prop :=
  (∀ (x : Ring) (ps k : Nat),
    let e := x.elem ps k
    let tc := x.ctx.tc
    let here (p : Pend) : Prop := match p.dst with | .lane _ _ _ => False | .store _ _ _ => False | _ => True
    let lands (p : Pend) : Bool := decide (p.due ≤ tc) && (match p.dst with | .push _ _ _ _ => false | _ => true)
    let base : Element := { e with
      pend := e.pend.filter fun p => !lands p
      lands := e.lands.filter fun y => tc < y.1 }
    let waiting : Prop := (∀ p ∈ e.pend, p.due ≤ tc → here p) ∧ ∀ y ∈ e.lateLands, tc < y.1
    (waiting → x.ctx.savedAt = none → (landAt x (ps, k)).elem ps k =
      (e.lands.filter fun y => y.1 ≤ tc).foldl (fun e y => e.landTile y.2)
        ((e.pend.filter lands).foldl (fun e p => if k = 7 ∧ p.dst = .e then e else landElement p e) base)) ∧
    (∀ p t, waiting → e.pend = [p] → lands p = true → e.lands = [] → p.dst ≠ .e → x.ctx.savedAt = some t → p.issued ≤ t →
      (landAt x (ps, k)).elem ps k = { landElement p base with flagsNew := e.flagsNew } ∧
      (landAt x (ps, k)).ctx.flagwNew = x.ctx.flagwNew ||| p.flags)) ∧
  (∀ (l : List Pend) (e : Element),
    let t := l.foldl (fun e p => landElement p e) e
    t.pred 0 = 0xFFFFFFFF ∧
    (∀ b, b < 32 → (bit t.flagsNew b = true ↔ bit e.flagsNew b = true ∨ ∃ p ∈ l, bit p.flags b = true)) ∧
    ∀ n, ((∀ p ∈ l, p.dst ≠ .v n) → tget t.v n Vec.zero = tget e.v n Vec.zero ∧ tget t.vt n 0 = tget e.vt n 0) ∧
      (∀ l1 p l2, l = l1 ++ p :: l2 → p.dst = .v n → (∀ q ∈ l2, q.dst ≠ .v n) →
        tget t.v n Vec.zero = p.val ∧ tget t.vt n 0 = p.tag)) ∧
  ∀ (p : Pend) (e : Element), (∀ n h, p.dst = .bankCells n h → h < 8) →
    let t := landElement p e
    t.pred 0 = 0xFFFFFFFF ∧ t.flagsNew = e.flagsNew ||| p.flags ∧
    (∀ n, n ≠ 0 → t.pred n = match p.pred with | some (m, w) => if m = n then w else e.pred n | none => e.pred n) ∧
    (∀ n, tget t.v n Vec.zero = if p.dst = .v n then p.val else tget e.v n Vec.zero) ∧
    (∀ n, tget t.vt n 0 = if p.dst = .v n then p.tag else tget e.vt n 0) ∧
    (∀ n, tget t.x n Vec.zero = if p.dst = .x n then p.val else tget e.x n Vec.zero) ∧
    (∀ n, tget t.xt n 0 = if p.dst = .x n then p.tag else tget e.xt n 0) ∧
    (∀ m, tget t.po m Vec.zero = if p.dst = .po m then p.val else tget e.po m Vec.zero) ∧
    t.e = (if p.dst = .e then p.val else e.e) ∧ t.et = (if p.dst = .e then p.tag else e.et) ∧
    (∀ b i j, b < 4 → i < 16 → j < 16 → t.accCell b i j = match p.dst with
      | .bank n => if n = b then 0 else e.accCell b i j
      | .bankCells n h =>
        if n = b ∧ i / 2 = h ∧ bit p.mask (16 * (i % 2) + j) = true then p.val.lane (16 * (i % 2) + j) else e.accCell b i j
      | _ => e.accCell b i j) ∧
    (∀ c, t.xaAt c = if p.dst = .xaClear then 0 else e.xaAt c) ∧
    t.lexp = (match p.dst with | .xaWeight l => l | _ => e.lexp) ∧
    t.rb = e.rb ∧ t.flags = e.flags ∧ t.cht = e.cht ∧ t.sb = e.sb ∧ t.pend = e.pend ∧ t.tile = e.tile

/-- The frame of the rows that compute (R183, R72): at issue such a row changes nothing but its element's list of results
under way and sideband, and, when it reads `up`, that queue's position and the banks charged. Memory, scratchpads, every
other ring, the sequencer's registers, the special registers, predicates and flags stay as they are. -/
def Obligations.ComputingRowsChangeNothingElse : Prop :=
  ∀ (r : Row) (s t : State) (i : Instr),
    i ∈ [.flagrd r, .iter r, .eid r, .lid r, .sid r, .tcrd r, .imov r, .ilui r, .iadd r, .isub r, .imul r, .imulhi r, .imad r,
      .iaddsat r, .isubsat r, .iabs r, .ineg r, .imin r, .imax r, .iand r, .ior r, .ixor r, .inot r, .ishl r, .ishr r,
      .isra r, .irot r, .iclz r, .ipop r, .ibfx r, .ibfi r, .icmpEq r, .icmpNe r, .icmpLt r, .icmpLe r, .icmpGt r,
      .icmpGe r, .fadd r, .fsub r, .fmul r, .ffma r, .ffms r, .fnfma r, .fnfms r, .fmin r, .fmax r, .fabs r, .fneg r,
      .fcopysign r, .fscale r, .fround r, .fclass r, .fcmpEq r, .fcmpNe r, .fcmpLt r, .fcmpLe r, .fcmpGt r, .fcmpGe r,
      .fcmpUn r, .fcmpOrd r, .frcp r, .frsq r, .fsqrt r, .fdiv r, .fexp2 r, .flog2 r, .ftanh r, .cvt r, .packF32 r,
      .packN8 r, .unpackF32 r, .unpackN8 r, .quant r, .fexp8 r, .itof r, .ftoi r, .pselTag r, .pselPred r, .pand r, .por r,
      .pxor r, .pnot r, .pset r, .pmovPred r, .pmovVecToPred r, .pmovPredToVec r, .pany r, .pall r, .lrot r, .lbcast r,
      .lshuf r, .lredAdd r, .lredMax r, .lredMin r, .lscanAdd r, .lzip r, .lunzip r, .accrd r, .xcvt r, .mchk r,
      .mbnd r] →
    rowGoes i r s = true → exec i s = .next t →
    let g := s.focus.ring
    { t with rings := [] } = { s with rings := [] } ∧
    (∀ h, h ≠ g → t.ring h = s.ring h) ∧
    { t.ring g with stripes := [], qst := [], bankUse := [] } = { s.ring g with stripes := [], qst := [], bankUse := [] } ∧
    (∀ ps, ((t.ring g).stripe ps).record = ((s.ring g).stripe ps).record ∧
      ((t.ring g).stripe ps).occ = ((s.ring g).stripe ps).occ) ∧
    (∀ ps k, (ps, k) ≠ (s.focus.ps, s.focus.col) → t.elem g ps k = s.elem g ps k) ∧
    settled t.me = settled s.me ∧ (∃ l, t.me.pend = s.me.pend ++ l) ∧
    (∀ a b, a < 16 → b < 16 → (rowReadsUp r = true → boundQueue s false = some b → a ≠ s.block false) →
      (t.ring g).qstate a b = (s.ring g).qstate a b)

/-! ### Steps -/

/-- R109, R110, R118: the transition of a completed step. A state may be entered when it lies below STLEN and is no second
word; otherwise a state-overrun image fault, code 18, names it; that a fall-through from slot 4,095 is named 4,096 there is the model's
choice (log 100). A taken transition on `sl1`, `sl14` or `sl15` clears the
line; a step that has faulted or begun an unwinding goes nowhere. -/
def Obligations.StepsTakeTheirTransition : Prop :=
  ∀ (s : State) (g : Nat),
    let c := s.ctx g
    let next := c.si + (if stepIsLong (c.slotWord c.si) then 2 else 1)
    let enters (u : State) (n : Nat) : State :=
      if hdrStlen c.hdr ≤ n ∨ isSecondWord c n = true then takeFault u g (faultAt u g 4 18 (BitVec.ofNat 32 n) 0)
      else u.onCtx g fun c => { c with si := n, wait := none }
    ((c.fault.isSome = true ∨ c.unwinding.isSome = true) → ∀ t, finishStep s g t = s) ∧
    (c.fault = none → c.unwinding = none →
      finishStep s g .fall = enters s next ∧
      (∀ target, finishStep s g (.goto .always target) = enters s target.toNat) ∧
      (∀ n target, finishStep s g (.goto (.kz n) target) = enters s (if tget c.k n.val 0 = 0 then target.toNat else next)) ∧
      (∀ n target, finishStep s g (.goto (.knz n) target) = enters s (if tget c.k n.val 0 = 0 then next else target.toNat)) ∧
      (∀ n target, finishStep s g (.goto (.idle n) target) =
        enters s (if tget c.tok n.val 0 = 0 then target.toNat else next)) ∧
      (∀ n target, c.line n.val = false → finishStep s g (.goto (.line n) target) = enters s next) ∧
      (∀ n target, c.line n.val = true → finishStep s g (.goto (.line n) target) =
        enters (if n.val = 1 ∨ n.val = 14 ∨ n.val = 15 then s.onCtx g fun c => { c with sl := c.sl &&& ~~~(1#16 <<< n.val) }
          else s) target.toNat))

/-- R145, R146, R147, R149: `nop`, `go`, `call` and `ret` with their four return places and the state-overrun fault, `trap` and
`brk`, and the beginning of the end: `end` records STATUS, stays where it is, and lets each channel end with its record. -/
def Obligations.ControlSteps : Prop :=
  ∀ (s : State),
    let g := s.focus.ring
    let c := s.ctx g
    let next := c.si + (if stepIsLong (c.slotWord c.si) then 2 else 1)
    (∀ t, (Instr.stepNop t).check = none → stepCompletes (.stepNop t) s t s) ∧
    (∀ target, (Instr.go target).check = none → exec (.go target) s = .next (enterState s g target.toNat target.toNat)) ∧
    (∀ a, (Instr.goIndirect a).check = none →
      (4096 ≤ (c.kreg a.val).toNat → stepFaults (.goIndirect a) s 4 18 ((c.kreg a.val).truncate 32) 0) ∧
      ((c.kreg a.val).toNat < 4096 →
        exec (.goIndirect a) s = .next (enterState s g (c.kreg a.val).toNat (c.kreg a.val).toNat))) ∧
    (∀ target, (Instr.call target).check = none →
      (4 ≤ c.rstack.length → stepFaults (.call target) s 4 18 0 0) ∧
      (c.rstack.length < 4 → exec (.call target) s =
        .next (enterState (s.onCtx g fun c => { c with rstack := c.rstack ++ [next] }) g target.toNat target.toNat))) ∧
    (c.rstack = [] → stepFaults .ret s 4 18 0 0) ∧
    (∀ l n, c.rstack = l ++ [n] → exec .ret s = .next (enterState (s.onCtx g fun c => { c with rstack := l }) g n n)) ∧
    (∀ code, (Instr.stepTrap code).check = none → stepFaults (.stepTrap code) s 8 code.toNat 0 0) ∧
    (∀ code t, (Instr.stepBrk code t).check = none →
      ((s.ring g).brken = true → stepFaults (.stepBrk code t) s 9 code.toNat 0 0) ∧
      ((s.ring g).brken = false → stepCompletes (.stepBrk code t) s t s)) ∧
    (∀ status, (Instr.endStep status).check = none → ∃ u, exec (.endStep status) s = .next u ∧
      (u.ctx g).ending = some status ∧ (u.ctx g).si = c.si ∧ u.mem = s.mem ∧
      ∀ n, (u.ctx g).chan n = (let x := c.chan n
        if x.mode = .fetching ∨ x.mode = .waiting then { x with last := true } else x))

/-- R157, R176, R319 to R322: the address steps write aD modulo 2^64; `spos`, `tick`, `capq`, `perf` and `flagsq` read the
machine into kD, `spos` the count as the cycle began, before an opening that falls in it, and `perf` and `flagsq` clear what they
read with CLR. -/
def Obligations.AddressAndReadingSteps : Prop :=
  ∀ (s : State) (d a : Fin 16) (t : Trans),
    let g := s.focus.ring
    let c := s.ctx g
    let r := s.ring g
    let sets (i : Instr) (z : BitVec 64) : Prop := i.check = none → stepCompletes i s t (s.onCtx g fun c => c.setA d.val z)
    let gives (i : Instr) (z : Nat) : Prop := i.check = none →
      stepCompletes i s t (s.onCtx g fun c => c.setK d.val (BitVec.ofNat 48 z))
    (∀ imm : BitVec 32, sets (.aset d false imm t) (imm.signExtend 64)) ∧
    (∀ imm : BitVec 32, sets (.aset d true imm t) (BitVec.ofNat 64 (imm.toNat * 2 ^ 32 + (c.areg d.val).toNat % 2 ^ 32))) ∧
    (∀ src : SReg, sets (.amov d src t) (if src.isA then c.areg src.n.val else (c.kreg src.n.val).signExtend 64)) ∧
    (∀ b : Fin 16, sets (.aadd d a (.reg b) t) (c.areg a.val + (c.kreg b.val).signExtend 64)) ∧
    (∀ imm, sets (.aadd d a (.imm imm) t) (c.areg a.val + (imm.signExtend 48).signExtend 64)) ∧
    (∀ (b : Fin 16) (imm : BitVec 24), sets (.amad d a b imm t)
      (c.areg a.val + (c.kreg b.val).signExtend 64 * imm.signExtend 64)) ∧
    (∀ n : Fin 32, gives (.spos d n t) (if (c.stream n.val).openTc = c.tc
      then (c.stream n.val).before else (c.stream n.val).moved)) ∧
    gives (.tick d .reference t) s.tick.toNat ∧
    gives (.tick d .watchdog t) c.wdcount ∧
    gives (.tick d .remaining t) (bindWdog c.bind - c.wdcount) ∧
    (∀ sel : BitVec 8, ∀ v, (sel.toNat, v) ∈ [(0, 1), (1, 24), (2, 16), (3, r.nLive), (4, min (bindBudget c.bind) r.nLive),
      (5, 64), (6, bits r.capmask 0 48), (7, g), (8, s.hub.node.toNat), (9, g / 6), (10, c.id.toNat), (11, c.asid.toNat),
      (12, r.holdlim.toNat), (13, hdrStlen c.hdr), (14, 128), (15, 4096), (16, 1024), (17, 256)] →
        gives (.capq d sel t) v) ∧
    (∀ (ev : Fin 16) (clr : Bool), (Instr.perf d ev clr t).check = none →
      stepCompletes (.perf d ev clr t) s t (s.onCtx g fun c =>
        ({ c with ev := if clr then tset c.ev ev.val 0 else c.ev }).setK d.val (BitVec.ofNat 48 (tget c.ev ev.val 0)))) ∧
    (∀ clr : Bool, (Instr.flagsq d clr t).check = none → ∃ u, stepCompletes (.flagsq d clr t) s t u ∧
      (u.ctx g).kreg d.val = BitVec.ofNat 48 (c.flagw ||| r.elemFlags).toNat ∧
      (clr = true → (u.ctx g).flagw = 0 ∧ (u.ring g).elemFlags = 0) ∧
      (clr = false → (u.ctx g).flagw = c.flagw ∧ (u.ring g).stripes = r.stripes))

/-- R153 to R156: each counter step writes its result modulo 2^48 into kD and takes its transition.
The frame of the counter and address steps (R152): where the transition raises no fault, only the destination register,
the state index, the wait and a cleared status line change. -/
def Obligations.CounterSteps : Prop :=
  (∀ (s : State) (d a : Fin 16) (y : KOperand) (t : Trans),
    let g := s.focus.ring
    let c := s.ctx g
    let x := c.kreg a.val
    let v : BitVec 48 := match y with | .reg b => c.kreg b.val | .imm i => i.signExtend 48
    let n := v.toNat % 64
    let gives (i : Instr) (z : BitVec 48) : Prop := i.check = none → stepCompletes i s t (s.onCtx g fun c => c.setK d.val z)
    gives (.kadd d a y t) (x + v) ∧
    gives (.ksub d a y t) (x - v) ∧
    gives (.kmul d a y t) (x * v) ∧
    gives (.kand d a y t) (x &&& v) ∧
    gives (.kor d a y t) (x ||| v) ∧
    gives (.kxor d a y t) (x ^^^ v) ∧
    gives (.kshl d a y t) (if 48 ≤ n then 0 else BitVec.ofNat 48 (x.toNat * 2 ^ n)) ∧
    gives (.kshr d a y t) (if 48 ≤ n then 0 else BitVec.ofNat 48 (x.toNat / 2 ^ n)) ∧
    gives (.kmin d a y t) (BitVec.ofInt 48 (min x.toInt v.toInt)) ∧
    gives (.kmax d a y t) (BitVec.ofInt 48 (max x.toInt v.toInt)) ∧
    gives (.kdec d t) (BitVec.ofNat 48 ((c.kreg d.val).toNat - 1)) ∧
    (∀ imm : BitVec 32, gives (.kset d false imm t) (imm.signExtend 48)) ∧
    (∀ imm : BitVec 32, gives (.kset d true imm t)
      (BitVec.ofNat 48 (imm.toNat % 2 ^ 16 * 2 ^ 32 + (c.kreg d.val).toNat % 2 ^ 32))) ∧
    gives (.kmov d (.k a) t) x ∧
    gives (.kmov d (.a a) t) (BitVec.ofNat 48 (c.areg a.val).toNat) ∧
    gives (.kmov d .tc t) (BitVec.ofNat 48 c.tc) ∧
    gives (.kmov d .wdi t) (BitVec.ofNat 48 c.wdi) ∧
    gives (.kmov d .wdp t) (BitVec.ofNat 48 c.wdp) ∧
    (∀ n, gives (.kmov d (.tok n) t) (BitVec.ofNat 48 (c.token n.val)))) ∧
  (∀ (s u : State) (d a b : Fin 16) (y : KOperand) (hi : Bool) (imm : BitVec 32) (src : SReg) (k : KSrc) (m : BitVec 24)
    (t : Trans) (i : Instr),
    let g := s.focus.ring
    let same : Prop := { u with rings := [] } = { s with rings := [] } ∧ (∀ h, h ≠ g → u.ring h = s.ring h) ∧
      { u.ring g with ctx := Ctx.reset } = { s.ring g with ctx := Ctx.reset } ∧
      { u.ctx g with k := [], a := [], si := 0, wait := none, sl := 0 } =
        { s.ctx g with k := [], a := [], si := 0, wait := none, sl := 0 }
    (s.ctx g).ended = false → (s.ctx g).killed = false → (s.ctx g).fault = none → exec i s = .next u →
    (u.ctx g).fault = none →
    (i ∈ [.kset d hi imm t, .kmov d k t, .kadd d a y t, .ksub d a y t, .kmul d a y t, .kand d a y t, .kor d a y t,
        .kxor d a y t, .kshl d a y t, .kshr d a y t, .kmin d a y t, .kmax d a y t, .kdec d t] →
      same ∧ (u.ctx g).a = (s.ctx g).a ∧ ∀ n, n ≠ d.val → (u.ctx g).kreg n = (s.ctx g).kreg n) ∧
    (i ∈ [.aset d hi imm t, .amov d src t, .aadd d a y t, .amad d a b m t] →
      same ∧ (u.ctx g).k = (s.ctx g).k ∧ ∀ n, n ≠ d.val → (u.ctx g).areg n = (s.ctx g).areg n))

/-- R136, R148, R150, R151: `waitt` and `waits` complete at once when their condition holds and wait otherwise; `yield` and
`sys` ask Eosen and wait, and complete when it has answered; an undefined SVC is answered with -1 in `k0`. -/
def Obligations.WaitingSteps : Prop :=
  ∀ (s : State) (t : Trans) (w : Wait),
    let g := s.focus.ring
    let c := s.ctx g
    let w0 : Wait := ⟨0, 0, 0, c.tc, none⟩
    (∀ mask : BitVec 8, (Instr.waitt mask t).check = none →
      ((∀ n, n < 8 → bit mask n = true → c.token n = 0) → stepCompletes (.waitt mask t) s t s) ∧
      ((∃ n, n < 8 ∧ bit mask n = true ∧ c.token n ≠ 0) → stepWaits (.waitt mask t) s w0)) ∧
    (∀ (mask : BitVec 16) (all : Bool), (Instr.waits mask all t).check = none →
      let met : Prop := if all = true then ∀ n, n < 16 → bit mask n = true → c.line n = true
        else ∃ n, n < 16 ∧ bit mask n = true ∧ c.line n = true
      (met → stepCompletes (.waits mask all t) s t s) ∧ (¬met → stepWaits (.waits mask all t) s w0)) ∧
    ((Instr.yield t).check = none →
      exec (.yield t) s = .next (s.onCtx g fun c => { c with answer := none, wait := some w0 })) ∧
    (∀ svc : BitVec 16, (Instr.sys svc t).check = none →
      exec (.sys svc t) s =
        .next (s.onCtx g fun c => { c with answer := none, wait := some ⟨1, 0, svc.zeroExtend 512, c.tc, none⟩ })) ∧
    (∀ h x, waitsIn h s (.yield t) w → (s.ctx h).answer = some x →
      waitCompletes h s t (s.onCtx h fun c => { c with answer := none })) ∧
    (∀ h svc x, waitsIn h s (.sys svc t) w → (s.ctx h).answer = some x →
      waitCompletes h s t (s.onCtx h fun c => { c with answer := none })) ∧
    (∀ h (svc : BitVec 16), waitsIn h s (.sys svc t) w → (s.ctx h).answer = none → 5 ≤ svc.toNat →
      waitCompletes h s t (s.onCtx h fun c => c.setK 0 (BitVec.allOnes 48))) ∧
    (∀ h mask, waitsIn h s (.waitt mask t) w → (∀ n, n < 8 → bit mask n = true → (s.ctx h).token n = 0) →
      waitCompletes h s t s) ∧
    (∀ h mask all, waitsIn h s (.waits mask all t) w →
      (if all = true then ∀ n, n < 16 → bit mask n = true → (s.ctx h).line n = true
        else ∃ n, n < 16 ∧ bit mask n = true ∧ (s.ctx h).line n = true) →
      waitCompletes h s t s)

/-- R158, R265, R305: `ald` and `atom` send their access and wait for it, then write the register; `ast` issues its write
with the next WDI number and goes on. A misaligned address is a precise alignment fault. An `atom` still to be performed at `sys`
scope stays listed for that when its value has been taken. Where it rests on the model's own choices: log 71. -/
def Obligations.SequencerMemorySteps : Prop :=
  ∀ (s : State) (d b k : SReg) (a : Fin 16) (t : Trans) (w : Wait),
    let g := s.focus.ring
    let c := s.ctx g
    let sent (u : State) (id : Nat) : State := u.onCtx g fun x => { x with wait := some ⟨1, id, 0, c.tc, none⟩ }
    (∀ sz off, (Instr.ald d a sz off t).check = none →
      let x := c.areg a.val + off.signExtend 64
      let n := if sz = .d then 8 else 4
      (x.toNat % n ≠ 0 → exec (.ald d a sz off t) s = .next (alignFault s g x 0)) ∧
      (x.toNat % n = 0 → seqStopped s g = false → exec (.ald d a sz off t) s = .next (sent
        (issueReq s g .seq .read (partsOf (.virt (x.toNat % 2 ^ 56)) (List.replicate n 0)) 0 .ald) s.reqNext))) ∧
    (∀ wide off, (Instr.ast b a wide off t).check = none →
      let x := c.areg a.val + off.signExtend 64
      let n := if wide = true then 8 else 4
      (x.toNat % n ≠ 0 → exec (.ast b a wide off t) s = .next (alignFault s g x 1)) ∧
      (x.toNat % n = 0 → seqStopped s g = false → stepCompletes (.ast b a wide off t) s t
        (issueReq s g .seq .write (partsOf (.virt (x.toNat % 2 ^ 56)) (leBytes n (c.sreg b).toNat)) 1 .ast))) ∧
    (∀ op wide off, (Instr.atom op wide d a b k off t).check = none →
      let x := c.areg a.val + off.signExtend 64
      let n := if wide = true then 8 else 4
      (x.toNat % n ≠ 0 → exec (.atom op wide d a b k off t) s = .next (alignFault s g x 2)) ∧
      (x.toNat % n = 0 → seqStopped s g = false → exec (.atom op wide d a b k off t) s = .next (sent
        (issueReq s g .seq .atomic [.new (.virt (x.toNat % 2 ^ 56)) (List.replicate n 0)] 0
          (.atom op wide (c.sreg b) (c.sreg k))) s.reqNext))) ∧
    -- the data of the access has arrived
    (∀ h q, w.stage = 1 → s.req w.req = some q → q.done.isSome = true → q.poison = false →
      let v := leNat q.data
      let u := if q.kind = .atomic ∧ q.performedAt .sys = false then s.setReq { q with purpose := .other } else s.dropReq w.req
      (∀ sz off, waitsIn h s (.ald d a sz off t) w → waitCompletes h s t (u.onCtx h fun c => c.setS d
        (match sz with | .w => (BitVec.ofNat 32 v).signExtend 64 | .wz => BitVec.ofNat 64 v | .d => BitVec.ofNat 64 v))) ∧
      (∀ op wide off p l, waitsIn h s (.atom op wide d a b k off t) w → q.parts = p :: l →
        q.performedAt (destScope h s.hub.node.toNat (p.dest.getD p.place)) = true →
        waitCompletes h s t (u.onCtx h fun c => c.setS d
          (if wide = true ∨ op = .fadd then BitVec.ofNat 64 v else (BitVec.ofNat 32 v).signExtend 64)))) ∧
    -- what issuing a request does to its context (R138)
    (∀ h party kind parts lines purpose, let u := issueReq s h party kind parts lines purpose
      (u.ctx h).wdi = min ((s.ctx h).wdi + lines) (2 ^ 48 - 1) ∧ u.reqNext = s.reqNext + 1 ∧
        u.reqs.length = s.reqs.length + 1)

/-- R160 to R165: `vpl` asks for each record of its range that is neither cached nor on its way; `run` waits for a run
that is not over, and else arms the next with its range, waves and B, or faults on a B outside 1 to 65,536; `park`
with no armed run sets `sl3`, and else parks the run after the hoists that have begun, at a whole wave when it scrolls, and with W = 1
the sequencer then waits for `sl3`; `fmtset` writes a slot from the next cycle;
`qset` lays out a queue that no open stream uses, and faults on one that is bound to an open stream. Where it rests on the model's own
choices: logs 15, 27 and 76. -/
def Obligations.KernelSteps : Prop :=
  ∀ (s : State) (t : Trans),
    let g := s.focus.ring
    let c := s.ctx g
    -- the hoists made, and the next one when it has begun
    let begun := c.hoistNext + (if (((knowTimes s g).ctx g).hlog.any fun x => x.h == c.hoistNext && decide (x.hb ≤ c.tc)) = true then 1 else 0)
    let parks (r : Run) (u : State) : Prop := ∃ r' ∈ (u.ctx g).runs, r'.id = r.id ∧ r'.parkAt = some c.tc ∧
      r'.limit = min r.limit (if r.res = true then begun else (begun + max r.nv 1 - 1) / max r.nv 1 * r.nv)
    (∀ (vs : BitVec 10) (m : BitVec 6), (Instr.vpl vs m t).check = none → ∃ u, stepCompletes (.vpl vs m t) s t u ∧
      { u.ctx g with fetching := [] } = { c with fetching := [] } ∧
      ∀ n, vs.toNat ≤ n → n ≤ vs.toNat + m.toNat → n < hdrV c.hdr →
        (c.cache.any fun e => e.1 == n) = true ∨ n ∈ (u.ctx g).fetching ∨ (c.fetchBad.any fun e => e.1 == n) = true) ∧
    (∀ (first m : BitVec 10) (kw : Fin 16) (kb : Option (Fin 16)) (ks : Fin 16),
      let i := Instr.run first m kw kb ks none t
      let b : Int := match kb with
        | some k => (c.kreg k.val).toInt
        | none => ((recBm1 (recHeader s g first.toNat) + 1 : Nat) : Int)
      i.check = none →
      ((∃ r, c.runs.getLast? = some r ∧ r.done = false) → stepWaits i s ⟨0, 0, 0, c.tc, none⟩) ∧
      ((∀ r ∈ c.runs, r.done = true) → (b < 1 ∨ 65536 < b) → operandFaults i s) ∧
      ((∀ r ∈ c.runs, r.done = true ∧ r.id < c.runs.length) → 1 ≤ b → b ≤ 65536 →
        ∃ u r, stepCompletes i s t u ∧ (u.ctx g).runs = c.runs ++ [r] ∧ r.first = first.toNat ∧ r.nv = m.toNat + 1 ∧
          r.w = (c.kreg kw.val).toNat % 2 ^ 32 ∧ (r.b : Int) = b ∧ r.arm = some c.tc ∧ r.parkAt = none ∧
          (r.done = true ↔ r.w = 0) ∧ bit (u.ctx g).sl 0 = decide (r.w = 0) ∧ bit (u.ctx g).sl 3 = false ∧
          (u.ctx g).hoistNext = 0)) ∧
    ((Instr.park false t).check = none →
      (c.armedRun = none → stepCompletes (.park false t) s t (s.onCtx g fun c => c.setLine 3 true)) ∧
      (∀ r, c.armedRun = some r → r.parkAt = none → ∃ u, stepCompletes (.park false t) s t u ∧ parks r u)) ∧
    ((Instr.park true t).check = none → ∀ r, c.armedRun = some r → r.parkAt = none → ∃ u, parks r u ∧
      (bit (u.ctx g).sl 3 = true → stepCompletes (.park true t) s t u) ∧
      (bit (u.ctx g).sl 3 = false → exec (.park true t) s =
        .next (u.onCtx g fun x => { x with wait := some ⟨0, 0, 0, c.tc, none⟩ }))) ∧
    (∀ h w, waitsIn h s (.park true t) w → bit (s.ctx h).sl 3 = true → waitCompletes h s t s) ∧
    ((Instr.park true t).check = none → c.armedRun = none →
      stepCompletes (.park true t) s t (s.onCtx g fun c => c.setLine 3 true)) ∧
    (∀ n desc, (Instr.fmtset n desc t).check = none → stepCompletes (.fmtset n desc t) s t
      (s.onCtx g fun c => { c with fslotNew := c.fslotNew ++ [(n.val, desc, none)] })) ∧
    (∀ (q kb : Fin 16) (m : BitVec 14) (ent : BitVec 11),
      let i := Instr.qset q kb m ent none t
      let base := (c.kreg kb.val).toInt
      i.check = none →
      ((base < 0 ∨ 16383 < base ∨ 16384 < base.toNat + (m.toNat + 1) * ent.toNat) → operandFaults i s) ∧
      (0 ≤ base → base ≤ 16383 → base.toNat + (m.toNat + 1) * ent.toNat ≤ 16384 →
        (∃ e ∈ c.streams, e.2.isOpen = true ∧ e.2.q = q.val) →
          exec i s = .next (finishStep (takeFault s g (faultAt s g 1 9 0 0)) g t)) ∧
      (0 ≤ base → base ≤ 16383 → base.toNat + (m.toNat + 1) * ent.toNat ≤ 16384 →
        (∀ e ∈ c.streams, e.2.isOpen = true → e.2.q ≠ q.val) → ∃ u, stepCompletes i s t u ∧
          (u.ring g).queue q.val = some ⟨ent != 1, base.toNat, m.toNat + 1, ent.toNat⟩ ∧
          (∀ blk, (u.ring g).qstate blk q.val = QState.reset) ∧
          (∀ blk p, p < 16 → p ≠ q.val → (u.ring g).qstate blk p = (s.ring g).qstate blk p ∧
            (u.ring g).queue p = (s.ring g).queue p)))

/-- R167, R168, R174, R175, R117: `sopen` reads its descriptor, waits for it and opens the stream, or faults on a bad one, on
one that uses what the image's mask does not declare, or in the cycle of the open when the stream cannot open as R168 says; `sclose` marks an open stream to close, and with W = 1 the sequencer waits until it
is closed; `sbar` draws a line across the named streams that are open and does not wait. Where it rests on the model's own choices:
logs 77 and 81, and log 71, by which the descriptor lies at the address register modulo 2^56. -/
def Obligations.StreamSteps : Prop :=
  ∀ (s : State) (t : Trans),
    let g := s.focus.ring
    let c := s.ctx g
    (∀ (n : Fin 32) (vs : BitVec 10) (out : Bool) (q a : Fin 16),
      let i := Instr.sopen n vs out q a none t
      i.check = none →
      ((c.areg a.val).toNat % 64 ≠ 0 → operandFaults i s) ∧
      ((c.areg a.val).toNat % 64 = 0 → seqStopped s g = false → exec i s = .next
        ((issueReq s g .seq .read (partsOf (.virt ((c.areg a.val).toNat % 2 ^ 56)) (List.replicate 64 0)) 0 .descriptor).onCtx g
          fun x => { x with wait := some ⟨1, s.reqNext, 0, c.tc, none⟩ })) ∧
      (∀ h w x, waitsIn h s i w → w.stage = 1 → s.req w.req = some x → x.kind = .read → x.done.isSome = true → x.poison = false →
        let d : BitVec 512 := BitVec.ofNat 512 (leNat x.data)
        let u := s.dropReq w.req
        let e := s.ctx h
        let declared : Prop := (sdMode d = 0 ∨ bit (hdrOpmask e.hdr) 16 = true) ∧ (sdAtom d = 0 ∨ bit (hdrOpmask e.hdr) 17 = true)
        (descBad d out = true → exec (.stepWaitComplete h) s = .next (takeFault u h (faultAt u h 1 9 0 0))) ∧
        (descBad d out = false → ¬declared → exec (.stepWaitComplete h) s = .next (takeFault u h (faultAt u h 4 13 0 0))) ∧
        (descBad d out = false → declared → openBad u h n.val vs.toNat out q.val d = true →
          waitCompletes h s t (takeFault u h (faultAt u h 1 9 0 0))) ∧
        (descBad d out = false → declared → openBad u h n.val vs.toNat out q.val d = false →
          waitCompletes h s t (u.onCtx h fun c => c.setStream n.val
            { Stream.reset with
              isOpen := true, desc := d, vs := vs.toNat, out := out, q := q.val, post := s.reqNext, openTc := e.tc,
              before := if (e.stream n.val).openTc = e.tc then (e.stream n.val).before else (e.stream n.val).moved })))) ∧
    (∀ (n : Fin 32) (abort : Bool), (Instr.sclose n abort false none t).check = none →
      ((c.stream n.val).isOpen = false → stepCompletes (.sclose n abort false none t) s t s) ∧
      ((c.stream n.val).isOpen = true → ∃ u, stepCompletes (.sclose n abort false none t) s t u ∧
        (((u.ctx g).stream n.val).isOpen = false ∨ ((u.ctx g).stream n.val).closing = true) ∧
        ∀ m, m ≠ n.val → (u.ctx g).stream m = c.stream m)) ∧
    (∀ (n : Fin 32) (abort : Bool), (Instr.sclose n abort true none t).check = none → (c.stream n.val).isOpen = false →
      stepCompletes (.sclose n abort true none t) s t s) ∧
    (∀ (n : Fin 32) (abort : Bool), (Instr.sclose n abort true none t).check = none → (c.stream n.val).isOpen = true → ∃ u,
      (∀ m, m ≠ n.val → (u.ctx g).stream m = c.stream m) ∧
      (((u.ctx g).stream n.val).isOpen = false → stepCompletes (.sclose n abort true none t) s t u) ∧
      (((u.ctx g).stream n.val).isOpen = true → ((u.ctx g).stream n.val).closing = true ∧
        exec (.sclose n abort true none t) s = .next (u.onCtx g fun x => { x with wait := some ⟨1, 0, 0, c.tc, none⟩ }))) ∧
    (∀ (n : Fin 32) (abort : Bool) h w, waitsIn h s (.sclose n abort true none t) w → w.stage = 1 →
      ((s.ctx h).stream n.val).isOpen = false → waitCompletes h s t s) ∧
    (∀ mask scope, (Instr.sbar mask scope none t).check = none → ∃ m : BitVec 32,
      (∀ n, n < 32 → bit m n = (bit mask n && (c.stream n).isOpen)) ∧
      stepCompletes (.sbar mask scope none t) s t
        (s.onCtx g fun c => { c with dividers := c.dividers ++ [⟨s.reqNext, s.copyNext, scope, .full, some m⟩] }))

/-- R180, R181, R307, R308: `copy` and `coll` read 64 bytes, wait for them, and begin with their token raised; `copyc`
arms a channel that does not walk and fetches its first record; `copyc … resume` goes on from the record that parked
it. A copy makes its first request in the cycle in which it begins, and a channel that one of its accesses has stopped fetches nothing
before the replay (R266). Where it rests on the model's own choices: log 22, and log 71, by which the descriptor lies at the address
register modulo 2^56. -/
def Obligations.CopyAndCollectiveSteps : Prop :=
  ∀ (s : State) (a : Fin 16) (t : Trans),
    let g := s.focus.ring
    let c := s.ctx g
    (∀ i ∈ [Instr.copy a none t, .coll a none t], i.check = none →
      ((c.areg a.val).toNat % 64 ≠ 0 → operandFaults i s) ∧
      ((c.areg a.val).toNat % 64 = 0 → seqStopped s g = false → exec i s = .next
        ((issueReq s g .seq .read (partsOf (.virt ((c.areg a.val).toNat % 2 ^ 56)) (List.replicate 64 0)) 0 .descriptor).onCtx g
          fun x => { x with wait := some ⟨1, s.reqNext, 0, c.tc, none⟩ }))) ∧
    (∀ h w x, w.stage = 1 → s.req w.req = some x → x.kind = .read → x.done.isSome = true → x.poison = false →
      let d : BitVec 512 := BitVec.ofNat 512 (leNat x.data)
      let r := setBits d 448 64 0
      let u := s.dropReq w.req
      (waitsIn h s (.copy a none t) w → recordInvalid r = true →
        exec (.stepWaitComplete h) s = .next (takeFault u h (faultAt u h 1 9 0 0))) ∧
      (waitsIn h s (.copy a none t) w → recordInvalid r = false → inFlight (s.ctx h) < 128 →
        (∀ k ∈ s.copies, k.id ≠ s.copyNext) → (∀ q ∈ s.reqs, ∀ o, q.purpose ≠ .copyRead s.copyNext o) →
        ∃ v k, waitCompletes h s t v ∧ v.copies = s.copies ++ [k] ∧ k.record = r ∧ k.ring = h ∧ k.ctx = (s.ctx h).id ∧
          k.chan = none ∧ (k.next = 0 ↔ partyStopped u h (s.ctx h).id .copyEngine = true) ∧ k.writeDone = 0 ∧
          (v.ctx h).token (trTok r) = (s.ctx h).token (trTok r) + 1 ∧
          ∀ n, n ≠ trTok r → (v.ctx h).token n = (s.ctx h).token n) ∧
      (waitsIn h s (.coll a none t) w → bits d 344 8 = 0 → groupValid u (cdGroup d) = true →
        ∀ rank, rankOf u (cdGroup d) h = some rank → collBad d (groupRanks (groupHeader u (cdGroup d))) rank = false →
          bits (groupHeader u (cdGroup d)) 53 10 = (s.ctx h).asid.toNat → inFlight (s.ctx h) < 128 →
          waitCompletes h s t (beginColl (u.onCtx h fun c => raiseToken c (cdTok d)) h (s.ctx h).si s.reqNext d rank) ∧
          ((∀ e ∈ s.collFailed, e.1 ≠ cdGroup d) → ∃ v y, waitCompletes h s t v ∧ v.colls = s.colls ++ [y] ∧ y.desc = d ∧
            y.rank = rank ∧ y.ring = h ∧ y.ctx = (s.ctx h).id ∧ y.begun = false ∧ y.tok = cdTok d ∧
            y.si = (s.ctx h).si ∧ y.copies = s.copyNext ∧ v.copyNext = s.copyNext + 1 ∧
            (v.ctx h).token (cdTok d) = (s.ctx h).token (cdTok d) + 1))) ∧
    (∀ n : Fin 16, (Instr.copyc n a none t).check = none →
      ((c.areg a.val).toNat % 64 ≠ 0 → operandFaults (.copyc n a none t) s) ∧
      ((c.areg a.val).toNat % 64 = 0 → chanWalking c n.val = true →
        stepWaits (.copyc n a none t) s ⟨0, 0, 0, c.tc, none⟩) ∧
      ((c.areg a.val).toNat % 64 = 0 → chanWalking c n.val = false → ∃ u, stepCompletes (.copyc n a none t) s t u ∧
        ((u.ctx g).chan n.val).mode = .fetching ∧ ((u.ctx g).chan n.val).addr = c.areg a.val ∧
        u.reqNext = if partyStopped s g c.id (.chan n.val) = true then s.reqNext else s.reqNext + 1)) ∧
    (∀ n : Fin 16, (Instr.copycResume n none t).check = none → chanWalking c n.val = true →
      stepWaits (.copycResume n none t) s ⟨0, 0, 0, c.tc, none⟩) ∧
    (∀ n : Fin 16, (Instr.copycResume n none t).check = none → chanWalking c n.val = false →
      ((c.chan n.val).armed = false →
        exec (.copycResume n none t) s = .next (finishStep (takeFault s g (faultAt s g 1 9 0 0)) g t)) ∧
      ((c.chan n.val).armed = true → ∃ u, stepCompletes (.copycResume n none t) s t u ∧
        ((u.ctx g).chan n.val).mode = .fetching ∧ ((u.ctx g).chan n.val).addr = (c.chan n.val).addr ∧
        u.reqNext = if partyStopped s g c.id (.chan n.val) = true then s.reqNext else s.reqNext + 1))

/-- R288, R290, R292 to R297: the barrier steps. `binit` makes an object of its own ring; `barr` waits until every
earlier access is performed at the object's scope, then for the acknowledgement of its arrival; `bexp` adds to INB or
OUTB of an object of its own ring at once, and to another by a message whose acknowledgement it waits for; `bwait` completes when 1
to 8 phases after kG's have ended, and consumes the poison that LPOIS marks, which is a fault outside every region. Where it rests on the model's own choices: logs 31 and 68. -/
def Obligations.BarrierSteps : Prop :=
  ∀ (s : State) (b : Fin 16) (t : Trans),
    let g := s.focus.ring
    let c := s.ctx g
    let name := (c.kreg b.val).toNat
    let o := s.barrier g (name % 4096)
    let legal : Prop := name < 2 ^ 24 ∧ name / 2 ^ 12 % 32 < 24
    let here : Prop := name / 2 ^ 17 % 128 = s.hub.node.toNat ∧ name / 2 ^ 12 % 32 = g
    (∀ (k : Fin 16) (scope : Scope), let i := Instr.binit b k scope t
      let count := (c.kreg k.val).toInt
      let idle : Prop := (barPend o = barCount o ∧ barInb o = 0 ∧ barOutb o = 0) ∨ barFlt o = true ∨ barOvf o = true
      i.check = none →
      ((¬legal ∨ count < 0 ∨ 4095 < count) → operandFaults i s) ∧
      (legal → 0 ≤ count → count ≤ 4095 →
        (¬here → barrierFaults i s 10 name) ∧
        (here → barOwner o ≠ 0 → barOwner o ≠ c.id → barrierFaults i s 4 name) ∧
        (here → barOwner o = c.id → c.id ≠ 0 → ¬idle → barrierFaults i s 9 name) ∧
        (here → c.id ≠ 0 → (barOwner o = 0 ∨ (barOwner o = c.id ∧ idle)) → ∃ u, stepCompletes i s t u ∧
          ∃ x, u = { s.setBarrier g (name % 4096) x with barUsed := (g, name % 4096) :: s.barUsed } ∧
          barOwner x = c.id ∧ barPend x = count.toNat ∧ barCount x = count.toNat ∧ barGen x = 0 ∧ barInb x = 0 ∧
          barOutb x = 0 ∧ barScope x = scopeRank scope ∧ barFlt x = false))) ∧
    ((Instr.barr b t).check = none →
      (¬legal → operandFaults (.barr b t) s) ∧
      (legal → ∀ sc, sc = (if name / 2 ^ 17 % 128 = s.hub.node.toNat
          then scopeOfNat (barScope (s.barrier (name / 2 ^ 12 % 32) (name % 4096))) else Scope.sys) →
        let w := lineWait s g
        (earlierPending s g w sc .rel = true → stepWaits (.barr b t) s w) ∧
        (earlierPending s g w sc .rel = false → exec (.barr b t) s =
          .next (s.onCtx g fun c => { c with answer := none, wait := some { w with stage := 1 } })))) ∧
    (∀ h w a, waitsIn h s (.barr b t) w → w.stage = 1 → (s.ctx h).answer = some a →
      ∀ n, barrierName ((s.ctx h).kreg b.val) = some n →
      let u := s.onCtx h fun c => { c with answer := none }
      (a = 0 → waitCompletes h s t u) ∧
      (a ≠ 0 → exec (.stepWaitComplete h) s = .next (takeFault u h (faultAt u h 6 a.toNat 0 (BitVec.ofNat 64 n))))) ∧
    (∀ (n : Fin 16) (outb : Bool), let i := Instr.bexp b n outb t
      let k := (c.kreg n.val).toInt
      let old := if outb then barOutb o else barInb o
      let cause := barrierRefusal s g (some g) c.asid o
      let used (x : Barrier) : State := { s.setBarrier g (name % 4096) x with barUsed := (g, name % 4096) :: s.barUsed }
      let refused (cause : Nat) : Prop :=
        exec i s = .next (takeFault (used o) g (faultAt (used o) g 6 cause 0 (BitVec.ofNat 64 name)))
      i.check = none →
      ((¬legal ∨ k < 0 ∨ 2 ^ 36 ≤ k) → operandFaults i s) ∧
      (legal → 0 ≤ k → k < 2 ^ 36 → here → cause ≠ 0 → refused cause) ∧
      (legal → 0 ≤ k → k < 2 ^ 36 → here → cause = 0 → 2 ^ 36 ≤ old + k.toNat → refused 1) ∧
      (legal → 0 ≤ k → k < 2 ^ 36 → here → cause = 0 → old + k.toNat < 2 ^ 36 →
        stepCompletes i s t (used (setBits o (if outb then 64 else 28) 36 (old + k.toNat)))) ∧
      (legal → 0 ≤ k → k < 2 ^ 36 → ¬here →
        exec i s = .next (s.onCtx g fun c => { c with answer := none, wait := some ⟨1, 0, 0, c.tc, none⟩ })) ∧
      (∀ h w a, waitsIn h s i w → w.stage = 1 → (s.ctx h).answer = some a →
        let e := s.ctx h
        let v := s.onCtx h fun c => { c with answer := none }
        ∀ m, barrierName (e.kreg b.val) = some m → 0 ≤ (e.kreg n.val).toInt → (e.kreg n.val).toInt < 2 ^ 36 →
        nameLocal s h m = false →
        (a = 0 → waitCompletes h s t v) ∧
        (a ≠ 0 → exec (.stepWaitComplete h) s = .next (takeFault v h (faultAt v h 6 a.toNat 0 (BitVec.ofNat 64 m)))))) ∧
    (∀ p : Fin 16, let i := Instr.bwait b p t
      let d := (barGen o + 16 - (c.kreg p.val).toNat % 16) % 16
      i.check = none →
      (¬legal → operandFaults i s) ∧
      (legal → ¬here → barrierFaults i s 10 name) ∧
      (legal → here → barOwner o ≠ c.id → barrierFaults i s 4 name) ∧
      (legal → here → barOwner o = c.id → barFlt o = true → barrierFaults i s 7 name) ∧
      (legal → here → barOwner o = c.id → barFlt o = false → (d = 0 ∨ 8 < d) → stepWaits i s ⟨0, 0, 0, c.tc, none⟩) ∧
      (legal → here → barOwner o = c.id → barFlt o = false → d = 1 → barLpois o = true → c.regions = [] →
        barrierFaults i s 8 name) ∧
      (∀ l x, legal → here → barOwner o = c.id → barFlt o = false → d = 1 → barLpois o = true → c.regions = l ++ [x] →
        (∀ y ∈ l, y.id ≠ x.id) → exec i s = .next ((s.rasEvent 1 name 0 c.id g 15 0 0).onCtx g fun c =>
          { c with
            regions := l ++ [{ x with nev := min 255 (x.nev + 1) }],
            unwinding := if c.unwinding.isSome = true then c.unwinding else some ⟨x.id, 5, c.tc, s.copyNext⟩,
            wait := if c.unwinding.isSome = true then c.wait else none })) ∧
      (legal → here → barOwner o = c.id → barFlt o = false → 0 < d → d ≤ 8 → (d = 1 → barLpois o = false) →
        stepCompletes i s t s))

/-- R298 to R302: `hpost` appends its value with the WDI of its cycle, or waits on a full queue; `htake` takes the
head entry, when no taker that still waits reached the queue before it, once the producer has performed the writes it stamped; `trig` records the first WDI. A dead queue is cause
11, a foreign one cause 5. Where it rests on the model's own choices: log 32. -/
def Obligations.HandoffSteps : Prop :=
  ∀ (s : State) (q : Fin 16) (t : Trans),
    let g := s.focus.ring
    let c := s.ctx g
    let n := (c.kreg q.val).toNat
    let x := s.handoff n
    let live : Prop := bit x.cfg 63 = true
    let ours : Prop := hqAsid x = c.asid
    (∀ src : SReg, let i := Instr.hpost q src t
      i.check = none →
      (1024 ≤ n → operandFaults i s) ∧
      (n < 1024 → ¬live → barrierFaults i s 11 n) ∧
      (n < 1024 → live → ¬ours → barrierFaults i s 5 n) ∧
      (n < 1024 → live → ours → bits x.cfg 47 6 + 1 ≤ x.entries.length → stepWaits i s ⟨0, 0, 0, c.tc, none⟩) ∧
      (n < 1024 → live → ours → x.entries.length < bits x.cfg 47 6 + 1 → stepCompletes i s t
        (s.setHandoff n { x with entries := x.entries ++ [⟨c.sreg src, c.wdi, c.id, s.tick.toNat * 19 + s.sub, none⟩] }))) ∧
    (∀ d : SReg, let i := Instr.htake d q t
      i.check = none →
      (1024 ≤ n → operandFaults i s) ∧
      (n < 1024 → ¬live → barrierFaults i s 11 n) ∧
      (n < 1024 → live → ¬ours → barrierFaults i s 5 n) ∧
      (n < 1024 → live → ours → x.entries = [] → ∃ u, exec i s = .next u ∧ (u.ctx g).wait.isSome = true ∧
        (u.ctx g).si = c.si ∧ c.id ∈ (u.handoff n).takers) ∧
      (∀ e l, n < 1024 → live → ours → x.entries = e :: l → e.claimed = none → (∀ y ∈ l, y.claimed ≠ some c.id) →
        (∀ y ∈ x.takers, y ≠ c.id → waitsNow s n y = false) → e.posted < s.tick.toNat * 19 + s.sub →
        ((producerOf s e.producer).2 = false → e.stamp ≤ (producerOf s e.producer).1 → ∃ u, stepCompletes i s t u ∧
          (u.handoff n).entries = l ∧ (u.ctx g).sreg d = (if d.isA then e.value else (e.value.truncate 48).signExtend 64) ∧
          c.id ∉ (u.handoff n).takers) ∧
        ((producerOf s e.producer).2 = true → ∃ u, exec i s = .next (takeFault u g (faultAt u g 6 12 0 (BitVec.ofNat 64 n))) ∧
          (u.handoff n).entries = l) ∧
        ((producerOf s e.producer).2 = false → (producerOf s e.producer).1 < e.stamp → ∃ u, exec i s = .next u ∧
          (u.ctx g).wait.isSome = true ∧ (u.handoff n).entries = { e with claimed := some c.id } :: l))) ∧
    ((Instr.trig t).check = none →
      (∀ v, c.trigRec = some v → stepCompletes (.trig t) s t s) ∧
      (c.trigRec = none → stepCompletes (.trig t) s t
        ((s.onCtx g fun c => { c with trigRec := some c.wdi }).onTask (bindTask c.bind) fun k =>
          { k with triggered := tset k.triggered (bindMember c.bind) c.wdi })))

/-- R303, R278, R314, R317: a `fence` draws its line and completes at once when nothing before it is pending, and otherwise
waits; `cnopen` marks the streams of its mask, less the visits whose words are not delivered yet, and opens a region; `cnclose` closes the innermost one once every earlier read has
delivered its data. -/
def Obligations.FencesAndRegions : Prop :=
  ∀ (s : State) (t : Trans),
    let g := s.focus.ring
    let c := s.ctx g
    (∀ kind scope, let i := Instr.fence kind scope t
      let drawn := s.onCtx g fun c => { c with dividers := c.dividers ++ [⟨s.reqNext, s.copyNext, scope, kind, none⟩] }
      i.check = none →
      (earlierPending drawn g (lineWait s g) scope kind = false → stepCompletes i s t
        (s.onCtx g fun c => { c with dividers := c.dividers.filter fun d => d.streams.isSome })) ∧
      (earlierPending drawn g (lineWait s g) scope kind = true →
        exec i s = .next (drawn.onCtx g fun c => { c with wait := some (lineWait s g) })) ∧
      (∀ h w, waitsIn h s i w → earlierPending s h w scope kind = false →
        waitCompletes h s t (s.onCtx h fun c => { c with dividers := c.dividers.filter fun d => d.streams.isSome }))) ∧
    (∀ (region : BitVec 8) (hnd : BitVec 12) (m : Fin 16), let i := Instr.cnopen region hnd m t
      let k := c.kreg m.val
      let mask : BitVec 32 := BitVec.ofNat 32 k.toNat
      let bad : Prop := 8 < popCount mask ∨ (∃ n, n < 32 ∧ bit mask n = true ∧ (c.stream n).isOpen = false) ∨
        2 ^ 32 ≤ k.toNat ∨ 4 ≤ c.regions.length ∨ ∃ r ∈ c.regions, r.id = region.toNat
      i.check = none → (bad → operandFaults i s) ∧
      (¬bad → ∃ r, stepCompletes i s t (s.onCtx g fun c => { c with regions := c.regions ++ [r] }) ∧ r.id = region.toNat ∧
        r.hnd = hnd.toNat ∧ r.depth = c.rstack.length ∧ r.mask = mask ∧ r.nev = 0 ∧ r.hit = false ∧
        ∀ n, n < 32 → bit mask n = true →
          -- the stream as its delivered words leave it
          let x := c.stream n
          let m := tget r.marks n Stream.reset
          m.visits = x.visits - (readsOut s g n).length ∧ m.stopped = none ∧
            { m with visits := x.visits, gather := x.gather, stopped := x.stopped } = x ∧
            (readsOut s g n = [] → m.gather = x.gather))) ∧
    (∀ region : BitVec 8, let i := Instr.cnclose region t
      i.check = none →
      ((c.regions = [] ∨ ∃ l r, c.regions = l ++ [r] ∧ r.id ≠ region.toNat) → operandFaults i s) ∧
      (∀ l r, c.regions = l ++ [r] → r.id = region.toNat → readsOwed s g (lineWait s g) = false →
        stepCompletes i s t (s.onCtx g fun c =>
          { c with regions := l, sl := if r.hit = true then c.sl &&& ~~~(1#16 <<< 13) else c.sl })) ∧
      (∀ l r, c.regions = l ++ [r] → r.id = region.toNat → readsOwed s g (lineWait s g) = true →
        stepWaits i s (lineWait s g)))

/-! ### Events: commands, the scroll, holds -/

/-- R108, R141, R142: of the posted commands whose cycle has come while no fence waits, the earliest posted of those with the
least T begins and leaves the queue; a command relative to a hoist learns its T when the hoist's start is known, and a T
already passed is a timing fault of the post, INFO the start cycle. R112: the long forms of `run`, `qset`, `sopen`, `sclose`, `sbar`,
`copy`, `copyc` and `coll` complete by putting their command into the start queue with its T when that is still to come (`copy` and `coll`
with their token raised, and a `run` not armed); a T already passed is the timing fault, and a full queue makes the sequencer
wait, for every one of them, before and after the 64 bytes are read; `sclose` with W = 1 waits, once it is posted, until its stream is closed. Where it
rests on the model's own choices: logs 71, 76 and 77. -/
def Obligations.PostedCommandsBegin : Prop :=
  ∀ (g : Nat) (s : State),
    let c := s.ctx g
    ((∃ q ∈ c.startq, mayBegin c q = true) → ∃ p t l r, c.startq = l ++ p :: r ∧ mayBegin c p = true ∧ p.start = .at t ∧
      t ≤ c.tc ∧ (∀ q ∈ c.startq, ∀ u, mayBegin c q = true → q.start = .at u → t ≤ u) ∧
      (∀ q ∈ l, mayBegin c q = true → q.start ≠ .at t) ∧
      exec (.startCommandBegin g) s = .next (beginCommand (s.onCtx g fun c => { c with startq := l ++ r }) g p.si p.req p.cmd)) ∧
    (∀ n p r h off x, c.startq[n]? = some p → p.start = .hoist r h off → (c.runs.any fun y => y.id == r && y.arm.isSome) = true →
      (c.hlog.find? fun y => y.h == h) = some x →
      (x.start + off < c.tc → exec (.startCycleResolved g n) s =
        .next (lateFault (s.onCtx g fun c => { c with startq := c.startq.eraseIdx n }) g (x.start + off) p.si)) ∧
      (c.tc ≤ x.start + off → exec (.startCycleResolved g n) s =
        .next (s.onCtx g fun c => { c with startq := c.startq.set n { p with start := .at (x.start + off) } }))) ∧
    ∀ (l : LongForm) (t : Trans) (a : Fin 16), s.focus.ring = g →
      let late (i : Instr) : Prop := postsLate g l s fun info => stepFaults i s 2 1 info 0
      let full (i : Instr) : Prop := postsFull g l s fun st => stepWaits i s ⟨0, 0, 0, c.tc, some st⟩
      (∀ i cmd, (i, cmd) ∈ (List.finRange 32).flatMap (fun n => [(Instr.sclose n false false (some l) t, Command.sclose n.val false),
          (.sclose n true false (some l) t, .sclose n.val true)]) → i.check = none →
        posts g l cmd s (stepCompletes i s t) ∧ late i ∧ full i) ∧
      (∀ (n : Fin 32) (abort : Bool), let i := Instr.sclose n abort true (some l) t
        i.check = none →
        ((c.stream n.val).isOpen = false → posts g l (.sclose n.val abort) s (stepCompletes i s t)) ∧
        ((c.stream n.val).isOpen = true → posts g l (.sclose n.val abort) s fun v =>
          exec i s = .next (v.onCtx g fun x => { x with wait := some ⟨1, 0, 0, c.tc, none⟩ })) ∧
        late i ∧ full i ∧
        (∀ w, waitsIn g s i w → w.stage = 1 → (c.stream n.val).isOpen = false → waitCompletes g s t s)) ∧
      (∀ mask scope, let i := Instr.sbar mask scope (some l) t
        i.check = none → posts g l (.sbar mask scope) s (stepCompletes i s t) ∧ late i ∧ full i) ∧
      (∀ (q kb : Fin 16) (m : BitVec 14) (ent : BitVec 11), let i := Instr.qset q kb m ent (some l) t
        let base := (c.kreg kb.val).toInt
        i.check = none → 0 ≤ base → base ≤ 16383 → base.toNat + (m.toNat + 1) * ent.toNat ≤ 16384 →
          posts g l (.qset q.val base.toNat (m.toNat + 1) ent.toNat) s (stepCompletes i s t) ∧ late i ∧ full i) ∧
      (∀ n : Fin 16, let i := Instr.copyc n a (some l) t
        i.check = none → (c.areg a.val).toNat % 64 = 0 → chanWalking c n.val = false →
          posts g l (.copyc n.val (c.areg a.val)) s (stepCompletes i s t) ∧ late i ∧ full i) ∧
      (∀ n : Fin 16, let i := Instr.copycResume n (some l) t
        i.check = none → chanWalking c n.val = false → posts g l (.copycResume n.val) s (stepCompletes i s t) ∧ late i ∧ full i) ∧
      (∀ (first m : BitVec 10) (kw ks : Fin 16) (kb : Option (Fin 16)) (b : Nat), let i := Instr.run first m kw kb ks (some l) t
        let w := (c.kreg kw.val).toNat % 2 ^ 32
        i.check = none → (∀ r ∈ c.runs, r.done = true) → 1 ≤ b → b ≤ 65536 →
        (match kb with
        | some k => (c.kreg k.val).toInt = (b : Nat)
        | none => b = recBm1 (recHeader s g first.toNat) + 1) →
          (posts g l (.run first.toNat (m.toNat + 1) w b) s fun u => ∃ v r, stepCompletes i s t v ∧ (v.ctx g).startq = (u.ctx g).startq ∧
            (v.ctx g).runs = c.runs ++ [r] ∧ r.arm = none ∧ r.done = false ∧ r.first = first.toNat ∧ r.nv = m.toNat + 1 ∧ r.w = w ∧
            r.b = b) ∧ late i ∧ full i) ∧
      -- those that read 64 bytes first, once these have come
      (∀ w x, w.stage = 1 → w.post = none → s.req w.req = some x → x.kind = .read → x.done.isSome = true → x.poison = false →
        let d : BitVec 512 := BitVec.ofNat 512 (leNat x.data)
        let u := s.dropReq w.req
        let late : Prop := postsLate g l u fun info =>
          exec (.stepWaitComplete g) s = .next (takeFault u g (faultAt u g 2 1 info 0))
        let full : Prop := postsFull g l u fun st =>
          exec (.stepWaitComplete g) s = .next (u.onCtx g fun x => { x with wait := some ⟨2, 0, d, c.tc, some st⟩ })
        (∀ (n : Fin 32) (vs : BitVec 10) (out : Bool) (q : Fin 16), waitsIn g s (.sopen n vs out q a (some l) t) w →
          descBad d out = false → (sdMode d = 0 ∨ bit (hdrOpmask c.hdr) 16 = true) → (sdAtom d = 0 ∨ bit (hdrOpmask c.hdr) 17 = true) →
            posts g l (.sopen n.val vs.toNat out q.val d) u (waitCompletes g s t) ∧ late ∧ full) ∧
        (waitsIn g s (.copy a (some l) t) w → recordInvalid (setBits d 448 64 0) = false → inFlight c < 128 →
          posts g l (.copy (setBits d 448 64 0) (c.areg a.val)) (u.onCtx g fun c => raiseToken c (trTok d)) (waitCompletes g s t) ∧
            late ∧ full) ∧
        (∀ rank, waitsIn g s (.coll a (some l) t) w → bits d 344 8 = 0 → groupValid u (cdGroup d) = true →
          rankOf u (cdGroup d) g = some rank → collBad d (groupRanks (groupHeader u (cdGroup d))) rank = false →
          bits (groupHeader u (cdGroup d)) 53 10 = c.asid.toNat → inFlight c < 128 →
            posts g l (.coll d rank) (u.onCtx g fun c => raiseToken c (cdTok d)) (waitCompletes g s t) ∧
              late ∧ full))

/-- R22, R23: at every entry cycle of a stripe's occupant, one each II cycles from its start plus the column, the
element's rotating base goes down by one; the base of the last instance that entered is what a strike will save. R92,
R96, R126, R160, R256: a record requested is fetched, checked whole and cached, an error kept for the hoist that needs it; one in
the heap window stops the scroll controller. A hoist at its time faults on a virtual stripe beyond V, a kept error or a poisoned save
slot, holds with cause 3 without its record, and otherwise takes the stripe and is under way for its cost, the stripe's contents in force;
each cycle restores 128 bytes, or zeros at a first hoist; at its end the configuration goes live whole, and elements that no state map
entry names start from zero. Where it rests on the model's own choices: logs 23, 28, 29 and, in a replay, 125. -/
def Obligations.RecordsHoistsAndInstances : Prop :=
  (∀ (g ps col n : Nat) (s : State) (o : Occupant) (rc : Rec),
    ((s.ring g).stripe ps).occ = some o → ((s.ring g).stripe ps).record = some rc → o.struck = false →
      (s.ctx g).tc = o.start + col + n * max (recIi rc) 1 → n < o.n + recMaxStage rc →
        exec (.instanceEntry g ps col) s = .next (s.onElem g ps col fun e =>
          { e with rb := e.rb - 1, rbIn := if n < o.n then e.rb - 1 else e.rbIn })) ∧
  (∀ (g : Nat) (s : State),
    (∀ vs, (s.ctx g).fetching.contains vs = true → (s.ctx g).fetchStop = none →
      let va := recordVa (s.ctx g) vs
      -- RLEN of the header; its 64 bytes are read whatever it says
      let len := max 64 (64 * bits (recOfBytes (peekImage s g va 64)).hdr 192 16)
      -- the line requests counted at the pages that they use (R262)
      let u := countWalks s (dieOf g) (s.ctx g) va len .fetch
      let kept (u : State) (code page : Nat) : Host.Outcome State Fault Refusal := .next (u.onCtx g fun c =>
        { c with fetching := c.fetching.filter fun x => x != vs, fetchBad := tset c.fetchBad vs (code + 256 * page) })
      let keep := kept s
      (∀ a, fetchHeap s g va 64 = some a → exec (.configRecordFetch g vs) s = .next (stopScroll s g a)) ∧
      (fetchHeap s g va 64 = none → ∀ p, fetchBadPage s g va 64 = some p → exec (.configRecordFetch g vs) s = keep 15 p) ∧
      (fetchHeap s g va 64 = none → fetchBadPage s g va 64 = none →
        (∀ a, fetchHeap s g va len = some a → exec (.configRecordFetch g vs) s = .next (stopScroll s g a)) ∧
        (fetchHeap s g va len = none → ∀ p, fetchBadPage s g va len = some p → exec (.configRecordFetch g vs) s = keep 15 p) ∧
        (fetchHeap s g va len = none → fetchBadPage s g va len = none → imagePoisoned s g va len = true →
          exec (.configRecordFetch g vs) s = kept u 17 0)) ∧
      (fetchHeap s g va 64 = none → fetchBadPage s g va 64 = none → fetchHeap s g va len = none → fetchBadPage s g va len = none →
        imagePoisoned s g va len = false →
        (∀ code, recordCheck (peekImage s g va len) vs (hdrV (s.ctx g).hdr) = some code →
          exec (.configRecordFetch g vs) s = kept u code 0) ∧
        (recordCheck (peekImage s g va len) vs (hdrV (s.ctx g).hdr) = none → ∃ t, exec (.configRecordFetch g vs) s = .next t ∧
          t = u.onCtx g (fun c => { c with cache := (t.ctx g).cache, fetching := (t.ctx g).fetching, fetchBad := (t.ctx g).fetchBad }) ∧
          vs ∉ (t.ctx g).fetching ∧ ((t.ctx g).cache.find? fun e => e.1 == vs) = some (vs, recOfBytes (peekImage s g va len))))) ∧
    (∀ x r, hoistDue ((knowTimes s g).ctx g) = some x → ((knowTimes s g).ctx g).armedRun = some r →
      let u := knowTimes s g
      let c := u.ctx g
      (hdrV c.hdr ≤ x.vs → exec (.hoist g) s = .next (hoistFail u g x.vs x.ps 19 x.vs)) ∧
      (x.vs < hdrV c.hdr → ∀ e, (c.fetchBad.find? fun e => e.1 == x.vs) = some e →
        exec (.hoist g) s = .next (hoistFail u g x.vs x.ps (e.2 % 256) (e.2 / 256))) ∧
      (x.vs < hdrV c.hdr → (c.fetchBad.find? fun e => e.1 == x.vs) = none → (c.cache.find? fun e => e.1 == x.vs) = none →
        exec (.hoist g) s = .next (askHold (u.onCtx g fun c => c.wantRecord x.vs) g 3)) ∧
      (∀ rc, x.vs < hdrV c.hdr → (c.fetchBad.find? fun e => e.1 == x.vs) = none →
        (c.cache.find? fun e => e.1 == x.vs) = some (x.vs, rc) →
          let note := replayNote u g x.h
          ∃ t, exec (.hoist g) s = .next t ∧
            ((t.ring g).stripe x.ps).record = ((s.ring g).stripe x.ps).record ∧
            (∀ k, k < 8 → t.elem g x.ps k = s.elem g x.ps k) ∧
            ((t.ring g).stripe x.ps).occ = some ⟨x.h, x.vs, x.start, match note with
              | some m => m.n
              | none => if r.res = true then (if r.parkAt.isSome = true then 0 else r.w * r.b) else r.b, false⟩ ∧
            (∀ ps, ps ≠ x.ps → (t.ring g).stripe ps = (s.ring g).stripe ps) ∧
            (∃ first, (t.ctx g).hoisting = some ⟨x.h, x.vs, x.ps, x.ready - x.hb, rc, first, []⟩ ∧
              (note = none → first = !c.hoisted.contains x.vs) ∧ (∀ m, note = some m → first = m.restored.isEmpty)) ∧
            (t.ring g).scrf = (s.ring g).scrf ∧ (t.ctx g).hoistNext = c.hoistNext + 1 ∧ (t.ctx g).ev = c.ev ∧
            (t.ctx g).k = c.k ∧ (t.ctx g).a = c.a ∧ (t.ctx g).tok = c.tok ∧ (t.ctx g).sl = c.sl ∧ t.mem = s.mem ∧ t.hub = s.hub)) ∧
    -- a ring cycle of the hoist under way
    (∀ x, (s.ctx g).hoisting = some x →
      let at_ := slotBase s g x.vs + x.got.length
      let m := min 128 (recSt x.rc - x.got.length)
      let inLog := (s.ctx g).replay.isSome
      (1 < x.left → inLog = false → x.first = false → savePending s g at_ m = true → restoreWaits s g = true ∧ hoistCycle s g = s) ∧
      (1 < x.left → inLog = false → x.first = false → savePoisoned s g at_ m = true → hoistCycle s g = s ∧ restoreBad s g = true ∧
        let t := restoreFails s g
        ((t.ring g).stripe x.ps).occ = none ∧ bit (t.ring g).scrf 17 = true ∧ (t.ctx g).hoisting = none ∧
        ((s.ctx g).ended = false → (s.ctx g).killed = false → (s.ctx g).fault = none → (s.ctx g).faultPref = none →
          ∃ f, (t.ctx g).fault = some f ∧ f.cls = 4 ∧ f.code = 17 ∧ f.vs = x.vs ∧ f.pstr = x.ps)) ∧
      (1 < x.left → inLog = false →
        (x.first = false → savePending s g at_ m = false ∧ savePoisoned s g at_ m = false) →
        hoistCycle s g = s.onCtx g fun c => { c with
          hoisting := some { x with
            left := x.left - 1, got := x.got ++ if x.first then List.replicate m 0 else saveBytes s g at_ m } }) ∧
      (x.left ≤ 1 →
        let t := hoistCycle s g
        ((t.ring g).stripe x.ps).record = some x.rc ∧ ((t.ring g).stripe x.ps).occ = ((s.ring g).stripe x.ps).occ ∧
        (t.ctx g).hoisting = none ∧ (t.ring g).scrf = packBits 64 [(32, 32, x.h), (22, 10, x.vs), (18, 4, x.ps)] ∧
        (t.ctx g).evCount 7 = satAdd 48 ((s.ctx g).evCount 7) 1 ∧
        (inLog = false → (∀ ps, ps ≠ x.ps → (t.ring g).stripe ps = (s.ring g).stripe ps) ∧
          ∀ k, k < 8 → mapOf x.rc k = [] → t.elem g x.ps k =
            { Element.reset with
              po := (s.elem g x.ps k).po, pot := (s.elem g x.ps k).pot, flags := (s.elem g x.ps k).flags,
              flagsNew := (s.elem g x.ps k).flagsNew, pend := (s.elem g x.ps k).pend }))))

/-- R93, R51, R162, R316: a strike ORs the flags of the stripe's elements into the context's and clears them, and saves the
state map, 128 bytes a cycle from that one on, unless the record has none or the context unwinds; what of them fits the carve-out
stands there. The end of the save frees the stripe; the last hoist of a scrolling wave sets `sl1`, and a run whose last hoist it is is over. In a
replay, which the model lets write no memory (log 125), nothing is written. -/
def Obligations.StrikesAndFrees : Prop :=
  ∀ (g : Nat) (s : State),
    (∀ ps o x rc, occLog s g ps = some (o, x, rc) → o.struck = false → x.strike ≤ (s.ctx g).tc →
      ∃ t, exec (.strike g ps) s = .next t ∧
        (t.ctx g).flagw = (s.ctx g).flagw ||| (List.range 8).foldl
          (fun a k => a ||| (s.elem g ps k).flags ||| (s.elem g ps k).flagsNew) 0 ∧
        ((t.ring g).stripe ps).occ = some { o with struck := true } ∧
        (∀ k, k < 8 → t.elem g ps k = { s.elem g ps k with flags := 0, flagsNew := 0 }) ∧
        (∀ q, q ≠ ps → (t.ring g).stripe q = (s.ring g).stripe q) ∧
        (t.ctx g).k = (s.ctx g).k ∧ (t.ctx g).a = (s.ctx g).a ∧ (t.ctx g).sl = (s.ctx g).sl ∧
        ((recSt rc = 0 ∨ (s.ctx g).unwinding.isSome = true ∨ (s.ctx g).replay.isSome = true) →
          t.mem = s.mem ∧ t.reqs = s.reqs ∧ (t.ring g).spad = (s.ring g).spad) ∧
        ((recSt rc = 0 ∨ (s.ctx g).unwinding.isSome = true) → ((t.ring g).stripe ps).saveLeft = []) ∧
        (recSt rc ≠ 0 → (s.ctx g).unwinding = none →
          let blocks := (List.range 8).flatMap fun k =>
            if (mapOf rc k).isEmpty then [] else saveBlock (s.elem g ps k) (mapOf rc k)
          ((t.ring g).stripe ps).saveLeft = blocks.drop 128 ∧
          (blocks ≠ [] → ((t.ring g).stripe ps).saveAt = slotBase s g o.vs + 128) ∧
          ((s.ctx g).replay = none → (s.ring g).spad.wf = true →
            ∀ i, i < 128 → i < blocks.length → slotBase s g o.vs + i < bindCsa (s.ctx g).bind * 65536 →
              saveByte t g (slotBase s g o.vs + i) = blocks.getD i 0))) ∧
    -- each further cycle of the save
    (∀ ps, let st := (s.ring g).stripe ps
      let t := writeNext s g ps
      st.saveLeft ≠ [] →
        (t.ring g).stripe ps = { st with saveAt := st.saveAt + 128, saveLeft := st.saveLeft.drop 128 } ∧
        (∀ q, q ≠ ps → (t.ring g).stripe q = (s.ring g).stripe q) ∧ t.mem = s.mem ∧
        ((s.ctx g).replay.isSome = true → t.reqs = s.reqs ∧ (t.ring g).spad = (s.ring g).spad) ∧
        ((s.ctx g).replay = none → (s.ring g).spad.wf = true →
          ∀ i, i < 128 → i < st.saveLeft.length → st.saveAt + i < bindCsa (s.ctx g).bind * 65536 →
            saveByte t g (st.saveAt + i) = st.saveLeft.getD i 0)) ∧
    (∀ h x r, freeDue s g h = some x → (s.ctx g).armedRun = some r → ∃ t, exec (.stripeFree g h) s = .next t ∧
      ((t.ring g).stripe x.ps).occ = none ∧ (∀ q, q ≠ x.ps → (t.ring g).stripe q = (s.ring g).stripe q) ∧
      (t.ctx g).k = (s.ctx g).k ∧ (t.ctx g).a = (s.ctx g).a ∧ (t.ring g).spad = (s.ring g).spad ∧
      (bit s.hub.audctl 63 = false → t.mem = s.mem ∧ t.hub = s.hub) ∧
      (r.res = false → 0 < r.nv →
        (∀ h', x.h / r.nv * r.nv ≤ h' → h' < (x.h / r.nv + 1) * r.nv → h' ≠ x.h →
          ((s.ctx g).hlog.any fun y => y.h == h' && y.freed) = true) →
        bit (t.ctx g).sl 1 = true ∧ (t.ctx g).waves = (s.ctx g).waves + 1) ∧
      (r.limit = r.total →
        (∀ h', h' < r.limit → h' ≠ x.h → ((s.ctx g).hlog.any fun y => y.h == h' && y.freed) = true) →
        bit (t.ctx g).sl 0 = true ∧ (∀ y ∈ (t.ctx g).runs, y.id = r.id → y.done = true) ∧
        (r.res = true → (t.ctx g).waves = (s.ctx g).waves + 1)))

/-- R85, R86, R240, R315: a hold ends when no cause is asked for; one that has lasted HOLDLIM cycles for any cause but 5 is a
timing fault, code 2, INFO the cause; an element idle for MGATE cycles gates its cells; poison that reaches a party is a
containment fault outside every region and begins an unwinding inside one, from the next cycle that is not held. R354: an uncorrectable
error of a barrier object sets its FLT; one of a state slot or of a cached record is kept for the step or the hoist that needs it.
R316 step 4, R315: once the drain of an unwinding is over, the ring enters the region's handler with k15 its event word,
`sl13` and `sl0` set, the inner regions closed, the return stack at its depth when the region opened, and the checkpointed
streams where they were; no read of the step in progress is left. Where it rests on the model's own choices: log 85, by which this event carries
the errors of R354. -/
def Obligations.HoldsGatesAndContainment : Prop :=
  (∀ (g : Nat) (s : State),
    let r := s.ring g
    (r.holdCause ≠ 0 → r.holdAsk = 0 → exec (.holdResume g) s =
      .next (s.onRing g fun r => { r with holdCause := 0, holdCount := 0, bankServed := 0 })) ∧
    (r.bound = true → r.holdCause ≠ 0 → r.holdCause ≠ 5 → r.holdlim.toNat ≤ r.holdCount → r.ctx.fault = none →
      exec (.holdLimitFault g) s = .next (takeFault s g (faultAt s g 2 2 (BitVec.ofNat 32 r.holdCause) 0))) ∧
    (∀ ps col, hdrMgate (s.ctx g).hdr ≠ 0 → hdrMgate (s.ctx g).hdr ≤ (s.elem g ps col).idle → (s.elem g ps col).gated = false →
      exec (.matrixGate g ps col) s = .next (s.onElem g ps col fun e => { e with gated := true })) ∧
    (∀ (cls : Fin 16) (addr : BitVec 64), r.bound = true → r.ctx.fault = none →
      let u := s.rasEvent 1 addr.toNat 0 r.ctx.id g (if cls.val = 1 ∨ cls.val = 3 then hbmStack addr.toNat else 15) 0 0
      (r.ctx.regions = [] → exec (.poisonConsumption g (.data cls) addr) s = .next (takeFault u g (faultAt s g 7 cls.val 0 addr))) ∧
      (∀ l x, r.ctx.regions = l ++ [x] → (∀ y ∈ l, y.id ≠ x.id) →
        exec (.poisonConsumption g (.data cls) addr) s = .next (u.onCtx g fun c =>
          { c with
            regions := l ++ [{ x with nev := min 255 (x.nev + 1) }],
            unwinding := if c.unwinding.isSome = true then c.unwinding else some ⟨x.id, cls.val, if c.begun = true then c.tc + 1 else c.tc, s.copyNext⟩,
            wait := if c.unwinding.isSome = true then c.wait else none }))) ∧
    (∀ n addr, exec (.poisonConsumption g (.barrier n) addr) s =
      .next (s.setBarrier g n (setBit (s.barrier g n) 104 true))) ∧
    (∀ i addr, r.bound = true → exec (.poisonConsumption g (.stateSlot i) addr) s =
      .next (s.onCtx g fun c => { c with badSlots := i :: c.badSlots })) ∧
    (∀ vs addr, r.bound = true → ∃ t, exec (.poisonConsumption g (.record vs) addr) s = .next t ∧
      (t.ctx g).cache = tdel r.ctx.cache vs ∧ (t.ctx g).fetchBad = tset r.ctx.fetchBad vs 17 ∧
      t = s.onCtx g (fun c => { c with cache := (t.ctx g).cache, fetchBad := (t.ctx g).fetchBad }))) ∧
  (∀ (g : Nat) (s : State) (u : Unwind) (l : List Region) (r : Region) (l' : List Region),
    let c := s.ctx g
    c.unwinding = some u → c.regions = l ++ r :: l' → r.id = u.region → (∀ x ∈ l, x.id ≠ u.region) → unwindOver s g u = true →
      c.fault = none → r.hnd < hdrStlen c.hdr → isSecondWord c r.hnd = false →
        ∃ t, exec (.containmentHandlerEntry g) s = .next t ∧ (t.ctx g).si = r.hnd ∧ (t.ctx g).wait = none ∧
          (t.ctx g).unwinding = none ∧ (t.ctx g).regions = l ++ [{ r with hit := true }] ∧
          (t.ctx g).rstack = c.rstack.take r.depth ∧ (t.ctx g).kreg 15 = packBits 48 [(12, 8, r.nev), (8, 4, u.cls), (0, 8, r.id)] ∧
          (∀ n, n ≠ 15 → (t.ctx g).kreg n = c.kreg n) ∧ (t.ctx g).a = c.a ∧ bit (t.ctx g).sl 13 = true ∧ bit (t.ctx g).sl 0 = true ∧
          (∀ n, n ≠ 0 → n ≠ 13 → bit (t.ctx g).sl n = bit c.sl n) ∧
          (∀ x ∈ (t.ctx g).runs, x.done = true) ∧ (∀ d ∈ (t.ctx g).dividers, d.streams.isSome = true) ∧
          (∀ n, (∀ e ∈ r.marks, e.1 ≠ n) → (t.ctx g).stream n = c.stream n) ∧
          (∀ n x, r.marks = [(n, x)] → (t.ctx g).stream n = { x with stopped := none }) ∧
          (∀ q ∈ t.reqs, q.ring = g → q.ctx = c.id → q.party = .seq → q.kind ≠ .read) ∧
          t.mem = s.mem ∧ (t.ring g).spad = (s.ring g).spad ∧ t.hub = s.hub)

/-! ### Events: memory -/

/-- R169, R170, R174, R95: an input stream that may read and has nothing to deliver issues its next visit; its oldest
performed read is delivered to the queue of the block it targets, with the sideband of its row length, visible two cycles later; a bubble at the
head of an output stream's queue is passed over without a visit; a stream marked to close is closed once it is over, an aborted output stream with the words of a row or a segment that it has not sent.
R83, R84, R264: a segment that reaches an open input bridge from its peer, in its address space, is checked whole: a bad one is a schedule fault, code 8, that
names the stream, and delivers nothing; a good one joins the words of the bridge, a segment of kind 3 as one bubble.
Where it rests on the model's own choices: logs 24, 25, 33 and 78. -/
def Obligations.StreamVisitsAndBridgeSegments : Prop :=
  (∀ (g n : Nat) (s : State),
    let x := (s.ctx g).stream n
    let d := x.desc
    (x.isOpen = true → x.closing = true → (x.done = true ∨ x.abort = true) → readsOut s g n = [] → x.pendWords = [] → x.again = [] →
      exec (.streamVisit g n) s = .next (s.onCtx g fun c => c.setStream n
        { x with isOpen := false, closing := false, inSeg := false, stopped := none, gather := [], skip := 0 })) ∧
    (x.isOpen = true → x.out = true → x.closing = true → x.abort = true → (s.ctx g).ending = none → sdSpace d ≠ 2 →
      readsOut s g n = [] → x.again = [] →
      exec (.streamVisit g n) s = .next (s.onCtx g fun c => c.setStream n
        { x with isOpen := false, closing := false, inSeg := false, stopped := none, gather := [], pendWords := [], skip := 0 })) ∧
    (mayRead s g n = true → (s.ctx g).replay = none → sdMode d = 0 → deliverable s g n = none →
      exec (.streamVisit g n) s = .next ((issueReq s g (.stream n) .read
        (partsOf (streamPlace g d (visitAddr d x.visits)) (List.replicate 128 0)) 0 (.streamWord n x.visits)).onCtx g fun c =>
          c.setStream n { c.stream n with visits := x.visits + 1 })) ∧
    (∀ q k w, x.out = false → x.closing = false → (s.ctx g).replay = none → sdSpace d ≠ 2 → sdFrame d = 0 → mayRead s g n = false →
      deliverable s g n = some q → q.purpose = .streamWord n k → (s.ring g).queue x.q = some w → w.tile = false → x.q < 16 →
        let blk := (s.ring g).streamBlock x
        let st := (s.ring g).qstate blk x.q
        let last := k + 1 == totalVisits d
        ∃ t, exec (.streamVisit g n) s = .next t ∧
          (t.ring g).qstate blk x.q = { st with
            tail := st.tail + 1,
            info := tset st.info st.tail
              { lr := last || (sdRl d != 0 && (k + 1) % sdRl d == 0), ls := last, mask := allTags, vis := (s.ctx g).rcyc + 2,
                poison := q.cls, line := q.line, swz := false } } ∧
          (∀ b p, b ≠ blk → p < 16 → (t.ring g).qstate b p = (s.ring g).qstate b p) ∧
          (t.ring g).spad = ((s.ring g).putWord blk (w.word st.tail) false (vecOfBytes q.data) 0xFFFFFFFF).spad ∧
          ((t.ctx g).stream n).moved = x.moved + 1 ∧ ((t.ctx g).stream n).done = (x.done || last) ∧
          (t.ctx g).evCount 14 = satAdd 48 ((s.ctx g).evCount 14) 1 ∧ t.reqs = s.reqs.filter (fun y => y.id != q.id) ∧
          (t.ctx g).k = (s.ctx g).k ∧ (t.ctx g).a = (s.ctx g).a ∧ t.mem = s.mem) ∧
    (∀ blk w pos m, mayWrite s g n = true → (sdSpace d = 2 → bridgeForeign s g n = false ∧ bridgeReady s g n = true) →
      x.closing = false → x.abort = false → x.inSeg = false → x.again = [] → x.pendWords = [] → sdFrame d = 0 →
      outputEntry s g x = some (blk, w, pos, m) → w.tile = false → m.lr = false → m.ls = true →
        ∃ t, exec (.streamVisit g n) s = .next t ∧ t.reqs = s.reqs ∧ t.mem = s.mem ∧ ((t.ctx g).stream n).visits = x.visits ∧
          (t.ring g).qstate blk x.q = ({ (s.ring g).qstate blk x.q with resv := pos + 1 } : QState).pop pos)) ∧
  (∀ (g n : Nat) (head : SegmentHead) (ws : List (BitVec 1024)) (s : State),
    let x := (s.ctx g).stream n
    let h := head.bits
    let bad : Prop := 4 ≤ bits h 44 4 ∨ bits h 32 12 ≠ 0 ∨ (bits h 0 32 = 0 ↔ bits h 44 4 ≠ 3) ∨
      (sdTagchk x.desc = true ∧ bits h 48 16 ≠ sdTag x.desc) ∨ ws.length ≠ bits h 0 32
    (s.ring g).bound = true → (s.ring g).slotState ≠ .saving → (s.ctx g).fault = none → (s.ctx g).killed = false →
    x.isOpen = true → x.out = false → sdSpace x.desc = 2 → x.done = false → ¬(x.closing = true ∧ x.abort = true) →
    -- the stream names the sender as its peer (R173)
    bits x.desc 505 7 = head.node → bits x.desc 500 5 = head.ring → bits x.desc 495 5 = head.stream →
      ((s.ctx g).asid ≠ head.asid → exec (.bridgeSegmentReceive g n head ws) s = .next s) ∧
      ((s.ctx g).asid = head.asid → bad → exec (.bridgeSegmentReceive g n head ws) s = .next (takeFault
        (s.onCtx g fun c => c.setStream n { x with done := true }) g
        { faultAt s g 1 8 0 (BitVec.ofNat 64 (sdBase x.desc)) with locStripe := true, si := 0, vs := x.vs, issuer := n })) ∧
      ((s.ctx g).asid = head.asid → ¬bad → ∃ t, exec (.bridgeSegmentReceive g n head ws) s = .next t ∧
        t = s.onCtx g (fun c => c.setStream n ((t.ctx g).stream n)) ∧
        ((t.ctx g).stream n).pendWords.map Prod.fst = x.pendWords.map Prod.fst ++
          (if bits h 44 4 = 3 then [Vec.zero] else ws.map fun w => vecOfBytes (bytesOf w)) ∧
        (bits h 44 4 = 3 → ∃ m, ((t.ctx g).stream n).pendWords = x.pendWords ++ [(Vec.zero, m)] ∧ m.lr = false ∧ m.ls = true) ∧
        (sdRl x.desc = 0 → bits h 44 4 < 3 → ∀ m, ((t.ctx g).stream n).pendWords.getLast? = some m →
          m.2.ls = decide (bits h 44 4 = 2) ∧ m.2.lr = decide (bits h 44 4 ≠ 0))))

/-- R178, R180, R181: a walking channel that has not asked for its record reads it; the record, once read, parks it on OWN 0, faults it on
an invalid record, and otherwise waits for a place; a poisoned one parks it, and is consumed by the context (R315, log 90); begun, it
raises its token and starts a copy; a finished copy releases its token. Where it rests on the model's own choices: logs 71 and 90. -/
def Obligations.CopiesAndChannels : Prop :=
  ∀ (g n : Nat) (s : State),
    let x := (s.ctx g).chan n
    (x.mode = .fetching → partyStopped s g (s.ctx g).id (.chan n) = false →
      (s.reqs.find? fun q => q.ring == g && q.ctx == (s.ctx g).id && q.purpose == .chanRecord n) = none →
        exec (.copyChannelRecordFetch g n) s = .next (issueReq s g (.chan n) .read
          (partsOf (.virt (x.addr.toNat % 2 ^ 56)) (List.replicate 64 0)) 0 (.chanRecord n))) ∧
    (∀ q, x.mode = .fetching → partyStopped s g (s.ctx g).id (.chan n) = false →
      (s.reqs.find? fun q => q.ring == g && q.ctx == (s.ctx g).id && q.purpose == .chanRecord n) = some q → q.done.isSome = true →
        q.poison = true → (s.ctx g).regions = [] →
        let u := (s.dropReq q.id).onCtx g fun c => c.setChan n { x with mode := .parked, nullNext := false }
        exec (.copyChannelRecordFetch g n) s = .next (takeFault
          (u.rasEvent 1 (q.line % 2 ^ 64) 0 (s.ctx g).id g (if q.cls = 1 ∨ q.cls = 3 then hbmStack (q.line % 2 ^ 64) else 15) 0 0) g
          { faultAt s g 7 q.cls 0 (BitVec.ofNat 64 q.line) with issuer := 32 + n })) ∧
    (∀ q, x.mode = .fetching → x.nullNext = false → partyStopped s g (s.ctx g).id (.chan n) = false →
      (s.reqs.find? fun q => q.ring == g && q.ctx == (s.ctx g).id && q.purpose == .chanRecord n) = some q → q.done.isSome = true →
        q.poison = false →
        let r : TransferRec := BitVec.ofNat 512 (leNat q.data)
        let u := s.dropReq q.id
        (trOwn r = false → exec (.copyChannelRecordFetch g n) s =
          .next (u.onCtx g fun c => c.setChan n { x with mode := .parked, nullNext := false })) ∧
        (trOwn r = true → recordInvalid r = true → exec (.copyChannelRecordFetch g n) s =
          .next (takeFault (u.onCtx g fun c => c.setChan n { x with mode := .parked, nullNext := false }) g
            { faultAt s g 1 10 0 x.addr with
              issuer := 32 + n, region := regionOf x.addr.toNat,
              gen := generation s (dieOf g) (s.ctx g).asid (regionOf x.addr.toNat) })) ∧
        (trOwn r = true → recordInvalid r = false → exec (.copyChannelRecordFetch g n) s =
          .next (u.onCtx g fun c => c.setChan n { x with mode := .waiting, record := r }))) ∧
    (x.mode = .waiting → inFlight (s.ctx g) < 128 → partyStopped s g (s.ctx g).id (.chan n) = false →
      (trOrd x.record = true → ∀ k ∈ s.copies, ¬(k.ring = g ∧ k.ctx = (s.ctx g).id ∧ k.chan = some n)) →
        ∃ t k, exec (.copyChannelRecordFetch g n) s = .next t ∧ t.copies = s.copies ++ [k] ∧ k.ring = g ∧ k.ctx = (s.ctx g).id ∧
          k.chan = some n ∧ k.record = x.record ∧ k.recAddr = x.addr ∧ k.next = 0 ∧ k.writeDone = 0 ∧ k.owning = false ∧
          (t.ctx g).token (trTok x.record) = (s.ctx g).token (trTok x.record) + 1 ∧
          (∀ m, m ≠ trTok x.record → (t.ctx g).token m = (s.ctx g).token m) ∧
          (trNext x.record = 0 → ((t.ctx g).chan n).mode = .parked ∧ ((t.ctx g).chan n).nullNext = true) ∧
          (trNext x.record ≠ 0 → x.last = true → ((t.ctx g).chan n).mode = .parked) ∧
          (trNext x.record ≠ 0 → x.last = false → ((t.ctx g).chan n).mode = .fetching ∧
            ((t.ctx g).chan n).addr = BitVec.ofNat 64 (trNext x.record) ∧ t.reqNext = s.reqNext + 1)) ∧
    (∀ id k, s.copy id = some k → copyDone s k = true → (s.ctx k.ring).id = k.ctx → (s.ring k.ring).bound = true →
      remapOf (s.ring k.ring) k.ctx = none →
        exec (.copyComplete id) s = .next ({ s with copies := s.copies.filter fun y => y.id != id }.onCtx k.ring fun c =>
          (c.setTok (trTok k.record) (c.token (trTok k.record) - 1)).addEv 13 1))

/-- R290, R293, R295: an arrival counts PEND down and, refused or not, is acknowledged with its cause; bytes counted against a
barrier come off INB or OUTB one by one. When PEND, INB and OUTB are all zero the phase ends: GEN moves on, PEND is COUNT again. A
byte beyond the count is cause 3, and a refusal is a barrier fault of the copying context. An object takes one operation in a
cycle. Where it rests on the model's own choices: log 9. -/
def Obligations.BarrierEvents : Prop :=
  ∀ (s : State),
    (∀ g w b t, (s.ctx g).wait = some w → (s.ctx g).stepAt (s.ctx g).si = .ok (.barr b t) → w.stage = 1 → (s.ctx g).answer = none →
      let name := ((s.ctx g).kreg b.val).toNat
      let r := name / 2 ^ 12 % 32
      let o := s.barrier r (name % 4096)
      let ack (u : State) (cause : Nat) : Host.Outcome State Fault Refusal :=
        .next (u.onCtx g fun c => { c with answer := some (BitVec.ofNat 64 cause) })
      let used (x : Barrier) : State := { s.setBarrier r (name % 4096) x with barUsed := (r, name % 4096) :: s.barUsed }
      let cause := barrierRefusal s r (some g) (s.ctx g).asid o
      (name / 2 ^ 17 % 128 ≠ s.hub.node.toNat →
        (kamvaPort s (name / 2 ^ 17 % 128) = none →
          exec (.barrierArrival g) s = ack (unreachable s (name / 2 ^ 17 % 128) true) 0) ∧
        ((kamvaPort s (name / 2 ^ 17 % 128)).isSome = true → ∃ k, k ∈ [0, 2, 4, 5, 6] ∧ exec (.barrierArrival g) s =
          ack { s with
            freeCtr := s.freeCtr + 1,
            egress := s.egress ++ [.barrier (name / 2 ^ 17 % 128) (s.ctx g).asid name .arrive] } k)) ∧
      (name / 2 ^ 17 % 128 = s.hub.node.toNat → (r, name % 4096) ∉ s.barUsed →
        (cause ≠ 0 → exec (.barrierArrival g) s = ack (used o) cause) ∧
        (cause = 0 → barPend o = 0 → exec (.barrierArrival g) s = ack (used (setBits o 105 1 1)) 2) ∧
        (cause = 0 → 0 < barPend o → ∃ x, exec (.barrierArrival g) s = ack (used x) 0 ∧
          barInb x = barInb o ∧ barOutb x = barOutb o ∧ barCount x = barCount o ∧ barOwner x = barOwner o ∧ barScope x = barScope o ∧
          ((1 < barPend o ∨ barInb o ≠ 0 ∨ barOutb o ≠ 0 ∨ barFlt o = true) →
            barPend x = barPend o - 1 ∧ barGen x = barGen o ∧ barPois x = barPois o) ∧
          (barPend o = 1 → barInb o = 0 → barOutb o = 0 → barFlt o = false →
            barPend x = barCount o ∧ barGen x = (barGen o + 1) % 16 ∧ barLpois x = barPois o ∧ barPois x = false)))) ∧
    (∀ id bytes poisoned d, (s.decs.find? fun d => d.id == id && d.bytes == bytes && d.poison == poisoned) = some d →
      d.bar / 2 ^ 17 % 128 = s.hub.node.toNat →
        let r := d.bar / 2 ^ 12 % 32
        let o := s.barrier r (d.bar % 4096)
        let used (x : Barrier) : State :=
          { s.setBarrier r (d.bar % 4096) x with decs := s.decs.erase d, barUsed := (r, d.bar % 4096) :: s.barUsed }
        let old := if d.bk = 2 then barOutb o else barInb o
        let cause := barrierRefusal s r (some d.ring) d.asid o
        (r, d.bar % 4096) ∉ s.barUsed →
        (cause ≠ 0 → exec (.barrierByteDecrement id bytes poisoned) s = .next (copyBarrierFault (used o) d cause)) ∧
        (cause = 0 → old < d.bytes → ∃ x, exec (.barrierByteDecrement id bytes poisoned) s =
            .next (copyBarrierFault (used x) d 3) ∧ barFlt x = true ∧ (if d.bk = 2 then barOutb x else barInb x) = 0) ∧
        (cause = 0 → d.bytes = 0 → exec (.barrierByteDecrement id bytes poisoned) s = .next (used o)) ∧
        (cause = 0 → 0 < d.bytes → d.bytes ≤ old → ∃ x, exec (.barrierByteDecrement id bytes poisoned) s = .next (used x) ∧
          (if d.bk = 2 then barOutb x = old - d.bytes ∧ barInb x = barInb o else barInb x = old - d.bytes ∧ barOutb x = barOutb o) ∧
          barCount x = barCount o ∧ barOwner x = barOwner o ∧
          ((barPend o ≠ 0 ∨ barInb x ≠ 0 ∨ barOutb x ≠ 0 ∨ barFlt o = true) → barPend x = barPend o ∧ barGen x = barGen o ∧
            barPois x = (barPois o || d.poison)) ∧
          (barPend o = 0 → barInb x = 0 → barOutb x = 0 → barFlt o = false →
            barPend x = barCount o ∧ barGen x = (barGen o + 1) % 16 ∧ barLpois x = (barPois o || d.poison) ∧ barPois x = false)))

/-- R309 to R312, R285: a collective begins when every member of the package has posted it and has performed what comes before;
where descriptors differ, or ROOT is no rank of the group, it fails with cause 14 for each. It completes when no member's copy engine
is stopped, what they issued to its buffers is performed, and every source and destination translates: each member's result stands at its
destination, which is poisoned instead when its context unwinds (R316), each bound member's token falls and its flag word takes the flags
raised, and the collective has left the list. Where it rests on the model's own choices: log 117. -/
def Obligations.CollectivesMatchAndComplete : Prop :=
  ∀ (n : Nat) (s : State),
    (∀ x, collNext s n = some x → collPosted s n x.seqNo = true →
      let all := s.colls.filter fun c => c.group == n && c.seqNo == x.seqNo
      (∀ c ∈ all, collWaits s (groupRanks (groupHeader s n)) false c = false) →
      ((∀ c ∈ all, cdOp c.desc = cdOp x.desc ∧ cdRed c.desc = cdRed x.desc ∧ cdType c.desc = cdType x.desc ∧
          cdCount c.desc = cdCount x.desc ∧ cdRoot c.desc = cdRoot x.desc) → cdRoot x.desc < groupRanks (groupHeader s n) →
        exec (.collectiveStart n) s = .next { s with
          colls := s.colls.map fun c => if c.group = n ∧ c.seqNo = x.seqNo then { c with begun := true } else c }) ∧
      (((∃ c ∈ all, cdOp c.desc ≠ cdOp x.desc ∨ cdRed c.desc ≠ cdRed x.desc ∨ cdType c.desc ≠ cdType x.desc ∨
          cdCount c.desc ≠ cdCount x.desc ∨ cdRoot c.desc ≠ cdRoot x.desc) ∨ groupRanks (groupHeader s n) ≤ cdRoot x.desc) →
        exec (.collectiveStart n) s = .next (all.foldl (fun s c => collFail s c 14) s))) ∧
    (∀ x srcs, (s.colls.find? fun c => c.group == n && c.begun) = some x →
      collSources s n x.seqNo (groupRanks (groupHeader s n)) = .ok srcs →
      let all := s.colls.filter fun c => c.group == n && c.seqNo == x.seqNo && c.begun
      let out (c : Coll) : List Byte := (collResult c.desc srcs c.rank).1
      (∀ c ∈ all, partyStopped s c.ring c.ctx .copyEngine = false) →
      (∀ c ∈ all, collWaits s (groupRanks (groupHeader s n)) true c = false) →
      (∀ c ∈ all, ∃ ps, collPlaces s c (cdDst c.desc) (out c).length .write = .ok ps) →
      ∃ t, exec (.collectiveComplete n) s = .next t ∧
        -- members that are bound, and destinations in HBM within one unit of translation each
        (∀ pa : Coll → Nat, (∀ c ∈ all, (s.ctx c.ring).id = c.ctx ∧ (s.ring c.ring).bound = true ∧ remapOf (s.ring c.ring) c.ctx = none ∧
            isHbm (pa c) = true ∧ collPlaces s c (cdDst c.desc) (out c).length .write =
              .ok (if (out c).length = 0 then [] else [(.phys (pa c), (out c).length)])) →
          ((∀ c ∈ all, collPoisoned s c = false) → t.mem = all.foldl (fun m c => m.writeN (pa c) (out c)) s.mem) ∧
          ((∀ c ∈ all, collPoisoned s c = true) → t.mem = s.mem ∧ ∀ c ∈ all, ∀ l, (out c).length ≠ 0 →
            pa c / 64 ≤ l → l ≤ (pa c + (out c).length - 1) / 64 → l ∈ t.poison) ∧
          ∀ c, (all.filter fun y => y.ring == c.ring) = [c] →
            (t.ctx c.ring).token c.tok = (s.ctx c.ring).token c.tok - 1 ∧
            (t.ctx c.ring).flagw = (s.ctx c.ring).flagw ||| collFlags x.desc srcs) ∧
        t.colls = s.colls.filter (fun c => !(c.group == n && c.seqNo == x.seqNo)) ∧
        (∀ g, (∀ c ∈ s.colls, c.group = n → c.seqNo = x.seqNo → c.ring ≠ g) →
          (t.ctx g).tok = (s.ctx g).tok ∧ (t.ctx g).flagw = (s.ctx g).flagw) ∧
        (∀ g, (t.ctx g).k = (s.ctx g).k ∧ (t.ctx g).a = (s.ctx g).a ∧ (t.ctx g).si = (s.ctx g).si))

/-- R275, R276, R138, R271, R272: an access that order lets be performed at a scope is performed there; a write
performed at `pkg` scope or wider moves WDP over its lines, and a host reads what stood there until it is performed at `sys` (R287);
one that carries an older generation is refused and changes nothing; one whose scratchpad no longer takes it is translated again
(R264), or dropped with its context; a refused access of a live context is translated again, and that of a killed one is dropped. Where it rests on the model's
own choices: log 8. -/
def Obligations.AccessesArePerformed : Prop :=
  ∀ (s : State) (id : Nat) (q : Req), s.req id = some q →
    (∀ sc, mayPerform s q sc = true → q.performedAt sc = false →
      let done (u : State) : Prop := exec (.memoryAccessPerformed id sc) s = .next u
      (q.done = none → genFresh s q = false →
        (∀ c, s.ctxById q.ring q.ctx = some c → c.killed = false → done (s.setReq { q with stale := true })) ∧
        (∀ c, s.ctxById q.ring q.ctx = some c → c.killed = true → done (s.dropReq id)) ∧
        (s.ctxById q.ring q.ctx = none → done (s.dropReq id))) ∧
      (q.done = none → genFresh s q = true → spadRefused s q = true →
        (∀ c, s.ctxById q.ring q.ctx = some c → c.killed = false → done (translateReq s id)) ∧
        (∀ c, s.ctxById q.ring q.ctx = some c → c.killed = true → done (s.dropReq id)) ∧
        (s.ctxById q.ring q.ctx = none → done (s.dropReq id))) ∧
      (q.kind = .write → q.purpose = .ast → q.parts.length = 1 → q.done = none → q.poison = false → genFresh s q = true →
        (s.ctx q.ring).id = q.ctx → (s.ring q.ring).bound = true → remapOf (s.ring q.ring) q.ctx = none →
        ∀ p pa, q.parts = [p] → p.dest = some (.phys pa) → isHbm pa = true →
          ∃ u, done u ∧ u.mem = s.mem.writeN pa p.bytes ∧ u.hub = s.hub ∧
            (∀ y, u.req id = some y → y.done = some sc) ∧ (sc ≠ .sys → (u.req id).isSome = true) ∧
            (scopeRank .pkg ≤ scopeRank sc → u.ctx q.ring = (s.ctx q.ring).performed q.wdi q.lines ∨ q.lines = 0) ∧
            (scopeRank sc < scopeRank .pkg → u.ctx q.ring = s.ctx q.ring) ∧
            (s.mem.wf = true → sc ≠ .sys → ∀ a, u.hostByte a = s.hostByte a) ∧ (s.shadow = [] → sc = .sys → u.shadow = [])) ∧
      (q.kind = .read → q.done = none → genFresh s q = true → q.lines = 0 →
        ∀ p pa, q.parts = [p] → p.dest = some (.phys pa) → isHbm pa = true →
          (∀ l, p.bytes.length ≠ 0 → pa / 64 ≤ l → l ≤ (pa + p.bytes.length - 1) / 64 → l ∉ s.poison) →
          ∃ u y, done u ∧ u.req id = some y ∧ y.done = some sc ∧ y.data = s.mem.readN pa p.bytes.length ∧ y.poison = false ∧
            u.mem = s.mem ∧ u.rings = s.rings ∧ u.hub = s.hub)) ∧
    (q.stale = true →
      (∀ c, s.ctxById q.ring q.ctx = some c → c.killed = false → exec (.staleRefusalReplay id) s = .next (translateReq s id)) ∧
      (∀ c, s.ctxById q.ring q.ctx = some c → c.killed = true → exec (.staleRefusalReplay id) s = .next (s.dropReq id)) ∧
      (s.ctxById q.ring q.ctx = none → exec (.staleRefusalReplay id) s = .next (s.dropReq id)))

/-- R261, R268, R269, R273: a flush asked for empties the die's fault buffer, moves its batch on and replays the
stopped accesses in order; a shoot-down takes effect in every unit at once and clears BUSY when all have answered; a
generation bump sets BUSY and advances every region of its mask by one in every unit and in every die's table, and clears BUSY, with the
accesses of older generations that are still queued refused, when none that was forwarded is left to perform; then the next that Eosen
owes begins, and the barrier objects that waited for the bump are free (R288). Where it rests on the model's own choices: log 46. -/
def Obligations.FlushesShootDownsAndBumps : Prop :=
  ∀ (s : State),
    (∀ die, exec (.faultBufferFlush die) s = .next (s.onDie die fun d => { d with fbflush := true }) ∧
      exec (.fbstatOvfClear die) s = .next (s.onDie die fun d => { d with fbovf := false }) ∧
      ((s.die die).fbflush = true → exec (.flushComplete die) s = .next (replayEngines (((s.reqs.filter fun q =>
        q.stop.isSome && (dieOf q.ring == die && !(q.stop.any (·.repair)))).map (·.id)).foldl translateReq (s.onDie die fun d =>
          { d with fbtail := d.fbhead, fbunread := 0, fbatch := d.fbatch + 1, fbrecs := [], fbflush := false })) die))) ∧
    (∀ v : BitVec 64,
      ((bit v 63 = false ∨ bit s.hub.tlbinv 63 = true) → exec (.shootDown v) s = .next s) ∧
      (bit v 63 = true → bit s.hub.tlbinv 63 = false → ∃ t, exec (.shootDown v) s = .next t ∧ t.hub = { s.hub with tlbinv := v } ∧
        t.rings = s.rings ∧ t.mem = s.mem ∧
        ∀ d, d < 4 → t.die d = { s.die d with tlb := (s.die d).tlb.filter fun e => !(e.asid == v.extractLsb' 52 10 &&
          (bit v 62 || (decide (e.vpn < bits v 12 40 + bits v 0 12 + 1) && decide (bits v 12 40 < e.vpn + e.pages)))) })) ∧
    (bit s.hub.tlbinv 63 = true →
      exec .shootDownComplete s = .next (s.onHub fun h => { h with tlbinv := setBit h.tlbinv 63 false })) ∧
    (∀ v : BitVec 64,
      ((bit v 63 = false ∨ bit s.hub.genbump 63 = true) → exec (.generationBump v) s = .next s) ∧
      (bit v 63 = true → bit s.hub.genbump 63 = false → ∃ t,
        exec (.generationBump v) s = .next t ∧ bit t.hub.genbump 63 = true ∧
        (∀ r d, r < 16 → d < 4 → bit v r = true →
          generation t d (v.extractLsb' 16 10) r = (generation s 0 (v.extractLsb' 16 10) r + 1) % 4096) ∧
        -- the tables in HBM, one of each die (R257)
        (s.mem.wf = true → (∀ d, d < 4 → isHbm (bits (s.die d).astbase 15 37 * 32768) = true) → ∀ r d, r < 16 → d < 4 →
          bits (astEntry t d (v.extractLsb' 16 10)) (64 + 12 * r) 12 =
            if bit v r = true then (generation s 0 (v.extractLsb' 16 10) r + 1) % 4096
            else bits (astEntry s d (v.extractLsb' 16 10)) (64 + 12 * r) 12) ∧
        (∀ (a : BitVec 10) r d, r < 16 → ¬(a = v.extractLsb' 16 10 ∧ bit v r = true) →
          tget t.hub.gens (16 * a.toNat + r) d = tget s.hub.gens (16 * a.toNat + r) d) ∧
        t.rings = s.rings ∧ t.dies = s.dies ∧ t.reqs = s.reqs)) ∧
    (bit s.hub.genbump 63 = true → s.hub.bumps = [] →
      (∀ q ∈ s.reqs, olderGen s s.hub.genbump q = true → forwarded s q = false) →
      let old (q : Req) : Bool := olderGen s s.hub.genbump q && q.done.isNone
      ∃ t, exec .generationBumpComplete s = .next t ∧ bit t.hub.genbump 63 = false ∧
        t.reqs = (s.reqs.filter fun q => !old q || q.live s).map (fun q => if old q = true then { q with stale := true } else q) ∧
        t.rings = s.rings ∧ t.mem = s.mem ∧ t.hub.gens = s.hub.gens) ∧
    -- a bump that Eosen owed has cleared: the objects that waited for it are free, and the next one begins
    (bit s.hub.genbump 63 = true → (∀ q ∈ s.reqs, olderGen s s.hub.genbump q = true → forwarded s q = false) →
      ∀ b rest, s.hub.bumps = b :: rest → b.value = s.hub.genbump → ∃ t, exec .generationBumpComplete s = .next t ∧
        t.hub.bumps = rest ∧ (∀ x ∈ b.free, ∀ e ∈ (t.ring x.1).bars, barOwner e.2 = x.2.toNat → x.2 = 0) ∧
        (rest = [] → bit t.hub.genbump 63 = false) ∧
        (∀ n l, rest = n :: l → bit t.hub.genbump 63 = true ∧ t.hub.genbump.extractLsb' 0 16 = n.value.extractLsb' 0 16 ∧
          t.hub.genbump.extractLsb' 16 10 = n.value.extractLsb' 16 10))

/-! ### Events: contexts -/

/-- R340, R337, R147, R349, R400: the watchdog's fault; the quantum's renewal, or a save when work waits; the end of a
context whose conditions of R147 hold; the end of a drained one with result 5 and its record; the debugger's resume
and kill. Where it rests on the model's own choices: logs 44 and, for a replay, which is given up instead of saved, 125. -/
def Obligations.ContextEvents : Prop :=
  ∀ (g : Nat) (s : State),
    let r := s.ring g
    (r.bound = true → bindWdog r.ctx.bind ≠ 0 → bindWdog r.ctx.bind ≤ r.ctx.wdcount → r.slotState ≠ .halted → r.ctx.fault = none →
      exec (.watchdogExpiry g) s = .next (takeFault s g (faultAt s g 10 0 (BitVec.ofNat 32 r.ctx.wdcount) 0))) ∧
    (r.bound = true → bindQuant r.ctx.bind ≠ 0 → bindQuant r.ctx.bind ≤ r.ctx.qcount → r.slotState = .running →
      r.saving = .idle → r.ctx.fault = none →
        let u := s.onCtx g fun c => { c with qcount := 0 }
        (workWaits s g (ctxPri s r.ctx) = false → exec (.quantumExpiry g) s = .next u) ∧
        (workWaits s g (ctxPri s r.ctx) = true → ∀ i, freeEntry r = some i →
          r.ctx.replay = none → exec (.quantumExpiry g) s = .next (u.onRing g fun r => { r with saving := .waitSave i })) ∧
        (workWaits s g (ctxPri s r.ctx) = true → r.ctx.replay.isSome = true → exec (.quantumExpiry g) s = .next (endReplay u g)) ∧
        (workWaits s g (ctxPri s r.ctx) = true → freeEntry r = none → r.ctx.replay = none →
          exec (.quantumExpiry g) s = .next (u.ctxHostEvent g 7 0))) ∧
    (∀ st, r.ctx.ending = some st → r.bound = true → r.slotState = .running → r.ctx.fault = none → r.ctx.startq = [] →
      (bit r.ctx.sl 0 = true ∨ ∃ l x, r.ctx.runs = l ++ [x] ∧ x.parked = true) → (∀ n, n < 8 → r.ctx.token n = 0) →
      (∀ e ∈ r.ctx.streams, e.2.isOpen = false) → r.ctx.wdp = r.ctx.wdi →
        exec (.contextEnd g) s = .next (retireContext s g 0 st)) ∧
    (r.slotState = .draining → r.ctx.fault = none → quiescent s g = true → exec (.drainQuiescence g) s =
      .next (retireContext (s.physWrite (bindSave r.ctx.bind + 4718592 + 128) (drainRecord r.ctx)) g 5 0)) ∧
    (∀ st res, s.hub.tasks = [] → (∀ n, groupValid s n = false) → s.colls = [] →
      (∀ e ∈ s.hub.audlogs, e.2.whole = true ∨ e.2.ring ≠ g ∨ e.2.ctx ≠ r.ctx.id) →
      let t := retireContext s g res st
      (t.ring g).bound = false ∧ (t.ring g).slotState = .ended ∧ (t.ctx g).ended = true ∧ (t.ctx g).k = r.ctx.k ∧
      (∀ e ∈ (t.ring g).bars, barOwner e.2 = r.ctx.id → r.ctx.id = 0) ∧ (∀ h, h ≠ g → t.ring h = s.ring h) ∧ t.mem = s.mem) ∧
    ((r.slotState ≠ .halted ∨ r.ctx.fault = none) → exec (.debugResume g) s = .next s ∧ exec (.debugKill g) s = .next s) ∧
    (r.slotState = .halted → r.ctx.fault.isSome = true →
      (∀ b code t, r.ctx.brkResume = some b → b.col = none → r.ctx.stepAt r.ctx.si = .ok (.stepBrk code t) →
        exec (.debugResume g) s = .next (finishStep (resumeBreak s g) g t)) ∧
      (∀ b k, r.ctx.brkResume = some b → b.col = some k → exec (.debugResume g) s = .next (resumeBreak s g)) ∧
      exec (.debugKill g) s = .next ((s.onRing g fun r => { r with slotState := .running }).onCtx g fun c =>
        { c with brkResume := none }))

/-- R341, R342, R344 to R348, R352, R404: commands to a slot. A save is asked for while an entry is free; complete, its
image stands in memory and the context is kept, or killed where it was saved at a fault; a restore brings it back from the image in
the save area with `sl15` set and the reserved bits of its flag word and lines zero (R6); a drain stops the sequencer and drops what was posted; the save at a fault goes to entry 63, in the place
of a drain or of a save that has not begun. Where it rests on the model's own choices: logs 10, 17 and 43, log 104, by which a
second command to a slot whose save or drain is under way is ignored, and log 125, by which a replay is given up. -/
def Obligations.SavesRestoresAndDrains : Prop :=
  ∀ (g : Nat) (s : State),
    let r := s.ring g
    ((r.slotState ≠ .running ∨ r.saving ≠ .idle ∨ r.ctx.fault.isSome = true) →
      exec (.halyardSave g) s = .next s ∧ exec (.drain g) s = .next s) ∧
    (r.slotState = .running → r.saving = .idle → r.ctx.fault = none → r.ctx.replay.isSome = true →
      exec (.halyardSave g) s = .next (endReplay s g) ∧ exec (.drain g) s = .next (endReplay s g)) ∧
    (r.slotState = .running → r.saving = .idle → r.ctx.fault = none → r.ctx.replay = none →
      (∀ i, freeEntry r = some i → exec (.halyardSave g) s = .next (s.onRing g fun r => { r with saving := .waitSave i })) ∧
      (freeEntry r = none → exec (.halyardSave g) s = .next (s.ctxHostEvent g 7 0)) ∧
      ∃ t, exec (.drain g) s = .next t ∧ (t.ring g).slotState = .draining ∧ (t.ctx g).draining = true ∧ (t.ctx g).startq = [] ∧
        (t.ctx g).wait = none ∧ (t.ctx g).k = r.ctx.k ∧ (t.ctx g).a = r.ctx.a ∧ (∀ h, h ≠ g → t.ring h = s.ring h) ∧
        (∀ x, r.ctx.armedRun = some x → x.parkAt = none → ∃ y ∈ (t.ctx g).runs, y.id = x.id ∧ y.parkAt = some r.ctx.tc) ∧
        t.mem = s.mem) ∧
    (∀ i, r.saving = .save i 0 →
      let e := tget r.remap i 0
      (r.ctx.fault = none → ∃ t, exec (.halyardSaveComplete g) s = .next t ∧
        t.mem = s.mem.writeN (remapSave e) (halyardImage s g) ∧ (t.ring g).bound = false ∧ (t.ring g).slotState = .ended ∧
        remapState (tget (t.ring g).remap i 0) = 2 ∧
        t.saved = s.saved ++ [⟨g, r.ctx, r.stripes, r.qcfg, r.qst, r.lanes, r.scrf⟩]) ∧
      (∀ f, r.ctx.fault = some f → ∃ t u, exec (.halyardSaveComplete g) s = .next t ∧ t = faultEnds u g r.ctx f ∧
        u.mem = s.mem.writeN (remapSave e) (halyardImage s g) ∧ u.saved = s.saved)) ∧
    (∀ i x, r.saving = .restore i 0 → (s.saved.find? fun x => x.ring == g && x.ctx.id == bindCtx r.slot) = some x →
      (∀ q ∈ s.reqs, q.stop = none) → (∀ y ∈ s.colls, y.stop = none) →
      let e := tget r.remap i 0
      let num (o n : Nat) : Nat := s.mem.readNat (remapSave e + o) n
      ∃ t, exec (.halyardRestoreComplete g) s = .next t ∧ (t.ring g).bound = true ∧ (t.ring g).slotState = .running ∧
        (t.ring g).saving = .idle ∧ (t.ring g).qcfg = x.qcfg ∧ (t.ring g).qst = x.qst ∧ (t.ring g).lanes = x.lanes ∧
        (t.ctx g).bind = r.slot ∧ (∀ n, n < 16 → (t.ctx g).kreg n = BitVec.ofNat 48 (num (32768 + 8 * n) 8) ∧
          (t.ctx g).areg n = BitVec.ofNat 64 (num (32896 + 8 * n) 8)) ∧
        (t.ctx g).si = num 33056 8 % 4096 ∧ (t.ctx g).tc = num 33048 8 ∧ (t.ctx g).wdi = num 33032 8 ∧ bit (t.ctx g).sl 15 = true ∧
        (∀ n, 6 ≤ n → n ≤ 12 → bit (t.ctx g).sl n = false) ∧
        (t.ctx g).flagw = BitVec.ofNat 32 ((num (4718592 + 64) 4 ||| (remapPflg e).toNat) % 512) ∧
        (∀ n, n < 8 → (t.ctx g).token n = num (33024 + n) 1 - remapPtok e n) ∧
        (∀ ps k n, (∃ z ∈ x.stripes, z.1 = ps) → k < 8 → n < 64 → tget (t.elem g ps k).v n Vec.zero =
          vecOfBytes (s.mem.readN (remapSave e + (262144 + 278528 * ps + 8192 + 33792 * k + 128 * n)) 128)) ∧
        tget (t.ring g).remap i 0 = 0 ∧ t.mem = s.mem) ∧
    (∀ x f, (s.saved.find? fun x => x.ring == g && x.ctx.fault.isSome) = some x → x.ctx.fault = some f →
      exec (.faultSave g) s = .next (faultEnds s g x.ctx f)) ∧
    ((s.saved.find? fun x => x.ring == g && x.ctx.fault.isSome) = none → r.bound = true → r.ctx.fault.isSome = true →
      r.ctx.replay = none → r.slotState ≠ .halted → (r.saving = .idle ∨ r.saving = .drain ∨ ∃ i, r.saving = .waitSave i ∧ i ≠ 63) →
      remapState (tget r.remap 63 0) = 0 →
        exec (.faultSave g) s = .next (s.onRing g fun r => { r with saving := .waitSave 63 }))

/-- R270: an issuer of the bound context stopped for FAULTHOLD ticks asks for a save where an entry is free; a fault
that is not serviced ends its context with a translation fault that names the access. R151, R337, R338: what Eosen
answers to `yield` and to the services of `sys`; the ticks left of no quantum at all are the model's free value (log
12). Where it rests on the model's own choices: log 45. -/
def Obligations.EosenAnswersContexts : Prop :=
  ∀ (g : Nat) (s : State),
    let c := s.ctx g
    (∀ issuer q, (s.ring g).bound = true → q ∈ s.reqs → q.ring = g → q.ctx = c.id → issuerCode q.party = issuer →
      (∃ x, q.stop = some x ∧ (s.die (g / 6)).faulthold.toNat ≤ s.tick.toNat - x.since) →
        (freeEntry (s.ring g) = none → exec (.faultholdExpiry g issuer) s = .next s) ∧
        (∀ i, freeEntry (s.ring g) = some i → (s.ring g).slotState = .running → (s.ring g).saving = .idle → c.fault = none →
          c.replay = none → exec (.faultholdExpiry g issuer) s = .next (s.onRing g fun r => { r with saving := .waitSave i }))) ∧
    (∀ die r, ((s.die die).fbrecs.find? fun r => r.ctx == c.id) = some r → r.ring = g → (s.ring g).bound = true →
      c.fault = none → ∃ f : FaultRec, exec (.unservicedFaultEnd die c.id) s = .next (takeFault s g f) ∧ f.cls = 3 ∧ f.code = r.cause ∧ f.tc = r.tc ∧
        f.addr = BitVec.ofNat 64 r.va ∧ f.info = BitVec.ofNat 32 r.kind ∧ f.ctx = c.id ∧ f.asid = r.asid ∧ f.issuer = r.issuer ∧
        f.gen = r.gen ∧ f.ring = g) ∧
    (∀ die id r x, ((s.die die).fbrecs.find? fun r => r.ctx == id) = some r → r.ring = g →
      ¬(c.id = id ∧ (s.ring g).bound = true) → (s.saved.find? fun x => x.ring == g && x.ctx.id == id) = some x → x.ctx.fault = none →
      ∃ f : FaultRec, exec (.unservicedFaultEnd die id) s = .next (faultEnds s g x.ctx f) ∧ f.cls = 3 ∧ f.code = r.cause ∧
        f.addr = BitVec.ofNat 64 r.va ∧ f.ctx = id) ∧
    (∀ t, askedStep s g = some (.yield t) →
      ((workWaits s g (ctxPri s c) = false ∨ freeEntry (s.ring g) = none) →
        exec (.yieldDecision g) s = .next (s.onCtx g fun c => { c with answer := some 0 })) ∧
      (workWaits s g (ctxPri s c) = true → (freeEntry (s.ring g)).isSome = true →
        exec (.yieldDecision g) s = .next ((requestSave (finishStep s g t) g).onCtx g fun c => { c with yielded := true }))) ∧
    (∀ n t, askedStep s g = some (.sys n t) →
      let reply (u : State) (v : Int) : Host.Outcome State Fault Refusal :=
        .next (u.onCtx g fun c => { (c.setK 0 (BitVec.ofInt 48 v)) with answer := some 0 })
      (n.toNat = 0 → exec (.sysPing g) s = reply s 0) ∧
      (n.toNat = 1 → exec (.sysHostev g) s =
        reply (s.ctxHostEvent g 1 (((c.kreg 1).signExtend 64).toNat + 2 ^ 64 * ((c.kreg 2).signExtend 64).toNat))
          (if s.hostEventFull (s.taskFunction (bindTask c.bind)) = true then -1 else 0)) ∧
      (n.toNat = 2 → ((c.kreg 1).toInt < 0 ∨ (ctxPri s c : Int) < (c.kreg 1).toInt) → exec (.sysSetpri g) s = reply s (-1)) ∧
      (n.toNat = 2 → 0 ≤ (c.kreg 1).toInt → (c.kreg 1).toInt ≤ ctxPri s c → exec (.sysSetpri g) s =
        reply (s.onTask (bindTask c.bind) fun t => { t with pri := (c.kreg 1).toInt.toNat }) 0) ∧
      (n.toNat = 3 → (c.kreg 1).toInt = -1 → exec (.sysThandler g) s = reply (s.onCtx g fun c => { c with thandler := none }) 0) ∧
      (n.toNat = 3 → (c.kreg 1).toInt ≠ -1 → (hdrStlen c.hdr ≤ bits (c.kreg 1) 0 12 ∨ isSecondWord c (bits (c.kreg 1) 0 12) = true) →
        exec (.sysThandler g) s = reply s (-1)) ∧
      (n.toNat = 3 → (c.kreg 1).toInt ≠ -1 → bits (c.kreg 1) 0 12 < hdrStlen c.hdr → isSecondWord c (bits (c.kreg 1) 0 12) = false →
        exec (.sysThandler g) s = reply (s.onCtx g fun c => { c with thandler := some (bits (c.kreg 1) 0 12) }) 0) ∧
      (n.toNat = 4 → bindQuant c.bind ≠ 0 → exec (.sysQuantum g) s = reply s ((bindQuant c.bind - c.qcount : Nat) : Int)) ∧
      (n.toNat = 4 → bindQuant c.bind = 0 → exec (.sysQuantum g) s =
        reply s.tickFree (Config.free64 s.freeCtr).toInt))

/-! ### Events: tasks and queues -/

/-- R323, R324, R327 to R331, R298: the path of a submission entry. A doorbell's tail inside its owner's queue is
taken and any other is host event 4; an entry moves SQHEAD on and stands in the table; a fence, and a kill whose earlier fences are
complete, complete when they act, a task whose last context ends in the same cycle with its own result; a dependence is released when the task it names has completed; a held record is written when it can be.
Where it rests on the model's own choices: logs 40, 41 and 97. -/
def Obligations.QueuesAndTasks : Prop :=
  ∀ (s : State),
    (∀ f q (tail : BitVec 16),
      (queueOwner s q = f → tail.toNat < queueSize (s.sqcfg q) → (∀ b ∈ s.hub.bumps, b.flr ≠ some f) →
        exec (.submissionDoorbell f q tail) s = .next (s.onHub fun h => { h with sqtail := tset h.sqtail q tail.toNat })) ∧
      ((queueOwner s q ≠ f ∨ queueSize (s.sqcfg q) ≤ tail.toNat ∨ ∃ b ∈ s.hub.bumps, b.flr = some f) →
        exec (.submissionDoorbell f q tail) s = .next (s.hostEvent f 4 q 0 0))) ∧
    (∀ f q (head : BitVec 16),
      (queueOwner s q = f → head.toNat < queueSize (s.cqcfg q) → exec (.completionQueueHeadWrite f q head) s =
        .next (s.onHub fun h => { h with cqhead := tset h.cqhead q head.toNat })) ∧
      ((queueOwner s q ≠ f ∨ queueSize (s.cqcfg q) ≤ head.toNat) → exec (.completionQueueHeadWrite f q head) s = .next s)) ∧
    (∀ n v, exec (.handoffQueueConfig n v) s = .next (s.setHandoff n ⟨setBits v 0 47 0, [], []⟩)) ∧
    (∀ q n, freeIndex s = some n → queueSize (s.sqcfg q) ≠ 0 → tget s.hub.sqhead q 0 ≠ tget s.hub.sqtail q 0 → s.aon.lc ≠ .blank →
      -- an entry that comes poisoned is not taken (log 97)
      (s.readPoisoned (queueBase (s.sqcfg q) + 64 * tget s.hub.sqhead q 0) 64 = true → ∀ t, exec (.taskEntry q) s ≠ .next t) ∧
      (s.readPoisoned (queueBase (s.sqcfg q) + 64 * tget s.hub.sqhead q 0) 64 = false →
      let e : BitVec 512 := BitVec.ofNat 512 (leNat (s.physRead (queueBase (s.sqcfg q) + 64 * tget s.hub.sqhead q 0) 64))
      (∃ t, exec (.taskEntry q) s = .next t ∧
        tget t.hub.sqhead q 0 = (tget s.hub.sqhead q 0 + 1) % queueSize (s.sqcfg q) ∧ t.rings = s.rings) ∧
      (entryFieldsBad e = false → seKind e ≠ 0 → ∃ t, exec (.taskEntry q) s = .next t ∧
        (∃ k, t.task n = some k ∧ k.entry = e ∧ k.queue = q ∧ k.order = s.hub.taskOrder ∧ k.state = .wait) ∧ t.mem = s.mem))) ∧
    (∀ n k, s.task n = some k → k.state = .wait → seKind k.entry = 1 →
      (∀ x ∈ s.hub.tasks, x.2.queue = k.queue → x.2.order < k.order → taskComplete s x.2.order = true) →
        exec (.queueFence n) s = .next (endTask s n 0 0 0 0 0)) ∧
    (∀ n k, s.task n = some k → k.state = .wait → seKind k.entry = 2 → k.deps = [] →
      let d := seDep k.entry 0
      let named (x : Nat × Task) : Bool :=
        x.2.queue == bits d 16 6 && seTag x.2.entry == d.extractLsb' 0 16 && seKind x.2.entry == 0 && x.2.state != .done
      (s.hub.tasks.find? named = none → exec (.kill n) s = .next (endTask s n 0 0 0 0 0)) ∧
      (∀ m t, s.hub.tasks.find? named = some (m, t) → taskFaulted s m t = true →
        exec (.kill n) s = .next (endTask s n 0 0 0 0 0)) ∧
      (∀ m t, s.hub.tasks.find? named = some (m, t) → taskFaulted s m t = false →
        -- a member whose end is complete in the same cycle completes (R353)
        (∀ i g, i < t.count → memberSlot s m i = some g → endsNow s g = none) →
        exec (.kill n) s = .next (endTask (stopTask s m 2 0 (tget t.memberCtx 0 0) 0 0) n 0 0 0 0 0)) ∧
      (∀ m t g u, s.hub.tasks.find? named = some (m, t) → taskFaulted s m t = false → t.count = 1 → memberSlot s m 0 = some g →
        endsNow s g = some u → (∀ v, u.task m = some v → v.state = .done ∨ v.order ≠ t.order) →
        exec (.kill n) s = .next (endTask u n 0 0 0 0 0))) ∧
    (∀ n k dep, s.task n = some k → (∃ d ∈ k.deps, d.task = dep) → taskComplete s dep = true →
      ∃ t, exec (.dependenceRelease n dep) s = .next t ∧ t.rings = s.rings ∧ t.mem = s.mem ∧ ∃ k', t.task n = some k' ∧
        k'.deps = k.deps.filter (fun d => d.task != dep) ∧ k'.entry = k.entry ∧
        k'.state = (if k.state = .wait ∧ k'.deps = [] ∧ seKind k.entry = 0 then .ready else k.state)) ∧
    (∀ n k dep m u, s.task n = some k → (s.hub.tasks.find? fun e => e.2.order == dep) = some (m, u) → seEarly k.entry = true →
      (∃ d ∈ k.deps, d.task = dep ∧ d.derived = true) → u.memberCtx.length = u.count → allTriggered s u = true →
      ∃ t, exec (.triggerRelease n dep) s = .next t ∧ t.rings = s.rings ∧ t.mem = s.mem ∧ ∃ k', t.task n = some k' ∧
        k'.deps = k.deps.filter (fun d => !(d.task == dep && d.derived)) ∧ k'.entry = k.entry) ∧
    (∀ q n t, (s.hub.tasks.find? fun e => e.2.queue == q && mayComplete s e.2) = some (n, t) →
      exec (.completionRecordDeferredWrite q) s = .next (completeTask s n t) ∧
      (t.noRecord = false → t.windows = [] → isHbm (queueBase (s.cqcfg q) + 32 * tget s.hub.cqtail q 0) = true → ∃ u,
        completeTask s n t = u ∧ u.task n = none ∧
        u.mem = s.mem.writeN (queueBase (s.cqcfg q) + 32 * tget s.hub.cqtail q 0)
          (bytesOf (completionRecord s t (tget s.hub.cqphase q true))) ∧
        tget u.hub.cqtail q 0 = (tget s.hub.cqtail q 0 + 1) % queueSize (s.cqcfg q) ∧
        u.hub.msix = s.hub.msix ++ (if bit (s.cqcfg q) 8 = true ∧ s.linkUp (queueOwner s q) = true
          then [(queueOwner s q, bits (s.cqcfg q) 9 11)] else []) ∧
        u.rings = s.rings))

/-- R333 to R336: VLD = 1 written into an EMPTY slot arms it, and anywhere else is ignored; VLD = 0 empties an ENDED
or armed slot; a whole gang is dispatched together, each member refused with the first check of R336 that fails, or
restored, started from its drain record, or started with `a0` its arguments, `a1` its data, and everything outside its footprint and carve-out zero. R126, R128:
an image that cannot be loaded ends the task with an image fault and leaves REFUSE. Where it rests on the model's own choices: logs
28, 30, 42, 69, 70 and 72. -/
def Obligations.SlotsAndDispatch : Prop :=
  ∀ (s : State),
    (∀ g rc,
      (bindVld rc = true → (s.ring g).slotState ≠ .empty → exec (.bindRecordWrite g rc) s = .next s) ∧
      (bindVld rc = true → (s.ring g).slotState = .empty → ∃ t, exec (.bindRecordWrite g rc) s = .next t ∧
        (t.ring g) = { s.ring g with slot := setBits rc 43 9 0, slotState := .gang } ∧ (∀ h, h ≠ g → t.ring h = s.ring h) ∧ t.mem = s.mem) ∧
      (∀ i ∈ [Instr.slotRelease g, .bindRecordWrite g rc], (i = .bindRecordWrite g rc → bindVld rc = false) →
        (((s.ring g).slotState = .ended ∨ (s.ring g).slotState = .gang) → exec i s =
          .next (s.onRing g fun r => { r with slotState := .empty, slot := setBits r.slot 0 1 0 })) ∧
        ((s.ring g).slotState ≠ .ended → (s.ring g).slotState ≠ .gang → exec i s = .next s))) ∧
    (∀ n k, s.task n = some k → gangSlots s n ≠ [] → gangWhole s n k = true → ∃ t, exec (.gangDispatch n) s = .next t ∧
      (∀ g, g ∈ gangSlots s n → (t.ring g).slotState ≠ .gang)) ∧
    (∀ n k g, s.task n = some k → k.state ≠ .done → gangSlots s n = [g] → gangWhole s n k = true →
      let rc := (s.ring g).slot
      let u := loadImage (s.onRing g fun r => freshRing r rc (!bindRes rc)) g
      (dispatchCode u g ≠ 0 → exec (.gangDispatch n) s = .next (stopTask
        (u.onRing g fun r => { r with slotState := .ended, refuse := dispatchCode u g }) n 3 5 (bindCtx rc) 0
        (BitVec.ofNat 16 (dispatchCode u g)))) ∧
      -- an image fetch through the heap window stops the load for service (R256, log 28)
      (∀ va, dispatchCode u g = 0 → bindRes rc = false → loadHeap u g = some va →
        exec (.gangDispatch n) s = .next (stopScroll u g va)) ∧
      (dispatchCode u g = 0 → bindRes rc = false → loadHeap u g = none → loadRefusal u g ≠ 0 → exec (.gangDispatch n) s = .next (stopTask
        (u.onRing g fun r => { r with slotState := .ended, refuse := (u.ring g).refuse }) n 4 4 (bindCtx rc) 0
        (BitVec.ofNat 16 (loadRefusal u g)))) ∧
      (∀ i e, dispatchCode u g = 0 → bindRes rc = true → remapOf (u.ring g) (bindCtx rc) = some (i, e) →
        exec (.gangDispatch n) s = .next (startRestore u g i e)) ∧
      (dispatchCode u g = 0 → bindRes rc = false → loadHeap u g = none → loadRefusal u g = 0 → bindDrn rc = true →
        ∃ t, exec (.gangDispatch n) s = .next t ∧ (t.ring g).bound = true ∧ (t.ring g).slotState = .running ∧
          (t.ctx g).bind = rc ∧ (t.ctx g).si = hdrEntry (t.ctx g).hdr ∧ (t.ctx g).tc = 0 ∧ (t.ctx g).sl = 1 ∧ t.mem = s.mem ∧
          (∀ i, i < 16 → (t.ctx g).kreg i = BitVec.ofNat 48 (s.mem.readNat (controlPage rc + 144 + 8 * i) 8)) ∧
          (∀ i, i < 15 → (t.ctx g).areg i = BitVec.ofNat 64 (s.mem.readNat (controlPage rc + 272 + 8 * i) 8)) ∧
          (t.ctx g).areg 15 = BitVec.ofNat 64 (bindDrva rc * 65536 + 128)) ∧
      (dispatchCode u g = 0 → bindRes rc = false → loadHeap u g = none → loadRefusal u g = 0 → bindDrn rc = false →
        ∃ t, exec (.gangDispatch n) s = .next t ∧ (t.ring g).bound = true ∧ (t.ring g).slotState = .running ∧
          (t.ctx g).bind = rc ∧ (t.ctx g).si = hdrEntry (t.ctx g).hdr ∧ (t.ctx g).areg 0 = BitVec.ofNat 64 (bindArgs rc) ∧
          (t.ctx g).areg 1 = BitVec.ofNat 64 (bindImg rc + hdrDataoff (t.ctx g).hdr) ∧ (t.ctx g).k = [] ∧ (t.ctx g).tc = 0 ∧
          (t.ctx g).sl = 1 ∧ (∀ n, (t.ctx g).fslot n = 0xC68380) ∧ (t.ctx g).rwin = k.windows ∧ (t.ring g).stripes = [] ∧ (t.ring g).qcfg = [] ∧
          (∀ a, bindFoot rc * 4096 ≤ a % Config.blockBytes → a < 33554432 - bindCsa rc * 65536 → (t.ring g).spad.read a = 0) ∧
          (t.ring g).bars = (s.ring g).bars ∧ t.mem = s.mem)) ∧
    -- a gang of several: each passes when those before it have started
    (∀ n k gs, s.task n = some k → k.state ≠ .done → gangSlots s n = gs → gs ≠ [] → gangWhole s n k = true →
      (∀ l g l', gs = l ++ g :: l' →
        let rc := (s.ring g).slot
        let v := l.foldl (fun s g => dispatchSlot s n k.windows g) s
        let u := loadImage (v.onRing g fun r => freshRing r rc true) g
        bindRes rc = false ∧ bindDrn rc = false ∧ dispatchCode u g = 0 ∧ loadHeap u g = none ∧ loadRefusal u g = 0) →
      ∃ t, exec (.gangDispatch n) s = .next t ∧ t.mem = s.mem ∧ (∀ g, g ∉ gs → t.ring g = s.ring g) ∧ ∀ g, g ∈ gs →
        (t.ring g).bound = true ∧ (t.ring g).slotState = .running ∧ (t.ctx g).bind = (s.ring g).slot ∧ (t.ctx g).tc = 0 ∧
        (t.ctx g).areg 0 = BitVec.ofNat 64 (bindArgs (s.ring g).slot))

/-! ### Events: reliability -/

/-- R356 to R360: a corrected error is counted in its classifier by the order of R358, and an entry that wants repair
asks for it once; the patrol reads its share of a die in each tick, so that SCRUBINT ticks read all of it, and finds the stored errors
there; a scrub moves on: what it corrects, a stored error of an injection too, is passed to the classifier, and an uncorrectable line (unless its
own RAS record is written over it) or chunk is marked poisoned; a repair begins when none is under way, and its end clears BUSY, sets FAIL as it went, and lets
the waiting issuers go on. Where it rests on the model's own choices: logs 8, 49, 50, 51 and 61. -/
def Obligations.ErrorsScrubsAndRepairs : Prop :=
  ∀ (s : State),
    (∀ x : ErrorSite, siteOk x = true →
      let old := tget s.hub.cls x.table []
      (∀ e, old.length < 64 → (∀ y ∈ old, clsBank y ≠ x.bank) → x.bank < 256 → x.row < 2 ^ 18 → x.col < 1024 →
          e = packBits 64 [(63, 1, 1), (51, 8, x.bank), (33, 18, x.row), (23, 10, x.col), (8, 8, 1)] → 1 < s.hub.cellthr.toNat →
        exec (.correctedError x) s = .next (s.onHub fun h => { h with cls := tset h.cls x.table (e :: old) })) ∧
      (∀ e l l', old = l ++ e :: l' → clsBank e = x.bank → clsKind e = 3 → clsReq e = true →
        (∀ y ∈ l, clsBank y = x.bank → clsKind y ≠ 3) → (∀ y ∈ l ++ l', clsBank y = x.bank → clsKind y = 0 ∨ clsKind y = 3) →
          ∃ t y, exec (.correctedError x) s = .next t ∧ tget t.hub.cls x.table [] = y :: old.filter (fun z => z != e) ∧
            clsKind y = 3 ∧ clsBank y = clsBank e ∧ clsCount y = min (clsCount e + 1) 255 ∧ clsReq y = true ∧ t.mem = s.mem ∧
            t.rings = s.rings)) ∧
    (∀ die, die < 4 → (s.die die).scrubint ≠ 0 →
      let p := (s.die die).scrubpos
      let u := s.onDie die fun d => { d with scrubpos := (d.scrubpos + 1) % 1623195648, scrubahead := d.scrubahead + 1 }
      let line := die * 17179869184 + p
      let w := s.hub.rasbase.toNat + 32 * s.hub.rashead
      (p < 1610612736 → exec (.patrolScrub die .clean) s = .next u ∧
        (∀ b r c t, exec (.correctedError ⟨2 * die + (if p < 805306368 then 0 else 1), b, r, c⟩) u = .next t →
          exec (.patrolScrub die (.corrected b r c)) s = .next t) ∧
        ((w + 32 ≤ 64 * line ∨ 64 * line + 64 ≤ w) → ∃ t, exec (.patrolScrub die .uncorrectable) s = .next t ∧
          line ∈ t.poison ∧ (∀ a ∈ t.poison, a ≠ line → a ∈ s.poison) ∧ t.rings = s.rings ∧ t.dies = u.dies)) ∧
      (1610612736 ≤ p → p < 1623195648 →
        let g := 6 * die + (p - 1610612736) / 2097152
        let k := (p - 1610612736) % 2097152
        let site : ErrorSite := ⟨8 + 16 * g + k / 131072, k / 8 % 16, k % 131072 / 128, k % 8⟩
        -- what the scrubber meets: a stored error is gone from the chunk, and others stay
        let v := u.onRing g fun r => { r with flaws := r.flaws.filter fun x => x.1 != k }
        ((∀ x ∈ (s.ring g).flaws, x.1 ≠ k) → exec (.patrolScrub die .clean) s = .next v) ∧
        (∀ b r c t, exec (.correctedError site) v = .next t → k ∉ (s.ring g).spoison → exec (.patrolScrub die (.corrected b r c)) s = .next t) ∧
        (∀ t, exec (.correctedError site) v = .next t → (s.ring g).flaws.find? (fun x => x.1 == k) = some (k, .latent) →
          exec (.patrolScrub die .clean) s = .next t) ∧
        ((s.ring g).flaws.find? (fun x => x.1 == k) = some (k, .uncorrectable) → k ∈ (s.ring g).spoison →
          exec (.patrolScrub die .clean) s = exec (.patrolScrub die .uncorrectable) s) ∧
        ∃ t, exec (.patrolScrub die .uncorrectable) s = .next t ∧ k ∈ (t.ring g).spoison ∧
          (∀ x ∈ (t.ring g).flaws, x.1 ≠ k) ∧ ∀ h, h ≠ g → t.ring h = s.ring h)) ∧
    -- a tick of the patrol: its share of the 1,623,195,648 lines and chunks of a die, less what was read ahead
    (∀ die, die < 4 →
      let d := s.die die
      let share := (d.scrubacc + 1623195648) / d.scrubint.toNat
      let t := patrolTick s die
      (d.scrubint = 0 → t = s) ∧
      (d.scrubint ≠ 0 →
        t.die die = { d with
          scrubpos := (d.scrubpos + (share - d.scrubahead)) % 1623195648, scrubahead := d.scrubahead - share,
          scrubacc := (d.scrubacc + 1623195648) % d.scrubint.toNat } ∧
        (∀ g k, g / 6 = die → k < 2097152 →
          let far := (1610612736 + 2097152 * (g % 6) + k + 1623195648 - d.scrubpos) % 1623195648
          (far < share - d.scrubahead → ∀ x ∈ (t.ring g).flaws, x.1 ≠ k) ∧
          (share - d.scrubahead ≤ far → ∀ x, x ∈ (s.ring g).flaws → x.1 = k → x ∈ (t.ring g).flaws)))) ∧
    (∀ die v, die < 4 →
      ((bit v 63 = false ∨ bit (s.die die).ppr 63 = true) → exec (.postPackageRepair die v) s = .next s) ∧
      (bit v 63 = true → bit (s.die die).ppr 63 = false → ∃ t, exec (.postPackageRepair die v) s = .next t ∧
        (t.die die).ppr = packBits 64 [(63, 1, 1), (56, 1, bits v 56 1), (48, 8, bits v 48 8), (30, 18, bits v 30 18)] ∧
        (∀ q ∈ t.reqs, q.stop = none → q.done = none → partsHeld t q.parts = false) ∧ t.mem = s.mem ∧ t.hub = s.hub)) ∧
    (∀ die fail, die < 4 → bit (s.die die).ppr 63 = true → (∀ q ∈ s.reqs, ∀ x, q.stop = some x → x.repair = false) →
      ∃ t, exec (.pprComplete die fail) s = .next t ∧ bit (t.die die).ppr 63 = false ∧ bit (t.die die).ppr 62 = fail ∧
        (t.die die).tlb = (s.die die).tlb ∧ t.rings = s.rings ∧ (fail = true → t.hub = s.hub ∧ t.mem = s.mem))

/-- R363, R367, R368, R370, R372: the auditor's control, unless NEXP is 21 or more, loads every ring's LFSR from SEED (1 for
0) and the ring's number; a replay is bound at priority 0 to another ring, with the queues, streams, format slots and the run of its wave;
generations and the inputs it reads again are compared, and the signature that it forms; one that agrees is a match; a
deviant finding posts a RAS event of kind 8 and a host event of kind 3 and raises the fence of R370; an injection flips its one bit at its
cycle, clears ARM and changes nothing else of the ring, while one of MODE 1 leaves a stored error. Where it rests on the model's own
choices: logs 10 (INFO and the bytes of logs), 11 (the ring and budget of a replay), 51, 58 (how a fence is raised and put in force) and
125 (replays). -/
def Obligations.AuditAndInjection : Prop :=
  ∀ (s : State),
    (∀ v : BitVec 64,
      (20 < bits v 58 5 → exec (.auditControlWrite v) s = .next s) ∧
      (bits v 58 5 ≤ 20 → ∃ t, exec (.auditControlWrite v) s = .next t ∧
        t.hub = { s.hub with audctl := packBits 64 [(58, 6, bits v 58 6), (0, 32, bits v 0 32)] } ∧
        ∀ g, g < 24 → t.ring g = { s.ring g with
          lfsr := (if v.extractLsb' 0 32 = 0 then 1 else v.extractLsb' 0 32) ^^^ BitVec.ofNat 32 g })) ∧
    (∀ slot a (p q : AuditFinding), (s.hub.audlogs.find? fun e => e.1 == slot) = some (slot, a) → a.whole = true →
      let counted (s : State) (n : Nat) : Host.Outcome State Fault Refusal := .next (s.onHub fun h =>
        { h with audlogs := tdel h.audlogs slot, audstat := tset h.audstat n (satAdd 32 (tget h.audstat n 0) 1) })
      let now (r : Nat) : Nat := generation s (dieOf a.ring) (bindAsid a.bind) r
      let stale : Prop := now (regionOf a.img) ≠ a.igen ∨ ∃ x ∈ a.inputs, ∃ n ∈ x.gens, now n.1 ≠ n.2
      let changed : Prop := ∃ x ∈ a.inputs, BitVec.ofNat 64 (crc64 (x.visits.flatMap (rereadWord s a x.desc))) ≠ x.crc
      -- a deviant finding against ring g: kind 8 with the ring and the wave, host event 3 with the task's tag, the fence
      let blame (g : Nat) : State :=
        let u := s.onHub fun h => { h with audlogs := tdel h.audlogs slot, audstat := tset h.audstat 2 (satAdd 32 (tget h.audstat 2 0) 1) }
        let u := (u.rasEvent 8 slot (g * 2 ^ 24 + a.wave % 2 ^ 24) a.ctx g 15 0 0).tickFree
        applyFence (raiseFence (u.hostEvent a.owner 3 (Config.free64 s.freeCtr).toNat a.tag a.ctx) g a.opmask) g
      -- abandoned before a replay runs, or as it reads
      ((a.tries = [] ∨ ∃ x, a.tries = [x] ∧ x.2 ≠ a.sig) →
        (liveReplay s slot = none →
          (stale → exec (.auditReplay slot p q) s = counted s 5) ∧
          (¬stale → changed → exec (.auditReplay slot p q) s = counted s 6)) ∧
        (∀ g, liveReplay s slot = some g → (s.ctx g).hoisting = none →
          let read (n : Nat) : List Byte := ((s.ctx g).audIn.filter fun w => w.stream == n && (w.lr || !w.ls)).flatMap HeardWord.bytes
          (stale → exec (.auditReplay slot p q) s = counted (endReplay s g) 5) ∧
          (¬stale → replayOver s g a = true → (∃ x ∈ a.inputs, BitVec.ofNat 64 (crc64 (read x.stream)) ≠ x.crc) →
            exec (.auditReplay slot p q) s = counted (endReplay s g) 6))) ∧
      -- compared
      (∀ l, a.tries = (p.ring, p.sig) :: l → p.sig = a.sig → exec (.auditReplay slot p q) s = counted s 1) ∧
      (∀ l, a.tries = (p.ring, p.sig) :: (q.ring, q.sig) :: l → p.sig ≠ a.sig →
        (p.sig = q.sig → exec (.auditReplay slot p q) s = .next (blame a.ring)) ∧
        (q.sig = a.sig → exec (.auditReplay slot p q) s = .next (blame p.ring)) ∧
        (p.sig ≠ q.sig → q.sig ≠ a.sig → ∃ t, exec (.auditReplay slot p q) s = .next t ∧
          tget t.hub.audstat 3 0 = satAdd 32 (tget s.hub.audstat 3 0) 1 ∧ t.rings = s.rings)) ∧
      -- the ring of a replay, what is bound to it, and the signature it leaves
      (∀ g, mayReplay s a g = true → g ≠ a.ring ∧ g < 24 ∧ a.opmask &&& ~~~(s.ring g).capmask = 0 ∧ (∀ x ∈ a.tries, x.1 ≠ g) ∧
        ∃ id b, 2 ≤ b ∧ b ≤ 16 ∧ couldPass s (replayBind a id b) g = true) ∧
      (∀ id b, bindPri (replayBind a id b) = 0) ∧
      (∀ g b, let t := bindReplay s g slot a b
        (t.ring g).bound = true ∧ (t.ring g).slotState = .running ∧ (t.ring g).slot = b ∧ (t.ctx g).replay = some slot ∧
        (t.ring g).qcfg = a.qcfg ∧ (∀ n, n < a.fslots.length → (t.ctx g).fslot n = a.fslots.getD n 0) ∧
        (∀ n, ((t.ctx g).stream n).desc = (tget a.streams n Stream.reset).desc) ∧
        (∃ r, (t.ctx g).runs = [r] ∧ r.arm.isSome = true ∧ r.first = a.first ∧ r.nv = a.nv ∧ r.w = 1 ∧ r.total = a.nv) ∧
        (∀ h, h ≠ g → t.ring h = s.ring h) ∧ t.mem = s.mem ∧ t.hub.audlogs = s.hub.audlogs) ∧
      (∀ g, liveReplay s slot = some g → a.tries = [] → (s.ctx g).hoisting = none → (s.ctx g).fault = none → replayOver s g a = true →
        replayAbandons s slot a = none → ∃ t, t = tendReplay s slot ∧ (t.ring g).slotState = .empty ∧ (t.ring g).bound = false ∧
          (t.hub.audlogs.find? fun e => e.1 == slot) = some (slot, { a with tries := [(g, replaySignature s g a)] })) ∧
      (∀ g, tget (blame g).hub.audstat 2 0 = satAdd 32 (tget s.hub.audstat 2 0) 1 ∧ tget (blame g).hub.fences g 0 ≠ 0)) ∧
    (∀ slot a, (s.hub.audlogs.find? fun e => e.1 == slot) = some (slot, a) → a.since + 1000000000 ≤ s.tick.toNat →
      liveReplay s slot = none → (∀ g, mayReplay s a g = false) →
      exec (.auditRingTimeout slot) s = .next (s.onHub fun h =>
        { h with audlogs := tdel h.audlogs slot, audstat := tset h.audstat 9 (satAdd 32 (tget h.audstat 9 0) 1) })) ∧
    (∀ g, let r := s.ring g
      let v := r.inj
      let blk := bits v 55 4
      let b := bits v 18 10
      bit v 63 = true → r.bound = true → r.ctx.id = v.extractLsb' 0 16 → r.ctx.tc = bits r.injt 0 48 → r.holdCause = 0 →
        ∃ t, exec (.injectionFire g) s = .next t ∧ (t.ring g).inj = setBit v 63 false ∧ (t.ctx g) = r.ctx ∧
          (∀ h, h ≠ g → t.ring h = s.ring h) ∧
          (bits v 61 2 = 0 → b < 32 → (t.ring g).spad = r.spad ∧
            (∀ n, n ≠ 256 * bits v 50 2 + 16 * bits v 46 4 + bits v 42 4 →
              tget (t.elem g blk (bits v 52 3)).acc n 0 = tget (s.elem g blk (bits v 52 3)).acc n 0) ∧
            ∀ i, i < 32 → bit ((t.elem g blk (bits v 52 3)).accCell (bits v 50 2) (bits v 46 4) (bits v 42 4)) i =
              (bit ((s.elem g blk (bits v 52 3)).accCell (bits v 50 2) (bits v 46 4) (bits v 42 4)) i != decide (i = b))) ∧
          (bits v 61 2 = 1 → bits v 59 2 = 1 → (t.ring g).spad = r.spad ∧ (t.ring g).spoison = r.spoison ∧
            (t.ring g).flaws = (blk * 131072 + 8 * bits v 28 14 + b / 128, .latent) :: r.flaws) ∧
          (bits v 61 2 = 1 → bits v 59 2 = 0 → r.spad.wf = true → ∀ o, o < Config.blockBytes →
            (t.ring g).spadByte blk o false =
              if o = 128 * bits v 28 14 + b / 8 then r.spadByte blk o false ^^^ (1#8 <<< (b % 8)) else r.spadByte blk o false))

/-! ### Events: hosts, links, power, the side-band port -/

/-- R389, R382, R405, R377, R378, R390, R6, R86, R87, R323, R371, R400: a host's accesses. The caps written in a tick are taken at its end in
the order of their sources: one below the idle floor is raised to it, and one below the floors is refused, after being raised or not; the
aperture reaches device memory when enabled, and the register window returns status registers; a register's write is taken where its
condition holds, and not from a writer without the right. Where it rests on the model's own choices: logs 6, 52, 87 (writes of a tick), 96
(allotments), 98, 110 (generations and the window), and 58: that a write of RINGCAP ends the auditor's fence of R370. -/
def Obligations.HostWrites : Prop :=
  ∀ (s : State),
    (∀ src (v : BitVec 16), src < 5 →
      let c := v.toNat
      let floors := ((List.range 8).map fun i => tget s.hub.pfloor i 0).sum
      let status (u : State) (x : Nat) : State := u.onHub fun h => { h with pcapst := packBits 7 [(4, 3, src), (0, 4, x)] }
      let f := if src < 4 then src else 0
      exec (.capWrite src v) s = .next (s.onHub fun h => { h with capWrites := h.capWrites ++ [(src, c)] }) ∧
      ((c = 0 ∨ (480 ≤ c ∧ floors ≤ c)) → applyCap s src c =
        status (s.onHub fun h => { h with pcap := tset h.pcap src c }) 0) ∧
      (480 ≤ c → c < floors → applyCap s src c = status (s.hostEvent f 6 0 0 0) 2) ∧
      (0 < c → c < 480 → floors ≤ 480 → applyCap s src c =
        status ((s.hostEvent f 5 0 0 0).onHub fun h => { h with pcap := tset h.pcap src 480 }) 1) ∧
      (0 < c → c < 480 → 480 < floors → applyCap s src c = status ((s.hostEvent f 5 0 0 0).hostEvent f 6 0 0 0) 2)) ∧
    (∀ a b (c d : Nat), a < b → b < 5 → (s.hub.capWrites = [(a, c), (b, d)] ∨ s.hub.capWrites = [(b, d), (a, c)]) →
      applyCaps s = applyCap (applyCap (s.onHub fun h => { h with capWrites := [] }) a c) b d) ∧
    (s.agenda = [] → s.inputs = [] → s.sub = 18 → s.aon.powered = true → s.aon.frozen = false → s.hub.wipest = false →
      (∀ g, (s.ring g).flaws = []) → ∃ t, step s = .next t ∧ t.hub = (applyCaps s).hub ∧ t.mem = (applyCaps s).mem) ∧
    (∀ f, f < 4 → exec (.pstatClear f) s = .next (s.onHub fun h => { h with drop := tset h.drop f 0, evlost := tset h.evlost f 0 })) ∧
    (∀ f v, f < 4 → exec (.hostEventBaseWrite f v) s = .next (s.onHub fun h =>
      { h with
        hevbase := tset h.hevbase f (packBits 64 [(13, 39, bits v 13 39), (0, 1, bits v 0 1)]),
        hevhead := tset h.hevhead f 0, hevtail := tset h.hevtail f 0 })) ∧
    (∀ f off bs, f < 4 → off + bs.length ≤ 68719476736 →
      let ap := tget s.hub.apbase f 0
      let pa := bits ap 36 16 * 68719476736 + off
      let region := bits ap 0 4
      let answers (u : State) (bytes : List Byte) : State :=
        u.onHub fun h => { h with hostAcc := tset h.hostAcc f ⟨region, generation s 0 0 region, bytes⟩ }
      (∃ bytes, exec (.apertureAccess f off .apertureRead bs) s = .next (answers s bytes) ∧ bytes.length = bs.length ∧
        ∀ i, i < bs.length → bytes.getD i 0 =
          if bit ap 4 = true ∧ isMapped (pa + i) = true ∧ (isHbm (pa + i) = true ∨ s.linkUp (hostFunction s (pa + i)) = true)
          then s.hostByte (pa + i) else 0) ∧
      (bit ap 4 = false → exec (.apertureAccess f off .apertureWrite bs) s = .next s) ∧
      (bit ap 4 = true → isHbm pa = true → isHbm (pa + bs.length - 1) = true → ∃ t,
        exec (.apertureAccess f off .apertureWrite bs) s = .next t ∧ t.mem = s.mem.writeN pa bs ∧ t.rings = s.rings ∧
        t.hub = (answers s []).hub) ∧
      let window (r : StatusReg) (v : BitVec 64) : Prop := exec (.apertureAccess f off (.window r) bs) s =
        .next (s.onHub fun h => { h with hostAcc := tset h.hostAcc f ⟨0, 0, bytesOf v⟩ })
      (∀ k, k < 4 →
        window (.pstat k) (packBits 64 [(63, 1, (s.linkUp k).toNat), (62, 1, (flrBusy s k).toNat), (16, 16, tget s.hub.drop k 0),
          (0, 16, tget s.hub.evlost k 0)]) ∧
        window (.hevhead k) (BitVec.ofNat 64 (tget s.hub.hevhead k 0))) ∧
      (∀ k, 4 ≤ k → window (.pstat k) 0 ∧ window (.hevhead k) 0) ∧ window .other 0 ∧
      window .ready (if s.hub.ready = true then 1 else 0) ∧
      window .pcapst (packBits 64 [(48, 16, effectiveCap s), (32, 16, 480), (0, 7, s.hub.pcapst.toNat)]) ∧
      ∀ p, p < 12 → window (.pairf p) (BitVec.ofNat 64 (tget s.hub.pairf p 1900))) ∧
    (∀ v : BitVec 64,
      (∀ f k, exec (.registerWrite (.host f) (.hubHevtail k) v) s = .next (if f = k
        then s.onHub fun h => { h with hevtail := tset h.hevtail f (bits v 0 8) } else s)) ∧
      (∀ f g, exec (.registerWrite (.host f) (.ringCapmask g) v) s = .next s) ∧
      (∀ g, exec (.registerWrite .eosen (.ringHoldlim g) v) s = .next (if v.extractLsb' 0 32 = 0 then s
        else s.onRing g fun r => { r with holdlim := v.extractLsb' 0 32 })) ∧
      (∀ g, exec (.registerWrite .eosen (.ringCapmask g) v) s = .next ((s.onRing g fun r => { r with capmask := v &&& 0xFFFFFF }).onHub
        fun h => { h with fences := tdel h.fences g })) ∧
      (∀ g, ((s.ring g).bound = true ∨ 14 < popCount (v.extractLsb' 0 16)) → exec (.registerWrite .eosen (.ringRetire g) v) s = .next s) ∧
      (∀ g, (s.ring g).bound = false → popCount (v.extractLsb' 0 16) ≤ 14 → exec (.registerWrite .eosen (.ringRetire g) v) s =
        .next (s.onRing g fun r => { r with retire := v.extractLsb' 0 16 })) ∧
      (∀ g, s.hub.injen = false → exec (.registerWrite .eosen (.rasInj g) v) s = .next s) ∧
      -- an allotment below the floors due in its pair, or beyond the cap with the others, is none of Eosen's (R390)
      (∀ p, let others := (((List.range 12).filter (· != p)).map fun i => tget s.hub.pairallot i 0).sum
        ((v.toNat < pairDue s p ∨ Config.wattUnits (effectiveCap s) < v.toNat + others) →
          exec (.registerWrite .eosen (.hubPairallot p) v) s = .next s) ∧
        (pairDue s p ≤ v.toNat → v.toNat + others ≤ Config.wattUnits (effectiveCap s) →
          exec (.registerWrite .eosen (.hubPairallot p) v) s =
            .next (s.onHub fun h => { h with pairallot := tset h.pairallot p v.toNat }))) ∧
      -- a change of what an open aperture reaches bumps its region of address space 0 (R377)
      (∀ f, let old := tget s.hub.apbase f 0
        let new : BitVec 64 := packBits 64 [(36, 16, bits v 36 16), (0, 5, bits v 0 5)]
        let u := s.onHub fun h => { h with apbase := tset h.apbase f new }
        ((bit old 4 = bit new 4 ∧ (bit old 4 = true → bits old 36 16 = bits new 36 16)) →
          exec (.registerWrite .eosen (.hubApbase f) v) s = .next u) ∧
        ((bit old 4 ≠ bit new 4 ∨ (bit old 4 = true ∧ bits old 36 16 ≠ bits new 36 16)) →
          exec (.registerWrite .eosen (.hubApbase f) v) s =
            .next (queueBump u 0 (2 ^ bits (if bit old 4 = true then old else new) 0 4) none []))) ∧
      (∀ q, bit (s.sqcfg q) 0 = true → exec (.registerWrite .eosen (.hubSqcfg q) v) s = .next s) ∧
      (exec (.registerWrite .eosen .readOnly v) s = .next s) ∧
      (∀ g, debugOpen s = false → exec (.registerWrite .sideband (.ringDbgctl g) v) s = .next s))

/-- R380, R381, R386 to R388, R264: links. A function's link that goes down is reported; retrained, it is followed by
the function's reset, which disables its queues and kills its tasks without a record; a Kamva port counts its replays
and goes up and down; another package's write lands in HBM, in a host's memory over a link that is up, or in a scratchpad that R264 opens to its address space, and its
operation on a barrier object that has taken none in this cycle is made (R290).
Where it rests on the model's own choices: logs 6 and 38. -/
def Obligations.LinksAndPorts : Prop :=
  ∀ (s : State),
    (∀ f, s.linkUp f = true → exec (.linkDown f) s =
      .next ((s.onHub fun h => { h with link := tset h.link f false }).hostEvent f 9 0 0 0)) ∧
    (∀ f, s.hasFunction f = true → s.linkUp f = false → exec (.linkRetrain f) s =
      exec (.functionLevelReset f) (s.onHub fun h => { h with link := tset h.link f true })) ∧
    (∀ f, f < 4 → ∃ t, exec (.functionLevelReset f) s = .next t ∧
      (∀ q, queueOwner s q = f → bit (t.sqcfg q) 0 = false ∧ bit (t.cqcfg q) 0 = false) ∧
      (∀ q, queueOwner s q ≠ f → t.sqcfg q = s.sqcfg q ∧ t.cqcfg q = s.cqcfg q) ∧
      (∀ n k, t.task n = some k → queueOwner s k.queue = f → k.noRecord = true ∧ k.state = .done) ∧
      ((∀ e ∈ s.hub.tasks, queueOwner s e.2.queue ≠ f) → t.rings = s.rings ∧ t.hub.tasks = s.hub.tasks ∧ t.mem = s.mem)) ∧
    (∀ p, p < 16 → exec (.kamvaFlitReplay p) s =
        .next (s.onHub fun h => { h with kreplay := tset h.kreplay p (satAdd 16 (tget h.kreplay p 0) 1) }) ∧
      (tget s.hub.kup p false = true → exec (.kamvaLinkDown p) s = .next (s.onHub fun h => { h with kup := tset h.kup p false })) ∧
      (tget s.hub.kup p false = false → exec (.kamvaLinkUp p) s = .next (s.onHub fun h => { h with kup := tset h.kup p true }))) ∧
    (∀ x : InboundRequest, x.barrier = none → x.addr % 64 + x.data.length ≤ 64 →
      (x.write = false → exec (.kamvaInboundRequest x) s = .next s) ∧
      (x.write = true → x.scratchpad = none → ∃ t, exec (.kamvaInboundRequest x) s = .next t ∧ t.rings = s.rings ∧
        ((isHbm x.addr = true ∨ (isHost x.addr = true ∧ s.linkUp (hostFunction s x.addr) = true)) →
          t.mem = s.mem.writeN x.addr x.data ∧ t.hub = s.hub) ∧
        (isHbm x.addr = false → (isHost x.addr = false ∨ s.linkUp (hostFunction s x.addr) = false) → t.mem = s.mem) ∧
        (isHbm x.addr = false → isHost x.addr = true → s.linkUp (hostFunction s x.addr) = false →
          tget t.hub.drop (hostFunction s x.addr) 0 = satAdd 16 (tget s.hub.drop (hostFunction s x.addr) 0) 1)) ∧
      (∀ g, x.write = true → x.scratchpad = some g → spadTarget s g x.asid x.addr x.data.length = none →
        exec (.kamvaInboundRequest x) s = .next s) ∧
      (∀ g, x.write = true → x.scratchpad = some g → (s.ring g).bound = true → (s.ctx g).asid = x.asid →
        (x.addr % 2097152 + x.data.length ≤ bindFoot (s.ctx g).bind * 4096 ∨ 2097152 ≤ bindFoot (s.ctx g).bind * 4096) →
        x.addr + x.data.length ≤ 33554432 → g < 24 →
        remapOf (s.ring g) (s.ctx g).id = none →
          ∃ t, exec (.kamvaInboundRequest x) s = .next t ∧ (t.ring g).spad = (s.ring g).spad.writeN x.addr x.data ∧ t.mem = s.mem ∧
            (t.ctx g) = (s.ctx g))) ∧
    (∀ (x : InboundRequest) op, x.barrier = some op → nameNode x.addr = s.hub.node.toNat → nameRing x.addr < 24 →
      barrierFree s x.addr = true → ∃ t, exec (.kamvaInboundRequest x) s = .next t ∧ t.mem = s.mem ∧
        t.barrier (nameRing x.addr) (nameNum x.addr) = (barrierOp s (nameRing x.addr) none x.asid
          (s.barrier (nameRing x.addr) (nameNum x.addr)) op).1 ∧
        ∀ h m, (h, m) ≠ (nameRing x.addr, nameNum x.addr) → t.barrier h m = s.barrier h m)

/-- R391 to R394, R339, R383: a pair's frequency changes, with a notice to both rings when it falls below nominal, and to the contexts
saved on them, as `sl14` in the image and a host event of kind 2; a throttled die posts a host event of kind 8; a balance
within a tenth changes nothing, and one that 20 A do not make stretches both clocks; a droop stretches the clock; a trip is recorded once,
and a loss of the rails leaves the tick counter, the always-on registers and the memory of the hosts. Where it rests on the model's own
choices: logs 6, 53 and 109 (how the 48 V input is cycled). -/
def Obligations.ClocksAndRails : Prop :=
  ∀ (s : State),
    (∀ p (mhz : BitVec 16), p < 12 → 475 ≤ mhz.toNat → mhz.toNat ≤ 1900 → mhz.toNat % 25 = 0 →
      (∀ g, g / 2 = p → (s.ring g).shifting = false) →
      let lower : Prop := mhz.toNat < tget s.hub.pairf p 1900 ∧ mhz.toNat < 1900
      let hub := { s.hub with pairf := tset s.hub.pairf p mhz.toNat }
      ∃ t, exec (.pairFrequencyChange p mhz) s = .next t ∧ tget t.hub.pairf p 1900 = mhz.toNat ∧
        (∀ g, g / 2 ≠ p → t.ring g = s.ring g) ∧
        (∀ g, g / 2 = p → (t.ctx g).sl = (if lower ∧ (s.ring g).bound = true
            then setBit (s.ctx g).sl 14 true else (s.ctx g).sl) ∧ (t.ctx g).k = (s.ctx g).k ∧ (t.ctx g).si = (s.ctx g).si) ∧
        ((s.saved = [] ∨ ¬lower) → t.hub = hub ∧ t.mem = s.mem ∧ t.saved = s.saved) ∧
        -- the contexts saved on the pair: `sl14` in the image, and a host event of kind 2 (R339)
        (lower → (t.saved = s.saved.map fun y => if y.ring / 2 = p then { y with ctx := y.ctx.setLine 14 true } else y) ∧
          ∀ x i e, s.saved = [x] → x.ring / 2 = p → remapOf (s.ring x.ring) x.ctx.id = some (i, e) →
            let a := remapSave e + 4718592 + 68
            isHbm a = true → isHbm (a + 1) = true → ∃ u : State, u.hub = hub ∧
              u.mem = s.mem.writeN a (bytesOf (setBit (BitVec.ofNat 16 (s.mem.readNat a 2)) 14 true)) ∧
              let n := bindTask x.ctx.bind
              let v := u.hostEvent (s.taskFunction n) 2 0 ((s.task n).elim 0 fun t => seTag t.entry) x.ctx.id
              t.hub = v.hub ∧ t.mem = v.mem)) ∧
    (∀ p a b, p < 12 →
      (max a b ≥ 10 * (max a b - min a b) → exec (.pairBalance p a b) s = .next s) ∧
      (max a b < 10 * (max a b - min a b) → ∃ t n, exec (.pairBalance p a b) s = .next t ∧ n ≤ 20 ∧
        t.rings = s.rings ∧ t.mem = s.mem ∧ tget t.hub.ballast (if a ≤ b then 2 * p else 2 * p + 1) 0 = n ∧
        -- beyond 20 A both clocks of the pair are stretched alike for a tick
        (∀ q, t.pairStretched q = (s.pairStretched q ||
          (q == p && n == 20 && decide (max a b < 10 * (max a b - (min a b + 20)))))))) ∧
    (∀ g n, 16 ≤ n → exec (.droopDetect g n) s = .next (s.onRing g fun r => { r with stretch := max r.stretch n })) ∧
    (∀ d c (mhz : BitVec 16), d < 4 → s.hub.tthrot ≤ c → 475 ≤ mhz.toNat → mhz.toNat < 1900 → mhz.toNat % 25 = 0 →
      (∀ g, g / 6 = d → (s.ring g).shifting = false) →
      ∃ t : State, exec (.thermalThrottle d c mhz) s = .next (t.hostEvent 0 8 d 0 0) ∧ (t.die d).throttled = true ∧
        (∀ i, i < 3 → tget t.hub.pairf (3 * d + i) 1900 = min mhz.toNat (tget s.hub.pairf (3 * d + i) 1900)) ∧
        (t.saved = s.saved.map fun y => if y.ring / 6 = d ∧ mhz.toNat < tget s.hub.pairf (y.ring / 2) 1900
          then { y with ctx := y.ctx.setLine 14 true } else y) ∧
        (s.saved = [] → t.mem = s.mem) ∧ ∀ g, g / 6 ≠ d → t.ring g = s.ring g) ∧
    (s.aon.powered = true →
      (∃ t, exec .mainRailsDown s = .next t ∧ t.aon = { s.aon with powered := false, frozen := false } ∧ t.tick = s.tick ∧
        t.rings = [] ∧ t.mem = s.mem.filter (fun c => isHost c.1) ∧ t.inputs = s.inputs ∧ t.hub.ready = false) ∧
      (∀ d n c, d ≤ 4 → n ≤ 31 → 0 < c → c ≤ 3 → ∃ t, exec (.thermalTrip d n c) s = .next t ∧ t.rings = [] ∧
        t.mem = s.mem.filter (fun c => isHost c.1) ∧
        t.tick = s.tick ∧ t.aon.powered = false ∧ t.aon.tripOff = true ∧ t.aon.hot = true ∧
        (bit s.aon.ttrip 63 = true → t.aon.ttrip = s.aon.ttrip ∧ t.aon.ttripx = s.aon.ttripx) ∧
        (bit s.aon.ttrip 63 = false → t.aon.ttrip = packBits 64 [(63, 1, 1), (0, 48, s.tick.toNat)] ∧
          t.aon.ttripx = packBits 64 [(13, 3, d), (8, 5, n), (0, 8, c)]))) ∧
    -- after a trip the rails come up only once the 48 V input has been cycled (log 109)
    (s.aon.powered = false → s.aon.tripOff = true →
      exec .mainRailsDown s = .next (s.onAon fun a => { a with tripOff := false }) ∧ ∀ t, exec .coldReset s ≠ .next t)

/-- R375, R384, R385, R389, R390, R395 to R399, R401: the commands of the side-band port. Each is answered: with status
ok and its effect in the states that accept it, and otherwise with error status and no effect. A reset
restarts the tick counter (R319) and begins the wipe, and a freeze halts every running slot (R334). Reports whose layout the spec does not
give, and signatures, are the model's free values (logs 9 and 10). Where it rests on the model's own choices: logs 6, 54 and 56; 55 (a
reset in one step, and a life-cycle change); 86 (when the security version advances); 99 (commands accepted while the main rails are down
or the clocks stand find no register to change); 124 (the version of the image the part was made with); 108 (the numbers of READOUT) and 109 (the 48 V cycle after a trip). -/
def Obligations.SideBandCommands : Prop :=
  ∀ (s : State),
    let a := s.aon
    let ok (u : State) (bs : List Byte) : Host.Outcome State Fault Refusal := .next (u.onAon fun a => { a with sbok := true, sbresp := bs })
    let no : Host.Outcome State Fault Refusal := .next (s.onAon fun a => { a with sbok := false, sbresp := [] })
    let serving : Prop := a.recovery = false ∧ (a.lc = .provisioned ∨ a.lc = .deployed)
    let opened : Prop := a.recovery = false ∧ (a.lc ≠ .deployed ∨ a.unlocked = true)
    let live : Prop := a.powered = true ∧ a.frozen = false
    let svnWith (o : List Byte) : BitVec 32 := BitVec.ofNat 32 (max a.svn.toNat (objSvn o))
    -- what every boot leaves: host memory alone, no READY until the wipe is over, time from zero
    let booted (t : State) : Prop := t.mem = s.mem.filter (fun c => isHost c.1) ∧ t.tick = 0 ∧ t.rings = [] ∧ t.hub.ready = false ∧
      t.aon.powered = true ∧ t.aon.frozen = false ∧ t.aon.unlocked = false ∧ t.hub.wipest = !t.aon.recovery
    (∃ bs, exec .rdsticky s = ok s bs) ∧
    exec .clrsticky s = ok (s.onAon fun a => { a with ttrip := 0, rstcause := 0 }) [] ∧
    (∀ v, (¬serving → exec (.setcap v) s = no) ∧ (serving → ¬live → exec (.setcap v) s = ok s []) ∧
      (serving → live → ∃ t, exec (.capWrite 4 v) s = .next t ∧ exec (.setcap v) s = ok t [])) ∧
    (∀ i v, ((¬serving ∨ 8 ≤ i) → exec (.setfloor i v) s = no) ∧ (serving → i < 8 → ¬live → exec (.setfloor i v) s = ok s []) ∧
      (serving → i < 8 → live →
        let u := s.onHub fun h => { h with pfloor := tset h.pfloor i v.toNat }
        (((List.range 8).map fun k => tget u.hub.pfloor k 0).sum ≤ effectiveCap s → exec (.setfloor i v) s = ok u []) ∧
        (effectiveCap s < ((List.range 8).map fun k => tget u.hub.pfloor k 0).sum → exec (.setfloor i v) s = no))) ∧
    (∀ v, ((¬serving ∨ bits v 8 56 ≠ 0 ∨ bits v 2 2 ≠ 0) → exec (.pcfg v) s = no) ∧
      (serving → bits v 8 56 = 0 → bits v 2 2 = 0 → exec (.pcfg v) s = ok (s.onAon fun a => { a with pcfg := v }) [])) ∧
    ((a.powered = false → exec .reset s = ok s []) ∧
      (a.powered = true → ∃ t, exec .reset s = ok t [] ∧ t.aon.rstcause = 2 ∧ booted t)) ∧
    (∀ img, ((a.lc = .blank ∨ objValid s img 2 Config.gnowellKey = false) → exec (.recover img) s = no) ∧
      (a.lc ≠ .blank → objValid s img 2 Config.gnowellKey = true →
        (a.powered = false → exec (.recover img) s = ok (s.onAon fun a => { a with recImg := img, svn := svnWith img }) []) ∧
        (a.powered = true → ∃ t, exec (.recover img) s = ok t [] ∧ t.aon.recImg = img ∧ t.aon.rstcause = 3 ∧
          objSvn img ≤ t.aon.svn.toNat ∧ a.svn.toNat ≤ t.aon.svn.toNat ∧ booted t ∧
          -- a stored image that is newer than the primary runs
          ((if a.eosenImg = [] then Config.factorySvn else objSvn a.eosenImg) < objSvn img →
            t.aon.recovery = false ∧ t.aon.running = img)))) ∧
    (∀ nonce, ((a.lc = .blank ∨ nonce.length ≠ 32) → exec (.attest nonce) s = no) ∧
      (a.lc ≠ .blank → nonce.length = 32 → ∃ bs, exec (.attest nonce) s = ok s bs ∧ objKind bs = 5 ∧ objMagic bs = 0x4757 ∧
        objSvn bs = a.svn.toNat)) ∧
    (¬opened → exec .freeze s = no ∧ (∀ n, exec (.readout n) s = no) ∧ ∀ b, exec (.injen b) s = no) ∧
    (opened → (a.powered = false → exec .freeze s = ok s []) ∧ (¬live → ∀ b, exec (.injen b) s = ok s []) ∧
      (live → ∀ b, exec (.injen b) s = ok (s.onHub fun h => { h with injen := b }) []) ∧
      (a.powered = true → ∃ t, exec .freeze s = ok t [] ∧ t.aon.frozen = true ∧ t.mem = s.mem ∧ (∀ f, f < 4 → t.linkUp f = false) ∧
        ∀ g, g < 24 → t.ring g =
          if (s.ring g).slotState = .running then { s.ring g with slotState := .halted } else s.ring g) ∧
      (∀ n, (a.powered = false ∨ a.frozen = false ∨ (29 ≤ n ∧ n < 32) ∨ 56 ≤ n) → exec (.readout n) s = no) ∧
      (a.powered = true → a.frozen = true → (∀ g, g < 24 → exec (.readout g) s = ok s (halyardImage s g)) ∧
        (∀ d, d < 4 → exec (.readout (24 + d)) s = ok s (Config.layout (24 + d) (dieRegisters (s.die d)))) ∧
        exec (.readout 28) s = ok s (Config.layout 28 (hubRegisters s)) ∧
        ∀ g, g < 24 → exec (.readout (32 + g)) s = ok s (Config.layout (32 + g) (ringRegisters s g)))) ∧
    (∀ tok key, a.ownerKey = some key → a.lc = .deployed → a.recovery = false → objValid s tok 4 key = true →
      exec (.unlock tok) s = ok (s.onAon fun a => { a with svn := svnWith tok, unlocked := true }) []) ∧
    (∀ tok key, a.ownerKey = some key → (a.lc ≠ .deployed ∨ a.recovery = true ∨ objValid s tok 4 key = false) →
      exec (.unlock tok) s = no) ∧
    (∀ tok, a.ownerKey = none → exec (.unlock tok) s = no) ∧
    (∀ target tok, changeKey s target tok = none → exec (.lcstate target tok) s = no) ∧
    (∀ target tok key, changeKey s target tok = some key → (a.frozen = true ∨ a.recovery = true ∨ objValid s tok 3 key = false) →
      exec (.lcstate target tok) s = no) ∧
    (∀ target tok key, changeKey s target tok = some key → a.frozen = false → a.recovery = false → objValid s tok 3 key = true →
      ∃ t, exec (.lcstate target tok) s = ok t [] ∧ t.aon.lc = target ∧ t.aon.svn = svnWith tok ∧ t.tick = s.tick ∧
        (target = .provisioned → t.aon.ownerKey = none ∧ t.aon.idKey = a.idKey + 1) ∧
        (target = .deployed → t.aon.ownerKey = some (Config.tokenKey (objPayload tok))) ∧
        (a.powered = false → t.mem = s.mem ∧ t.hub = s.hub ∧ t.rings = s.rings) ∧
        (a.powered = true → t.mem = s.mem.filter (fun c => isHost c.1) ∧ t.rings = [] ∧ t.hub.wipest = true ∧ t.hub.ready = false ∧
          ∀ f, t.linkUp f = s.linkUp f)) ∧
    (∀ n, ((90 < n) → exec (.pldmSensorRead n) s = no) ∧ (n < 78 → ∃ bs, exec (.pldmSensorRead n) s = ok s.tickFree bs) ∧
      (78 ≤ n → n < 90 → exec (.pldmSensorRead n) s = ok s (leBytes 8 (tget s.hub.pairf (n - 78) 1900))) ∧
      (n = 90 → exec (.pldmSensorRead n) s = ok s (leBytes 8 (effectiveCap s)))) ∧
    (∀ img, ((a.recovery = true ∨ (objValid s img 1 Config.gnowellKey = false ∧ objValid s img 2 Config.gnowellKey = false)) →
        exec (.pldmFirmwareUpdate img) s = no) ∧
      (a.recovery = false → objValid s img 1 Config.gnowellKey = true →
        exec (.pldmFirmwareUpdate img) s = ok (s.onAon fun a => { a with bootImg := img, svn := svnWith img }) []) ∧
      (a.recovery = false → objValid s img 2 Config.gnowellKey = true → objValid s img 1 Config.gnowellKey = false →
        exec (.pldmFirmwareUpdate img) s = ok (s.onAon fun a => { a with eosenImg := img, svn := svnWith img }) [])) ∧
    (live → s.hub.ready = true → ∃ t, exec .eosenFatalError s = .next t ∧ t.aon.rstcause = 4 ∧ booted t) ∧
    (a.powered = false → a.tripOff = false →
      (a.hot = true → sensorsCool s = false → exec .coldReset s = .next s.tickFree) ∧
      ((a.hot = false ∨ sensorsCool s = true) → ∃ t, exec .coldReset s = .next t ∧ t.aon.pcfgLive = a.pcfg ∧ t.aon.hot = false ∧
        booted t ∧ t.aon.rstcause = if a.tripPending = true ∧ bit a.ttrip 63 = true then 5 else 1))

/-! ### Words -/

/-- Words that the spec's worked examples assemble read as what they stand for, and reserved encodings are refused with the code
of R113: a row of MAJ 14, an unassigned step OP, XC 58, and a bit that `nop` does not define. -/
def Obligations.SpecWordsDecode : Prop :=
  decodeTableWord 80 0x103B0002009084300000 = some (.ffma
    ⟨⟨true, 3⟩, none, .f32, .v 4, .v 2, .port (.pi 0), .x 3, .rne, false, false, 0⟩) ∧
  decodeTableWord 80 0x0C20C301805800000000 = some (.icmpLt
    ⟨⟨false, 0⟩, some 4, .i32, .v 3, .v 1, .imm 0, .v 0, .rne, false, false, 0⟩) ∧
  decodeTableWord 80 0x1C30000A0100C1420021 = some (.quant
    ⟨⟨false, 0⟩, none, .f32, .v 20, .v 4, .v 6, .v 20, .rne, true, false, 0x21⟩) ∧
  decodeTableWord 80 0x286100D0E00000000000 = some (.qtx
    ⟨⟨false, 1⟩, none, .f32, .queue ⟨true, 1⟩, .queue ⟨false, 0⟩, .v 0, .v 0, .rne, false, false, 0⟩) ∧
  decodeTableWord 80 0x2C000A34300301040100 = some (.mmaBf16
    ⟨false, ⟨false, 2⟩, ⟨true, 3⟩, 1, 0, false, false, true, true, 3, 1, 4, 0x100⟩) ∧
  decodeTableWord 64 0x005000C000000000 = some (.stepNop (.goto (.knz 2) 3)) ∧
  decodeTableWord 64 0x6050014800000000 = some (.kdec 2 (.goto (.knz 2) 5)) ∧
  decodeTableWord 64 0xBC000008C0000000 = some (.bwait 2 3 .fall) ∧
  decodeTableWord 64 0xCC00001400000000 = some (.fence .rel .pkg .fall) ∧
  decodeTableWord 64 0x1000000000000000 = some (.endStep 0) ∧
  decodeTableWord 128 (0x000003E800000000 * 2 ^ 64 + 0x850000000018C080) = some (.run 0 6 3 none 4 (some ⟨1000, none⟩) .fall) ∧
  (match decodeRow (BitVec.ofNat 80 (14 * 2 ^ 74)) with | .ok _ => False | .error e => e.code = 6) ∧
  (match decodeStep (BitVec.ofNat 64 (0x0B * 2 ^ 58)) 0 with | .ok _ => False | .error e => e.code = 2) ∧
  (match decodeStep (BitVec.ofNat 64 (58 * 2 ^ 50)) 0 with | .ok _ => False | .error e => e.code = 4) ∧
  (match decodeStep 1 0 with | .ok _ => False | .error e => e.code = 3)

/-- Every well-formed row and step, with every operand at every value its encoding admits, is read back from its words. -/
def Obligations.WordsRoundTrip : Prop :=
  ∀ i : Instr, i.wf = true → i.kind ≠ .event → decode (encode i) = .ok i

/-- R113: no other bytes read as an instruction: bytes that decode are the words of what they decode to, which is well formed. -/
def Obligations.EveryWordHasOneReading : Prop :=
  ∀ (bs : List Byte) (i : Instr), decode bs = .ok i → i.wf = true ∧ i.kind ≠ .event ∧ encode i = bs

/-! ### The step, faults and reset -/

/-- A step runs the instruction that its place of issue decodes to: a row item the word in its row slot, with the
focus on its place; a sequencer item the step at SI, or its image fault where the slot came poisoned (R354, code 20), or the
condition of the step that waits; an event item or an
input its event, which does nothing when it is not due or cannot arrive (R374, R383, R396, R401); with nothing left, the time base moves by one nominal cycle of
nineteen to a tick (R8). Where it rests on the model's own choices: logs 1, 18 and 60. -/
def Obligations.AStepRunsTheDecodedInstruction : Prop :=
  ∀ (s : State),
    (∀ g ps col slot inst ent l i, s.agenda = .row g ps col slot inst ent :: l → (s.ctx g).unwinding = none →
      decodeRow (slotRow (((s.ring g).stripe ps).record.elim 0 fun rc => recSlot rc slot)) = .ok i →
        let u : State := { s with agenda := l, focus := ⟨g, ps, col, slot, inst, ent⟩ }
        (∀ t, exec i u = .next t → ((t.ctx g).fault = none ∨ (s.ctx g).fault ≠ none) → step s = .next t) ∧
        -- a row that faults has no effect on its ring but the fault (R352)
        (∀ t f, exec i u = .next t → (s.ctx g).fault = none → (t.ctx g).fault = some f →
          step s = .next { t with rings := (takeFault u g f).rings }) ∧
        ((∀ t, exec i u ≠ .next t) → step s = exec i u)) ∧
    (∀ g l, s.agenda = .seq g :: l → (s.ctx g).fault = none → (s.ctx g).ended = false → (s.ctx g).ending = none →
      (s.ctx g).draining = false → (s.ctx g).unwinding = none → (s.ctx g).yielded = false → (s.ctx g).replay = none →
        let u : State := { s with agenda := l, focus := ⟨g, 0, 0, 0, 0, 0⟩ }
        (∀ i t, (s.ctx g).wait = none → (s.ctx g).thNotice = false → (s.ctx g).stepAt (s.ctx g).si = .ok i →
          (s.ctx g).badSlots = [] → exec i u = .next t → step s = .next t) ∧
        ((s.ctx g).wait = none → (s.ctx g).thNotice = false → (s.ctx g).badSlots.contains (s.ctx g).si = true →
          step s = .next (takeFault u g (faultAt u g 4 20 0 0))) ∧
        (∀ t, (s.ctx g).wait.isSome = true → exec (.stepWaitComplete g) u = .next t → step s = .next t)) ∧
    (∀ i l, s.agenda = .event i :: l →
      (∀ t, exec i { s with agenda := l } = .next t → step s = .next t) ∧
      (exec i { s with agenda := l } = .refused .notDue → step s = .next { s with agenda := l })) ∧
    (∀ i l, s.agenda = [] → s.inputs = i :: l →
      let u : State := { s with inputs := l }
      (mayArrive s i = true → (∀ t, exec i u = .next t → step s = .next t) ∧ (exec i u = .refused .notDue → step s = .next u)) ∧
      (mayArrive s i = false → step s = .next u) ∧
      ((s.aon.powered = false ∨ s.aon.frozen = true) → auxiliary i = false → step s = .next u)) ∧
    (s.agenda = [] → s.inputs = [] → ∃ t, step s = .next t ∧ t.aon = s.aon ∧
      ((s.sub + 1 < 19 ∨ s.aon.powered = false ∨ s.aon.frozen = true ∨ (s.hub.wipest = false ∧ s.hub.capWrites = [] ∧
          ∀ g, (s.ring g).flaws = [])) → t.mem = s.mem ∧ t.hub = s.hub) ∧
      (s.sub + 1 < 19 → t.sub = s.sub + 1 ∧ t.tick = s.tick ∧ t.rings = s.rings) ∧
      (19 ≤ s.sub + 1 → t.sub = 0 ∧ t.tick = s.tick + 1) ∧
      ((s.aon.powered = false ∨ s.aon.frozen = true) → t.agenda = [] ∧ t.rings = s.rings)) ∧
    (∀ w i, w < 2 ^ 80 → decodeTableWord 80 w = some i → (s.ctx 0).unwinding = none →
      ∃ u, u.mem = s.mem ∧ u.hub = s.hub ∧ u.ctx 0 = s.ctx 0 ∧
        (∀ t, exec i u = .next t → (t.ctx 0).fault = none → step (s.withFetchWord 80 w) = .next t) ∧
        ((∀ t, exec i u ≠ .next t) → step (s.withFetchWord 80 w) = exec i u))

/-- R352, R350, R98, R353, R400: taking a fault. Nothing of the context's cycle that is still to be issued is issued;
the record taken is the one R353 ranks first, with the context's TC, id and address space and the place of the row or
step; a debug break halts the slot, and a resume undoes exactly that. Where it rests on the model's own choices: log
21. -/
def Obligations.FaultsAreTaken : Prop :=
  ∀ (s : State) (g : Nat) (f : FaultRec),
    let c := s.ctx g
    let u := takeFault s g f
    (u.agenda = s.agenda.filter fun w => !w.ofRing g) ∧ u.mem = s.mem ∧ u.hub = s.hub ∧ u.reqs = s.reqs ∧
    (∀ h, h ≠ g → u.ring h = s.ring h) ∧
    ((c.ended = true ∨ c.killed = true ∨ c.fault.isSome = true) → u.ring g = s.ring g) ∧
    (c.ended = false → c.killed = false → c.fault = none → ∃ r, (u.ctx g).fault = some r ∧
      (c.faultPref = none → r = f) ∧
      (∀ p, c.faultPref = some p → r = if faultRank p < faultRank f then p else f) ∧
      (r.cls ≠ 9 → u.ring g = { s.ring g with ctx := { c with fault := some r, faultPref := none, wait := none } }) ∧
      (r.cls = 9 → ∃ b : BrkResume,
        -- where the resume goes on: after a step or in the column of the row, without the stripes that have broken there
        b.tc = c.tc ∧ (r.locStripe = false → b.col = none ∧ b.done = []) ∧
        (r.locStripe = true → b.col = some r.col ∧ r.pstr ∈ b.done ∧ ∀ p, p ∈ b.done → p = r.pstr ∨
          ∃ a, c.brkResume = some a ∧ a.tc = c.tc ∧ a.col = some r.col ∧ p ∈ a.done) ∧
        u.ring g = { s.ring g with
          slotState := .halted
          ctx := { c with fault := some r, faultPref := none, wait := none, brkResume := some b } } ∧
        (resumeBreak u g).ring g = { s.ring g with
          slotState := .running
          ctx := { c with fault := none, faultPref := none, wait := none, brkResume := some b } })) ∧
    (∀ cls code info addr, let x := faultAt s g cls code info addr
      x.cls = cls ∧ x.code = code ∧ x.info = info ∧ x.addr = addr ∧ x.tc = c.tc ∧ x.ctx = c.id ∧ x.asid = c.asid ∧ x.ring = g ∧
      x.locStripe = false ∧ x.si = c.si) ∧
    (∀ cls code info addr, let x := rowFault s cls code info addr
      let p := s.focus
      x.cls = cls ∧ x.code = code ∧ x.info = info ∧ x.addr = addr ∧ x.tc = (s.ctx p.ring).tc ∧ x.ring = p.ring ∧
      x.locStripe = true ∧ x.slot = p.slot ∧ x.col = p.col ∧ x.ent = p.ent ∧ x.pstr = p.ps ∧
      ∀ o, ((s.ring p.ring).stripe p.ps).occ = some o → x.vs = o.vs) ∧
    (∀ f' a b d x y, [4, 7, 1, 6, 3, 2, 8, 10, 9] = a ++ x :: (b ++ y :: d) → f.cls = x → f'.cls = y → f.col < 8 →
      faultRank f < faultRank f') ∧
    (∀ f', f.cls = f'.cls → (f.locStripe = false ∨ f.col < f'.col) → f'.locStripe = true → faultRank f < faultRank f')

/-- R373, R395, R396, R86, R270, R356, R360, R394, R64: after a cold reset every byte of memory reads zero and none is poisoned, and so do
the barrier objects, the state table, the registers of contexts (k, a, tokens, TC, WDI, WDP, flags, the stack), the registers, tags,
predicates, ports, accumulators, checksums, counters and exact cells of elements, the remap entries, and the registers of the hub, the
dies and the always-on domain that are named, but for the values the spec gives: RSTCAUSE 1, HOLDLIM, FAULTHOLD, SCRUBINT, CELLTHR, TTHROT
and the exponent of an exact accumulator. Queues, lanes, tables and slots are empty, and no context is bound. Where it rests on the model's
own choices: logs 4 (host memory), 5, 6 (the module after its boot: READY and powered, and the always-on registers) and 30. -/
def Obligations.ResetLeavesTheWipedMachine : Prop :=
  let s := Sys2Proof.core.reset
  (∀ a, Memory.read (State.mem s) a = 0) ∧ State.poison s = [] ∧ State.shadow s = [] ∧
  (∀ g a, Memory.read (State.ring s g).spad a = 0) ∧
  (∀ g, (State.ring s g).spoison = [] ∧ (State.ring s g).flaws = [] ∧ (State.ring s g).qcfg = [] ∧ (State.ring s g).qst = [] ∧
    (State.ring s g).lanes = [] ∧ (State.ring s g).scrf = 0 ∧ (State.ring s g).suscnt = 0 ∧ (State.ring s g).inj = 0 ∧
    (State.ring s g).injt = 0 ∧ (State.ring s g).slot = 0 ∧ (State.ring s g).brken = false ∧ ∀ i, tget (State.ring s g).remap i 0 = 0) ∧
  (∀ g n, (State.ctx s g).kreg n = 0 ∧ (State.ctx s g).areg n = 0 ∧ (State.ctx s g).token n = 0 ∧ tget (State.ctx s g).ev n 0 = 0) ∧
  (∀ g, (State.ctx s g).tc = 0 ∧ (State.ctx s g).wdi = 0 ∧ (State.ctx s g).wdp = 0 ∧ (State.ctx s g).flagw = 0 ∧
    (State.ctx s g).rstack = [] ∧ (State.ctx s g).startq = [] ∧ (State.ctx s g).streams = [] ∧ (State.ctx s g).chans = [] ∧
    (State.ctx s g).bind = 0 ∧ (State.ctx s g).hdr = 0 ∧ ∀ n, (State.ctx s g).slotWord n = 0) ∧
  (∀ g n, State.barrier s g n = 0) ∧
  (∀ g ps k, (State.elem s g ps k).flags = 0 ∧ (State.elem s g ps k).cht = 0 ∧ (State.elem s g ps k).sb = 0 ∧
    (State.elem s g ps k).et = 0 ∧ (State.elem s g ps k).lexp = -24 ∧ (State.elem s g ps k).pend = [] ∧
    (∀ b i j, (State.elem s g ps k).accCell b i j = 0) ∧
    ∀ n, tget (State.elem s g ps k).vt n 0 = 0 ∧ tget (State.elem s g ps k).xt n 0 = 0 ∧ tget (State.elem s g ps k).p n 0 = 0 ∧
      tget (State.elem s g ps k).pot n 0 = 0 ∧ tget (State.elem s g ps k).ckr n 0 = 0 ∧ tget (State.elem s g ps k).ckc n 0 = 0 ∧
      tget (State.elem s g ps k).cb n 0 = 0 ∧ tget (State.elem s g ps k).depth n 0 = 0 ∧ tget (State.elem s g ps k).xa n 0 = 0) ∧
  (∀ g ps k n l, (tget (State.elem s g ps k).v n Vec.zero).lane l = 0 ∧ (tget (State.elem s g ps k).x n Vec.zero).lane l = 0 ∧
    (tget (State.elem s g ps k).po n Vec.zero).lane l = 0 ∧ (State.elem s g ps k).e.lane l = 0) ∧
  (∀ g ps, ((State.ring s g).stripe ps).record = none ∧ ((State.ring s g).stripe ps).occ = none) ∧
  (∀ g, (State.ring s g).bound = false ∧ (State.ring s g).slotState = .empty ∧ (State.ring s g).holdlim = 0x100000) ∧
  (∀ d, (State.die s d).faulthold = 10000 ∧ (State.die s d).scrubint = 8640000000000 ∧ (State.die s d).astbase = 0 ∧
    (State.die s d).fbbase = 0 ∧ (State.die s d).fbhead = 0 ∧ (State.die s d).fbtail = 0 ∧ (State.die s d).ppr = 0 ∧
    (State.die s d).tlb = []) ∧
  (∀ q, State.sqcfg s q = 0 ∧ State.cqcfg s q = 0 ∧ tget (State.hub s).sqhead q 0 = 0 ∧ tget (State.hub s).sqtail q 0 = 0 ∧
    tget (State.hub s).cqhead q 0 = 0) ∧
  (∀ d asid r, generation s d asid r = 0) ∧
  (State.hub s).rasbase = 0 ∧ (State.hub s).rashead = 0 ∧ (State.hub s).audctl = 0 ∧ (State.hub s).node = 0 ∧ (State.hub s).rnpool = 0 ∧
  (State.hub s).gtbase = 0 ∧ (State.hub s).injen = false ∧ (State.hub s).wipest = false ∧
  (State.hub s).cellthr = 8 ∧ (State.hub s).tthrot = 105 ∧ (State.hub s).ready = true ∧ (State.hub s).tasks = [] ∧
  (State.hub s).cls = [] ∧ (State.aon s).rstcause = 1 ∧ (State.aon s).powered = true ∧ (State.aon s).ttrip = 0 ∧
  (State.aon s).ttripx = 0 ∧ (State.aon s).pcfg = 0

/-- The invariant of the two statements that follow holds after reset: the memory of the packages and every scratchpad is in
canonical form, and the place within a tick is one of nineteen. -/
def Obligations.ResetMeetsTheInvariant : Prop :=
  MemoriesCanonical State.reset ∧ InTick State.reset

/-- Every step that goes on keeps the canonical form of every memory, and the time base within its tick, whatever the state. -/
def Obligations.EveryStepKeepsTheInvariant : Prop :=
  ∀ s t : State, MemoriesCanonical s → InTick s → step s = .next t → MemoriesCanonical t ∧ InTick t

/-- R77, R253, R380: bytes written are read back, and nothing else changes. Device physical memory takes them in HBM and, over a
link that is up, in host memory; a reserved range takes nothing; a link that is down drops them and counts. In a scratchpad both
layouts place the offsets of a block one to one, so a byte written under a layout is read back under it. -/
def Obligations.BytesReadBack : Prop :=
  ∀ (s : State),
    (∀ pa bs, s.mem.wf = true →
      ((isHbm pa = true ∨ (isHost pa = true ∧ s.linkUp (hostFunction s pa) = true)) →
        (s.physWrite pa bs).physRead pa bs.length = bs ∧
        ∀ a, (a < pa ∨ pa + bs.length ≤ a) → (s.physWrite pa bs).mem.read a = s.mem.read a) ∧
      (isHbm pa = false → isHost pa = false → s.physWrite pa bs = { s with shadow := (s.physWrite pa bs).shadow }) ∧
      (isHbm pa = false → isHost pa = true → s.linkUp (hostFunction s pa) = false → s.physWrite pa bs =
        { s.onHub fun h => { h with drop := tset h.drop (hostFunction s pa) (satAdd 16 (tget h.drop (hostFunction s pa) 0) 1) } with
          shadow := (s.physWrite pa bs).shadow })) ∧
    (∀ swz a b, a < 2097152 → b < 2097152 →
      placeOf swz a < 2097152 ∧ (placeOf swz a = placeOf swz b → a = b)) ∧
    (∀ g blk a b swz x, (s.ring g).spad.wf = true → a < 2097152 → b < 2097152 →
      ((s.ring g).spadPut blk a swz x).spadByte blk b swz = if b = a then x else (s.ring g).spadByte blk b swz)
end

