-- ==== Sys2Proof/Laws/Encoding.lean ====
section
/-!
SUPPORT. The laws of encodings: every field decoder reads back what its encoder lays out, and fields are cut out of the
words they were joined into.
-/

namespace Sys2Proof

/-! ### Cutting fields out of joined words -/

theorem extract_append_hi {a b : Nat} (x : BitVec a) (y : BitVec b) (k n : Nat) (h : b ≤ k) :
    (x ++ y).extractLsb' k n = x.extractLsb' (k - b) n := by
  apply BitVec.eq_of_getLsbD_eq
  intro i hi
  have : ¬ k + i < b := by omega
  have e : k + i - b = k - b + i := by omega
  simp [BitVec.getLsbD_extractLsb', BitVec.getLsbD_append, this, e]

theorem extract_append_lo {a b : Nat} (x : BitVec a) (y : BitVec b) (k n : Nat) (h : k + n ≤ b) :
    (x ++ y).extractLsb' k n = y.extractLsb' k n := by
  apply BitVec.eq_of_getLsbD_eq
  intro i hi
  have : k + i < b := by omega
  simp [BitVec.getLsbD_extractLsb', BitVec.getLsbD_append, this]

theorem extract_all {a : Nat} (x : BitVec a) : x.extractLsb' 0 a = x := by
  apply BitVec.eq_of_getLsbD_eq
  intro i hi
  simp [hi]

theorem bit_append_hi {a b : Nat} (x : BitVec a) (y : BitVec b) (k : Nat) (h : b ≤ k) :
    (x ++ y).getLsbD k = x.getLsbD (k - b) := by
  have : ¬ k < b := by omega
  simp [BitVec.getLsbD_append, this]

theorem bit_append_lo {a b : Nat} (x : BitVec a) (y : BitVec b) (k : Nat) (h : k < b) :
    (x ++ y).getLsbD k = y.getLsbD k := by
  simp [BitVec.getLsbD_append, h]

@[simp] theorem bit_ofBool (b : Bool) : (BitVec.ofBool b).getLsbD 0 = b := by cases b <;> rfl

@[simp] theorem toFin_ofFin {w : Nat} (n : Fin (2 ^ w)) : (BitVec.ofFin n).toFin = n := rfl

/-! ### Bytes -/

/-- Bytes laid out least significant first read back, modulo the space they have. -/
theorem leNat_leBytes : ∀ n w : Nat, leNat (leBytes n w) = w % 256 ^ n
  | 0, w => by simp [leBytes, leNat, Nat.mod_one]
  | n + 1, w => by
    simp only [leBytes, leNat, leNat_leBytes n, BitVec.toNat_ofNat]
    rw [show (256 : Nat) ^ (n + 1) = 256 * 256 ^ n by rw [Nat.pow_succ, Nat.mul_comm], Nat.mod_mul]

@[simp] theorem length_leBytes : ∀ n w : Nat, (leBytes n w).length = n
  | 0, _ => rfl
  | n + 1, w => by simp [leBytes, length_leBytes n]

/-! ### Fields of rows -/

@[simp] theorem Guard.ofBits_bits (g : Guard) : Guard.ofBits g.bits = g := by
  obtain ⟨neg, p⟩ := g
  revert neg p
  decide

@[simp] theorem proOfBits_proBits (p : Option (Fin 8)) : proOfBits (proBits p) = some p := by
  cases p with
  | none => rfl
  | some n => revert n; decide

@[simp] theorem Ty.ofCode_bits (t : Ty) : Ty.ofCode t.bits.toNat = some t := by cases t <;> rfl

@[simp] theorem Rm.ofBits_bits (m : Rm) : Rm.ofBits m.bits = m := by cases m <;> rfl

@[simp] theorem Port.ofBits_bits (p : Port) : Port.ofBits p.bits = some p := by
  cases p with
  | up => rfl
  | dn => rfl
  | w => rfl
  | e => rfl
  | pi n => revert n; decide
  | po n => revert n; decide
  | tap n => revert n; decide

@[simp] theorem Special.ofBits_bits (s : Special) : Special.ofBits s.bits = some s := by cases s <;> rfl

@[simp] theorem QName.ofBits_bits (q : QName) : QName.ofBits q.bits = some q := by
  obtain ⟨d, n⟩ := q
  revert d n
  decide

@[simp] theorem MatReg.ofBits_bits (m : MatReg) : MatReg.ofBits m.bits = some m := by
  cases m with
  | xa => rfl
  | acc n => revert n; decide
  | cb n => revert n; decide
  | ckr n => revert n; decide
  | ckc n => revert n; decide

@[simp] theorem Opnd.ofBits_bits (o : Opnd) : Opnd.ofBits o.bits = some o := by
  cases o with
  | v n => revert n; decide
  | x n => revert n; decide
  | imm i => revert i; decide
  | pred n => revert n; decide
  | port p =>
    have h : (Opnd.port p).bits.extractLsb' 6 3 = 2 := by
      simp (disch := omega) only [Opnd.bits, extract_append_hi]
      rfl
    have l : (Opnd.port p).bits.extractLsb' 0 6 = p.bits := by
      simp (disch := omega) only [Opnd.bits, extract_append_lo, extract_all]
    simp [Opnd.ofBits, h, l]
  | special s =>
    have h : (Opnd.special s).bits.extractLsb' 6 3 = 4 := by
      simp (disch := omega) only [Opnd.bits, extract_append_hi]
      rfl
    have l : (Opnd.special s).bits.extractLsb' 0 6 = s.bits := by
      simp (disch := omega) only [Opnd.bits, extract_append_lo, extract_all]
    simp [Opnd.ofBits, h, l]
  | queue q =>
    have h : (Opnd.queue q).bits.extractLsb' 6 3 = 6 := by
      simp (disch := omega) only [Opnd.bits, extract_append_hi]
      rfl
    have l : (Opnd.queue q).bits.extractLsb' 0 6 = q.bits := by
      simp (disch := omega) only [Opnd.bits, extract_append_lo, extract_all]
    simp [Opnd.ofBits, h, l]
  | mat m =>
    have h : (Opnd.mat m).bits.extractLsb' 6 3 = 7 := by
      simp (disch := omega) only [Opnd.bits, extract_append_hi]
      rfl
    have l : (Opnd.mat m).bits.extractLsb' 0 6 = m.bits := by
      simp (disch := omega) only [Opnd.bits, extract_append_lo, extract_all]
    simp [Opnd.ofBits, h, l]

@[simp] theorem Row.ofBits_bits (r : Row) : Row.ofBits r.bits = some r := by
  simp (disch := omega) only [Row.ofBits, Row.bits, extract_append_hi, extract_append_lo, bit_append_hi, bit_append_lo,
    Nat.reduceSub, extract_all, bit_ofBool, proOfBits_proBits, Ty.ofCode_bits, Opnd.ofBits_bits, Guard.ofBits_bits,
    Rm.ofBits_bits, Option.bind_some]

@[simp] theorem TileRow.ofBits_bits (r : TileRow) : TileRow.ofBits r.bits = some r := by
  simp (disch := omega) only [TileRow.ofBits, TileRow.bits, extract_append_hi, extract_append_lo, bit_append_hi,
    bit_append_lo, Nat.reduceSub, extract_all, bit_ofBool, QName.ofBits_bits, Option.bind_some]
  rfl

/-! ### Fields of steps -/

@[simp] theorem Cond.ofBits_bits (c : Cond) : Cond.ofBits c.bits = some c := by
  cases c with
  | always => rfl
  | kz n => revert n; decide
  | knz n => revert n; decide
  | idle n => revert n; decide
  | line n => revert n; decide

/-- A condition is never the code of none. -/
theorem Cond.bits_ne (c : Cond) : c.bits ≠ 0 := by
  cases c with
  | always => decide
  | kz n => revert n; decide
  | knz n => revert n; decide
  | idle n => revert n; decide
  | line n => revert n; decide

@[simp] theorem Trans.ofBits_bits (t : Trans) : Trans.ofBits t.bits = some t := by
  cases t with
  | fall => rfl
  | goto c target =>
    have h : (Trans.goto c target).bits.extractLsb' 12 6 = c.bits := by
      simp (disch := omega) only [Trans.bits, extract_append_hi, Nat.reduceSub, extract_all]
    have l : (Trans.goto c target).bits.extractLsb' 0 12 = target := by
      simp (disch := omega) only [Trans.bits, extract_append_lo, extract_all]
    have n : (Trans.goto c target).bits ≠ 0 := by
      intro e
      rw [e] at h
      exact c.bits_ne (by rw [← h]; rfl)
    rw [Trans.ofBits, if_neg n, h, l, Cond.ofBits_bits]
    rfl

@[simp] theorem LongForm.ofBits_bits (l : LongForm) : LongForm.ofBits l.bits = l := by
  obtain ⟨start, vs⟩ := l
  have h1 : (LongForm.bits ⟨start, vs⟩).extractLsb' 32 32 = start := by
    simp (disch := omega) only [LongForm.bits, extract_append_hi, Nat.reduceSub, extract_all]
  have h2 : (LongForm.bits ⟨start, vs⟩).getLsbD 31 = vs.isSome := by
    simp (disch := omega) only [LongForm.bits, bit_append_hi, bit_append_lo, Nat.reduceSub, bit_ofBool]
  have h3 : (LongForm.bits ⟨start, vs⟩).extractLsb' 21 10 = vs.getD 0 := by
    simp (disch := omega) only [LongForm.bits, extract_append_hi, extract_append_lo, Nat.reduceSub, extract_all]
  simp only [LongForm.ofBits, h1, h2, h3]
  cases vs <;> rfl

@[simp] theorem Scope.ofBits_bits (s : Scope) : Scope.ofBits s.bits = some s := by cases s <;> rfl

@[simp] theorem SReg.ofBits_bits (r : SReg) : SReg.ofBits r.bits = r := by
  obtain ⟨a, n⟩ := r
  revert a n
  decide

@[simp] theorem SReg.ofAmovBits_amovBits (r : SReg) : SReg.ofAmovBits r.amovBits = r := by
  obtain ⟨a, n⟩ := r
  revert a n
  decide

@[simp] theorem KOperand.ofBits_bits (y : KOperand) : KOperand.ofBits y.bits = y := by
  cases y with
  | reg b => revert b; decide
  | imm i =>
    have h : (KOperand.imm i).bits.getLsbD 29 = true := by
      simp (disch := omega) only [KOperand.bits, bit_append_hi, Nat.reduceSub]
      rfl
    have l : (KOperand.imm i).bits.extractLsb' 0 29 = i := by
      simp (disch := omega) only [KOperand.bits, extract_append_lo, extract_all]
    simp [KOperand.ofBits, h, l]

@[simp] theorem KSrc.ofBits_bits (s : KSrc) : KSrc.ofBits s.bits = some s := by
  cases s with
  | k n => revert n; decide
  | a n => revert n; decide
  | tc => rfl
  | wdi => rfl
  | wdp => rfl
  | tok n => revert n; decide

@[simp] theorem AccessSize.ofBits_bits (s : AccessSize) : AccessSize.ofBits s.bits = some s := by cases s <;> rfl

@[simp] theorem wideOfBits_wideBits (w : Bool) : wideOfBits (wideBits w) = some w := by cases w <;> rfl

@[simp] theorem kbOfBits_kbBits (k : Option (Fin 16)) : kbOfBits (kbBits k) = k := by
  cases k with
  | none => rfl
  | some n => revert n; decide

@[simp] theorem FenceKind.ofBits_bits (k : FenceKind) : FenceKind.ofBits k.bits = some k := by cases k <;> rfl

@[simp] theorem AtomOp.ofBits_bits (o : AtomOp) : AtomOp.ofBits o.bits = some o := by cases o <;> rfl

@[simp] theorem TickSrc.ofBits_bits (s : TickSrc) : TickSrc.ofBits s.bits = some s := by cases s <;> rfl

end Sys2Proof
end

