-- ==== Sys2Proof/Laws/State.lean ====
section
/-!
SUPPORT. The small lemmas of State: what each named update leaves alone, one lemma per field per update, and what reading
gives after writing through tables, rings, contexts and elements.
-/

namespace Sys2Proof.Machine

open Sys2Proof

/-! ### Tables -/

@[simp] theorem tget_nil {α : Type} (k : Nat) (d : α) : tget ([] : Table α) k d = d := rfl

@[simp] theorem tget_tset_same {α : Type} (m : Table α) (k : Nat) (x d : α) : tget (tset m k x) k d = x := by
  induction m with
  | nil => simp [tset, tget]
  | cons e r ih =>
    obtain ⟨a, y⟩ := e
    simp only [tset]
    split
    · simp [tget]
    · split
      · simp [tget]
      · simp [tget, *]

@[simp] theorem tget_tset_ne {α : Type} (m : Table α) (j k : Nat) (x d : α) (h : j ≠ k) :
    tget (tset m k x) j d = tget m j d := by
  induction m with
  | nil => simp [tset, tget, Ne.symm h]
  | cons e r ih =>
    obtain ⟨a, y⟩ := e
    simp only [tset]
    split
    · subst_vars
      simp [tget, Ne.symm h]
    · split
      · simp [tget, Ne.symm h]
      · simp [tget, ih]

theorem tget_tset {α : Type} (m : Table α) (j k : Nat) (x d : α) :
    tget (tset m k x) j d = if j = k then x else tget m j d := by
  split
  · subst_vars
    simp
  · simp [*]

/-! ### What each update of the state leaves alone -/

@[simp] theorem State.setRing_tick (s : State) (g : Nat) (r : Ring) : (s.setRing g r).tick = s.tick := rfl
@[simp] theorem State.setRing_sub (s : State) (g : Nat) (r : Ring) : (s.setRing g r).sub = s.sub := rfl
@[simp] theorem State.setRing_agenda (s : State) (g : Nat) (r : Ring) : (s.setRing g r).agenda = s.agenda := rfl
@[simp] theorem State.setRing_inputs (s : State) (g : Nat) (r : Ring) : (s.setRing g r).inputs = s.inputs := rfl
@[simp] theorem State.setRing_focus (s : State) (g : Nat) (r : Ring) : (s.setRing g r).focus = s.focus := rfl
@[simp] theorem State.setRing_freeCtr (s : State) (g : Nat) (r : Ring) : (s.setRing g r).freeCtr = s.freeCtr := rfl
@[simp] theorem State.setRing_mem (s : State) (g : Nat) (r : Ring) : (s.setRing g r).mem = s.mem := rfl
@[simp] theorem State.setRing_shadow (s : State) (g : Nat) (r : Ring) : (s.setRing g r).shadow = s.shadow := rfl
@[simp] theorem State.setRing_poison (s : State) (g : Nat) (r : Ring) : (s.setRing g r).poison = s.poison := rfl
@[simp] theorem State.setRing_reqs (s : State) (g : Nat) (r : Ring) : (s.setRing g r).reqs = s.reqs := rfl
@[simp] theorem State.setRing_reqNext (s : State) (g : Nat) (r : Ring) : (s.setRing g r).reqNext = s.reqNext := rfl
@[simp] theorem State.setRing_copies (s : State) (g : Nat) (r : Ring) : (s.setRing g r).copies = s.copies := rfl
@[simp] theorem State.setRing_copyNext (s : State) (g : Nat) (r : Ring) : (s.setRing g r).copyNext = s.copyNext := rfl
@[simp] theorem State.setRing_decs (s : State) (g : Nat) (r : Ring) : (s.setRing g r).decs = s.decs := rfl
@[simp] theorem State.setRing_barUsed (s : State) (g : Nat) (r : Ring) : (s.setRing g r).barUsed = s.barUsed := rfl
@[simp] theorem State.setRing_colls (s : State) (g : Nat) (r : Ring) : (s.setRing g r).colls = s.colls := rfl
@[simp] theorem State.setRing_collFailed (s : State) (g : Nat) (r : Ring) : (s.setRing g r).collFailed = s.collFailed := rfl
@[simp] theorem State.setRing_egress (s : State) (g : Nat) (r : Ring) : (s.setRing g r).egress = s.egress := rfl
@[simp] theorem State.setRing_saved (s : State) (g : Nat) (r : Ring) : (s.setRing g r).saved = s.saved := rfl
@[simp] theorem State.setRing_dies (s : State) (g : Nat) (r : Ring) : (s.setRing g r).dies = s.dies := rfl
@[simp] theorem State.setRing_hub (s : State) (g : Nat) (r : Ring) : (s.setRing g r).hub = s.hub := rfl
@[simp] theorem State.setRing_aon (s : State) (g : Nat) (r : Ring) : (s.setRing g r).aon = s.aon := rfl

@[simp] theorem State.onRing_tick (s : State) (g : Nat) (f : Ring → Ring) : (s.onRing g f).tick = s.tick := rfl
@[simp] theorem State.onRing_sub (s : State) (g : Nat) (f : Ring → Ring) : (s.onRing g f).sub = s.sub := rfl
@[simp] theorem State.onRing_agenda (s : State) (g : Nat) (f : Ring → Ring) : (s.onRing g f).agenda = s.agenda := rfl
@[simp] theorem State.onRing_inputs (s : State) (g : Nat) (f : Ring → Ring) : (s.onRing g f).inputs = s.inputs := rfl
@[simp] theorem State.onRing_focus (s : State) (g : Nat) (f : Ring → Ring) : (s.onRing g f).focus = s.focus := rfl
@[simp] theorem State.onRing_freeCtr (s : State) (g : Nat) (f : Ring → Ring) : (s.onRing g f).freeCtr = s.freeCtr := rfl
@[simp] theorem State.onRing_mem (s : State) (g : Nat) (f : Ring → Ring) : (s.onRing g f).mem = s.mem := rfl
@[simp] theorem State.onRing_shadow (s : State) (g : Nat) (f : Ring → Ring) : (s.onRing g f).shadow = s.shadow := rfl
@[simp] theorem State.onRing_poison (s : State) (g : Nat) (f : Ring → Ring) : (s.onRing g f).poison = s.poison := rfl
@[simp] theorem State.onRing_reqs (s : State) (g : Nat) (f : Ring → Ring) : (s.onRing g f).reqs = s.reqs := rfl
@[simp] theorem State.onRing_reqNext (s : State) (g : Nat) (f : Ring → Ring) : (s.onRing g f).reqNext = s.reqNext := rfl
@[simp] theorem State.onRing_copies (s : State) (g : Nat) (f : Ring → Ring) : (s.onRing g f).copies = s.copies := rfl
@[simp] theorem State.onRing_copyNext (s : State) (g : Nat) (f : Ring → Ring) : (s.onRing g f).copyNext = s.copyNext := rfl
@[simp] theorem State.onRing_decs (s : State) (g : Nat) (f : Ring → Ring) : (s.onRing g f).decs = s.decs := rfl
@[simp] theorem State.onRing_barUsed (s : State) (g : Nat) (f : Ring → Ring) : (s.onRing g f).barUsed = s.barUsed := rfl
@[simp] theorem State.onRing_colls (s : State) (g : Nat) (f : Ring → Ring) : (s.onRing g f).colls = s.colls := rfl
@[simp] theorem State.onRing_collFailed (s : State) (g : Nat) (f : Ring → Ring) : (s.onRing g f).collFailed = s.collFailed := rfl
@[simp] theorem State.onRing_egress (s : State) (g : Nat) (f : Ring → Ring) : (s.onRing g f).egress = s.egress := rfl
@[simp] theorem State.onRing_saved (s : State) (g : Nat) (f : Ring → Ring) : (s.onRing g f).saved = s.saved := rfl
@[simp] theorem State.onRing_dies (s : State) (g : Nat) (f : Ring → Ring) : (s.onRing g f).dies = s.dies := rfl
@[simp] theorem State.onRing_hub (s : State) (g : Nat) (f : Ring → Ring) : (s.onRing g f).hub = s.hub := rfl
@[simp] theorem State.onRing_aon (s : State) (g : Nat) (f : Ring → Ring) : (s.onRing g f).aon = s.aon := rfl

@[simp] theorem State.onCtx_tick (s : State) (g : Nat) (f : Ctx → Ctx) : (s.onCtx g f).tick = s.tick := rfl
@[simp] theorem State.onCtx_sub (s : State) (g : Nat) (f : Ctx → Ctx) : (s.onCtx g f).sub = s.sub := rfl
@[simp] theorem State.onCtx_agenda (s : State) (g : Nat) (f : Ctx → Ctx) : (s.onCtx g f).agenda = s.agenda := rfl
@[simp] theorem State.onCtx_inputs (s : State) (g : Nat) (f : Ctx → Ctx) : (s.onCtx g f).inputs = s.inputs := rfl
@[simp] theorem State.onCtx_focus (s : State) (g : Nat) (f : Ctx → Ctx) : (s.onCtx g f).focus = s.focus := rfl
@[simp] theorem State.onCtx_freeCtr (s : State) (g : Nat) (f : Ctx → Ctx) : (s.onCtx g f).freeCtr = s.freeCtr := rfl
@[simp] theorem State.onCtx_mem (s : State) (g : Nat) (f : Ctx → Ctx) : (s.onCtx g f).mem = s.mem := rfl
@[simp] theorem State.onCtx_shadow (s : State) (g : Nat) (f : Ctx → Ctx) : (s.onCtx g f).shadow = s.shadow := rfl
@[simp] theorem State.onCtx_poison (s : State) (g : Nat) (f : Ctx → Ctx) : (s.onCtx g f).poison = s.poison := rfl
@[simp] theorem State.onCtx_reqs (s : State) (g : Nat) (f : Ctx → Ctx) : (s.onCtx g f).reqs = s.reqs := rfl
@[simp] theorem State.onCtx_reqNext (s : State) (g : Nat) (f : Ctx → Ctx) : (s.onCtx g f).reqNext = s.reqNext := rfl
@[simp] theorem State.onCtx_copies (s : State) (g : Nat) (f : Ctx → Ctx) : (s.onCtx g f).copies = s.copies := rfl
@[simp] theorem State.onCtx_copyNext (s : State) (g : Nat) (f : Ctx → Ctx) : (s.onCtx g f).copyNext = s.copyNext := rfl
@[simp] theorem State.onCtx_decs (s : State) (g : Nat) (f : Ctx → Ctx) : (s.onCtx g f).decs = s.decs := rfl
@[simp] theorem State.onCtx_barUsed (s : State) (g : Nat) (f : Ctx → Ctx) : (s.onCtx g f).barUsed = s.barUsed := rfl
@[simp] theorem State.onCtx_colls (s : State) (g : Nat) (f : Ctx → Ctx) : (s.onCtx g f).colls = s.colls := rfl
@[simp] theorem State.onCtx_collFailed (s : State) (g : Nat) (f : Ctx → Ctx) : (s.onCtx g f).collFailed = s.collFailed := rfl
@[simp] theorem State.onCtx_egress (s : State) (g : Nat) (f : Ctx → Ctx) : (s.onCtx g f).egress = s.egress := rfl
@[simp] theorem State.onCtx_saved (s : State) (g : Nat) (f : Ctx → Ctx) : (s.onCtx g f).saved = s.saved := rfl
@[simp] theorem State.onCtx_dies (s : State) (g : Nat) (f : Ctx → Ctx) : (s.onCtx g f).dies = s.dies := rfl
@[simp] theorem State.onCtx_hub (s : State) (g : Nat) (f : Ctx → Ctx) : (s.onCtx g f).hub = s.hub := rfl
@[simp] theorem State.onCtx_aon (s : State) (g : Nat) (f : Ctx → Ctx) : (s.onCtx g f).aon = s.aon := rfl

@[simp] theorem State.onElem_tick (s : State) (g ps k : Nat) (f : Element → Element) : (s.onElem g ps k f).tick = s.tick := rfl
@[simp] theorem State.onElem_sub (s : State) (g ps k : Nat) (f : Element → Element) : (s.onElem g ps k f).sub = s.sub := rfl
@[simp] theorem State.onElem_agenda (s : State) (g ps k : Nat) (f : Element → Element) : (s.onElem g ps k f).agenda = s.agenda := rfl
@[simp] theorem State.onElem_inputs (s : State) (g ps k : Nat) (f : Element → Element) : (s.onElem g ps k f).inputs = s.inputs := rfl
@[simp] theorem State.onElem_focus (s : State) (g ps k : Nat) (f : Element → Element) : (s.onElem g ps k f).focus = s.focus := rfl
@[simp] theorem State.onElem_freeCtr (s : State) (g ps k : Nat) (f : Element → Element) : (s.onElem g ps k f).freeCtr = s.freeCtr := rfl
@[simp] theorem State.onElem_mem (s : State) (g ps k : Nat) (f : Element → Element) : (s.onElem g ps k f).mem = s.mem := rfl
@[simp] theorem State.onElem_shadow (s : State) (g ps k : Nat) (f : Element → Element) : (s.onElem g ps k f).shadow = s.shadow := rfl
@[simp] theorem State.onElem_poison (s : State) (g ps k : Nat) (f : Element → Element) : (s.onElem g ps k f).poison = s.poison := rfl
@[simp] theorem State.onElem_reqs (s : State) (g ps k : Nat) (f : Element → Element) : (s.onElem g ps k f).reqs = s.reqs := rfl
@[simp] theorem State.onElem_reqNext (s : State) (g ps k : Nat) (f : Element → Element) : (s.onElem g ps k f).reqNext = s.reqNext := rfl
@[simp] theorem State.onElem_copies (s : State) (g ps k : Nat) (f : Element → Element) : (s.onElem g ps k f).copies = s.copies := rfl
@[simp] theorem State.onElem_copyNext (s : State) (g ps k : Nat) (f : Element → Element) : (s.onElem g ps k f).copyNext = s.copyNext := rfl
@[simp] theorem State.onElem_decs (s : State) (g ps k : Nat) (f : Element → Element) : (s.onElem g ps k f).decs = s.decs := rfl
@[simp] theorem State.onElem_barUsed (s : State) (g ps k : Nat) (f : Element → Element) : (s.onElem g ps k f).barUsed = s.barUsed := rfl
@[simp] theorem State.onElem_colls (s : State) (g ps k : Nat) (f : Element → Element) : (s.onElem g ps k f).colls = s.colls := rfl
@[simp] theorem State.onElem_collFailed (s : State) (g ps k : Nat) (f : Element → Element) : (s.onElem g ps k f).collFailed = s.collFailed := rfl
@[simp] theorem State.onElem_egress (s : State) (g ps k : Nat) (f : Element → Element) : (s.onElem g ps k f).egress = s.egress := rfl
@[simp] theorem State.onElem_saved (s : State) (g ps k : Nat) (f : Element → Element) : (s.onElem g ps k f).saved = s.saved := rfl
@[simp] theorem State.onElem_dies (s : State) (g ps k : Nat) (f : Element → Element) : (s.onElem g ps k f).dies = s.dies := rfl
@[simp] theorem State.onElem_hub (s : State) (g ps k : Nat) (f : Element → Element) : (s.onElem g ps k f).hub = s.hub := rfl
@[simp] theorem State.onElem_aon (s : State) (g ps k : Nat) (f : Element → Element) : (s.onElem g ps k f).aon = s.aon := rfl

@[simp] theorem State.onDie_tick (s : State) (d : Nat) (f : Die → Die) : (s.onDie d f).tick = s.tick := rfl
@[simp] theorem State.onDie_sub (s : State) (d : Nat) (f : Die → Die) : (s.onDie d f).sub = s.sub := rfl
@[simp] theorem State.onDie_agenda (s : State) (d : Nat) (f : Die → Die) : (s.onDie d f).agenda = s.agenda := rfl
@[simp] theorem State.onDie_inputs (s : State) (d : Nat) (f : Die → Die) : (s.onDie d f).inputs = s.inputs := rfl
@[simp] theorem State.onDie_focus (s : State) (d : Nat) (f : Die → Die) : (s.onDie d f).focus = s.focus := rfl
@[simp] theorem State.onDie_freeCtr (s : State) (d : Nat) (f : Die → Die) : (s.onDie d f).freeCtr = s.freeCtr := rfl
@[simp] theorem State.onDie_mem (s : State) (d : Nat) (f : Die → Die) : (s.onDie d f).mem = s.mem := rfl
@[simp] theorem State.onDie_shadow (s : State) (d : Nat) (f : Die → Die) : (s.onDie d f).shadow = s.shadow := rfl
@[simp] theorem State.onDie_poison (s : State) (d : Nat) (f : Die → Die) : (s.onDie d f).poison = s.poison := rfl
@[simp] theorem State.onDie_reqs (s : State) (d : Nat) (f : Die → Die) : (s.onDie d f).reqs = s.reqs := rfl
@[simp] theorem State.onDie_reqNext (s : State) (d : Nat) (f : Die → Die) : (s.onDie d f).reqNext = s.reqNext := rfl
@[simp] theorem State.onDie_copies (s : State) (d : Nat) (f : Die → Die) : (s.onDie d f).copies = s.copies := rfl
@[simp] theorem State.onDie_copyNext (s : State) (d : Nat) (f : Die → Die) : (s.onDie d f).copyNext = s.copyNext := rfl
@[simp] theorem State.onDie_decs (s : State) (d : Nat) (f : Die → Die) : (s.onDie d f).decs = s.decs := rfl
@[simp] theorem State.onDie_barUsed (s : State) (d : Nat) (f : Die → Die) : (s.onDie d f).barUsed = s.barUsed := rfl
@[simp] theorem State.onDie_colls (s : State) (d : Nat) (f : Die → Die) : (s.onDie d f).colls = s.colls := rfl
@[simp] theorem State.onDie_collFailed (s : State) (d : Nat) (f : Die → Die) : (s.onDie d f).collFailed = s.collFailed := rfl
@[simp] theorem State.onDie_egress (s : State) (d : Nat) (f : Die → Die) : (s.onDie d f).egress = s.egress := rfl
@[simp] theorem State.onDie_saved (s : State) (d : Nat) (f : Die → Die) : (s.onDie d f).saved = s.saved := rfl
@[simp] theorem State.onDie_rings (s : State) (d : Nat) (f : Die → Die) : (s.onDie d f).rings = s.rings := rfl
@[simp] theorem State.onDie_hub (s : State) (d : Nat) (f : Die → Die) : (s.onDie d f).hub = s.hub := rfl
@[simp] theorem State.onDie_aon (s : State) (d : Nat) (f : Die → Die) : (s.onDie d f).aon = s.aon := rfl

@[simp] theorem State.onHub_tick (s : State) (f : Hub → Hub) : (s.onHub f).tick = s.tick := rfl
@[simp] theorem State.onHub_sub (s : State) (f : Hub → Hub) : (s.onHub f).sub = s.sub := rfl
@[simp] theorem State.onHub_agenda (s : State) (f : Hub → Hub) : (s.onHub f).agenda = s.agenda := rfl
@[simp] theorem State.onHub_inputs (s : State) (f : Hub → Hub) : (s.onHub f).inputs = s.inputs := rfl
@[simp] theorem State.onHub_focus (s : State) (f : Hub → Hub) : (s.onHub f).focus = s.focus := rfl
@[simp] theorem State.onHub_freeCtr (s : State) (f : Hub → Hub) : (s.onHub f).freeCtr = s.freeCtr := rfl
@[simp] theorem State.onHub_mem (s : State) (f : Hub → Hub) : (s.onHub f).mem = s.mem := rfl
@[simp] theorem State.onHub_shadow (s : State) (f : Hub → Hub) : (s.onHub f).shadow = s.shadow := rfl
@[simp] theorem State.onHub_poison (s : State) (f : Hub → Hub) : (s.onHub f).poison = s.poison := rfl
@[simp] theorem State.onHub_reqs (s : State) (f : Hub → Hub) : (s.onHub f).reqs = s.reqs := rfl
@[simp] theorem State.onHub_reqNext (s : State) (f : Hub → Hub) : (s.onHub f).reqNext = s.reqNext := rfl
@[simp] theorem State.onHub_copies (s : State) (f : Hub → Hub) : (s.onHub f).copies = s.copies := rfl
@[simp] theorem State.onHub_copyNext (s : State) (f : Hub → Hub) : (s.onHub f).copyNext = s.copyNext := rfl
@[simp] theorem State.onHub_decs (s : State) (f : Hub → Hub) : (s.onHub f).decs = s.decs := rfl
@[simp] theorem State.onHub_barUsed (s : State) (f : Hub → Hub) : (s.onHub f).barUsed = s.barUsed := rfl
@[simp] theorem State.onHub_colls (s : State) (f : Hub → Hub) : (s.onHub f).colls = s.colls := rfl
@[simp] theorem State.onHub_collFailed (s : State) (f : Hub → Hub) : (s.onHub f).collFailed = s.collFailed := rfl
@[simp] theorem State.onHub_egress (s : State) (f : Hub → Hub) : (s.onHub f).egress = s.egress := rfl
@[simp] theorem State.onHub_saved (s : State) (f : Hub → Hub) : (s.onHub f).saved = s.saved := rfl
@[simp] theorem State.onHub_rings (s : State) (f : Hub → Hub) : (s.onHub f).rings = s.rings := rfl
@[simp] theorem State.onHub_dies (s : State) (f : Hub → Hub) : (s.onHub f).dies = s.dies := rfl
@[simp] theorem State.onHub_aon (s : State) (f : Hub → Hub) : (s.onHub f).aon = s.aon := rfl

@[simp] theorem State.onAon_tick (s : State) (f : Aon → Aon) : (s.onAon f).tick = s.tick := rfl
@[simp] theorem State.onAon_sub (s : State) (f : Aon → Aon) : (s.onAon f).sub = s.sub := rfl
@[simp] theorem State.onAon_agenda (s : State) (f : Aon → Aon) : (s.onAon f).agenda = s.agenda := rfl
@[simp] theorem State.onAon_inputs (s : State) (f : Aon → Aon) : (s.onAon f).inputs = s.inputs := rfl
@[simp] theorem State.onAon_focus (s : State) (f : Aon → Aon) : (s.onAon f).focus = s.focus := rfl
@[simp] theorem State.onAon_freeCtr (s : State) (f : Aon → Aon) : (s.onAon f).freeCtr = s.freeCtr := rfl
@[simp] theorem State.onAon_mem (s : State) (f : Aon → Aon) : (s.onAon f).mem = s.mem := rfl
@[simp] theorem State.onAon_shadow (s : State) (f : Aon → Aon) : (s.onAon f).shadow = s.shadow := rfl
@[simp] theorem State.onAon_poison (s : State) (f : Aon → Aon) : (s.onAon f).poison = s.poison := rfl
@[simp] theorem State.onAon_reqs (s : State) (f : Aon → Aon) : (s.onAon f).reqs = s.reqs := rfl
@[simp] theorem State.onAon_reqNext (s : State) (f : Aon → Aon) : (s.onAon f).reqNext = s.reqNext := rfl
@[simp] theorem State.onAon_copies (s : State) (f : Aon → Aon) : (s.onAon f).copies = s.copies := rfl
@[simp] theorem State.onAon_copyNext (s : State) (f : Aon → Aon) : (s.onAon f).copyNext = s.copyNext := rfl
@[simp] theorem State.onAon_decs (s : State) (f : Aon → Aon) : (s.onAon f).decs = s.decs := rfl
@[simp] theorem State.onAon_barUsed (s : State) (f : Aon → Aon) : (s.onAon f).barUsed = s.barUsed := rfl
@[simp] theorem State.onAon_colls (s : State) (f : Aon → Aon) : (s.onAon f).colls = s.colls := rfl
@[simp] theorem State.onAon_collFailed (s : State) (f : Aon → Aon) : (s.onAon f).collFailed = s.collFailed := rfl
@[simp] theorem State.onAon_egress (s : State) (f : Aon → Aon) : (s.onAon f).egress = s.egress := rfl
@[simp] theorem State.onAon_saved (s : State) (f : Aon → Aon) : (s.onAon f).saved = s.saved := rfl
@[simp] theorem State.onAon_rings (s : State) (f : Aon → Aon) : (s.onAon f).rings = s.rings := rfl
@[simp] theorem State.onAon_dies (s : State) (f : Aon → Aon) : (s.onAon f).dies = s.dies := rfl
@[simp] theorem State.onAon_hub (s : State) (f : Aon → Aon) : (s.onAon f).hub = s.hub := rfl

@[simp] theorem State.tickFree_tick (s : State) : (s.tickFree).tick = s.tick := rfl
@[simp] theorem State.tickFree_sub (s : State) : (s.tickFree).sub = s.sub := rfl
@[simp] theorem State.tickFree_agenda (s : State) : (s.tickFree).agenda = s.agenda := rfl
@[simp] theorem State.tickFree_inputs (s : State) : (s.tickFree).inputs = s.inputs := rfl
@[simp] theorem State.tickFree_focus (s : State) : (s.tickFree).focus = s.focus := rfl
@[simp] theorem State.tickFree_mem (s : State) : (s.tickFree).mem = s.mem := rfl
@[simp] theorem State.tickFree_shadow (s : State) : (s.tickFree).shadow = s.shadow := rfl
@[simp] theorem State.tickFree_poison (s : State) : (s.tickFree).poison = s.poison := rfl
@[simp] theorem State.tickFree_reqs (s : State) : (s.tickFree).reqs = s.reqs := rfl
@[simp] theorem State.tickFree_reqNext (s : State) : (s.tickFree).reqNext = s.reqNext := rfl
@[simp] theorem State.tickFree_copies (s : State) : (s.tickFree).copies = s.copies := rfl
@[simp] theorem State.tickFree_copyNext (s : State) : (s.tickFree).copyNext = s.copyNext := rfl
@[simp] theorem State.tickFree_decs (s : State) : (s.tickFree).decs = s.decs := rfl
@[simp] theorem State.tickFree_barUsed (s : State) : (s.tickFree).barUsed = s.barUsed := rfl
@[simp] theorem State.tickFree_colls (s : State) : (s.tickFree).colls = s.colls := rfl
@[simp] theorem State.tickFree_collFailed (s : State) : (s.tickFree).collFailed = s.collFailed := rfl
@[simp] theorem State.tickFree_egress (s : State) : (s.tickFree).egress = s.egress := rfl
@[simp] theorem State.tickFree_saved (s : State) : (s.tickFree).saved = s.saved := rfl
@[simp] theorem State.tickFree_rings (s : State) : (s.tickFree).rings = s.rings := rfl
@[simp] theorem State.tickFree_dies (s : State) : (s.tickFree).dies = s.dies := rfl
@[simp] theorem State.tickFree_hub (s : State) : (s.tickFree).hub = s.hub := rfl
@[simp] theorem State.tickFree_aon (s : State) : (s.tickFree).aon = s.aon := rfl

@[simp] theorem State.cut_tick (s : State) (g : Nat) : (s.cut g).tick = s.tick := rfl
@[simp] theorem State.cut_sub (s : State) (g : Nat) : (s.cut g).sub = s.sub := rfl
@[simp] theorem State.cut_inputs (s : State) (g : Nat) : (s.cut g).inputs = s.inputs := rfl
@[simp] theorem State.cut_focus (s : State) (g : Nat) : (s.cut g).focus = s.focus := rfl
@[simp] theorem State.cut_freeCtr (s : State) (g : Nat) : (s.cut g).freeCtr = s.freeCtr := rfl
@[simp] theorem State.cut_mem (s : State) (g : Nat) : (s.cut g).mem = s.mem := rfl
@[simp] theorem State.cut_shadow (s : State) (g : Nat) : (s.cut g).shadow = s.shadow := rfl
@[simp] theorem State.cut_poison (s : State) (g : Nat) : (s.cut g).poison = s.poison := rfl
@[simp] theorem State.cut_reqs (s : State) (g : Nat) : (s.cut g).reqs = s.reqs := rfl
@[simp] theorem State.cut_reqNext (s : State) (g : Nat) : (s.cut g).reqNext = s.reqNext := rfl
@[simp] theorem State.cut_copies (s : State) (g : Nat) : (s.cut g).copies = s.copies := rfl
@[simp] theorem State.cut_copyNext (s : State) (g : Nat) : (s.cut g).copyNext = s.copyNext := rfl
@[simp] theorem State.cut_decs (s : State) (g : Nat) : (s.cut g).decs = s.decs := rfl
@[simp] theorem State.cut_barUsed (s : State) (g : Nat) : (s.cut g).barUsed = s.barUsed := rfl
@[simp] theorem State.cut_colls (s : State) (g : Nat) : (s.cut g).colls = s.colls := rfl
@[simp] theorem State.cut_collFailed (s : State) (g : Nat) : (s.cut g).collFailed = s.collFailed := rfl
@[simp] theorem State.cut_egress (s : State) (g : Nat) : (s.cut g).egress = s.egress := rfl
@[simp] theorem State.cut_saved (s : State) (g : Nat) : (s.cut g).saved = s.saved := rfl
@[simp] theorem State.cut_rings (s : State) (g : Nat) : (s.cut g).rings = s.rings := rfl
@[simp] theorem State.cut_dies (s : State) (g : Nat) : (s.cut g).dies = s.dies := rfl
@[simp] theorem State.cut_hub (s : State) (g : Nat) : (s.cut g).hub = s.hub := rfl
@[simp] theorem State.cut_aon (s : State) (g : Nat) : (s.cut g).aon = s.aon := rfl

/-! ### Reading after writing -/

@[simp] theorem State.ring_setRing (s : State) (g : Nat) (r : Ring) : (s.setRing g r).ring g = r := by
  simp [State.ring, State.setRing]

@[simp] theorem State.ring_setRing_ne (s : State) (g h : Nat) (r : Ring) (n : h ≠ g) : (s.setRing g r).ring h = s.ring h := by
  simp [State.ring, State.setRing, n]

@[simp] theorem State.ring_onRing (s : State) (g : Nat) (f : Ring → Ring) : (s.onRing g f).ring g = f (s.ring g) := by
  simp [State.onRing]

@[simp] theorem State.ring_onRing_ne (s : State) (g h : Nat) (f : Ring → Ring) (n : h ≠ g) :
    (s.onRing g f).ring h = s.ring h := by
  simp [State.onRing, n]

@[simp] theorem State.ctx_onRing (s : State) (g : Nat) (f : Ring → Ring) : (s.onRing g f).ctx g = (f (s.ring g)).ctx := by
  simp [State.ctx]

@[simp] theorem State.ctx_onRing_ne (s : State) (g h : Nat) (f : Ring → Ring) (n : h ≠ g) :
    (s.onRing g f).ctx h = s.ctx h := by
  simp [State.ctx, n]

@[simp] theorem State.ring_onCtx (s : State) (g : Nat) (f : Ctx → Ctx) :
    (s.onCtx g f).ring g = { s.ring g with ctx := f (s.ctx g) } := by
  simp [State.onCtx, State.ctx]

@[simp] theorem State.ring_onCtx_ne (s : State) (g h : Nat) (f : Ctx → Ctx) (n : h ≠ g) :
    (s.onCtx g f).ring h = s.ring h := by
  simp [State.onCtx, n]

@[simp] theorem State.ctx_onCtx (s : State) (g : Nat) (f : Ctx → Ctx) : (s.onCtx g f).ctx g = f (s.ctx g) := by
  simp [State.ctx]

@[simp] theorem State.ctx_onCtx_ne (s : State) (g h : Nat) (f : Ctx → Ctx) (n : h ≠ g) :
    (s.onCtx g f).ctx h = s.ctx h := by
  simp [State.ctx, n]

@[simp] theorem State.die_onDie (s : State) (d : Nat) (f : Die → Die) : (s.onDie d f).die d = f (s.die d) := by
  simp [State.die, State.onDie]

@[simp] theorem State.die_onDie_ne (s : State) (d e : Nat) (f : Die → Die) (n : e ≠ d) :
    (s.onDie d f).die e = s.die e := by
  simp [State.die, State.onDie, n]

@[simp] theorem State.hub_onHub (s : State) (f : Hub → Hub) : (s.onHub f).hub = f s.hub := rfl
@[simp] theorem State.aon_onAon (s : State) (f : Aon → Aon) : (s.onAon f).aon = f s.aon := rfl
@[simp] theorem State.freeCtr_tickFree (s : State) : s.tickFree.freeCtr = s.freeCtr + 1 := rfl
@[simp] theorem State.ring_onHub (s : State) (f : Hub → Hub) (g : Nat) : (s.onHub f).ring g = s.ring g := rfl
@[simp] theorem State.ring_onAon (s : State) (f : Aon → Aon) (g : Nat) : (s.onAon f).ring g = s.ring g := rfl
@[simp] theorem State.ring_onDie (s : State) (d : Nat) (f : Die → Die) (g : Nat) : (s.onDie d f).ring g = s.ring g := rfl
@[simp] theorem State.ring_tickFree (s : State) (g : Nat) : s.tickFree.ring g = s.ring g := rfl
@[simp] theorem State.ring_cut (s : State) (h g : Nat) : (s.cut h).ring g = s.ring g := rfl
@[simp] theorem State.ctx_onHub (s : State) (f : Hub → Hub) (g : Nat) : (s.onHub f).ctx g = s.ctx g := rfl
@[simp] theorem State.ctx_onAon (s : State) (f : Aon → Aon) (g : Nat) : (s.onAon f).ctx g = s.ctx g := rfl
@[simp] theorem State.ctx_onDie (s : State) (d : Nat) (f : Die → Die) (g : Nat) : (s.onDie d f).ctx g = s.ctx g := rfl
@[simp] theorem State.ctx_tickFree (s : State) (g : Nat) : s.tickFree.ctx g = s.ctx g := rfl
@[simp] theorem State.ctx_cut (s : State) (h g : Nat) : (s.cut h).ctx g = s.ctx g := rfl
@[simp] theorem State.die_onRing (s : State) (g : Nat) (f : Ring → Ring) (d : Nat) : (s.onRing g f).die d = s.die d := rfl
@[simp] theorem State.die_onHub (s : State) (f : Hub → Hub) (d : Nat) : (s.onHub f).die d = s.die d := rfl

@[simp] theorem Stripe.elem_setElem (x : Stripe) (k : Nat) (e : Element) : (x.setElem k e).elem k = e := by
  simp [Stripe.elem, Stripe.setElem]

@[simp] theorem Stripe.elem_setElem_ne (x : Stripe) (j k : Nat) (e : Element) (n : j ≠ k) :
    (x.setElem k e).elem j = x.elem j := by
  simp [Stripe.elem, Stripe.setElem, n]

@[simp] theorem Ring.stripe_setStripe (r : Ring) (ps : Nat) (x : Stripe) : (r.setStripe ps x).stripe ps = x := by
  simp [Ring.stripe, Ring.setStripe]

@[simp] theorem Ring.stripe_setStripe_ne (r : Ring) (ps qs : Nat) (x : Stripe) (n : qs ≠ ps) :
    (r.setStripe ps x).stripe qs = r.stripe qs := by
  simp [Ring.stripe, Ring.setStripe, n]

@[simp] theorem Ring.elem_onElem (r : Ring) (ps k : Nat) (f : Element → Element) :
    (r.onElem ps k f).elem ps k = f (r.elem ps k) := by
  simp [Ring.onElem, Ring.setElem, Ring.elem]

/-- An update of one element leaves every other one alone. -/
theorem Ring.elem_onElem_ne (r : Ring) (ps k qs j : Nat) (f : Element → Element) (n : ¬(qs = ps ∧ j = k)) :
    (r.onElem ps k f).elem qs j = r.elem qs j := by
  by_cases h : qs = ps
  · subst h
    have : j ≠ k := fun e => n ⟨rfl, e⟩
    simp [Ring.onElem, Ring.setElem, Ring.elem, this]
  · simp [Ring.onElem, Ring.setElem, Ring.elem, h]

@[simp] theorem State.elem_onElem (s : State) (g ps k : Nat) (f : Element → Element) :
    (s.onElem g ps k f).elem g ps k = f (s.elem g ps k) := by
  simp [State.elem, State.onElem]

/-- An update of one element leaves every other one of the module alone. -/
theorem State.elem_onElem_ne (s : State) (g ps k h qs j : Nat) (f : Element → Element) (n : ¬(h = g ∧ qs = ps ∧ j = k)) :
    (s.onElem g ps k f).elem h qs j = s.elem h qs j := by
  by_cases e : h = g
  · subst e
    have : ¬(qs = ps ∧ j = k) := fun x => n ⟨rfl, x⟩
    simp [State.elem, State.onElem, Ring.elem_onElem_ne _ _ _ _ _ _ this]
  · simp [State.elem, State.onElem, e]

@[simp] theorem Ring.ctx_onElem (r : Ring) (ps k : Nat) (f : Element → Element) : (r.onElem ps k f).ctx = r.ctx := rfl
@[simp] theorem Ring.spad_onElem (r : Ring) (ps k : Nat) (f : Element → Element) : (r.onElem ps k f).spad = r.spad := rfl
@[simp] theorem Ring.qcfg_onElem (r : Ring) (ps k : Nat) (f : Element → Element) : (r.onElem ps k f).qcfg = r.qcfg := rfl
@[simp] theorem Ring.qst_onElem (r : Ring) (ps k : Nat) (f : Element → Element) : (r.onElem ps k f).qst = r.qst := rfl

@[simp] theorem State.ctx_onElem (s : State) (g ps k : Nat) (f : Element → Element) (h : Nat) :
    (s.onElem g ps k f).ctx h = s.ctx h := by
  by_cases e : h = g
  · subst e
    simp [State.onElem, State.ctx]
  · simp [State.onElem, e]

/-! ### Registers of the sequencer -/

@[simp] theorem Ctx.kreg_setK (c : Ctx) (n : Nat) (x : BitVec 48) : (c.setK n x).kreg n = x := by simp [Ctx.kreg, Ctx.setK]
@[simp] theorem Ctx.kreg_setK_ne (c : Ctx) (n m : Nat) (x : BitVec 48) (h : m ≠ n) : (c.setK n x).kreg m = c.kreg m := by
  simp [Ctx.kreg, Ctx.setK, h]
@[simp] theorem Ctx.areg_setA (c : Ctx) (n : Nat) (x : BitVec 64) : (c.setA n x).areg n = x := by simp [Ctx.areg, Ctx.setA]
@[simp] theorem Ctx.areg_setA_ne (c : Ctx) (n m : Nat) (x : BitVec 64) (h : m ≠ n) : (c.setA n x).areg m = c.areg m := by
  simp [Ctx.areg, Ctx.setA, h]
@[simp] theorem Ctx.token_setTok (c : Ctx) (n x : Nat) : (c.setTok n x).token n = x := by simp [Ctx.token, Ctx.setTok]
@[simp] theorem Ctx.stream_setStream (c : Ctx) (n : Nat) (x : Stream) : (c.setStream n x).stream n = x := by
  simp [Ctx.stream, Ctx.setStream]
@[simp] theorem Ctx.stream_setStream_ne (c : Ctx) (n m : Nat) (x : Stream) (h : m ≠ n) : (c.setStream n x).stream m = c.stream m := by
  simp [Ctx.stream, Ctx.setStream, h]
@[simp] theorem Ctx.chan_setChan (c : Ctx) (n : Nat) (x : Chan) : (c.setChan n x).chan n = x := by simp [Ctx.chan, Ctx.setChan]
@[simp] theorem Ctx.evCount_setEv (c : Ctx) (n v : Nat) : (c.setEv n v).evCount n = v := by simp [Ctx.evCount, Ctx.setEv]

@[simp] theorem Ctx.setK_bind (c : Ctx) (n : Nat) (x : BitVec 48) : (c.setK n x).bind = c.bind := rfl
@[simp] theorem Ctx.setK_hdr (c : Ctx) (n : Nat) (x : BitVec 48) : (c.setK n x).hdr = c.hdr := rfl
@[simp] theorem Ctx.setK_directory (c : Ctx) (n : Nat) (x : BitVec 48) : (c.setK n x).directory = c.directory := rfl
@[simp] theorem Ctx.setK_stable (c : Ctx) (n : Nat) (x : BitVec 48) : (c.setK n x).stable = c.stable := rfl
@[simp] theorem Ctx.setK_a (c : Ctx) (n : Nat) (x : BitVec 48) : (c.setK n x).a = c.a := rfl
@[simp] theorem Ctx.setK_tok (c : Ctx) (n : Nat) (x : BitVec 48) : (c.setK n x).tok = c.tok := rfl
@[simp] theorem Ctx.setK_wdi (c : Ctx) (n : Nat) (x : BitVec 48) : (c.setK n x).wdi = c.wdi := rfl
@[simp] theorem Ctx.setK_wdp (c : Ctx) (n : Nat) (x : BitVec 48) : (c.setK n x).wdp = c.wdp := rfl
@[simp] theorem Ctx.setK_wdone (c : Ctx) (n : Nat) (x : BitVec 48) : (c.setK n x).wdone = c.wdone := rfl
@[simp] theorem Ctx.setK_rstack (c : Ctx) (n : Nat) (x : BitVec 48) : (c.setK n x).rstack = c.rstack := rfl
@[simp] theorem Ctx.setK_si (c : Ctx) (n : Nat) (x : BitVec 48) : (c.setK n x).si = c.si := rfl
@[simp] theorem Ctx.setK_tc (c : Ctx) (n : Nat) (x : BitVec 48) : (c.setK n x).tc = c.tc := rfl
@[simp] theorem Ctx.setK_begun (c : Ctx) (n : Nat) (x : BitVec 48) : (c.setK n x).begun = c.begun := rfl
@[simp] theorem Ctx.setK_rcyc (c : Ctx) (n : Nat) (x : BitVec 48) : (c.setK n x).rcyc = c.rcyc := rfl
@[simp] theorem Ctx.setK_startq (c : Ctx) (n : Nat) (x : BitVec 48) : (c.setK n x).startq = c.startq := rfl
@[simp] theorem Ctx.setK_wait (c : Ctx) (n : Nat) (x : BitVec 48) : (c.setK n x).wait = c.wait := rfl
@[simp] theorem Ctx.setK_sl (c : Ctx) (n : Nat) (x : BitVec 48) : (c.setK n x).sl = c.sl := rfl
@[simp] theorem Ctx.setK_fslots (c : Ctx) (n : Nat) (x : BitVec 48) : (c.setK n x).fslots = c.fslots := rfl
@[simp] theorem Ctx.setK_fslotNew (c : Ctx) (n : Nat) (x : BitVec 48) : (c.setK n x).fslotNew = c.fslotNew := rfl
@[simp] theorem Ctx.setK_flagw (c : Ctx) (n : Nat) (x : BitVec 48) : (c.setK n x).flagw = c.flagw := rfl
@[simp] theorem Ctx.setK_flagwNew (c : Ctx) (n : Nat) (x : BitVec 48) : (c.setK n x).flagwNew = c.flagwNew := rfl
@[simp] theorem Ctx.setK_savedAt (c : Ctx) (n : Nat) (x : BitVec 48) : (c.setK n x).savedAt = c.savedAt := rfl
@[simp] theorem Ctx.setK_ev (c : Ctx) (n : Nat) (x : BitVec 48) : (c.setK n x).ev = c.ev := rfl
@[simp] theorem Ctx.setK_runs (c : Ctx) (n : Nat) (x : BitVec 48) : (c.setK n x).runs = c.runs := rfl
@[simp] theorem Ctx.setK_runSi (c : Ctx) (n : Nat) (x : BitVec 48) : (c.setK n x).runSi = c.runSi := rfl
@[simp] theorem Ctx.setK_ksel (c : Ctx) (n : Nat) (x : BitVec 48) : (c.setK n x).ksel = c.ksel := rfl
@[simp] theorem Ctx.setK_hoistNext (c : Ctx) (n : Nat) (x : BitVec 48) : (c.setK n x).hoistNext = c.hoistNext := rfl
@[simp] theorem Ctx.setK_hlog (c : Ctx) (n : Nat) (x : BitVec 48) : (c.setK n x).hlog = c.hlog := rfl
@[simp] theorem Ctx.setK_hoisted (c : Ctx) (n : Nat) (x : BitVec 48) : (c.setK n x).hoisted = c.hoisted := rfl
@[simp] theorem Ctx.setK_hoisting (c : Ctx) (n : Nat) (x : BitVec 48) : (c.setK n x).hoisting = c.hoisting := rfl
@[simp] theorem Ctx.setK_waves (c : Ctx) (n : Nat) (x : BitVec 48) : (c.setK n x).waves = c.waves := rfl
@[simp] theorem Ctx.setK_cache (c : Ctx) (n : Nat) (x : BitVec 48) : (c.setK n x).cache = c.cache := rfl
@[simp] theorem Ctx.setK_cacheUse (c : Ctx) (n : Nat) (x : BitVec 48) : (c.setK n x).cacheUse = c.cacheUse := rfl
@[simp] theorem Ctx.setK_cacheNo (c : Ctx) (n : Nat) (x : BitVec 48) : (c.setK n x).cacheNo = c.cacheNo := rfl
@[simp] theorem Ctx.setK_fetching (c : Ctx) (n : Nat) (x : BitVec 48) : (c.setK n x).fetching = c.fetching := rfl
@[simp] theorem Ctx.setK_fetchBad (c : Ctx) (n : Nat) (x : BitVec 48) : (c.setK n x).fetchBad = c.fetchBad := rfl
@[simp] theorem Ctx.setK_fetchStop (c : Ctx) (n : Nat) (x : BitVec 48) : (c.setK n x).fetchStop = c.fetchStop := rfl
@[simp] theorem Ctx.setK_badSlots (c : Ctx) (n : Nat) (x : BitVec 48) : (c.setK n x).badSlots = c.badSlots := rfl
@[simp] theorem Ctx.setK_streams (c : Ctx) (n : Nat) (x : BitVec 48) : (c.setK n x).streams = c.streams := rfl
@[simp] theorem Ctx.setK_chans (c : Ctx) (n : Nat) (x : BitVec 48) : (c.setK n x).chans = c.chans := rfl
@[simp] theorem Ctx.setK_regions (c : Ctx) (n : Nat) (x : BitVec 48) : (c.setK n x).regions = c.regions := rfl
@[simp] theorem Ctx.setK_unwinding (c : Ctx) (n : Nat) (x : BitVec 48) : (c.setK n x).unwinding = c.unwinding := rfl
@[simp] theorem Ctx.setK_trigRec (c : Ctx) (n : Nat) (x : BitVec 48) : (c.setK n x).trigRec = c.trigRec := rfl
@[simp] theorem Ctx.setK_thandler (c : Ctx) (n : Nat) (x : BitVec 48) : (c.setK n x).thandler = c.thandler := rfl
@[simp] theorem Ctx.setK_thNotice (c : Ctx) (n : Nat) (x : BitVec 48) : (c.setK n x).thNotice = c.thNotice := rfl
@[simp] theorem Ctx.setK_wdcount (c : Ctx) (n : Nat) (x : BitVec 48) : (c.setK n x).wdcount = c.wdcount := rfl
@[simp] theorem Ctx.setK_qcount (c : Ctx) (n : Nat) (x : BitVec 48) : (c.setK n x).qcount = c.qcount := rfl
@[simp] theorem Ctx.setK_collCount (c : Ctx) (n : Nat) (x : BitVec 48) : (c.setK n x).collCount = c.collCount := rfl
@[simp] theorem Ctx.setK_rwin (c : Ctx) (n : Nat) (x : BitVec 48) : (c.setK n x).rwin = c.rwin := rfl
@[simp] theorem Ctx.setK_dividers (c : Ctx) (n : Nat) (x : BitVec 48) : (c.setK n x).dividers = c.dividers := rfl
@[simp] theorem Ctx.setK_ending (c : Ctx) (n : Nat) (x : BitVec 48) : (c.setK n x).ending = c.ending := rfl
@[simp] theorem Ctx.setK_draining (c : Ctx) (n : Nat) (x : BitVec 48) : (c.setK n x).draining = c.draining := rfl
@[simp] theorem Ctx.setK_ended (c : Ctx) (n : Nat) (x : BitVec 48) : (c.setK n x).ended = c.ended := rfl
@[simp] theorem Ctx.setK_fault (c : Ctx) (n : Nat) (x : BitVec 48) : (c.setK n x).fault = c.fault := rfl
@[simp] theorem Ctx.setK_faultPref (c : Ctx) (n : Nat) (x : BitVec 48) : (c.setK n x).faultPref = c.faultPref := rfl
@[simp] theorem Ctx.setK_killed (c : Ctx) (n : Nat) (x : BitVec 48) : (c.setK n x).killed = c.killed := rfl
@[simp] theorem Ctx.setK_audOut (c : Ctx) (n : Nat) (x : BitVec 48) : (c.setK n x).audOut = c.audOut := rfl
@[simp] theorem Ctx.setK_audState (c : Ctx) (n : Nat) (x : BitVec 48) : (c.setK n x).audState = c.audState := rfl
@[simp] theorem Ctx.setK_audFlags (c : Ctx) (n : Nat) (x : BitVec 48) : (c.setK n x).audFlags = c.audFlags := rfl
@[simp] theorem Ctx.setK_audHoist (c : Ctx) (n : Nat) (x : BitVec 48) : (c.setK n x).audHoist = c.audHoist := rfl
@[simp] theorem Ctx.setK_audIn (c : Ctx) (n : Nat) (x : BitVec 48) : (c.setK n x).audIn = c.audIn := rfl
@[simp] theorem Ctx.setK_brkResume (c : Ctx) (n : Nat) (x : BitVec 48) : (c.setK n x).brkResume = c.brkResume := rfl
@[simp] theorem Ctx.setK_answer (c : Ctx) (n : Nat) (x : BitVec 48) : (c.setK n x).answer = c.answer := rfl
@[simp] theorem Ctx.setK_yielded (c : Ctx) (n : Nat) (x : BitVec 48) : (c.setK n x).yielded = c.yielded := rfl
@[simp] theorem Ctx.setK_replay (c : Ctx) (n : Nat) (x : BitVec 48) : (c.setK n x).replay = c.replay := rfl

@[simp] theorem Ctx.setA_bind (c : Ctx) (n : Nat) (x : BitVec 64) : (c.setA n x).bind = c.bind := rfl
@[simp] theorem Ctx.setA_hdr (c : Ctx) (n : Nat) (x : BitVec 64) : (c.setA n x).hdr = c.hdr := rfl
@[simp] theorem Ctx.setA_directory (c : Ctx) (n : Nat) (x : BitVec 64) : (c.setA n x).directory = c.directory := rfl
@[simp] theorem Ctx.setA_stable (c : Ctx) (n : Nat) (x : BitVec 64) : (c.setA n x).stable = c.stable := rfl
@[simp] theorem Ctx.setA_k (c : Ctx) (n : Nat) (x : BitVec 64) : (c.setA n x).k = c.k := rfl
@[simp] theorem Ctx.setA_tok (c : Ctx) (n : Nat) (x : BitVec 64) : (c.setA n x).tok = c.tok := rfl
@[simp] theorem Ctx.setA_wdi (c : Ctx) (n : Nat) (x : BitVec 64) : (c.setA n x).wdi = c.wdi := rfl
@[simp] theorem Ctx.setA_wdp (c : Ctx) (n : Nat) (x : BitVec 64) : (c.setA n x).wdp = c.wdp := rfl
@[simp] theorem Ctx.setA_wdone (c : Ctx) (n : Nat) (x : BitVec 64) : (c.setA n x).wdone = c.wdone := rfl
@[simp] theorem Ctx.setA_rstack (c : Ctx) (n : Nat) (x : BitVec 64) : (c.setA n x).rstack = c.rstack := rfl
@[simp] theorem Ctx.setA_si (c : Ctx) (n : Nat) (x : BitVec 64) : (c.setA n x).si = c.si := rfl
@[simp] theorem Ctx.setA_tc (c : Ctx) (n : Nat) (x : BitVec 64) : (c.setA n x).tc = c.tc := rfl
@[simp] theorem Ctx.setA_begun (c : Ctx) (n : Nat) (x : BitVec 64) : (c.setA n x).begun = c.begun := rfl
@[simp] theorem Ctx.setA_rcyc (c : Ctx) (n : Nat) (x : BitVec 64) : (c.setA n x).rcyc = c.rcyc := rfl
@[simp] theorem Ctx.setA_startq (c : Ctx) (n : Nat) (x : BitVec 64) : (c.setA n x).startq = c.startq := rfl
@[simp] theorem Ctx.setA_wait (c : Ctx) (n : Nat) (x : BitVec 64) : (c.setA n x).wait = c.wait := rfl
@[simp] theorem Ctx.setA_sl (c : Ctx) (n : Nat) (x : BitVec 64) : (c.setA n x).sl = c.sl := rfl
@[simp] theorem Ctx.setA_fslots (c : Ctx) (n : Nat) (x : BitVec 64) : (c.setA n x).fslots = c.fslots := rfl
@[simp] theorem Ctx.setA_fslotNew (c : Ctx) (n : Nat) (x : BitVec 64) : (c.setA n x).fslotNew = c.fslotNew := rfl
@[simp] theorem Ctx.setA_flagw (c : Ctx) (n : Nat) (x : BitVec 64) : (c.setA n x).flagw = c.flagw := rfl
@[simp] theorem Ctx.setA_flagwNew (c : Ctx) (n : Nat) (x : BitVec 64) : (c.setA n x).flagwNew = c.flagwNew := rfl
@[simp] theorem Ctx.setA_savedAt (c : Ctx) (n : Nat) (x : BitVec 64) : (c.setA n x).savedAt = c.savedAt := rfl
@[simp] theorem Ctx.setA_ev (c : Ctx) (n : Nat) (x : BitVec 64) : (c.setA n x).ev = c.ev := rfl
@[simp] theorem Ctx.setA_runs (c : Ctx) (n : Nat) (x : BitVec 64) : (c.setA n x).runs = c.runs := rfl
@[simp] theorem Ctx.setA_runSi (c : Ctx) (n : Nat) (x : BitVec 64) : (c.setA n x).runSi = c.runSi := rfl
@[simp] theorem Ctx.setA_ksel (c : Ctx) (n : Nat) (x : BitVec 64) : (c.setA n x).ksel = c.ksel := rfl
@[simp] theorem Ctx.setA_hoistNext (c : Ctx) (n : Nat) (x : BitVec 64) : (c.setA n x).hoistNext = c.hoistNext := rfl
@[simp] theorem Ctx.setA_hlog (c : Ctx) (n : Nat) (x : BitVec 64) : (c.setA n x).hlog = c.hlog := rfl
@[simp] theorem Ctx.setA_hoisted (c : Ctx) (n : Nat) (x : BitVec 64) : (c.setA n x).hoisted = c.hoisted := rfl
@[simp] theorem Ctx.setA_hoisting (c : Ctx) (n : Nat) (x : BitVec 64) : (c.setA n x).hoisting = c.hoisting := rfl
@[simp] theorem Ctx.setA_waves (c : Ctx) (n : Nat) (x : BitVec 64) : (c.setA n x).waves = c.waves := rfl
@[simp] theorem Ctx.setA_cache (c : Ctx) (n : Nat) (x : BitVec 64) : (c.setA n x).cache = c.cache := rfl
@[simp] theorem Ctx.setA_cacheUse (c : Ctx) (n : Nat) (x : BitVec 64) : (c.setA n x).cacheUse = c.cacheUse := rfl
@[simp] theorem Ctx.setA_cacheNo (c : Ctx) (n : Nat) (x : BitVec 64) : (c.setA n x).cacheNo = c.cacheNo := rfl
@[simp] theorem Ctx.setA_fetching (c : Ctx) (n : Nat) (x : BitVec 64) : (c.setA n x).fetching = c.fetching := rfl
@[simp] theorem Ctx.setA_fetchBad (c : Ctx) (n : Nat) (x : BitVec 64) : (c.setA n x).fetchBad = c.fetchBad := rfl
@[simp] theorem Ctx.setA_fetchStop (c : Ctx) (n : Nat) (x : BitVec 64) : (c.setA n x).fetchStop = c.fetchStop := rfl
@[simp] theorem Ctx.setA_badSlots (c : Ctx) (n : Nat) (x : BitVec 64) : (c.setA n x).badSlots = c.badSlots := rfl
@[simp] theorem Ctx.setA_streams (c : Ctx) (n : Nat) (x : BitVec 64) : (c.setA n x).streams = c.streams := rfl
@[simp] theorem Ctx.setA_chans (c : Ctx) (n : Nat) (x : BitVec 64) : (c.setA n x).chans = c.chans := rfl
@[simp] theorem Ctx.setA_regions (c : Ctx) (n : Nat) (x : BitVec 64) : (c.setA n x).regions = c.regions := rfl
@[simp] theorem Ctx.setA_unwinding (c : Ctx) (n : Nat) (x : BitVec 64) : (c.setA n x).unwinding = c.unwinding := rfl
@[simp] theorem Ctx.setA_trigRec (c : Ctx) (n : Nat) (x : BitVec 64) : (c.setA n x).trigRec = c.trigRec := rfl
@[simp] theorem Ctx.setA_thandler (c : Ctx) (n : Nat) (x : BitVec 64) : (c.setA n x).thandler = c.thandler := rfl
@[simp] theorem Ctx.setA_thNotice (c : Ctx) (n : Nat) (x : BitVec 64) : (c.setA n x).thNotice = c.thNotice := rfl
@[simp] theorem Ctx.setA_wdcount (c : Ctx) (n : Nat) (x : BitVec 64) : (c.setA n x).wdcount = c.wdcount := rfl
@[simp] theorem Ctx.setA_qcount (c : Ctx) (n : Nat) (x : BitVec 64) : (c.setA n x).qcount = c.qcount := rfl
@[simp] theorem Ctx.setA_collCount (c : Ctx) (n : Nat) (x : BitVec 64) : (c.setA n x).collCount = c.collCount := rfl
@[simp] theorem Ctx.setA_rwin (c : Ctx) (n : Nat) (x : BitVec 64) : (c.setA n x).rwin = c.rwin := rfl
@[simp] theorem Ctx.setA_dividers (c : Ctx) (n : Nat) (x : BitVec 64) : (c.setA n x).dividers = c.dividers := rfl
@[simp] theorem Ctx.setA_ending (c : Ctx) (n : Nat) (x : BitVec 64) : (c.setA n x).ending = c.ending := rfl
@[simp] theorem Ctx.setA_draining (c : Ctx) (n : Nat) (x : BitVec 64) : (c.setA n x).draining = c.draining := rfl
@[simp] theorem Ctx.setA_ended (c : Ctx) (n : Nat) (x : BitVec 64) : (c.setA n x).ended = c.ended := rfl
@[simp] theorem Ctx.setA_fault (c : Ctx) (n : Nat) (x : BitVec 64) : (c.setA n x).fault = c.fault := rfl
@[simp] theorem Ctx.setA_faultPref (c : Ctx) (n : Nat) (x : BitVec 64) : (c.setA n x).faultPref = c.faultPref := rfl
@[simp] theorem Ctx.setA_killed (c : Ctx) (n : Nat) (x : BitVec 64) : (c.setA n x).killed = c.killed := rfl
@[simp] theorem Ctx.setA_audOut (c : Ctx) (n : Nat) (x : BitVec 64) : (c.setA n x).audOut = c.audOut := rfl
@[simp] theorem Ctx.setA_audState (c : Ctx) (n : Nat) (x : BitVec 64) : (c.setA n x).audState = c.audState := rfl
@[simp] theorem Ctx.setA_audFlags (c : Ctx) (n : Nat) (x : BitVec 64) : (c.setA n x).audFlags = c.audFlags := rfl
@[simp] theorem Ctx.setA_audHoist (c : Ctx) (n : Nat) (x : BitVec 64) : (c.setA n x).audHoist = c.audHoist := rfl
@[simp] theorem Ctx.setA_audIn (c : Ctx) (n : Nat) (x : BitVec 64) : (c.setA n x).audIn = c.audIn := rfl
@[simp] theorem Ctx.setA_brkResume (c : Ctx) (n : Nat) (x : BitVec 64) : (c.setA n x).brkResume = c.brkResume := rfl
@[simp] theorem Ctx.setA_answer (c : Ctx) (n : Nat) (x : BitVec 64) : (c.setA n x).answer = c.answer := rfl
@[simp] theorem Ctx.setA_yielded (c : Ctx) (n : Nat) (x : BitVec 64) : (c.setA n x).yielded = c.yielded := rfl
@[simp] theorem Ctx.setA_replay (c : Ctx) (n : Nat) (x : BitVec 64) : (c.setA n x).replay = c.replay := rfl

@[simp] theorem Ctx.setTok_bind (c : Ctx) (n x : Nat) : (c.setTok n x).bind = c.bind := rfl
@[simp] theorem Ctx.setTok_hdr (c : Ctx) (n x : Nat) : (c.setTok n x).hdr = c.hdr := rfl
@[simp] theorem Ctx.setTok_directory (c : Ctx) (n x : Nat) : (c.setTok n x).directory = c.directory := rfl
@[simp] theorem Ctx.setTok_stable (c : Ctx) (n x : Nat) : (c.setTok n x).stable = c.stable := rfl
@[simp] theorem Ctx.setTok_k (c : Ctx) (n x : Nat) : (c.setTok n x).k = c.k := rfl
@[simp] theorem Ctx.setTok_a (c : Ctx) (n x : Nat) : (c.setTok n x).a = c.a := rfl
@[simp] theorem Ctx.setTok_wdi (c : Ctx) (n x : Nat) : (c.setTok n x).wdi = c.wdi := rfl
@[simp] theorem Ctx.setTok_wdp (c : Ctx) (n x : Nat) : (c.setTok n x).wdp = c.wdp := rfl
@[simp] theorem Ctx.setTok_wdone (c : Ctx) (n x : Nat) : (c.setTok n x).wdone = c.wdone := rfl
@[simp] theorem Ctx.setTok_rstack (c : Ctx) (n x : Nat) : (c.setTok n x).rstack = c.rstack := rfl
@[simp] theorem Ctx.setTok_si (c : Ctx) (n x : Nat) : (c.setTok n x).si = c.si := rfl
@[simp] theorem Ctx.setTok_tc (c : Ctx) (n x : Nat) : (c.setTok n x).tc = c.tc := rfl
@[simp] theorem Ctx.setTok_begun (c : Ctx) (n x : Nat) : (c.setTok n x).begun = c.begun := rfl
@[simp] theorem Ctx.setTok_rcyc (c : Ctx) (n x : Nat) : (c.setTok n x).rcyc = c.rcyc := rfl
@[simp] theorem Ctx.setTok_startq (c : Ctx) (n x : Nat) : (c.setTok n x).startq = c.startq := rfl
@[simp] theorem Ctx.setTok_wait (c : Ctx) (n x : Nat) : (c.setTok n x).wait = c.wait := rfl
@[simp] theorem Ctx.setTok_sl (c : Ctx) (n x : Nat) : (c.setTok n x).sl = c.sl := rfl
@[simp] theorem Ctx.setTok_fslots (c : Ctx) (n x : Nat) : (c.setTok n x).fslots = c.fslots := rfl
@[simp] theorem Ctx.setTok_fslotNew (c : Ctx) (n x : Nat) : (c.setTok n x).fslotNew = c.fslotNew := rfl
@[simp] theorem Ctx.setTok_flagw (c : Ctx) (n x : Nat) : (c.setTok n x).flagw = c.flagw := rfl
@[simp] theorem Ctx.setTok_flagwNew (c : Ctx) (n x : Nat) : (c.setTok n x).flagwNew = c.flagwNew := rfl
@[simp] theorem Ctx.setTok_savedAt (c : Ctx) (n x : Nat) : (c.setTok n x).savedAt = c.savedAt := rfl
@[simp] theorem Ctx.setTok_ev (c : Ctx) (n x : Nat) : (c.setTok n x).ev = c.ev := rfl
@[simp] theorem Ctx.setTok_runs (c : Ctx) (n x : Nat) : (c.setTok n x).runs = c.runs := rfl
@[simp] theorem Ctx.setTok_runSi (c : Ctx) (n x : Nat) : (c.setTok n x).runSi = c.runSi := rfl
@[simp] theorem Ctx.setTok_ksel (c : Ctx) (n x : Nat) : (c.setTok n x).ksel = c.ksel := rfl
@[simp] theorem Ctx.setTok_hoistNext (c : Ctx) (n x : Nat) : (c.setTok n x).hoistNext = c.hoistNext := rfl
@[simp] theorem Ctx.setTok_hlog (c : Ctx) (n x : Nat) : (c.setTok n x).hlog = c.hlog := rfl
@[simp] theorem Ctx.setTok_hoisted (c : Ctx) (n x : Nat) : (c.setTok n x).hoisted = c.hoisted := rfl
@[simp] theorem Ctx.setTok_hoisting (c : Ctx) (n x : Nat) : (c.setTok n x).hoisting = c.hoisting := rfl
@[simp] theorem Ctx.setTok_waves (c : Ctx) (n x : Nat) : (c.setTok n x).waves = c.waves := rfl
@[simp] theorem Ctx.setTok_cache (c : Ctx) (n x : Nat) : (c.setTok n x).cache = c.cache := rfl
@[simp] theorem Ctx.setTok_cacheUse (c : Ctx) (n x : Nat) : (c.setTok n x).cacheUse = c.cacheUse := rfl
@[simp] theorem Ctx.setTok_cacheNo (c : Ctx) (n x : Nat) : (c.setTok n x).cacheNo = c.cacheNo := rfl
@[simp] theorem Ctx.setTok_fetching (c : Ctx) (n x : Nat) : (c.setTok n x).fetching = c.fetching := rfl
@[simp] theorem Ctx.setTok_fetchBad (c : Ctx) (n x : Nat) : (c.setTok n x).fetchBad = c.fetchBad := rfl
@[simp] theorem Ctx.setTok_fetchStop (c : Ctx) (n x : Nat) : (c.setTok n x).fetchStop = c.fetchStop := rfl
@[simp] theorem Ctx.setTok_badSlots (c : Ctx) (n x : Nat) : (c.setTok n x).badSlots = c.badSlots := rfl
@[simp] theorem Ctx.setTok_streams (c : Ctx) (n x : Nat) : (c.setTok n x).streams = c.streams := rfl
@[simp] theorem Ctx.setTok_chans (c : Ctx) (n x : Nat) : (c.setTok n x).chans = c.chans := rfl
@[simp] theorem Ctx.setTok_regions (c : Ctx) (n x : Nat) : (c.setTok n x).regions = c.regions := rfl
@[simp] theorem Ctx.setTok_unwinding (c : Ctx) (n x : Nat) : (c.setTok n x).unwinding = c.unwinding := rfl
@[simp] theorem Ctx.setTok_trigRec (c : Ctx) (n x : Nat) : (c.setTok n x).trigRec = c.trigRec := rfl
@[simp] theorem Ctx.setTok_thandler (c : Ctx) (n x : Nat) : (c.setTok n x).thandler = c.thandler := rfl
@[simp] theorem Ctx.setTok_thNotice (c : Ctx) (n x : Nat) : (c.setTok n x).thNotice = c.thNotice := rfl
@[simp] theorem Ctx.setTok_wdcount (c : Ctx) (n x : Nat) : (c.setTok n x).wdcount = c.wdcount := rfl
@[simp] theorem Ctx.setTok_qcount (c : Ctx) (n x : Nat) : (c.setTok n x).qcount = c.qcount := rfl
@[simp] theorem Ctx.setTok_collCount (c : Ctx) (n x : Nat) : (c.setTok n x).collCount = c.collCount := rfl
@[simp] theorem Ctx.setTok_rwin (c : Ctx) (n x : Nat) : (c.setTok n x).rwin = c.rwin := rfl
@[simp] theorem Ctx.setTok_dividers (c : Ctx) (n x : Nat) : (c.setTok n x).dividers = c.dividers := rfl
@[simp] theorem Ctx.setTok_ending (c : Ctx) (n x : Nat) : (c.setTok n x).ending = c.ending := rfl
@[simp] theorem Ctx.setTok_draining (c : Ctx) (n x : Nat) : (c.setTok n x).draining = c.draining := rfl
@[simp] theorem Ctx.setTok_ended (c : Ctx) (n x : Nat) : (c.setTok n x).ended = c.ended := rfl
@[simp] theorem Ctx.setTok_fault (c : Ctx) (n x : Nat) : (c.setTok n x).fault = c.fault := rfl
@[simp] theorem Ctx.setTok_faultPref (c : Ctx) (n x : Nat) : (c.setTok n x).faultPref = c.faultPref := rfl
@[simp] theorem Ctx.setTok_killed (c : Ctx) (n x : Nat) : (c.setTok n x).killed = c.killed := rfl
@[simp] theorem Ctx.setTok_audOut (c : Ctx) (n x : Nat) : (c.setTok n x).audOut = c.audOut := rfl
@[simp] theorem Ctx.setTok_audState (c : Ctx) (n x : Nat) : (c.setTok n x).audState = c.audState := rfl
@[simp] theorem Ctx.setTok_audFlags (c : Ctx) (n x : Nat) : (c.setTok n x).audFlags = c.audFlags := rfl
@[simp] theorem Ctx.setTok_audHoist (c : Ctx) (n x : Nat) : (c.setTok n x).audHoist = c.audHoist := rfl
@[simp] theorem Ctx.setTok_audIn (c : Ctx) (n x : Nat) : (c.setTok n x).audIn = c.audIn := rfl
@[simp] theorem Ctx.setTok_brkResume (c : Ctx) (n x : Nat) : (c.setTok n x).brkResume = c.brkResume := rfl
@[simp] theorem Ctx.setTok_answer (c : Ctx) (n x : Nat) : (c.setTok n x).answer = c.answer := rfl
@[simp] theorem Ctx.setTok_yielded (c : Ctx) (n x : Nat) : (c.setTok n x).yielded = c.yielded := rfl
@[simp] theorem Ctx.setTok_replay (c : Ctx) (n x : Nat) : (c.setTok n x).replay = c.replay := rfl

@[simp] theorem Ctx.setLine_bind (c : Ctx) (n : Nat) (b : Bool) : (c.setLine n b).bind = c.bind := rfl
@[simp] theorem Ctx.setLine_hdr (c : Ctx) (n : Nat) (b : Bool) : (c.setLine n b).hdr = c.hdr := rfl
@[simp] theorem Ctx.setLine_directory (c : Ctx) (n : Nat) (b : Bool) : (c.setLine n b).directory = c.directory := rfl
@[simp] theorem Ctx.setLine_stable (c : Ctx) (n : Nat) (b : Bool) : (c.setLine n b).stable = c.stable := rfl
@[simp] theorem Ctx.setLine_k (c : Ctx) (n : Nat) (b : Bool) : (c.setLine n b).k = c.k := rfl
@[simp] theorem Ctx.setLine_a (c : Ctx) (n : Nat) (b : Bool) : (c.setLine n b).a = c.a := rfl
@[simp] theorem Ctx.setLine_tok (c : Ctx) (n : Nat) (b : Bool) : (c.setLine n b).tok = c.tok := rfl
@[simp] theorem Ctx.setLine_wdi (c : Ctx) (n : Nat) (b : Bool) : (c.setLine n b).wdi = c.wdi := rfl
@[simp] theorem Ctx.setLine_wdp (c : Ctx) (n : Nat) (b : Bool) : (c.setLine n b).wdp = c.wdp := rfl
@[simp] theorem Ctx.setLine_wdone (c : Ctx) (n : Nat) (b : Bool) : (c.setLine n b).wdone = c.wdone := rfl
@[simp] theorem Ctx.setLine_rstack (c : Ctx) (n : Nat) (b : Bool) : (c.setLine n b).rstack = c.rstack := rfl
@[simp] theorem Ctx.setLine_si (c : Ctx) (n : Nat) (b : Bool) : (c.setLine n b).si = c.si := rfl
@[simp] theorem Ctx.setLine_tc (c : Ctx) (n : Nat) (b : Bool) : (c.setLine n b).tc = c.tc := rfl
@[simp] theorem Ctx.setLine_begun (c : Ctx) (n : Nat) (b : Bool) : (c.setLine n b).begun = c.begun := rfl
@[simp] theorem Ctx.setLine_rcyc (c : Ctx) (n : Nat) (b : Bool) : (c.setLine n b).rcyc = c.rcyc := rfl
@[simp] theorem Ctx.setLine_startq (c : Ctx) (n : Nat) (b : Bool) : (c.setLine n b).startq = c.startq := rfl
@[simp] theorem Ctx.setLine_wait (c : Ctx) (n : Nat) (b : Bool) : (c.setLine n b).wait = c.wait := rfl
@[simp] theorem Ctx.setLine_fslots (c : Ctx) (n : Nat) (b : Bool) : (c.setLine n b).fslots = c.fslots := rfl
@[simp] theorem Ctx.setLine_fslotNew (c : Ctx) (n : Nat) (b : Bool) : (c.setLine n b).fslotNew = c.fslotNew := rfl
@[simp] theorem Ctx.setLine_flagw (c : Ctx) (n : Nat) (b : Bool) : (c.setLine n b).flagw = c.flagw := rfl
@[simp] theorem Ctx.setLine_flagwNew (c : Ctx) (n : Nat) (b : Bool) : (c.setLine n b).flagwNew = c.flagwNew := rfl
@[simp] theorem Ctx.setLine_savedAt (c : Ctx) (n : Nat) (b : Bool) : (c.setLine n b).savedAt = c.savedAt := rfl
@[simp] theorem Ctx.setLine_ev (c : Ctx) (n : Nat) (b : Bool) : (c.setLine n b).ev = c.ev := rfl
@[simp] theorem Ctx.setLine_runs (c : Ctx) (n : Nat) (b : Bool) : (c.setLine n b).runs = c.runs := rfl
@[simp] theorem Ctx.setLine_runSi (c : Ctx) (n : Nat) (b : Bool) : (c.setLine n b).runSi = c.runSi := rfl
@[simp] theorem Ctx.setLine_ksel (c : Ctx) (n : Nat) (b : Bool) : (c.setLine n b).ksel = c.ksel := rfl
@[simp] theorem Ctx.setLine_hoistNext (c : Ctx) (n : Nat) (b : Bool) : (c.setLine n b).hoistNext = c.hoistNext := rfl
@[simp] theorem Ctx.setLine_hlog (c : Ctx) (n : Nat) (b : Bool) : (c.setLine n b).hlog = c.hlog := rfl
@[simp] theorem Ctx.setLine_hoisted (c : Ctx) (n : Nat) (b : Bool) : (c.setLine n b).hoisted = c.hoisted := rfl
@[simp] theorem Ctx.setLine_hoisting (c : Ctx) (n : Nat) (b : Bool) : (c.setLine n b).hoisting = c.hoisting := rfl
@[simp] theorem Ctx.setLine_waves (c : Ctx) (n : Nat) (b : Bool) : (c.setLine n b).waves = c.waves := rfl
@[simp] theorem Ctx.setLine_cache (c : Ctx) (n : Nat) (b : Bool) : (c.setLine n b).cache = c.cache := rfl
@[simp] theorem Ctx.setLine_cacheUse (c : Ctx) (n : Nat) (b : Bool) : (c.setLine n b).cacheUse = c.cacheUse := rfl
@[simp] theorem Ctx.setLine_cacheNo (c : Ctx) (n : Nat) (b : Bool) : (c.setLine n b).cacheNo = c.cacheNo := rfl
@[simp] theorem Ctx.setLine_fetching (c : Ctx) (n : Nat) (b : Bool) : (c.setLine n b).fetching = c.fetching := rfl
@[simp] theorem Ctx.setLine_fetchBad (c : Ctx) (n : Nat) (b : Bool) : (c.setLine n b).fetchBad = c.fetchBad := rfl
@[simp] theorem Ctx.setLine_fetchStop (c : Ctx) (n : Nat) (b : Bool) : (c.setLine n b).fetchStop = c.fetchStop := rfl
@[simp] theorem Ctx.setLine_badSlots (c : Ctx) (n : Nat) (b : Bool) : (c.setLine n b).badSlots = c.badSlots := rfl
@[simp] theorem Ctx.setLine_streams (c : Ctx) (n : Nat) (b : Bool) : (c.setLine n b).streams = c.streams := rfl
@[simp] theorem Ctx.setLine_chans (c : Ctx) (n : Nat) (b : Bool) : (c.setLine n b).chans = c.chans := rfl
@[simp] theorem Ctx.setLine_regions (c : Ctx) (n : Nat) (b : Bool) : (c.setLine n b).regions = c.regions := rfl
@[simp] theorem Ctx.setLine_unwinding (c : Ctx) (n : Nat) (b : Bool) : (c.setLine n b).unwinding = c.unwinding := rfl
@[simp] theorem Ctx.setLine_trigRec (c : Ctx) (n : Nat) (b : Bool) : (c.setLine n b).trigRec = c.trigRec := rfl
@[simp] theorem Ctx.setLine_thandler (c : Ctx) (n : Nat) (b : Bool) : (c.setLine n b).thandler = c.thandler := rfl
@[simp] theorem Ctx.setLine_thNotice (c : Ctx) (n : Nat) (b : Bool) : (c.setLine n b).thNotice = c.thNotice := rfl
@[simp] theorem Ctx.setLine_wdcount (c : Ctx) (n : Nat) (b : Bool) : (c.setLine n b).wdcount = c.wdcount := rfl
@[simp] theorem Ctx.setLine_qcount (c : Ctx) (n : Nat) (b : Bool) : (c.setLine n b).qcount = c.qcount := rfl
@[simp] theorem Ctx.setLine_collCount (c : Ctx) (n : Nat) (b : Bool) : (c.setLine n b).collCount = c.collCount := rfl
@[simp] theorem Ctx.setLine_rwin (c : Ctx) (n : Nat) (b : Bool) : (c.setLine n b).rwin = c.rwin := rfl
@[simp] theorem Ctx.setLine_dividers (c : Ctx) (n : Nat) (b : Bool) : (c.setLine n b).dividers = c.dividers := rfl
@[simp] theorem Ctx.setLine_ending (c : Ctx) (n : Nat) (b : Bool) : (c.setLine n b).ending = c.ending := rfl
@[simp] theorem Ctx.setLine_draining (c : Ctx) (n : Nat) (b : Bool) : (c.setLine n b).draining = c.draining := rfl
@[simp] theorem Ctx.setLine_ended (c : Ctx) (n : Nat) (b : Bool) : (c.setLine n b).ended = c.ended := rfl
@[simp] theorem Ctx.setLine_fault (c : Ctx) (n : Nat) (b : Bool) : (c.setLine n b).fault = c.fault := rfl
@[simp] theorem Ctx.setLine_faultPref (c : Ctx) (n : Nat) (b : Bool) : (c.setLine n b).faultPref = c.faultPref := rfl
@[simp] theorem Ctx.setLine_killed (c : Ctx) (n : Nat) (b : Bool) : (c.setLine n b).killed = c.killed := rfl
@[simp] theorem Ctx.setLine_audOut (c : Ctx) (n : Nat) (b : Bool) : (c.setLine n b).audOut = c.audOut := rfl
@[simp] theorem Ctx.setLine_audState (c : Ctx) (n : Nat) (b : Bool) : (c.setLine n b).audState = c.audState := rfl
@[simp] theorem Ctx.setLine_audFlags (c : Ctx) (n : Nat) (b : Bool) : (c.setLine n b).audFlags = c.audFlags := rfl
@[simp] theorem Ctx.setLine_audHoist (c : Ctx) (n : Nat) (b : Bool) : (c.setLine n b).audHoist = c.audHoist := rfl
@[simp] theorem Ctx.setLine_audIn (c : Ctx) (n : Nat) (b : Bool) : (c.setLine n b).audIn = c.audIn := rfl
@[simp] theorem Ctx.setLine_brkResume (c : Ctx) (n : Nat) (b : Bool) : (c.setLine n b).brkResume = c.brkResume := rfl
@[simp] theorem Ctx.setLine_answer (c : Ctx) (n : Nat) (b : Bool) : (c.setLine n b).answer = c.answer := rfl
@[simp] theorem Ctx.setLine_yielded (c : Ctx) (n : Nat) (b : Bool) : (c.setLine n b).yielded = c.yielded := rfl
@[simp] theorem Ctx.setLine_replay (c : Ctx) (n : Nat) (b : Bool) : (c.setLine n b).replay = c.replay := rfl

@[simp] theorem Ctx.setStream_bind (c : Ctx) (n : Nat) (x : Stream) : (c.setStream n x).bind = c.bind := rfl
@[simp] theorem Ctx.setStream_hdr (c : Ctx) (n : Nat) (x : Stream) : (c.setStream n x).hdr = c.hdr := rfl
@[simp] theorem Ctx.setStream_directory (c : Ctx) (n : Nat) (x : Stream) : (c.setStream n x).directory = c.directory := rfl
@[simp] theorem Ctx.setStream_stable (c : Ctx) (n : Nat) (x : Stream) : (c.setStream n x).stable = c.stable := rfl
@[simp] theorem Ctx.setStream_k (c : Ctx) (n : Nat) (x : Stream) : (c.setStream n x).k = c.k := rfl
@[simp] theorem Ctx.setStream_a (c : Ctx) (n : Nat) (x : Stream) : (c.setStream n x).a = c.a := rfl
@[simp] theorem Ctx.setStream_tok (c : Ctx) (n : Nat) (x : Stream) : (c.setStream n x).tok = c.tok := rfl
@[simp] theorem Ctx.setStream_wdi (c : Ctx) (n : Nat) (x : Stream) : (c.setStream n x).wdi = c.wdi := rfl
@[simp] theorem Ctx.setStream_wdp (c : Ctx) (n : Nat) (x : Stream) : (c.setStream n x).wdp = c.wdp := rfl
@[simp] theorem Ctx.setStream_wdone (c : Ctx) (n : Nat) (x : Stream) : (c.setStream n x).wdone = c.wdone := rfl
@[simp] theorem Ctx.setStream_rstack (c : Ctx) (n : Nat) (x : Stream) : (c.setStream n x).rstack = c.rstack := rfl
@[simp] theorem Ctx.setStream_si (c : Ctx) (n : Nat) (x : Stream) : (c.setStream n x).si = c.si := rfl
@[simp] theorem Ctx.setStream_tc (c : Ctx) (n : Nat) (x : Stream) : (c.setStream n x).tc = c.tc := rfl
@[simp] theorem Ctx.setStream_begun (c : Ctx) (n : Nat) (x : Stream) : (c.setStream n x).begun = c.begun := rfl
@[simp] theorem Ctx.setStream_rcyc (c : Ctx) (n : Nat) (x : Stream) : (c.setStream n x).rcyc = c.rcyc := rfl
@[simp] theorem Ctx.setStream_startq (c : Ctx) (n : Nat) (x : Stream) : (c.setStream n x).startq = c.startq := rfl
@[simp] theorem Ctx.setStream_wait (c : Ctx) (n : Nat) (x : Stream) : (c.setStream n x).wait = c.wait := rfl
@[simp] theorem Ctx.setStream_sl (c : Ctx) (n : Nat) (x : Stream) : (c.setStream n x).sl = c.sl := rfl
@[simp] theorem Ctx.setStream_fslots (c : Ctx) (n : Nat) (x : Stream) : (c.setStream n x).fslots = c.fslots := rfl
@[simp] theorem Ctx.setStream_fslotNew (c : Ctx) (n : Nat) (x : Stream) : (c.setStream n x).fslotNew = c.fslotNew := rfl
@[simp] theorem Ctx.setStream_flagw (c : Ctx) (n : Nat) (x : Stream) : (c.setStream n x).flagw = c.flagw := rfl
@[simp] theorem Ctx.setStream_flagwNew (c : Ctx) (n : Nat) (x : Stream) : (c.setStream n x).flagwNew = c.flagwNew := rfl
@[simp] theorem Ctx.setStream_savedAt (c : Ctx) (n : Nat) (x : Stream) : (c.setStream n x).savedAt = c.savedAt := rfl
@[simp] theorem Ctx.setStream_ev (c : Ctx) (n : Nat) (x : Stream) : (c.setStream n x).ev = c.ev := rfl
@[simp] theorem Ctx.setStream_runs (c : Ctx) (n : Nat) (x : Stream) : (c.setStream n x).runs = c.runs := rfl
@[simp] theorem Ctx.setStream_runSi (c : Ctx) (n : Nat) (x : Stream) : (c.setStream n x).runSi = c.runSi := rfl
@[simp] theorem Ctx.setStream_ksel (c : Ctx) (n : Nat) (x : Stream) : (c.setStream n x).ksel = c.ksel := rfl
@[simp] theorem Ctx.setStream_hoistNext (c : Ctx) (n : Nat) (x : Stream) : (c.setStream n x).hoistNext = c.hoistNext := rfl
@[simp] theorem Ctx.setStream_hlog (c : Ctx) (n : Nat) (x : Stream) : (c.setStream n x).hlog = c.hlog := rfl
@[simp] theorem Ctx.setStream_hoisted (c : Ctx) (n : Nat) (x : Stream) : (c.setStream n x).hoisted = c.hoisted := rfl
@[simp] theorem Ctx.setStream_hoisting (c : Ctx) (n : Nat) (x : Stream) : (c.setStream n x).hoisting = c.hoisting := rfl
@[simp] theorem Ctx.setStream_waves (c : Ctx) (n : Nat) (x : Stream) : (c.setStream n x).waves = c.waves := rfl
@[simp] theorem Ctx.setStream_cache (c : Ctx) (n : Nat) (x : Stream) : (c.setStream n x).cache = c.cache := rfl
@[simp] theorem Ctx.setStream_cacheUse (c : Ctx) (n : Nat) (x : Stream) : (c.setStream n x).cacheUse = c.cacheUse := rfl
@[simp] theorem Ctx.setStream_cacheNo (c : Ctx) (n : Nat) (x : Stream) : (c.setStream n x).cacheNo = c.cacheNo := rfl
@[simp] theorem Ctx.setStream_fetching (c : Ctx) (n : Nat) (x : Stream) : (c.setStream n x).fetching = c.fetching := rfl
@[simp] theorem Ctx.setStream_fetchBad (c : Ctx) (n : Nat) (x : Stream) : (c.setStream n x).fetchBad = c.fetchBad := rfl
@[simp] theorem Ctx.setStream_fetchStop (c : Ctx) (n : Nat) (x : Stream) : (c.setStream n x).fetchStop = c.fetchStop := rfl
@[simp] theorem Ctx.setStream_badSlots (c : Ctx) (n : Nat) (x : Stream) : (c.setStream n x).badSlots = c.badSlots := rfl
@[simp] theorem Ctx.setStream_chans (c : Ctx) (n : Nat) (x : Stream) : (c.setStream n x).chans = c.chans := rfl
@[simp] theorem Ctx.setStream_regions (c : Ctx) (n : Nat) (x : Stream) : (c.setStream n x).regions = c.regions := rfl
@[simp] theorem Ctx.setStream_unwinding (c : Ctx) (n : Nat) (x : Stream) : (c.setStream n x).unwinding = c.unwinding := rfl
@[simp] theorem Ctx.setStream_trigRec (c : Ctx) (n : Nat) (x : Stream) : (c.setStream n x).trigRec = c.trigRec := rfl
@[simp] theorem Ctx.setStream_thandler (c : Ctx) (n : Nat) (x : Stream) : (c.setStream n x).thandler = c.thandler := rfl
@[simp] theorem Ctx.setStream_thNotice (c : Ctx) (n : Nat) (x : Stream) : (c.setStream n x).thNotice = c.thNotice := rfl
@[simp] theorem Ctx.setStream_wdcount (c : Ctx) (n : Nat) (x : Stream) : (c.setStream n x).wdcount = c.wdcount := rfl
@[simp] theorem Ctx.setStream_qcount (c : Ctx) (n : Nat) (x : Stream) : (c.setStream n x).qcount = c.qcount := rfl
@[simp] theorem Ctx.setStream_collCount (c : Ctx) (n : Nat) (x : Stream) : (c.setStream n x).collCount = c.collCount := rfl
@[simp] theorem Ctx.setStream_rwin (c : Ctx) (n : Nat) (x : Stream) : (c.setStream n x).rwin = c.rwin := rfl
@[simp] theorem Ctx.setStream_dividers (c : Ctx) (n : Nat) (x : Stream) : (c.setStream n x).dividers = c.dividers := rfl
@[simp] theorem Ctx.setStream_ending (c : Ctx) (n : Nat) (x : Stream) : (c.setStream n x).ending = c.ending := rfl
@[simp] theorem Ctx.setStream_draining (c : Ctx) (n : Nat) (x : Stream) : (c.setStream n x).draining = c.draining := rfl
@[simp] theorem Ctx.setStream_ended (c : Ctx) (n : Nat) (x : Stream) : (c.setStream n x).ended = c.ended := rfl
@[simp] theorem Ctx.setStream_fault (c : Ctx) (n : Nat) (x : Stream) : (c.setStream n x).fault = c.fault := rfl
@[simp] theorem Ctx.setStream_faultPref (c : Ctx) (n : Nat) (x : Stream) : (c.setStream n x).faultPref = c.faultPref := rfl
@[simp] theorem Ctx.setStream_killed (c : Ctx) (n : Nat) (x : Stream) : (c.setStream n x).killed = c.killed := rfl
@[simp] theorem Ctx.setStream_audOut (c : Ctx) (n : Nat) (x : Stream) : (c.setStream n x).audOut = c.audOut := rfl
@[simp] theorem Ctx.setStream_audState (c : Ctx) (n : Nat) (x : Stream) : (c.setStream n x).audState = c.audState := rfl
@[simp] theorem Ctx.setStream_audFlags (c : Ctx) (n : Nat) (x : Stream) : (c.setStream n x).audFlags = c.audFlags := rfl
@[simp] theorem Ctx.setStream_audHoist (c : Ctx) (n : Nat) (x : Stream) : (c.setStream n x).audHoist = c.audHoist := rfl
@[simp] theorem Ctx.setStream_audIn (c : Ctx) (n : Nat) (x : Stream) : (c.setStream n x).audIn = c.audIn := rfl
@[simp] theorem Ctx.setStream_brkResume (c : Ctx) (n : Nat) (x : Stream) : (c.setStream n x).brkResume = c.brkResume := rfl
@[simp] theorem Ctx.setStream_answer (c : Ctx) (n : Nat) (x : Stream) : (c.setStream n x).answer = c.answer := rfl
@[simp] theorem Ctx.setStream_yielded (c : Ctx) (n : Nat) (x : Stream) : (c.setStream n x).yielded = c.yielded := rfl
@[simp] theorem Ctx.setStream_replay (c : Ctx) (n : Nat) (x : Stream) : (c.setStream n x).replay = c.replay := rfl

@[simp] theorem Ctx.setChan_bind (c : Ctx) (n : Nat) (x : Chan) : (c.setChan n x).bind = c.bind := rfl
@[simp] theorem Ctx.setChan_hdr (c : Ctx) (n : Nat) (x : Chan) : (c.setChan n x).hdr = c.hdr := rfl
@[simp] theorem Ctx.setChan_directory (c : Ctx) (n : Nat) (x : Chan) : (c.setChan n x).directory = c.directory := rfl
@[simp] theorem Ctx.setChan_stable (c : Ctx) (n : Nat) (x : Chan) : (c.setChan n x).stable = c.stable := rfl
@[simp] theorem Ctx.setChan_k (c : Ctx) (n : Nat) (x : Chan) : (c.setChan n x).k = c.k := rfl
@[simp] theorem Ctx.setChan_a (c : Ctx) (n : Nat) (x : Chan) : (c.setChan n x).a = c.a := rfl
@[simp] theorem Ctx.setChan_tok (c : Ctx) (n : Nat) (x : Chan) : (c.setChan n x).tok = c.tok := rfl
@[simp] theorem Ctx.setChan_wdi (c : Ctx) (n : Nat) (x : Chan) : (c.setChan n x).wdi = c.wdi := rfl
@[simp] theorem Ctx.setChan_wdp (c : Ctx) (n : Nat) (x : Chan) : (c.setChan n x).wdp = c.wdp := rfl
@[simp] theorem Ctx.setChan_wdone (c : Ctx) (n : Nat) (x : Chan) : (c.setChan n x).wdone = c.wdone := rfl
@[simp] theorem Ctx.setChan_rstack (c : Ctx) (n : Nat) (x : Chan) : (c.setChan n x).rstack = c.rstack := rfl
@[simp] theorem Ctx.setChan_si (c : Ctx) (n : Nat) (x : Chan) : (c.setChan n x).si = c.si := rfl
@[simp] theorem Ctx.setChan_tc (c : Ctx) (n : Nat) (x : Chan) : (c.setChan n x).tc = c.tc := rfl
@[simp] theorem Ctx.setChan_begun (c : Ctx) (n : Nat) (x : Chan) : (c.setChan n x).begun = c.begun := rfl
@[simp] theorem Ctx.setChan_rcyc (c : Ctx) (n : Nat) (x : Chan) : (c.setChan n x).rcyc = c.rcyc := rfl
@[simp] theorem Ctx.setChan_startq (c : Ctx) (n : Nat) (x : Chan) : (c.setChan n x).startq = c.startq := rfl
@[simp] theorem Ctx.setChan_wait (c : Ctx) (n : Nat) (x : Chan) : (c.setChan n x).wait = c.wait := rfl
@[simp] theorem Ctx.setChan_sl (c : Ctx) (n : Nat) (x : Chan) : (c.setChan n x).sl = c.sl := rfl
@[simp] theorem Ctx.setChan_fslots (c : Ctx) (n : Nat) (x : Chan) : (c.setChan n x).fslots = c.fslots := rfl
@[simp] theorem Ctx.setChan_fslotNew (c : Ctx) (n : Nat) (x : Chan) : (c.setChan n x).fslotNew = c.fslotNew := rfl
@[simp] theorem Ctx.setChan_flagw (c : Ctx) (n : Nat) (x : Chan) : (c.setChan n x).flagw = c.flagw := rfl
@[simp] theorem Ctx.setChan_flagwNew (c : Ctx) (n : Nat) (x : Chan) : (c.setChan n x).flagwNew = c.flagwNew := rfl
@[simp] theorem Ctx.setChan_savedAt (c : Ctx) (n : Nat) (x : Chan) : (c.setChan n x).savedAt = c.savedAt := rfl
@[simp] theorem Ctx.setChan_ev (c : Ctx) (n : Nat) (x : Chan) : (c.setChan n x).ev = c.ev := rfl
@[simp] theorem Ctx.setChan_runs (c : Ctx) (n : Nat) (x : Chan) : (c.setChan n x).runs = c.runs := rfl
@[simp] theorem Ctx.setChan_runSi (c : Ctx) (n : Nat) (x : Chan) : (c.setChan n x).runSi = c.runSi := rfl
@[simp] theorem Ctx.setChan_ksel (c : Ctx) (n : Nat) (x : Chan) : (c.setChan n x).ksel = c.ksel := rfl
@[simp] theorem Ctx.setChan_hoistNext (c : Ctx) (n : Nat) (x : Chan) : (c.setChan n x).hoistNext = c.hoistNext := rfl
@[simp] theorem Ctx.setChan_hlog (c : Ctx) (n : Nat) (x : Chan) : (c.setChan n x).hlog = c.hlog := rfl
@[simp] theorem Ctx.setChan_hoisted (c : Ctx) (n : Nat) (x : Chan) : (c.setChan n x).hoisted = c.hoisted := rfl
@[simp] theorem Ctx.setChan_hoisting (c : Ctx) (n : Nat) (x : Chan) : (c.setChan n x).hoisting = c.hoisting := rfl
@[simp] theorem Ctx.setChan_waves (c : Ctx) (n : Nat) (x : Chan) : (c.setChan n x).waves = c.waves := rfl
@[simp] theorem Ctx.setChan_cache (c : Ctx) (n : Nat) (x : Chan) : (c.setChan n x).cache = c.cache := rfl
@[simp] theorem Ctx.setChan_cacheUse (c : Ctx) (n : Nat) (x : Chan) : (c.setChan n x).cacheUse = c.cacheUse := rfl
@[simp] theorem Ctx.setChan_cacheNo (c : Ctx) (n : Nat) (x : Chan) : (c.setChan n x).cacheNo = c.cacheNo := rfl
@[simp] theorem Ctx.setChan_fetching (c : Ctx) (n : Nat) (x : Chan) : (c.setChan n x).fetching = c.fetching := rfl
@[simp] theorem Ctx.setChan_fetchBad (c : Ctx) (n : Nat) (x : Chan) : (c.setChan n x).fetchBad = c.fetchBad := rfl
@[simp] theorem Ctx.setChan_fetchStop (c : Ctx) (n : Nat) (x : Chan) : (c.setChan n x).fetchStop = c.fetchStop := rfl
@[simp] theorem Ctx.setChan_badSlots (c : Ctx) (n : Nat) (x : Chan) : (c.setChan n x).badSlots = c.badSlots := rfl
@[simp] theorem Ctx.setChan_streams (c : Ctx) (n : Nat) (x : Chan) : (c.setChan n x).streams = c.streams := rfl
@[simp] theorem Ctx.setChan_regions (c : Ctx) (n : Nat) (x : Chan) : (c.setChan n x).regions = c.regions := rfl
@[simp] theorem Ctx.setChan_unwinding (c : Ctx) (n : Nat) (x : Chan) : (c.setChan n x).unwinding = c.unwinding := rfl
@[simp] theorem Ctx.setChan_trigRec (c : Ctx) (n : Nat) (x : Chan) : (c.setChan n x).trigRec = c.trigRec := rfl
@[simp] theorem Ctx.setChan_thandler (c : Ctx) (n : Nat) (x : Chan) : (c.setChan n x).thandler = c.thandler := rfl
@[simp] theorem Ctx.setChan_thNotice (c : Ctx) (n : Nat) (x : Chan) : (c.setChan n x).thNotice = c.thNotice := rfl
@[simp] theorem Ctx.setChan_wdcount (c : Ctx) (n : Nat) (x : Chan) : (c.setChan n x).wdcount = c.wdcount := rfl
@[simp] theorem Ctx.setChan_qcount (c : Ctx) (n : Nat) (x : Chan) : (c.setChan n x).qcount = c.qcount := rfl
@[simp] theorem Ctx.setChan_collCount (c : Ctx) (n : Nat) (x : Chan) : (c.setChan n x).collCount = c.collCount := rfl
@[simp] theorem Ctx.setChan_rwin (c : Ctx) (n : Nat) (x : Chan) : (c.setChan n x).rwin = c.rwin := rfl
@[simp] theorem Ctx.setChan_dividers (c : Ctx) (n : Nat) (x : Chan) : (c.setChan n x).dividers = c.dividers := rfl
@[simp] theorem Ctx.setChan_ending (c : Ctx) (n : Nat) (x : Chan) : (c.setChan n x).ending = c.ending := rfl
@[simp] theorem Ctx.setChan_draining (c : Ctx) (n : Nat) (x : Chan) : (c.setChan n x).draining = c.draining := rfl
@[simp] theorem Ctx.setChan_ended (c : Ctx) (n : Nat) (x : Chan) : (c.setChan n x).ended = c.ended := rfl
@[simp] theorem Ctx.setChan_fault (c : Ctx) (n : Nat) (x : Chan) : (c.setChan n x).fault = c.fault := rfl
@[simp] theorem Ctx.setChan_faultPref (c : Ctx) (n : Nat) (x : Chan) : (c.setChan n x).faultPref = c.faultPref := rfl
@[simp] theorem Ctx.setChan_killed (c : Ctx) (n : Nat) (x : Chan) : (c.setChan n x).killed = c.killed := rfl
@[simp] theorem Ctx.setChan_audOut (c : Ctx) (n : Nat) (x : Chan) : (c.setChan n x).audOut = c.audOut := rfl
@[simp] theorem Ctx.setChan_audState (c : Ctx) (n : Nat) (x : Chan) : (c.setChan n x).audState = c.audState := rfl
@[simp] theorem Ctx.setChan_audFlags (c : Ctx) (n : Nat) (x : Chan) : (c.setChan n x).audFlags = c.audFlags := rfl
@[simp] theorem Ctx.setChan_audHoist (c : Ctx) (n : Nat) (x : Chan) : (c.setChan n x).audHoist = c.audHoist := rfl
@[simp] theorem Ctx.setChan_audIn (c : Ctx) (n : Nat) (x : Chan) : (c.setChan n x).audIn = c.audIn := rfl
@[simp] theorem Ctx.setChan_brkResume (c : Ctx) (n : Nat) (x : Chan) : (c.setChan n x).brkResume = c.brkResume := rfl
@[simp] theorem Ctx.setChan_answer (c : Ctx) (n : Nat) (x : Chan) : (c.setChan n x).answer = c.answer := rfl
@[simp] theorem Ctx.setChan_yielded (c : Ctx) (n : Nat) (x : Chan) : (c.setChan n x).yielded = c.yielded := rfl
@[simp] theorem Ctx.setChan_replay (c : Ctx) (n : Nat) (x : Chan) : (c.setChan n x).replay = c.replay := rfl

@[simp] theorem Ctx.addEv_bind (c : Ctx) (n d : Nat) : (c.addEv n d).bind = c.bind := rfl
@[simp] theorem Ctx.addEv_hdr (c : Ctx) (n d : Nat) : (c.addEv n d).hdr = c.hdr := rfl
@[simp] theorem Ctx.addEv_directory (c : Ctx) (n d : Nat) : (c.addEv n d).directory = c.directory := rfl
@[simp] theorem Ctx.addEv_stable (c : Ctx) (n d : Nat) : (c.addEv n d).stable = c.stable := rfl
@[simp] theorem Ctx.addEv_k (c : Ctx) (n d : Nat) : (c.addEv n d).k = c.k := rfl
@[simp] theorem Ctx.addEv_a (c : Ctx) (n d : Nat) : (c.addEv n d).a = c.a := rfl
@[simp] theorem Ctx.addEv_tok (c : Ctx) (n d : Nat) : (c.addEv n d).tok = c.tok := rfl
@[simp] theorem Ctx.addEv_wdi (c : Ctx) (n d : Nat) : (c.addEv n d).wdi = c.wdi := rfl
@[simp] theorem Ctx.addEv_wdp (c : Ctx) (n d : Nat) : (c.addEv n d).wdp = c.wdp := rfl
@[simp] theorem Ctx.addEv_wdone (c : Ctx) (n d : Nat) : (c.addEv n d).wdone = c.wdone := rfl
@[simp] theorem Ctx.addEv_rstack (c : Ctx) (n d : Nat) : (c.addEv n d).rstack = c.rstack := rfl
@[simp] theorem Ctx.addEv_si (c : Ctx) (n d : Nat) : (c.addEv n d).si = c.si := rfl
@[simp] theorem Ctx.addEv_tc (c : Ctx) (n d : Nat) : (c.addEv n d).tc = c.tc := rfl
@[simp] theorem Ctx.addEv_begun (c : Ctx) (n d : Nat) : (c.addEv n d).begun = c.begun := rfl
@[simp] theorem Ctx.addEv_rcyc (c : Ctx) (n d : Nat) : (c.addEv n d).rcyc = c.rcyc := rfl
@[simp] theorem Ctx.addEv_startq (c : Ctx) (n d : Nat) : (c.addEv n d).startq = c.startq := rfl
@[simp] theorem Ctx.addEv_wait (c : Ctx) (n d : Nat) : (c.addEv n d).wait = c.wait := rfl
@[simp] theorem Ctx.addEv_sl (c : Ctx) (n d : Nat) : (c.addEv n d).sl = c.sl := rfl
@[simp] theorem Ctx.addEv_fslots (c : Ctx) (n d : Nat) : (c.addEv n d).fslots = c.fslots := rfl
@[simp] theorem Ctx.addEv_fslotNew (c : Ctx) (n d : Nat) : (c.addEv n d).fslotNew = c.fslotNew := rfl
@[simp] theorem Ctx.addEv_flagw (c : Ctx) (n d : Nat) : (c.addEv n d).flagw = c.flagw := rfl
@[simp] theorem Ctx.addEv_flagwNew (c : Ctx) (n d : Nat) : (c.addEv n d).flagwNew = c.flagwNew := rfl
@[simp] theorem Ctx.addEv_savedAt (c : Ctx) (n d : Nat) : (c.addEv n d).savedAt = c.savedAt := rfl
@[simp] theorem Ctx.addEv_runs (c : Ctx) (n d : Nat) : (c.addEv n d).runs = c.runs := rfl
@[simp] theorem Ctx.addEv_runSi (c : Ctx) (n d : Nat) : (c.addEv n d).runSi = c.runSi := rfl
@[simp] theorem Ctx.addEv_ksel (c : Ctx) (n d : Nat) : (c.addEv n d).ksel = c.ksel := rfl
@[simp] theorem Ctx.addEv_hoistNext (c : Ctx) (n d : Nat) : (c.addEv n d).hoistNext = c.hoistNext := rfl
@[simp] theorem Ctx.addEv_hlog (c : Ctx) (n d : Nat) : (c.addEv n d).hlog = c.hlog := rfl
@[simp] theorem Ctx.addEv_hoisted (c : Ctx) (n d : Nat) : (c.addEv n d).hoisted = c.hoisted := rfl
@[simp] theorem Ctx.addEv_hoisting (c : Ctx) (n d : Nat) : (c.addEv n d).hoisting = c.hoisting := rfl
@[simp] theorem Ctx.addEv_waves (c : Ctx) (n d : Nat) : (c.addEv n d).waves = c.waves := rfl
@[simp] theorem Ctx.addEv_cache (c : Ctx) (n d : Nat) : (c.addEv n d).cache = c.cache := rfl
@[simp] theorem Ctx.addEv_cacheUse (c : Ctx) (n d : Nat) : (c.addEv n d).cacheUse = c.cacheUse := rfl
@[simp] theorem Ctx.addEv_cacheNo (c : Ctx) (n d : Nat) : (c.addEv n d).cacheNo = c.cacheNo := rfl
@[simp] theorem Ctx.addEv_fetching (c : Ctx) (n d : Nat) : (c.addEv n d).fetching = c.fetching := rfl
@[simp] theorem Ctx.addEv_fetchBad (c : Ctx) (n d : Nat) : (c.addEv n d).fetchBad = c.fetchBad := rfl
@[simp] theorem Ctx.addEv_fetchStop (c : Ctx) (n d : Nat) : (c.addEv n d).fetchStop = c.fetchStop := rfl
@[simp] theorem Ctx.addEv_badSlots (c : Ctx) (n d : Nat) : (c.addEv n d).badSlots = c.badSlots := rfl
@[simp] theorem Ctx.addEv_streams (c : Ctx) (n d : Nat) : (c.addEv n d).streams = c.streams := rfl
@[simp] theorem Ctx.addEv_chans (c : Ctx) (n d : Nat) : (c.addEv n d).chans = c.chans := rfl
@[simp] theorem Ctx.addEv_regions (c : Ctx) (n d : Nat) : (c.addEv n d).regions = c.regions := rfl
@[simp] theorem Ctx.addEv_unwinding (c : Ctx) (n d : Nat) : (c.addEv n d).unwinding = c.unwinding := rfl
@[simp] theorem Ctx.addEv_trigRec (c : Ctx) (n d : Nat) : (c.addEv n d).trigRec = c.trigRec := rfl
@[simp] theorem Ctx.addEv_thandler (c : Ctx) (n d : Nat) : (c.addEv n d).thandler = c.thandler := rfl
@[simp] theorem Ctx.addEv_thNotice (c : Ctx) (n d : Nat) : (c.addEv n d).thNotice = c.thNotice := rfl
@[simp] theorem Ctx.addEv_wdcount (c : Ctx) (n d : Nat) : (c.addEv n d).wdcount = c.wdcount := rfl
@[simp] theorem Ctx.addEv_qcount (c : Ctx) (n d : Nat) : (c.addEv n d).qcount = c.qcount := rfl
@[simp] theorem Ctx.addEv_collCount (c : Ctx) (n d : Nat) : (c.addEv n d).collCount = c.collCount := rfl
@[simp] theorem Ctx.addEv_rwin (c : Ctx) (n d : Nat) : (c.addEv n d).rwin = c.rwin := rfl
@[simp] theorem Ctx.addEv_dividers (c : Ctx) (n d : Nat) : (c.addEv n d).dividers = c.dividers := rfl
@[simp] theorem Ctx.addEv_ending (c : Ctx) (n d : Nat) : (c.addEv n d).ending = c.ending := rfl
@[simp] theorem Ctx.addEv_draining (c : Ctx) (n d : Nat) : (c.addEv n d).draining = c.draining := rfl
@[simp] theorem Ctx.addEv_ended (c : Ctx) (n d : Nat) : (c.addEv n d).ended = c.ended := rfl
@[simp] theorem Ctx.addEv_fault (c : Ctx) (n d : Nat) : (c.addEv n d).fault = c.fault := rfl
@[simp] theorem Ctx.addEv_faultPref (c : Ctx) (n d : Nat) : (c.addEv n d).faultPref = c.faultPref := rfl
@[simp] theorem Ctx.addEv_killed (c : Ctx) (n d : Nat) : (c.addEv n d).killed = c.killed := rfl
@[simp] theorem Ctx.addEv_audOut (c : Ctx) (n d : Nat) : (c.addEv n d).audOut = c.audOut := rfl
@[simp] theorem Ctx.addEv_audState (c : Ctx) (n d : Nat) : (c.addEv n d).audState = c.audState := rfl
@[simp] theorem Ctx.addEv_audFlags (c : Ctx) (n d : Nat) : (c.addEv n d).audFlags = c.audFlags := rfl
@[simp] theorem Ctx.addEv_audHoist (c : Ctx) (n d : Nat) : (c.addEv n d).audHoist = c.audHoist := rfl
@[simp] theorem Ctx.addEv_audIn (c : Ctx) (n d : Nat) : (c.addEv n d).audIn = c.audIn := rfl
@[simp] theorem Ctx.addEv_brkResume (c : Ctx) (n d : Nat) : (c.addEv n d).brkResume = c.brkResume := rfl
@[simp] theorem Ctx.addEv_answer (c : Ctx) (n d : Nat) : (c.addEv n d).answer = c.answer := rfl
@[simp] theorem Ctx.addEv_yielded (c : Ctx) (n d : Nat) : (c.addEv n d).yielded = c.yielded := rfl
@[simp] theorem Ctx.addEv_replay (c : Ctx) (n d : Nat) : (c.addEv n d).replay = c.replay := rfl

@[simp] theorem Ctx.setEv_bind (c : Ctx) (n v : Nat) : (c.setEv n v).bind = c.bind := rfl
@[simp] theorem Ctx.setEv_hdr (c : Ctx) (n v : Nat) : (c.setEv n v).hdr = c.hdr := rfl
@[simp] theorem Ctx.setEv_directory (c : Ctx) (n v : Nat) : (c.setEv n v).directory = c.directory := rfl
@[simp] theorem Ctx.setEv_stable (c : Ctx) (n v : Nat) : (c.setEv n v).stable = c.stable := rfl
@[simp] theorem Ctx.setEv_k (c : Ctx) (n v : Nat) : (c.setEv n v).k = c.k := rfl
@[simp] theorem Ctx.setEv_a (c : Ctx) (n v : Nat) : (c.setEv n v).a = c.a := rfl
@[simp] theorem Ctx.setEv_tok (c : Ctx) (n v : Nat) : (c.setEv n v).tok = c.tok := rfl
@[simp] theorem Ctx.setEv_wdi (c : Ctx) (n v : Nat) : (c.setEv n v).wdi = c.wdi := rfl
@[simp] theorem Ctx.setEv_wdp (c : Ctx) (n v : Nat) : (c.setEv n v).wdp = c.wdp := rfl
@[simp] theorem Ctx.setEv_wdone (c : Ctx) (n v : Nat) : (c.setEv n v).wdone = c.wdone := rfl
@[simp] theorem Ctx.setEv_rstack (c : Ctx) (n v : Nat) : (c.setEv n v).rstack = c.rstack := rfl
@[simp] theorem Ctx.setEv_si (c : Ctx) (n v : Nat) : (c.setEv n v).si = c.si := rfl
@[simp] theorem Ctx.setEv_tc (c : Ctx) (n v : Nat) : (c.setEv n v).tc = c.tc := rfl
@[simp] theorem Ctx.setEv_begun (c : Ctx) (n v : Nat) : (c.setEv n v).begun = c.begun := rfl
@[simp] theorem Ctx.setEv_rcyc (c : Ctx) (n v : Nat) : (c.setEv n v).rcyc = c.rcyc := rfl
@[simp] theorem Ctx.setEv_startq (c : Ctx) (n v : Nat) : (c.setEv n v).startq = c.startq := rfl
@[simp] theorem Ctx.setEv_wait (c : Ctx) (n v : Nat) : (c.setEv n v).wait = c.wait := rfl
@[simp] theorem Ctx.setEv_sl (c : Ctx) (n v : Nat) : (c.setEv n v).sl = c.sl := rfl
@[simp] theorem Ctx.setEv_fslots (c : Ctx) (n v : Nat) : (c.setEv n v).fslots = c.fslots := rfl
@[simp] theorem Ctx.setEv_fslotNew (c : Ctx) (n v : Nat) : (c.setEv n v).fslotNew = c.fslotNew := rfl
@[simp] theorem Ctx.setEv_flagw (c : Ctx) (n v : Nat) : (c.setEv n v).flagw = c.flagw := rfl
@[simp] theorem Ctx.setEv_flagwNew (c : Ctx) (n v : Nat) : (c.setEv n v).flagwNew = c.flagwNew := rfl
@[simp] theorem Ctx.setEv_savedAt (c : Ctx) (n v : Nat) : (c.setEv n v).savedAt = c.savedAt := rfl
@[simp] theorem Ctx.setEv_runs (c : Ctx) (n v : Nat) : (c.setEv n v).runs = c.runs := rfl
@[simp] theorem Ctx.setEv_runSi (c : Ctx) (n v : Nat) : (c.setEv n v).runSi = c.runSi := rfl
@[simp] theorem Ctx.setEv_ksel (c : Ctx) (n v : Nat) : (c.setEv n v).ksel = c.ksel := rfl
@[simp] theorem Ctx.setEv_hoistNext (c : Ctx) (n v : Nat) : (c.setEv n v).hoistNext = c.hoistNext := rfl
@[simp] theorem Ctx.setEv_hlog (c : Ctx) (n v : Nat) : (c.setEv n v).hlog = c.hlog := rfl
@[simp] theorem Ctx.setEv_hoisted (c : Ctx) (n v : Nat) : (c.setEv n v).hoisted = c.hoisted := rfl
@[simp] theorem Ctx.setEv_hoisting (c : Ctx) (n v : Nat) : (c.setEv n v).hoisting = c.hoisting := rfl
@[simp] theorem Ctx.setEv_waves (c : Ctx) (n v : Nat) : (c.setEv n v).waves = c.waves := rfl
@[simp] theorem Ctx.setEv_cache (c : Ctx) (n v : Nat) : (c.setEv n v).cache = c.cache := rfl
@[simp] theorem Ctx.setEv_cacheUse (c : Ctx) (n v : Nat) : (c.setEv n v).cacheUse = c.cacheUse := rfl
@[simp] theorem Ctx.setEv_cacheNo (c : Ctx) (n v : Nat) : (c.setEv n v).cacheNo = c.cacheNo := rfl
@[simp] theorem Ctx.setEv_fetching (c : Ctx) (n v : Nat) : (c.setEv n v).fetching = c.fetching := rfl
@[simp] theorem Ctx.setEv_fetchBad (c : Ctx) (n v : Nat) : (c.setEv n v).fetchBad = c.fetchBad := rfl
@[simp] theorem Ctx.setEv_fetchStop (c : Ctx) (n v : Nat) : (c.setEv n v).fetchStop = c.fetchStop := rfl
@[simp] theorem Ctx.setEv_badSlots (c : Ctx) (n v : Nat) : (c.setEv n v).badSlots = c.badSlots := rfl
@[simp] theorem Ctx.setEv_streams (c : Ctx) (n v : Nat) : (c.setEv n v).streams = c.streams := rfl
@[simp] theorem Ctx.setEv_chans (c : Ctx) (n v : Nat) : (c.setEv n v).chans = c.chans := rfl
@[simp] theorem Ctx.setEv_regions (c : Ctx) (n v : Nat) : (c.setEv n v).regions = c.regions := rfl
@[simp] theorem Ctx.setEv_unwinding (c : Ctx) (n v : Nat) : (c.setEv n v).unwinding = c.unwinding := rfl
@[simp] theorem Ctx.setEv_trigRec (c : Ctx) (n v : Nat) : (c.setEv n v).trigRec = c.trigRec := rfl
@[simp] theorem Ctx.setEv_thandler (c : Ctx) (n v : Nat) : (c.setEv n v).thandler = c.thandler := rfl
@[simp] theorem Ctx.setEv_thNotice (c : Ctx) (n v : Nat) : (c.setEv n v).thNotice = c.thNotice := rfl
@[simp] theorem Ctx.setEv_wdcount (c : Ctx) (n v : Nat) : (c.setEv n v).wdcount = c.wdcount := rfl
@[simp] theorem Ctx.setEv_qcount (c : Ctx) (n v : Nat) : (c.setEv n v).qcount = c.qcount := rfl
@[simp] theorem Ctx.setEv_collCount (c : Ctx) (n v : Nat) : (c.setEv n v).collCount = c.collCount := rfl
@[simp] theorem Ctx.setEv_rwin (c : Ctx) (n v : Nat) : (c.setEv n v).rwin = c.rwin := rfl
@[simp] theorem Ctx.setEv_dividers (c : Ctx) (n v : Nat) : (c.setEv n v).dividers = c.dividers := rfl
@[simp] theorem Ctx.setEv_ending (c : Ctx) (n v : Nat) : (c.setEv n v).ending = c.ending := rfl
@[simp] theorem Ctx.setEv_draining (c : Ctx) (n v : Nat) : (c.setEv n v).draining = c.draining := rfl
@[simp] theorem Ctx.setEv_ended (c : Ctx) (n v : Nat) : (c.setEv n v).ended = c.ended := rfl
@[simp] theorem Ctx.setEv_fault (c : Ctx) (n v : Nat) : (c.setEv n v).fault = c.fault := rfl
@[simp] theorem Ctx.setEv_faultPref (c : Ctx) (n v : Nat) : (c.setEv n v).faultPref = c.faultPref := rfl
@[simp] theorem Ctx.setEv_killed (c : Ctx) (n v : Nat) : (c.setEv n v).killed = c.killed := rfl
@[simp] theorem Ctx.setEv_audOut (c : Ctx) (n v : Nat) : (c.setEv n v).audOut = c.audOut := rfl
@[simp] theorem Ctx.setEv_audState (c : Ctx) (n v : Nat) : (c.setEv n v).audState = c.audState := rfl
@[simp] theorem Ctx.setEv_audFlags (c : Ctx) (n v : Nat) : (c.setEv n v).audFlags = c.audFlags := rfl
@[simp] theorem Ctx.setEv_audHoist (c : Ctx) (n v : Nat) : (c.setEv n v).audHoist = c.audHoist := rfl
@[simp] theorem Ctx.setEv_audIn (c : Ctx) (n v : Nat) : (c.setEv n v).audIn = c.audIn := rfl
@[simp] theorem Ctx.setEv_brkResume (c : Ctx) (n v : Nat) : (c.setEv n v).brkResume = c.brkResume := rfl
@[simp] theorem Ctx.setEv_answer (c : Ctx) (n v : Nat) : (c.setEv n v).answer = c.answer := rfl
@[simp] theorem Ctx.setEv_yielded (c : Ctx) (n v : Nat) : (c.setEv n v).yielded = c.yielded := rfl
@[simp] theorem Ctx.setEv_replay (c : Ctx) (n v : Nat) : (c.setEv n v).replay = c.replay := rfl

end Sys2Proof.Machine
end

