-- ==== Sys2Proof/Laws/Memory.lean ====
section
/-!
SUPPORT. The laws of byte memory: what a read gives after a write, that every write keeps the canonical form, and that two
memories in that form which read alike are equal.
-/

namespace Sys2Proof.Machine

open Sys2Proof

/-! ### Reads -/

theorem Memory.read_nil (a : Nat) : Memory.read [] a = 0 := rfl

/-- Nothing below the first listed address. -/
theorem Memory.read_below {lo a : Nat} : ∀ {m : Memory}, m.wfFrom lo = true → a < lo → m.read a = 0
  | [], _, _ => rfl
  | (b, y) :: r, h, l => by
    simp only [Memory.wfFrom, Bool.and_eq_true, decide_eq_true_eq] at h
    have : b ≠ a := by omega
    simp only [Memory.read, this, if_false]
    exact Memory.read_below h.2 (by omega)

theorem Memory.wfFrom_mono {lo lo' : Nat} (h : lo' ≤ lo) : ∀ {m : Memory}, m.wfFrom lo = true → m.wfFrom lo' = true
  | [], _ => rfl
  | (b, y) :: r, w => by
    simp only [Memory.wfFrom, Bool.and_eq_true, decide_eq_true_eq] at w ⊢
    exact ⟨⟨by omega, w.1.2⟩, w.2⟩

/-- A read after a write to the same place gives the value written. -/
theorem Memory.read_write_same {lo : Nat} (a : Nat) (x : Byte) : ∀ {m : Memory}, m.wfFrom lo = true →
    (m.write a x).read a = x
  | [], _ => by
    simp only [Memory.write]
    split
    · subst_vars
      rfl
    · simp [Memory.read]
  | (b, y) :: r, w => by
    simp only [Memory.wfFrom, Bool.and_eq_true, decide_eq_true_eq] at w
    simp only [Memory.write]
    split
    · subst_vars
      split
      · subst_vars
        exact Memory.read_below w.2 (by omega)
      · simp [Memory.read]
    · split
      · split
        · subst_vars
          have : b ≠ a := by omega
          simp only [Memory.read, this, if_false]
          exact Memory.read_below w.2 (by omega)
        · simp [Memory.read]
      · simp only [Memory.read, *, if_false]
        exact Memory.read_write_same a x w.2

/-- A write leaves every other place alone. -/
theorem Memory.read_write_ne {a c : Nat} (x : Byte) (n : c ≠ a) : ∀ m : Memory, (m.write a x).read c = m.read c
  | [] => by
    simp only [Memory.write]
    split <;> simp [Memory.read, Ne.symm n]
  | (b, y) :: r => by
    simp only [Memory.write]
    split
    · subst_vars
      split <;> simp [Memory.read, Ne.symm n]
    · split
      · split <;> simp [Memory.read, Ne.symm n]
      · simp only [Memory.read]
        split
        · rfl
        · exact Memory.read_write_ne x n r

/-! ### The canonical form -/

/-- A write at or above the bound keeps the canonical form. -/
theorem Memory.wfFrom_write {lo : Nat} (a : Nat) (x : Byte) (l : lo ≤ a) : ∀ {m : Memory}, m.wfFrom lo = true →
    (m.write a x).wfFrom lo = true
  | [], _ => by
    simp only [Memory.write]
    split
    · rfl
    · simp_all [Memory.wfFrom]
  | (b, y) :: r, w => by
    simp only [Memory.wfFrom, Bool.and_eq_true, decide_eq_true_eq] at w
    simp only [Memory.write]
    split
    · subst_vars
      split
      · exact Memory.wfFrom_mono (by omega) w.2
      · simp_all [Memory.wfFrom]
    · split
      · split
        · simp_all [Memory.wfFrom]
        · have : a + 1 ≤ b := by omega
          simp_all [Memory.wfFrom]
      · simp only [Memory.wfFrom, w.1.1, w.1.2, decide_true, Bool.true_and, ne_eq, not_false_eq_true]
        exact Memory.wfFrom_write a x (by omega) w.2

/-- Every write of a byte keeps the canonical form. -/
theorem Memory.wf_write {m : Memory} (a : Nat) (x : Byte) (h : m.wf = true) : (m.write a x).wf = true :=
  Memory.wfFrom_write a x (Nat.zero_le a) h

/-- Every write of bytes keeps the canonical form. -/
theorem Memory.wf_writeN (bs : List Byte) : ∀ {m : Memory} (a : Nat), m.wf = true → (m.writeN a bs).wf = true := by
  induction bs with
  | nil => intro m a h; exact h
  | cons b r ih => intro m a h; exact ih (a + 1) (Memory.wf_write a b h)

/-- What a filter by address leaves of a memory in canonical form is in canonical form. -/
theorem Memory.wfFrom_filter (p : Host.Cell → Bool) : ∀ {lo : Nat} {m : Memory}, m.wfFrom lo = true →
    Memory.wfFrom lo (m.filter p) = true
  | _, [], _ => rfl
  | lo, (b, y) :: r, w => by
    simp only [Memory.wfFrom, Bool.and_eq_true, decide_eq_true_eq] at w
    simp only [List.filter]
    split
    · have := Memory.wfFrom_filter p w.2
      simp_all [Memory.wfFrom]
    · exact Memory.wfFrom_filter p (Memory.wfFrom_mono (by omega) w.2)

theorem Memory.wf_filter (p : Host.Cell → Bool) {m : Memory} (h : m.wf = true) : Memory.wf (m.filter p) = true :=
  Memory.wfFrom_filter p h

/-- Equal memories are equal data: two lists in canonical form that read alike everywhere are the same list. -/
theorem Memory.ext_read {lo : Nat} : ∀ {m n : Memory}, m.wfFrom lo = true → n.wfFrom lo = true →
    (∀ a, m.read a = n.read a) → m = n
  | [], [], _, _, _ => rfl
  | [], (b, y) :: r, _, w, h => by
    simp only [Memory.wfFrom, Bool.and_eq_true, decide_eq_true_eq] at w
    have := h b
    simp [Memory.read] at this
    exact absurd this.symm w.1.2
  | (b, y) :: r, [], w, _, h => by
    simp only [Memory.wfFrom, Bool.and_eq_true, decide_eq_true_eq] at w
    have := h b
    simp [Memory.read] at this
    exact absurd this w.1.2
  | (b, y) :: r, (c, z) :: q, w, v, h => by
    simp only [Memory.wfFrom, Bool.and_eq_true, decide_eq_true_eq] at w v
    rcases Nat.lt_trichotomy b c with l | e | l
    · have e := h b
      have n : c ≠ b := by omega
      simp only [Memory.read, if_true, n, if_false] at e
      rw [Memory.read_below v.2 (by omega)] at e
      exact absurd e w.1.2
    · subst e
      have e := h b
      simp only [Memory.read, if_true] at e
      subst e
      congr 1
      refine Memory.ext_read w.2 v.2 fun a => ?_
      by_cases n : b = a
      · subst n
        rw [Memory.read_below w.2 (by omega), Memory.read_below v.2 (by omega)]
      · have := h a
        simpa [Memory.read, n] using this
    · have e := h c
      have n : b ≠ c := by omega
      simp only [Memory.read, if_true, n, if_false] at e
      rw [Memory.read_below w.2 (by omega)] at e
      exact absurd e.symm v.1.2

/-! ### Several bytes -/

/-- A write of bytes leaves every address outside them alone. -/
theorem Memory.read_writeN_out (bs : List Byte) : ∀ (m : Memory) (a c : Nat), (c < a ∨ a + bs.length ≤ c) →
    (m.writeN a bs).read c = m.read c := by
  induction bs with
  | nil => intro m a c _; rfl
  | cons b r ih =>
    intro m a c h
    simp only [List.length_cons] at h
    simp only [Memory.writeN]
    rw [ih _ _ _ (by omega), Memory.read_write_ne b (by omega)]

/-- Byte i of a write of bytes reads back. -/
theorem Memory.read_writeN_in (bs : List Byte) : ∀ {m : Memory} (a i : Nat), m.wf = true → (h : i < bs.length) →
    (m.writeN a bs).read (a + i) = bs[i] := by
  induction bs with
  | nil => intro m a i _ h; exact absurd h (by simp)
  | cons b r ih =>
    intro m a i w h
    cases i with
    | zero =>
      simp only [Memory.writeN, Nat.add_zero, List.getElem_cons_zero]
      rw [Memory.read_writeN_out r _ _ _ (by omega)]
      exact Memory.read_write_same a b w
    | succ i =>
      simp only [Memory.writeN, List.getElem_cons_succ]
      have := ih (a + 1) i (Memory.wf_write a b w) (by simpa using h)
      rw [← this]
      congr 1
      omega

/-- A read of the bytes just written gives them. -/
theorem Memory.readN_writeN {m : Memory} (a : Nat) (bs : List Byte) (w : m.wf = true) :
    (m.writeN a bs).readN a bs.length = bs := by
  have len : ∀ n (m : Memory) a, (m.readN a n).length = n := by
    intro n
    induction n with
    | zero => intro m a; rfl
    | succ n ih => intro m a; simp [Memory.readN, ih]
  have get : ∀ n (m : Memory) a i (h : i < (m.readN a n).length), (m.readN a n)[i] = m.read (a + i) := by
    intro n
    induction n with
    | zero => intro m a i h; simp [Memory.readN] at h
    | succ n ih =>
      intro m a i h
      cases i with
      | zero => simp [Memory.readN]
      | succ i =>
        simp only [Memory.readN, List.getElem_cons_succ]
        rw [ih]
        congr 1
        omega
  refine List.ext_getElem (len _ _ _) fun i h1 h2 => ?_
  rw [get, Memory.read_writeN_in bs a i w h2]

/-! ### The named operations -/

@[simp] theorem physWrite_mem (s : State) (pa : Nat) (bs : List Byte) : (s.physWrite pa bs).mem = (s.busWrite pa bs).mem := rfl
@[simp] theorem physWrite_poison (s : State) (pa : Nat) (bs : List Byte) :
    (s.physWrite pa bs).poison = (s.busWrite pa bs).poison := rfl
@[simp] theorem physWrite_hub (s : State) (pa : Nat) (bs : List Byte) : (s.physWrite pa bs).hub = (s.busWrite pa bs).hub := rfl

/-- What a write to a host can do. -/
theorem hostWrite_cases (s : State) (f pa : Nat) (bs : List Byte) :
    (s.hostWrite f pa bs).mem = s.mem.writeN pa bs ∨ (s.hostWrite f pa bs).mem = s.mem := by
  unfold State.hostWrite
  split
  · exact .inl rfl
  · exact .inr rfl

@[simp] theorem hostWrite_rings (s : State) (f pa : Nat) (bs : List Byte) : (s.hostWrite f pa bs).rings = s.rings := by
  unfold State.hostWrite
  split <;> rfl

/-- What a write to device physical memory can do: bytes in HBM and, over a link that is up, in host memory; otherwise memory
stands. -/
theorem busWrite_cases (s : State) (pa : Nat) (bs : List Byte) :
    (s.busWrite pa bs).mem = s.mem.writeN pa bs ∨ (s.busWrite pa bs).mem = s.mem := by
  unfold State.busWrite
  split
  · exact .inl rfl
  · split
    · exact hostWrite_cases s _ pa bs
    · exact .inr rfl

@[simp] theorem busWrite_rings (s : State) (pa : Nat) (bs : List Byte) : (s.busWrite pa bs).rings = s.rings := by
  unfold State.busWrite
  split
  · rfl
  · split
    · exact hostWrite_rings s _ pa bs
    · rfl

@[simp] theorem physWrite_rings (s : State) (pa : Nat) (bs : List Byte) : (s.physWrite pa bs).rings = s.rings :=
  busWrite_rings s pa bs

theorem busWrite_wf (s : State) (pa : Nat) (bs : List Byte) (h : s.mem.wf = true) : (s.busWrite pa bs).mem.wf = true := by
  obtain e | e := busWrite_cases s pa bs <;> rw [e]
  · exact Memory.wf_writeN bs pa h
  · exact h

/-- A record written to device physical memory keeps the canonical form. -/
theorem physWrite_wf (s : State) (pa : Nat) (bs : List Byte) (h : s.mem.wf = true) : (s.physWrite pa bs).mem.wf = true :=
  busWrite_wf s pa bs h

/-- A byte of a block written keeps the canonical form of the scratchpad. -/
theorem Ring.spadPut_wf (r : Ring) (blk o : Nat) (swz : Bool) (x : Byte) (h : r.spad.wf = true) :
    (r.spadPut blk o swz x).spad.wf = true := Memory.wf_write _ _ h

theorem Ring.spadWrite_wf (bs : List Byte) : ∀ (r : Ring) (blk o : Nat) (swz : Bool), r.spad.wf = true →
    (r.spadWrite blk o swz bs).spad.wf = true := by
  induction bs with
  | nil => intro r blk o swz h; exact h
  | cons b l ih => intro r blk o swz h; exact ih _ _ _ _ (Ring.spadPut_wf r blk o swz b h)

theorem Ring.putWord_wf (r : Ring) (blk word : Nat) (swz : Bool) (v : Vec) (mask : W32) (h : r.spad.wf = true) :
    (r.putWord blk word swz v mask).spad.wf = true := by
  unfold Ring.putWord
  generalize List.range 32 = ls
  induction ls generalizing r with
  | nil => exact h
  | cons l ls ih =>
    simp only [List.foldl_cons]
    refine ih _ ?_
    split
    · exact Ring.spadWrite_wf _ r _ _ _ h
    · exact h

end Sys2Proof.Machine
end

