-- ==== Sys2Proof/Laws/PerInstr.lean ====
section
/-!
SUPPORT. One lemma per constructor of `Instr`: the fields that the encoder lays out for an instruction are read back as
that instruction. The words themselves are put together in the round trips.
-/

namespace Sys2Proof.Laws.Encodes

open Sys2Proof

/-- The fields of a well-formed instruction are read back as it: group and operation of a row, or the operation, operands,
transition and second word of a step. -/
def Statement (i : Instr) : Prop :=
  i.wf = true →
    (∀ sh r, i.shape? = some sh → i.row? = some r → rowOfMajFn sh.maj sh.fn r = some i) ∧
    (∀ maj fn r, i.tile? = some (maj, fn, r) → tileOfMajFn maj fn r = some i) ∧
    (i.kind = .step →
      stepFields (stepOp i).toNat (stepOperands i) ((Trans.ofBits (stepTrans i)).getD .fall)
        ((stepTrans i).extractLsb' 0 12) i.long? = some i)

/-- A row that one code names needs no more than the code. -/
theorem of_row (i : Instr) (sh : RowShape) (r : Row) (hs : i.shape? = some sh) (hr : i.row? = some r)
    (ht : i.tile? = none) (h : i.wf = true → rowOfMajFn sh.maj sh.fn r = some i) : Statement i := by
  intro w
  refine ⟨fun sh' r' h1 h2 => ?_, fun _ _ _ h1 => ?_, fun h1 => ?_⟩
  · rw [hs] at h1
    rw [hr] at h2
    cases h1
    cases h2
    exact h w
  · rw [ht] at h1
    cases h1
  · simp [Instr.kind, hr] at h1

/-- A tile row. -/
theorem of_tile (i : Instr) (m f : Nat) (r : TileRow) (hr : i.row? = none) (ht : i.tile? = some (m, f, r))
    (h : tileOfMajFn m f r = some i) : Statement i := by
  intro _
  refine ⟨fun _ _ _ h2 => ?_, fun m' f' r' h1 => ?_, fun h1 => ?_⟩
  · rw [hr] at h2
    cases h2
  · rw [ht] at h1
    cases h1
    exact h
  · simp [Instr.kind, ht] at h1

/-- A step. -/
theorem of_step (i : Instr) (hr : i.row? = none) (ht : i.tile? = none)
    (h : stepFields (stepOp i).toNat (stepOperands i) ((Trans.ofBits (stepTrans i)).getD .fall)
      ((stepTrans i).extractLsb' 0 12) i.long? = some i) : Statement i := by
  intro _
  refine ⟨fun _ _ _ h2 => ?_, fun _ _ _ h1 => ?_, fun _ => h⟩
  · rw [hr] at h2
    cases h2
  · rw [ht] at h1
    cases h1

/-- A machine event has no word. -/
theorem of_event (i : Instr) (hr : i.row? = none) (ht : i.tile? = none) (h : i.kind = .event) : Statement i := by
  intro _
  refine ⟨fun _ _ _ h2 => ?_, fun _ _ _ h1 => ?_, fun h1 => ?_⟩
  · rw [hr] at h2
    cases h2
  · rw [ht] at h1
    cases h1
  · rw [h] at h1
    cases h1

/-- What registration has checked of a row's fields. -/
theorem wf_row {i : Instr} {sh : RowShape} {r : Row} (hs : i.shape? = some sh) (hr : i.row? = some r) (w : i.wf = true) :
    sh.ty.ok r.ty = true ∧ sh.d.ok r.dst = true ∧ sh.a.ok r.sa = true := by
  have c : i.check = checkRow i sh r := by
    unfold Instr.check
    rw [hs, hr]
  simp only [Instr.wf, c, checkRow, beq_iff_eq] at w
  split at w
  · cases w
  · rename_i h
    simp only [Bool.not_eq_true, Bool.not_eq_false', Bool.and_eq_true] at h
    exact ⟨h.1.1.1.1, h.1.1.1.2, h.1.1.2⟩

theorem rowNop (r : Row) : Statement (.rowNop r) := of_row _ _ r rfl rfl rfl fun _ => rfl
theorem sig (r : Row) : Statement (.sig r) := of_row _ _ r rfl rfl rfl fun _ => rfl
theorem rowTrap (r : Row) : Statement (.rowTrap r) := of_row _ _ r rfl rfl rfl fun _ => rfl
theorem rowBrk (r : Row) : Statement (.rowBrk r) := of_row _ _ r rfl rfl rfl fun _ => rfl
theorem flagrd (r : Row) : Statement (.flagrd r) := of_row _ _ r rfl rfl rfl fun _ => rfl
theorem fmtld (r : Row) : Statement (.fmtld r) := of_row _ _ r rfl rfl rfl fun _ => rfl
theorem tagchk (r : Row) : Statement (.tagchk r) := of_row _ _ r rfl rfl rfl fun _ => rfl
theorem iter (r : Row) : Statement (.iter r) := of_row _ _ r rfl rfl rfl fun _ => rfl
theorem eid (r : Row) : Statement (.eid r) := of_row _ _ r rfl rfl rfl fun _ => rfl
theorem lid (r : Row) : Statement (.lid r) := of_row _ _ r rfl rfl rfl fun _ => rfl
theorem sid (r : Row) : Statement (.sid r) := of_row _ _ r rfl rfl rfl fun _ => rfl
theorem tcrd (r : Row) : Statement (.tcrd r) := of_row _ _ r rfl rfl rfl fun _ => rfl
theorem imov (r : Row) : Statement (.imov r) := of_row _ _ r rfl rfl rfl fun _ => rfl
theorem ilui (r : Row) : Statement (.ilui r) := of_row _ _ r rfl rfl rfl fun _ => rfl
theorem iadd (r : Row) : Statement (.iadd r) := of_row _ _ r rfl rfl rfl fun _ => rfl
theorem isub (r : Row) : Statement (.isub r) := of_row _ _ r rfl rfl rfl fun _ => rfl
theorem imul (r : Row) : Statement (.imul r) := of_row _ _ r rfl rfl rfl fun _ => rfl
theorem imulhi (r : Row) : Statement (.imulhi r) := of_row _ _ r rfl rfl rfl fun _ => rfl
theorem imad (r : Row) : Statement (.imad r) := of_row _ _ r rfl rfl rfl fun _ => rfl
theorem iaddsat (r : Row) : Statement (.iaddsat r) := of_row _ _ r rfl rfl rfl fun _ => rfl
theorem isubsat (r : Row) : Statement (.isubsat r) := of_row _ _ r rfl rfl rfl fun _ => rfl
theorem iabs (r : Row) : Statement (.iabs r) := of_row _ _ r rfl rfl rfl fun _ => rfl
theorem ineg (r : Row) : Statement (.ineg r) := of_row _ _ r rfl rfl rfl fun _ => rfl
theorem imin (r : Row) : Statement (.imin r) := of_row _ _ r rfl rfl rfl fun _ => rfl
theorem imax (r : Row) : Statement (.imax r) := of_row _ _ r rfl rfl rfl fun _ => rfl
theorem iand (r : Row) : Statement (.iand r) := of_row _ _ r rfl rfl rfl fun _ => rfl
theorem ior (r : Row) : Statement (.ior r) := of_row _ _ r rfl rfl rfl fun _ => rfl
theorem ixor (r : Row) : Statement (.ixor r) := of_row _ _ r rfl rfl rfl fun _ => rfl
theorem inot (r : Row) : Statement (.inot r) := of_row _ _ r rfl rfl rfl fun _ => rfl
theorem ishl (r : Row) : Statement (.ishl r) := of_row _ _ r rfl rfl rfl fun _ => rfl
theorem ishr (r : Row) : Statement (.ishr r) := of_row _ _ r rfl rfl rfl fun _ => rfl
theorem isra (r : Row) : Statement (.isra r) := of_row _ _ r rfl rfl rfl fun _ => rfl
theorem irot (r : Row) : Statement (.irot r) := of_row _ _ r rfl rfl rfl fun _ => rfl
theorem iclz (r : Row) : Statement (.iclz r) := of_row _ _ r rfl rfl rfl fun _ => rfl
theorem ipop (r : Row) : Statement (.ipop r) := of_row _ _ r rfl rfl rfl fun _ => rfl
theorem ibfx (r : Row) : Statement (.ibfx r) := of_row _ _ r rfl rfl rfl fun _ => rfl
theorem ibfi (r : Row) : Statement (.ibfi r) := of_row _ _ r rfl rfl rfl fun _ => rfl
theorem icmpEq (r : Row) : Statement (.icmpEq r) := of_row _ _ r rfl rfl rfl fun _ => rfl
theorem icmpNe (r : Row) : Statement (.icmpNe r) := of_row _ _ r rfl rfl rfl fun _ => rfl
theorem icmpLt (r : Row) : Statement (.icmpLt r) := of_row _ _ r rfl rfl rfl fun _ => rfl
theorem icmpLe (r : Row) : Statement (.icmpLe r) := of_row _ _ r rfl rfl rfl fun _ => rfl
theorem icmpGt (r : Row) : Statement (.icmpGt r) := of_row _ _ r rfl rfl rfl fun _ => rfl
theorem icmpGe (r : Row) : Statement (.icmpGe r) := of_row _ _ r rfl rfl rfl fun _ => rfl
theorem fadd (r : Row) : Statement (.fadd r) := of_row _ _ r rfl rfl rfl fun _ => rfl
theorem fsub (r : Row) : Statement (.fsub r) := of_row _ _ r rfl rfl rfl fun _ => rfl
theorem fmul (r : Row) : Statement (.fmul r) := of_row _ _ r rfl rfl rfl fun _ => rfl
theorem ffma (r : Row) : Statement (.ffma r) := of_row _ _ r rfl rfl rfl fun _ => rfl
theorem ffms (r : Row) : Statement (.ffms r) := of_row _ _ r rfl rfl rfl fun _ => rfl
theorem fnfma (r : Row) : Statement (.fnfma r) := of_row _ _ r rfl rfl rfl fun _ => rfl
theorem fnfms (r : Row) : Statement (.fnfms r) := of_row _ _ r rfl rfl rfl fun _ => rfl
theorem fmin (r : Row) : Statement (.fmin r) := of_row _ _ r rfl rfl rfl fun _ => rfl
theorem fmax (r : Row) : Statement (.fmax r) := of_row _ _ r rfl rfl rfl fun _ => rfl
theorem fabs (r : Row) : Statement (.fabs r) := of_row _ _ r rfl rfl rfl fun _ => rfl
theorem fneg (r : Row) : Statement (.fneg r) := of_row _ _ r rfl rfl rfl fun _ => rfl
theorem fcopysign (r : Row) : Statement (.fcopysign r) := of_row _ _ r rfl rfl rfl fun _ => rfl
theorem fscale (r : Row) : Statement (.fscale r) := of_row _ _ r rfl rfl rfl fun _ => rfl
theorem fround (r : Row) : Statement (.fround r) := of_row _ _ r rfl rfl rfl fun _ => rfl
theorem fclass (r : Row) : Statement (.fclass r) := of_row _ _ r rfl rfl rfl fun _ => rfl
theorem fcmpEq (r : Row) : Statement (.fcmpEq r) := of_row _ _ r rfl rfl rfl fun _ => rfl
theorem fcmpNe (r : Row) : Statement (.fcmpNe r) := of_row _ _ r rfl rfl rfl fun _ => rfl
theorem fcmpLt (r : Row) : Statement (.fcmpLt r) := of_row _ _ r rfl rfl rfl fun _ => rfl
theorem fcmpLe (r : Row) : Statement (.fcmpLe r) := of_row _ _ r rfl rfl rfl fun _ => rfl
theorem fcmpGt (r : Row) : Statement (.fcmpGt r) := of_row _ _ r rfl rfl rfl fun _ => rfl
theorem fcmpGe (r : Row) : Statement (.fcmpGe r) := of_row _ _ r rfl rfl rfl fun _ => rfl
theorem fcmpUn (r : Row) : Statement (.fcmpUn r) := of_row _ _ r rfl rfl rfl fun _ => rfl
theorem fcmpOrd (r : Row) : Statement (.fcmpOrd r) := of_row _ _ r rfl rfl rfl fun _ => rfl
theorem frcp (r : Row) : Statement (.frcp r) := of_row _ _ r rfl rfl rfl fun _ => rfl
theorem frsq (r : Row) : Statement (.frsq r) := of_row _ _ r rfl rfl rfl fun _ => rfl
theorem fsqrt (r : Row) : Statement (.fsqrt r) := of_row _ _ r rfl rfl rfl fun _ => rfl
theorem fdiv (r : Row) : Statement (.fdiv r) := of_row _ _ r rfl rfl rfl fun _ => rfl
theorem fexp2 (r : Row) : Statement (.fexp2 r) := of_row _ _ r rfl rfl rfl fun _ => rfl
theorem flog2 (r : Row) : Statement (.flog2 r) := of_row _ _ r rfl rfl rfl fun _ => rfl
theorem ftanh (r : Row) : Statement (.ftanh r) := of_row _ _ r rfl rfl rfl fun _ => rfl
theorem cvt (r : Row) : Statement (.cvt r) := of_row _ _ r rfl rfl rfl fun _ => rfl
theorem packF32 (r : Row) : Statement (.packF32 r) :=
  of_row _ _ r rfl rfl rfl fun w => by
    have h : r.ty = .f32 := by simpa [TyKind.ok] using (wf_row (r := r) rfl rfl w).1
    change (if r.ty = .n8 then some (Instr.packN8 r) else some (Instr.packF32 r)) = _
    simp [h]
theorem packN8 (r : Row) : Statement (.packN8 r) :=
  of_row _ _ r rfl rfl rfl fun w => by
    have h : r.ty = .n8 := by simpa [TyKind.ok] using (wf_row (r := r) rfl rfl w).1
    change (if r.ty = .n8 then some (Instr.packN8 r) else some (Instr.packF32 r)) = _
    simp [h]
theorem unpackF32 (r : Row) : Statement (.unpackF32 r) :=
  of_row _ _ r rfl rfl rfl fun w => by
    have h : r.ty = .f32 := by simpa [TyKind.ok] using (wf_row (r := r) rfl rfl w).1
    change (if r.ty = .n8 then some (Instr.unpackN8 r) else some (Instr.unpackF32 r)) = _
    simp [h]
theorem unpackN8 (r : Row) : Statement (.unpackN8 r) :=
  of_row _ _ r rfl rfl rfl fun w => by
    have h : r.ty = .n8 := by simpa [TyKind.ok] using (wf_row (r := r) rfl rfl w).1
    change (if r.ty = .n8 then some (Instr.unpackN8 r) else some (Instr.unpackF32 r)) = _
    simp [h]
theorem quant (r : Row) : Statement (.quant r) := of_row _ _ r rfl rfl rfl fun _ => rfl
theorem fexp8 (r : Row) : Statement (.fexp8 r) := of_row _ _ r rfl rfl rfl fun _ => rfl
theorem itof (r : Row) : Statement (.itof r) := of_row _ _ r rfl rfl rfl fun _ => rfl
theorem ftoi (r : Row) : Statement (.ftoi r) := of_row _ _ r rfl rfl rfl fun _ => rfl
theorem pselTag (r : Row) : Statement (.pselTag r) :=
  of_row _ _ r rfl rfl rfl fun w => by
    have h := (wf_row (r := r) rfl rfl w).2.2
    change (if r.sa.isPred then some (Instr.pselPred r) else some (Instr.pselTag r)) = _
    cases e : r.sa <;> simp_all [SKind.ok, Opnd.isPred]
theorem pselPred (r : Row) : Statement (.pselPred r) :=
  of_row _ _ r rfl rfl rfl fun w => by
    have h := (wf_row (r := r) rfl rfl w).2.2
    change (if r.sa.isPred then some (Instr.pselPred r) else some (Instr.pselTag r)) = _
    cases e : r.sa <;> simp_all [SKind.ok, Opnd.isPred]
theorem pand (r : Row) : Statement (.pand r) := of_row _ _ r rfl rfl rfl fun _ => rfl
theorem por (r : Row) : Statement (.por r) := of_row _ _ r rfl rfl rfl fun _ => rfl
theorem pxor (r : Row) : Statement (.pxor r) := of_row _ _ r rfl rfl rfl fun _ => rfl
theorem pnot (r : Row) : Statement (.pnot r) := of_row _ _ r rfl rfl rfl fun _ => rfl
theorem pset (r : Row) : Statement (.pset r) := of_row _ _ r rfl rfl rfl fun _ => rfl
theorem pmovPred (r : Row) : Statement (.pmovPred r) :=
  of_row _ _ r rfl rfl rfl fun w => by
    obtain ⟨-, h, k⟩ := wf_row (r := r) rfl rfl w
    change (if !r.sa.isPred then some (Instr.pmovVecToPred r) else if r.dst.isPred then some (Instr.pmovPred r)
      else some (Instr.pmovPredToVec r)) = _
    cases e : r.sa <;> cases f : r.dst <;> simp_all [SKind.ok, DKind.ok, Opnd.isPred]
theorem pmovVecToPred (r : Row) : Statement (.pmovVecToPred r) :=
  of_row _ _ r rfl rfl rfl fun w => by
    obtain ⟨-, h, k⟩ := wf_row (r := r) rfl rfl w
    change (if !r.sa.isPred then some (Instr.pmovVecToPred r) else if r.dst.isPred then some (Instr.pmovPred r)
      else some (Instr.pmovPredToVec r)) = _
    cases e : r.sa <;> cases f : r.dst <;> simp_all [SKind.ok, DKind.ok, Opnd.isPred]
theorem pmovPredToVec (r : Row) : Statement (.pmovPredToVec r) :=
  of_row _ _ r rfl rfl rfl fun w => by
    obtain ⟨-, h, k⟩ := wf_row (r := r) rfl rfl w
    change (if !r.sa.isPred then some (Instr.pmovVecToPred r) else if r.dst.isPred then some (Instr.pmovPred r)
      else some (Instr.pmovPredToVec r)) = _
    cases e : r.sa <;> cases f : r.dst <;> simp_all [SKind.ok, DKind.ok, Opnd.isPred]
theorem pany (r : Row) : Statement (.pany r) := of_row _ _ r rfl rfl rfl fun _ => rfl
theorem pall (r : Row) : Statement (.pall r) := of_row _ _ r rfl rfl rfl fun _ => rfl
theorem lrot (r : Row) : Statement (.lrot r) := of_row _ _ r rfl rfl rfl fun _ => rfl
theorem lbcast (r : Row) : Statement (.lbcast r) := of_row _ _ r rfl rfl rfl fun _ => rfl
theorem lshuf (r : Row) : Statement (.lshuf r) := of_row _ _ r rfl rfl rfl fun _ => rfl
theorem lredAdd (r : Row) : Statement (.lredAdd r) := of_row _ _ r rfl rfl rfl fun _ => rfl
theorem lredMax (r : Row) : Statement (.lredMax r) := of_row _ _ r rfl rfl rfl fun _ => rfl
theorem lredMin (r : Row) : Statement (.lredMin r) := of_row _ _ r rfl rfl rfl fun _ => rfl
theorem lscanAdd (r : Row) : Statement (.lscanAdd r) := of_row _ _ r rfl rfl rfl fun _ => rfl
theorem lzip (r : Row) : Statement (.lzip r) := of_row _ _ r rfl rfl rfl fun _ => rfl
theorem lunzip (r : Row) : Statement (.lunzip r) := of_row _ _ r rfl rfl rfl fun _ => rfl
theorem sld (r : Row) : Statement (.sld r) := of_row _ _ r rfl rfl rfl fun _ => rfl
theorem sst (r : Row) : Statement (.sst r) := of_row _ _ r rfl rfl rfl fun _ => rfl
theorem gadr (r : Row) : Statement (.gadr r) := of_row _ _ r rfl rfl rfl fun _ => rfl
theorem qpop (r : Row) : Statement (.qpop r) := of_row _ _ r rfl rfl rfl fun _ => rfl
theorem qpeek (r : Row) : Statement (.qpeek r) := of_row _ _ r rfl rfl rfl fun _ => rfl
theorem qpush (r : Row) : Statement (.qpush r) := of_row _ _ r rfl rfl rfl fun _ => rfl
theorem qtx (r : Row) : Statement (.qtx r) := of_row _ _ r rfl rfl rfl fun _ => rfl
theorem mmaBf16 (r : TileRow) : Statement (.mmaBf16 r) := of_tile _ _ _ r rfl rfl rfl
theorem mmaF16 (r : TileRow) : Statement (.mmaF16 r) := of_tile _ _ _ r rfl rfl rfl
theorem mmaF8 (r : TileRow) : Statement (.mmaF8 r) := of_tile _ _ _ r rfl rfl rfl
theorem mmc (r : TileRow) : Statement (.mmc r) := of_tile _ _ _ r rfl rfl rfl
theorem mmcCh (r : TileRow) : Statement (.mmcCh r) := of_tile _ _ _ r rfl rfl rfl
theorem accz (r : Row) : Statement (.accz r) := of_row _ _ r rfl rfl rfl fun _ => rfl
theorem accrd (r : Row) : Statement (.accrd r) := of_row _ _ r rfl rfl rfl fun _ => rfl
theorem accwr (r : Row) : Statement (.accwr r) := of_row _ _ r rfl rfl rfl fun _ => rfl
theorem xcvt (r : Row) : Statement (.xcvt r) := of_row _ _ r rfl rfl rfl fun _ => rfl
theorem cmerge (r : Row) : Statement (.cmerge r) := of_row _ _ r rfl rfl rfl fun _ => rfl
theorem xmerge (r : Row) : Statement (.xmerge r) := of_row _ _ r rfl rfl rfl fun _ => rfl
theorem xld (r : Row) : Statement (.xld r) := of_row _ _ r rfl rfl rfl fun _ => rfl
theorem xst (r : Row) : Statement (.xst r) := of_row _ _ r rfl rfl rfl fun _ => rfl
theorem mchk (r : Row) : Statement (.mchk r) := of_row _ _ r rfl rfl rfl fun _ => rfl
theorem mbnd (r : Row) : Statement (.mbnd r) := of_row _ _ r rfl rfl rfl fun _ => rfl
theorem xcfg (r : Row) : Statement (.xcfg r) := of_row _ _ r rfl rfl rfl fun _ => rfl
theorem stepFields_0 (o : BitVec 38) (t : Trans) (target : BitVec 12) (l : Option LongForm) :
    stepFields 0 o t target l =
      (some (Instr.stepNop t)) := rfl

theorem stepFields_1 (o : BitVec 38) (t : Trans) (target : BitVec 12) (l : Option LongForm) :
    stepFields 1 o t target l =
      (if o.getLsbD 37 then some (Instr.goIndirect (o.extractLsb' 33 4).toFin) else some (Instr.go target)) := rfl

theorem stepFields_2 (o : BitVec 38) (t : Trans) (target : BitVec 12) (l : Option LongForm) :
    stepFields 2 o t target l =
      (some (Instr.call target)) := rfl

theorem stepFields_3 (o : BitVec 38) (t : Trans) (target : BitVec 12) (l : Option LongForm) :
    stepFields 3 o t target l =
      (some (Instr.ret)) := rfl

theorem stepFields_4 (o : BitVec 38) (t : Trans) (target : BitVec 12) (l : Option LongForm) :
    stepFields 4 o t target l =
      (some (Instr.endStep (o.extractLsb' 0 16))) := rfl

theorem stepFields_5 (o : BitVec 38) (t : Trans) (target : BitVec 12) (l : Option LongForm) :
    stepFields 5 o t target l =
      (some (Instr.waitt (o.extractLsb' 30 8) t)) := rfl

theorem stepFields_6 (o : BitVec 38) (t : Trans) (target : BitVec 12) (l : Option LongForm) :
    stepFields 6 o t target l =
      (some (Instr.waits (o.extractLsb' 22 16) (o.getLsbD 21) t)) := rfl

theorem stepFields_7 (o : BitVec 38) (t : Trans) (target : BitVec 12) (l : Option LongForm) :
    stepFields 7 o t target l =
      (some (Instr.stepTrap (o.extractLsb' 0 16))) := rfl

theorem stepFields_8 (o : BitVec 38) (t : Trans) (target : BitVec 12) (l : Option LongForm) :
    stepFields 8 o t target l =
      (some (Instr.yield t)) := rfl

theorem stepFields_9 (o : BitVec 38) (t : Trans) (target : BitVec 12) (l : Option LongForm) :
    stepFields 9 o t target l =
      (some (Instr.sys (o.extractLsb' 0 16) t)) := rfl

theorem stepFields_10 (o : BitVec 38) (t : Trans) (target : BitVec 12) (l : Option LongForm) :
    stepFields 10 o t target l =
      (some (Instr.stepBrk (o.extractLsb' 0 16) t)) := rfl

theorem stepFields_12 (o : BitVec 38) (t : Trans) (target : BitVec 12) (l : Option LongForm) :
    stepFields 12 o t target l =
      (some (Instr.kset (o.extractLsb' 34 4).toFin (o.getLsbD 33) (o.extractLsb' 0 32) t)) := rfl

theorem stepFields_13 (o : BitVec 38) (t : Trans) (target : BitVec 12) (l : Option LongForm) :
    stepFields 13 o t target l =
      ((KSrc.ofBits (o.extractLsb' 26 8)).bind fun src => some (Instr.kmov (o.extractLsb' 34 4).toFin src t)) := rfl

theorem stepFields_14 (o : BitVec 38) (t : Trans) (target : BitVec 12) (l : Option LongForm) :
    stepFields 14 o t target l =
      (some (Instr.kadd (o.extractLsb' 34 4).toFin (o.extractLsb' 30 4).toFin (KOperand.ofBits (o.extractLsb' 0 30)) t)) := rfl

theorem stepFields_15 (o : BitVec 38) (t : Trans) (target : BitVec 12) (l : Option LongForm) :
    stepFields 15 o t target l =
      (some (Instr.ksub (o.extractLsb' 34 4).toFin (o.extractLsb' 30 4).toFin (KOperand.ofBits (o.extractLsb' 0 30)) t)) := rfl

theorem stepFields_16 (o : BitVec 38) (t : Trans) (target : BitVec 12) (l : Option LongForm) :
    stepFields 16 o t target l =
      (some (Instr.kmul (o.extractLsb' 34 4).toFin (o.extractLsb' 30 4).toFin (KOperand.ofBits (o.extractLsb' 0 30)) t)) := rfl

theorem stepFields_17 (o : BitVec 38) (t : Trans) (target : BitVec 12) (l : Option LongForm) :
    stepFields 17 o t target l =
      (some (Instr.kand (o.extractLsb' 34 4).toFin (o.extractLsb' 30 4).toFin (KOperand.ofBits (o.extractLsb' 0 30)) t)) := rfl

theorem stepFields_18 (o : BitVec 38) (t : Trans) (target : BitVec 12) (l : Option LongForm) :
    stepFields 18 o t target l =
      (some (Instr.kor (o.extractLsb' 34 4).toFin (o.extractLsb' 30 4).toFin (KOperand.ofBits (o.extractLsb' 0 30)) t)) := rfl

theorem stepFields_19 (o : BitVec 38) (t : Trans) (target : BitVec 12) (l : Option LongForm) :
    stepFields 19 o t target l =
      (some (Instr.kxor (o.extractLsb' 34 4).toFin (o.extractLsb' 30 4).toFin (KOperand.ofBits (o.extractLsb' 0 30)) t)) := rfl

theorem stepFields_20 (o : BitVec 38) (t : Trans) (target : BitVec 12) (l : Option LongForm) :
    stepFields 20 o t target l =
      (some (Instr.kshl (o.extractLsb' 34 4).toFin (o.extractLsb' 30 4).toFin (KOperand.ofBits (o.extractLsb' 0 30)) t)) := rfl

theorem stepFields_21 (o : BitVec 38) (t : Trans) (target : BitVec 12) (l : Option LongForm) :
    stepFields 21 o t target l =
      (some (Instr.kshr (o.extractLsb' 34 4).toFin (o.extractLsb' 30 4).toFin (KOperand.ofBits (o.extractLsb' 0 30)) t)) := rfl

theorem stepFields_22 (o : BitVec 38) (t : Trans) (target : BitVec 12) (l : Option LongForm) :
    stepFields 22 o t target l =
      (some (Instr.kmin (o.extractLsb' 34 4).toFin (o.extractLsb' 30 4).toFin (KOperand.ofBits (o.extractLsb' 0 30)) t)) := rfl

theorem stepFields_23 (o : BitVec 38) (t : Trans) (target : BitVec 12) (l : Option LongForm) :
    stepFields 23 o t target l =
      (some (Instr.kmax (o.extractLsb' 34 4).toFin (o.extractLsb' 30 4).toFin (KOperand.ofBits (o.extractLsb' 0 30)) t)) := rfl

theorem stepFields_24 (o : BitVec 38) (t : Trans) (target : BitVec 12) (l : Option LongForm) :
    stepFields 24 o t target l =
      (some (Instr.kdec (o.extractLsb' 34 4).toFin t)) := rfl

theorem stepFields_25 (o : BitVec 38) (t : Trans) (target : BitVec 12) (l : Option LongForm) :
    stepFields 25 o t target l =
      (some (Instr.aset (o.extractLsb' 34 4).toFin (o.getLsbD 33) (o.extractLsb' 0 32) t)) := rfl

theorem stepFields_26 (o : BitVec 38) (t : Trans) (target : BitVec 12) (l : Option LongForm) :
    stepFields 26 o t target l =
      (some (Instr.amov (o.extractLsb' 34 4).toFin (SReg.ofAmovBits (o.extractLsb' 29 5)) t)) := rfl

theorem stepFields_27 (o : BitVec 38) (t : Trans) (target : BitVec 12) (l : Option LongForm) :
    stepFields 27 o t target l =
      (some (Instr.aadd (o.extractLsb' 34 4).toFin (o.extractLsb' 30 4).toFin (KOperand.ofBits (o.extractLsb' 0 30)) t)) := rfl

theorem stepFields_28 (o : BitVec 38) (t : Trans) (target : BitVec 12) (l : Option LongForm) :
    stepFields 28 o t target l =
      (some (Instr.amad (o.extractLsb' 34 4).toFin (o.extractLsb' 30 4).toFin (o.extractLsb' 26 4).toFin (o.extractLsb' 0 24) t)) := rfl

theorem stepFields_29 (o : BitVec 38) (t : Trans) (target : BitVec 12) (l : Option LongForm) :
    stepFields 29 o t target l =
      ((AccessSize.ofBits (o.extractLsb' 27 2)).bind fun sz => some (Instr.ald (SReg.ofBits (o.extractLsb' 33 5)) (o.extractLsb' 29 4).toFin sz (o.extractLsb' 0 20) t)) := rfl

theorem stepFields_30 (o : BitVec 38) (t : Trans) (target : BitVec 12) (l : Option LongForm) :
    stepFields 30 o t target l =
      ((wideOfBits (o.extractLsb' 27 2)).bind fun wide => some (Instr.ast (SReg.ofBits (o.extractLsb' 33 5)) (o.extractLsb' 29 4).toFin wide (o.extractLsb' 0 20) t)) := rfl

theorem stepFields_32 (o : BitVec 38) (t : Trans) (target : BitVec 12) (l : Option LongForm) :
    stepFields 32 o t target l =
      (some (Instr.vpl (o.extractLsb' 28 10) (o.extractLsb' 22 6) t)) := rfl

theorem stepFields_33 (o : BitVec 38) (t : Trans) (target : BitVec 12) (l : Option LongForm) :
    stepFields 33 o t target l =
      (some (Instr.run (o.extractLsb' 28 10) (o.extractLsb' 18 10) (o.extractLsb' 14 4).toFin (kbOfBits (o.extractLsb' 9 5)) (o.extractLsb' 5 4).toFin l t)) := rfl

theorem stepFields_34 (o : BitVec 38) (t : Trans) (target : BitVec 12) (l : Option LongForm) :
    stepFields 34 o t target l =
      (some (Instr.park (o.getLsbD 0) t)) := rfl

theorem stepFields_35 (o : BitVec 38) (t : Trans) (target : BitVec 12) (l : Option LongForm) :
    stepFields 35 o t target l =
      (some (Instr.fmtset (o.extractLsb' 35 3).toFin (o.extractLsb' 0 24) t)) := rfl

theorem stepFields_36 (o : BitVec 38) (t : Trans) (target : BitVec 12) (l : Option LongForm) :
    stepFields 36 o t target l =
      (some (Instr.qset (o.extractLsb' 34 4).toFin (o.extractLsb' 30 4).toFin (o.extractLsb' 16 14) (o.extractLsb' 5 11) l t)) := rfl

theorem stepFields_38 (o : BitVec 38) (t : Trans) (target : BitVec 12) (l : Option LongForm) :
    stepFields 38 o t target l =
      (some (Instr.sopen (o.extractLsb' 33 5).toFin (o.extractLsb' 23 10) (o.getLsbD 22) (o.extractLsb' 18 4).toFin (o.extractLsb' 14 4).toFin l t)) := rfl

theorem stepFields_39 (o : BitVec 38) (t : Trans) (target : BitVec 12) (l : Option LongForm) :
    stepFields 39 o t target l =
      (some (Instr.sclose (o.extractLsb' 33 5).toFin (o.getLsbD 32) (o.getLsbD 31) l t)) := rfl

theorem stepFields_40 (o : BitVec 38) (t : Trans) (target : BitVec 12) (l : Option LongForm) :
    stepFields 40 o t target l =
      ((Scope.ofBits (o.extractLsb' 3 3)).bind fun scope => some (Instr.sbar (o.extractLsb' 6 32) scope l t)) := rfl

theorem stepFields_41 (o : BitVec 38) (t : Trans) (target : BitVec 12) (l : Option LongForm) :
    stepFields 41 o t target l =
      (some (Instr.spos (o.extractLsb' 34 4).toFin (o.extractLsb' 29 5).toFin t)) := rfl

theorem stepFields_42 (o : BitVec 38) (t : Trans) (target : BitVec 12) (l : Option LongForm) :
    stepFields 42 o t target l =
      (some (Instr.copy (o.extractLsb' 34 4).toFin l t)) := rfl

theorem stepFields_43 (o : BitVec 38) (t : Trans) (target : BitVec 12) (l : Option LongForm) :
    stepFields 43 o t target l =
      (if o.getLsbD 29 then some (Instr.copycResume (o.extractLsb' 34 4).toFin l t) else some (Instr.copyc (o.extractLsb' 34 4).toFin (o.extractLsb' 30 4).toFin l t)) := rfl

theorem stepFields_44 (o : BitVec 38) (t : Trans) (target : BitVec 12) (l : Option LongForm) :
    stepFields 44 o t target l =
      ((Scope.ofBits (o.extractLsb' 27 3)).bind fun scope => some (Instr.binit (o.extractLsb' 34 4).toFin (o.extractLsb' 30 4).toFin scope t)) := rfl

theorem stepFields_45 (o : BitVec 38) (t : Trans) (target : BitVec 12) (l : Option LongForm) :
    stepFields 45 o t target l =
      (some (Instr.barr (o.extractLsb' 34 4).toFin t)) := rfl

theorem stepFields_46 (o : BitVec 38) (t : Trans) (target : BitVec 12) (l : Option LongForm) :
    stepFields 46 o t target l =
      (some (Instr.bexp (o.extractLsb' 34 4).toFin (o.extractLsb' 30 4).toFin (o.getLsbD 29) t)) := rfl

theorem stepFields_47 (o : BitVec 38) (t : Trans) (target : BitVec 12) (l : Option LongForm) :
    stepFields 47 o t target l =
      (some (Instr.bwait (o.extractLsb' 34 4).toFin (o.extractLsb' 30 4).toFin t)) := rfl

theorem stepFields_48 (o : BitVec 38) (t : Trans) (target : BitVec 12) (l : Option LongForm) :
    stepFields 48 o t target l =
      (some (Instr.hpost (o.extractLsb' 34 4).toFin (SReg.ofBits (o.extractLsb' 29 5)) t)) := rfl

theorem stepFields_49 (o : BitVec 38) (t : Trans) (target : BitVec 12) (l : Option LongForm) :
    stepFields 49 o t target l =
      (some (Instr.htake (SReg.ofBits (o.extractLsb' 33 5)) (o.extractLsb' 29 4).toFin t)) := rfl

theorem stepFields_50 (o : BitVec 38) (t : Trans) (target : BitVec 12) (l : Option LongForm) :
    stepFields 50 o t target l =
      (some (Instr.trig t)) := rfl

theorem stepFields_51 (o : BitVec 38) (t : Trans) (target : BitVec 12) (l : Option LongForm) :
    stepFields 51 o t target l =
      ((FenceKind.ofBits (o.extractLsb' 36 2)).bind fun kind => (Scope.ofBits (o.extractLsb' 33 3)).bind fun scope => some (Instr.fence kind scope t)) := rfl

theorem stepFields_52 (o : BitVec 38) (t : Trans) (target : BitVec 12) (l : Option LongForm) :
    stepFields 52 o t target l =
      ((AtomOp.ofBits (o.extractLsb' 34 4)).bind fun op => some (Instr.atom op (o.getLsbD 33) (SReg.ofBits (o.extractLsb' 28 5)) (o.extractLsb' 24 4).toFin (SReg.ofBits (o.extractLsb' 19 5)) (SReg.ofBits (o.extractLsb' 14 5)) (o.extractLsb' 0 14) t)) := rfl

theorem stepFields_54 (o : BitVec 38) (t : Trans) (target : BitVec 12) (l : Option LongForm) :
    stepFields 54 o t target l =
      (some (Instr.coll (o.extractLsb' 34 4).toFin l t)) := rfl

theorem stepFields_55 (o : BitVec 38) (t : Trans) (target : BitVec 12) (l : Option LongForm) :
    stepFields 55 o t target l =
      (some (Instr.cnopen (o.extractLsb' 30 8) (o.extractLsb' 18 12) (o.extractLsb' 14 4).toFin t)) := rfl

theorem stepFields_56 (o : BitVec 38) (t : Trans) (target : BitVec 12) (l : Option LongForm) :
    stepFields 56 o t target l =
      (some (Instr.cnclose (o.extractLsb' 30 8) t)) := rfl

theorem stepFields_60 (o : BitVec 38) (t : Trans) (target : BitVec 12) (l : Option LongForm) :
    stepFields 60 o t target l =
      ((TickSrc.ofBits (o.extractLsb' 32 2)).bind fun src => some (Instr.tick (o.extractLsb' 34 4).toFin src t)) := rfl

theorem stepFields_61 (o : BitVec 38) (t : Trans) (target : BitVec 12) (l : Option LongForm) :
    stepFields 61 o t target l =
      (some (Instr.capq (o.extractLsb' 34 4).toFin (o.extractLsb' 26 8) t)) := rfl

theorem stepFields_62 (o : BitVec 38) (t : Trans) (target : BitVec 12) (l : Option LongForm) :
    stepFields 62 o t target l =
      (some (Instr.perf (o.extractLsb' 34 4).toFin (o.extractLsb' 28 4).toFin (o.getLsbD 27) t)) := rfl

theorem stepFields_63 (o : BitVec 38) (t : Trans) (target : BitVec 12) (l : Option LongForm) :
    stepFields 63 o t target l =
      (some (Instr.flagsq (o.extractLsb' 34 4).toFin (o.getLsbD 33) t)) := rfl

theorem stepNop (t : Trans) : Statement (.stepNop t) := of_step (.stepNop t) rfl rfl <| by
  change stepFields 0 ((0 : BitVec 38)) ((Trans.ofBits t.bits).getD .fall) (t.bits.extractLsb' 0 12) none = _
  rw [stepFields_0]
  simp (disch := omega) only [Trans.ofBits_bits, Option.getD_some]
theorem go (target : BitVec 12) : Statement (.go target) := of_step (.go target) rfl rfl <| by
  change stepFields 1 ((0 : BitVec 38)) ((Trans.ofBits ((1 : BitVec 6) ++ target)).getD .fall) (((1 : BitVec 6) ++ target).extractLsb' 0 12) none = _
  rw [stepFields_1]
  simp (disch := omega) only [extract_append_lo, extract_all]
  rfl
theorem goIndirect (a : Fin 16) : Statement (.goIndirect a) := of_step (.goIndirect a) rfl rfl <| by
  change stepFields 1 ((1 : BitVec 1) ++ BitVec.ofFin (w := 4) a ++ (0 : BitVec 33)) ((Trans.ofBits 0).getD .fall) ((0 : BitVec 18).extractLsb' 0 12) none = _
  rw [stepFields_1]
  simp (disch := omega) only [extract_append_hi, extract_append_lo, bit_append_hi, Nat.reduceSub, extract_all, toFin_ofFin]
  rfl
theorem call (target : BitVec 12) : Statement (.call target) := of_step (.call target) rfl rfl <| by
  change stepFields 2 ((0 : BitVec 38)) ((Trans.ofBits ((1 : BitVec 6) ++ target)).getD .fall) (((1 : BitVec 6) ++ target).extractLsb' 0 12) none = _
  rw [stepFields_2]
  simp (disch := omega) only [extract_append_lo, extract_all]
theorem ret : Statement .ret := of_step .ret rfl rfl <| by
  change stepFields 3 ((0 : BitVec 38)) ((Trans.ofBits 0).getD .fall) ((0 : BitVec 18).extractLsb' 0 12) none = _
  rw [stepFields_3]
theorem endStep (status : BitVec 16) : Statement (.endStep status) := of_step (.endStep status) rfl rfl <| by
  change stepFields 4 ((0 : BitVec 22) ++ status) ((Trans.ofBits 0).getD .fall) ((0 : BitVec 18).extractLsb' 0 12) none = _
  rw [stepFields_4]
  simp (disch := omega) only [extract_append_lo, extract_all]
theorem waitt (mask : BitVec 8) (t : Trans) : Statement (.waitt mask t) := of_step (.waitt mask t) rfl rfl <| by
  change stepFields 5 (mask ++ (0 : BitVec 30)) ((Trans.ofBits t.bits).getD .fall) (t.bits.extractLsb' 0 12) none = _
  rw [stepFields_5]
  simp (disch := omega) only [extract_append_hi, Nat.reduceSub, extract_all, Trans.ofBits_bits, Option.getD_some]
theorem waits (mask : BitVec 16) (all : Bool) (t : Trans) : Statement (.waits mask all t) := of_step (.waits mask all t) rfl rfl <| by
  change stepFields 6 (mask ++ BitVec.ofBool all ++ (0 : BitVec 21)) ((Trans.ofBits t.bits).getD .fall) (t.bits.extractLsb' 0 12) none = _
  rw [stepFields_6]
  simp (disch := omega) only [extract_append_hi, bit_append_hi, bit_append_lo, Nat.reduceSub, extract_all, bit_ofBool, Trans.ofBits_bits, Option.getD_some]
theorem stepTrap (code : BitVec 16) : Statement (.stepTrap code) := of_step (.stepTrap code) rfl rfl <| by
  change stepFields 7 ((0 : BitVec 22) ++ code) ((Trans.ofBits 0).getD .fall) ((0 : BitVec 18).extractLsb' 0 12) none = _
  rw [stepFields_7]
  simp (disch := omega) only [extract_append_lo, extract_all]
theorem yield (t : Trans) : Statement (.yield t) := of_step (.yield t) rfl rfl <| by
  change stepFields 8 ((0 : BitVec 38)) ((Trans.ofBits t.bits).getD .fall) (t.bits.extractLsb' 0 12) none = _
  rw [stepFields_8]
  simp (disch := omega) only [Trans.ofBits_bits, Option.getD_some]
theorem sys (svc : BitVec 16) (t : Trans) : Statement (.sys svc t) := of_step (.sys svc t) rfl rfl <| by
  change stepFields 9 ((0 : BitVec 22) ++ svc) ((Trans.ofBits t.bits).getD .fall) (t.bits.extractLsb' 0 12) none = _
  rw [stepFields_9]
  simp (disch := omega) only [extract_append_lo, extract_all, Trans.ofBits_bits, Option.getD_some]
theorem stepBrk (code : BitVec 16) (t : Trans) : Statement (.stepBrk code t) := of_step (.stepBrk code t) rfl rfl <| by
  change stepFields 10 ((0 : BitVec 22) ++ code) ((Trans.ofBits t.bits).getD .fall) (t.bits.extractLsb' 0 12) none = _
  rw [stepFields_10]
  simp (disch := omega) only [extract_append_lo, extract_all, Trans.ofBits_bits, Option.getD_some]
theorem kset (d : Fin 16) (hi : Bool) (imm : BitVec 32) (t : Trans) : Statement (.kset d hi imm t) := of_step (.kset d hi imm t) rfl rfl <| by
  change stepFields 12 (BitVec.ofFin (w := 4) d ++ BitVec.ofBool hi ++ (0 : BitVec 1) ++ imm) ((Trans.ofBits t.bits).getD .fall) (t.bits.extractLsb' 0 12) none = _
  rw [stepFields_12]
  simp (disch := omega) only [extract_append_hi, extract_append_lo, bit_append_hi, bit_append_lo, Nat.reduceSub, extract_all, bit_ofBool, toFin_ofFin, Trans.ofBits_bits, Option.getD_some]
theorem kmov (d : Fin 16) (src : KSrc) (t : Trans) : Statement (.kmov d src t) := of_step (.kmov d src t) rfl rfl <| by
  change stepFields 13 (BitVec.ofFin (w := 4) d ++ src.bits ++ (0 : BitVec 26)) ((Trans.ofBits t.bits).getD .fall) (t.bits.extractLsb' 0 12) none = _
  rw [stepFields_13]
  simp (disch := omega) only [extract_append_hi, extract_append_lo, Nat.reduceSub, extract_all, toFin_ofFin, Trans.ofBits_bits, Option.getD_some, Option.bind_some, KSrc.ofBits_bits]
theorem kadd (d : Fin 16) (a : Fin 16) (y : KOperand) (t : Trans) : Statement (.kadd d a y t) := of_step (.kadd d a y t) rfl rfl <| by
  change stepFields 14 (BitVec.ofFin (w := 4) d ++ BitVec.ofFin (w := 4) a ++ y.bits) ((Trans.ofBits t.bits).getD .fall) (t.bits.extractLsb' 0 12) none = _
  rw [stepFields_14]
  simp (disch := omega) only [extract_append_hi, extract_append_lo, Nat.reduceSub, extract_all, toFin_ofFin, Trans.ofBits_bits, Option.getD_some, KOperand.ofBits_bits]
theorem ksub (d : Fin 16) (a : Fin 16) (y : KOperand) (t : Trans) : Statement (.ksub d a y t) := of_step (.ksub d a y t) rfl rfl <| by
  change stepFields 15 (BitVec.ofFin (w := 4) d ++ BitVec.ofFin (w := 4) a ++ y.bits) ((Trans.ofBits t.bits).getD .fall) (t.bits.extractLsb' 0 12) none = _
  rw [stepFields_15]
  simp (disch := omega) only [extract_append_hi, extract_append_lo, Nat.reduceSub, extract_all, toFin_ofFin, Trans.ofBits_bits, Option.getD_some, KOperand.ofBits_bits]
theorem kmul (d : Fin 16) (a : Fin 16) (y : KOperand) (t : Trans) : Statement (.kmul d a y t) := of_step (.kmul d a y t) rfl rfl <| by
  change stepFields 16 (BitVec.ofFin (w := 4) d ++ BitVec.ofFin (w := 4) a ++ y.bits) ((Trans.ofBits t.bits).getD .fall) (t.bits.extractLsb' 0 12) none = _
  rw [stepFields_16]
  simp (disch := omega) only [extract_append_hi, extract_append_lo, Nat.reduceSub, extract_all, toFin_ofFin, Trans.ofBits_bits, Option.getD_some, KOperand.ofBits_bits]
theorem kand (d : Fin 16) (a : Fin 16) (y : KOperand) (t : Trans) : Statement (.kand d a y t) := of_step (.kand d a y t) rfl rfl <| by
  change stepFields 17 (BitVec.ofFin (w := 4) d ++ BitVec.ofFin (w := 4) a ++ y.bits) ((Trans.ofBits t.bits).getD .fall) (t.bits.extractLsb' 0 12) none = _
  rw [stepFields_17]
  simp (disch := omega) only [extract_append_hi, extract_append_lo, Nat.reduceSub, extract_all, toFin_ofFin, Trans.ofBits_bits, Option.getD_some, KOperand.ofBits_bits]
theorem kor (d : Fin 16) (a : Fin 16) (y : KOperand) (t : Trans) : Statement (.kor d a y t) := of_step (.kor d a y t) rfl rfl <| by
  change stepFields 18 (BitVec.ofFin (w := 4) d ++ BitVec.ofFin (w := 4) a ++ y.bits) ((Trans.ofBits t.bits).getD .fall) (t.bits.extractLsb' 0 12) none = _
  rw [stepFields_18]
  simp (disch := omega) only [extract_append_hi, extract_append_lo, Nat.reduceSub, extract_all, toFin_ofFin, Trans.ofBits_bits, Option.getD_some, KOperand.ofBits_bits]
theorem kxor (d : Fin 16) (a : Fin 16) (y : KOperand) (t : Trans) : Statement (.kxor d a y t) := of_step (.kxor d a y t) rfl rfl <| by
  change stepFields 19 (BitVec.ofFin (w := 4) d ++ BitVec.ofFin (w := 4) a ++ y.bits) ((Trans.ofBits t.bits).getD .fall) (t.bits.extractLsb' 0 12) none = _
  rw [stepFields_19]
  simp (disch := omega) only [extract_append_hi, extract_append_lo, Nat.reduceSub, extract_all, toFin_ofFin, Trans.ofBits_bits, Option.getD_some, KOperand.ofBits_bits]
theorem kshl (d : Fin 16) (a : Fin 16) (y : KOperand) (t : Trans) : Statement (.kshl d a y t) := of_step (.kshl d a y t) rfl rfl <| by
  change stepFields 20 (BitVec.ofFin (w := 4) d ++ BitVec.ofFin (w := 4) a ++ y.bits) ((Trans.ofBits t.bits).getD .fall) (t.bits.extractLsb' 0 12) none = _
  rw [stepFields_20]
  simp (disch := omega) only [extract_append_hi, extract_append_lo, Nat.reduceSub, extract_all, toFin_ofFin, Trans.ofBits_bits, Option.getD_some, KOperand.ofBits_bits]
theorem kshr (d : Fin 16) (a : Fin 16) (y : KOperand) (t : Trans) : Statement (.kshr d a y t) := of_step (.kshr d a y t) rfl rfl <| by
  change stepFields 21 (BitVec.ofFin (w := 4) d ++ BitVec.ofFin (w := 4) a ++ y.bits) ((Trans.ofBits t.bits).getD .fall) (t.bits.extractLsb' 0 12) none = _
  rw [stepFields_21]
  simp (disch := omega) only [extract_append_hi, extract_append_lo, Nat.reduceSub, extract_all, toFin_ofFin, Trans.ofBits_bits, Option.getD_some, KOperand.ofBits_bits]
theorem kmin (d : Fin 16) (a : Fin 16) (y : KOperand) (t : Trans) : Statement (.kmin d a y t) := of_step (.kmin d a y t) rfl rfl <| by
  change stepFields 22 (BitVec.ofFin (w := 4) d ++ BitVec.ofFin (w := 4) a ++ y.bits) ((Trans.ofBits t.bits).getD .fall) (t.bits.extractLsb' 0 12) none = _
  rw [stepFields_22]
  simp (disch := omega) only [extract_append_hi, extract_append_lo, Nat.reduceSub, extract_all, toFin_ofFin, Trans.ofBits_bits, Option.getD_some, KOperand.ofBits_bits]
theorem kmax (d : Fin 16) (a : Fin 16) (y : KOperand) (t : Trans) : Statement (.kmax d a y t) := of_step (.kmax d a y t) rfl rfl <| by
  change stepFields 23 (BitVec.ofFin (w := 4) d ++ BitVec.ofFin (w := 4) a ++ y.bits) ((Trans.ofBits t.bits).getD .fall) (t.bits.extractLsb' 0 12) none = _
  rw [stepFields_23]
  simp (disch := omega) only [extract_append_hi, extract_append_lo, Nat.reduceSub, extract_all, toFin_ofFin, Trans.ofBits_bits, Option.getD_some, KOperand.ofBits_bits]
theorem kdec (d : Fin 16) (t : Trans) : Statement (.kdec d t) := of_step (.kdec d t) rfl rfl <| by
  change stepFields 24 (BitVec.ofFin (w := 4) d ++ (0 : BitVec 34)) ((Trans.ofBits t.bits).getD .fall) (t.bits.extractLsb' 0 12) none = _
  rw [stepFields_24]
  simp (disch := omega) only [extract_append_hi, Nat.reduceSub, extract_all, toFin_ofFin, Trans.ofBits_bits, Option.getD_some]
theorem aset (d : Fin 16) (hi : Bool) (imm : BitVec 32) (t : Trans) : Statement (.aset d hi imm t) := of_step (.aset d hi imm t) rfl rfl <| by
  change stepFields 25 (BitVec.ofFin (w := 4) d ++ BitVec.ofBool hi ++ (0 : BitVec 1) ++ imm) ((Trans.ofBits t.bits).getD .fall) (t.bits.extractLsb' 0 12) none = _
  rw [stepFields_25]
  simp (disch := omega) only [extract_append_hi, extract_append_lo, bit_append_hi, bit_append_lo, Nat.reduceSub, extract_all, bit_ofBool, toFin_ofFin, Trans.ofBits_bits, Option.getD_some]
theorem amov (d : Fin 16) (src : SReg) (t : Trans) : Statement (.amov d src t) := of_step (.amov d src t) rfl rfl <| by
  change stepFields 26 (BitVec.ofFin (w := 4) d ++ src.amovBits ++ (0 : BitVec 29)) ((Trans.ofBits t.bits).getD .fall) (t.bits.extractLsb' 0 12) none = _
  rw [stepFields_26]
  simp (disch := omega) only [extract_append_hi, extract_append_lo, Nat.reduceSub, extract_all, toFin_ofFin, Trans.ofBits_bits, Option.getD_some, SReg.ofAmovBits_amovBits]
theorem aadd (d : Fin 16) (a : Fin 16) (y : KOperand) (t : Trans) : Statement (.aadd d a y t) := of_step (.aadd d a y t) rfl rfl <| by
  change stepFields 27 (BitVec.ofFin (w := 4) d ++ BitVec.ofFin (w := 4) a ++ y.bits) ((Trans.ofBits t.bits).getD .fall) (t.bits.extractLsb' 0 12) none = _
  rw [stepFields_27]
  simp (disch := omega) only [extract_append_hi, extract_append_lo, Nat.reduceSub, extract_all, toFin_ofFin, Trans.ofBits_bits, Option.getD_some, KOperand.ofBits_bits]
theorem amad (d : Fin 16) (a : Fin 16) (b : Fin 16) (imm : BitVec 24) (t : Trans) : Statement (.amad d a b imm t) := of_step (.amad d a b imm t) rfl rfl <| by
  change stepFields 28 (BitVec.ofFin (w := 4) d ++ BitVec.ofFin (w := 4) a ++ BitVec.ofFin (w := 4) b ++ (0 : BitVec 2) ++ imm) ((Trans.ofBits t.bits).getD .fall) (t.bits.extractLsb' 0 12) none = _
  rw [stepFields_28]
  simp (disch := omega) only [extract_append_hi, extract_append_lo, Nat.reduceSub, extract_all, toFin_ofFin, Trans.ofBits_bits, Option.getD_some]
theorem ald (d : SReg) (a : Fin 16) (sz : AccessSize) (off : BitVec 20) (t : Trans) : Statement (.ald d a sz off t) := of_step (.ald d a sz off t) rfl rfl <| by
  change stepFields 29 (d.bits ++ BitVec.ofFin (w := 4) a ++ sz.bits ++ (0 : BitVec 7) ++ off) ((Trans.ofBits t.bits).getD .fall) (t.bits.extractLsb' 0 12) none = _
  rw [stepFields_29]
  simp (disch := omega) only [extract_append_hi, extract_append_lo, Nat.reduceSub, extract_all, toFin_ofFin, Trans.ofBits_bits, Option.getD_some, Option.bind_some, SReg.ofBits_bits, AccessSize.ofBits_bits]
theorem ast (b : SReg) (a : Fin 16) (wide : Bool) (off : BitVec 20) (t : Trans) : Statement (.ast b a wide off t) := of_step (.ast b a wide off t) rfl rfl <| by
  change stepFields 30 (b.bits ++ BitVec.ofFin (w := 4) a ++ wideBits wide ++ (0 : BitVec 7) ++ off) ((Trans.ofBits t.bits).getD .fall) (t.bits.extractLsb' 0 12) none = _
  rw [stepFields_30]
  simp (disch := omega) only [extract_append_hi, extract_append_lo, Nat.reduceSub, extract_all, toFin_ofFin, Trans.ofBits_bits, Option.getD_some, Option.bind_some, SReg.ofBits_bits, wideOfBits_wideBits]
theorem vpl (vs : BitVec 10) (cm1 : BitVec 6) (t : Trans) : Statement (.vpl vs cm1 t) := of_step (.vpl vs cm1 t) rfl rfl <| by
  change stepFields 32 (vs ++ cm1 ++ (0 : BitVec 22)) ((Trans.ofBits t.bits).getD .fall) (t.bits.extractLsb' 0 12) none = _
  rw [stepFields_32]
  simp (disch := omega) only [extract_append_hi, extract_append_lo, Nat.reduceSub, extract_all, Trans.ofBits_bits, Option.getD_some]
theorem run (first : BitVec 10) (nvm1 : BitVec 10) (kw : Fin 16) (kb : Option (Fin 16)) (ksel : Fin 16) (l : Option LongForm) (t : Trans) : Statement (.run first nvm1 kw kb ksel l t) := of_step (.run first nvm1 kw kb ksel l t) rfl rfl <| by
  change stepFields 33 (first ++ nvm1 ++ BitVec.ofFin (w := 4) kw ++ kbBits kb ++ BitVec.ofFin (w := 4) ksel ++ (0 : BitVec 5)) ((Trans.ofBits t.bits).getD .fall) (t.bits.extractLsb' 0 12) l = _
  rw [stepFields_33]
  simp (disch := omega) only [extract_append_hi, extract_append_lo, Nat.reduceSub, extract_all, toFin_ofFin, Trans.ofBits_bits, Option.getD_some, kbOfBits_kbBits]
theorem park (wait : Bool) (t : Trans) : Statement (.park wait t) := of_step (.park wait t) rfl rfl <| by
  change stepFields 34 ((0 : BitVec 37) ++ BitVec.ofBool wait) ((Trans.ofBits t.bits).getD .fall) (t.bits.extractLsb' 0 12) none = _
  rw [stepFields_34]
  simp (disch := omega) only [bit_append_lo, bit_ofBool, Trans.ofBits_bits, Option.getD_some]
theorem fmtset (n : Fin 8) (desc : BitVec 24) (t : Trans) : Statement (.fmtset n desc t) := of_step (.fmtset n desc t) rfl rfl <| by
  change stepFields 35 (BitVec.ofFin (w := 3) n ++ (0 : BitVec 11) ++ desc) ((Trans.ofBits t.bits).getD .fall) (t.bits.extractLsb' 0 12) none = _
  rw [stepFields_35]
  simp (disch := omega) only [extract_append_hi, extract_append_lo, Nat.reduceSub, extract_all, toFin_ofFin, Trans.ofBits_bits, Option.getD_some]
theorem qset (q : Fin 16) (kb : Fin 16) (szm1 : BitVec 14) (ent : BitVec 11) (l : Option LongForm) (t : Trans) : Statement (.qset q kb szm1 ent l t) := of_step (.qset q kb szm1 ent l t) rfl rfl <| by
  change stepFields 36 (BitVec.ofFin (w := 4) q ++ BitVec.ofFin (w := 4) kb ++ szm1 ++ ent ++ (0 : BitVec 5)) ((Trans.ofBits t.bits).getD .fall) (t.bits.extractLsb' 0 12) l = _
  rw [stepFields_36]
  simp (disch := omega) only [extract_append_hi, extract_append_lo, Nat.reduceSub, extract_all, toFin_ofFin, Trans.ofBits_bits, Option.getD_some]
theorem sopen (n : Fin 32) (vs : BitVec 10) (out : Bool) (q : Fin 16) (a : Fin 16) (l : Option LongForm) (t : Trans) : Statement (.sopen n vs out q a l t) := of_step (.sopen n vs out q a l t) rfl rfl <| by
  change stepFields 38 (BitVec.ofFin (w := 5) n ++ vs ++ BitVec.ofBool out ++ BitVec.ofFin (w := 4) q ++ BitVec.ofFin (w := 4) a ++ (0 : BitVec 14)) ((Trans.ofBits t.bits).getD .fall) (t.bits.extractLsb' 0 12) l = _
  rw [stepFields_38]
  simp (disch := omega) only [extract_append_hi, extract_append_lo, bit_append_hi, bit_append_lo, Nat.reduceSub, extract_all, bit_ofBool, toFin_ofFin, Trans.ofBits_bits, Option.getD_some]
theorem sclose (n : Fin 32) (abort : Bool) (wait : Bool) (l : Option LongForm) (t : Trans) : Statement (.sclose n abort wait l t) := of_step (.sclose n abort wait l t) rfl rfl <| by
  change stepFields 39 (BitVec.ofFin (w := 5) n ++ BitVec.ofBool abort ++ BitVec.ofBool wait ++ (0 : BitVec 31)) ((Trans.ofBits t.bits).getD .fall) (t.bits.extractLsb' 0 12) l = _
  rw [stepFields_39]
  simp (disch := omega) only [extract_append_hi, bit_append_hi, bit_append_lo, Nat.reduceSub, extract_all, bit_ofBool, toFin_ofFin, Trans.ofBits_bits, Option.getD_some]
theorem sbar (mask : BitVec 32) (scope : Scope) (l : Option LongForm) (t : Trans) : Statement (.sbar mask scope l t) := of_step (.sbar mask scope l t) rfl rfl <| by
  change stepFields 40 (mask ++ scope.bits ++ (0 : BitVec 3)) ((Trans.ofBits t.bits).getD .fall) (t.bits.extractLsb' 0 12) l = _
  rw [stepFields_40]
  simp (disch := omega) only [extract_append_hi, extract_append_lo, Nat.reduceSub, extract_all, Trans.ofBits_bits, Option.getD_some, Option.bind_some, Scope.ofBits_bits]
theorem spos (d : Fin 16) (n : Fin 32) (t : Trans) : Statement (.spos d n t) := of_step (.spos d n t) rfl rfl <| by
  change stepFields 41 (BitVec.ofFin (w := 4) d ++ BitVec.ofFin (w := 5) n ++ (0 : BitVec 29)) ((Trans.ofBits t.bits).getD .fall) (t.bits.extractLsb' 0 12) none = _
  rw [stepFields_41]
  simp (disch := omega) only [extract_append_hi, extract_append_lo, Nat.reduceSub, extract_all, toFin_ofFin, Trans.ofBits_bits, Option.getD_some]
theorem copy (a : Fin 16) (l : Option LongForm) (t : Trans) : Statement (.copy a l t) := of_step (.copy a l t) rfl rfl <| by
  change stepFields 42 (BitVec.ofFin (w := 4) a ++ (0 : BitVec 34)) ((Trans.ofBits t.bits).getD .fall) (t.bits.extractLsb' 0 12) l = _
  rw [stepFields_42]
  simp (disch := omega) only [extract_append_hi, Nat.reduceSub, extract_all, toFin_ofFin, Trans.ofBits_bits, Option.getD_some]
theorem copyc (n : Fin 16) (a : Fin 16) (l : Option LongForm) (t : Trans) : Statement (.copyc n a l t) := of_step (.copyc n a l t) rfl rfl <| by
  change stepFields 43 (BitVec.ofFin (w := 4) n ++ BitVec.ofFin (w := 4) a ++ (0 : BitVec 30)) ((Trans.ofBits t.bits).getD .fall) (t.bits.extractLsb' 0 12) l = _
  rw [stepFields_43]
  simp (disch := omega) only [extract_append_hi, extract_append_lo, bit_append_lo, Nat.reduceSub, extract_all, toFin_ofFin, Trans.ofBits_bits, Option.getD_some]
  rfl
theorem copycResume (n : Fin 16) (l : Option LongForm) (t : Trans) : Statement (.copycResume n l t) := of_step (.copycResume n l t) rfl rfl <| by
  change stepFields 43 (BitVec.ofFin (w := 4) n ++ (0 : BitVec 4) ++ (1 : BitVec 1) ++ (0 : BitVec 29)) ((Trans.ofBits t.bits).getD .fall) (t.bits.extractLsb' 0 12) l = _
  rw [stepFields_43]
  simp (disch := omega) only [extract_append_hi, extract_append_lo, bit_append_hi, bit_append_lo, Nat.reduceSub, extract_all, toFin_ofFin, Trans.ofBits_bits, Option.getD_some]
  rfl
theorem binit (b : Fin 16) (c : Fin 16) (scope : Scope) (t : Trans) : Statement (.binit b c scope t) := of_step (.binit b c scope t) rfl rfl <| by
  change stepFields 44 (BitVec.ofFin (w := 4) b ++ BitVec.ofFin (w := 4) c ++ scope.bits ++ (0 : BitVec 27)) ((Trans.ofBits t.bits).getD .fall) (t.bits.extractLsb' 0 12) none = _
  rw [stepFields_44]
  simp (disch := omega) only [extract_append_hi, extract_append_lo, Nat.reduceSub, extract_all, toFin_ofFin, Trans.ofBits_bits, Option.getD_some, Option.bind_some, Scope.ofBits_bits]
theorem barr (b : Fin 16) (t : Trans) : Statement (.barr b t) := of_step (.barr b t) rfl rfl <| by
  change stepFields 45 (BitVec.ofFin (w := 4) b ++ (0 : BitVec 34)) ((Trans.ofBits t.bits).getD .fall) (t.bits.extractLsb' 0 12) none = _
  rw [stepFields_45]
  simp (disch := omega) only [extract_append_hi, Nat.reduceSub, extract_all, toFin_ofFin, Trans.ofBits_bits, Option.getD_some]
theorem bexp (b : Fin 16) (n : Fin 16) (outb : Bool) (t : Trans) : Statement (.bexp b n outb t) := of_step (.bexp b n outb t) rfl rfl <| by
  change stepFields 46 (BitVec.ofFin (w := 4) b ++ BitVec.ofFin (w := 4) n ++ BitVec.ofBool outb ++ (0 : BitVec 29)) ((Trans.ofBits t.bits).getD .fall) (t.bits.extractLsb' 0 12) none = _
  rw [stepFields_46]
  simp (disch := omega) only [extract_append_hi, extract_append_lo, bit_append_hi, bit_append_lo, Nat.reduceSub, extract_all, bit_ofBool, toFin_ofFin, Trans.ofBits_bits, Option.getD_some]
theorem bwait (b : Fin 16) (g : Fin 16) (t : Trans) : Statement (.bwait b g t) := of_step (.bwait b g t) rfl rfl <| by
  change stepFields 47 (BitVec.ofFin (w := 4) b ++ BitVec.ofFin (w := 4) g ++ (0 : BitVec 30)) ((Trans.ofBits t.bits).getD .fall) (t.bits.extractLsb' 0 12) none = _
  rw [stepFields_47]
  simp (disch := omega) only [extract_append_hi, extract_append_lo, Nat.reduceSub, extract_all, toFin_ofFin, Trans.ofBits_bits, Option.getD_some]
theorem hpost (q : Fin 16) (src : SReg) (t : Trans) : Statement (.hpost q src t) := of_step (.hpost q src t) rfl rfl <| by
  change stepFields 48 (BitVec.ofFin (w := 4) q ++ src.bits ++ (0 : BitVec 29)) ((Trans.ofBits t.bits).getD .fall) (t.bits.extractLsb' 0 12) none = _
  rw [stepFields_48]
  simp (disch := omega) only [extract_append_hi, extract_append_lo, Nat.reduceSub, extract_all, toFin_ofFin, Trans.ofBits_bits, Option.getD_some, SReg.ofBits_bits]
theorem htake (d : SReg) (q : Fin 16) (t : Trans) : Statement (.htake d q t) := of_step (.htake d q t) rfl rfl <| by
  change stepFields 49 (d.bits ++ BitVec.ofFin (w := 4) q ++ (0 : BitVec 29)) ((Trans.ofBits t.bits).getD .fall) (t.bits.extractLsb' 0 12) none = _
  rw [stepFields_49]
  simp (disch := omega) only [extract_append_hi, extract_append_lo, Nat.reduceSub, extract_all, toFin_ofFin, Trans.ofBits_bits, Option.getD_some, SReg.ofBits_bits]
theorem trig (t : Trans) : Statement (.trig t) := of_step (.trig t) rfl rfl <| by
  change stepFields 50 ((0 : BitVec 38)) ((Trans.ofBits t.bits).getD .fall) (t.bits.extractLsb' 0 12) none = _
  rw [stepFields_50]
  simp (disch := omega) only [Trans.ofBits_bits, Option.getD_some]
theorem fence (kind : FenceKind) (scope : Scope) (t : Trans) : Statement (.fence kind scope t) := of_step (.fence kind scope t) rfl rfl <| by
  change stepFields 51 (kind.bits ++ scope.bits ++ (0 : BitVec 33)) ((Trans.ofBits t.bits).getD .fall) (t.bits.extractLsb' 0 12) none = _
  rw [stepFields_51]
  simp (disch := omega) only [extract_append_hi, extract_append_lo, Nat.reduceSub, extract_all, Trans.ofBits_bits, Option.getD_some, Option.bind_some, Scope.ofBits_bits, FenceKind.ofBits_bits]
theorem atom (op : AtomOp) (wide : Bool) (d : SReg) (a : Fin 16) (b : SReg) (c : SReg) (off : BitVec 14) (t : Trans) : Statement (.atom op wide d a b c off t) := of_step (.atom op wide d a b c off t) rfl rfl <| by
  change stepFields 52 (op.bits ++ BitVec.ofBool wide ++ d.bits ++ BitVec.ofFin (w := 4) a ++ b.bits ++ c.bits ++ off) ((Trans.ofBits t.bits).getD .fall) (t.bits.extractLsb' 0 12) none = _
  rw [stepFields_52]
  simp (disch := omega) only [extract_append_hi, extract_append_lo, bit_append_hi, bit_append_lo, Nat.reduceSub, extract_all, bit_ofBool, toFin_ofFin, Trans.ofBits_bits, Option.getD_some, Option.bind_some, SReg.ofBits_bits, AtomOp.ofBits_bits]
theorem coll (a : Fin 16) (l : Option LongForm) (t : Trans) : Statement (.coll a l t) := of_step (.coll a l t) rfl rfl <| by
  change stepFields 54 (BitVec.ofFin (w := 4) a ++ (0 : BitVec 34)) ((Trans.ofBits t.bits).getD .fall) (t.bits.extractLsb' 0 12) l = _
  rw [stepFields_54]
  simp (disch := omega) only [extract_append_hi, Nat.reduceSub, extract_all, toFin_ofFin, Trans.ofBits_bits, Option.getD_some]
theorem cnopen (region : BitVec 8) (hnd : BitVec 12) (m : Fin 16) (t : Trans) : Statement (.cnopen region hnd m t) := of_step (.cnopen region hnd m t) rfl rfl <| by
  change stepFields 55 (region ++ hnd ++ BitVec.ofFin (w := 4) m ++ (0 : BitVec 14)) ((Trans.ofBits t.bits).getD .fall) (t.bits.extractLsb' 0 12) none = _
  rw [stepFields_55]
  simp (disch := omega) only [extract_append_hi, extract_append_lo, Nat.reduceSub, extract_all, toFin_ofFin, Trans.ofBits_bits, Option.getD_some]
theorem cnclose (region : BitVec 8) (t : Trans) : Statement (.cnclose region t) := of_step (.cnclose region t) rfl rfl <| by
  change stepFields 56 (region ++ (0 : BitVec 30)) ((Trans.ofBits t.bits).getD .fall) (t.bits.extractLsb' 0 12) none = _
  rw [stepFields_56]
  simp (disch := omega) only [extract_append_hi, Nat.reduceSub, extract_all, Trans.ofBits_bits, Option.getD_some]
theorem tick (d : Fin 16) (src : TickSrc) (t : Trans) : Statement (.tick d src t) := of_step (.tick d src t) rfl rfl <| by
  change stepFields 60 (BitVec.ofFin (w := 4) d ++ src.bits ++ (0 : BitVec 32)) ((Trans.ofBits t.bits).getD .fall) (t.bits.extractLsb' 0 12) none = _
  rw [stepFields_60]
  simp (disch := omega) only [extract_append_hi, extract_append_lo, Nat.reduceSub, extract_all, toFin_ofFin, Trans.ofBits_bits, Option.getD_some, Option.bind_some, TickSrc.ofBits_bits]
theorem capq (d : Fin 16) (sel : BitVec 8) (t : Trans) : Statement (.capq d sel t) := of_step (.capq d sel t) rfl rfl <| by
  change stepFields 61 (BitVec.ofFin (w := 4) d ++ sel ++ (0 : BitVec 26)) ((Trans.ofBits t.bits).getD .fall) (t.bits.extractLsb' 0 12) none = _
  rw [stepFields_61]
  simp (disch := omega) only [extract_append_hi, extract_append_lo, Nat.reduceSub, extract_all, toFin_ofFin, Trans.ofBits_bits, Option.getD_some]
theorem perf (d : Fin 16) (ev : Fin 16) (clr : Bool) (t : Trans) : Statement (.perf d ev clr t) := of_step (.perf d ev clr t) rfl rfl <| by
  change stepFields 62 (BitVec.ofFin (w := 4) d ++ (0 : BitVec 2) ++ BitVec.ofFin (w := 4) ev ++ BitVec.ofBool clr ++ (0 : BitVec 27)) ((Trans.ofBits t.bits).getD .fall) (t.bits.extractLsb' 0 12) none = _
  rw [stepFields_62]
  simp (disch := omega) only [extract_append_hi, extract_append_lo, bit_append_hi, bit_append_lo, Nat.reduceSub, extract_all, bit_ofBool, toFin_ofFin, Trans.ofBits_bits, Option.getD_some]
theorem flagsq (d : Fin 16) (clr : Bool) (t : Trans) : Statement (.flagsq d clr t) := of_step (.flagsq d clr t) rfl rfl <| by
  change stepFields 63 (BitVec.ofFin (w := 4) d ++ BitVec.ofBool clr ++ (0 : BitVec 33)) ((Trans.ofBits t.bits).getD .fall) (t.bits.extractLsb' 0 12) none = _
  rw [stepFields_63]
  simp (disch := omega) only [extract_append_hi, bit_append_hi, bit_append_lo, Nat.reduceSub, extract_all, bit_ofBool, toFin_ofFin, Trans.ofBits_bits, Option.getD_some]
theorem stepWaitComplete (g : Nat) : Statement (.stepWaitComplete g) := of_event _ rfl rfl rfl
theorem startCommandBegin (g : Nat) : Statement (.startCommandBegin g) := of_event _ rfl rfl rfl
theorem startCycleResolved (g : Nat) (n : Nat) : Statement (.startCycleResolved g n) := of_event _ rfl rfl rfl
theorem instanceEntry (g : Nat) (ps : Nat) (col : Nat) : Statement (.instanceEntry g ps col) := of_event _ rfl rfl rfl
theorem hoist (g : Nat) : Statement (.hoist g) := of_event _ rfl rfl rfl
theorem configRecordFetch (g : Nat) (vs : Nat) : Statement (.configRecordFetch g vs) := of_event _ rfl rfl rfl
theorem strike (g : Nat) (ps : Nat) : Statement (.strike g ps) := of_event _ rfl rfl rfl
theorem stripeFree (g : Nat) (h : Nat) : Statement (.stripeFree g h) := of_event _ rfl rfl rfl
theorem holdResume (g : Nat) : Statement (.holdResume g) := of_event _ rfl rfl rfl
theorem holdLimitFault (g : Nat) : Statement (.holdLimitFault g) := of_event _ rfl rfl rfl
theorem matrixGate (g : Nat) (ps : Nat) (col : Nat) : Statement (.matrixGate g ps col) := of_event _ rfl rfl rfl
theorem streamVisit (g : Nat) (n : Nat) : Statement (.streamVisit g n) := of_event _ rfl rfl rfl
theorem bridgeSegmentReceive (g : Nat) (n : Nat) (header : SegmentHead) (words : List (BitVec 1024)) : Statement (.bridgeSegmentReceive g n header words) := of_event _ rfl rfl rfl
theorem staleRefusalReplay (req : Nat) : Statement (.staleRefusalReplay req) := of_event _ rfl rfl rfl
theorem faultholdExpiry (g : Nat) (issuer : Nat) : Statement (.faultholdExpiry g issuer) := of_event _ rfl rfl rfl
theorem unservicedFaultEnd (die : Nat) (ctx : BitVec 16) : Statement (.unservicedFaultEnd die ctx) := of_event _ rfl rfl rfl
theorem copyChannelRecordFetch (g : Nat) (n : Nat) : Statement (.copyChannelRecordFetch g n) := of_event _ rfl rfl rfl
theorem copyComplete (id : Nat) : Statement (.copyComplete id) := of_event _ rfl rfl rfl
theorem barrierByteDecrement (id : Nat) (bytes : Nat) (poisoned : Bool) : Statement (.barrierByteDecrement id bytes poisoned) := of_event _ rfl rfl rfl
theorem barrierArrival (g : Nat) : Statement (.barrierArrival g) := of_event _ rfl rfl rfl
theorem collectiveStart (group : Nat) : Statement (.collectiveStart group) := of_event _ rfl rfl rfl
theorem collectiveComplete (group : Nat) : Statement (.collectiveComplete group) := of_event _ rfl rfl rfl
theorem poisonConsumption (g : Nat) (met : ErrorMet) (addr : BitVec 64) : Statement (.poisonConsumption g met addr) := of_event _ rfl rfl rfl
theorem containmentHandlerEntry (g : Nat) : Statement (.containmentHandlerEntry g) := of_event _ rfl rfl rfl
theorem pairFrequencyChange (pair : Nat) (mhz : BitVec 16) : Statement (.pairFrequencyChange pair mhz) := of_event _ rfl rfl rfl
theorem pairBalance (pair : Nat) (amps0 : Nat) (amps1 : Nat) : Statement (.pairBalance pair amps0 amps1) := of_event _ rfl rfl rfl
theorem droopDetect (g : Nat) (cycles : Nat) : Statement (.droopDetect g cycles) := of_event _ rfl rfl rfl
theorem watchdogExpiry (g : Nat) : Statement (.watchdogExpiry g) := of_event _ rfl rfl rfl
theorem quantumExpiry (g : Nat) : Statement (.quantumExpiry g) := of_event _ rfl rfl rfl
theorem contextEnd (g : Nat) : Statement (.contextEnd g) := of_event _ rfl rfl rfl
theorem completionRecordDeferredWrite (q : Nat) : Statement (.completionRecordDeferredWrite q) := of_event _ rfl rfl rfl
theorem submissionDoorbell (f : Nat) (q : Nat) (tail : BitVec 16) : Statement (.submissionDoorbell f q tail) := of_event _ rfl rfl rfl
theorem completionQueueHeadWrite (f : Nat) (q : Nat) (head : BitVec 16) : Statement (.completionQueueHeadWrite f q head) := of_event _ rfl rfl rfl
theorem taskEntry (q : Nat) : Statement (.taskEntry q) := of_event _ rfl rfl rfl
theorem queueFence (task : Nat) : Statement (.queueFence task) := of_event _ rfl rfl rfl
theorem kill (task : Nat) : Statement (.kill task) := of_event _ rfl rfl rfl
theorem dependenceRelease (task : Nat) (dep : Nat) : Statement (.dependenceRelease task dep) := of_event _ rfl rfl rfl
theorem triggerRelease (task : Nat) (dep : Nat) : Statement (.triggerRelease task dep) := of_event _ rfl rfl rfl
theorem bindRecordWrite (g : Nat) (rc : BitVec 512) : Statement (.bindRecordWrite g rc) := of_event _ rfl rfl rfl
theorem slotRelease (g : Nat) : Statement (.slotRelease g) := of_event _ rfl rfl rfl
theorem gangDispatch (task : Nat) : Statement (.gangDispatch task) := of_event _ rfl rfl rfl
theorem halyardSave (g : Nat) : Statement (.halyardSave g) := of_event _ rfl rfl rfl
theorem halyardSaveComplete (g : Nat) : Statement (.halyardSaveComplete g) := of_event _ rfl rfl rfl
theorem drain (g : Nat) : Statement (.drain g) := of_event _ rfl rfl rfl
theorem drainQuiescence (g : Nat) : Statement (.drainQuiescence g) := of_event _ rfl rfl rfl
theorem faultSave (g : Nat) : Statement (.faultSave g) := of_event _ rfl rfl rfl
theorem halyardRestoreComplete (g : Nat) : Statement (.halyardRestoreComplete g) := of_event _ rfl rfl rfl
theorem debugResume (g : Nat) : Statement (.debugResume g) := of_event _ rfl rfl rfl
theorem debugKill (g : Nat) : Statement (.debugKill g) := of_event _ rfl rfl rfl
theorem shootDown (value : BitVec 64) : Statement (.shootDown value) := of_event _ rfl rfl rfl
theorem shootDownComplete : Statement .shootDownComplete := of_event _ rfl rfl rfl
theorem generationBump (value : BitVec 64) : Statement (.generationBump value) := of_event _ rfl rfl rfl
theorem generationBumpComplete : Statement .generationBumpComplete := of_event _ rfl rfl rfl
theorem faultBufferFlush (die : Nat) : Statement (.faultBufferFlush die) := of_event _ rfl rfl rfl
theorem flushComplete (die : Nat) : Statement (.flushComplete die) := of_event _ rfl rfl rfl
theorem fbstatOvfClear (die : Nat) : Statement (.fbstatOvfClear die) := of_event _ rfl rfl rfl
theorem handoffQueueConfig (n : Nat) (value : BitVec 64) : Statement (.handoffQueueConfig n value) := of_event _ rfl rfl rfl
theorem auditControlWrite (value : BitVec 64) : Statement (.auditControlWrite value) := of_event _ rfl rfl rfl
theorem auditReplay (slot : Nat) (p : AuditFinding) (q : AuditFinding) : Statement (.auditReplay slot p q) := of_event _ rfl rfl rfl
theorem injectionFire (g : Nat) : Statement (.injectionFire g) := of_event _ rfl rfl rfl
theorem correctedError (bank : ErrorSite) : Statement (.correctedError bank) := of_event _ rfl rfl rfl
theorem patrolScrub (die : Nat) (found : ScrubFound) : Statement (.patrolScrub die found) := of_event _ rfl rfl rfl
theorem postPackageRepair (die : Nat) (value : BitVec 64) : Statement (.postPackageRepair die value) := of_event _ rfl rfl rfl
theorem pprComplete (die : Nat) (fail : Bool) : Statement (.pprComplete die fail) := of_event _ rfl rfl rfl
theorem capWrite (src : Nat) (value : BitVec 16) : Statement (.capWrite src value) := of_event _ rfl rfl rfl
theorem pstatClear (f : Nat) : Statement (.pstatClear f) := of_event _ rfl rfl rfl
theorem hostEventBaseWrite (f : Nat) (value : BitVec 64) : Statement (.hostEventBaseWrite f value) := of_event _ rfl rfl rfl
theorem apertureAccess (f : Nat) (offset : Nat) (write : HostAccess) (data : List (BitVec 8)) : Statement (.apertureAccess f offset write data) := of_event _ rfl rfl rfl
theorem registerWrite (who : Writer) (reg : RegName) (value : BitVec 64) : Statement (.registerWrite who reg value) := of_event _ rfl rfl rfl
theorem sysPing (g : Nat) : Statement (.sysPing g) := of_event _ rfl rfl rfl
theorem sysHostev (g : Nat) : Statement (.sysHostev g) := of_event _ rfl rfl rfl
theorem sysSetpri (g : Nat) : Statement (.sysSetpri g) := of_event _ rfl rfl rfl
theorem sysThandler (g : Nat) : Statement (.sysThandler g) := of_event _ rfl rfl rfl
theorem sysQuantum (g : Nat) : Statement (.sysQuantum g) := of_event _ rfl rfl rfl
theorem rdsticky : Statement .rdsticky := of_event _ rfl rfl rfl
theorem clrsticky : Statement .clrsticky := of_event _ rfl rfl rfl
theorem setcap (value : BitVec 16) : Statement (.setcap value) := of_event _ rfl rfl rfl
theorem setfloor (i : Nat) (value : BitVec 16) : Statement (.setfloor i value) := of_event _ rfl rfl rfl
theorem reset : Statement .reset := of_event _ rfl rfl rfl
theorem recover (image : List (BitVec 8)) : Statement (.recover image) := of_event _ rfl rfl rfl
theorem attest (nonce : List (BitVec 8)) : Statement (.attest nonce) := of_event _ rfl rfl rfl
theorem freeze : Statement .freeze := of_event _ rfl rfl rfl
theorem readout (g : Nat) : Statement (.readout g) := of_event _ rfl rfl rfl
theorem injen (on : Bool) : Statement (.injen on) := of_event _ rfl rfl rfl
theorem lcstate (target : LifeCycle) (token : List (BitVec 8)) : Statement (.lcstate target token) := of_event _ rfl rfl rfl
theorem unlock (token : List (BitVec 8)) : Statement (.unlock token) := of_event _ rfl rfl rfl
theorem pcfg (value : BitVec 64) : Statement (.pcfg value) := of_event _ rfl rfl rfl
theorem pldmSensorRead (sensor : Nat) : Statement (.pldmSensorRead sensor) := of_event _ rfl rfl rfl
theorem pldmFirmwareUpdate (image : List (BitVec 8)) : Statement (.pldmFirmwareUpdate image) := of_event _ rfl rfl rfl
theorem coldReset : Statement .coldReset := of_event _ rfl rfl rfl
theorem eosenFatalError : Statement .eosenFatalError := of_event _ rfl rfl rfl
theorem functionLevelReset (f : Nat) : Statement (.functionLevelReset f) := of_event _ rfl rfl rfl
theorem linkDown (f : Nat) : Statement (.linkDown f) := of_event _ rfl rfl rfl
theorem linkRetrain (f : Nat) : Statement (.linkRetrain f) := of_event _ rfl rfl rfl
theorem kamvaFlitReplay (port : Nat) : Statement (.kamvaFlitReplay port) := of_event _ rfl rfl rfl
theorem thermalThrottle (die : Nat) (celsius : Nat) (mhz : BitVec 16) : Statement (.thermalThrottle die celsius mhz) := of_event _ rfl rfl rfl
theorem thermalTrip (die : Nat) (sensor : Nat) (code : Nat) : Statement (.thermalTrip die sensor code) := of_event _ rfl rfl rfl
theorem memoryAccessPerformed (req : Nat) (scope : Scope) : Statement (.memoryAccessPerformed req scope) := of_event _ rfl rfl rfl
theorem kamvaLinkDown (port : Nat) : Statement (.kamvaLinkDown port) := of_event _ rfl rfl rfl
theorem kamvaLinkUp (port : Nat) : Statement (.kamvaLinkUp port) := of_event _ rfl rfl rfl
theorem kamvaInboundRequest (req : InboundRequest) : Statement (.kamvaInboundRequest req) := of_event _ rfl rfl rfl
theorem mainRailsDown : Statement .mainRailsDown := of_event _ rfl rfl rfl
theorem auditRingTimeout (slot : Nat) : Statement (.auditRingTimeout slot) := of_event _ rfl rfl rfl
theorem yieldDecision (g : Nat) : Statement (.yieldDecision g) := of_event _ rfl rfl rfl

end Sys2Proof.Laws.Encodes
end

