-- ==== Sys2Proof/Laws/Rows.lean ====
section
/-!
SUPPORT. What the shared forms of a row's meaning answer: the pop of `up`, the check of `dn`, a row with a destination and
a row with an effect, on a row that goes; and the sub-elements of what the lane-wise computations give.
-/

namespace Sys2Proof.Machine

open Sys2Proof Sys2Proof.Safety

/-! ### Lanes and sub-elements -/

theorem pow2_eq (k : Nat) : pow2 k = 2 ^ k := by simp [pow2, Nat.shiftLeft_eq]

theorem lane_ofLanes (f : Nat → W32) (l : Nat) (h : l < 32) : (Vec.ofLanes f).lane l = f l := by
  simp [Vec.lane, Vec.ofLanes, Vector.getD, h]

theorem lane_zero (l : Nat) : Vec.zero.lane l = 0 := by
  by_cases h : l < 32
  · exact lane_ofLanes _ _ h
  · simp [Vec.lane, Vec.zero, Vec.ofLanes, Vector.getD, h]

theorem joinSubs_div (w : Nat) (xs : List Nat) (e : Nat) :
    joinSubs w xs / 2 ^ (w * e) % 2 ^ w = xs.getD e 0 % 2 ^ w := by
  induction xs generalizing e with
  | nil => simp [joinSubs]
  | cons x r ih =>
    have hp : 0 < 2 ^ w := Nat.two_pow_pos w
    cases e with
    | zero => simp [joinSubs, pow2_eq]
    | succ e =>
      have h1 : (x % 2 ^ w + 2 ^ w * joinSubs w r) / 2 ^ w = joinSubs w r := by
        rw [Nat.add_mul_div_left _ _ hp, Nat.div_eq_of_lt (Nat.mod_lt _ hp), Nat.zero_add]
      simp only [joinSubs, pow2_eq, List.getD_cons_succ, Nat.mul_succ, Nat.add_comm (w * e) w, Nat.pow_add, ← Nat.div_div_eq_div_mul]
      rw [h1, ih]

theorem joinSubs_lt (w : Nat) (xs : List Nat) : joinSubs w xs < 2 ^ (w * xs.length) := by
  induction xs with
  | nil => simp [joinSubs]
  | cons x r ih =>
    have hp : 0 < 2 ^ w := Nat.two_pow_pos w
    have h1 := Nat.mod_lt x hp
    simp only [joinSubs, pow2_eq, List.length_cons, Nat.mul_succ, Nat.pow_add]
    calc x % 2 ^ w + 2 ^ w * joinSubs w r < 2 ^ w * 1 + 2 ^ w * joinSubs w r := by omega
      _ = 2 ^ w * (joinSubs w r + 1) := by rw [Nat.mul_add, Nat.add_comm]
      _ ≤ 2 ^ w * 2 ^ (w * r.length) := Nat.mul_le_mul_left _ ih
      _ = _ := Nat.mul_comm _ _

/-- A sub-element of a lane made sub-element by sub-element. -/
theorem subElem_subMap (w : Nat) (f : Nat → Nat × W32) (e : Nat) (hw : w * (32 / w) = 32) (h : e < 32 / w) :
    subElem w (subMap w f).1 e = (f e).1 % 2 ^ w := by
  have hl := joinSubs_lt w (((List.range (32 / w)).map f).map Prod.fst)
  simp only [List.length_map, List.length_range, hw] at hl
  simp only [subMap, subElem, pow2_eq, BitVec.toNat_ofNat, Nat.shiftRight_eq_div_pow]
  rw [Nat.mod_eq_of_lt hl, joinSubs_div]
  simp [List.getD_eq_getElem?_getD, h]

/-- Every width of a type divides a lane. -/
theorem tyWidth_dvd (t : Ty) : tyWidth t * (32 / tyWidth t) = 32 := by cases t <;> rfl

theorem tyWidth_pos (t : Ty) : 0 < tyWidth t := by cases t <;> decide

theorem subElem_lt (w : Nat) (x : W32) (e : Nat) : subElem w x e < 2 ^ w := by
  simp only [subElem, pow2_eq]; exact Nat.mod_lt _ (Nat.two_pow_pos w)

/-- A lane of a result with flags. -/
theorem lane_lanesFlags (guard : W32) (f : Nat → W32 × W32) (l : Nat) (h : l < 32) :
    (lanesFlags guard f).1.lane l = (f l).1 := by
  simp only [lanesFlags]; exact lane_ofLanes (fun l => (f l).1) l h

theorem bit_foldl_or {α : Type} (f : α → W32) (b : Nat) (l : List α) (a : W32) :
    bit (l.foldl (fun a r => a ||| f r) a) b = true ↔ bit a b = true ∨ ∃ x ∈ l, bit (f x) b = true := by
  induction l generalizing a with
  | nil => simp
  | cons x l ih =>
    have hb : bit (a ||| f x) b = true ↔ bit a b = true ∨ bit (f x) b = true := by
      simp only [bit, BitVec.getLsbD_or, Bool.or_eq_true]
    rw [List.foldl_cons, ih, hb, or_assoc]
    simp only [List.mem_cons, exists_eq_or_imp]

/-- The flags of a lane made sub-element by sub-element. -/
theorem bit_subMap (w : Nat) (f : Nat → Nat × W32) (b : Nat) :
    bit (subMap w f).2 b = true ↔ ∃ e, e < 32 / w ∧ bit (f e).2 b = true := by
  have h0 : ¬ bit (0 : W32) b = true := by simp [bit]
  simp only [subMap, bit_foldl_or, h0, Bool.false_eq_true, false_or, List.mem_map, List.mem_range]
  constructor
  · rintro ⟨x, ⟨e, he, rfl⟩, h⟩
    exact ⟨e, he, h⟩
  · rintro ⟨e, he, h⟩
    exact ⟨_, ⟨e, he, rfl⟩, h⟩

/-- The flags of the lanes whose guard is true. -/
theorem bit_lanesFlags (guard : W32) (f : Nat → W32 × W32) (b : Nat) :
    bit (lanesFlags guard f).2 b = true ↔ ∃ l, l < 32 ∧ bit guard l = true ∧ bit (f l).2 b = true := by
  have h : (lanesFlags guard f).2 = (List.range 32).foldl (fun w l => w ||| (if bit guard l then (f l).2 else 0)) 0 := by
    simp only [lanesFlags]
    congr 1
    funext w l
    split <;> simp
  rw [h, bit_foldl_or (fun l => if bit guard l then (f l).2 else 0)]
  constructor
  · rintro (h | ⟨l, hl, h⟩)
    · simp [bit] at h
    · cases hg : bit guard l
      · rw [hg] at h; simp [bit] at h
      · exact ⟨l, by simpa using hl, hg, by simpa [hg] using h⟩
  · rintro ⟨l, hl, hg, h⟩
    exact .inr ⟨l, by simpa using hl, by simpa [hg] using h⟩

/-- A result computed on every sub-element of A, in other words. -/
theorem map1_subs (r : Row) (k : ImmKind) (f F : Nat → Nat × W32) (s : State) (up : Vec)
    (hf : ∀ a, a < 2 ^ tyWidth r.ty → F a = ((f a).1 % 2 ^ tyWidth r.ty, (f a).2)) :
    subs1 r k F s up (map1 r k (tyWidth r.ty) f s up) := by
  refine ⟨fun l hl e he => ?_, fun b _ => ?_⟩
  · simp only [map1, subOf]
    rw [lane_lanesFlags _ _ _ hl, subElem_subMap _ _ _ (tyWidth_dvd r.ty) he, hf _ (subElem_lt _ _ _)]
  · simp only [map1, bit_lanesFlags, bit_subMap, subOf, hf _ (subElem_lt _ _ _)]; rfl

/-- A result computed on every sub-element of A and B, in other words. -/
theorem map2_subs (r : Row) (ka kb : ImmKind) (f F : Nat → Nat → Nat × W32) (s : State) (up : Vec)
    (hf : ∀ a b, a < 2 ^ tyWidth r.ty → b < 2 ^ tyWidth r.ty → F a b = ((f a b).1 % 2 ^ tyWidth r.ty, (f a b).2)) :
    subs2 r ka kb F s up (map2 r ka kb (tyWidth r.ty) f s up) := by
  refine ⟨fun l hl e he => ?_, fun b _ => ?_⟩
  · simp only [map2, subOf]
    rw [lane_lanesFlags _ _ _ hl, subElem_subMap _ _ _ (tyWidth_dvd r.ty) he, hf _ _ (subElem_lt _ _ _) (subElem_lt _ _ _)]
  · simp only [map2, bit_lanesFlags, bit_subMap, subOf, hf _ _ (subElem_lt _ _ _) (subElem_lt _ _ _)]; rfl

/-- A result computed on every sub-element of A, B and C, in other words. -/
theorem map3_subs (r : Row) (k : ImmKind) (f F : Nat → Nat → Nat → Nat × W32) (s : State) (up : Vec)
    (hf : ∀ a b c, a < 2 ^ tyWidth r.ty → b < 2 ^ tyWidth r.ty → c < 2 ^ tyWidth r.ty →
      F a b c = ((f a b c).1 % 2 ^ tyWidth r.ty, (f a b c).2)) :
    subs3 r k F s up (map3 r k (tyWidth r.ty) f s up) := by
  refine ⟨fun l hl e he => ?_, fun b _ => ?_⟩
  · simp only [map3, subOf]
    rw [lane_lanesFlags _ _ _ hl, subElem_subMap _ _ _ (tyWidth_dvd r.ty) he,
      hf _ _ _ (subElem_lt _ _ _) (subElem_lt _ _ _) (subElem_lt _ _ _)]
  · simp only [map3, bit_lanesFlags, bit_subMap, subOf, hf _ _ _ (subElem_lt _ _ _) (subElem_lt _ _ _) (subElem_lt _ _ _)]; rfl

/-- A result given lane by lane. -/
theorem perLane_lanes (f : State → Vec → Nat → W32) (s : State) (up : Vec) : lanes f s up (perLane f s up) :=
  ⟨fun _ hl => lane_ofLanes _ _ hl, rfl⟩

/-- The predicate bits of a comparison. -/
theorem foldl_setBit (f : Nat → Bool) (n l : Nat) (hn : n ≤ 32) (h : l < n) :
    bit ((List.range n).foldl (fun (m : W32) l => setBit m l (f l)) 0) l = f l := by
  induction n with
  | zero => omega
  | succ n ih =>
    rw [List.range_succ, List.foldl_append]
    by_cases hl : l = n
    · subst hl
      simp only [List.foldl_cons, List.foldl_nil, setBit, bit]
      cases f l <;> simp <;> omega
    · have h1 := ih (by omega) (by omega)
      simp only [List.foldl_cons, List.foldl_nil, setBit, bit] at h1 ⊢
      rw [← h1]
      have : ¬ (l - n = 0 ∧ n ≤ l) := by omega
      cases f n
      · simp only [Bool.false_eq_true, if_false, BitVec.getLsbD_and, BitVec.getLsbD_not, BitVec.getLsbD_shiftLeft,
          BitVec.getLsbD_one]
        have : (decide (l < 32) && !decide (l < n) && (decide (0 < 32) && decide (l - n = 0))) = false := by
          simp; omega
        rw [this]; simp; omega
      · simp only [if_true, BitVec.getLsbD_or, BitVec.getLsbD_shiftLeft, BitVec.getLsbD_one]
        have : (decide (l < 32) && !decide (l < n) && (decide (0 < 32) && decide (l - n = 0))) = false := by
          simp; omega
        rw [this]; simp

/-- A comparison's result. -/
theorem mapCmp_compares (r : Row) (f : Nat → Nat → Bool) (s : State) (up : Vec) :
    compares r (fun a b => f a b = true) s up (mapCmp r (tyWidth r.ty) f s up) := by
  have hp := Nat.two_pow_pos (tyWidth r.ty)
  have h := (map2_subs r (.ty r.ty) (.ty r.ty) _ (fun a b => (if f a b then pow2 (tyWidth r.ty) - 1 else 0, 0)) s up
    (fun a b _ _ => Prod.ext (Nat.mod_eq_of_lt (by simp only [pow2_eq]; split <;> omega)).symm rfl)).1
  refine ⟨fun l hl e he => ?_, fun l hl => foldl_setBit _ 32 _ (by omega) hl, rfl⟩
  have := h l hl e he
  simp only [mapCmp]
  rw [this]
  simp only [pow2_eq]
  constructor <;> intro hf <;> simp [hf]

/-! ### Rows that go -/

theorem Ring.spoison_useBank (r : Ring) (b w : Nat) (z : Bool) : (r.useBank b w z).spoison = r.spoison := by
  simp only [Ring.useBank]; split <;> rfl

theorem Ring.spadPoisoned_useBank (r : Ring) (b w : Nat) (z : Bool) (b' o n : Nat) (z' : Bool) :
    (r.useBank b w z).spadPoisoned b' o n z' = r.spadPoisoned b' o n z' := by
  simp only [Ring.spadPoisoned, Ring.spoison_useBank]

theorem Ring.spad_useBank (r : Ring) (b w : Nat) (z : Bool) : (r.useBank b w z).spad = r.spad := by
  simp only [Ring.useBank]; split <;> rfl

theorem Ring.spadRead_spad (r r' : Ring) (h : r'.spad = r.spad) (blk o : Nat) (z : Bool) (n : Nat) :
    r'.spadRead blk o z n = r.spadRead blk o z n := by
  induction n generalizing o with
  | zero => rfl
  | succ n ih => simp only [Ring.spadRead, Ring.spadByte, ih, h]

theorem Ring.wordAt_useBank (r : Ring) (b w : Nat) (z : Bool) (b' w' : Nat) (z' : Bool) :
    (r.useBank b w z).wordAt b' w' z' = r.wordAt b' w' z' := by
  simp only [Ring.wordAt, Ring.spadRead_spad _ _ (Ring.spad_useBank r b w z)]

/-- The pop of `up` on a row that goes. -/
theorem popUp_goes (r : Row) (s : State) (h : upGoes r s = true) : popUp r s = .ok (afterUp r s) (upWord r s) := by
  unfold popUp afterUp upWord
  cases hr : rowReadsUp r with
  | false => rfl
  | true =>
    simp only [upGoes, hr, Bool.not_true, Bool.false_or, upEntry] at h
    simp only [Bool.not_true, Bool.false_eq_true, if_false, if_true, isTileQueue, takeWord, upEntry]
    cases hb : boundQueue s false with
    | none => simp [hb] at h
    | some q =>
      cases hq : (s.ring s.focus.ring).queue q with
      | none => simp [hb, hq] at h
      | some c =>
        cases he : ((s.ring s.focus.ring).qstate (s.block false) q).entry (((s.ring s.focus.ring).qstate (s.block false) q).upPos s.focus) with
        | none => simp [hb, hq, he] at h
        | some m =>
          simp only [hb, hq, he] at h ⊢
          cases ht : c.tile with
          | true => simp [ht] at h
          | false =>
            by_cases hv : (s.ring s.focus.ring).ctx.rcyc < m.vis
            · simp [ht, hv] at h
            · simp only [ht, hv, Bool.false_eq_true, if_false, Bool.and_eq_true, Bool.not_eq_true', beq_iff_eq] at h ⊢
              simp only [h.1, Ring.spadPoisoned_useBank, h.2, Ring.wordAt_useBank, Bool.false_eq_true, if_false,
                QMeta.payload, QMeta.bubble, ne_eq, not_true_eq_false]
              cases m.lr <;> cases m.ls <;> rfl

theorem Ring.record_onElem (r : Ring) (ps k : Nat) (f : Element → Element) (qs : Nat) :
    ((r.onElem ps k f).stripe qs).record = (r.stripe qs).record := by
  simp only [Ring.onElem, Ring.setElem, Ring.setStripe, Ring.stripe, tget_tset]
  split
  · rename_i h; subst h; rfl
  · rfl

theorem Ring.occ_onElem (r : Ring) (ps k : Nat) (f : Element → Element) (qs : Nat) :
    ((r.onElem ps k f).stripe qs).occ = (r.stripe qs).occ := by
  simp only [Ring.onElem, Ring.setElem, Ring.setStripe, Ring.stripe, tget_tset]
  split
  · rename_i h; subst h; rfl
  · rfl

theorem Ring.useBank_stripes (r : Ring) (b w : Nat) (z : Bool) : (r.useBank b w z).stripes = r.stripes := by
  simp only [Ring.useBank]; split <;> rfl

theorem Ring.useBank_qcfg (r : Ring) (b w : Nat) (z : Bool) : (r.useBank b w z).qcfg = r.qcfg := by
  simp only [Ring.useBank]; split <;> rfl

theorem Ring.useBank_ctx (r : Ring) (b w : Nat) (z : Bool) : (r.useBank b w z).ctx = r.ctx := by
  simp only [Ring.useBank]; split <;> rfl

theorem Ring.useBank_retire (r : Ring) (b w : Nat) (z : Bool) : (r.useBank b w z).retire = r.retire := by
  simp only [Ring.useBank]; split <;> rfl

/-- What taking the `up` word leaves of the state: the place of issue, the ring's record and queue configuration. -/
theorem afterUp_focus (r : Row) (s : State) : (afterUp r s).focus = s.focus := by
  unfold afterUp; split
  · split <;> rfl
  · rfl

theorem afterUp_switchNow (r : Row) (s : State) : (afterUp r s).switchNow = s.switchNow := by
  have h : ((((afterUp r s).ring s.focus.ring).stripe s.focus.ps).record) = ((s.ring s.focus.ring).stripe s.focus.ps).record := by
    unfold afterUp; split
    · split
      · simp only [State.onMe, State.onElem, State.onRing_focus, State.ring_onRing, Ring.record_onElem]
        simp only [Ring.stripe, Ring.setQ, Ring.useBank_stripes]
      · rfl
    · rfl
  simp only [State.switchNow, afterUp_focus, h]

theorem afterUp_queue (r : Row) (s : State) (q : Nat) :
    ((afterUp r s).ring s.focus.ring).queue q = (s.ring s.focus.ring).queue q := by
  unfold afterUp; split
  · split
    · simp only [State.onMe, State.onElem, State.onRing_focus, State.ring_onRing, Ring.queue, Ring.qcfg_onElem]
      simp only [Ring.setQ, Ring.useBank_qcfg]
    · rfl
  · rfl

theorem afterUp_boundQueue (r : Row) (s : State) (d : Bool) : boundQueue (afterUp r s) d = boundQueue s d := by
  simp only [boundQueue, afterUp_switchNow]

theorem afterUp_isTileQueue (r : Row) (s : State) (q : Nat) : isTileQueue (afterUp r s) q = isTileQueue s q := by
  simp only [isTileQueue, afterUp_focus, afterUp_queue]

/-- The check of `dn` on a row that goes. -/
theorem checkDn_goes (r : Row) (s : State) (h : dnGoes r s = true) : checkDn r (afterUp r s) = .ok (afterUp r s) () := by
  unfold checkDn
  simp only [afterUp_boundQueue, afterUp_isTileQueue]
  simp only [dnGoes, Bool.or_eq_true, bne_iff_ne, ne_eq] at h
  by_cases hd : r.dst = .port .dn
  · simp only [hd, not_true_eq_false, false_or, if_true] at h ⊢
    cases hb : boundQueue s true with
    | none => simp [hb] at h
    | some q =>
      simp only [hb, Bool.not_eq_true'] at h ⊢
      simp [h]
  · simp [hd]

/-- The parts of `rowGoes`. -/
theorem rowGoes_parts {i : Instr} {r : Row} {s : State} (h : rowGoes i r s = true) :
    i.check = none ∧ isNoOp r.guard = false ∧ upGoes r s = true ∧ dnGoes r s = true := by
  simpa [rowGoes, and_assoc] using h

/-- A row with a destination, on a row that goes. -/
theorem resultRow_goes (i : Instr) (r : Row) (f : State → Vec → RowResult) (s : State) (h : rowGoes i r s = true) :
    resultRow i r f s = .next (addPend (afterUp r s) (rowPends (afterUp r s) r (rowLatency (shapeOf i).lat r)
      (f (afterUp r s) (upWord r s)))) := by
  obtain ⟨h1, h2, h3, h4⟩ := rowGoes_parts h
  simp only [resultRow, h1, h2, popUp_goes r s h3, checkDn_goes r s h4, Bool.false_eq_true, if_false]

/-- A row with an effect, on a row that goes. -/
theorem effectRow_goes (i : Instr) (r : Row) (f : State → Vec → State) (s : State) (h : rowGoes i r s = true) :
    effectRow i r f s =
      .next (if guardMask (afterUp r s).me r.guard = 0 then afterUp r s else f (afterUp r s) (upWord r s)) := by
  obtain ⟨h1, h2, h3, h4⟩ := rowGoes_parts h
  simp only [effectRow, checkedRow, h1, h2, popUp_goes r s h3, Bool.false_eq_true, if_false, ite_self]
  split <;> rfl

/-- A row under the no-op guard. -/
theorem resultRow_noOp (i : Instr) (r : Row) (f : State → Vec → RowResult) (s : State) (h : i.check = none)
    (n : isNoOp r.guard = true) : resultRow i r f s = .next s := by
  simp only [resultRow, h, n, if_true]

theorem effectRow_noOp (i : Instr) (r : Row) (f : State → Vec → State) (s : State) (h : i.check = none)
    (n : isNoOp r.guard = true) : effectRow i r f s = .next s := by
  simp only [effectRow, checkedRow, h, n, if_true]

/-- A row's own result, from what its meaning computes. -/
theorem rowDoes_of_resultRow {i : Instr} {r : Row} {lat : Nat} {s : State} {P : State → Vec → RowResult → Prop}
    {f : State → Vec → RowResult} (he : exec i s = resultRow i r f s) (hl : (shapeOf i).lat = lat)
    (h : rowGoes i r s = true) (hp : P (afterUp r s) (upWord r s) (f (afterUp r s) (upWord r s))) : rowDoes i r lat s P :=
  ⟨_, by rw [he, resultRow_goes i r f s h, hl]; rfl, hp⟩

end Sys2Proof.Machine
end

