-- ==== Sys2Proof/Laws/Steps.lean ====
section
/-!
SUPPORT. How a step ends: what `exec` answers for a step whose effect completes, waits or stops, on its first cycle and when
it has waited.
-/

namespace Sys2Proof.Machine

open Sys2Proof Sys2Proof.Safety

theorem stepMeaning_next {i : Instr} {t : Trans} {f : State → Nat → Option Wait → StepEnd} {s : State} (hc : i.check = none) :
    stepMeaning i t f s = .next (endStepState s.focus.ring t (f s s.focus.ring none)) := by
  unfold stepMeaning; rw [hc]

/-- A step whose effect is done completes. -/
theorem exec_done {i : Instr} {s u : State} {t : Trans} {f : State → Nat → Option Wait → StepEnd}
    (he : exec i s = stepMeaning i t f s) (hc : i.check = none) (hf : f s s.focus.ring none = .done u) : stepCompletes i s t u := by
  unfold stepCompletes; rw [he, stepMeaning_next hc, hf]; rfl

/-- A step whose effect stops goes where the effect says. -/
theorem exec_stop {i : Instr} {s u : State} {t : Trans} {f : State → Nat → Option Wait → StepEnd}
    (he : exec i s = stepMeaning i t f s) (hc : i.check = none) (hf : f s s.focus.ring none = .stop u) : exec i s = .next u := by
  rw [he, stepMeaning_next hc, hf]; rfl

/-- A step whose effect waits stays. -/
theorem exec_wait {i : Instr} {s u : State} {t : Trans} {f : State → Nat → Option Wait → StepEnd}
    (he : exec i s = stepMeaning i t f s) (hc : i.check = none) (hf : f s s.focus.ring none = .wait u) : exec i s = .next u := by
  rw [he, stepMeaning_next hc, hf]; rfl

/-- What a ring that waits in a step answers when its condition is looked at. -/
theorem exec_waiting {g : Nat} {s : State} {i : Instr} {w : Wait} {t : Trans} {f : State → Nat → Option Wait → StepEnd}
    (h : waitsIn g s i w) (hw : waitingStep i = some (t, f)) :
    exec (.stepWaitComplete g) s = .next (endStepState g t (f s g (some w))) := by
  change execStepWaitComplete g s = _
  unfold execStepWaitComplete
  simp only [h.1, h.2, hw]

/-- A waiting step whose effect is done completes. -/
theorem waiting_done {g : Nat} {s u : State} {i : Instr} {w : Wait} {t : Trans} {f : State → Nat → Option Wait → StepEnd}
    (h : waitsIn g s i w) (hw : waitingStep i = some (t, f)) (hf : f s g (some w) = .done u) : waitCompletes g s t u := by
  unfold waitCompletes; rw [exec_waiting h hw, hf]; rfl

/-- A waiting step whose effect stops goes where the effect says. -/
theorem waiting_stop {g : Nat} {s u : State} {i : Instr} {w : Wait} {t : Trans} {f : State → Nat → Option Wait → StepEnd}
    (h : waitsIn g s i w) (hw : waitingStep i = some (t, f)) (hf : f s g (some w) = .stop u) :
    exec (.stepWaitComplete g) s = .next u := by
  rw [exec_waiting h hw, hf]; rfl

/-- A waiting step that waits on. -/
theorem waiting_wait {g : Nat} {s u : State} {i : Instr} {w : Wait} {t : Trans} {f : State → Nat → Option Wait → StepEnd}
    (h : waitsIn g s i w) (hw : waitingStep i = some (t, f)) (hf : f s g (some w) = .wait u) :
    exec (.stepWaitComplete g) s = .next u := by
  rw [exec_waiting h hw, hf]; rfl

/-- The numbers that a mask names. -/
theorem mem_maskList {n : Nat} (m : BitVec n) (k : Nat) : k ∈ maskList m ↔ k < n ∧ bit m k = true := by
  simp [maskList, bit, List.mem_filter, List.mem_range]

end Sys2Proof.Machine
end

