-- ==== Sys2Proof/Tests/Slice0.lean ====
section
/-!
SUPPORT. Tests of single words and single steps against the spec's own examples, and for every statement that has
hypotheses a state and operands that meet them, clause by clause (`witness_…`).
-/

open Sys2Proof Sys2Proof.Machine Sys2Proof.Safety

namespace Sys2Proof.Tests

set_option Elab.async false

/-! ### Rows to test with -/

/-- A row with every field zero. -/
def row0 : Row := ⟨⟨false, 0⟩, none, .f32, .v 0, .v 0, .v 0, .v 0, .rne, false, false, 0⟩

/-- A row that the entry of an operation allows, with the immediate given. -/
def rowFor (mk : Row → Instr) (imm : BitVec 16) : Row :=
  match (mk row0).shape? with
  | none => row0
  | some sh =>
    let src (k : SKind) : Opnd := match k with
      | .s => .x 15
      | .p => .pred 1
      | .q => .queue ⟨false, 0⟩
      | .mBank => .mat (.acc 0)
      | .mXa => .mat .xa
      | .mCbOrNone => .mat (.cb 0)
      | .mAcc => .mat (.acc 3)
      | .unused => .v 0
      | .cvtB => .v 0
    { row0 with
      imm := imm
      ty := match sh.ty with
        | .untyped => .f32
        | .ints => .i32
        | .signed => .i16
        | .floats => .bf16
        | .words => .n32
        | .nibbles => .n8
      dst := match sh.d with
        | .unused => .v 0
        | .d => .v 63
        | .p => .pred 7
        | .q => .queue ⟨true, 15⟩
        | .mAccz => .mat .xa
        | .mBank => .mat (.acc 3)
        | .mCb => .mat (.cb 1)
      sa := src sh.a, sb := src sh.b, sc := src sh.c }

/-- Whether such a row goes in a state. -/
def goes (s : State) (imm : BitVec 16) (mk : Row → Instr) : Bool := rowGoes (mk (rowFor mk imm)) (rowFor mk imm) s

/-- Ring 0 with a context bound to it. -/
def onCtx0 (f : Ctx → Ctx) : State := State.reset.onRing 0 fun r => { r with bound := true, slotState := .running, ctx := f r.ctx }

/-- Ring 0 with a context bound to it, and what else the ring holds. -/
def onRing0 (f : Ring → Ring) : State := (onCtx0 id).onRing 0 f

/-- Ring 0 with a record and an occupant on stripe 0. -/
def onStripe0 (rc : Rec) (o : Occupant) : State := onRing0 fun r => r.setStripe 0 { Stripe.reset with record := some rc, occ := some o }

/-- A record of a header and nothing else. -/
def rec0 : Rec := ⟨0, [], [], 0, []⟩

/-- An entry of a word queue, seen from ring cycle 0. -/
def meta0 : QMeta := ⟨false, false, allTags, 0, 0, 0, false⟩

/-- A queue that holds one entry. -/
def one : QState := { QState.reset with tail := 1, info := [(0, meta0)] }

/-- A request of the context of ring 0. -/
def req0 : Req :=
  { id := 0, ring := 0, ctx := 0, asid := 0, party := .seq, kind := .read, parts := [], wdi := 0, lines := 0, tc := 0,
    purpose := .ald, done := none, stop := none, poison := false, cls := 0, line := 0, stale := false }

/-! ### The words of the spec -/

/-- Every check of WellFormed refuses a term, with the code of R127: R101, R102, R103, R113 (IMM, MOD, PRO), R187, R188, R197, R209,
R231, R246, R249, R68, R235, R110, R148, R153, R40, R79, R175, R304, R320. -/
theorem test_ill_formed :
    ([(.iadd row0, 6), (.iadd { row0 with ty := .i32, dst := .pred 1 }, 6), (.iadd { row0 with ty := .i32, sc := .v 1 }, 6),
      (.pand { row0 with dst := .pred 0, sa := .pred 1, sb := .pred 1 }, 6),
      (.iadd { row0 with ty := .i32, imm := 1 }, 6), (.iand { row0 with ty := .i32, sat := true }, 6),
      (.iadd { row0 with ty := .i32, rm := .rup }, 6), (.sst { row0 with z := true }, 6),
      (.iadd { row0 with ty := .i32, pro := some 1 }, 6), (.icmpEq { row0 with ty := .i16, pro := some 1 }, 6),
      (.icmpEq { row0 with ty := .i32, pro := some 0 }, 6), (.iadd { row0 with ty := .n32, sb := .imm 63 }, 6),
      (.ibfx { row0 with ty := .i16, imm := 0x1100 }, 6), (.cvt { row0 with imm := 0 }, 6), (.ftoi { row0 with ty := .i8 }, 6),
      (.lredAdd { row0 with ty := .i32, rm := .rtz }, 6), (.qtx { row0 with dst := .queue ⟨true, 0⟩, sa := .queue ⟨true, 0⟩ }, 6),
      (.accrd { row0 with sa := .mat (.ckr 0), imm := 1 }, 6), (.accwr { row0 with dst := .mat (.ckc 0), imm := 1 }, 6),
      (.cmerge { row0 with dst := .mat (.cb 0), sa := .mat (.cb 0) }, 6), (.xcfg { row0 with imm := 256 }, 6),
      (.imov { row0 with dst := .port .dn, z := true }, 6), (.imov { row0 with dst := .port (.tap 0), z := true }, 6),
      (.imov { row0 with dst := .port .up }, 7), (.imov { row0 with sa := .port .dn }, 7),
      (.mmaBf16 ⟨false, ⟨false, 1⟩, ⟨false, 1⟩, 0, 0, false, false, false, false, 0, 0, 0, 0⟩, 6),
      (.mmaF8 ⟨false, ⟨false, 1⟩, ⟨true, 1⟩, 0, 1, false, false, false, false, 0, 0, 0, 0⟩, 6),
      (.mmc ⟨false, ⟨false, 1⟩, ⟨true, 1⟩, 1, 0, false, false, false, false, 0, 0, 0, 0⟩, 6),
      (.mmcCh ⟨false, ⟨false, 1⟩, ⟨true, 1⟩, 0, 3, false, false, false, false, 0, 0, 0, 0⟩, 6),
      (.stepNop (.goto (.line 6) 0), 4), (.waits 0x40 false .fall, 3), (.kset 0 true 0x10000 .fall, 3),
      (.fmtset 0 0 .fall, 11), (.qset 0 0 0 0 none .fall, 3), (.sbar 0 .ring none .fall, 3),
      (.atom .fadd true ⟨false, 0⟩ 0 ⟨false, 0⟩ ⟨false, 0⟩ 0 .fall, 3),
      (.atom .add true ⟨false, 0⟩ 0 ⟨false, 0⟩ ⟨false, 1⟩ 0 .fall, 3), (.capq 0 18 .fall, 3)] : List (Instr × Nat)).all
      (fun e => e.1.check.map Refused.code == some e.2) = true := by decide

/-- A row word by its fields (R99): MAJ, FN, GRD, PRO, TY, DST, SA, SB, SC, MOD, IMM. -/
def rowWord (maj fn grd pro ty dst sa sb sc md imm : Nat) : Nat :=
  maj * 2 ^ 74 + fn * 2 ^ 68 + grd * 2 ^ 64 + pro * 2 ^ 60 + ty * 2 ^ 56 + dst * 2 ^ 47 + sa * 2 ^ 38 + sb * 2 ^ 29 +
    sc * 2 ^ 20 + md * 2 ^ 16 + imm

/-- A step word by its fields (R107): OP, XC, XT and the operand bits. -/
def stepWord (op xc xt operands : Nat) : Nat := op * 2 ^ 58 + xc * 2 ^ 50 + xt * 2 ^ 38 + operands

/-- One row of each group, its fields written out from R99, R102 and R106, and of the tile groups from R105. -/
theorem test_row_words :
    ([(rowWord 0 1 9 0 0 0 0 0 0 0 0x1234, .sig { row0 with guard := ⟨true, 1⟩, imm := 0x1234 }),
      (rowWord 1 6 0 0 0 1 (3 * 64) 0 0 1 0x5678, .ilui { row0 with dst := .v 1, sa := .imm 0, z := true, imm := 0x5678 }),
      (rowWord 2 5 0 0 8 (64 + 15) 63 (3 * 64 + 31) 0 0 0, .iaddsat { row0 with ty := .n8, dst := .x 15, sa := .v 63, sb := .imm 31 }),
      (0x0C20C301805800000000, .icmpLt { row0 with pro := some 4, ty := .i32, dst := .v 3, sa := .v 1, sb := .imm 0 }),
      (0x10200040A01840000000, .fmul { row0 with dst := .port .dn, sa := .port .up, sb := .imm 2 }),
      (0x10250244A01FA00D0000, .fmul { row0 with guard := ⟨false, 5⟩, ty := .f16, dst := .port (.po 1), sa := .port .up, sb := .imm 61, rm := .rup, z := true }),
      (rowWord 5 6 0 0 1 (2 * 64 + 8) (4 * 64 + 5) (2 * 64 + 15) 0 0 0,
        .fcmpUn { row0 with ty := .bf16, dst := .port (.po 0), sa := .special .sb, sb := .port (.tap 3) }),
      (rowWord 6 6 0 0 2 0 1 0 0 0b1110 0, .ftanh { row0 with ty := .f16, sa := .v 1, rm := .rup, sat := true }),
      (0x1C30000A0100C1420021, .quant { row0 with dst := .v 20, sa := .v 4, sb := .v 6, sc := .v 20, sat := true, imm := 0x21 }),
      (rowWord 8 8 0 0 0 (5 * 64 + 7) (5 * 64 + 1) 0 0 0 0, .pall { row0 with dst := .pred 7, sa := .pred 1 }),
      (rowWord 9 6 0 0 6 2 3 0 0 2 0, .lscanAdd { row0 with ty := .n32, dst := .v 2, sa := .v 3, sat := true }),
      (0x286100D0E00000000000, .qtx { row0 with guard := ⟨false, 1⟩, dst := .queue ⟨true, 1⟩, sa := .queue ⟨false, 0⟩ }),
      (0x30000010000001010060, .mmc ⟨false, ⟨false, 0⟩, ⟨false, 1⟩, 0, 0, false, false, false, false, 0, 1, 1, 0x60⟩),
      (rowWord 13 2 0 0 0 (7 * 64 + 14) 5 0 0 0 0, .accwr { row0 with dst := .mat (.ckc 2), sa := .v 5 }),
      (0x34500000008000008400, .xmerge { row0 with sa := .v 2, imm := 0x8400 })] : List (Nat × Instr)).all
      (fun e => decodeTableWord 80 e.1 == some e.2) = true := by decide

/-- Steps of each family, their fields written out from R107, R111 and their entries (R144, R152). -/
theorem test_step_words :
    ([(stepWord 0x02 1 0x123 0, .call 0x123), (stepWord 0x0E 0 0 (1 * 2 ^ 34 + 2 * 2 ^ 30 + 2 ^ 29 + 0x1FFFFFFF), .kadd 1 2 (.imm (-1)) .fall),
      (stepWord 0x03 0 0 0, .ret), (stepWord 0x0C 41 7 (15 * 2 ^ 34 + 2 ^ 33 + 0xFFFF), .kset 15 true 0xFFFF (.goto (.idle 7) 7)),
      (stepWord 0x1C 0 0 (1 * 2 ^ 34 + 2 * 2 ^ 30 + 3 * 2 ^ 26 + 0x800000), .amad 1 2 3 0x800000 .fall),
      (stepWord 0x1D 57 0xFFF (2 ^ 37 + 3 * 2 ^ 33 + 4 * 2 ^ 29 + 2 ^ 27 + 0xFFFF8), .ald ⟨true, 3⟩ 4 .wz 0xFFFF8 (.goto (.line 15) 0xFFF))] :
      List (Nat × Instr)).all (fun e => decodeTableWord 64 e.1 == some e.2) = true := by decide

/-! ### Statements about rows: what meets their hypotheses -/

/-- A row of no type of each group of results that compute. -/
def computing : List (Row → Instr) :=
  [.flagrd, .iter, .eid, .lid, .sid, .tcrd, .imov, .ilui, .iadd, .isub, .imul, .imulhi, .imad, .iaddsat, .isubsat, .iabs, .ineg,
    .imin, .imax, .iand, .ior, .ixor, .inot, .ishl, .ishr, .isra, .irot, .iclz, .ipop, .icmpEq, .icmpNe, .icmpLt, .icmpLe,
    .icmpGt, .icmpGe, .fadd, .fsub, .fmul, .ffma, .ffms, .fnfma, .fnfms, .fmin, .fmax, .fabs, .fneg, .fcopysign, .fscale,
    .fround, .fclass, .fcmpEq, .fcmpNe, .fcmpLt, .fcmpLe, .fcmpGt, .fcmpGe, .fcmpUn, .fcmpOrd, .frcp, .frsq, .fsqrt, .fdiv,
    .fexp2, .flog2, .ftanh, .packF32, .packN8, .unpackF32, .unpackN8, .quant, .fexp8, .pselTag, .pselPred, .pand, .por, .pxor,
    .pnot, .pset, .pmovPred, .pmovVecToPred, .pmovPredToVec, .pany, .pall, .lrot, .lbcast, .lshuf, .lredAdd, .lredMax,
    .lredMin, .lscanAdd, .lzip, .lunzip, .accrd, .xcvt, .mchk, .mbnd]

/-- Every row that computes goes on a ring after reset: the hypotheses of PlaceRowsAndNoOps, IntegerArithmeticIsExactThenNarrowed,
BitRowsActOnPatterns, FloatRowsRoundTheExactResultOnce, FloatSignRowsAndClasses, Comparisons, SystemRows, Conversions,
PredicateAndLaneRows, ReductionsFollowTheTree and MatrixRegisterRows. The bit field is the widest at the highest place, the
conversions are from `i16` and from `f16`. -/
theorem witness_computing_rows :
    computing.all (goes State.reset 0) = true ∧
    ([.ibfx, .ibfi] : List (Row → Instr)).all (goes State.reset 0x011F) = true ∧ goes State.reset 4 .itof = true ∧
    goes State.reset 0 .ftoi = true ∧ goes State.reset 2 .cvt = true ∧
    ([.rowNop, .sig, .rowTrap, .rowBrk, .tagchk, .xcfg] : List (Row → Instr)).all (goes State.reset 0) = true := by decide

/-- PlaceRowsAndNoOps: rows and a tile step under GRD = 0b1000. -/
theorem witness_no_op :
    (let i : Instr := .iter { row0 with guard := ⟨true, 0⟩, dst := .v 63 };
      i.check = none ∧ (i.row?.any fun r => isNoOp r.guard) = true) ∧
    (let i : Instr := .mmcCh ⟨true, ⟨false, 0⟩, ⟨true, 0⟩, 0, 2, false, false, false, false, 4095, 255, 0, 0⟩;
      i.check = none ∧ (i.tile?.any fun x => x.2.2.nop) = true) := by decide

/-- SystemRows: `fmtld` with its guard true in lane 31 only. -/
theorem witness_fmtld :
    let s := State.reset.onMe fun e => { e with p := [(1, 0x80000000)] }
    let r : Row := { row0 with guard := ⟨false, 1⟩, sa := .v 0, imm := 7 }
    rowGoes (.fmtld r) r s = true ∧ bit (guardMask (afterUp r s).me r.guard) 31 = true ∧
      ∀ l, l < 31 → bit (guardMask (afterUp r s).me r.guard) l = false := by decide

/-- A row that reads `up` from a word queue with an entry goes, as does one that writes `dn`. -/
theorem witness_up_dn :
    let rc : Rec := { rec0 with switches := [packBits 64 [(6, 4, 15), (10, 1, 1), (11, 4, 3), (15, 1, 1)]] }
    let s := (onStripe0 rc ⟨0, 0, 0, 1, false⟩).onRing 0 fun r =>
      { r with qcfg := [(3, ⟨false, 0, 1, 1⟩), (15, ⟨false, 1, 4, 1⟩)], qst := [(16 * 15 + 15, one)] }
    let r : Row := { row0 with dst := .port .dn, sa := .port .up }
    rowGoes (.imov r) r s = true := by decide

/-- ScratchpadAccesses: `sld` of a clean and of a poisoned chunk, `sst`, and a store that lands in the last word of a block. -/
theorem witness_scratchpad :
    let r : Row := { row0 with imm := 0xBFFF }
    let s := State.reset.onRing 0 fun x => { x with spoison := [16383 * 8 + 7] }
    rowGoes (.sld r) r s = true ∧ rowGoes (.sst r) r s = true ∧ memWord r s Vec.zero = 16383 ∧ memBlock r s = 0 ∧
      (State.reset.ring 0).spadPoisoned 0 (128 * 16383) 128 false = false ∧
      (s.ring 0).spadPoisoned 0 (128 * 16383) 128 false = true ∧
      (let p : Pend := { Pend.empty 0 with dst := .store true 16383 true };
        p.dst = .store true 16383 true ∧ 16383 < 16384 ∧ 15 < 16) := by decide

/-- A tile of 32 rows and 4 columns of `f32`, 512 bytes, as its ensign. -/
def tile32x4 : BitVec 256 := packBits 256 [(16, 8, 31), (24, 8, 3), (32, 24, 1), (80, 16, 0xABCD)]

/-- Ring 0 with that tile in queue 0 of the block upstream of stripe 0, and a word queue 15. -/
def withTile : State := onRing0 fun r =>
  { r with
    qcfg := [(0, ⟨true, 0, 2, 5⟩), (15, ⟨false, 16, 16, 1⟩)], qst := [(16 * 15, one)],
    spad := Memory.writeN [] (15 * 2097152) (bytesOf tile32x4),
    stripes := [(0, { Stripe.reset with record := some { rec0 with hdr := packBits 512 [(48, 16, 18)] } })] }

/-- QueueRows: a word queue with an entry, a tile queue whose tile passes its checks, at its last word, a queue that was never
configured, one whose entry is not yet visible, `qpush`, and `gadr` with room, without, and on a closed stream. -/
theorem witness_queue_rows :
    let r : Row := { row0 with dst := .x 15, sa := .queue ⟨false, 0⟩ }
    let s := onRing0 fun x => { x with qcfg := [(0, ⟨false, 16383, 1, 1⟩)], qst := [(16 * 15, one)] }
    let late := onRing0 fun x => { x with qst := [(16 * 15, { one with info := [(0, { meta0 with vis := 1 })] })] }
    let x := withTile.ring 0
    (Instr.qpop r).check = none ∧ (Instr.qpeek r).check = none ∧ isNoOp r.guard = false ∧ dnGoes r s = true ∧
    ((s.ring 0).queue 0 = some ⟨false, 16383, 1, 1⟩ ∧ ((s.ring 0).qstate 15 0).entry 0 = some meta0 ∧
      meta0.vis ≤ (s.ring 0).ctx.rcyc ∧ (s.ring 0).spadPoisoned 15 (128 * 16383) 128 false = false) ∧
    (x.queue 0 = some ⟨true, 0, 2, 5⟩ ∧ (x.qstate 15 0).entry (x.qstate 15 0).resv = some meta0 ∧
      (let t := x.tileAt 15 ⟨true, 0, 2, 5⟩ 0 meta0;
        x.firstPoisoned t = false ∧ x.tileCheck t 5 = none ∧
          x.tilePoisoned t (t.payloadAt + 128 * 3) (min 128 (pad32 t.payloadLen - 128 * 3)) = false) ∧
      (Instr.qpop { r with imm := 3 }).check = none) ∧
    ((State.reset.ring 0).queue 0 = none ∧
      ((late.ring 0).qstate 15 0).entry ((late.ring 0).qstate 15 0).resv = some { meta0 with vis := 1 } ∧ (late.ring 0).ctx.rcyc < 1) ∧
    goes State.reset 3 .qpush = true ∧ goes State.reset 31 .gadr = true := by decide

/-- The same ring with the bytes `bs` at the tile. -/
def withTileBytes (bs : List Byte) : State := withTile.onRing 0 fun r => { r with spad := Memory.writeN [] (15 * 2097152) bs }

/-- QueueRows and TransposesAndTileStepsStart: a tile that fails its checks, at `qpop`, `qpeek` and `qtx`; word 1 of a word queue; a word
queue as the source of a `qtx`; a source not visible yet; `qpush` to a tile queue; `gadr` to a gather stream with room and without. -/
theorem witness_queue_faults :
    let r : Row := { row0 with dst := .x 15, sa := .queue ⟨false, 0⟩ }
    let q : Row := { row0 with dst := .queue ⟨true, 15⟩, sa := .queue ⟨false, 0⟩ }
    let x := (withTileBytes []).ring 0
    ((Instr.qpop r).check = none ∧ (Instr.qpeek r).check = none ∧ dnGoes r (withTileBytes []) = true ∧
      x.queue 0 = some ⟨true, 0, 2, 5⟩ ∧ (x.qstate 15 0).entry (x.qstate 15 0).resv = some meta0 ∧
      x.firstPoisoned (x.tileAt 15 ⟨true, 0, 2, 5⟩ 0 meta0) = false ∧
      x.tileCheck (x.tileAt 15 ⟨true, 0, 2, 5⟩ 0 meta0) 5 ≠ none ∧ rowGoes (.qtx q) q (withTileBytes []) = true) ∧
    ((Instr.qpop { r with imm := 1 }).check = none ∧ (1 : BitVec 16).toNat % 2048 ≠ 0) ∧
    (let w : Row := { q with sa := .queue ⟨false, 15⟩ }
     rowGoes (.qtx w) w withTile = true ∧ (withTile.ring 0).queue 15 = some ⟨false, 16, 16, 1⟩) ∧
    (let late := withTile.onRing 0 fun r => { r with qst := [(16 * 15, { one with info := [(0, { meta0 with vis := 1 })] })] }
     rowGoes (.qtx q) q late = true ∧ ((late.ring 0).qstate 15 0).entry 0 = some { meta0 with vis := 1 } ∧ (late.ring 0).ctx.rcyc < 1) ∧
    (let p : Row := { row0 with dst := .queue ⟨true, 0⟩, sa := .v 0 }
     rowGoes (.qpush p) p withTile = true ∧ isTileQueue withTile 0 = true ∧ guardMask withTile.me p.guard ≠ 0) ∧
    (let d : BitVec 512 := packBits 512 [(94, 2, 1)]
     let at_ (n : Nat) : State := onCtx0 fun c =>
       c.setStream 31 { Stream.reset with isOpen := true, desc := d, gather := List.replicate n (Vec.zero, 0, 0) }
     goes (at_ 0) 31 .gadr = true ∧ ((at_ 0).ctx 0 |>.stream 31).isOpen = true ∧ sdMode ((at_ 0).ctx 0 |>.stream 31).desc = 1 ∧
      ((at_ 64).ctx 0 |>.stream 31).gather.length = 64) := by decide +kernel

/-- A transpose of that tile, started in cycle 0. -/
def qtx0 : QtxOp :=
  { start := 0, vs := 0, slot := 0, ent := 0, srcDown := false, src := 0, pos := 0, dstDown := true, dst := 15, dpos := none,
    olay := false, rows := 32, cols := 4, esize := 4, ensign := 0, scale := [], words := [], pushed := 0 }

/-- TransposesAndTileStepsStart: the tile transposes into a word queue; a second `qtx` in the last cycle in which it faults; the
tile steps on a free sequencer, on a gated one, and in the last cycle of a repetition. -/
theorem witness_tiles :
    let s := withTile
    let x := s.ring 0
    let t := x.tileAt 15 ⟨true, 0, 2, 5⟩ 0 meta0
    let r : Row := { row0 with dst := .queue ⟨true, 15⟩, sa := .queue ⟨false, 0⟩ }
    let busy : TileOp :=
      { start := 0, kind := 0, reps := 1, acb := 0, zero := false, ck := false, bank := 0, a := ⟨false, 0, 0, 1, 0, 0, 1, 0, true, false⟩,
        b := ⟨true, 1, 0, 1, 0, 0, 1, 0, true, false⟩, ent := 0, vs := 0, slot := 0, afmt := 0, bfmt := 0,
        scaled := (false, false), sus := false, abuf := [], bbuf := [], issued := 0, undo := ⟨none, []⟩ }
    let tile : TileRow := ⟨false, ⟨false, 15⟩, ⟨true, 0⟩, 0, 0, false, false, false, false, 0, 1, 1, 0⟩
    rowGoes (.qtx r) r s = true ∧ guardMask s.me r.guard ≠ 0 ∧ s.me.qtx = none ∧ x.queue 0 = some ⟨true, 0, 2, 5⟩ ∧
      x.queue 15 = some ⟨false, 16, 16, 1⟩ ∧ (x.qstate 15 0).entry (x.qstate 15 0).resv = some meta0 ∧ x.tileCheck t 5 = none ∧
      qtxSize (enFmt t.ensign) = some 4 ∧ enLayout t.ensign ≠ 1 ∧ enNrows t.ensign * 4 = 128 ∧ enNcols t.ensign * 4 % 16 = 0 ∧
      s.now - 0 - 0 + 16 / 4 + 4 + (enNcols t.ensign - 1) + 7 ≤ (x.stripe 0).record.elim 0 recTail ∧
      x.firstPoisoned t = false ∧ qtxPoisoned x t 4 4 0 = false ∧
    (let u := (withTile.onCtx 0 fun c => { c with tc := 11 }).onMe fun e => { e with qtx := some qtx0 };
      u.me.qtx = some qtx0 ∧ u.now < 0 + 16 / 4 + 4 + 4) ∧
    ([.mmaBf16 tile, .mmaF16 tile, .mmaF8 tile, .mmc tile, .mmcCh tile] : List Instr).all (fun i => i.check == none) = true ∧
      State.reset.me.tile = none ∧ (State.reset.onMe fun e => { e with gated := true }).me.gated = true ∧
    (let u := (onCtx0 fun c => { c with tc := 3 }).onMe fun e => { e with tile := some busy };
      u.me.tile = some busy ∧ u.now < busy.start + 4 * busy.reps) := by decide +kernel

/-- TransposesAndTileStepsStart: an awake tile step of each kind whose first tile of A, 16 rows by one group of K, is visible and
meets its checks, and one whose tile is not visible. -/
theorem witness_awake_tiles :
    ([(0, 2, 15), (1, 3, 15), (2, 0xC68380, 31), (3, 0xA20080, 63), (4, 0xA20080, 63)] : List (Nat × BitVec 24 × Nat)).all (fun e =>
      let en : BitVec 256 := packBits 256 [(0, 16, 9), (16, 8, 15), (24, 8, e.2.2), (32, 24, e.2.1.toNat), (80, 16, 0xABCD)]
      let s := withTile.onRing 0 fun r => { r with spad := Memory.writeN [] (15 * 2097152) (bytesOf en) }
      let x := s.ring 0
      let t := x.tileAt 15 ⟨true, 0, 2, 5⟩ 0 meta0
      finishTile s == s && !s.me.gated && x.queue 0 == some ⟨true, 0, 2, 5⟩ && (x.qstate 15 0).entry (x.qstate 15 0).resv == some meta0 &&
        meta0.poison == 0 && t.ensign == en && enPennant t.ensign == 9 && x.tileCheck t 5 == none && tileFits e.1 true false t.ensign &&
        (decide (e.1 < 3) || countingDesc (enFmt t.ensign)) && s.me.lands.isEmpty && !x.firstPoisoned t &&
        !groupPoisoned x t true false (if e.1 ≤ 1 then 16 else if e.1 = 2 then 32 else 64) 0) = true ∧
    (((finishTile State.reset).ring 0).queue 0 = none ∧ (finishTile State.reset).me.gated = false ∧ State.reset.me.tile = none) := by decide +kernel

/-- TransposesAndTileStepsStart: first tiles of A with another pennant, with no valid descriptor, of a format that does not count, and
that fail their checks; a bank still to be drained; a word queue as A. -/
theorem witness_bad_tiles :
    let en (pen f : Nat) : BitVec 256 := packBits 256 [(0, 16, pen), (16, 8, 15), (24, 8, 63), (32, 24, f), (80, 16, 0xABCD)]
    let at_ (e : BitVec 256) : Ensign := ((withTileBytes (bytesOf e)).ring 0).tileAt 15 ⟨true, 0, 2, 5⟩ 0 meta0 |>.ensign
    let valid (e : Ensign) : Bool := fmtIsWide (enFmt e) || descValid (enFmt e)
    let clean (e : BitVec 256) : Bool := let x := (withTileBytes (bytesOf e)).ring 0; !x.firstPoisoned (x.tileAt 15 ⟨true, 0, 2, 5⟩ 0 meta0)
    clean (en 8 0xA20080) = true ∧ clean (en 9 0xFFFFFF) = true ∧ clean (en 9 2) = true ∧
    (enPennant (at_ (en 8 0xA20080)) ≠ 9 ∧ enPennant (at_ (en 9 0)) = 9) ∧
    (valid (at_ (en 9 0xFFFFFF)) = false ∧ valid (at_ (en 9 2)) = true ∧ countingDesc (enFmt (at_ (en 9 2))) = false) ∧
    (let e := en 9 0xA20080 ||| packBits 256 [(255, 1, 1)]
     let x := (withTileBytes (bytesOf e)).ring 0
     clean e = true ∧ valid (at_ e) = true ∧ countingDesc (enFmt (at_ e)) = true ∧
      (x.tileCheck (x.tileAt 15 ⟨true, 0, 2, 5⟩ 0 meta0) 5 ≠ none ∨ tileFits 4 true false (at_ e) = false)) ∧
    (let u := withTile.onMe fun e => { e with lands := [(9, .drain 1)] }
     ∃ y ∈ u.me.lands ++ u.me.lateLands, y.2 = .drain 1) ∧
    (withTile.ring 0).queue 15 = some ⟨false, 16, 16, 1⟩ ∧ withTile.me.gated = false := by decide +kernel

/-- MatrixRegisterRows: `accz` and `accwr` on each kind of register, outside a window and in its last cycle; `accrd` of each. -/
theorem witness_matrix_rows :
    let s := (onCtx0 fun c => { c with tc := 5 }).onMe fun e => { e with wins := [⟨6, 0, 6, false⟩, ⟨3, 5, 6, false⟩] }
    goes s 0 .accz = true ∧ inWindow s s.me 6 ∧ ¬inWindow State.reset State.reset.me 6 ∧ goes s 7 .accwr = true ∧ inWindow s s.me 3 ∧
    ([.acc 3, .ckr 3, .ckc 3] : List MatReg).all (fun m =>
      rowGoes (.accwr { row0 with dst := .mat m }) { row0 with dst := .mat m } s &&
        rowGoes (.accrd { row0 with sa := .mat m }) { row0 with sa := .mat m } s) = true ∧
    ([.cb 1, .xa] : List MatReg).all (fun m => rowGoes (.accz { row0 with dst := .mat m }) { row0 with dst := .mat m } s) = true := by
  simp only [inWindow, inWindowAt]
  decide

/-- CounterMergesAndImages: a `cmerge` with a source in its own column, with none, with depths that sum to 127 and to 128, with
formats that differ, and inside a window; `xld`, `xmerge` and `xst`. -/
theorem witness_merges :
    let r := rowFor .cmerge 1
    let none_ : Row := { row0 with dst := .mat (.cb 1), imm := 5 }
    let at_ (e : Element → Element) : State := State.reset.onMe e
    goes State.reset 1 .cmerge = true ∧ guardMask State.reset.me r.guard ≠ 0 ∧ mergeSource State.reset r = some (0, 0) ∧
    rowGoes (.cmerge none_) none_ State.reset = true ∧ mergeSource State.reset none_ = none ∧
    (at_ fun e => { e with depth := [(0, 127)] }).me.depthOf 0 = 127 ∧
    (let e := (at_ fun e => { e with depth := [(0, 127), (1, 1)] }).me;
      127 < e.depthOf 0 + e.depthOf 1 ∧ e.pairs = []) ∧
    (let e := (at_ fun e => { e with depth := [(0, 1), (1, 1)], pairs := [(255, 1, 127)] }).me;
      e.depthOf 0 ≠ 0 ∧ e.depthOf 1 ≠ 0 ∧ e.pairOf 0 255 ≠ e.pairOf 1 255) ∧
    ([.xld, .xmerge, .xst] : List (Row → Instr)).all (goes State.reset 0x8400) = true ∧
    (at_ fun e => { e with wins := [⟨6, 2, 3, false⟩] }).me.wins = [⟨6, 2, 3, false⟩] := by decide

/-- RowResultsGoToTheirDestination: bindings of `dn` and of a write tap, on the highest queue and lane, and a guard that is false
everywhere. -/
theorem witness_destinations :
    let rc : Rec := { rec0 with switches := [packBits 64 [(11, 4, 15), (15, 1, 1), (16, 6, 0x3F)]] }
    let s := onStripe0 rc ⟨0, 0, 0, 1, false⟩
    boundQueue s true = some 15 ∧ guardMask s.me ⟨false, 0⟩ ≠ 0 ∧ guardMask s.me ⟨false, 7⟩ = 0 ∧
      swTap s.switchNow 0 = some (true, 15) := by decide

/-- ResultsLandWhenDue: an element with two results due in a cycle and one due later, with a tile's result beside them; one whose issuer
has been saved. -/
theorem witness_landing :
    let p (n due : Nat) : Pend := { Pend.empty due with dst := .v n }
    let x := ((onCtx0 fun c => { c with tc := 1 }).onMe fun e => { e with pend := [p 0 1, p 0 1, p 1 2], lands := [(1, .drain 0)] }).ring 0
    let e := x.elem 0 0
    (e.pend.all fun p => match p.dst with | .lane _ _ _ => false | .store _ _ _ => false | _ => true) = true ∧
    (∀ y ∈ e.lateLands, x.ctx.tc < y.1) ∧ x.ctx.savedAt = none ∧
    (let y := ((onCtx0 fun c => { c with tc := 1, savedAt := some 0 }).onMe fun e => { e with pend := [p 0 1] }).ring 0
     (y.elem 0 0).pend = [p 0 1] ∧ (y.elem 0 0).lands = [] ∧ (p 0 1).dst ≠ .e ∧ y.ctx.savedAt = some 0 ∧ (p 0 1).issued ≤ 0) := by decide

/-- ComputingRowsChangeNothingElse: such a row answers a next state. -/
theorem witness_computing_row_runs :
    goes State.reset 0 .iadd = true ∧ ∃ t, exec (.iadd (rowFor .iadd 0)) State.reset = .next t := ⟨by decide, _, rfl⟩

/-! ### Statements about steps -/

/-- Ring 0 with a step in slot 0 of a state table of two slots. -/
def inStep (i : Instr) (f : Ctx → Ctx) : State :=
  let w := leNat (encode i)
  onCtx0 fun c => f { c with
    hdr := packBits 2048 [(80, 16, 2), (64, 16, 1)]
    stable := [(0, BitVec.ofNat 64 w), (1, BitVec.ofNat 64 (w / 2 ^ 64))] }

/-- A wait with nothing sent. -/
def wait0 : Wait := ⟨0, 0, 0, 0, none⟩

/-- Ring 0 waits in a step whose read has been performed with these bytes. -/
def hasRead (i : Instr) (kind : ReqKind) (bs : List Byte) : State :=
  { inStep i fun c => { c with wait := some { wait0 with stage := 1 } } with
    reqs := [{ req0 with kind := kind, done := some .sys, parts := [⟨.virt 0, bs, some (.phys 0), 0, 0⟩] }] }

/-- Waiting in the step at SI. -/
def waits0 (s : State) (i : Instr) (w : Wait) : Bool :=
  (s.ctx 0).wait == some w && (match (s.ctx 0).stepAt (s.ctx 0).si with | .ok j => j == i | .error _ => false)

/-- StepsTakeTheirTransition and ControlSteps: a context with and without a fault; lines clear and set, the last ones; a full and
an empty return stack, and one with an entry; a counter at 4,095 and at 4,096; a debug register on and off. -/
theorem witness_control :
    (let s := onCtx0 id; (s.ctx 0).fault = none ∧ (s.ctx 0).unwinding = none ∧ (s.ctx 0).line 15 = false ∧ (s.ctx 0).rstack = [] ∧
      (s.ring 0).brken = false) ∧
    (let s := onCtx0 fun c => { c with fault := some (faultAt State.reset 0 9 0 0 0) }; (s.ctx 0).fault.isSome = true) ∧
    (let s := onCtx0 fun c => { c with sl := 0x8000 }; (s.ctx 0).line 15 = true) ∧
    (let s := onCtx0 fun c => { c with rstack := [1, 2, 3, 4] }; 4 ≤ (s.ctx 0).rstack.length ∧ (s.ctx 0).rstack = [1, 2, 3] ++ [4]) ∧
    (let s := onCtx0 fun c => { c with rstack := [1, 2, 3], k := [(0, 4095), (15, 4096)] };
      (s.ctx 0).rstack.length < 4 ∧ ((s.ctx 0).kreg 0).toNat < 4096 ∧ 4096 ≤ ((s.ctx 0).kreg 15).toNat) ∧
    ((onRing0 fun r => { r with brken := true }).ring 0).brken = true ∧
    ([.stepNop (.goto (.line 15) 4095), .go 4095, .goIndirect 15, .call 4095, .ret, .stepTrap 0xFFFF, .stepBrk 0xFFFF .fall,
      .endStep 0xFFFF] : List Instr).all (fun i => i.check == none) = true := by decide +kernel

/-- AddressAndReadingSteps and CounterSteps: every step of the two families is well formed at an edge of its operands, and one
of each completes on ring 0 without a fault. -/
theorem witness_counters :
    ([.aset 15 true 0xFFFFFFFF .fall, .amov 15 ⟨true, 15⟩ .fall, .aadd 15 15 (.imm 0x10000000) .fall, .amad 15 15 15 0x800000 .fall,
      .spos 15 31 .fall, .tick 15 .remaining .fall, .capq 15 17 .fall, .perf 15 15 true .fall, .flagsq 15 true .fall,
      .flagsq 0 false .fall, .kadd 0 0 (.imm 0x10000000) .fall, .ksub 0 0 (.reg 15) .fall, .kmul 0 0 (.reg 0) .fall,
      .kand 0 0 (.reg 0) .fall, .kor 0 0 (.reg 0) .fall, .kxor 0 0 (.reg 0) .fall, .kshl 0 0 (.imm 48) .fall,
      .kshr 0 0 (.imm 47) .fall, .kmin 0 0 (.imm 0) .fall, .kmax 0 0 (.imm 0) .fall, .kdec 0 .fall, .kset 0 true 0xFFFF .fall,
      .kset 0 false 0xFFFFFFFF .fall, .kmov 0 (.tok 7) .fall, .kmov 0 .wdp .fall] : List Instr).all (fun i => i.check == none) = true ∧
    (let s := inStep (.kdec 0 .fall) fun c => { c with hdr := packBits 2048 [(80, 16, 2)] };
      (s.ctx 0).ended = false ∧ (s.ctx 0).killed = false ∧ (s.ctx 0).fault = none) ∧
    (∃ u, exec (.kdec 0 .fall) (inStep (.kdec 0 .fall) id) = .next u ∧ (u.ctx 0).fault = none) ∧
    (∃ u, exec (.aset 0 true 1 .fall) (inStep (.kdec 0 .fall) id) = .next u ∧ (u.ctx 0).fault = none) :=
  ⟨by decide +kernel, by decide +kernel, ⟨_, rfl, by decide +kernel⟩, ⟨_, rfl, by decide +kernel⟩⟩

/-- WaitingSteps: tokens idle and busy at the edge of the mask, lines met and not met, a ring that waits in `yield`, in `sys` with
an answer and with a service that Eosen does not define, and in `waitt`. -/
theorem witness_waiting :
    ([.waitt 0x80 .fall, .waits 0xE03F true .fall, .yield .fall, .sys 0xFFFF .fall] : List Instr).all (fun i => i.check == none) = true ∧
    (∀ n, n < 8 → bit (0x80 : BitVec 8) n = true → ((onCtx0 id).ctx 0).token n = 0) ∧
    (∃ n, n < 8 ∧ bit (0x80 : BitVec 8) n = true ∧ ((onCtx0 fun c => { c with tok := [(7, 1)] }).ctx 0).token n ≠ 0) ∧
    (∃ n, n < 16 ∧ bit (0x8001 : BitVec 16) n = true ∧ ((onCtx0 id).ctx 0).line n = true) ∧
    (¬∀ n, n < 16 → bit (0x8001 : BitVec 16) n = true → ((onCtx0 id).ctx 0).line n = true) ∧
    waits0 (inStep (.yield .fall) fun c => { c with wait := some wait0, answer := some 0 }) (.yield .fall) wait0 = true ∧
    waits0 (inStep (.sys 4 .fall) fun c => { c with wait := some wait0, answer := some 0 }) (.sys 4 .fall) wait0 = true ∧
    waits0 (inStep (.sys 5 .fall) fun c => { c with wait := some wait0 }) (.sys 5 .fall) wait0 = true ∧
    waits0 (inStep (.waitt 0x80 .fall) fun c => { c with wait := some wait0 }) (.waitt 0x80 .fall) wait0 = true ∧
    waits0 (inStep (.waits 1 true .fall) fun c => { c with wait := some wait0, sl := 1 }) (.waits 1 true .fall) wait0 = true := by decide +kernel

/-- SequencerMemorySteps: an aligned and a misaligned address at the top of the space, a sequencer that is not stopped, and the
data of an `ald` and of an `atom` arrived. -/
theorem witness_sequencer_memory :
    let ald : Instr := .ald ⟨true, 15⟩ 15 .d 0xFFFF8 .fall
    let atom : Instr := .atom .cas true ⟨true, 15⟩ 15 ⟨false, 0⟩ ⟨false, 1⟩ 0x2000 .fall
    let w : Wait := { wait0 with stage := 1 }
    ald.check = none ∧ atom.check = none ∧ (Instr.ast ⟨false, 15⟩ 15 true 0x80000 .fall).check = none ∧
    ((((onCtx0 id).ctx 0).areg 15) + (0xFFFF8 : BitVec 20).signExtend 64).toNat % 8 = 0 ∧
    ((((onCtx0 id).ctx 0).areg 15) + (0xFFFFF : BitVec 20).signExtend 64).toNat % 4 ≠ 0 ∧ seqStopped (onCtx0 id) 0 = false ∧
    (let s := hasRead ald .read [1, 2, 3, 4, 5, 6, 7, 8]; waits0 s ald w = true ∧ (s.req 0).isSome = true ∧
      (s.req 0).any (fun q => q.done.isSome && !q.poison) = true) ∧
    (let s := hasRead atom .atomic [1, 2, 3, 4, 5, 6, 7, 8]; waits0 s atom w = true ∧
      (s.req 0).any (fun q => q.done.isSome && !q.poison && q.parts.length == 1 &&
        q.performedAt (destScope 0 0 (.phys 0))) = true) := by decide +kernel

/-- A run that has armed in cycle 0. -/
def run0 : Run :=
  { id := 0, si := 0, first := 0, nv := 1, w := 1, b := 1, ksel := 0, res := false, total := 1, limit := 1, arm := some 0, parkAt := none,
    done := false, parked := false }

/-- KernelSteps: a fetch of 64 records, a run that is not over, runs that are, with counts of instances at and beyond each end
of the range, a `park` with and without an armed run, with a hoist begun and not made, and one that waits; a slot written; a queue at and
beyond the end of a block, and one bound to an open stream. -/
theorem witness_kernel :
    ([.vpl 0 63 .fall, .run 1023 1023 15 (some 15) 15 none .fall, .park false .fall, .park true .fall, .fmtset 7 0xC68380 .fall,
      .qset 15 15 0x3FFF 1 none .fall] : List Instr).all (fun i => i.check == none) = true ∧
    ((onCtx0 fun c => { c with runs := [run0] }).ctx 0).runs.getLast? = some run0 ∧
    (let c := (onCtx0 fun c => { c with runs := [{ run0 with done := true }], k := [(1, 1), (2, 65536), (3, 65537)] }).ctx 0
     (∀ r ∈ c.runs, r.arm.isSome = true ∧ r.done = true ∧ r.id < c.runs.length) ∧ (c.kreg 0).toInt < 1 ∧ 1 ≤ (c.kreg 1).toInt ∧
      (c.kreg 2).toInt ≤ 65536 ∧ 65536 < (c.kreg 3).toInt) ∧
    ((onCtx0 id).ctx 0).armedRun = none ∧ ((onCtx0 fun c => { c with runs := [run0] }).ctx 0).armedRun = some run0 ∧ run0.parkAt = none ∧
    (let c := (onCtx0 fun c => { c with k := [(1, 16383), (2, 16384), (3, 0xFFFFFFFFFFFF)] }).ctx 0
     0 ≤ (c.kreg 1).toInt ∧ (c.kreg 1).toInt ≤ 16383 ∧ (c.kreg 1).toInt.toNat + (0 + 1) * 1 ≤ 16384 ∧ 16383 < (c.kreg 2).toInt ∧
      (c.kreg 3).toInt < 0 ∧ 16384 < (c.kreg 1).toInt.toNat + (1 + 1) * 1 ∧ ∀ e ∈ c.streams, e.2.isOpen = true → e.2.q ≠ 15) ∧
    (let c := (onCtx0 fun c => c.setStream 31 { Stream.reset with isOpen := true, q := 15 }).ctx 0
     (∃ e ∈ c.streams, e.2.isOpen = true ∧ e.2.q = 15) ∧ (c.kreg 15).toInt = 0) ∧
    (let s := inStep (.park true .fall) fun c => { c with wait := some wait0, sl := 8 }
     waits0 s (.park true .fall) wait0 = true ∧ bit (s.ctx 0).sl 3 = true) ∧
    (let s := onCtx0 fun c =>
       { c with
         runs := [run0], hoistNext := 1, tc := 5,
         hlog := [{ h := 1, vs := 0, ps := 0, hb := 5, ready := 6, start := 6, strike := 7, free := 8, freed := false }] }
     bit (s.ctx 0).sl 3 = false ∧ (((knowTimes s 0).ctx 0).hlog.any fun x => x.h == 1 && decide (x.hb ≤ 5)) = true) := by
  decide +kernel

/-- An affine stream of one word at address 0. -/
def desc0 : BitVec 512 := packBits 512 [(320, 32, 1), (352, 32, 1), (384, 32, 1), (416, 32, 1)]

/-- An open input stream of one word. -/
def stream0 : Stream := { Stream.reset with isOpen := true, desc := desc0, run := some 0 }

/-- StreamSteps: a descriptor's address aligned and one byte off; a descriptor that has arrived, good and bad; a stream closed and
open; a line. -/
theorem witness_streams :
    let i : Instr := .sopen 31 1023 true 15 15 none .fall
    let w : Wait := { wait0 with stage := 1 }
    ([i, .sclose 31 true false none .fall, .sclose 31 false true none .fall, .sbar 0x80000000 .sys none .fall] : List Instr).all
      (fun i => i.check == none) = true ∧
    (((onCtx0 fun c => { c with a := [(15, 63)] }).ctx 0).areg 15).toNat % 64 ≠ 0 ∧ (((onCtx0 id).ctx 0).areg 15).toNat % 64 = 0 ∧
    seqStopped (onCtx0 id) 0 = false ∧
    (let s := hasRead i .read (bytesOf desc0)
     waits0 s i w = true ∧ (s.req 0).any (fun q => q.done.isSome && !q.poison) = true ∧ descBad desc0 true = false ∧ descBad 0 true = true ∧
      sdMode desc0 = 0 ∧ sdAtom desc0 = 0 ∧ (let d := desc0 ||| packBits 512 [(94, 2, 1)]
        descBad d false = false ∧ sdMode d ≠ 0 ∧ bit (hdrOpmask (s.ctx 0).hdr) 16 = false) ∧
      openBad ((s.dropReq 0).onRing 0 fun r => { r with qcfg := [(15, ⟨false, 0, 1, 1⟩)] }) 0 31 1023 true 15 desc0 = false ∧
      openBad (s.dropReq 0) 0 31 1023 true 15 desc0 = true) ∧
    (((onCtx0 id).ctx 0).stream 31).isOpen = false ∧ (((onCtx0 fun c => c.setStream 31 stream0).ctx 0).stream 31).isOpen = true ∧
    (Instr.sclose 31 true true none .fall).check = none ∧
    waits0 (inStep (.sclose 31 true true none .fall) fun c => { c with wait := some { wait0 with stage := 1 } })
      (.sclose 31 true true none .fall) { wait0 with stage := 1 } = true := by
  decide +kernel

/-- A transfer record of one byte, owned, with token 7. -/
def record0 : BitVec 512 := packBits 512 [(120, 24, 1), (104, 16, 1), (88, 16, 1), (72, 16, 1), (43, 3, 7), (0, 1, 1)]

/-- A reduction of one element by group 0. -/
def coll0 : BitVec 512 := packBits 512 [(352, 32, 1), (384, 64, 64), (309, 3, 7)]

/-- Group 0 of one rank, ring 0, in memory. -/
def withGroup (s : State) : State := { s with mem := Memory.writeN [] 0 (leBytes 8 (2 ^ 63 + 2 ^ 41)) }

/-- CopyAndCollectiveSteps: an address on and off a line; records that have arrived, good and bad, with 127 places taken; a
collective's group, rank and shape; a channel that walks, one that was never armed and one that parked. -/
theorem witness_copies :
    let w : Wait := { wait0 with stage := 1 }
    let busy (s : State) : State := s.onCtx 0 fun c => { c with tok := [(0, 127)] }
    ([.copy 15 none .fall, .coll 15 none .fall, .copyc 15 15 none .fall, .copycResume 15 none .fall] : List Instr).all
      (fun i => i.check == none) = true ∧
    (let s := busy (hasRead (.copy 15 none .fall) .read (bytesOf record0))
     waits0 s (.copy 15 none .fall) w = true ∧ recordInvalid record0 = false ∧ recordInvalid 0 = true ∧ inFlight (s.ctx 0) < 128 ∧
      setBits record0 448 64 0 = record0) ∧
    (let s := withGroup (hasRead (.coll 15 none .fall) .read (bytesOf coll0))
     waits0 s (.coll 15 none .fall) w = true ∧ bits coll0 344 8 = 0 ∧ groupValid s (cdGroup coll0) = true ∧ rankOf s 0 0 = some 0 ∧
      collBad coll0 (groupRanks (groupHeader s 0)) 0 = false ∧ bits (groupHeader s 0) 53 10 = (s.ctx 0).asid.toNat) ∧
    (let c := (onCtx0 fun c => c.setChan 15 { Chan.reset with mode := .fetching, armed := true }).ctx 0; chanWalking c 15 = true) ∧
    (let c := (onCtx0 fun c => c.setChan 15 { Chan.reset with mode := .parked, armed := true }).ctx 0
     chanWalking c 15 = false ∧ (c.chan 15).armed = true) ∧
    (let stop : Stop := { cause := 1, pte := 0, level := 4, va := 0, kind := 0, repair := false, since := 0 }
     let s : State := { onCtx0 id with reqs := [{ req0 with party := .chan 15, stop := some stop }] }
     partyStopped s 0 0 (.chan 15) = true ∧ partyStopped (onCtx0 id) 0 0 (.chan 15) = false) ∧
    chanWalking ((onCtx0 id).ctx 0) 15 = false ∧ (((onCtx0 id).ctx 0).chan 15).armed = false := by decide +kernel

/-- Ring 0 with context id 7 bound, the last barrier object of the ring set to `o`, and its name in `k0`. -/
def withBarrier (o : BitVec 128) (f : Ctx → Ctx) : State :=
  (onCtx0 fun c => f { c with bind := packBits 512 [(152, 16, 7)], k := [(0, 4095)] }).setBarrier 0 4095 o

/-- An object of owner 7 with PEND and COUNT 1. -/
def bar0 : BitVec 128 := packBits 128 [(112, 16, 7), (16, 12, 1), (4, 12, 1)]

/-- BarrierSteps: names at and beyond the last, local and not; an object free, owned by another, idle and not; the four results of
`bwait`, with GEN one and nine phases on; byte counts at and beyond the last; an arrival acknowledged with and without a cause. -/
theorem witness_barriers :
    let s := withBarrier bar0 id
    let o (v : BitVec 128) : BitVec 128 := v ||| bar0
    ([.binit 0 15 .sys .fall, .barr 0 .fall, .bexp 0 15 true .fall, .bwait 0 15 .fall] : List Instr).all (fun i => i.check == none) = true ∧
    (let n := ((s.ctx 0).kreg 0).toNat
     n < 2 ^ 24 ∧ n / 2 ^ 12 % 32 < 24 ∧ n / 2 ^ 17 % 128 = s.hub.node.toNat ∧ n / 2 ^ 12 % 32 = 0 ∧ n % 4096 = 4095) ∧
    ¬(2 ^ 24 < 2 ^ 24) ∧ ¬(24 * 2 ^ 12 / 2 ^ 12 % 32 < 24) ∧ 2 ^ 12 / 2 ^ 12 % 32 ≠ 0 ∧
    barOwner ((withBarrier 0 id).barrier 0 4095) = 0 ∧ barOwner (s.barrier 0 4095) = (s.ctx 0).id ∧ (s.ctx 0).id ≠ 0 ∧
    (barPend bar0 = barCount bar0 ∧ barInb bar0 = 0 ∧ barOutb bar0 = 0) ∧ ¬(barInb (o (packBits 128 [(28, 36, 1)])) = 0) ∧
    (let w := lineWait s 0; earlierPending s 0 w .ring .rel = false) ∧
    (let u := { s with reqs := [{ req0 with kind := .write, ctx := 7, parts := [⟨.phys 0, [0], some (.phys 0), 0, 0⟩], id := 0 }], reqNext := 1 }
     earlierPending u 0 (lineWait u 0) .ring .rel = true) ∧
    (let u := inStep (.barr 0 .fall) fun c => { c with wait := some { wait0 with stage := 1 }, answer := some 0 }
     waits0 u (.barr 0 .fall) { wait0 with stage := 1 } = true ∧ barrierName ((u.ctx 0).kreg 0) = some 0 ∧ (u.ctx 0).answer = some 0) ∧
    barrierRefusal s 0 (some 0) (s.ctx 0).asid (s.barrier 0 4095) = 0 ∧ barrierRefusal s 0 (some 0) 1 (s.barrier 0 4095) ≠ 0 ∧
    (2 ^ 36 - 1 < 2 ^ 36 ∧ barInb bar0 + (2 ^ 36 - 1) < 2 ^ 36 ∧ 2 ^ 36 ≤ 1 + (2 ^ 36 - 1)) ∧
    barFlt (o (packBits 128 [(104, 1, 1)])) = true ∧ barFlt bar0 = false ∧ barLpois (o (packBits 128 [(107, 1, 1)])) = true ∧
    (let c := (onCtx0 fun c => { c with regions := [{ id := 255, hnd := 0, depth := 0, mask := 0, marks := [], nev := 255, hit := true }] }).ctx 0
     c.regions.length = 1 ∧ (barGen (o (packBits 128 [(107, 1, 1), (0, 4, 1)])) + 16 - 0 % 16) % 16 = 1) ∧
    (barGen (o 1) + 16 - 0 % 16) % 16 = 1 ∧ (barGen (o 8) + 16 - 0 % 16) % 16 = 8 ∧ 8 < (barGen (o 9) + 16 - 0 % 16) % 16 := by
  decide +kernel

/-- A handoff queue of 64 entries under ASID 0 that holds these. -/
def withHandoff (es : List HEntry) (f : Ctx → Ctx) : State :=
  (onCtx0 fun c => f { c with bind := packBits 512 [(152, 16, 7)], k := [(0, 1023)] }).setHandoff 1023
    ⟨packBits 64 [(63, 1, 1), (47, 6, 63)], es, []⟩

/-- HandoffSteps: a number at and beyond the last, a live queue, a dead one and another's; full, empty, with an entry of a live
producer whose writes have and have not been performed, and of one that was killed. -/
theorem witness_handoff :
    let e : HEntry := ⟨5, 1, 7, 0, none⟩
    let s := { withHandoff [e] fun c => { c with wdp := 1 } with sub := 1 }
    let x := s.handoff 1023
    ([.hpost 0 ⟨true, 15⟩ .fall, .htake ⟨false, 15⟩ 0 .fall, .trig .fall] : List Instr).all (fun i => i.check == none) = true ∧
    ((s.ctx 0).kreg 0).toNat = 1023 ∧ bit x.cfg 63 = true ∧ hqAsid x = (s.ctx 0).asid ∧
    bit (State.reset.handoff 1023).cfg 63 = false ∧ hqAsid ⟨packBits 64 [(53, 10, 1)], [], []⟩ ≠ (s.ctx 0).asid ∧
    bits x.cfg 47 6 + 1 ≤ ((withHandoff (List.replicate 64 e) id).handoff 1023).entries.length ∧
    x.entries.length < bits x.cfg 47 6 + 1 ∧ ((withHandoff [] id).handoff 1023).entries = [] ∧
    x.entries = e :: [] ∧ e.claimed = none ∧ x.takers = [] ∧ e.posted < s.tick.toNat * 19 + s.sub ∧
    (producerOf s 7).2 = false ∧ e.stamp ≤ (producerOf s 7).1 ∧
    (producerOf (withHandoff [e] fun c => { c with killed := true }) 7).2 = true ∧ (producerOf (withHandoff [e] id) 7).1 < e.stamp ∧
    (s.ctx 0).trigRec = none ∧ ((onCtx0 fun c => { c with trigRec := some 0 }).ctx 0).trigRec = some 0 := by decide +kernel

/-- FencesAndRegions: a fence with nothing before it and with a write before it, waiting and done; a mask with an open stream and
one with a closed stream; the innermost region and another. -/
theorem witness_fences :
    let w := lineWait (onCtx0 id) 0
    let r : Region := { id := 255, hnd := 0, depth := 0, mask := 0, marks := [], nev := 0, hit := true }
    ([.fence .rel .sys .fall, .fence .full .ring .fall, .cnopen 255 4095 15 .fall, .cnclose 255 .fall] : List Instr).all
      (fun i => i.check == none) = true ∧
    earlierPending (onCtx0 fun c => { c with dividers := [⟨0, 0, .sys, .rel, none⟩] }) 0 w .sys .rel = false ∧
    (let s := { onCtx0 id with reqs := [{ req0 with kind := .write, parts := [⟨.phys 0, [0], some (.phys 0), 0, 0⟩] }], reqNext := 1 }
     earlierPending s 0 (lineWait s 0) .sys .rel = true) ∧
    (let s := inStep (.fence .rel .sys .fall) fun c => { c with wait := some w }
     waits0 s (.fence .rel .sys .fall) w = true ∧ earlierPending s 0 w .sys .rel = false) ∧
    (let c := (onCtx0 fun c => { c.setStream 31 stream0 with k := [(15, 0x80000000)] }).ctx 0
     (c.kreg 15).toNat = 2 ^ 31 ∧ (c.stream 31).isOpen = true ∧ (c.stream 30).isOpen = false ∧ c.regions.length < 4) ∧
    (let c := (onCtx0 fun c => { c with regions := [r] }).ctx 0; c.regions = [] ++ [r] ∧ r.id = (255 : BitVec 8).toNat) ∧
    earlierPending (onCtx0 id) 0 w .ring .acq = false := by decide +kernel

/-! ### Statements about events -/

/-- The state with page 0 of address space 0 mapped to address 0, readable, writable and executable, on die 0. -/
def mapped (s : State) : State := s.onDie 0 fun d => { d with tlb := [⟨0, 0, 1, packBits 64 [(62, 2, 3), (0, 3, 7)], 4, 0⟩] }

/-- A virtual stripe record of a header alone, II 1, with its CRC. -/
def rec1 : Rec := recOfBytes (bytesOf (let h : BitVec 512 := packBits 512 [(192, 16, 1), (10, 6, 1)]
  h ||| packBits 512 [(480, 32, crc32c (bytesOf h))]))

/-- The log of hoist 0 of that run. -/
def log0 : HoistLog := { h := 0, vs := 0, ps := 0, hb := 0, ready := 1, start := 1, strike := 1, free := 1, freed := false }

/-- Ring 0 with a run of one hoist under way, in cycle 100. -/
def running (f : Ctx → Ctx) : State := mapped (onCtx0 fun c => f { c with
  hdr := packBits 2048 [(64, 16, 1), (80, 16, 2)]
  runs := [run0]
  hlog := [log0]
  tc := 100 })

/-- PostedCommandsBegin: two commands of one cycle, with a later one; a command relative to a hoist, in time and late. -/
theorem witness_posted :
    let p (t : Nat) : Posted := ⟨.at t, 0, 0, .sclose 0 false, none⟩
    let c := (onCtx0 fun c => { c with startq := [p 6, p 5, p 5, p 101], tc := 100 }).ctx 0
    (∃ q ∈ c.startq, mayBegin c q = true) ∧ mayBegin c (p 101) = false ∧
    (let q : Posted := ⟨.hoist 0 0 99, 0, 0, .sclose 0 false, some (0, 0)⟩
     let c := (running fun c => { c with startq := [p 6, q] }).ctx 0
     c.startq[1]? = some q ∧ (c.runs.any fun y => y.id == 0 && y.arm.isSome) = true ∧
      (c.hlog.find? fun y => y.h == 0) = some log0 ∧ c.tc ≤ log0.start + 99 ∧ log0.start + 98 < c.tc) := by decide

/-- PostedCommandsBegin: long forms that are well formed; a start to come, one already passed, and one relative to a hoist of an armed
run; a full queue; what each command asks of the context, and the data that `sopen`, `copy` and `coll` read. -/
theorem witness_long_forms :
    let l (n : BitVec 32) : LongForm := ⟨n, none⟩
    let w : Wait := { wait0 with stage := 1 }
    ([.sclose 31 true false (some (l 101)) .fall, .sbar 0x80000000 .sys (some (l 101)) .fall, .qset 15 15 0x3FFF 1 (some (l 101)) .fall,
      .copyc 15 15 (some (l 101)) .fall, .copycResume 15 (some (l 101)) .fall, .run 0 0 15 (some 15) 15 (some (l 101)) .fall] :
      List Instr).all (fun i => i.check == none) = true ∧
    (let c := (running fun c => { c with k := [(15, 1)] }).ctx 0
     c.tc < 101 ∧ 101 % 2 ^ 32 = (l 101).start.toNat ∧ c.tc ≤ 101 + 2 ^ 31 ∧ 101 < c.tc + 2 ^ 31 ∧ c.startq.length < 16 ∧ 99 < c.tc ∧
      99 % 2 ^ 32 = (l 99).start.toNat ∧ c.tc ≤ 99 + 2 ^ 31 ∧ c.lastRun = some run0 ∧ (c.kreg run0.ksel).toInt = (0 : Nat) ∧
      (run0.done = true → run0.arm.isSome = true) ∧ (c.runs.find? fun y => y.id == 0 && y.arm.isSome) = some run0 ∧
      (c.hlog.find? fun x => x.h == 0) = some log0 ∧ log0.start + 0 < c.tc ∧ c.tc ≤ log0.start + 99) ∧
    (Instr.sclose 31 true true (some (l 101)) .fall).check = none ∧ (((running id).ctx 0).stream 31).isOpen = false ∧
    (((running fun c => c.setStream 31 stream0).ctx 0).stream 31).isOpen = true ∧
    (let i : Instr := .sclose 31 false true (some (l 101)) .fall; waits0 (inStep i fun c => { c with wait := some w }) i w = true) ∧
    (((running fun c => { c with startq := List.replicate 16 ⟨.at 101, 0, 0, .sclose 0 false, none⟩ }).ctx 0).startq.length = 16) ∧
    (let c := (running fun c => { c with runs := [{ run0 with done := true }], k := [(15, 1)] }).ctx 0
     (∀ r ∈ c.runs, r.done = true) ∧ (c.kreg 15).toInt = (1 : Nat) ∧ (c.areg 15).toNat % 64 = 0 ∧ chanWalking c 15 = false ∧
      0 ≤ (c.kreg 15).toInt ∧ (c.kreg 15).toInt ≤ 16383 ∧ (c.kreg 15).toInt.toNat + (0x3FFE + 1) * 1 ≤ 16384) ∧
    (let i : Instr := .sopen 31 1023 true 15 15 (some (l 101)) .fall
     let s := hasRead i .read (bytesOf desc0)
     waits0 s i w = true ∧ (s.req 0).any (fun q => q.kind == .read && q.done.isSome && !q.poison) = true ∧ descBad desc0 true = false ∧
      w.post = none) ∧
    (let i : Instr := .copy 15 (some (l 101)) .fall
     let s := hasRead i .read (bytesOf record0)
     waits0 s i w = true ∧ recordInvalid (setBits record0 448 64 0) = false ∧ inFlight (s.ctx 0) < 128) ∧
    (let i : Instr := .coll 15 (some (l 101)) .fall
     let s := withGroup (hasRead i .read (bytesOf coll0))
     waits0 s i w = true ∧ groupValid (s.dropReq 0) (cdGroup coll0) = true ∧ rankOf (s.dropReq 0) (cdGroup coll0) 0 = some 0) := by
  decide +kernel

/-- RecordsHoistsAndInstances: the last entry cycle of an epilogue, a page out of reach, a record with a wrong and with a good CRC,
and a hoist that is due with its stripe beyond V, with an error kept, without its record and with it, first and again. -/
theorem witness_hoists :
    (let rc : Rec := { rec1 with slots := [packBits 128 [(84, 8, 255)]] }
     let s := (onStripe0 rc ⟨0, 0, 0, 1, false⟩).onCtx 0 fun c => { c with tc := 7 + 255 }
     ((s.ring 0).stripe 0).occ = some ⟨0, 0, 0, 1, false⟩ ∧ ((s.ring 0).stripe 0).record = some rc ∧
      (s.ctx 0).tc = 0 + 7 + 255 * max (recIi rc) 1 ∧ 255 < 1 + recMaxStage rc) ∧
    (let s := running fun c => { c with fetching := [0] }
     let m := { s with mem := Memory.writeN [] 0 (bytesOf rec1.hdr) }
     (s.ctx 0).fetching.contains 0 = true ∧ (s.ctx 0).fetchStop = none ∧ fetchHeap s 0 (recordVa (s.ctx 0) 0) 64 = none ∧
      imagePoisoned s 0 (recordVa (s.ctx 0) 0) 64 = false ∧
      imagePoisoned { s with poison := [0] } 0 (recordVa (s.ctx 0) 0) 64 = true ∧
      fetchHeap (s.onCtx 0 fun c => { c with bind := packBits 512 [(320, 40, 1)] }) 0 (recordVa (s.ctx 0) 0) 64 = some 0 ∧
      fetchBadPage (onCtx0 id) 0 0 64 = some 0 ∧ fetchBadPage s 0 (recordVa (s.ctx 0) 0) 64 = none ∧
      recordCheck (peekImage s 0 (recordVa (s.ctx 0) 0) 64) 0 1 = some 16 ∧
      64 * bits (recOfBytes (peekImage m 0 (recordVa (m.ctx 0) 0) 64)).hdr 192 16 = 64 ∧
      recordCheck (peekImage m 0 (recordVa (m.ctx 0) 0) 64) 0 1 = none) ∧
    (let s := running fun c => { c with cache := [(0, rec1)] }
     let c := (knowTimes s 0).ctx 0
     (hoistDue c).any (fun x => x.vs == 0 && x.h == 0) = true ∧ c.armedRun = some run0 ∧ 0 < hdrV c.hdr ∧
      (c.fetchBad.find? fun e => e.1 == 0) = none ∧ (c.cache.find? fun e => e.1 == 0) = some (0, rec1) ∧
      c.hoisted.contains 0 = false ∧ savePending (knowTimes s 0) 0 (slotBase s 0 0) (recSt rec1) = false ∧
      savePoisoned (knowTimes s 0) 0 (slotBase s 0 0) (recSt rec1) = false) ∧
    savePoisoned { onCtx0 id with poison := [4784128 / 64] } 0 0 64 = true ∧
    (let c := (knowTimes (running fun c => { c with hdr := packBits 2048 [(80, 16, 2)] }) 0).ctx 0
     hdrV c.hdr ≤ 0 ∧ (hoistDue c).isSome = true) ∧
    (let c := (knowTimes (running fun c => { c with fetchBad := [(0, 16)] }) 0).ctx 0
     (c.fetchBad.find? fun e => e.1 == 0) = some (0, 16) ∧ (hoistDue c).isSome = true) ∧
    (let c := (knowTimes (running id) 0).ctx 0; (c.cache.find? fun e => e.1 == 0) = none ∧ (hoistDue c).isSome = true) := by
  decide +kernel

/-- RecordsHoistsAndInstances: a hoist under way that restores its slot, clean, poisoned or still to be written, one that zeroes, and one
in its last cycle; a ring that can take a fault. -/
theorem witness_restores :
    let x (n : Nat) (first : Bool) : HoistRun := ⟨0, 0, 0, n, { rec1 with hdr := packBits 512 [(160, 24, 256), (10, 6, 1)] }, first, []⟩
    let s (x : HoistRun) : State := running fun c => { c with hoisting := some x }
    let u : State := { s (x 3 false) with poison := [4784128 / 64] }
    let p : State := { s (x 3 false) with reqs := [{ req0 with purpose := .overflowSave, parts := [⟨.phys 4784128, [1], none, 0, 0⟩] }] }
    ((s (x 3 false)).ctx 0).replay.isSome = false ∧ slotBase (s (x 3 false)) 0 0 = 0 ∧
    savePending (s (x 3 false)) 0 0 128 = false ∧ savePoisoned (s (x 3 false)) 0 0 128 = false ∧ savePoisoned u 0 0 128 = true ∧
    savePending p 0 0 128 = true ∧ (u.ctx 0).ended = false ∧ (u.ctx 0).killed = false ∧ (u.ctx 0).fault = none ∧ (u.ctx 0).faultPref = none ∧
    ((s (x 3 true)).ctx 0).hoisting = some (x 3 true) ∧ ((s (x 1 false)).ctx 0).hoisting = some (x 1 false) ∧
    mapOf (x 1 false).rc 0 = [] := by decide +kernel

/-- A state with the occupant of hoist 0 on stripe 0, struck or not, its record of `st` bytes of state. -/
def occupied (struck : Bool) (st : Nat) (f : Ctx → Ctx) : State :=
  (running f).onRing 0 fun r => r.setStripe 0
    { Stripe.reset with record := some { rec1 with hdr := packBits 512 [(160, 24, st), (10, 6, 1)] }, occ := some ⟨0, 0, 1, 1, struck⟩ }

/-- StrikesAndFrees: a strike that is due, of a record with and without state, and in a replay; a save under way; a free that is due,
the last of its wave and of its run. -/
theorem witness_strikes :
    (let s := occupied false 128 id
     (occLog s 0 0).any (fun x => !x.1.struck && decide (x.2.1.strike ≤ (s.ctx 0).tc) && recSt x.2.2 != 0) = true ∧
      (s.ctx 0).unwinding = none ∧ (s.ring 0).spad.wf = true) ∧
    (let s := occupied false 0 id; (occLog s 0 0).any (fun x => recSt x.2.2 == 0) = true) ∧
    (let s := occupied true 0 id
     freeDue s 0 0 = some log0 ∧ (s.ctx 0).armedRun = some run0 ∧ run0.res = false ∧ 0 < run0.nv ∧ bit s.hub.audctl 63 = false ∧
      run0.limit = run0.total ∧ (∀ h, h < run0.limit → h = log0.h) ∧
      ((s.onCtx 0 fun c => { c with replay := some 3 }).ctx 0).replay.isSome = true) ∧
    (let s := (occupied true 256 fun c => { c with bind := packBits 512 [(102, 8, 1)] }).onRing 0 fun r =>
       r.setStripe 0 { r.stripe 0 with saveLeft := [1], saveAt := 128 }
     ((s.ring 0).stripe 0).saveLeft ≠ [] ∧ (s.ctx 0).replay = none ∧ (s.ring 0).spad.wf = true ∧
      128 < bindCsa (s.ctx 0).bind * 65536) := by
  decide +kernel

/-- HoldsGatesAndContainment: a hold with no cause left, one in its last cycle, an element idle for MGATE cycles, poison outside
and inside a region, and an unwinding that is over. -/
theorem witness_holds :
    let x : Region := { id := 0, hnd := 1, depth := 0, mask := 0, marks := [(31, stream0)], nev := 255, hit := false }
    (let r := (onRing0 fun r => { r with holdCause := 4, holdCount := 0x100000 }).ring 0
     r.holdCause ≠ 0 ∧ r.holdAsk = 0 ∧ r.holdCause ≠ 5 ∧ r.holdlim.toNat ≤ r.holdCount ∧ r.bound = true ∧ r.ctx.fault = none) ∧
    (let s := (onCtx0 fun c => { c with hdr := packBits 2048 [(256, 16, 65535)] }).onElem 0 15 7 fun e => { e with idle := 65535 }
     hdrMgate (s.ctx 0).hdr ≠ 0 ∧ hdrMgate (s.ctx 0).hdr ≤ (s.elem 0 15 7).idle ∧ (s.elem 0 15 7).gated = false) ∧
    ((onCtx0 id).ring 0).ctx.regions = [] ∧ ((onCtx0 fun c => { c with regions := [x] }).ring 0).ctx.regions = [] ++ [x] ∧
    (let s := inStep (.stepNop .fall) fun c => { c with regions := [x], unwinding := some ⟨0, 4, 5, 0⟩ }
     let c := s.ctx 0
     c.unwinding = some ⟨0, 4, 5, 0⟩ ∧ c.regions = [] ++ x :: [] ∧ unwindOver s 0 ⟨0, 4, 5, 0⟩ = true ∧ c.fault = none ∧
      x.hnd < hdrStlen c.hdr ∧ isSecondWord c x.hnd = false ∧ x.marks = [(31, stream0)]) := by decide +kernel

/-- StreamVisitsAndBridgeSegments: a closing stream that is over; one that may read, with nothing to deliver and with its last word
read; an output stream with a bubble at its queue's head; a bridge segment of each kind, and bad ones. -/
theorem witness_stream_visits :
    (let s := onCtx0 fun c => c.setStream 31 { stream0 with closing := true, done := true }
     readsOut s 0 31 = [] ∧ ((s.ctx 0).stream 31).pendWords = [] ∧ ((s.ctx 0).stream 31).again = []) ∧
    (let s := onCtx0 fun c => c.setStream 31 { stream0 with out := true, closing := true, abort := true, inSeg := true, pendWords := [(Vec.zero, meta0)] }
     (s.ctx 0).ending = none ∧ sdSpace desc0 ≠ 2 ∧ readsOut s 0 31 = [] ∧ ((s.ctx 0).stream 31).again = []) ∧
    (let s := (running fun c => c.setStream 31 { stream0 with q := 15 }).onRing 0 fun r => { r with qcfg := [(15, ⟨false, 0, 1, 1⟩)] }
     mayRead s 0 31 = true ∧ (s.ctx 0).replay = none ∧ sdMode desc0 = 0 ∧ deliverable s 0 31 = none) ∧
    (let q : Req := { req0 with party := .stream 31, purpose := .streamWord 31 0, done := some .ring }
     let s := { (running fun c => c.setStream 31 { stream0 with visits := 1, q := 15 }).onRing 0 fun r =>
       { r with qcfg := [(15, ⟨false, 16383, 1, 1⟩)] } with reqs := [q] }
     mayRead s 0 31 = false ∧ (s.ctx 0).replay = none ∧ deliverable s 0 31 = some q ∧ (s.ring 0).queue 15 = some ⟨false, 16383, 1, 1⟩ ∧ sdSpace desc0 ≠ 2 ∧
      sdFrame desc0 = 0) ∧
    (let s := (running fun c => c.setStream 31 { stream0 with out := true, q := 15 }).onRing 0 fun r =>
       { r with qcfg := [(15, ⟨false, 0, 1, 1⟩)], qst := [(15, { one with info := [(0, { meta0 with ls := true })] })] }
     mayWrite s 0 31 = true ∧ outputEntry s 0 ((s.ctx 0).stream 31) = some (0, ⟨false, 0, 1, 1⟩, 0, { meta0 with ls := true })) ∧
    (let d : BitVec 512 := packBits 512 [(92, 2, 2), (96, 2, 1), (99, 1, 1), (112, 16, 9), (505, 7, 127), (500, 5, 23), (495, 5, 31)]
     let head : SegmentHead := ⟨0, 127, 23, 31, 0⟩
     let x := (onCtx0 fun c => c.setStream 31 { stream0 with desc := d }).ctx 0 |>.stream 31
     let h : BitVec 64 := packBits 64 [(0, 32, 1), (44, 4, 2), (48, 16, 9)]
     (bits x.desc 505 7 = head.node ∧ bits x.desc 500 5 = head.ring ∧ bits x.desc 495 5 = head.stream ∧
      ((onCtx0 id).ctx 0).asid = head.asid ∧ ((onCtx0 id).ctx 0).asid ≠ 1) ∧
     x.isOpen = true ∧ x.out = false ∧ sdSpace x.desc = 2 ∧ x.done = false ∧ bits h 44 4 < 4 ∧ bits h 32 12 = 0 ∧ bits h 0 32 = 1 ∧
      bits h 48 16 = sdTag x.desc ∧ sdRl x.desc = 0 ∧ bits (packBits 64 [(44, 4, 3), (48, 16, 9)] : BitVec 64) 0 32 = 0 ∧
      4 ≤ bits (packBits 64 [(44, 4, 4)] : BitVec 64) 44 4) := by decide +kernel

/-- CopiesAndChannels: a record read with OWN 0, invalid, and good; a channel that waits with 127 places taken, ordered, with a
null and another NEXT; a copy that is done. -/
theorem witness_channels :
    let fetched (r : BitVec 512) : State := { onCtx0 fun c => c.setChan 15 { Chan.reset with mode := .fetching, armed := true } with
      reqs := [{ req0 with party := .chan 15, purpose := .chanRecord 15, done := some .sys, parts := [⟨.virt 0, bytesOf r, none, 0, 0⟩] }] }
    ([record0, 0, 1].all fun (r : BitVec 512) => ((fetched r).reqs.find? fun q => q.ring == 0 && q.ctx == 0 &&
      q.purpose == .chanRecord 15 && q.done.isSome).any fun q => BitVec.ofNat 512 (leNat q.data) == r) = true ∧
    (let s := onCtx0 fun c => c.setChan 15 { Chan.reset with mode := .fetching, armed := true }
     partyStopped s 0 0 (.chan 15) = false ∧ (s.reqs.find? fun q => q.ring == 0 && q.ctx == 0 && q.purpose == .chanRecord 15) = none ∧
      (s.ctx 0).regions = []) ∧
    trOwn 0 = false ∧ trOwn 1 = true ∧ recordInvalid 1 = true ∧ trOwn record0 = true ∧ recordInvalid record0 = false ∧
    (let s := onCtx0 fun c => { c.setChan 15 { Chan.reset with mode := .waiting, record := record0 } with tok := [(0, 127)] }
     partyStopped s 0 0 (.chan 15) = false ∧ ((s.ctx 0).chan 15).nullNext = false ∧ ((s.ctx 0).chan 15).mode = .waiting ∧ inFlight (s.ctx 0) < 128 ∧ trNext record0 = 0 ∧ s.copies = []) ∧
    trNext (record0 ||| packBits 512 [(448, 64, 64)]) ≠ 0 ∧
    (let k : Copy := { id := 0, ring := 0, ctx := 0, asid := 0, chan := none, record := record0, recAddr := 0, next := 1,
                       readDone := 1, writeDone := 1, owning := false, stopped := none, post := 0 }
     let s := { onCtx0 id with copies := [k] }
     s.copy 0 = some k ∧ copyDone s k = true ∧ (s.ctx 0).id = k.ctx ∧ (s.ring 0).bound = true ∧ remapOf (s.ring 0) 0 = none) := by
  decide +kernel

/-- BarrierEvents: an arrival that ends the phase, one that does not, one beyond PEND and one refused; a byte count that ends the
phase, one that does not, and one below zero. -/
theorem witness_barrier_events :
    let wait1 (o : BitVec 128) : State := (inStep (.barr 0 .fall) fun c =>
      { c with bind := packBits 512 [(152, 16, 7)], wait := some { wait0 with stage := 1 } }).setBarrier 0 0 o
    let s := wait1 bar0
    waits0 s (.barr 0 .fall) { wait0 with stage := 1 } = true ∧ (s.ctx 0).answer = none ∧ (0, 0) ∉ s.barUsed ∧
    ((s.ctx 0).kreg 0).toNat / 2 ^ 17 % 128 = s.hub.node.toNat ∧ barrierRefusal s 0 (some 0) 0 bar0 = 0 ∧ barPend bar0 = 1 ∧
    barInb bar0 = 0 ∧ barOutb bar0 = 0 ∧ barFlt bar0 = false ∧ barrierRefusal s 0 (some 0) 0 0 ≠ 0 ∧
    barPend (packBits 128 [(112, 16, 7)] : BitVec 128) = 0 ∧ barrierRefusal s 0 (some 0) 0 (packBits 128 [(112, 16, 7)]) = 0 ∧
    1 < barPend (packBits 128 [(4, 12, 4095)] : BitVec 128) ∧
    (let far := s.onCtx 0 fun c => { c with k := [(0, 5 * 2 ^ 17)] }
     ((far.ctx 0).kreg 0).toNat / 2 ^ 17 % 128 = 5 ∧ far.hub.node.toNat ≠ 5 ∧ kamvaPort far 5 = none ∧
      kamvaPort (far.onHub fun h => { h with krt := [(5, 16)], kup := [(0, true)] }) 5 = some 0) ∧
    (let d : ByteDec := { id := 0, ring := 0, ctx := 7, asid := 0, party := .copyEngine, bar := 0, bk := 1, bytes := 5, poison := true }
     ([d].find? fun d => d.id == 0 && d.bytes == 5 && d.poison == true) = some d ∧
      d.bytes ≤ barInb (packBits 128 [(112, 16, 7), (28, 36, 5)] : BitVec 128) ∧
      barInb (packBits 128 [(28, 36, 4)] : BitVec 128) < d.bytes ∧ barPend (packBits 128 [(28, 36, 5)] : BitVec 128) = 0) := by
  decide +kernel

/-- CollectivesMatchAndComplete: a group of one rank whose member has posted, with ROOT 0 and with a ROOT beyond the ranks; one
that has begun, with its places in reach. -/
theorem witness_collectives :
    let x (d : BitVec 512) (b : Bool) : Coll := { si := 0, group := 0, seqNo := 0, ring := 0, ctx := 0, rank := 0, desc := d, tok := 7, begun := b, post := 0, copies := 0, stop := none }
    let s (d : BitVec 512) (b : Bool) : State := { withGroup (mapped (onCtx0 id)) with colls := [x d b] }
    let d1 : BitVec 512 := coll0 ||| packBits 512 [(320, 4, 1), (324, 12, 1)]
    collNext (s coll0 false) 0 = some (x coll0 false) ∧ collPosted (s coll0 false) 0 0 = true ∧
    collWaits (s coll0 false) 1 false (x coll0 false) = false ∧ collWaits (s coll0 true) 1 true (x coll0 true) = false ∧
    collPoisoned (s coll0 true) (x coll0 true) = false ∧
    (let u : State := { (withGroup (mapped (onCtx0 fun c => { c with unwinding := some ⟨0, 4, 5, 0⟩ }))) with colls := [x coll0 true] }
     collPoisoned u (x coll0 true) = true ∧ partyStopped u 0 0 .copyEngine = false ∧ collWaits u 1 true (x coll0 true) = false) ∧
    partyStopped (s coll0 true) 0 0 .copyEngine = false ∧
    cdRoot coll0 < groupRanks (groupHeader (s coll0 false) 0) ∧ groupRanks (groupHeader (s d1 false) 0) ≤ cdRoot d1 ∧
    (let s := s coll0 true
     (s.colls.find? fun c => c.group == 0 && c.begun) = some (x coll0 true) ∧
      (match collSources s 0 0 (groupRanks (groupHeader s 0)) with
        | .ok srcs => match collPlaces s (x coll0 true) (cdDst coll0) (collResult coll0 srcs 0).1.length .write with
          | .ok _ => true
          | .error _ => false
        | .error _ => false) = true) := by decide +kernel

/-- AccessesArePerformed: an `ald` and an `ast` that may be performed at the widest scope, fresh; one of an older generation whose
context lives, was killed and is gone; a line that is not poisoned. -/
theorem witness_accesses :
    let part : Part := ⟨.phys 0, [1, 2, 3, 4, 5, 6, 7, 8], some (.phys (96 * 2 ^ 30 - 8)), 0, 0⟩
    let rd : Req := { req0 with parts := [part] }
    let wr : Req := { req0 with kind := .write, parts := [part], wdi := 1, lines := 1, purpose := .ast }
    let s (q : Req) (f : Ctx → Ctx) : State := { onCtx0 f with reqs := [q] }
    (mayPerform (s rd id) rd .sys = true ∧ rd.performedAt .sys = false ∧ genFresh (s rd id) rd = true ∧ rd.done = none ∧
      (s rd id).req 0 = some rd ∧ isHbm (96 * 2 ^ 30 - 8) = true ∧ 8 ≠ 0 ∧ (96 * 2 ^ 30 - 8) / 64 ∉ (s rd id).poison) ∧
    (mayPerform (s wr id) wr .sys = true ∧ genFresh (s wr id) wr = true ∧ ((s wr id).ctx 0).id = wr.ctx ∧ ((s wr id).ring 0).bound = true ∧
      remapOf ((s wr id).ring 0) wr.ctx = none ∧ scopeRank .pkg ≤ scopeRank .sys) ∧
    (let q := { rd with parts := [{ part with place := .virt 0, gen := 1 }] }
     mayPerform (s q id) q .ring = true ∧ genFresh (s q id) q = false ∧ ((s q id).ctxById 0 0).any (fun c => !c.killed) = true ∧
      ((s q fun c => { c with killed := true }).ctxById 0 0).any (fun c => c.killed) = true ∧
      ({ State.reset with reqs := [q] } : State).ctxById 0 0 = none) ∧
    (let q := { rd with parts := [⟨.remote 0 1 0 false, [1], some (.spad 1 0 false), 0, 0⟩] }
     mayPerform (s q id) q .ring = true ∧ q.done = none ∧ genFresh (s q id) q = true ∧ spadRefused (s q id) q = true ∧
      (let k := s q fun c => { c with killed := true }
       mayPerform k q .ring = true ∧ spadRefused k q = true ∧ (k.ctxById 0 0).any (fun c => c.killed) = true) ∧
      (let u : State := { State.reset with reqs := [q] }
       mayPerform u q .ring = true ∧ spadRefused u q = true ∧ genFresh u q = true ∧ u.ctxById 0 0 = none)) := by decide +kernel

/-- FlushesShootDownsAndBumps: a flush asked for; a shoot-down and a bump taken and ignored; a bump whose last older access is gone; one of
the first and the last region, with every die's table in HBM, that waits before another. -/
theorem witness_flushes :
    let v : BitVec 64 := packBits 64 [(63, 1, 1), (0, 12, 4095)]
    ((State.reset.onDie 3 fun d => { d with fbflush := true }).die 3).fbflush = true ∧
    bit v 63 = true ∧ bit State.reset.hub.tlbinv 63 = false ∧ bit (v &&& 4095) 63 = false ∧
    bit (State.reset.onHub fun h => { h with tlbinv := v }).hub.tlbinv 63 = true ∧
    bit State.reset.hub.genbump 63 = false ∧ (∀ d, d < 4 → (State.reset.die d).astbase = 0) ∧
    (let s := State.reset.onHub fun h => { h with genbump := v }
     bit s.hub.genbump 63 = true ∧ s.hub.bumps = [] ∧ ∀ q ∈ s.reqs, olderGen s s.hub.genbump q = false) ∧
    (let v : BitVec 64 := packBits 64 [(63, 1, 1), (16, 10, 1023), (0, 16, 0x8001)]
     bit v 63 = true ∧ bit v 0 = true ∧ bit v 15 = true ∧ bit v 14 = false ∧ v.extractLsb' 16 10 = 1023 ∧ State.reset.mem.wf = true ∧
      (∀ d, d < 4 → isHbm (bits (State.reset.die d).astbase 15 37 * 32768) = true) ∧
      (let s := State.reset.onHub fun h => { h with genbump := v, bumps := [⟨v, none, [(0, 7)]⟩, ⟨v, none, []⟩] }
       bit s.hub.genbump 63 = true ∧ s.hub.bumps = ⟨v, none, [(0, 7)]⟩ :: [⟨v, none, []⟩] ∧ s.reqs = [])) := by decide +kernel

/-- ContextEvents: a watchdog and a quantum in their last ticks, with work that waits and without, and with no free entry; a context
that may end; a drained one; a halted step break and row break. -/
theorem witness_contexts :
    let b : BitVec 512 := packBits 512 [(200, 48, 2 ^ 48 - 1), (168, 32, 2 ^ 32 - 1), (152, 16, 7)]
    let s := onCtx0 fun c => { c with bind := b, wdcount := 2 ^ 48 - 1, qcount := 2 ^ 32 - 1 }
    let r := s.ring 0
    (r.bound = true ∧ bindWdog r.ctx.bind ≠ 0 ∧ bindWdog r.ctx.bind ≤ r.ctx.wdcount ∧ bindQuant r.ctx.bind ≠ 0 ∧
      bindQuant r.ctx.bind ≤ r.ctx.qcount ∧ r.slotState = .running ∧ r.saving = .idle ∧ r.ctx.fault = none ∧
      workWaits s 0 (ctxPri s r.ctx) = false ∧ freeEntry r = some 0) ∧
    freeEntry ((onRing0 fun r => { r with remap := (List.range 63).map fun i => (i, packBits 192 [(56, 2, 2)]) }).ring 0) = none ∧
    (let c := (onCtx0 fun c => { c with ending := some 0xFFFF }).ctx 0
     c.ending = some 0xFFFF ∧ c.startq = [] ∧ bit c.sl 0 = true ∧ (∀ n, n < 8 → c.token n = 0) ∧ (∀ e ∈ c.streams, e.2.isOpen = false) ∧
      c.wdp = c.wdi) ∧
    (let s := onRing0 fun r => { r with slotState := .draining }; (s.ring 0).slotState = .draining ∧ quiescent s 0 = true) ∧
    (State.reset.hub.tasks = [] ∧ State.reset.colls = [] ∧ groupValid State.reset 255 = false) ∧
    (let f := some (faultAt State.reset 0 9 0 0 0)
     let s := (inStep (.stepBrk 1 .fall) fun c => { c with fault := f, brkResume := some ⟨0, none, []⟩ }).onRing 0 fun r =>
       { r with slotState := .halted }
     (s.ring 0).slotState = .halted ∧ (s.ctx 0).fault.isSome = true ∧
      (match (s.ctx 0).stepAt (s.ctx 0).si with | .ok i => i == .stepBrk 1 .fall | .error _ => false) = true ∧
      (BrkResume.mk 0 (some 7) [0, 1]).col = some 7) := by decide +kernel

/-- SavesRestoresAndDrains: a running slot with a free entry and without, an armed run; a save and a restore in their last cycle; a
saved and a bound context that have faulted. -/
theorem witness_saves :
    (let r := (onCtx0 fun c => { c with runs := [run0] }).ring 0
     r.slotState = .running ∧ r.saving = .idle ∧ r.ctx.fault = none ∧ freeEntry r = some 0 ∧ r.ctx.armedRun = some run0 ∧
      run0.parkAt = none) ∧
    (State.reset.ring 0).slotState ≠ .running ∧
    (let r := (onRing0 fun r => { r with saving := .save 62 0 }).ring 0; r.saving = .save 62 0 ∧ r.ctx.fault = none) ∧
    (let s : State := { onRing0 fun r => { r with saving := .restore 62 0 } with saved := [⟨0, Ctx.reset, [], [], [], [], 0⟩] }
     (s.ring 0).saving = .restore 62 0 ∧ (s.saved.find? fun x => x.ring == 0 && x.ctx.id == bindCtx (s.ring 0).slot).isSome = true ∧
      s.reqs = []) ∧
    (let f := faultAt State.reset 0 3 0 0 0
     let s : State := { onCtx0 fun c => { c with fault := some f } with
       saved := [⟨0, { Ctx.reset with fault := some f }, [], [], [], [], 0⟩] }
     (s.saved.find? fun x => x.ring == 0 && x.ctx.fault.isSome).any (fun x => x.ctx.fault == some f) = true ∧
      (s.ring 0).bound = true ∧ (s.ctx 0).fault.isSome = true ∧ (s.ring 0).slotState ≠ .halted ∧ (s.ring 0).saving = .idle ∧
      remapState (tget (s.ring 0).remap 63 0) = 0 ∧
      ((onCtx0 id).saved.find? fun x => x.ring == 0 && x.ctx.fault.isSome) = none) ∧
    (((onCtx0 fun c => { c with replay := some 3 }).ctx 0).replay.isSome = true ∧ ((onCtx0 id).ctx 0).replay = none) ∧
    ([Saving.drain, .waitSave 62].all fun x => ((onRing0 fun r => { r with saving := x }).ring 0).saving == x) = true ∧
    (State.reset.colls = []) := by decide +kernel

/-- A task of one member. -/
def task0 : Task :=
  { entry := 0, queue := 0, order := 0, state := .wait, members := [0], ranges := [], deps := [], windows := [], memberCtx := [],
    memberEnded := [], triggered := [], pri := 0, result := none, fctx := 0, frec := 0, status := 0, noRecord := false, readyNo := 0 }

/-- The tasks of the table. -/
def withTasks (ts : List (Nat × Task)) (s : State) : State := s.onHub fun h => { h with tasks := ts }

/-- EosenAnswersContexts: an issuer stopped for FAULTHOLD ticks, with and without a free entry; a record in the fault buffer; each
service that is asked for, at the edges of what it takes. -/
theorem witness_eosen :
    (let q : Req := { req0 with stop := some { cause := 0, pte := 0, level := 0, va := 0, kind := 0, repair := false, since := 0 } }
     let s : State := { onCtx0 id with reqs := [q], tick := 10000 }
     q ∈ s.reqs ∧ q.ring = 0 ∧ q.ctx = (s.ctx 0).id ∧ issuerCode q.party = 49 ∧ (s.die 0).faulthold.toNat ≤ s.tick.toNat - 0 ∧
      freeEntry (s.ring 0) = some 0 ∧ (s.ring 0).slotState = .running) ∧
    (let r : FbRec := { index := 0, asid := 0, page := 0, kind := 0, ring := 0, ctx := 0, cause := 0, va := 0, issuer := 49, gen := 0, tc := 0 }
     (((onCtx0 id).onDie 3 fun d => { d with fbrecs := [r] }).die 3).fbrecs.find? (fun r => r.ctx == 0) = some r ∧
      ({ State.reset with saved := [⟨0, Ctx.reset, [], [], [], [], 0⟩] } : State).saved.find? (fun x => x.ring == 0 && x.ctx.id == 0) =
        some ⟨0, Ctx.reset, [], [], [], [], 0⟩ ∧ (State.reset.ring 0).bound = false) ∧
    (let s := inStep (.yield .fall) fun c => { c with wait := some wait0 }
     askedStep s 0 = some (.yield .fall) ∧ workWaits s 0 (ctxPri s (s.ctx 0)) = false ∧
      (let t := withTasks [(0, { task0 with state := .ready, members := [packBits 512 [(242, 6, 0)]] })] s
       workWaits t 0 (ctxPri t (t.ctx 0)) = true)) ∧
    ([0, 1, 2, 3, 4].all fun (n : BitVec 16) =>
      askedStep (inStep (.sys n .fall) fun c => { c with wait := some wait0 }) 0 == some (.sys n .fall)) = true ∧
    (let c := (inStep (.sys 2 .fall) fun c => { c with k := [(1, 1)] }).ctx 0
     (ctxPri State.reset c : Int) < (c.kreg 1).toInt ∧ (c.kreg 2).toInt ≤ ctxPri State.reset c ∧ hdrStlen c.hdr ≤ 2 ∧
      bits (c.kreg 1) 0 12 < hdrStlen c.hdr ∧ isSecondWord c (bits (c.kreg 1) 0 12) = false) ∧
    ((0xFFFFFFFFFFFF : BitVec 48).toInt = -1) ∧ bindQuant (0 : BitVec 512) = 0 ∧ bindQuant (packBits 512 [(168, 32, 1)]) ≠ 0 := by
  decide +kernel

/-- QueuesAndTasks: a tail at and beyond the last place of a queue; an entry of each kind that waits; a fence with nothing before it;
a kill whose task is gone, has faulted and has not; dependences that are over; a record that can be written. -/
theorem witness_queues :
    let cfg : BitVec 64 := packBits 64 [(0, 1, 1), (20, 4, 4), (24, 40, 1)]
    let s := State.reset.onHub fun h => { h with sqcfg := [(63, cfg)], cqcfg := [(63, cfg)], sqtail := [(63, 1)] }
    (queueOwner s 63 = 0 ∧ (15 : BitVec 16).toNat < queueSize (s.sqcfg 63) ∧ queueSize (s.sqcfg 63) ≤ (16 : BitVec 16).toNat ∧
      (15 : BitVec 16).toNat < queueSize (s.cqcfg 63) ∧ s.hub.bumps = []) ∧
    (freeIndex s = some 0 ∧ queueSize (s.sqcfg 63) ≠ 0 ∧ tget s.hub.sqhead 63 0 ≠ tget s.hub.sqtail 63 0 ∧ s.aon.lc ≠ .blank ∧
      entryFieldsBad (packBits 512 [(217, 2, 1)]) = false ∧ seKind (packBits 512 [(217, 2, 1)]) ≠ 0 ∧
      s.readPoisoned (queueBase (s.sqcfg 63)) 64 = false ∧
      ({ s with poison := [queueBase (s.sqcfg 63) / 64] } : State).readPoisoned (queueBase (s.sqcfg 63)) 64 = true) ∧
    (let f := { task0 with entry := packBits 512 [(217, 2, 1)], order := 1 }
     let s := withTasks [(0, { task0 with state := .done }), (1023, f)] s
     s.task 1023 = some f ∧ f.state = .wait ∧ seKind f.entry = 1 ∧ taskComplete s 0 = true) ∧
    (let k := { task0 with entry := packBits 512 [(217, 2, 2)] }
     let s (t : Task) : State := withTasks [(0, t), (1, k)] State.reset
     let named (x : Nat × Task) : Bool :=
       x.2.queue == 0 && seTag x.2.entry == 0 && seKind x.2.entry == 0 && x.2.state != .done
     (s { task0 with state := .done }).hub.tasks.find? named = none ∧ (s task0).hub.tasks.find? named = some (0, task0) ∧
      taskFaulted (s task0) 0 task0 = false ∧
      (let f := (s task0).onRing 0 fun r =>
         { r with slot := 1, slotState := .running, bound := true, ctx := { r.ctx with fault := some (faultAt State.reset 0 8 0 0 0) } }
       taskFaulted f 0 task0 = true) ∧
      task0.count = 1 ∧ memberSlot (s task0) 0 0 = none ∧
      (let e := (s task0).onRing 0 fun r => { r with slot := 1, slotState := .running, bound := true, ctx := { r.ctx with ending := some 0 } }
       taskFaulted e 0 task0 = false ∧ memberSlot e 0 0 = some 0)) ∧
    (let k := { task0 with entry := packBits 512 [(216, 1, 1)], order := 1, deps := [⟨0, true, false, none⟩] }
     let u := { task0 with memberCtx := [(0, 7)], memberEnded := [0] }
     let s := withTasks [(0, u), (1, k)] s
     s.task 1 = some k ∧ (∃ d ∈ k.deps, d.task = 0) ∧ seEarly k.entry = true ∧ (s.hub.tasks.find? fun e => e.2.order == 0) = some (0, u) ∧
      u.memberCtx.length = u.count ∧ allTriggered s u = true ∧
      taskComplete (withTasks [(0, { u with state := .done }), (1, k)] s) 0 = true) ∧
    (let t := { task0 with queue := 63, state := .done }
     let s := withTasks [(0, t)] s
     (s.hub.tasks.find? fun e => e.2.queue == 63 && mayComplete s e.2) = some (0, t) ∧ t.noRecord = false ∧ t.windows = [] ∧
      isHbm (queueBase (s.cqcfg 63) + 32 * tget s.hub.cqtail 63 0) = true) := by decide +kernel

/-- With no group valid and no collective begun, a context that leaves changes neither. -/
theorem collMemberEnds_of_none (s : State) (g : Nat) (x : Ctx) (hv : ∀ n ∈ List.range 256, groupValid s n = false) (hc : s.colls = []) :
    collMemberEnds s g x = s := by
  have fold (l : List Nat) (f : State → Nat → State) (h : ∀ n ∈ l, f s n = s) : l.foldl f s = s := by
    induction l with
    | nil => rfl
    | cons a l ih => rw [List.foldl_cons, h a (by simp), ih fun n hn => h n (by simp [hn])]
  rw [collMemberEnds, fold _ _ fun n hn => by rw [hv n hn]; rfl]
  obtain ⟨⟩ := s
  cases hc
  rfl

/-- QueuesAndTasks: a kill in the cycle in which the one member's end is complete. -/
theorem witness_kill :
    let e := (withTasks [(0, task0), (1, { task0 with entry := packBits 512 [(217, 2, 2)] })] State.reset).onRing 0 fun r =>
      { r with slot := 1, slotState := .running, bound := true, ctx := { r.ctx with ending := some 0 } }
    taskFaulted e 0 task0 = false ∧ memberSlot e 0 0 = some 0 ∧
      ∃ u, endsNow e 0 = some u ∧ (u.task 0).map Task.state = some .done := by
  intro e
  refine ⟨by decide +kernel, by decide +kernel, retireContext e 0 0 0, ?_, ?_⟩
  · have h : (e.ring 0).ctx.ending = some 0 := by decide +kernel
    simp only [endsNow, h]
    exact if_pos (by decide +kernel)
  rw [retireContext, collMemberEnds_of_none _ _ _ (by decide +kernel) (by decide +kernel)]
  decide +kernel

/-- An image of no virtual stripes and one step, with its CRC. -/
def image0 : List Byte :=
  bytesOf (packBits 2048 [(0, 32, 0x564B494D), (32, 16, 1), (80, 16, 1), (288, 32, 264), (320, 32, 256), (448, 32, 320),
    (2016, 32, 1206357732)]) ++ leBytes 64 0

/-- One byte of CRC-32C. -/
def crcByte (c : Nat) (b : Byte) : Nat := crc32cBits 0x82F63B78 8 (c ^^^ b.toNat)

/-- The CRC of at most 320 bytes, 64 bytes at a time. -/
theorem crc_by_chunks (bs : List Byte) (a b c d e : Nat) (h1 : (bs.take 64).foldl crcByte 0xFFFFFFFF = a)
    (h2 : ((bs.drop 64).take 64).foldl crcByte a = b) (h3 : ((bs.drop 128).take 64).foldl crcByte b = c)
    (h4 : ((bs.drop 192).take 64).foldl crcByte c = d) (h5 : (bs.drop 256).foldl crcByte d = e) :
    crc32c bs = e ^^^ 0xFFFFFFFF := by
  have cut (l : List Byte) (x : Nat) : l.foldl crcByte x = (l.drop 64).foldl crcByte ((l.take 64).foldl crcByte x) := by
    rw [← List.foldl_append, List.take_append_drop]
  change bs.foldl crcByte 0xFFFFFFFF ^^^ 0xFFFFFFFF = _
  rw [cut bs, h1, cut (bs.drop 64), h2, List.drop_drop, cut (bs.drop 128), h3, List.drop_drop, cut (bs.drop 192), h4,
    List.drop_drop, h5]

/-- An image whose magic, version and CRC pass is loaded. -/
theorem loads_of (img : List Byte) (c : Nat) (hm : ¬(hdrMagic (imageHeader img) ≠ 0x564B494D ∨ hdrVersion (imageHeader img) ≠ 1))
    (hc : crc32c (headerCrcBytes img (imageHeader img)) = c) (hr : hdrCrc (imageHeader img) = c) : loadCode img = 0 := by
  simp only [loadCode]
  rw [if_neg hm, if_neg fun h => h (hc.trans hr.symm)]

/-- The image passes its load checks (R126): magic, version and CRC. -/
theorem image0_loads : loadCode image0 = 0 :=
  loads_of image0 1206357732 (by decide +kernel)
    (crc_by_chunks _ 269038125 3427319583 4278582229 1814776095 3088609563 (by decide +kernel) (by decide +kernel)
      (by decide +kernel) (by decide +kernel) (by decide +kernel)) (by decide +kernel)

/-- A bind record of that image at 64 KiB, with its stripes allotted, and one whose stripes are not. -/
def rc0 : BitVec 512 := packBits 512 [(456, 56, 65536), (75, 5, 16), (0, 1, 1)]

/-- A gang of one whose slot holds a bind record. -/
def armed (rc : BitVec 512) : State := withTasks [(0, { task0 with state := .bound })]
  (State.reset.onRing 0 fun r => { r with slot := rc, slotState := .gang })

/-- The gang whose bind record is `rc0`, its image mapped one to one at 64 KiB and stored there. -/
def gang0 : State := { (armed rc0).onDie 0 fun d => { d with tlb := [⟨0, 1, 1, packBits 64 [(62, 2, 3), (8, 44, 256), (0, 3, 7)], 4, 0⟩] } with
  mem := (Memory.writeN [] 0 [1]).writeN 65536 image0 }

/-- The same with the image loaded. -/
def gangLoaded : State := loadImage (gang0.onRing 0 fun r => freshRing r rc0 (!bindRes rc0)) 0

/-- An image whose parts are in reach and whose checks pass is not refused. -/
theorem not_refused (s : State) (g : Nat) (img : List Byte)
    (hf : ¬((loadParts (s.ctx g).bind (s.ctx g).hdr).any fun p => (fetchBadPage s g p.1 p.2).isSome) = true)
    (hp : peekImage s g (bindImg (s.ctx g).bind) (loadLength (s.ctx g)) = img) (hl : loadCode img = 0) : loadRefusal s g = 0 := by
  simp only [loadRefusal]
  rw [if_neg hf, hp, hl]

/-- SlotsAndDispatch: the image of the gang is not refused. -/
theorem witness_dispatch_image : loadRefusal gangLoaded 0 = 0 :=
  not_refused gangLoaded 0 image0 (by decide +kernel) (by decide +kernel) image0_loads

/-- SlotsAndDispatch: a bind record into an empty slot and into one that is not; a gang of one whose only check to fail is the
first, and one that passes all. -/
theorem witness_dispatch :
    bindVld rc0 = true ∧ (State.reset.ring 23).slotState = .empty ∧ (gang0.ring 0).slotState ≠ .empty ∧ bindVld (0 : BitVec 512) = false ∧
    (gang0.ring 0).slotState = .gang ∧ gang0.task 0 = some { task0 with state := .bound } ∧ gangSlots gang0 0 = [0] ∧
    gangWhole gang0 0 { task0 with state := .bound } = true ∧ dispatchCode gangLoaded 0 = 0 ∧ bindRes rc0 = false ∧
    bindDrn rc0 = false ∧ loadHeap gangLoaded 0 = none ∧
    (let rc := rc0 ||| packBits 512 [(320, 40, 2), (360, 40, 1)]
     let s := { gang0.onRing 0 fun r => { r with slot := rc } with mem := gang0.mem }
     let u := loadImage (s.onRing 0 fun r => freshRing r rc true) 0
     dispatchCode u 0 = 0 ∧ (loadHeap u 0).isSome = true ∧ gangSlots s 0 = [0] ∧ bindRes rc = false) ∧
    (let s : State := { armed rc0 with mem := [(0, 1)] }
     let u := loadImage (s.onRing 0 fun r => freshRing r rc0 (!bindRes rc0)) 0
     dispatchCode u 0 = 0 ∧ loadRefusal u 0 ≠ 0 ∧ gangSlots s 0 = [0]) ∧
    (let rc := rc0 ||| 2
     let e : BitVec 192 := packBits 192 [(56, 2, 2)]
     let s : State := { (armed rc).onRing 0 fun r => { r with remap := [(62, e)] } with mem := [(0, 1)] }
     let u := loadImage (s.onRing 0 fun r => freshRing r rc (!bindRes rc)) 0
     dispatchCode u 0 = 0 ∧ bindRes rc = true ∧ remapOf (u.ring 0) (bindCtx rc) = some (62, e) ∧ gangSlots s 0 = [0]) ∧
    (let rc := rc0 &&& ~~~packBits 512 [(75, 5, 31)]
     let s := armed rc
     dispatchCode (loadImage (s.onRing 0 fun r => freshRing r rc (!bindRes rc)) 0) 0 = 1 ∧ gangSlots s 0 = [0] ∧
      gangWhole s 0 { task0 with state := .bound } = true) := by decide +kernel

/-- The bind record of that image for a context that starts from a drain record. -/
def rcDrained : BitVec 512 := rc0 ||| 4

/-- SlotsAndDispatch: a gang of one whose bind record has DRN 1, with its image loaded. -/
def drainedLoaded : State := loadImage ((gang0.onRing 0 fun r => { r with slot := rcDrained }).onRing 0 fun r => freshRing r rcDrained true) 0

theorem witness_dispatch_drained :
    (dispatchCode drainedLoaded 0 = 0 ∧ bindRes rcDrained = false ∧ bindDrn rcDrained = true ∧ loadHeap drainedLoaded 0 = none ∧
      gangSlots (gang0.onRing 0 fun r => { r with slot := rcDrained }) 0 = [0]) ∧ loadRefusal drainedLoaded 0 = 0 :=
  ⟨by decide +kernel, not_refused drainedLoaded 0 image0 (by decide +kernel) (by decide +kernel) image0_loads⟩

/-- The bind record of a second member. -/
def rc1 : BitVec 512 := rc0 ||| packBits 512 [(152, 16, 1), (57, 5, 1)]

/-- A task of two members. -/
def task2 : Task := { task0 with state := .bound, entry := packBits 512 [(225, 5, 1)], members := [0, 0] }

/-- A gang of two whose slots, on rings 0 and 2, hold their bind records. -/
def pair0 : State := (withTasks [(0, task2)] gang0).onRing 2 fun r =>
  { r with slot := rc1, slotState := .gang }

/-- The first member of the gang loaded, and started. -/
def firstLoaded : State := loadImage (pair0.onRing 0 fun r => freshRing r (pair0.ring 0).slot true) 0
def firstStarted : State := startContext firstLoaded 0 []
/-- The second member loaded after it. -/
def secondLoaded : State := loadImage (firstStarted.onRing 2 fun r => freshRing r (pair0.ring 2).slot true) 2

theorem first_not_refused : loadRefusal firstLoaded 0 = 0 :=
  not_refused firstLoaded 0 image0 (by decide +kernel) (by decide +kernel) image0_loads
theorem second_not_refused : loadRefusal secondLoaded 2 = 0 :=
  not_refused secondLoaded 2 image0 (by decide +kernel) (by decide +kernel) image0_loads

/-- A slot whose bind record passes every check starts its context. -/
theorem slot_starts (s : State) (n : Nat) (w : List Rename) (g : Nat) (hr : bindRes (s.ring g).slot = false)
    (hc : dispatchCode (loadImage (s.onRing g fun r => freshRing r (s.ring g).slot true) g) g = 0)
    (hh : loadHeap (loadImage (s.onRing g fun r => freshRing r (s.ring g).slot true) g) g = none)
    (hl : loadRefusal (loadImage (s.onRing g fun r => freshRing r (s.ring g).slot true) g) g = 0) :
    dispatchSlot s n w g = startContext (loadImage (s.onRing g fun r => freshRing r (s.ring g).slot true) g) g w := by
  simp only [dispatchSlot, hr, Bool.not_false, hc, hh, hl, ne_eq, not_true_eq_false, if_false, Bool.false_eq_true]

/-- The first member starts. -/
theorem first_starts : dispatchSlot pair0 0 [] 0 = firstStarted :=
  slot_starts pair0 0 [] 0 (by decide +kernel) (by decide +kernel) (by decide +kernel) first_not_refused

/-- SlotsAndDispatch: a gang of two of which each passes when those before it have started. -/
theorem witness_gang :
    (pair0.task 0 = some task2 ∧ gangSlots pair0 0 = [0, 2] ∧
      gangWhole pair0 0 task2 = true) ∧
    ∀ l g l', [0, 2] = l ++ g :: l' →
      let v := l.foldl (fun s g => dispatchSlot s 0 [] g) pair0
      let u := loadImage (v.onRing g fun r => freshRing r (pair0.ring g).slot true) g
      bindRes (pair0.ring g).slot = false ∧ bindDrn (pair0.ring g).slot = false ∧ dispatchCode u g = 0 ∧ loadHeap u g = none ∧
        loadRefusal u g = 0 := by
  refine ⟨by decide +kernel, fun l g l' h => ?_⟩
  match l, h with
  | [], h =>
    obtain ⟨rfl, rfl⟩ : g = 0 ∧ l' = [2] := by simpa [eq_comm] using h
    exact ⟨by decide +kernel, by decide +kernel, (by decide +kernel : dispatchCode firstLoaded 0 = 0),
      (by decide +kernel : loadHeap firstLoaded 0 = none), first_not_refused⟩
  | [a], h =>
    obtain ⟨rfl, rfl, rfl⟩ : a = 0 ∧ g = 2 ∧ l' = [] := by simpa [eq_comm] using h
    simp only [List.foldl_cons, List.foldl_nil, first_starts]
    exact ⟨by decide +kernel, by decide +kernel, (by decide +kernel : dispatchCode secondLoaded 2 = 0),
      (by decide +kernel : loadHeap secondLoaded 2 = none), second_not_refused⟩
  | a :: b :: r, h => simp at h

/-! ### Statements about reliability, hosts, links, power and the side band -/

/-- ErrorsScrubsAndRepairs: the first error of an empty table at the ends of an address; an entry of kind 3 that has asked for its
repair, its count full; a scrub of a line whose RAS record lies elsewhere and of the last chunk; a repair asked for and busy. -/
theorem witness_errors :
    (siteOk ⟨7, 255, 2 ^ 18 - 1, 1023⟩ = true ∧ siteOk ⟨391, 15, 1023, 7⟩ = true ∧ tget State.reset.hub.cls 7 [] = [] ∧
      1 < State.reset.hub.cellthr.toNat) ∧
    (let e : BitVec 64 := packBits 64 [(63, 1, 1), (61, 2, 3), (60, 1, 1), (8, 8, 255)]
     let f : BitVec 64 := packBits 64 [(63, 1, 1), (51, 8, 1), (8, 8, 1)]
     clsBank e = 0 ∧ clsCount e = 255 ∧ clsKind e = 3 ∧ clsReq e = true ∧ [f, e] = [f] ++ e :: [] ∧
      clsBank f ≠ 0) ∧
    ((State.reset.die 3).scrubint ≠ 0 ∧
      (let s := State.reset.onHub fun h => { h with rasbase := 2 ^ 30 }
       let w := s.hub.rasbase.toNat + 32 * s.hub.rashead
       (s.die 0).scrubpos = 0 ∧ 64 * (0 * 17179869184 + (s.die 0).scrubpos) + 64 ≤ w) ∧
      ((State.reset.onDie 3 fun d => { d with scrubpos := 1623195647 }).die 3).scrubpos = 1623195647 ∧
      (let r (x : Flaw) : Ring := (onRing0 fun r => { r with flaws := [(7, x)], spoison := if x == .uncorrectable then [7] else [] }).ring 0
       (r .latent).flaws.find? (fun x => x.1 == 7) = some (7, .latent) ∧ 7 ∉ (r .latent).spoison ∧
        (r .uncorrectable).flaws.find? (fun x => x.1 == 7) = some (7, .uncorrectable) ∧ 7 ∈ (r .uncorrectable).spoison ∧
        (State.reset.ring 0).flaws = [])) ∧
    (let v : BitVec 64 := packBits 64 [(63, 1, 1)]
     bit v 63 = true ∧ 0 < (1623195648 : Nat) / ((State.reset.onDie 3 fun d => { d with scrubint := 1000 }).die 3).scrubint.toNat ∧
      (State.reset.die 3).scrubahead = 0 ∧ bit (State.reset.die 3).ppr 63 = false ∧ bit ((State.reset.onDie 3 fun d => { d with ppr := v }).die 3).ppr 63 = true ∧
      State.reset.reqs = []) := by decide +kernel

/-- An audit log of ring 0. -/
def audit0 : AuditLog :=
  { bind := rc0, rwin := [], run := 0, fslots := [], notes := [], inputs := [], outs := [], states := [], flags := 0, whole := true,
    ring := 0, ctx := 0, task := 0, owner := 0, tag := 0, img := 0, igen := 0, first := 0, nv := 0, b := 0, wave := 0, opmask := 0,
    sig := 5, since := 0, qcfg := [], streams := [], tries := [] }

/-- AuditAndInjection: controls at the edge of NEXP; a log whose replay may be made on two other rings, agreeing and not, and one
that is over its time; an injection in its cycle, into an accumulator, a scratchpad bit and a check. -/
theorem witness_audit :
    (bits (packBits 64 [(58, 6, 20)] : BitVec 64) 58 5 ≤ 20 ∧ 20 < bits (packBits 64 [(58, 6, 21)] : BitVec 64) 58 5) ∧
    (let s : State := { State.reset.onHub (fun h => { h with audlogs := [(3, audit0)] }) with mem := [(0, 1)] }
     (s.hub.audlogs.find? fun e => e.1 == 3) = some (3, audit0) ∧ mayReplay s audit0 1 = true ∧ mayReplay s audit0 23 = true ∧
      mayReplay s audit0 0 = false ∧ audit0.whole = true ∧ audit0.inputs = [] ∧
      (let a := { audit0 with opmask := packBits 64 [(24, 1, 1)] }; (List.range 24).all (fun g => !mayReplay s a g) = true) ∧
      (let x : AuditInput := { stream := 31, desc := 0, first := 0, count := 0, visits := [], gens := [(15, 4095)], crc := 1, marks := [] }
       generation s (dieOf 0) (bindAsid audit0.bind) 15 ≠ 4095 ∧
        BitVec.ofNat 64 (crc64 (x.visits.flatMap (rereadWord s { audit0 with inputs := [x] } x.desc))) ≠ x.crc) ∧ audit0.since + 1000000000 ≤ ({ s with tick := 1000000000 } : State).tick.toNat) ∧
    (let a := { audit0 with tries := [(1, 5)] }
     let b := { audit0 with tries := [(1, 6), (2, 6)] }
     let c := { audit0 with tries := [(1, 6), (2, 5)] }
     let d := { audit0 with tries := [(1, 6), (2, 7)] }
     a.tries = [(1, a.sig)] ∧ b.tries = [(1, 6), (2, 6)] ∧ 6 ≠ b.sig ∧ c.tries = [(1, 6), (2, c.sig)] ∧ d.tries = [(1, 6), (2, 7)] ∧ 7 ≠ d.sig) ∧
    (let s : State := { State.reset.onHub (fun h => { h with audlogs := [(3, audit0)] }) with mem := [(0, 1)] }
     let t := bindReplay s 1 3 audit0 rc0
     liveReplay s 3 = none ∧ liveReplay t 3 = some 1 ∧ (t.ctx 1).hoisting = none ∧ (t.ctx 1).fault = none ∧ replayAbandons t 3 audit0 = none ∧
      replayOver (t.onCtx 1 fun c => { c with runs := [] }) 1 audit0 = true ∧
      generation s (dieOf 0) (bindAsid audit0.bind) (regionOf audit0.img) = audit0.igen) ∧
    ([packBits 64 [(63, 1, 1), (55, 4, 15), (52, 3, 7), (50, 2, 3), (46, 4, 15), (42, 4, 15), (18, 10, 31)],
      packBits 64 [(63, 1, 1), (61, 2, 1), (28, 14, 16383), (18, 10, 1023)],
      packBits 64 [(63, 1, 1), (61, 2, 1), (59, 2, 1)]] : List (BitVec 64)).all (fun v =>
        let r := (onRing0 fun r => { r with inj := v }).ring 0
        bit v 63 && r.bound && r.ctx.id == v.extractLsb' 0 16 && r.ctx.tc == bits r.injt 0 48 && r.holdCause == 0) = true ∧
    (bits (packBits 64 [(61, 2, 1), (59, 2, 1)] : BitVec 64) 61 2 = 1 ∧ bits (packBits 64 [(61, 2, 1), (59, 2, 1)] : BitVec 64) 59 2 = 1 ∧
      ((onRing0 id).ring 0).spad.wf = true) := by decide +kernel

/-- HostWrites: a cap of none, at the idle floor and below it, and one between the floor and the classes' floors; an aperture that
is on and off; the last byte of HBM; a ring that may be retired and one that may not. -/
theorem witness_host_writes :
    let floors (s : State) := ((List.range 8).map fun i => tget s.hub.pfloor i 0).sum
    let s := State.reset.onHub fun h => { h with pfloor := [(7, 500)], apbase := [(3, 16)] }
    floors State.reset = 0 ∧ floors s = 500 ∧ bit (tget s.hub.apbase 3 0) 4 = true ∧ bit (tget s.hub.apbase 0 0) 4 = false ∧
    isHbm (bits (tget s.hub.apbase 3 0) 36 16 * 68719476736 + 68719476735) = true ∧ queueOwner s 0 = 0 ∧
    (s.ring 23).bound = false ∧ ((onCtx0 id).ring 0).bound = true ∧ popCount (0x3FFF : BitVec 16) ≤ 14 ∧ 14 < popCount (0x7FFF : BitVec 16) ∧
    s.hub.injen = false ∧ bit ((s.onHub fun h => { h with sqcfg := [(0, 1)] }).sqcfg 0) 0 = true ∧
    480 < floors s ∧ (s.onHub fun h => { h with capWrites := [(4, 700), (0, 100)] }).hub.capWrites = [(4, 700), (0, 100)] ∧
    (let u : State := { s with sub := 18 }
     (u.rings = [] ∧ Ring.reset.flaws = []) ∧ u.agenda = [] ∧ u.inputs = [] ∧ u.sub = 18 ∧ u.aon.powered = true ∧ u.aon.frozen = false ∧ u.hub.wipest = false) ∧
    (0 < pairDue (onCtx0 id |>.onHub fun h => { h with pfloor := [(0, 500)] }) 0 ∨ pairDue s 0 = 0) ∧
    (bit (tget s.hub.apbase 3 0) 4 = true ∧ bit (16 : BitVec 64) 4 = true ∧ bit (0 : BitVec 64) 4 = false ∧
      bits (packBits 64 [(36, 16, 5), (4, 1, 1)] : BitVec 64) 36 16 ≠ bits (tget s.hub.apbase 3 0) 36 16) ∧
    debugOpen (s.onAon fun a => { a with lc := .deployed, unlocked := false }) = false := by decide +kernel

/-- LinksAndPorts: a link up and down; a function with and without tasks; a port up and down; a write that reaches the last bytes of
HBM, and one that a ring opens at the end of its footprint and one that it does not. -/
theorem witness_links :
    (let s := State.reset.onAon fun a => { a with pcfgLive := 2 }
     s.hasFunction 3 = true ∧ s.hasFunction 1 = false ∧ s.linkUp 3 = true ∧ State.reset.linkUp 3 = false ∧
      (s.onHub fun h => { h with link := [(3, false)] }).linkUp 3 = false) ∧
    (∀ e ∈ State.reset.hub.tasks, queueOwner State.reset e.2.queue ≠ 0) ∧
    (let s := withTasks [(0, task0)] State.reset; s.task 0 = some task0 ∧ queueOwner s task0.queue = 0 ∧ queueOwner s 63 = 0) ∧
    (tget (State.reset.onHub fun h => { h with kup := [(15, true)] }).hub.kup 15 false = true ∧
      tget (State.reset.onHub fun h => { h with kup := [(15, false)] }).hub.kup 15 false = false) ∧
    (let a := 96 * 2 ^ 30 - 64; a % 64 + (List.replicate 64 (1 : Byte)).length ≤ 64 ∧ isHbm a = true ∧ isHbm (2 ^ 55) = false ∧ isHost (2 ^ 55) = false ∧
     isHbm (2 ^ 51) = false ∧ isHost (2 ^ 51) = true ∧ State.reset.linkUp (hostFunction State.reset (2 ^ 51)) = true ∧
     (State.reset.onHub fun h => { h with link := [(0, false)] }).linkUp (hostFunction State.reset (2 ^ 51)) = false) ∧
    (let s := onCtx0 fun c => { c with bind := packBits 512 [(110, 10, 512)] }
     (s.ring 0).bound = true ∧ remapOf (s.ring 0) (s.ctx 0).id = none ∧
      (2 * 2097152 - 64) % 2097152 + 64 ≤ bindFoot (s.ctx 0).bind * 4096 ∧
      spadTarget s 0 (s.ctx 0).asid (bindFoot (s.ctx 0).bind * 4096 - 64) 64 = some 0 ∧
      spadTarget s 0 1 0 1 = none ∧ 2097152 - 32 + 64 ≤ 33554432 ∧ 2097152 ≤ bindFoot (s.ctx 0).bind * 4096) ∧
    (let n := 23 * 2 ^ 12 + 4095; nameNode n = State.reset.hub.node.toNat ∧ nameRing n < 24 ∧ barrierFree State.reset n = true) := by decide +kernel

/-- ClocksAndRails: frequencies at both ends and one between; loads a tenth apart and more; a throttled die; a trip not recorded
and one that is. -/
theorem witness_clocks :
    State.reset.saved = [] ∧ (475 % 25 = 0 ∧ 1900 % 25 = 0 ∧ 1875 % 25 = 0) ∧ tget State.reset.hub.pairf 11 1900 = 1900 ∧
    (let s := State.reset.onAon fun a => { a with powered := false, tripOff := true }
     s.aon.powered = false ∧ s.aon.tripOff = true) ∧ (max 100 10 < 10 * (max 100 10 - (min 100 10 + 20))) ∧
    (max 10 9 ≥ 10 * (max 10 9 - min 10 9)) ∧ (max 10 8 < 10 * (max 10 8 - min 10 8)) ∧ State.reset.hub.tthrot ≤ 105 ∧
    State.reset.aon.powered = true ∧ bit State.reset.aon.ttrip 63 = false ∧
    bit (State.reset.onAon fun a => { a with ttrip := packBits 64 [(63, 1, 1)] }).aon.ttrip 63 = true ∧
    (let x : Saved := ⟨0, { Ctx.reset with bind := packBits 512 [(152, 16, 7)] }, [], [], [], [], 0⟩
     let s : State := { (State.reset.onRing 0 fun r => { r with remap := [(0, packBits 192 [(56, 2, 2), (112, 16, 7)])] }) with saved := [x] }
     s.saved = [x] ∧ x.ring / 2 = 0 ∧ (remapOf (s.ring 0) x.ctx.id).any (fun e => isHbm (remapSave e.2 + 4718592 + 69)) = true) ∧
    (onCtx0 id).saved = [] ∧ ((onCtx0 id).ring 0).bound = true ∧ ((onCtx0 id).ring 0).shifting = false := by decide +kernel

/-- A signed object of a kind: a header with its magic and kind, no payload, and a signature of zeros. -/
def object (kind : Nat) : List Byte := leBytes 2 0x4757 ++ leBytes 2 kind ++ List.replicate 1340 0

/-- A recovery image of version 1. -/
def newer : List Byte := leBytes 2 0x4757 ++ leBytes 2 2 ++ List.replicate 48 0 ++ leBytes 4 1 ++ List.replicate 1288 0

/-- SideBandCommands: a part that serves, one that is opened, and one of each state that a command refuses. What a signature is
worth is a free value, so the clauses of signed objects are met when, and only when, it accepts one (`object`). -/
theorem witness_side_band :
    (let a := State.reset.aon
     (a.lc = .provisioned ∨ a.lc = .deployed) ∧ (a.lc ≠ .blank) ∧ a.powered = true ∧ a.recovery = false ∧ a.frozen = false ∧ State.reset.hub.ready = true) ∧
    (let s := State.reset.onAon fun a => { a with lc := .deployed, unlocked := false, ownerKey := some [1] }
     ¬(s.aon.lc ≠ .deployed ∨ s.aon.unlocked = true) ∧ changeKey s .returned (object 3) = some [1] ∧
      changeKey s .provisioned (object 3) = none) ∧
    (let s := State.reset.onAon fun a => { a with lc := .deployed, unlocked := true, frozen := true, ownerKey := none }
     (s.aon.lc ≠ .deployed ∨ s.aon.unlocked = true) ∧ s.aon.frozen = true ∧ s.aon.ownerKey = none) ∧
    effectiveCap State.reset < 0xFFFF ∧ (List.replicate 32 (0 : Byte)).length = 32 ∧
    (let s := State.reset.onAon fun a => { a with powered := false, tripPending := true, ttrip := packBits 64 [(63, 1, 1)] }
     s.aon.powered = false ∧ s.aon.tripPending = true ∧ bit s.aon.ttrip 63 = true ∧ s.aon.tripOff = false ∧ s.aon.hot = false ∧
      (s.onAon fun a => { a with hot := true }).aon.hot = true) ∧
    (let s := State.reset.onAon fun a => { a with lc := .provisioned, powered := false, recovery := false }
     s.aon.recovery = false ∧ (s.aon.lc = .provisioned ∨ s.aon.lc = .deployed) ∧ s.aon.lc ≠ .deployed ∧
      ¬(s.aon.powered = true ∧ s.aon.frozen = false)) := by decide +kernel

/-- An object of the right form counts exactly as its signature does. -/
theorem object_valid (o key : List Byte) (kind : Nat)
    (h : (o.length == 64 + objLen o + 1280 && objMagic o == 0x4757 && objKind o == kind &&
      decide (State.reset.aon.svn.toNat ≤ objSvn o) && (o.drop 4).take 48 == List.replicate 48 0) = true) :
    objValid State.reset o kind key = Config.falconVerify key (o.take (64 + objLen o)) (o.drop (64 + objLen o)) := by
  unfold objValid
  rw [h, Bool.true_and]

/-- An Eosen image, a recovery image, a change of state and an unlock token that a signature alone accepts or refuses. -/
theorem witness_signed_objects (key : List Byte) :
    objValid State.reset (object 1) 1 key = Config.falconVerify key ((object 1).take 64) ((object 1).drop 64) ∧
    objValid State.reset (object 2) 2 key = Config.falconVerify key ((object 2).take 64) ((object 2).drop 64) ∧
    (objValid State.reset newer 2 key = Config.falconVerify key (newer.take 64) (newer.drop 64) ∧ Config.factorySvn < objSvn newer) ∧
    objValid State.reset (object 3) 3 key = Config.falconVerify key ((object 3).take 64) ((object 3).drop 64) ∧
    objValid State.reset (object 4) 4 key = Config.falconVerify key ((object 4).take 64) ((object 4).drop 64) :=
  ⟨object_valid _ _ _ (by decide +kernel), object_valid _ _ _ (by decide +kernel),
    ⟨object_valid _ _ _ (by decide +kernel), by decide +kernel⟩, object_valid _ _ _ (by decide +kernel),
    object_valid _ _ _ (by decide +kernel)⟩

/-! ### Statements about words, the step, faults and reset -/

/-- WordsRoundTrip and EveryWordHasOneReading: well-formed words with every field set, and the bytes of one. -/
theorem witness_words :
    (Instr.iaddsat { row0 with ty := .n8, dst := .x 15, sa := .v 63, sb := .imm 31 }).wf = true ∧
    (Instr.kset 15 true 0xFFFF (.goto (.idle 7) 7)).wf = true ∧
    (match decode (encode (.kset 15 true 0xFFFF (.goto (.idle 7) 7))) with
      | .ok i => i == .kset 15 true 0xFFFF (.goto (.idle 7) 7) | .error _ => false) = true := by decide +kernel

/-- AStepRunsTheDecodedInstruction: a row at its place of issue, a step at SI, one that waits with its condition met, a time base
in the last cycle of a tick and before it, a part without power; a host's access over a link, without one, and with the clocks stopped. -/
theorem witness_step :
    (let s : State := { onStripe0 { rec0 with slots := [0x103B0002009084300000] } ⟨0, 0, 0, 1, false⟩ with agenda := [.row 0 0 0 0 0 0] }
     (s.ctx 0).unwinding = none ∧
      (match decodeRow (slotRow (((s.ring 0).stripe 0).record.elim 0 fun rc => recSlot rc 0)) with
        | .ok i => i == .ffma ⟨⟨true, 3⟩, none, .f32, .v 4, .v 2, .port (.pi 0), .x 3, .rne, false, false, 0⟩
        | .error _ => false) = true) ∧
    (let s := onStripe0 rec0 ⟨0, 0, 0, 1, false⟩
     (s.ctx 0).fault = none ∧
      (match exec (.rowTrap { row0 with imm := 7 }) s with | .next t => (t.ctx 0).fault.isSome | _ => false) = true) ∧
    (State.reset.hub.wipest = false ∧ State.reset.hub.capWrites = []) ∧
    (let s : State := { inStep (.kdec 2 (.goto (.knz 2) 5)) id with agenda := [.seq 0] }
     (s.ctx 0).fault = none ∧ (s.ctx 0).ended = false ∧ (s.ctx 0).ending = none ∧ (s.ctx 0).draining = false ∧
      (s.ctx 0).unwinding = none ∧ (s.ctx 0).yielded = false ∧ (s.ctx 0).wait = none ∧ (s.ctx 0).thNotice = false ∧
      (s.ctx 0).badSlots = [] ∧ ((inStep (.kdec 2 .fall) fun c => { c with badSlots := [0] }).ctx 0).badSlots.contains 0 = true ∧
      (match (s.ctx 0).stepAt (s.ctx 0).si with | .ok i => i == .kdec 2 (.goto (.knz 2) 5) | .error _ => false) = true) ∧
    (let s : State := { inStep (.waitt 1 .fall) fun c => { c with wait := some wait0 } with agenda := [.seq 0] }
     (s.ctx 0).wait.isSome = true ∧ (s.ctx 0).token 0 = 0) ∧
    (State.reset.agenda = [] ∧ State.reset.inputs = [] ∧ State.reset.sub + 1 < 19 ∧
      19 ≤ ({ State.reset with sub := 18 } : State).sub + 1 ∧ (State.reset.onAon fun a => { a with powered := false }).aon.powered = false) ∧
    (mayArrive State.reset (.apertureAccess 2 0 .apertureRead []) = true ∧ mayArrive State.reset (.apertureAccess 3 0 .apertureRead []) = false ∧
      mayArrive (State.reset.onAon fun a => { a with frozen := true }) (.droopDetect 0 16) = false ∧ auxiliary (.droopDetect 0 16) = false ∧
      mayArrive (State.reset.onAon fun a => { a with frozen := true }) .reset = true) ∧
    decodeTableWord 80 0x103B0002009084300000 =
      some (.ffma ⟨⟨true, 3⟩, none, .f32, .v 4, .v 2, .port (.pi 0), .x 3, .rne, false, false, 0⟩) := by decide +kernel

/-- FaultsAreTaken: a context that can take a fault, one with a record already and one killed; a class of R98 before another. -/
theorem witness_faults :
    (let c := (onCtx0 id).ctx 0; c.ended = false ∧ c.killed = false ∧ c.fault = none ∧ c.faultPref = none) ∧
    ((onCtx0 fun c => { c with faultPref := some (faultAt State.reset 0 3 0 0 0) }).ctx 0).faultPref.isSome = true ∧
    ((onCtx0 fun c => { c with killed := true }).ctx 0).killed = true ∧
    [4, 7, 1, 6, 3, 2, 8, 10, 9] = [4, 7] ++ 1 :: ([6, 3, 2, 8, 10] ++ 9 :: []) ∧
    (faultAt State.reset 0 1 0 0 0).cls = 1 ∧ (faultAt State.reset 0 9 0 0 0).cls = 9 ∧ (faultAt State.reset 0 9 0 0 0).col < 8 ∧
    ((onCtx0 fun c => { c with brkResume := some ⟨0, some 7, [3]⟩ }).ctx 0).brkResume.any (fun a => a.tc == 0 && a.done == [3]) = true ∧
    (faultAt State.reset 0 9 0 0 0).locStripe = false ∧ (rowFault State.reset 9 0 0 0).locStripe = true := by decide +kernel

/-- BytesReadBack: the ends of HBM, host memory behind a link that is up and one that is down, a reserved address. -/
theorem witness_bytes :
    State.reset.mem.wf = true ∧ isHbm 0 = true ∧ isHbm (4 * 2 ^ 36 - 1) = false ∧ isHost (2 ^ 51) = true ∧
    State.reset.linkUp (hostFunction State.reset (2 ^ 51)) = true ∧
    (State.reset.onHub fun h => { h with link := [(0, false)] }).linkUp (hostFunction State.reset (2 ^ 51)) = false ∧
    isHbm (2 ^ 51 - 1) = false ∧ isHost (2 ^ 51 - 1) = false ∧ (State.reset.ring 23).spad.wf = true := by decide +kernel

/-- EveryStepKeepsTheInvariant: a part with a byte in memory, in the last cycle of a tick, meets it and steps. -/
theorem witness_invariant :
    let s : State := { State.reset with sub := 18, mem := [(5, 1)] }
    MemoriesCanonical s ∧ InTick s ∧ (match step s with | .next t => t.tick == 1 && t.mem == [(5, 1)] | _ => false) = true := by
  refine ⟨⟨by decide +kernel, fun g => ?_⟩, ?_, by decide +kernel⟩
  · exact (by decide +kernel : Ring.reset.spad.wf = true)
  · exact (by decide : 18 < 19)

/-! ### The spec's worked examples -/

/-- R53's table: E4M3, round to nearest even. 0.0009 lies between 2^−11 and 2^−10. -/
theorem test_rounding_to_e4m3 :
    let f := fmtOfDesc 0xC68380
    roundFmt f (.fin false 464 0 false) .rne true = (0x7E, flagNX) ∧ roundFmt f (.fin false 470 0 false) .rne true = (0x7E, flagSAT ||| flagNX) ∧
    roundFmt f (.fin false 470 0 false) .rne false = (0x7F, flagOF ||| flagNX) ∧
    roundFmt f (.fin true 1 (-11) true) .rne true = (0x80, flagNX) := by decide +kernel

/-- R77's example: offset 0x4A30 in bank 4, chunk 3, and swizzled in bank 13, chunk 7. -/
theorem test_scratchpad_place :
    placeOf false 0x4A30 = (9 * 16 + 4) * 128 + 3 * 16 ∧ placeOf true 0x4A30 = (9 * 16 + 13) * 128 + 7 * 16 := by decide

/-- R260's example: the third level's entry 452 is a leaf of 2 MiB; an image fetch from the page faults. -/
theorem test_page_walk :
    let m := Memory.writeN [] (8 * 452) (leBytes 8 0xC000020000600003)
    let at3 (k : ReqKind) := walkFrom m 0x123456789ABCDE k 2 3 0
    walkIndex 1 0x123456789ABCDE = 582 ∧ walkIndex 2 0x123456789ABCDE = 4441 ∧ walkIndex 3 0x123456789ABCDE = 452 ∧
    walkIndex 4 0x123456789ABCDE = 26 ∧ at3 .read = .ok (.phys 0x200007ABCDE) 0xC000020000600003 3 ∧
    at3 .fetch = .fault 1 0xC000020000600003 3 := by decide +kernel

/-- The values a row leaves to land on the element in focus. -/
def landing (i : Instr) (f : Element → Element) : List (Nat × Nat) :=
  match exec i (State.reset.onMe f) with
  | .next t => t.me.pend.map fun p => ((p.val.lane 5).toNat, p.flags.toNat)
  | _ => []

/-- The example of `ilui`: the second row of the pair. -/
theorem test_ilui_pair :
    landing (.ilui { row0 with dst := .v 1, sa := .imm 0, imm := 0x5678 }) id = [(0x56780000, 0)] ∧
    landing (.ilui { row0 with dst := .v 1, sa := .v 1, imm := 0x1234 }) (fun e => { e with v := [(1, Vec.splat 0x56780000)] }) =
      [(0x12345678, 0)] := by decide +kernel

/-- The example of `fexp8` and `quant`: 300 and 700 under a scale of 2, to E4M3 in byte 2. -/
theorem test_fexp8_example :
    landing (.fexp8 { row0 with dst := .v 6, sa := .v 5, imm := 8 }) (fun e => { e with v := [(5, Vec.splat 0x442F0000)] }) =
      [(128, 0)] := by decide +kernel

/-- The row of that example on one value. -/
def quantRow (x : W32) : List (Nat × Nat) :=
  landing (.quant { row0 with dst := .v 20, sa := .v 4, sb := .v 6, sc := .v 20, sat := true, imm := 0x21 })
    (fun e => { e with v := [(4, Vec.splat x), (6, Vec.splat 128)] })

theorem test_quant_300 : quantRow 0x43960000 = [(0x710000, 16)] := by decide +kernel
theorem test_quant_700 : quantRow 0x442F0000 = [(0x7B0000, 16)] := by decide +kernel

/-- `lred.add.f32` of 32 values. -/
def sumOf (v : Nat → W32) : List (Nat × Nat) :=
  landing (.lredAdd { row0 with dst := .v 1, sa := .v 0 }) (fun e => { e with v := [(0, Vec.ofLanes v)] })

/-- R219's example: the tree over 2^24 and ones, both ways round. -/
theorem test_reduction_tree :
    sumOf (fun l => if l = 0 then 0x4B800000 else if l ≤ 2 then 0x3F800000 else 0) = [(0x4B800000, 16)] := by decide +kernel
theorem test_reduction_tree_placed :
    sumOf (fun l => if l ≤ 1 then 0x3F800000 else if l = 2 then 0x4B800000 else 0) = [(0x4B800001, 0)] := by decide +kernel

/-- R156's example: `kdec k2 -> 5 if nz` at state 5 goes round with 2 left, and falls through with 0. -/
theorem test_kdec_example :
    let i : Instr := .kdec 2 (.goto (.knz 2) 5)
    let after (k : BitVec 48) := match exec i (onCtx0 fun c => { c with si := 5, k := [(2, k)], hdr := packBits 2048 [(80, 16, 64)] }) with
      | .next t => some ((t.ctx 0).kreg 2, (t.ctx 0).si)
      | _ => none
    after 3 = some (2, 5) ∧ after 1 = some (0, 6) := by decide +kernel

/-- R372's example: bit 30 of cell (5, 9) of `acc1`, column 2 of S3, at TC 1,000: +2.0 becomes +0. -/
theorem test_injection_example :
    let s := ((onCtx0 fun c => { c with tc := 1000, bind := packBits 512 [(152, 16, 7)] }).onRing 0 fun r =>
      { r with inj := 0x81A5640000780007, injt := 1000 }).onElem 0 3 2 fun e => { e with acc := [(256 + 16 * 5 + 9, 0x40000000)] }
    (match exec (.injectionFire 0) s with
      | .next t => some ((t.elem 0 3 2).accCell 1 5 9, bit (t.ring 0).inj 63)
      | _ => none) = some (0, false) := by decide +kernel

/-- R382, R388, R86, R269: the status words after reset, and HUB.KSTAT of a port with replays and drops. -/
theorem test_status_words :
    pstat State.reset 0 = 0x8000000000000000 ∧ holdst Ring.reset = 0 ∧ fbstat Die.reset = 0 ∧
      kstat { Hub.reset with kup := [(2, true)], kreplay := [(2, 3)], kdrop := [(2, 4)] } 2 = 0x8000000300040000 := by
  decide +kernel

/-- R334, R400: HUB.SLOTST and RING.DBGCTL of a halted slot. -/
theorem test_slot_words :
    let s := (onCtx0 fun c => { c with bind := packBits 512 [(152, 16, 7)] }).onRing 0 fun r =>
      { r with slot := packBits 512 [(152, 16, 7)], slotState := .halted, brken := true, refuse := 0 }
    slotst s 0 = 0x6000070000000000 ∧ dbgctl (s.ring 0) = 0x70009 := by
  decide +kernel

end Sys2Proof.Tests
end

section
/-!
SUPPORT. The invariant that every memory is in canonical form and the time base within its tick (`Sound`), carried
through the shared forms of the model: an update of the state, a fold, a choice, and every way a function of the model
answers with a state. The sections after this one say of each state function, in the model's order, that it keeps `Sound`
(`…_sound`), that an outcome keeps it (`…_kept`), or that a function of one ring keeps its scratchpad canonical (`…_wf`).
-/

namespace Sys2Proof.Machine

open Sys2Proof Sys2Proof.Safety

/-! ### The invariant -/

/-- Every memory is in canonical form, and the time base is within its tick. -/
def Sound (s : State) : Prop := MemoriesCanonical s ∧ InTick s

/-- The outcome goes on only to a state that is `Sound`. -/
def Kept (o : Host.Outcome State Fault Refusal) : Prop := ∀ t, o = .next t → Sound t

/-- The state, where there is one, is `Sound`. -/
def SoundIfSome (o : Option State) : Prop := ∀ t ∈ o, Sound t

/-- However a step ends, it leaves a state that is `Sound`. -/
def StepEnd.Sound : StepEnd → Prop
  | .done s | .wait s | .stop s => Machine.Sound s

/-- Granted or stopped, an operand's access leaves a state that is `Sound`. -/
def Access.Sound {α : Type} : Access α → Prop
  | .ok s _ | .stop s => Machine.Sound s

/-- Where a read that a step waits for has come back, the state is `Sound`. -/
def Fetched.Sound : Fetched → Prop
  | .pending => True
  | .got s _ | .stop s => Machine.Sound s

/-- What a matrix unit does in part 1 of a cycle leaves the ring's scratchpad canonical. -/
def Part1.Wf : Part1 → Prop
  | .ok r | .fault r _ | .poison r _ _ => r.spad.wf = true
  | .hold _ => True

section
variable {s t : State} {r : Ring}

theorem Sound.mem_wf (h : Sound s) : s.mem.wf = true := h.1.1
theorem Sound.spad_wf (h : Sound s) (g : Nat) : (s.ring g).spad.wf = true := h.1.2 g
theorem Sound.sub_lt (h : Sound s) : s.sub < Config.cyclesPerTick := h.2

/-! ### Updates of the state -/

/-- A state built over a `Sound` one: with another memory in canonical form, and the rings and the place within the
tick kept. -/
theorem sound_write {tick sub agenda inputs focus freeCtr mem shadow poison reqs reqNext copies copyNext decs barUsed
    colls collFailed egress saved rings dies hub aon} (h : Sound s) (hm : mem.wf = true) (hr : rings = s.rings)
    (hs : sub = s.sub) :
    Sound ⟨tick, sub, agenda, inputs, focus, freeCtr, mem, shadow, poison, reqs, reqNext, copies, copyNext, decs,
      barUsed, colls, collFailed, egress, saved, rings, dies, hub, aon⟩ := by
  subst hr hs
  exact ⟨⟨hm, h.spad_wf⟩, h.sub_lt⟩

/-- A state built over a `Sound` one that keeps its memory, its rings and its place within the tick. -/
theorem sound_record {tick sub agenda inputs focus freeCtr mem shadow poison reqs reqNext copies copyNext decs barUsed
    colls collFailed egress saved rings dies hub aon} (h : Sound s) (hm : mem = s.mem) (hr : rings = s.rings)
    (hs : sub = s.sub) :
    Sound ⟨tick, sub, agenda, inputs, focus, freeCtr, mem, shadow, poison, reqs, reqNext, copies, copyNext, decs,
      barUsed, colls, collFailed, egress, saved, rings, dies, hub, aon⟩ := by
  subst hm
  exact sound_write h h.mem_wf hr hs

theorem setRing_sound {g : Nat} (hr : r.spad.wf = true) (h : Sound s) : Sound (s.setRing g r) := by
  refine ⟨⟨h.mem_wf, fun k => ?_⟩, h.sub_lt⟩
  by_cases e : k = g
  · subst e; simpa using hr
  · simpa [e] using h.spad_wf k

theorem onRing_sound {g : Nat} {f : Ring → Ring} (hf : ∀ r : Ring, r.spad.wf = true → (f r).spad.wf = true)
    (h : Sound s) : Sound (s.onRing g f) := setRing_sound (hf _ (h.spad_wf g)) h

theorem onCtx_sound {g : Nat} {f : Ctx → Ctx} (h : Sound s) : Sound (s.onCtx g f) := onRing_sound (fun _ hr => hr) h

theorem onElem_sound {g ps k : Nat} {f : Element → Element} (h : Sound s) : Sound (s.onElem g ps k f) :=
  onRing_sound (fun _ hr => hr) h

theorem onHub_sound {f : Hub → Hub} (h : Sound s) : Sound (s.onHub f) := h
theorem onAon_sound {f : Aon → Aon} (h : Sound s) : Sound (s.onAon f) := h
theorem onDie_sound {d : Nat} {f : Die → Die} (h : Sound s) : Sound (s.onDie d f) := h
theorem tickFree_sound (h : Sound s) : Sound s.tickFree := h
theorem cut_sound {g : Nat} (h : Sound s) : Sound (s.cut g) := h

/-! ### Folds -/

theorem foldl_sound {α : Type} {f : State → α → State} {l : List α} (hf : ∀ s, Sound s → ∀ x, Sound (f s x))
    (h : Sound s) : Sound (l.foldl f s) :=
  List.foldlRecOn l f h fun s hs x _ => hf s hs x

theorem foldl_fst_sound {α β : Type} {f : State × β → α → State × β} {l : List α} {y : State × β}
    (hf : ∀ y, Sound y.1 → ∀ x, Sound (f y x).1) (h : Sound y.1) : Sound (l.foldl f y).1 :=
  List.foldlRecOn (motive := fun y => Sound y.1) l f h fun y hy x _ => hf y hy x

theorem foldl_wf {α : Type} {f : Ring → α → Ring} {l : List α}
    (hf : ∀ r : Ring, r.spad.wf = true → ∀ x, (f r x).spad.wf = true) (hr : r.spad.wf = true) :
    (l.foldl f r).spad.wf = true :=
  List.foldlRecOn (motive := fun r => r.spad.wf = true) l f hr fun r hr x _ => hf r hr x

theorem foldl_fst_wf {α β : Type} {f : Ring × β → α → Ring × β} {l : List α} {y : Ring × β}
    (hf : ∀ y, y.1.spad.wf = true → ∀ x, (f y x).1.spad.wf = true) (h : y.1.spad.wf = true) :
    (l.foldl f y).1.spad.wf = true :=
  List.foldlRecOn (motive := fun y => y.1.spad.wf = true) l f h fun y hy x _ => hf y hy x

/-! ### The ways to answer with a state -/

theorem kept_next (h : Sound s) : Kept (.next s) := fun t e => by cases e; exact h
theorem kept_refused {r : Refusal} : Kept (.refused r) := fun t e => by cases e
theorem Kept.of_next {o : Host.Outcome State Fault Refusal} (h : Kept o) (e : o = .next t) : Sound t := h t e

theorem soundIfSome_some (h : Sound s) : SoundIfSome (some s) := fun t e => by cases e; exact h
theorem soundIfSome_none : SoundIfSome none := fun t e => by cases e
theorem SoundIfSome.of_some {o : Option State} (h : SoundIfSome o) (e : o = some t) : Sound t := h t e

theorem done_sound (h : Sound s) : (StepEnd.done s).Sound := h
theorem wait_sound (h : Sound s) : (StepEnd.wait s).Sound := h
theorem stop_sound (h : Sound s) : (StepEnd.stop s).Sound := h
theorem StepEnd.Sound.of_done {x : StepEnd} (h : x.Sound) (e : x = .done t) : Machine.Sound t := by subst e; exact h

theorem access_ok_sound {α : Type} {a : α} (h : Sound s) : (Access.ok s a).Sound := h
theorem access_stop_sound {α : Type} (h : Sound s) : (Access.stop s : Access α).Sound := h

theorem Access.Sound.of_ok {α : Type} {x : Access α} {a : α} (h : x.Sound) (e : x = .ok t a) : Machine.Sound t := by
  subst e; exact h

theorem Access.Sound.of_stop {α : Type} {x : Access α} (h : x.Sound) (e : x = .stop t) : Machine.Sound t := by
  subst e; exact h

theorem fetched_pending_sound : Fetched.pending.Sound := trivial
theorem fetched_got_sound {bs : List Byte} (h : Sound s) : (Fetched.got s bs).Sound := h
theorem fetched_stop_sound (h : Sound s) : (Fetched.stop s).Sound := h

theorem Fetched.Sound.of_got {x : Fetched} {bs : List Byte} (h : x.Sound) (e : x = .got t bs) : Machine.Sound t := by
  subst e; exact h

theorem Fetched.Sound.of_stop {x : Fetched} (h : x.Sound) (e : x = .stop t) : Machine.Sound t := by subst e; exact h

theorem part1_ok_wf (h : r.spad.wf = true) : (Part1.ok r).Wf := h
theorem part1_fault_wf {f : FaultRec} (h : r.spad.wf = true) : (Part1.fault r f).Wf := h
theorem part1_poison_wf {cls addr : Nat} (h : r.spad.wf = true) : (Part1.poison r cls addr).Wf := h
theorem part1_hold_wf {c : Nat} : (Part1.hold c).Wf := trivial
theorem Part1.Wf.of_ok {x : Part1} (h : x.Wf) (e : x = .ok r) : r.spad.wf = true := by subst e; exact h

theorem Part1.Wf.of_fault {x : Part1} {f : FaultRec} (h : x.Wf) (e : x = .fault r f) : r.spad.wf = true := by
  subst e; exact h

theorem Part1.Wf.of_poison {x : Part1} {cls addr : Nat} (h : x.Wf) (e : x = .poison r cls addr) :
    r.spad.wf = true := by subst e; exact h

theorem sound_of_pair {α : Type} {p : State × α} {a : α} (h : Sound p.1) (e : p = (t, a)) : Sound t := by
  subst e; exact h

/-! ### Choices -/

section
variable {c : Prop} [Decidable c]

theorem ite_sound {a b : State} (ha : Sound a) (hb : Sound b) : Sound (if c then a else b) := by
  split <;> assumption

/-- The choice between a state and one made of it. -/
theorem ite_self_sound (hf : Sound s → Sound t) (h : Sound s) : Sound (if c then t else s) := ite_sound (hf h) h

theorem ite_wf {a b : Ring} (ha : a.spad.wf = true) (hb : b.spad.wf = true) : (if c then a else b).spad.wf = true := by
  split <;> assumption

theorem kept_ite {a b : Host.Outcome State Fault Refusal} (ha : Kept a) (hb : Kept b) : Kept (if c then a else b) := by
  split <;> assumption

theorem soundIfSome_ite {a b : Option State} (ha : SoundIfSome a) (hb : SoundIfSome b) :
    SoundIfSome (if c then a else b) := by
  split <;> assumption

theorem stepEnd_ite_sound {a b : StepEnd} (ha : a.Sound) (hb : b.Sound) : (if c then a else b).Sound := by
  split <;> assumption

theorem fetched_ite_sound {a b : Fetched} (ha : a.Sound) (hb : b.Sound) : (if c then a else b).Sound := by
  split <;> assumption

theorem part1_ite_wf {a b : Part1} (ha : a.Wf) (hb : b.Wf) : (if c then a else b).Wf := by
  split <;> assumption

end

theorem getD_sound {o : Option State} (ho : SoundIfSome o) (h : Sound s) : Sound (o.getD s) := by
  cases o with
  | none => exact h
  | some t => exact ho t rfl

theorem getD_wf {o : Option Ring} (ho : ∀ t ∈ o, t.spad.wf = true) (h : r.spad.wf = true) :
    (o.getD r).spad.wf = true := by
  cases o with
  | none => exact h
  | some t => exact ho t rfl

theorem soundIfSome_map {o : Option State} {f : State → State} (hf : ∀ s, Sound s → Sound (f s))
    (h : SoundIfSome o) : SoundIfSome (o.map f) := by
  cases o with
  | none => exact soundIfSome_none
  | some t => exact soundIfSome_some (hf t (h t rfl))

theorem elim_sound {α : Type} {o : Option α} {f : α → State} (h : Sound s) (hf : ∀ x, Sound (f x)) :
    Sound (o.elim s f) := by
  cases o with
  | none => exact h
  | some x => exact hf x

end

end Sys2Proof.Machine
end

section
/-!
SUPPORT. What the operations on rings, rows, tiles and the matrix unit leave sound.
-/

namespace Sys2Proof.Machine

open Sys2Proof Sys2Proof.Safety

section
variable {s t : State}

/-! ### Stripes and elements -/

theorem Ring.setStripe_wf {r : Ring} {ps : Nat} {x : Stripe} (h : r.spad.wf = true) :
    (r.setStripe ps x).spad.wf = true :=
  h

theorem Ring.setElem_wf {r : Ring} {ps k : Nat} {e : Element} (h : r.spad.wf = true) :
    (r.setElem ps k e).spad.wf = true :=
  Ring.setStripe_wf h

theorem Ring.onElem_wf {r : Ring} {ps k : Nat} {f : Element → Element} (h : r.spad.wf = true) :
    (r.onElem ps k f).spad.wf = true :=
  Ring.setElem_wf h

/-! ### Scratchpad (R77) -/

theorem Ring.poisonWord_wf {r : Ring} {blk word : Nat} {swz : Bool} {mask : W32} (h : r.spad.wf = true) :
    (r.poisonWord blk word swz mask).spad.wf = true :=
  h

theorem Ring.useBank_wf {r : Ring} {blk word : Nat} {swz : Bool} (h : r.spad.wf = true) :
    (r.useBank blk word swz).spad.wf = true :=
  ite_wf h h

theorem Ring.meetFlaws_wf {r : Ring} {chunk : Nat → Bool} (h : r.spad.wf = true) :
    (r.meetFlaws chunk).spad.wf = true :=
  ite_wf h h

theorem Ring.useBanks_wf {r : Ring} {blk word : Nat} {swz : Bool} {n : Nat} (h : r.spad.wf = true) :
    (r.useBanks blk word swz n).spad.wf = true := by
  induction n generalizing r word with
  | zero => exact h
  | succ n ih => exact ih (Ring.useBank_wf h)

/-! ### Queues (R79 to R82, R228) -/

theorem Ring.setQ_wf {r : Ring} {blk q : Nat} {x : QState} (h : r.spad.wf = true) : (r.setQ blk q x).spad.wf = true :=
  h

theorem Ring.pushWord_wf {r : Ring} {blk q : Nat} {c : QCfg} {v : Vec} {m : QMeta} (h : r.spad.wf = true) :
    (r.pushWord blk q c v m).spad.wf = true :=
  Ring.setQ_wf (Ring.putWord_wf _ _ _ _ _ _ h)

theorem Ring.ask_wf {r : Ring} {cause : Nat} (h : r.spad.wf = true) : (r.ask cause).spad.wf = true := h

theorem Ring.supply_wf {r : Ring} {n : Nat} {a : Vec} {mask : W32} {vis : Nat} (h : r.spad.wf = true) :
    (r.supply n a mask vis).spad.wf = true :=
  ite_wf h (ite_wf (Ring.ask_wf h) h)

/-! ### Events to Eosen and hosts -/

theorem hostDrop_sound {f : Nat} (h : Sound s) : Sound (s.hostDrop f) := onHub_sound h

theorem hostWrite_sound {f pa : Nat} {bs : List Byte} (h : Sound s) : Sound (s.hostWrite f pa bs) :=
  ite_sound (sound_write h (Memory.wf_writeN bs pa h.mem_wf) rfl rfl) (hostDrop_sound h)

theorem busWrite_sound {pa : Nat} {bs : List Byte} (h : Sound s) : Sound (s.busWrite pa bs) :=
  ite_sound (sound_write h (Memory.wf_writeN bs pa h.mem_wf) rfl rfl) (ite_sound (hostWrite_sound h) h)

theorem physWrite_sound {pa : Nat} {bs : List Byte} (h : Sound s) : Sound (s.physWrite pa bs) :=
  sound_record (busWrite_sound h) rfl rfl rfl

theorem raiseMsi_sound {f vec : Nat} (h : Sound s) : Sound (s.raiseMsi f vec) :=
  ite_sound (onHub_sound h) (hostDrop_sound h)

theorem hostEvent_sound {f kind info : Nat} {tag ctx : BitVec 16} (h : Sound s) :
    Sound (s.hostEvent f kind info tag ctx) :=
  ite_sound (onHub_sound h) (onHub_sound (physWrite_sound h))

theorem rasEvent_sound {kind addr info : Nat} {ctx : BitVec 16} {ring stack pos col : Nat} (h : Sound s) :
    Sound (s.rasEvent kind addr info ctx ring stack pos col) :=
  ite_sound (onHub_sound h) (onHub_sound (physWrite_sound h))

theorem ctxHostEvent_sound {g kind info : Nat} (h : Sound s) : Sound (s.ctxHostEvent g kind info) := hostEvent_sound h

/-! ### Taking a fault (R350 to R353) -/

theorem takeFault_sound {g : Nat} {f : FaultRec} (h : Sound s) : Sound (takeFault s g f) :=
  ite_sound (cut_sound h) (ite_sound (onCtx_sound (onRing_sound (fun _ h' => h') (onCtx_sound (cut_sound h))))
    (onCtx_sound (cut_sound h)))

theorem resumeBreak_sound {g : Nat} (h : Sound s) : Sound (resumeBreak s g) :=
  onCtx_sound (onRing_sound (fun _ h' => h') h)

theorem stepOperandFault_sound {g : Nat} (h : Sound s) : Sound (stepOperandFault s g) := takeFault_sound h

theorem barrierFault_sound {g cause name : Nat} (h : Sound s) : Sound (barrierFault s g cause name) :=
  takeFault_sound h

theorem lateFault_sound {g t si : Nat} (h : Sound s) : Sound (lateFault s g t si) := takeFault_sound h

theorem askHold_sound {g cause : Nat} (h : Sound s) : Sound (askHold s g cause) :=
  onRing_sound (fun _ => Ring.ask_wf) h

/-! ### The next state after a step -/

theorem enterState_sound {g target info : Nat} (h : Sound s) : Sound (enterState s g target info) :=
  ite_sound (takeFault_sound h) (onCtx_sound h)

theorem finishStep_sound {g : Nat} {t : Trans} (h : Sound s) : Sound (finishStep s g t) := by
  unfold finishStep
  refine ite_sound h ?_
  cases t with
  | fall => exact enterState_sound h
  | goto cnd target =>
    refine ite_sound (enterState_sound ?_) (enterState_sound h)
    cases cnd with
    | line n => exact ite_sound (onCtx_sound h) h
    | always | kz _ | knz _ | idle _ => exact h

theorem waitStep_sound {g : Nat} {w : Wait} (h : Sound s) : Sound (waitStep s g w) := onCtx_sound h

/-! ### Operands of rows -/

theorem onMe_sound {f : Element → Element} (h : Sound s) : Sound (s.onMe f) := onElem_sound h

theorem consumePoisonAt_sound {g cls at_ : Nat} {f : FaultRec} (h : Sound s) :
    Sound (consumePoisonAt s g cls at_ f) := by
  simp only [consumePoisonAt]
  split
  · exact takeFault_sound (rasEvent_sound h)
  · exact ite_sound (onCtx_sound (rasEvent_sound h)) (onCtx_sound (onCtx_sound (rasEvent_sound h)))

theorem consumePoison_sound {g cls : Nat} {f : FaultRec} (h : Sound s) : Sound (consumePoison s g cls f) :=
  consumePoisonAt_sound h

theorem consumeAtRow_sound {cls addr : Nat} (h : Sound s) : Sound (consumeAtRow s cls addr) := consumePoison_sound h

theorem takeWord_sound {blk q : Nat} (h : Sound s) : (takeWord s blk q).Sound := by
  simp only [takeWord]
  split
  · exact access_stop_sound (askHold_sound h)
  · split
    · exact access_stop_sound (askHold_sound h)
    · split
      · exact access_stop_sound (askHold_sound h)
      · split
        · exact access_stop_sound (consumeAtRow_sound (setRing_sound (Ring.useBank_wf (h.spad_wf _)) h))
        · split
          · exact access_stop_sound (consumeAtRow_sound (setRing_sound (Ring.useBank_wf (h.spad_wf _)) h))
          · exact access_ok_sound (setRing_sound (Ring.setQ_wf (Ring.useBank_wf (h.spad_wf _))) h)

theorem scheduleFault_sound {code : Nat} (h : Sound s) : Sound (scheduleFault s code) := takeFault_sound h

theorem popUp_sound {r : Row} (h : Sound s) : (popUp r s).Sound := by
  simp only [popUp]
  split
  · exact access_ok_sound h
  · split
    · exact access_stop_sound (scheduleFault_sound h)
    · split
      · exact access_stop_sound (scheduleFault_sound h)
      · split
        · exact access_stop_sound ((takeWord_sound h).of_stop ‹_›)
        · exact access_ok_sound (onMe_sound ((takeWord_sound h).of_ok ‹_›))

theorem checkDn_sound {r : Row} (h : Sound s) : (checkDn r s).Sound := by
  simp only [checkDn]
  split
  · split
    · exact access_stop_sound (scheduleFault_sound h)
    · split
      · exact access_stop_sound (scheduleFault_sound h)
      · exact access_ok_sound h
  · exact access_ok_sound h

theorem addPend_sound {ps : List Pend} (h : Sound s) : Sound (addPend s ps) := onMe_sound h

theorem resultRow_kept {i : Instr} {r : Row} {f : State → Vec → RowResult} (h : Sound s) :
    Kept (resultRow i r f s) := by
  simp only [resultRow]
  split
  · exact kept_refused
  · refine kept_ite (kept_next h) ?_
    split
    · exact kept_next ((popUp_sound h).of_stop ‹_›)
    · split
      · exact kept_next ((checkDn_sound ((popUp_sound h).of_ok ‹_›)).of_stop ‹_›)
      · exact kept_next (addPend_sound ((checkDn_sound ((popUp_sound h).of_ok ‹_›)).of_ok ‹_›))

theorem checkedRow_kept {i : Instr} {r : Row} {bad : State → Option Nat} {f : State → Vec → State}
    (hf : ∀ s, Sound s → ∀ up, Sound (f s up)) (h : Sound s) : Kept (checkedRow i r bad f s) := by
  unfold checkedRow
  split
  · exact kept_refused
  · refine kept_ite (kept_next h) ?_
    split
    · exact kept_next (scheduleFault_sound h)
    · split
      next e => exact kept_next ((popUp_sound h).of_stop e)
      next e =>
        have h1 := (popUp_sound h).of_ok e
        exact kept_ite (kept_next h1) (kept_next (hf _ h1 _))

theorem effectRow_kept {i : Instr} {r : Row} {f : State → Vec → State}
    (hf : ∀ s, Sound s → ∀ up, Sound (f s up)) (h : Sound s) : Kept (effectRow i r f s) :=
  checkedRow_kept hf h

/-! ### Tiles -/

theorem Ring.useTile_wf {r : Ring} {t : TileRef} {lo n : Nat} (h : r.spad.wf = true) :
    (r.useTile t lo n).spad.wf = true :=
  ite_wf h (Ring.useBanks_wf h)

theorem tileFault_sound {t : TileRef} {code : Nat} {info : BitVec 32} (h : Sound s) :
    Sound (tileFault s t code info) :=
  takeFault_sound h

/-! ### The MEM rows -/

theorem execSld_kept {r : Row} (h : Sound s) : Kept (execSld r s) := by
  simp only [execSld]
  split
  · exact kept_refused
  · refine kept_ite (kept_next h) ?_
    split
    next e => exact kept_next ((popUp_sound h).of_stop e)
    next e =>
      have hu := (popUp_sound h).of_ok e
      split
      next e => exact kept_next ((checkDn_sound hu).of_stop e)
      next e =>
        have hd {g blk n : Nat} := onRing_sound (g := g) (f := fun x => x.useBank blk n (rowSwz r))
          (fun _ => Ring.useBank_wf) ((checkDn_sound hu).of_ok e)
        exact kept_ite (kept_next (consumeAtRow_sound hd)) (kept_next (addPend_sound hd))

theorem execGadr_kept {r : Row} (h : Sound s) : Kept (execGadr r s) :=
  checkedRow_kept (fun _ h' _ => onRing_sound (fun _ => Ring.supply_wf) h') h

theorem peekQueue_sound {blk q w : Nat} (h : Sound s) : (peekQueue s blk q w).Sound := by
  have bank {b n : Nat} {z : Bool} : Sound (s.setRing s.focus.ring ((s.ring s.focus.ring).useBank b n z)) :=
    setRing_sound (Ring.useBank_wf (h.spad_wf _)) h
  have tile {t u : TileRef} {a b c d : Nat} :
      Sound (s.setRing s.focus.ring (((s.ring s.focus.ring).useTile t a b).useTile u c d)) :=
    setRing_sound (Ring.useTile_wf (Ring.useTile_wf (h.spad_wf _))) h
  simp only [peekQueue]
  split
  · exact access_stop_sound (askHold_sound h)
  · split
    · exact access_stop_sound (askHold_sound h)
    · split
      · exact access_stop_sound (askHold_sound h)
      · split
        · -- an entry of a word queue
          split
          · exact access_stop_sound (scheduleFault_sound h)
          · split
            · exact access_stop_sound (consumeAtRow_sound bank)
            · split
              · exact access_stop_sound (consumeAtRow_sound bank)
              · exact access_ok_sound bank
        · -- a word of a tile
          split
          · exact access_stop_sound (consumeAtRow_sound tile)
          · split
            · exact access_stop_sound (consumeAtRow_sound tile)
            · split
              · exact access_stop_sound (tileFault_sound h)
              · split
                · exact access_stop_sound (consumeAtRow_sound (onMe_sound tile))
                · exact access_ok_sound (onMe_sound tile)

theorem popReserved_sound {blk q : Nat} (h : Sound s) : Sound (popReserved s blk q) :=
  onRing_sound (fun _ => Ring.setQ_wf) h

theorem queueRow_kept {i : Instr} {r : Row} {pop : Bool} (h : Sound s) : Kept (queueRow i r pop s) := by
  simp only [queueRow]
  split
  · exact kept_refused
  · refine kept_ite (kept_next h) ?_
    split
    next e => exact kept_next ((checkDn_sound h).of_stop e)
    next e =>
      have hd := (checkDn_sound h).of_ok e
      split
      next e => exact kept_next ((peekQueue_sound hd).of_stop e)
      next e =>
        have hp := (peekQueue_sound hd).of_ok e
        exact kept_next (addPend_sound (ite_sound (popReserved_sound hp) hp))

theorem execQpush_kept {r : Row} (h : Sound s) : Kept (execQpush r s) := by
  simp only [execQpush]
  refine checkedRow_kept ?_ h
  intro _ h' _
  split
  · exact addPend_sound h'
  · exact h'

theorem qtxRead_wf {r : Ring} {t : TileRef} {e b k : Nat} (h : r.spad.wf = true) :
    (qtxRead r t e b k).1.spad.wf = true :=
  foldl_wf (fun _ h' _ => Ring.useTile_wf h') h

theorem execQtx_kept {r : Row} (h : Sound s) : Kept (execQtx r s) := by
  simp only [execQtx]
  refine effectRow_kept (fun s hs up => ?_) h
  have used {t : TileRef} {a b blk q : Nat} {st : QState} :
      (((s.ring s.focus.ring).useTile t a b).setQ blk q st).spad.wf = true := Ring.setQ_wf (Ring.useTile_wf (hs.spad_wf _))
  have read {t : TileRef} {a b es c d blk q : Nat} {st : QState} :
      ((qtxRead ((s.ring s.focus.ring).useTile t a b) t es c d).1.setQ blk q st).spad.wf = true :=
    Ring.setQ_wf (qtxRead_wf (Ring.useTile_wf (hs.spad_wf _)))
  refine ite_sound (scheduleFault_sound hs) ?_
  split
  · refine ite_sound (scheduleFault_sound hs) ?_
    split
    · exact askHold_sound hs
    · have lost {t : State} (ht : Sound t) {r : Ring} (hr : r.spad.wf = true) {cls a : Nat} :
          Sound (consumeAtRow (t.setRing s.focus.ring r) cls a) := consumeAtRow_sound (setRing_sound hr ht)
      refine ite_sound (askHold_sound hs) (ite_sound (ite_sound (lost hs used) (lost hs used)) ?_)
      split
      · exact tileFault_sound hs
      · exact tileFault_sound hs
      · refine ite_sound (tileFault_sound hs) (ite_sound (tileFault_sound hs) (ite_sound (tileFault_sound hs) ?_))
        have hr {r : Ring} (h : r.spad.wf = true) : Sound (s.setRing s.focus.ring r) := setRing_sound h hs
        exact ite_sound (ite_sound (lost (hr read) used) (lost (hr read) used)) (onMe_sound (hr read))
  · exact askHold_sound hs

/-! ### The matrix unit -/

theorem Ring.noteSus_wf {r : Ring} {ps k bank : Nat} {post : Bool} {cells : List Nat} (h : r.spad.wf = true) :
    (r.noteSus ps k bank post cells).spad.wf = true := by
  simp only [Ring.noteSus]
  split <;> exact h

theorem Ring.landSaved_wf {r : Ring} {ps k : Nat} {late : Bool} {f : Ring → Ring}
    (hf : ∀ r : Ring, r.spad.wf = true → (f r).spad.wf = true) (h : r.spad.wf = true) :
    (r.landSaved ps k late f).spad.wf = true :=
  ite_wf (hf r h) (Ring.onElem_wf (hf _ (Ring.onElem_wf h)))

theorem Ring.addLand_wf {r : Ring} {ps k issued : Nat} {x : Nat × TileLand} (h : r.spad.wf = true) :
    (r.addLand ps k issued x).spad.wf = true :=
  Ring.onElem_wf h

theorem Ring.landTile_wf {ps k : Nat} {r : Ring} {x : Nat × TileLand} (h : r.spad.wf = true) :
    (Ring.landTile ps k r x).spad.wf = true := by
  simp only [Ring.landTile]
  refine Ring.onElem_wf ?_
  split
  · exact Ring.noteSus_wf h
  · exact h

theorem Ring.landTiles_wf {r : Ring} {ps k tc : Nat} (h : r.spad.wf = true) : (r.landTiles ps k tc).spad.wf = true :=
  foldl_wf (fun _ h' _ => Ring.landTile_wf h') (Ring.landSaved_wf (fun _ => foldl_wf
    (fun _ h' _ => Ring.landTile_wf h')) (Ring.onElem_wf h))

/-! ### The matrix sequencer, cycle by cycle -/

theorem useGroup_wf {r : Ring} {t : TileRef} {isA trans : Bool} {g grp : Nat} (h : r.spad.wf = true) :
    (useGroup r t isA trans g grp).spad.wf = true :=
  foldl_wf (fun _ h' _ => Ring.useTile_wf h') h

theorem readOperand_wf {r : Ring} {g ps col : Nat} {o : TileOp} {isA : Bool} (h : r.spad.wf = true) :
    (readOperand r g ps col o isA).Wf := by
  simp only [readOperand]
  split
  · exact part1_hold_wf
  · refine part1_ite_wf (part1_fault_wf h) ?_
    split
    · exact part1_hold_wf
    · refine part1_ite_wf (part1_poison_wf h) ?_
      refine part1_ite_wf (part1_poison_wf h) ?_
      split
      · exact part1_fault_wf h
      · exact part1_ite_wf (part1_poison_wf (useGroup_wf (ite_wf h (Ring.useTile_wf h)))) (part1_ok_wf
          (Ring.onElem_wf (useGroup_wf (ite_wf h (Ring.useTile_wf h)))))

theorem popOperand_wf {r : Ring} {ps : Nat} {x : TileOperand} {last : Bool} (h : r.spad.wf = true) :
    (popOperand r ps x last).1.spad.wf = true := by
  simp only [popOperand]
  split
  · exact Ring.setQ_wf h
  · exact h

theorem formUpdate_wf {r : Ring} {ps col : Nat} {o : TileOp} {rho : Nat} (h : r.spad.wf = true) :
    (formUpdate r ps col o rho).spad.wf = true :=
  Ring.onElem_wf (Ring.addLand_wf (Ring.noteSus_wf h))

theorem openCount_wf {r : Ring} {g ps col : Nat} {o : TileOp} {win : Nat} (h : r.spad.wf = true) :
    (openCount r g ps col o win).Wf :=
  part1_ite_wf (part1_fault_wf h) (part1_ite_wf (part1_ok_wf (Ring.onElem_wf h)) (part1_ok_wf h))

theorem formWindow_wf {r : Ring} {g ps col : Nat} {o : TileOp} {win : Nat} (h : r.spad.wf = true) :
    (formWindow r g ps col o win).Wf :=
  part1_ite_wf (part1_fault_wf h) (part1_ite_wf (part1_fault_wf h) (part1_ite_wf (part1_fault_wf h) (part1_ite_wf
    (part1_fault_wf h) (part1_ite_wf (part1_fault_wf h) (part1_ok_wf (Ring.onElem_wf (foldl_wf
    (fun _ h' _ => Ring.addLand_wf h') h)))))))

theorem tilePop_wf {r : Ring} {ps col : Nat} (h : r.spad.wf = true) : (tilePop r ps col).spad.wf = true := by
  simp only [tilePop]
  split
  · exact h
  · exact ite_wf h (Ring.onElem_wf (popOperand_wf (popOperand_wf h)))

theorem andThen_wf {r0 : Ring} {x : Part1} {f : Ring → Part1} (h0 : r0.spad.wf = true)
    (hf : ∀ r : Ring, r.spad.wf = true → (f r).Wf) (h : x.Wf) : (Part1.andThen r0 x f).Wf := by
  cases x with
  | ok r =>
    have hr := hf r h
    simp only [Part1.andThen]
    cases hx : f r with
    | fault _ _ => exact h0
    | ok _ | hold _ | poison _ _ _ => rw [hx] at hr; exact hr
  | fault _ _ => exact h0
  | hold _ | poison _ _ _ => exact h

theorem takeBack_wf {x : Part1} {ps col : Nat} {u : TileUndo} (h : x.Wf) : (x.takeBack ps col u).Wf := by
  cases x <;> exact h

theorem tileCycle_wf {r : Ring} {g ps col : Nat} (h : r.spad.wf = true) : (tileCycle r g ps col).Wf := by
  simp only [tileCycle]
  split
  · exact part1_ok_wf h
  · refine part1_ite_wf (part1_ok_wf h) ?_
    refine part1_ite_wf (part1_ok_wf h) ?_
    refine part1_ite_wf (andThen_wf h (fun _ h' => part1_ite_wf (openCount_wf h') (part1_ok_wf h'))
      (readOperand_wf h)) ?_
    refine part1_ite_wf ?_ (part1_ite_wf (openCount_wf h) (part1_ite_wf (formWindow_wf h) (part1_ok_wf h)))
    refine takeBack_wf ?_
    refine andThen_wf h ?_ (readOperand_wf h)
    intro _ h'
    split
    · exact part1_ok_wf h'
    · exact part1_ite_wf (part1_ok_wf (formUpdate_wf h')) (formWindow_wf h')

end

end Sys2Proof.Machine
end

section
/-!
SUPPORT. What translation, requests, the scroll, streams, the barrier unit, copies and collectives leave sound.
-/

namespace Sys2Proof.Machine

open Sys2Proof Sys2Proof.Safety

section
variable {s t : State}

/-! ### Windows and the paged walk -/

theorem cacheWalk_sound {d : Nat} {asid : BitVec 10} {va : Nat} {pte : BitVec 64} {level lines : Nat} (h : Sound s) :
    Sound (cacheWalk s d asid va pte level lines) :=
  onDie_sound h

theorem countWalks_sound {d : Nat} {c : Ctx} {va n : Nat} {k : ReqKind} (h : Sound s) :
    Sound (countWalks s d c va n k) := by
  simp only [countWalks]
  refine foldl_sound ?_ h
  intro _ h' _
  split
  · exact ite_sound h' (cacheWalk_sound h')
  · exact h'

/-! ### Contexts by id -/

theorem onCtxId_sound {g : Nat} {id : BitVec 16} {f : Ctx → Ctx} (h : Sound s) : Sound (s.onCtxId g id f) :=
  ite_sound (onCtx_sound h) (sound_record h rfl rfl rfl)

theorem takeFaultFor_sound {g : Nat} {id : BitVec 16} {f : FaultRec} (h : Sound s) : Sound (takeFaultFor s g id f) :=
  ite_sound (takeFault_sound h) (onCtxId_sound h)

/-! ### The fault buffer (R266 to R268) -/

theorem postFault_sound {d g : Nat} {q : Req} {va cause : Nat} {pte : BitVec 64} {level : Nat} (h : Sound s) :
    Sound (postFault s d g q va cause pte level) :=
  ite_sound h (ite_sound (onDie_sound h) (onDie_sound (physWrite_sound h)))

theorem stopParty_sound {q : Req} {st : Option Stop} (h : Sound s) : Sound (stopParty s q st) := onCtxId_sound h

/-! ### Requests -/

theorem setReq_sound {q : Req} (h : Sound s) : Sound (s.setReq q) := sound_record h rfl rfl rfl

theorem dropReq_sound {id : Nat} (h : Sound s) : Sound (s.dropReq id) := sound_record h rfl rfl rfl

theorem translatePart_sound {q : Req} {c : Ctx} {p : Part} (h : Sound s) : Sound (translatePart s q c p).1 := by
  simp only [translatePart]
  split
  · split
    · exact h
    · exact ite_sound h (cacheWalk_sound h)
  · split
    · split <;> exact h
    · split <;> exact tickFree_sound h
  · exact h

theorem translateParts_sound {q : Req} {c : Ctx} {l : List Part} (h : Sound s) : Sound (translateParts s q c l).1 := by
  induction l generalizing s with
  | nil => exact h
  | cons p l ih =>
    have hp := translatePart_sound (q := q) (c := c) (p := p) h
    unfold translateParts
    split
    next e => exact sound_of_pair hp e
    next e =>
      have hl := ih (sound_of_pair hp e)
      split
      next e' => exact sound_of_pair hl e'
      next e' => exact sound_of_pair hl e'

theorem translateReq_sound {id : Nat} (h : Sound s) : Sound (translateReq s id) := by
  simp only [translateReq]
  split
  · exact h
  · split
    · exact h
    · split
      · exact stopParty_sound (setReq_sound (sound_of_pair (translateParts_sound h) ‹_›))
      · exact stopParty_sound (setReq_sound (postFault_sound (sound_of_pair (translateParts_sound h) ‹_›)))

theorem issueReq_sound {g : Nat} {party : Party} {kind : ReqKind} {parts : List Part} {lines : Nat}
    {purpose : Purpose} (h : Sound s) :
    Sound (issueReq s g party kind parts lines purpose) :=
  translateReq_sound (onCtx_sound (sound_record h rfl rfl rfl))

theorem issueReqFor_sound {g : Nat} {ctx : BitVec 16} {party : Party} {kind : ReqKind} {parts : List Part}
    {lines : Nat} {purpose : Purpose} (h : Sound s) :
    Sound (issueReqFor s g ctx party kind parts lines purpose) := by
  simp only [issueReqFor]
  split
  · exact h
  · exact translateReq_sound (onCtxId_sound (sound_record h rfl rfl rfl))

/-! ### Bytes at a translated place -/

theorem unreachable_sound {n : Nat} {write : Bool} (h : Sound s) : Sound (unreachable s n write) :=
  ite_sound (onHub_sound h) (onHub_sound (hostEvent_sound (onHub_sound h)))

theorem fetchPlace_sound {q : Req} {p : Place} {n : Nat} (h : Sound s) : Sound (fetchPlace s q p n).1 := by
  simp only [fetchPlace]
  split
  · split
    · exact unreachable_sound h
    · exact sound_record h rfl rfl rfl
  · split
    · exact unreachable_sound h
    · exact sound_record h rfl rfl rfl
  · exact onRing_sound (fun _ => Ring.meetFlaws_wf) h
  · exact h

theorem writePlace_sound {q : Req} {p : Place} {bs : List Byte} (h : Sound s) : Sound (writePlace s q p bs) := by
  simp only [writePlace]
  split
  · exact busWrite_sound h
  · refine foldl_sound ?_ h
    intro _ h' _
    split
    · exact onRing_sound (fun _ => Ring.spadPut_wf _ _ _ _ _) h'
    · exact busWrite_sound h'
    · exact h'
  · split
    · exact sound_record h rfl rfl rfl
    · exact unreachable_sound h
  · split
    · exact ite_sound h (sound_record h rfl rfl rfl)
    · exact unreachable_sound h
  · exact h

theorem poisonLine_sound {l : Nat} (h : Sound s) : Sound (s.poisonLine l) := ite_sound h (sound_record h rfl rfl rfl)

theorem poisonPlace_sound {q : Req} {p : Place} {n : Nat} (h : Sound s) : Sound (poisonPlace s q p n) := by
  simp only [poisonPlace]
  split
  · exact foldl_sound (fun _ h' _ => poisonLine_sound h') h
  · refine foldl_sound ?_ h
    intro _ h' _
    split
    · exact onRing_sound (fun _ h' => ite_wf h' h') h'
    · exact poisonLine_sound h'
    · exact h'
  · exact h

theorem poisonParts_sound {q : Req} (h : Sound s) : Sound (poisonParts s q) :=
  foldl_sound (fun _ h' _ => poisonPlace_sound h') h

theorem performEffect_sound {q : Req} (h : Sound s) : Sound (performEffect s q) := by
  simp only [performEffect]
  split
  · exact setReq_sound (foldl_fst_sound (fun _ h' _ => fetchPlace_sound h') h)
  · exact setReq_sound (foldl_fst_sound (fun _ h' _ => fetchPlace_sound h') h)
  · exact ite_sound (poisonParts_sound h) (foldl_sound (fun _ h' _ => writePlace_sound h') h)
  · refine ite_sound (poisonParts_sound h) ?_
    split
    · split
      · exact ite_sound (setReq_sound (fetchPlace_sound h)) (setReq_sound (writePlace_sound (fetchPlace_sound h)))
      · exact h
    · refine foldl_sound ?_ h
      intro _ h' _
      refine ite_sound (poisonPlace_sound (fetchPlace_sound h')) ?_
      split
      · exact writePlace_sound (fetchPlace_sound h')
      · exact fetchPlace_sound h'
    · exact h

theorem saveWdp_sound {g : Nat} {id : BitVec 16} (h : Sound s) : Sound (saveWdp s g id) := by
  simp only [saveWdp]
  split
  · exact ite_sound (sound_write h (Memory.wf_writeN _ _ h.mem_wf) rfl rfl) h
  · exact h

theorem performReq_sound {q : Req} {sc : Scope} (h : Sound s) : Sound (performReq s q sc) := by
  unfold performReq
  extract_lets s1 s2 s3
  have h1 : Sound s1 := ite_sound (performEffect_sound (sound_record h rfl rfl rfl)) h
  have h2 : Sound s2 := ite_sound (sound_record h1 rfl rfl rfl) h1
  have h3 : Sound s3 := by
    simp only [s3]
    split
    · exact setReq_sound h2
    · exact h2
  refine ite_sound ?_ (ite_sound (ite_sound (translateReq_sound h) (dropReq_sound h)) ?_)
  · split
    · exact ite_sound (dropReq_sound h) (setReq_sound h)
    · exact dropReq_sound h
  · exact ite_sound (saveWdp_sound (onCtxId_sound h3)) h3

/-! ### Records -/

theorem stopScroll_sound {g va : Nat} (h : Sound s) : Sound (stopScroll s g va) := onCtx_sound (postFault_sound h)

theorem fetchRecord_sound {g n : Nat} (h : Sound s) : Sound (fetchRecord s g n) := by
  simp only [fetchRecord]
  split
  · exact stopScroll_sound h
  · exact onCtx_sound h
  · exact stopScroll_sound h
  · exact onCtx_sound h
  · refine ite_sound (onCtx_sound (countWalks_sound h)) ?_
    split <;> exact onCtx_sound (countWalks_sound h)

theorem execConfigRecordFetch_kept {g vs : Nat} (h : Sound s) : Kept (execConfigRecordFetch g vs s) :=
  kept_ite (kept_next (fetchRecord_sound h)) kept_refused

/-! ### The times of R91 -/

theorem knowTimes_sound {g : Nat} (h : Sound s) : Sound (knowTimes s g) := by
  simp only [knowTimes]
  split
  · split
    · exact onCtx_sound h
    · exact h
  · exact h

/-! ### Arming (R161) -/

theorem armRun_sound {g : Nat} (h : Sound s) : Sound (armRun s g) := by
  simp only [armRun]
  split
  · exact h
  · exact onCtx_sound (onCtx_sound h)

/-! ### Save slots (R94, R122) -/

theorem writeSave_sound {g o : Nat} {bs : List Byte} (h : Sound s) : Sound (writeSave s g o bs) :=
  ite_sound (onRing_sound (fun _ => foldl_wf (fun _ h' _ => Ring.spadPut_wf _ _ _ _ _ h')) h) (issueReq_sound
    (onRing_sound (fun _ => foldl_wf (fun _ h' _ => Ring.spadPut_wf _ _ _ _ _ h')) h))

/-! ### Hoists, strikes and frees -/

theorem hoistFail_sound {g vs ps code page : Nat} (h : Sound s) : Sound (hoistFail s g vs ps code page) :=
  takeFault_sound (onRing_sound (fun _ h' => h') h)

theorem putNote_wf {r : Ring} {ps : Nat} {rc : Rec} {first : Bool} {m : HoistNote} (h : r.spad.wf = true) :
    (putNote r ps rc first m).spad.wf = true :=
  foldl_fst_wf (fun _ h' _ => Ring.onElem_wf (foldl_fst_wf (fun _ h' _ => ite_wf (Ring.onElem_wf
    (Ring.onElem_wf h')) (Ring.onElem_wf h')) h')) h

theorem makeHoist_sound {g : Nat} {r : Run} {x : HoistLog} {rc : Rec} (h : Sound s) : Sound (makeHoist s g r x rc) :=
  onCtx_sound (onRing_sound (fun _ => Ring.setStripe_wf) h)

theorem restoreFails_sound {g : Nat} (h : Sound s) : Sound (restoreFails s g) := by
  simp only [restoreFails]
  split
  · exact hoistFail_sound (onCtx_sound (onRing_sound (fun _ => Ring.setStripe_wf) h))
  · exact h

theorem hoistDone_sound {g : Nat} {x : HoistRun} (h : Sound s) : Sound (hoistDone s g x) := by
  simp only [hoistDone]
  refine onCtx_sound ?_
  split
  · exact onRing_sound (fun _ => putNote_wf) (onRing_sound (fun _ hr => hr) h)
  · exact onRing_sound (fun _ hr => hr) h

theorem hoistCycle_sound {g : Nat} (h : Sound s) : Sound (hoistCycle s g) := by
  simp only [hoistCycle]
  split
  · exact h
  · split
    · exact hoistDone_sound h
    · exact ite_sound h (onCtx_sound h)

theorem hoistEvent_sound {g : Nat} (h : Sound s) : SoundIfSome (hoistEvent s g) := by
  simp only [hoistEvent]
  split
  · refine soundIfSome_ite (soundIfSome_some (hoistFail_sound h)) ?_
    split
    · exact soundIfSome_some (hoistFail_sound h)
    · split
      · exact soundIfSome_some (askHold_sound (onCtx_sound h))
      · exact soundIfSome_some (makeHoist_sound h)
  · exact soundIfSome_none

theorem execHoist_kept {g : Nat} (h : Sound s) : Kept (execHoist g s) := by
  simp only [execHoist]
  split
  · exact kept_next ((hoistEvent_sound (knowTimes_sound h)).of_some ‹_›)
  · exact kept_refused

theorem writeNext_sound {g ps : Nat} (h : Sound s) : Sound (writeNext s g ps) :=
  ite_sound h (onRing_sound (fun _ => Ring.setStripe_wf) (ite_sound h (writeSave_sound h)))

theorem writeCycle_sound {g : Nat} (h : Sound s) : Sound (writeCycle s g) :=
  foldl_sound (fun _ h' _ => writeNext_sound h') h

theorem strikeStripe_sound {g ps : Nat} {o : Occupant} {rc : Rec} (h : Sound s) : Sound (strikeStripe s g ps o rc) :=
  writeNext_sound (onCtx_sound (onRing_sound (fun _ => Ring.setStripe_wf) h))

theorem execStrike_kept {g ps : Nat} (h : Sound s) : Kept (execStrike g ps s) := by
  simp only [execStrike]
  split
  · exact kept_ite (kept_next (strikeStripe_sound h)) kept_refused
  · exact kept_refused

theorem freeStripe_sound {g : Nat} {x : HoistLog} (h : Sound s) : Sound (freeStripe s g x).1 := by
  unfold freeStripe
  extract_lets s1 s2 c
  have h2 : Sound s2 := onCtx_sound (onRing_sound (fun _ hr => ite_wf hr hr) h)
  split
  · exact h2
  · extract_lets w wave s3 s4 whole
    have h4 : Sound s4 := onCtx_sound (ite_self_sound onCtx_sound h2)
    exact ite_self_sound onCtx_sound h4

/-! ### Park (R163) -/

theorem parkRun_sound {g : Nat} (h : Sound s) : Sound (parkRun s g) := by
  simp only [parkRun]
  split
  · exact onCtx_sound (knowTimes_sound h)
  · refine ite_sound (knowTimes_sound h) ?_
    refine onCtx_sound ?_
    refine ite_sound ?_ (knowTimes_sound h)
    refine foldl_sound ?_ (knowTimes_sound h)
    intro _ h' _
    refine onRing_sound ?_ (onCtx_sound h')
    intro _ hr
    split
    · exact ite_wf (Ring.setStripe_wf hr) hr
    · exact hr

/-! ### Descriptors (R167, R168) -/

theorem beginSopen_sound {g si req n vs : Nat} {out : Bool} {q : Nat} {d : StreamDesc} (h : Sound s) :
    Sound (beginSopen s g si req n vs out q d) :=
  ite_sound (takeFault_sound h) (onCtx_sound h)

theorem streamFault_sound {g n code addr : Nat} (h : Sound s) : Sound (streamFault s g n code addr) :=
  takeFault_sound (onCtx_sound h)

/-! ### Input streams -/

theorem issueRead_sound {g n : Nat} (h : Sound s) : SoundIfSome (issueRead s g n) := by
  simp only [issueRead]
  refine soundIfSome_ite ?_ (soundIfSome_some (onCtx_sound (issueReq_sound h)))
  split
  · exact soundIfSome_none
  · split
    · exact soundIfSome_some (streamFault_sound (onCtx_sound h))
    · exact soundIfSome_some (onCtx_sound (issueReq_sound (onCtx_sound h)))

theorem pushInput_sound {g n : Nat} {v : Vec} {lr ls : Bool} {bad : Nat × Nat} (h : Sound s) :
    Sound (pushInput s g n v lr ls bad) := by
  simp only [pushInput]
  split
  · exact h
  · exact ite_sound (onCtx_sound (setRing_sound (Ring.pushWord_wf (h.spad_wf _)) h)) (ite_sound
      (onCtx_sound h) (onCtx_sound (setRing_sound (Ring.setQ_wf (Ring.spadWrite_wf _ _ _ _ _
      (h.spad_wf _))) h)))

theorem deliverInput_sound {g n : Nat} {q : Req} (h : Sound s) : Sound (deliverInput s g n q) := by
  have hd : Sound (s.dropReq q.id) := dropReq_sound h
  have heard {f k : Ctx → Ctx} {v : Vec} {lr ls : Bool} {bad : Nat × Nat} :
      Sound ((pushInput ((s.dropReq q.id).onCtx g f) g n v lr ls bad).onCtx g k) :=
    onCtx_sound (pushInput_sound (onCtx_sound hd))
  simp only [deliverInput]
  exact ite_sound heard (ite_sound (ite_sound (streamFault_sound hd) (ite_sound heard (onCtx_sound hd))) heard)

/-! ### Output streams -/

theorem writeVisit_sound {g n : Nat} {v : Vec} {m : QMeta} {counted : Bool} (h : Sound s) :
    Sound (writeVisit s g n v m counted) := by
  unfold writeVisit
  extract_lets x d k mask addrs what lanes mk addr s1 id s2
  have h1 : Sound s1 := onCtx_sound h
  have h2 : Sound s2 := ite_sound (issueReq_sound h1) (ite_sound (issueReq_sound h1) (issueReq_sound h1))
  refine ite_sound h1 (ite_sound ?_ h2)
  split
  · exact setReq_sound h2
  · exact h2

theorem segmentToMemory_sound {g n kind : Nat} (h : Sound s) : Sound (segmentToMemory s g n kind) := onCtx_sound h

theorem segmentVisit_sound {g n : Nat} (h : Sound s) : Sound (segmentVisit s g n) := by
  simp only [segmentVisit]
  split
  · exact onCtx_sound h
  · split
    · exact streamFault_sound h
    · exact onCtx_sound (writeVisit_sound h)

/-! ### Bridges (R84, R97, R173) -/

theorem receiveSegment_sound {g n : Nat} {x : BitVec 64} {ws : List Vec} (h : Sound s) : Sound (receiveSegment s g n x ws) :=
  ite_sound (streamFault_sound h) (onCtx_sound h)

theorem bridgePush_sound {g n : Nat} (h : Sound s) : Sound (bridgePush s g n) := by
  simp only [bridgePush]
  split
  · exact h
  · exact onCtx_sound (pushInput_sound (onCtx_sound h))

theorem execBridgeSegmentReceive_kept {g n : Nat} {header : SegmentHead} {words : List (BitVec 1024)} (h : Sound s) :
    Kept (execBridgeSegmentReceive g n header words s) :=
  kept_ite kept_refused (kept_ite (kept_next h) (kept_next (receiveSegment_sound h)))

theorem segmentToBridge_sound {g n kind : Nat} (h : Sound s) : Sound (segmentToBridge s g n kind) :=
  ite_sound (ite_sound (unreachable_sound (onCtx_sound h)) (sound_record (onCtx_sound h) rfl rfl rfl)) (ite_sound
    (streamFault_sound (onCtx_sound h)) (ite_sound (pushInput_sound h) (onCtx_sound h)))

theorem bridgeWord_sound {g n : Nat} (h : Sound s) : Sound (bridgeWord s g n) := by
  simp only [bridgeWord]
  split
  · exact onCtx_sound h
  · exact onCtx_sound (onCtx_sound (pushInput_sound h))

theorem sendForeign_sound {g n : Nat} (h : Sound s) : Sound (sendForeign s g n) := issueReq_sound (tickFree_sound h)

theorem sendSegment_sound {g n kind : Nat} (h : Sound s) : Sound (sendSegment s g n kind) :=
  ite_sound (segmentToBridge_sound h) (segmentToMemory_sound h)

theorem visitWord_sound {g n : Nat} {v : Vec} {m : QMeta} (h : Sound s) : Sound (visitWord s g n v m) := by
  simp only [visitWord]
  split
  · exact streamFault_sound h
  · exact onCtx_sound (writeVisit_sound h)

theorem scatterHeld_sound {g n : Nat} (h : Sound s) : Sound (scatterHeld s g n) := by
  simp only [scatterHeld]
  split
  · exact h
  · exact visitWord_sound (onCtx_sound h)

theorem popEntry_sound {g n blk : Nat} {k : QCfg} {pos : Nat} {m : QMeta} (h : Sound s) :
    Sound (popEntry s g n blk k pos m) :=
  onRing_sound (fun _ h' => Ring.setQ_wf (Ring.meetFlaws_wf h')) h

theorem visitAgain_sound {g n : Nat} (h : Sound s) : SoundIfSome (visitAgain s g n) := by
  simp only [visitAgain]
  split
  · exact soundIfSome_none
  · exact soundIfSome_some (onCtx_sound (writeVisit_sound h))
  · split
    · exact soundIfSome_none
    · exact soundIfSome_some (visitWord_sound (onCtx_sound (ite_sound (popEntry_sound h) h)))

theorem popOutput_sound {g n blk : Nat} {k : QCfg} {pos : Nat} {m : QMeta} (h : Sound s) :
    Sound (popOutput s g n blk k pos m) := by
  have hp : Sound (popEntry s g n blk k pos m) := popEntry_sound h
  have hc {f : Ctx → Ctx} : Sound ((popEntry s g n blk k pos m).onCtx g f) := onCtx_sound hp
  simp only [popOutput]
  refine ite_sound ?_ (ite_sound ?_ ?_)
  · exact ite_sound (onCtx_sound hc) (foldl_sound (fun _ h' _ => ite_sound h' (visitWord_sound h')) hc)
  · exact ite_sound (onCtx_sound hc) (ite_sound (visitWord_sound h) (visitWord_sound hc))
  · exact ite_sound (sendSegment_sound h) (ite_sound (sendSegment_sound (onCtx_sound hc)) (onCtx_sound (onCtx_sound hc)))

theorem outputStep_sound {g n : Nat} (h : Sound s) : SoundIfSome (outputStep s g n) := by
  simp only [outputStep]
  refine soundIfSome_ite soundIfSome_none ?_
  refine soundIfSome_ite (soundIfSome_ite (soundIfSome_some (sendForeign_sound h)) soundIfSome_none) ?_
  refine soundIfSome_ite soundIfSome_none ?_
  refine soundIfSome_ite (soundIfSome_ite soundIfSome_none (visitAgain_sound h)) ?_
  refine soundIfSome_ite (soundIfSome_some (bridgeWord_sound h)) ?_
  refine soundIfSome_ite soundIfSome_none ?_
  refine soundIfSome_ite (soundIfSome_ite soundIfSome_none (soundIfSome_some (segmentVisit_sound h))) ?_
  refine soundIfSome_ite (soundIfSome_ite (soundIfSome_some (scatterHeld_sound h)) soundIfSome_none) ?_
  split
  · exact soundIfSome_some (sendSegment_sound h)
  · refine soundIfSome_ite (soundIfSome_ite soundIfSome_none (soundIfSome_some (sendSegment_sound h))) ?_
    split
    · exact soundIfSome_ite soundIfSome_none (soundIfSome_some (popOutput_sound h))
    · split
      · exact soundIfSome_ite (soundIfSome_some (onCtx_sound h)) soundIfSome_none
      · exact soundIfSome_none

theorem replayInput_sound {g n : Nat} {a : AuditLog} (h : Sound s) : SoundIfSome (replayInput s g n a) := by
  simp only [replayInput]
  split
  · exact soundIfSome_none
  · split
    · exact soundIfSome_none
    · exact soundIfSome_ite (soundIfSome_some (onCtx_sound (pushInput_sound (onCtx_sound h)))) soundIfSome_none

theorem inputStep_sound {g n : Nat} (h : Sound s) : SoundIfSome (inputStep s g n) := by
  simp only [inputStep]
  split
  · exact replayInput_sound h
  · refine soundIfSome_ite (soundIfSome_ite (soundIfSome_some (bridgePush_sound h)) soundIfSome_none) ?_
    split
    · exact soundIfSome_ite (soundIfSome_map (fun _ => tickFree_sound) (issueRead_sound h)) (soundIfSome_some
        (deliverInput_sound (tickFree_sound h)))
    · exact soundIfSome_ite (issueRead_sound h) soundIfSome_none

/-! ### Closing (R170, R174) -/

theorem closeStream_sound {g n : Nat} (h : Sound s) : Sound (closeStream s g n) :=
  onCtx_sound (sound_record h rfl rfl rfl)

theorem beginSclose_sound {g n : Nat} {abort : Bool} (h : Sound s) : Sound (beginSclose s g n abort) :=
  ite_sound h (ite_sound (closeStream_sound (onCtx_sound h)) (onCtx_sound h))

theorem streamVisit_sound {g n : Nat} (h : Sound s) : SoundIfSome (streamVisit s g n) :=
  soundIfSome_ite (soundIfSome_some (closeStream_sound h)) (soundIfSome_map (fun _ h' => ite_sound
    (closeStream_sound h') h') (soundIfSome_ite (outputStep_sound h) (inputStep_sound h)))

theorem execStreamVisit_kept {g n : Nat} (h : Sound s) : Kept (execStreamVisit g n s) := by
  simp only [execStreamVisit]
  split
  · exact kept_next ((streamVisit_sound h).of_some ‹_›)
  · exact kept_refused

/-! ### The barrier unit -/

theorem setBarrier_sound {r num : Nat} {b : Barrier} (h : Sound s) : Sound (s.setBarrier r num b) :=
  onRing_sound (fun _ h' => h') h

theorem applyBarrier_sound {g : Nat} {asid : BitVec 10} {name : Nat} {op : BarrierOp} (h : Sound s) :
    Sound (applyBarrier s g asid name op).1 := by
  simp only [applyBarrier]
  split
  · split
    · exact unreachable_sound h
    · exact sound_record (tickFree_sound h) rfl rfl rfl
  · exact sound_record (setBarrier_sound h) rfl rfl rfl

theorem copyBarrierFault_sound {d : ByteDec} {cause : Nat} (h : Sound s) : Sound (copyBarrierFault s d cause) :=
  takeFaultFor_sound h

theorem execBarrierByteDecrement_kept {id bytes : Nat} {poisoned : Bool} (h : Sound s) :
    Kept (execBarrierByteDecrement id bytes poisoned s) := by
  simp only [execBarrierByteDecrement]
  split
  · exact kept_refused
  · exact kept_ite kept_refused (kept_next (ite_sound (applyBarrier_sound (sound_record h rfl rfl rfl))
      (copyBarrierFault_sound (applyBarrier_sound (sound_record h rfl rfl rfl)))))

theorem freeBarriers_sound {g : Nat} {id : BitVec 16} (h : Sound s) : Sound (freeBarriers s g id) :=
  onRing_sound (fun _ h' => h') h

/-! ### Bulk copies -/

theorem beginCopy_sound {g : Nat} {chan : Option Nat} {r : TransferRec} {recAddr req : Nat} (h : Sound s) :
    Sound (beginCopy s g chan r recAddr req) :=
  sound_record h rfl rfl rfl

theorem setCopy_sound {c : Copy} (h : Sound s) : Sound (s.setCopy c) := sound_record h rfl rfl rfl

theorem addDec_sound {ring : Nat} {ctx : BitVec 16} {asid : BitVec 10} {party : Party} {bar bk n : Nat}
    {poison : Bool} (h : Sound s) :
    Sound (addDec s ring ctx asid party bar bk n poison) :=
  sound_record h rfl rfl rfl

theorem copyLanded_sound {c : Copy} {q : Req} {o : Nat} (h : Sound s) : Sound (copyLanded s c q o) := by
  unfold copyLanded
  extract_lets r bs s1 s2 s3 id s4 stack s5
  have h2 : Sound s2 := setCopy_sound (dropReq_sound h)
  have h4 : Sound s4 := issueReqFor_sound (ite_sound (addDec_sound h2) h2)
  have h5 : Sound s5 := rasEvent_sound h4
  refine ite_sound ?_ h4
  split
  · exact setReq_sound h5
  · exact h5

theorem copyStep_sound {id : Nat} (h : Sound s) : SoundIfSome (copyStep s id) := by
  simp only [copyStep]
  split
  · exact soundIfSome_none
  · refine soundIfSome_ite soundIfSome_none ?_
    split
    · split
      · exact soundIfSome_some (copyLanded_sound h)
      · exact soundIfSome_none
    · exact soundIfSome_ite (soundIfSome_some (issueReqFor_sound (setCopy_sound h))) (soundIfSome_ite
        (soundIfSome_some (issueReqFor_sound (setCopy_sound h))) soundIfSome_none)

theorem copyWritePerformed_sound {q : Req} {sc : Scope} (h : Sound s) : Sound (copyWritePerformed s q sc) := by
  unfold copyWritePerformed
  split
  · extract_lets dest old n s1 wide
    have h1 : Sound s1 := by
      refine ite_sound ?_ h
      split
      · exact setCopy_sound h
      · exact h
    exact ite_sound (addDec_sound h1) h1
  · exact h

theorem tokenFall_sound {g : Nat} {id : BitVec 16} {t : Nat} (h : Sound s) : Sound (tokenFall s g id t) := by
  simp only [tokenFall]
  refine ite_sound (onCtx_sound h) ?_
  split
  · exact ite_sound (onRing_sound (fun _ h' => h') h) (onCtxId_sound (sound_write h (Memory.wf_write _ _
      h.mem_wf) rfl rfl))
  · exact onCtxId_sound h

theorem orFlags_sound {g : Nat} {id : BitVec 16} {w : W32} (h : Sound s) : Sound (orFlags s g id w) := by
  simp only [orFlags]
  split
  · exact ite_sound (onRing_sound (fun _ h' => h') h) (sound_write h (Memory.wf_writeN _ _ h.mem_wf) rfl rfl)
  · exact onCtxId_sound h

theorem countCopy_sound {g : Nat} {id : BitVec 16} (h : Sound s) : Sound (countCopy s g id) := by
  unfold countCopy
  extract_lets s1
  have h1 : Sound s1 := onCtxId_sound h
  split
  · exact ite_sound (sound_write h1 (Memory.wf_writeN _ _ h1.mem_wf) rfl rfl) h1
  · exact h1

theorem execCopyComplete_kept {id : Nat} (h : Sound s) : Kept (execCopyComplete id s) := by
  simp only [execCopyComplete]
  split
  · exact kept_refused
  · exact kept_ite (kept_next (countCopy_sound (tokenFall_sound (sound_record h rfl rfl rfl)))) kept_refused

/-! ### Channels (R181) -/

theorem chanFetch_sound {g n : Nat} (h : Sound s) : Sound (chanFetch s g n) := ite_sound h (issueReq_sound h)

theorem beginCopyc_sound {g req n : Nat} {addr : BitVec 64} (h : Sound s) : Sound (beginCopyc s g req n addr) :=
  chanFetch_sound (onCtx_sound h)

theorem beginResume_sound {g si req n : Nat} (h : Sound s) : Sound (beginResume s g si req n) :=
  ite_sound (takeFault_sound h) (chanFetch_sound (onCtx_sound h))

theorem parkChan_sound {g n : Nat} {nullNext : Bool} (h : Sound s) : Sound (parkChan s g n nullNext) := onCtx_sound h

theorem chanBegin_sound {g n : Nat} (h : Sound s) : Sound (chanBegin s g n) :=
  ite_sound (parkChan_sound (beginCopy_sound (onCtx_sound h))) (ite_sound (parkChan_sound (onCtx_sound
    (beginCopy_sound (onCtx_sound h)))) (chanFetch_sound (onCtx_sound (beginCopy_sound (onCtx_sound h)))))

theorem chanRecordGot_sound {g n : Nat} {r : TransferRec} (h : Sound s) : Sound (chanRecordGot s g n r) :=
  ite_sound (ite_sound (parkChan_sound h) (chanFetch_sound (onCtx_sound h))) (ite_sound (parkChan_sound h)
    (ite_sound (takeFault_sound (parkChan_sound h)) (onCtx_sound h)))

theorem chanEvent_sound {g n : Nat} (h : Sound s) : SoundIfSome (chanEvent s g n) := by
  simp only [chanEvent]
  split
  · refine soundIfSome_ite soundIfSome_none ?_
    split
    · exact soundIfSome_ite soundIfSome_none (soundIfSome_ite (soundIfSome_some (consumePoisonAt_sound
        (parkChan_sound (dropReq_sound h)))) (soundIfSome_some (chanRecordGot_sound (dropReq_sound h))))
    · exact soundIfSome_some (chanFetch_sound h)
  · exact soundIfSome_ite (soundIfSome_some (chanBegin_sound h)) soundIfSome_none
  · exact soundIfSome_none

theorem execCopyChannelRecordFetch_kept {g n : Nat} (h : Sound s) : Kept (execCopyChannelRecordFetch g n s) := by
  simp only [execCopyChannelRecordFetch]
  split
  · exact kept_next ((chanEvent_sound h).of_some ‹_›)
  · exact kept_refused

/-! ### Collectives -/

theorem collRelease_sound {c : Coll} (h : Sound s) : Sound (collRelease s c) := tokenFall_sound h

theorem collFault_sound {c : Coll} {cause : Nat} (h : Sound s) : Sound (collFault s c cause) := takeFaultFor_sound h

theorem collFail_sound {c : Coll} {cause : Nat} (h : Sound s) : Sound (collFail s c cause) :=
  collFault_sound (collRelease_sound (sound_record h rfl rfl rfl))

theorem beginColl_sound {g si req : Nat} {d : CollDesc} {rank : Nat} (h : Sound s) :
    Sound (beginColl s g si req d rank) := by
  simp only [beginColl]
  split
  · exact ite_sound (collFail_sound (sound_record (onCtx_sound h) rfl rfl rfl)) (sound_record
      (onCtx_sound h) rfl rfl rfl)
  · exact sound_record (onCtx_sound h) rfl rfl rfl

theorem collMemberEnds_sound {g : Nat} {x : Ctx} (h : Sound s) : Sound (collMemberEnds s g x) :=
  foldl_sound (fun _ h' _ => collFail_sound h') (sound_record (s := List.foldl _ s _)
   (foldl_sound (fun _ h' _ => ite_sound (sound_record h' rfl rfl rfl) h') h) rfl rfl rfl)

theorem execCollectiveStart_kept {group : Nat} (h : Sound s) : Kept (execCollectiveStart group s) := by
  simp only [execCollectiveStart]
  split
  · exact kept_refused
  · exact kept_ite kept_refused (kept_ite kept_refused (kept_ite (kept_next (sound_record h rfl rfl rfl)) (kept_next
      (foldl_sound (fun _ h' _ => collFail_sound h') h))))

theorem collStop_sound {c : Coll} {k : ReqKind} {e : Nat × BitVec 64 × Nat × Nat} (h : Sound s) :
    Sound (collStop s c k e) :=
  postFault_sound (sound_record h rfl rfl rfl)

theorem replayColl_sound {c : Coll} (h : Sound s) : Sound (replayColl s c) := by
  simp only [replayColl]
  split
  · exact h
  · split
    · exact sound_record h rfl rfl rfl
    · exact collStop_sound h

theorem collWalks_sound {c : Coll} {nrank : Nat} (h : Sound s) : Sound (collWalks s c nrank) := by
  simp only [collWalks]
  split
  · exact h
  · exact countWalks_sound (countWalks_sound h)

theorem execCollectiveComplete_kept {group : Nat} (h : Sound s) : Kept (execCollectiveComplete group s) := by
  simp only [execCollectiveComplete]
  split
  · exact kept_refused
  · refine kept_ite kept_refused ?_
    split
    · exact kept_next (collStop_sound h)
    · split
      · exact kept_next (collStop_sound h)
      · refine kept_next ?_
        refine sound_record ?_ rfl rfl rfl
        refine foldl_sound (fun _ h' _ => orFlags_sound (collRelease_sound h')) ?_
        refine foldl_sound (fun _ h' _ => collWalks_sound h') ?_
        refine foldl_sound ?_ h
        intro _ h' _
        split
        · exact ite_sound (foldl_sound (fun _ h' _ => poisonPlace_sound h') h') (foldl_fst_sound
            (fun _ h' _ => writePlace_sound h') h')
        · exact h'

end

end Sys2Proof.Machine
end

section
/-!
SUPPORT. What the steps leave sound: the shared form of a step, and each step that is more than an update of its context.
-/

namespace Sys2Proof.Machine

open Sys2Proof Sys2Proof.Safety

section
variable {s t : State}

/-! ### The form of a step's meaning -/

theorem endStepState_sound {g : Nat} {t : Trans} {x : StepEnd} (h : x.Sound) : Sound (endStepState g t x) := by
  cases x with
  | done s => exact finishStep_sound h
  | wait s | stop s => exact h

theorem stepMeaning_kept {i : Instr} {t : Trans} {f : State → Nat → Option Wait → StepEnd}
    (hf : ∀ s, Sound s → ∀ g w, (f s g w).Sound) (h : Sound s) : Kept (stepMeaning i t f s) := by
  unfold stepMeaning
  split
  · exact kept_refused
  · exact kept_next (endStepState_sound (hf s h _ _))

theorem ctxStep_sound {f : Ctx → Ctx} {g : Nat} {w : Option Wait} (h : Sound s) : (ctxStep f s g w).Sound :=
  done_sound (onCtx_sound h)

/-! ### Commands that begin (R141) -/

theorem resetQueue_wf {r : Ring} {q : Nat} (h : r.spad.wf = true) : (resetQueue r q).spad.wf = true := h

theorem beginQset_sound {g si q base size ent : Nat} (h : Sound s) : Sound (beginQset s g si q base size ent) :=
  ite_sound (takeFault_sound h) (onRing_sound (fun _ hr => hr) h)

theorem beginSbar_sound {g : Nat} {mask : BitVec 32} {scope : Scope} (h : Sound s) :
    Sound (beginSbar s g mask scope) :=
  onCtx_sound h

theorem beginCommand_sound {g si req : Nat} {x0 : Command} (h : Sound s) : Sound (beginCommand s g si req x0) := by
  simp only [beginCommand]
  split
  · exact armRun_sound h
  · exact beginQset_sound h
  · exact beginSopen_sound h
  · exact beginSclose_sound h
  · exact beginSbar_sound h
  · exact getD_sound (copyStep_sound (beginCopy_sound h)) (beginCopy_sound h)
  · exact beginCopyc_sound h
  · exact beginResume_sound h
  · exact beginColl_sound h

theorem execStartCommandBegin_kept {g : Nat} (h : Sound s) : Kept (execStartCommandBegin g s) := by
  simp only [execStartCommandBegin]
  split
  · exact kept_refused
  · exact kept_next (beginCommand_sound (onCtx_sound h))

/-! ### Posting (R108, R141, R142) -/

theorem enterQueue_sound {g : Nat} {st : StartAt} {cmd : Command} (h : Sound s) : Sound (enterQueue s g st cmd) :=
  ite_sound (beginCommand_sound h) (onCtx_sound h)

theorem postAt_sound {g : Nat} {st : StartAt} {cmd : Command} {stage : Nat} {data : BitVec 512} (h : Sound s) :
    (postAt s g st cmd stage data).Sound :=
  stepEnd_ite_sound (done_sound (onCtx_sound h)) (stepEnd_ite_sound (stop_sound (lateFault_sound h))
    (stepEnd_ite_sound (wait_sound (waitStep_sound h)) (done_sound (enterQueue_sound h))))

theorem issueCommand_sound {g : Nat} {l : Option LongForm} {w : Option Wait} {cmd : Command} {stage : Nat}
    {data : BitVec 512} (h : Sound s) :
    (issueCommand s g l w cmd stage data).Sound := by
  simp only [issueCommand]
  split
  · exact done_sound (beginCommand_sound h)
  · split
    · exact postAt_sound h
    · split
      · exact stop_sound (stepOperandFault_sound h)
      · exact postAt_sound h
      · exact stepEnd_ite_sound (stop_sound (takeFault_sound h)) (postAt_sound h)

theorem execStartCycleResolved_kept {g n : Nat} (h : Sound s) : Kept (execStartCycleResolved g n s) := by
  simp only [execStartCycleResolved]
  split
  · exact kept_refused
  · split
    · exact kept_refused
    · split
      · exact kept_ite (kept_next (lateFault_sound (onCtx_sound h))) (kept_next (onCtx_sound h))
      · exact kept_refused

/-! ### Reads that a step waits for -/

theorem takenReq_sound {q : Req} (h : Sound s) : Sound (takenReq s q) := ite_sound (setReq_sound h) (dropReq_sound h)

theorem takeRead_sound {g id : Nat} (h : Sound s) : (takeRead s g id).Sound := by
  simp only [takeRead]
  split
  · exact fetched_pending_sound
  · exact fetched_ite_sound fetched_pending_sound (fetched_ite_sound (fetched_stop_sound (consumePoison_sound
      (takenReq_sound h))) (fetched_got_sound (takenReq_sound h)))

theorem sendRead_sound {g a n : Nat} {p : Purpose} (h : Sound s) : Sound (sendRead s g a n p).1 := issueReq_sound h

/-! ### The control steps -/

theorem execGo_kept {target : BitVec 12} (h : Sound s) : Kept (execGo target s) := by
  simp only [execGo]
  exact stepMeaning_kept (fun _ h' _ _ => stop_sound (enterState_sound h')) h

theorem goIndirectStep_sound {a : Fin 16} {g : Nat} {w : Option Wait} (h : Sound s) :
    (goIndirectStep a s g w).Sound :=
  stepEnd_ite_sound (stop_sound (takeFault_sound h)) (stop_sound (enterState_sound h))

theorem execGoIndirect_kept {a : Fin 16} (h : Sound s) : Kept (execGoIndirect a s) := by
  simp only [execGoIndirect]
  exact stepMeaning_kept (fun _ h' _ _ => goIndirectStep_sound h') h

theorem callStep_sound {target : BitVec 12} {g : Nat} {w : Option Wait} (h : Sound s) :
    (callStep target s g w).Sound :=
  stepEnd_ite_sound (stop_sound (takeFault_sound h)) (stop_sound (enterState_sound (onCtx_sound h)))

theorem execCall_kept {target : BitVec 12} (h : Sound s) : Kept (execCall target s) := by
  simp only [execCall]
  exact stepMeaning_kept (fun _ h' _ _ => callStep_sound h') h

theorem retStep_sound {g : Nat} {w : Option Wait} (h : Sound s) : (retStep s g w).Sound := by
  simp only [retStep]
  split
  · exact stop_sound (takeFault_sound h)
  · exact stop_sound (enterState_sound (onCtx_sound h))

theorem execRet_kept (h : Sound s) : Kept (execRet s) := by
  simp only [execRet]
  exact stepMeaning_kept (fun _ h' _ _ => retStep_sound h') h

theorem endingState_sound {g : Nat} {status : BitVec 16} (h : Sound s) : Sound (endingState s g status) :=
  foldl_sound (fun _ h' _ => beginSclose_sound h') (onCtx_sound h)

theorem execEndStep_kept {status : BitVec 16} (h : Sound s) : Kept (execEndStep status s) := by
  simp only [execEndStep]
  exact stepMeaning_kept (fun _ h' _ _ => stop_sound (endingState_sound h')) h

theorem waittStep_sound {mask : BitVec 8} {g : Nat} {w : Option Wait} (h : Sound s) : (waittStep mask s g w).Sound :=
  stepEnd_ite_sound (done_sound h) (wait_sound (waitStep_sound h))

theorem waitsStep_sound {mask : BitVec 16} {all : Bool} {g : Nat} {w : Option Wait} (h : Sound s) :
    (waitsStep mask all s g w).Sound :=
  stepEnd_ite_sound (done_sound h) (wait_sound (waitStep_sound h))

theorem execStepTrap_kept {code : BitVec 16} (h : Sound s) : Kept (execStepTrap code s) := by
  simp only [execStepTrap]
  exact stepMeaning_kept (fun _ h' _ _ => stop_sound (takeFault_sound h')) h

theorem stepBrkStep_sound {code : BitVec 16} {g : Nat} {w : Option Wait} (h : Sound s) :
    (stepBrkStep code s g w).Sound :=
  stepEnd_ite_sound (stop_sound (takeFault_sound h)) (done_sound h)

theorem yieldStep_sound {g : Nat} {w : Option Wait} (h : Sound s) : (yieldStep s g w).Sound := by
  simp only [yieldStep]
  split
  · exact done_sound (onCtx_sound h)
  · exact wait_sound (waitStep_sound (onCtx_sound h))

theorem sysStep_sound {svc : BitVec 16} {g : Nat} {w : Option Wait} (h : Sound s) : (sysStep svc s g w).Sound := by
  simp only [sysStep]
  split
  · exact done_sound (onCtx_sound h)
  · exact stepEnd_ite_sound (done_sound (onCtx_sound h)) (wait_sound (waitStep_sound h))
  · exact wait_sound (waitStep_sound (onCtx_sound h))

/-! ### Counter and address steps, `ald` and `ast` -/

theorem counterStep_sound {f : BitVec 48 → BitVec 48 → BitVec 48} {d a : Fin 16} {y : KOperand} {x1 : Nat}
    {x2 : Option Wait} (h : Sound s) :
    (counterStep f d a y s x1 x2).Sound :=
  ctxStep_sound h

/-! ### Memory of the sequencer (R158) -/

theorem alignFault_sound {g : Nat} {x : BitVec 64} {kind : Nat} (h : Sound s) : Sound (alignFault s g x kind) :=
  takeFault_sound h

theorem aldStep_sound {d : SReg} {a : Fin 16} {sz : AccessSize} {off : BitVec 20} {g : Nat} {w : Option Wait}
    (h : Sound s) :
    (aldStep d a sz off s g w).Sound := by
  simp only [aldStep]
  refine stepEnd_ite_sound (stepEnd_ite_sound (stop_sound (alignFault_sound h)) (stepEnd_ite_sound (wait_sound
    (waitStep_sound h)) (wait_sound (waitStep_sound (sendRead_sound h))))) ?_
  split
  · exact wait_sound h
  · exact stop_sound ((takeRead_sound h).of_stop ‹_›)
  · exact done_sound (onCtx_sound ((takeRead_sound h).of_got ‹_›))

theorem astStep_sound {b : SReg} {a : Fin 16} {wide : Bool} {off : BitVec 20} {g : Nat} {w : Option Wait}
    (h : Sound s) :
    (astStep b a wide off s g w).Sound :=
  stepEnd_ite_sound (stop_sound (alignFault_sound h)) (stepEnd_ite_sound (wait_sound (waitStep_sound h)) (done_sound
    (issueReq_sound h)))

/-! ### Steps that command streams, copies and collectives -/

theorem readingStep_sound {a : Fin 16} {f : State → BitVec 512 → Wait → StepEnd} {g : Nat} {w : Option Wait}
    (hf : ∀ s, Sound s → ∀ d w, (f s d w).Sound) (h : Sound s) : (readingStep a f s g w).Sound := by
  unfold readingStep
  simp only
  split
  · exact stepEnd_ite_sound (stop_sound (stepOperandFault_sound h)) (stepEnd_ite_sound (wait_sound (waitStep_sound h))
      (wait_sound (waitStep_sound (sendRead_sound h))))
  · split
    · exact wait_sound h
    next e => exact stop_sound ((takeRead_sound h).of_stop e)
    next e => exact hf _ ((takeRead_sound h).of_got e) _ _
  · exact hf s h _ _

theorem sopenStep_sound {n : Fin 32} {vs : BitVec 10} {out : Bool} {q a : Fin 16} {l : Option LongForm} {g : Nat}
    {w : Option Wait} (h : Sound s) :
    (sopenStep n vs out q a l s g w).Sound :=
  readingStep_sound (fun _ h' _ _ => stepEnd_ite_sound (stop_sound (stepOperandFault_sound h')) (stepEnd_ite_sound
    (stop_sound (takeFault_sound h')) (issueCommand_sound h'))) h

theorem scloseStep_sound {n : Fin 32} {abort wait : Bool} {l : Option LongForm} {g : Nat} {w : Option Wait}
    (h : Sound s) :
    (scloseStep n abort wait l s g w).Sound := by
  simp only [scloseStep]
  refine stepEnd_ite_sound (stepEnd_ite_sound (wait_sound (waitStep_sound h)) (done_sound h)) ?_
  split
  · exact stepEnd_ite_sound (wait_sound (waitStep_sound ((issueCommand_sound h).of_done ‹_›))) (done_sound
      ((issueCommand_sound h).of_done ‹_›))
  · exact issueCommand_sound h

theorem placeStep_sound {g : Nat} {l : Option LongForm} {tok : Nat} {cmd : Command} {w : Wait} (h : Sound s) :
    (placeStep g l tok cmd s w).Sound := by
  simp only [placeStep]
  refine stepEnd_ite_sound (wait_sound (waitStep_sound h)) ?_
  split
  · exact done_sound ((issueCommand_sound (onCtx_sound h)).of_done ‹_›)
  · exact issueCommand_sound h

theorem copyStepMeaning_sound {a : Fin 16} {l : Option LongForm} {g : Nat} {w : Option Wait} (h : Sound s) :
    (copyStepMeaning a l s g w).Sound :=
  readingStep_sound (fun _ h' _ _ => stepEnd_ite_sound (stop_sound (stepOperandFault_sound h'))
    (placeStep_sound h')) h

theorem copycStep_sound {n a : Fin 16} {l : Option LongForm} {g : Nat} {w : Option Wait} (h : Sound s) :
    (copycStep n a l s g w).Sound :=
  stepEnd_ite_sound (stop_sound (stepOperandFault_sound h)) (stepEnd_ite_sound (wait_sound (waitStep_sound h))
    (issueCommand_sound h))

theorem copycResumeStep_sound {n : Fin 16} {l : Option LongForm} {g : Nat} {w : Option Wait} (h : Sound s) :
    (copycResumeStep n l s g w).Sound :=
  stepEnd_ite_sound (wait_sound (waitStep_sound h)) (issueCommand_sound h)

theorem collStep_sound {a : Fin 16} {l : Option LongForm} {g : Nat} {w : Option Wait} (h : Sound s) :
    (collStep a l s g w).Sound := by
  simp only [collStep]
  refine readingStep_sound ?_ h
  intro _ h' _ _
  refine stepEnd_ite_sound (stop_sound (stepOperandFault_sound h')) ?_
  refine stepEnd_ite_sound (stop_sound (barrierFault_sound h')) ?_
  split
  · exact stop_sound (barrierFault_sound h')
  · exact stepEnd_ite_sound (stop_sound (stepOperandFault_sound h')) (stepEnd_ite_sound (stop_sound
      (barrierFault_sound h')) (placeStep_sound h'))

/-! ### The SYS rows -/

theorem writeSlot_sound {g n : Nat} {d : BitVec 24} {place : Option Nat} (h : Sound s) :
    Sound (writeSlot s g n d place) :=
  onCtx_sound h

/-! ### The kernel steps -/

theorem addRun_sound {g first nv w b ksel : Nat} (h : Sound s) : Sound (addRun s g first nv w b ksel) := onCtx_sound h

theorem runStep_sound {first nvm1 : BitVec 10} {kw : Fin 16} {kb : Option (Fin 16)} {ksel : Fin 16}
    {l : Option LongForm} {g : Nat} {w : Option Wait} (h : Sound s) :
    (runStep first nvm1 kw kb ksel l s g w).Sound := by
  simp only [runStep]
  refine stepEnd_ite_sound (wait_sound (waitStep_sound h)) ?_
  split
  · exact stop_sound (stepOperandFault_sound h)
  · split
    · exact done_sound (armRun_sound (addRun_sound h))
    · split
      · exact done_sound (ite_sound (addRun_sound ((issueCommand_sound h).of_done ‹_›)) (armRun_sound (addRun_sound
          ((issueCommand_sound h).of_done ‹_›))))
      · exact issueCommand_sound h

theorem parkStep_sound {wait : Bool} {g : Nat} {w : Option Wait} (h : Sound s) : (parkStep wait s g w).Sound :=
  stepEnd_ite_sound (wait_sound (waitStep_sound (ite_sound (parkRun_sound h) h))) (done_sound (ite_sound
    (parkRun_sound h) h))

theorem qsetStep_sound {q kb : Fin 16} {szm1 : BitVec 14} {ent : BitVec 11} {l : Option LongForm} {g : Nat}
    {w : Option Wait} (h : Sound s) :
    (qsetStep q kb szm1 ent l s g w).Sound :=
  stepEnd_ite_sound (stop_sound (stepOperandFault_sound h)) (issueCommand_sound h)

/-! ### The tile steps and the MACC rows -/

theorem reserveOperand_sound {q : QName} {pop reps : Nat} {pen : BitVec 16} {trans : Bool} (h : Sound s) :
    Sound (reserveOperand s q pop reps pen trans).1 :=
  onRing_sound (fun _ => Ring.setQ_wf) h

theorem startTile_sound {r : TileRow} {kind : Nat} (h : Sound s) : Sound (startTile r kind s) := by
  simp only [startTile]
  exact onMe_sound (reserveOperand_sound (reserveOperand_sound h))

theorem tileNow_sound {s0 : State} (h0 : Sound s0) (h : Sound s) : Sound (tileNow s0 s) := by
  unfold tileNow
  have hc := tileCycle_wf (g := s.focus.ring) (ps := s.focus.ps) (col := s.focus.col) (h.spad_wf s.focus.ring)
  simp only
  split
  next e => exact setRing_sound (hc.of_ok e) h
  · exact askHold_sound h0
  · exact takeFault_sound h0
  next e => exact consumeAtRow_sound (setRing_sound (hc.of_poison e) h)

theorem finishTile_sound (h : Sound s) : Sound (finishTile s) := onRing_sound (fun _ => tilePop_wf) h

theorem tileRowExec_kept {i : Instr} {r : TileRow} {kind : Nat} (h : Sound s) : Kept (tileRowExec i r kind s) := by
  simp only [tileRowExec]
  split
  · exact kept_refused
  · exact kept_ite (kept_next h) (kept_ite (kept_next (scheduleFault_sound h)) (kept_next (tileNow_sound h
      (startTile_sound (finishTile_sound h)))))

theorem openFrom_sound {res since till : Nat} (h : Sound s) : Sound (openFrom s res since till) := onMe_sound h

theorem openWindow_sound {res till : Nat} (h : Sound s) : Sound (openWindow s res till) := openFrom_sound h

theorem maccRow_kept {i : Instr} {r : Row} {res : Nat} {f : State → Vec → State}
    (hf : ∀ s, Sound s → ∀ up, Sound (f s up)) (h : Sound s) : Kept (maccRow i r res f s) :=
  checkedRow_kept hf h

theorem cmergeEffect_sound {r : Row} (h : Sound s) : Sound (cmergeEffect r s) := by
  simp only [cmergeEffect]
  refine ite_sound (scheduleFault_sound h) ?_
  refine ite_sound (scheduleFault_sound h) ?_
  refine ite_sound (scheduleFault_sound h) ?_
  refine onMe_sound ?_
  refine openWindow_sound ?_
  refine ite_sound ?_ ?_
  · refine openFrom_sound ?_
    split
    · exact onElem_sound h
    · exact h
  · split
    · exact onElem_sound h
    · exact h

theorem xopWord_wf {r : Ring} {ps : Nat} {o : XOp} {k : Nat} (h : r.spad.wf = true) :
    (xopWord r ps o k).1.spad.wf = true :=
  Ring.useBank_wf h

theorem xaLoad_sound {r : Row} {kind : Nat} {up : Vec} (h : Sound s) : Sound (xaLoad r kind s up) :=
  ite_sound (consumeAtRow_sound (setRing_sound (xopWord_wf (h.spad_wf _)) h)) (onMe_sound (openWindow_sound
    (setRing_sound (xopWord_wf (h.spad_wf _)) h)))

/-! ### Barriers -/

theorem binitStep_sound {b c : Fin 16} {scope : Scope} {g : Nat} {w : Option Wait} (h : Sound s) :
    (binitStep b c scope s g w).Sound := by
  simp only [binitStep]
  split
  · exact stop_sound (stepOperandFault_sound h)
  · exact stepEnd_ite_sound (stop_sound (stepOperandFault_sound h)) (stepEnd_ite_sound (stop_sound
      (barrierFault_sound h)) (stepEnd_ite_sound (stop_sound (barrierFault_sound h)) (stepEnd_ite_sound (stop_sound
      (barrierFault_sound h)) (done_sound (setBarrier_sound (sound_record h rfl rfl rfl))))))

theorem barrStep_sound {b : Fin 16} {g : Nat} {w : Option Wait} (h : Sound s) : (barrStep b s g w).Sound := by
  simp only [barrStep]
  split
  · exact stop_sound (stepOperandFault_sound h)
  · refine stepEnd_ite_sound (stepEnd_ite_sound (wait_sound (waitStep_sound h)) (wait_sound (waitStep_sound
      (onCtx_sound h)))) ?_
    split
    · exact wait_sound h
    · exact stepEnd_ite_sound (done_sound (onCtx_sound h)) (stop_sound (barrierFault_sound (onCtx_sound h)))

theorem execBarrierArrival_kept {g : Nat} (h : Sound s) : Kept (execBarrierArrival g s) := by
  simp only [execBarrierArrival]
  split
  · exact kept_ite (kept_next (onCtx_sound (applyBarrier_sound h))) kept_refused
  · exact kept_refused

theorem bexpStep_sound {b n : Fin 16} {outb : Bool} {g : Nat} {w : Option Wait} (h : Sound s) :
    (bexpStep b n outb s g w).Sound := by
  simp only [bexpStep]
  split
  · exact stop_sound (stepOperandFault_sound h)
  · refine stepEnd_ite_sound (stop_sound (stepOperandFault_sound h)) ?_
    refine stepEnd_ite_sound (stepEnd_ite_sound (done_sound (applyBarrier_sound h)) (stop_sound (barrierFault_sound
      (applyBarrier_sound h)))) ?_
    refine stepEnd_ite_sound (wait_sound (waitStep_sound (onCtx_sound h))) ?_
    split
    · exact wait_sound h
    · exact stepEnd_ite_sound (done_sound (onCtx_sound h)) (stop_sound (barrierFault_sound (onCtx_sound h)))

theorem expectArrives_sound {g : Nat} (h : Sound s) : SoundIfSome (expectArrives s g) := by
  simp only [expectArrives]
  split
  · exact soundIfSome_ite (soundIfSome_some (onCtx_sound (applyBarrier_sound h))) soundIfSome_none
  · exact soundIfSome_none

theorem bwaitStep_sound {b g' : Fin 16} {g : Nat} {w : Option Wait} (h : Sound s) : (bwaitStep b g' s g w).Sound := by
  simp only [bwaitStep]
  split
  · exact stop_sound (stepOperandFault_sound h)
  · exact stepEnd_ite_sound (stop_sound (barrierFault_sound h)) (stepEnd_ite_sound (stop_sound
      (barrierFault_sound h)) (stepEnd_ite_sound (stop_sound (barrierFault_sound h)) (stepEnd_ite_sound (wait_sound
      (waitStep_sound h)) (stepEnd_ite_sound (stepEnd_ite_sound (stop_sound (barrierFault_sound h)) (stop_sound
      (consumePoison_sound h))) (done_sound h)))))

/-! ### Handoff (R298 to R301) -/

theorem setHandoff_sound {n : Nat} {q : HQueue} (h : Sound s) : Sound (s.setHandoff n q) := onHub_sound h

theorem hpostStep_sound {q : Fin 16} {src : SReg} {g : Nat} {w : Option Wait} (h : Sound s) :
    (hpostStep q src s g w).Sound :=
  stepEnd_ite_sound (stop_sound (stepOperandFault_sound h)) (stepEnd_ite_sound (stop_sound (barrierFault_sound h))
    (stepEnd_ite_sound (wait_sound (waitStep_sound h)) (done_sound (setHandoff_sound h))))

theorem htakeStep_sound {d : SReg} {q : Fin 16} {g : Nat} {w : Option Wait} (h : Sound s) :
    (htakeStep d q s g w).Sound := by
  simp only [htakeStep]
  refine stepEnd_ite_sound (stop_sound (stepOperandFault_sound h)) ?_
  refine stepEnd_ite_sound (stop_sound (barrierFault_sound h)) ?_
  split
  · exact wait_sound (waitStep_sound (setHandoff_sound h))
  · exact stepEnd_ite_sound (stop_sound (barrierFault_sound (setHandoff_sound h))) (stepEnd_ite_sound (done_sound
      (onCtx_sound (setHandoff_sound h))) (wait_sound (waitStep_sound (setHandoff_sound h))))

theorem onTask_sound {n : Nat} {f : Task → Task} (h : Sound s) : Sound (s.onTask n f) := onHub_sound h

theorem trigStep_sound {g : Nat} {w : Option Wait} (h : Sound s) : (trigStep s g w).Sound :=
  stepEnd_ite_sound (done_sound h) (done_sound (onTask_sound (onCtx_sound h)))

/-! ### Fences and atomics -/

theorem fenceStep_sound {kind : FenceKind} {scope : Scope} {g : Nat} {w : Option Wait} (h : Sound s) :
    (fenceStep kind scope s g w).Sound := by
  simp only [fenceStep]
  refine stepEnd_ite_sound ?_ ?_
  · refine wait_sound ?_
    refine waitStep_sound ?_
    split
    · exact onCtx_sound h
    · exact h
  · refine done_sound ?_
    refine onCtx_sound ?_
    split
    · exact onCtx_sound h
    · exact h

theorem atomStep_sound {op : AtomOp} {wide : Bool} {d : SReg} {a : Fin 16} {b c : SReg} {off : BitVec 14} {g : Nat}
    {w : Option Wait} (h : Sound s) :
    (atomStep op wide d a b c off s g w).Sound := by
  simp only [atomStep]
  refine stepEnd_ite_sound (stepEnd_ite_sound (stop_sound (alignFault_sound h)) (stepEnd_ite_sound (wait_sound
    (waitStep_sound h)) (wait_sound (waitStep_sound (issueReq_sound h))))) ?_
  split
  · exact wait_sound h
  · refine stepEnd_ite_sound ?_ (wait_sound h)
    split
    · exact wait_sound h
    · exact stop_sound ((takeRead_sound h).of_stop ‹_›)
    · exact done_sound (onCtx_sound ((takeRead_sound h).of_got ‹_›))

/-! ### Containment and system steps -/

theorem cnopenStep_sound {region : BitVec 8} {hnd : BitVec 12} {m : Fin 16} {g : Nat} {w : Option Wait}
    (h : Sound s) :
    (cnopenStep region hnd m s g w).Sound :=
  stepEnd_ite_sound (stop_sound (stepOperandFault_sound h)) (done_sound (onCtx_sound h))

theorem cncloseStep_sound {region : BitVec 8} {g : Nat} {w : Option Wait} (h : Sound s) :
    (cncloseStep region s g w).Sound := by
  simp only [cncloseStep]
  split
  · exact stop_sound (stepOperandFault_sound h)
  · exact stepEnd_ite_sound (stop_sound (stepOperandFault_sound h)) (stepEnd_ite_sound (wait_sound
      (waitStep_sound h)) (done_sound (onCtx_sound h)))

theorem Ring.clearFlags_wf {r : Ring} (h : r.spad.wf = true) : r.clearFlags.spad.wf = true := h

/-! ### Steps that wait (R136) -/

theorem waitingStep_sound {i : Instr} {t : Trans} {f : State → Nat → Option Wait → StepEnd} {g : Nat} {w : Option Wait}
    (e : waitingStep i = some (t, f)) (h : Sound s) : (f s g w).Sound := by
  cases i <;> simp only [waitingStep, reduceCtorEq, Option.some.injEq, Prod.mk.injEq] at e <;> obtain ⟨-, rfl⟩ := e
  case waitt => exact waittStep_sound h
  case waits => exact waitsStep_sound h
  case yield => exact yieldStep_sound h
  case sys => exact sysStep_sound h
  case run => exact runStep_sound h
  case park => exact parkStep_sound h
  case ald => exact aldStep_sound h
  case ast => exact astStep_sound h
  case qset => exact qsetStep_sound h
  case sopen => exact sopenStep_sound h
  case sclose => exact scloseStep_sound h
  case sbar => exact issueCommand_sound h
  case copy => exact copyStepMeaning_sound h
  case copyc => exact copycStep_sound h
  case copycResume => exact copycResumeStep_sound h
  case barr => exact barrStep_sound h
  case bexp => exact bexpStep_sound h
  case bwait => exact bwaitStep_sound h
  case hpost => exact hpostStep_sound h
  case htake => exact htakeStep_sound h
  case fence => exact fenceStep_sound h
  case atom => exact atomStep_sound h
  case coll => exact collStep_sound h
  case cnclose => exact cncloseStep_sound h

theorem execStepWaitComplete_kept {g : Nat} (h : Sound s) : Kept (execStepWaitComplete g s) := by
  unfold execStepWaitComplete
  simp only
  split
  · split
    next e => exact kept_next (endStepState_sound (waitingStep_sound e h))
    · exact kept_refused
  · exact kept_refused

end

end Sys2Proof.Machine
end

section
/-!
SUPPORT. What the events of memory, queues, tasks, the halyard and contexts leave sound.
-/

namespace Sys2Proof.Machine

open Sys2Proof Sys2Proof.Safety

section
variable {s t : State}

/-! ### The events of the memory system -/

theorem dropFinished_sound {id : Nat} (h : Sound s) : Sound (dropFinished s id) := by
  simp only [dropFinished]
  split
  · exact ite_sound (dropReq_sound h) h
  · exact h

theorem performAccess_sound {q : Req} {sc : Scope} (h : Sound s) : Sound (performAccess s q sc) :=
  ite_sound (performReq_sound h) (dropFinished_sound (performReq_sound (copyWritePerformed_sound h)))

theorem execMemoryAccessPerformed_kept {req : Nat} {scope : Scope} (h : Sound s) :
    Kept (execMemoryAccessPerformed req scope s) := by
  simp only [execMemoryAccessPerformed]
  split
  · exact kept_refused
  · exact kept_ite (kept_next (performAccess_sound h)) kept_refused

theorem execStaleRefusalReplay_kept {req : Nat} (h : Sound s) : Kept (execStaleRefusalReplay req s) := by
  simp only [execStaleRefusalReplay]
  split
  · exact kept_refused
  · exact kept_ite kept_refused (kept_ite (kept_next (translateReq_sound h)) (kept_next (dropReq_sound h)))

/-! ### The fault buffer -/

theorem replayStops_sound {f : Req → Bool} (h : Sound s) : Sound (replayStops s f) :=
  foldl_sound (fun _ h' _ => translateReq_sound h') h

theorem replayEngines_sound {d : Nat} (h : Sound s) : Sound (replayEngines s d) := by
  simp only [replayEngines]
  refine foldl_sound (fun _ h' _ => replayColl_sound h') ?_
  refine foldl_sound ?_ h
  intro _ h' _
  split
  · exact ite_sound (postFault_sound h') h'
  · exact h'

theorem execFaultBufferFlush_kept {die : Nat} (h : Sound s) : Kept (execFaultBufferFlush die s) :=
  kept_next (onDie_sound h)

theorem execFlushComplete_kept {die : Nat} (h : Sound s) : Kept (execFlushComplete die s) :=
  kept_ite (kept_next (replayEngines_sound (replayStops_sound (onDie_sound h)))) kept_refused

theorem execFbstatOvfClear_kept {die : Nat} (h : Sound s) : Kept (execFbstatOvfClear die s) :=
  kept_next (onDie_sound h)

/-! ### Shoot-downs (R261) -/

theorem execShootDown_kept {value : BitVec 64} (h : Sound s) : Kept (execShootDown value s) :=
  kept_ite (kept_next h) (kept_next (foldl_sound (fun _ h' _ => onDie_sound h') (onHub_sound h)))

theorem execShootDownComplete_kept (h : Sound s) : Kept (execShootDownComplete s) :=
  kept_ite (kept_next (onHub_sound h)) kept_refused

/-! ### Generation bumps (R273) -/

theorem bumpRegion_sound {asid : BitVec 10} {r : Nat} (h : Sound s) : Sound (bumpRegion s asid r) :=
  foldl_sound (fun _ h' _ => physWrite_sound h') (onHub_sound h)

theorem startBump_sound {v : BitVec 64} (h : Sound s) : Sound (startBump s v) :=
  foldl_sound (fun _ h' _ => bumpRegion_sound h') (onHub_sound h)

theorem execGenerationBump_kept {value : BitVec 64} (h : Sound s) : Kept (execGenerationBump value s) :=
  kept_ite (kept_next h) (kept_next (startBump_sound h))

theorem nextBump_sound (h : Sound s) : Sound (nextBump s) := by
  simp only [nextBump]
  refine ite_sound h ?_
  split
  · exact startBump_sound h
  · exact h

theorem queueBump_sound {asid : BitVec 10} {mask : Nat} {f : Option Nat} {own : List (Nat × BitVec 16)}
    (h : Sound s) :
    Sound (queueBump s asid mask f own) :=
  nextBump_sound (onHub_sound h)

theorem returnVersions_sound {v : BitVec 64} (h : Sound s) : Sound (returnVersions s v) := ite_sound (onHub_sound h) h

theorem bumpCleared_sound {v : BitVec 64} (h : Sound s) : Sound (bumpCleared s v) := by
  simp only [bumpCleared]
  split
  · exact h
  · exact ite_sound (foldl_sound (fun _ h' _ => freeBarriers_sound h') (onHub_sound h)) h

theorem execGenerationBumpComplete_kept (h : Sound s) : Kept (execGenerationBumpComplete s) :=
  kept_ite kept_refused (kept_next (nextBump_sound (returnVersions_sound (bumpCleared_sound (onHub_sound
    (sound_record h rfl rfl rfl))))))

/-! ### Queues (R323, R379) -/

theorem execSubmissionDoorbell_kept {f q : Nat} {tail : BitVec 16} (h : Sound s) :
    Kept (execSubmissionDoorbell f q tail s) :=
  kept_ite (kept_next (hostEvent_sound h)) (kept_next (onHub_sound h))

theorem execCompletionQueueHeadWrite_kept {f q : Nat} {head : BitVec 16} (h : Sound s) :
    Kept (execCompletionQueueHeadWrite f q head s) :=
  kept_ite (kept_next h) (kept_next (onHub_sound h))

theorem execHandoffQueueConfig_kept {n : Nat} {value : BitVec 64} (h : Sound s) :
    Kept (execHandoffQueueConfig n value s) :=
  kept_next (setHandoff_sound h)

/-! ### The task table (R328) -/

theorem freeTask_sound {n : Nat} {t : Task} (h : Sound s) : Sound (freeTask s n t) :=
  ite_sound (onHub_sound h) (queueBump_sound (onHub_sound h))

theorem completeTask_sound {n : Nat} {t : Task} (h : Sound s) : Sound (completeTask s n t) :=
  ite_sound (freeTask_sound h) (freeTask_sound (ite_sound (raiseMsi_sound (onHub_sound (physWrite_sound h)))
    (onHub_sound (physWrite_sound h))))

theorem endTask_sound {n res fclass : Nat} {ctx : BitVec 16} {frec : BitVec 64} {status : BitVec 16} (h : Sound s) :
    Sound (endTask s n res fclass ctx frec status) := by
  simp only [endTask]
  split
  · exact ite_sound (completeTask_sound (onTask_sound h)) (onTask_sound h)
  · exact onTask_sound h

theorem execCompletionRecordDeferredWrite_kept {q : Nat} (h : Sound s) :
    Kept (execCompletionRecordDeferredWrite q s) := by
  simp only [execCompletionRecordDeferredWrite]
  split
  · exact kept_next (completeTask_sound h)
  · exact kept_refused

/-! ### The signatures of the auditor (R365, R366, R369) -/

theorem countAudit_sound {n : Nat} (h : Sound s) : Sound (countAudit s n) := onHub_sound h

theorem signLog_sound {c : Ctx} {slot : Nat} {a : AuditLog} (h : Sound s) : Sound (signLog s c slot a) :=
  ite_sound (countAudit_sound (onHub_sound h)) (onHub_sound (physWrite_sound h))

theorem signLogsOf_sound {g : Nat} {c : Ctx} (h : Sound s) : Sound (signLogsOf s g c) :=
  foldl_sound (fun _ h' _ => signLog_sound h') h

/-! ### Contexts that leave for good (R272, R274, R288, R301, R345, R352) -/

theorem unclaim_sound {id : BitVec 16} (h : Sound s) : Sound (unclaim s id) := onHub_sound h

theorem leaveRing_sound {g : Nat} (h : Sound s) : Sound (leaveRing s g) := onRing_sound (fun _ h' => h') h

theorem leaveKilled_sound {g : Nat} (h : Sound s) : Sound (leaveKilled s g) :=
  ite_sound (onRing_sound (fun _ h' => h') h) (leaveRing_sound h)

theorem dropKilled_sound {g : Nat} {id : BitVec 16} (h : Sound s) : Sound (dropKilled s g id) :=
  sound_record h rfl rfl rfl

theorem killContext_sound {g : Nat} {id : BitVec 16} {f : Option Nat} (h : Sound s) : Sound (killContext s g id f) := by
  unfold killContext
  split
  · exact h
  next c _ =>
    extract_lets live s1 s2 s3 s4 s5 mask
    have h1 : Sound s1 := signLogsOf_sound h
    have h2 : Sound s2 := ite_sound (leaveKilled_sound (onCtx_sound h1)) (sound_record h1 rfl rfl rfl)
    have h3 : Sound s3 := dropKilled_sound (sound_record h2 rfl rfl rfl)
    have h4 : Sound s4 := onRing_sound (fun _ hr => hr) h3
    have h5 : Sound s5 := onHub_sound (collMemberEnds_sound (unclaim_sound h4))
    exact ite_sound (freeBarriers_sound h5) (queueBump_sound h5)

theorem killMember_sound {n m : Nat} {f : Option Nat} (h : Sound s) : Sound (killMember s n m f) := by
  simp only [killMember]
  split
  · refine killContext_sound ?_
    split
    · exact ite_sound (killContext_sound h) (onRing_sound (fun _ h' => h') h)
    · exact h
  · split
    · exact ite_sound (killContext_sound h) (onRing_sound (fun _ h' => h') h)
    · exact h

theorem killMembers_sound {n count : Nat} {f : Option Nat} (h : Sound s) : Sound (killMembers s n count f) :=
  foldl_sound (fun _ h' _ => killMember_sound h') h

theorem stopTask_sound {n res fclass : Nat} {ctx : BitVec 16} {frec : BitVec 64} {status : BitVec 16} (h : Sound s) :
    Sound (stopTask s n res fclass ctx frec status) := by
  simp only [stopTask]
  split
  · exact h
  · exact ite_sound h (endTask_sound (killMembers_sound h))

theorem noteSaved_sound {n : Nat} (h : Sound s) : Sound (noteSaved s n) := by
  simp only [noteSaved]
  split
  · exact ite_sound (onHub_sound (onTask_sound h)) h
  · exact h

theorem memberEnds_sound {n m res : Nat} {status : BitVec 16} (h : Sound s) :
    Sound (memberEnds s n m res status) := by
  simp only [memberEnds]
  split
  · exact onTask_sound h
  · exact ite_sound (endTask_sound (onTask_sound h)) (noteSaved_sound (onTask_sound h))

/-! ### The end of a context (R147) -/

theorem retireContext_sound {g res : Nat} {status : BitVec 16} (h : Sound s) : Sound (retireContext s g res status) :=
  memberEnds_sound (collMemberEnds_sound (unclaim_sound (freeBarriers_sound (leaveRing_sound (onCtx_sound
    (signLogsOf_sound h))))))

theorem endsNow_sound {g : Nat} (h : Sound s) : SoundIfSome (endsNow s g) := by
  simp only [endsNow]
  split
  · exact soundIfSome_ite (soundIfSome_some (retireContext_sound h)) soundIfSome_none
  · exact soundIfSome_none

theorem stopFromOutside_sound {n : Nat} {f : State → Task → State} (hf : ∀ s, Sound s → ∀ t, Sound (f s t))
    (h : Sound s) :
    Sound (stopFromOutside s n f) := by
  unfold stopFromOutside
  split
  · exact h
  next t _ =>
    have h1 : Sound ((List.range t.count).foldl (fun s m => ((memberSlot s n m).bind fun g => endsNow s g).getD s) s) :=
      foldl_sound (fun s hs m => getD_sound (fun t ht => by
        obtain ⟨g, _, hg⟩ := Option.bind_eq_some_iff.1 ht
        exact endsNow_sound hs t hg) hs) h
    simp only
    split
    next u _ => exact ite_sound (hf _ h1 u) h1
    · exact h1

/-! ### Accepting an entry (R324 to R326, R328) -/

theorem registerImages_sound {asid : BitVec 10} {l : List (BitVec 512)} {i : Nat} (h : Sound s) :
    Sound (registerImages s asid l i).1 := by
  induction l generalizing s i with
  | nil => exact h
  | cons m l ih =>
    unfold registerImages
    simp only
    split
    · exact ih h
    · split
      · exact h
      · split
        · exact h
        · exact ih (onHub_sound h)

theorem mapFrom_wf {va leaf : Nat} {pg : Nat → Nat} {n level t : Nat} {m : Memory} (h : m.wf = true) :
    (mapFrom va leaf pg n level t m).wf = true := by
  induction n generalizing level t m with
  | zero => exact h
  | succ n ih =>
    simp only [mapFrom]
    split
    · split
      · exact h
      · exact Memory.wf_writeN _ _ h
    · split
      · exact ih (Memory.wf_writeN _ _ (Memory.wf_writeN _ _ h))
      · split
        · exact h
        · exact ih h

theorem mapVersion_sound {asid : BitVec 10} {u n : Nat} (h : Sound s) : Sound (mapVersion s asid u n) :=
  foldl_sound (fun _ h' _ => foldl_sound
    (fun _ hs _ => ite_sound (sound_write hs (mapFrom_wf hs.mem_wf) rfl rfl) hs) (sound_record h' rfl rfl rfl)) h

theorem shareVersion_sound {own asid : BitVec 10} {u n : Nat} (h : Sound s) : Sound (shareVersion s own asid u n) := by
  refine ite_sound h (foldl_sound (fun _ h' _ => foldl_sound (fun t ht d => ?_) (sound_record h' rfl rfl rfl)) (onHub_sound h))
  simp only
  split
  · exact ite_sound (sound_write ht (mapFrom_wf ht.mem_wf) rfl rfl) ht
  · exact ht

theorem renameRanges_sound {q order : Nat} {asid : BitVec 10} {rs : List Range} {l : List (Range × Nat)} {ws : List Rename}
    {ds : List Dep} (h : Sound s) : Sound (renameRanges q order asid rs l s ws ds).1 := by
  induction l generalizing s ws ds with
  | nil => exact h
  | cons x l ih =>
    unfold renameRanges
    simp only
    split
    · exact ih (mapVersion_sound (onHub_sound h))
    · split
      · split
        · exact ih (shareVersion_sound h)
        · exact ih h
      · exact ih h

theorem wakeTask_sound {n : Nat} (h : Sound s) : Sound (wakeTask s n) := by
  simp only [wakeTask]
  split
  · exact ite_sound (onHub_sound (onTask_sound h)) h
  · exact h

theorem acceptTask_sound {n q order : Nat} {e : SubEntry} (h : Sound s) : Sound (acceptTask s n q order e) := by
  simp only [acceptTask]
  split
  · refine ite_sound (endTask_sound h) ?_
    split
    · exact endTask_sound (sound_of_pair (registerImages_sound (onTask_sound (tickFree_sound h))) ‹_›)
    · exact wakeTask_sound (onTask_sound (renameRanges_sound (sound_of_pair (registerImages_sound (onTask_sound
        (tickFree_sound h))) ‹_›)))
  · exact endTask_sound h

theorem execTaskEntry_kept {q : Nat} (h : Sound s) : Kept (execTaskEntry q s) := by
  unfold execTaskEntry
  split
  · exact kept_refused
  · refine kept_ite kept_refused (kept_ite (kept_next (endTask_sound (onHub_sound h))) (kept_ite ?_ ?_))
    · exact kept_next (acceptTask_sound (onHub_sound h))
    · exact kept_next (onTask_sound (onHub_sound h))

theorem execQueueFence_kept {task : Nat} (h : Sound s) : Kept (execQueueFence task s) := by
  simp only [execQueueFence]
  split
  · exact kept_refused
  · exact kept_ite (kept_next (endTask_sound h)) kept_refused

theorem execKill_kept {task : Nat} (h : Sound s) : Kept (execKill task s) := by
  simp only [execKill]
  split
  · exact kept_refused
  · refine kept_ite kept_refused ?_
    refine kept_next ?_
    refine endTask_sound ?_
    split
    · exact ite_sound h (stopFromOutside_sound (fun _ h' _ => stopTask_sound h') h)
    · exact h

theorem releaseDeps_sound {n dep : Nat} {f : Dep → Bool} (h : Sound s) : Sound (releaseDeps s n dep f) :=
  wakeTask_sound (onTask_sound h)

theorem execDependenceRelease_kept {task dep : Nat} (h : Sound s) : Kept (execDependenceRelease task dep s) := by
  simp only [execDependenceRelease]
  split
  · exact kept_refused
  · exact kept_ite (kept_next (releaseDeps_sound h)) kept_refused

theorem execTriggerRelease_kept {task dep : Nat} (h : Sound s) : Kept (execTriggerRelease task dep s) := by
  simp only [execTriggerRelease]
  split
  · exact kept_ite (kept_next (releaseDeps_sound h)) kept_refused
  · exact kept_refused

/-! ### The footprint copy (R343) -/

theorem saveWord_sound {g : Nat} {e : RemapEntry} {w : Nat} (h : Sound s) : Sound (saveWord s g e w) :=
  foldl_sound (fun _ h' _ => poisonLine_sound h') (busWrite_sound h)

theorem restoreWord_sound {g : Nat} {e : RemapEntry} {w : Nat} (h : Sound s) : Sound (restoreWord s g e w) := by
  simp only [restoreWord]
  refine onRing_sound ?_ h
  intro r hr
  dsimp only
  exact Memory.wf_writeN _ _ hr

theorem setFront_sound {g i : Nat} {e : RemapEntry} {n : Nat} (h : Sound s) : Sound (setFront s g i e n) :=
  onRing_sound (fun _ h' => h') h

theorem saveCycle_sound {g : Nat} (h : Sound s) : Sound (saveCycle s g) := by
  simp only [saveCycle]
  split
  · exact ite_sound h (ite_sound (setFront_sound (foldl_sound (fun _ h' _ => saveWord_sound h') (onRing_sound
      (fun _ h' => h') h))) (onRing_sound (fun _ h' => h') h))
  · exact ite_sound h (ite_sound (setFront_sound (foldl_sound (fun _ h' _ => restoreWord_sound h') (onRing_sound
      (fun _ h' => h') h))) (onRing_sound (fun _ h' => h') h))
  · exact h

/-! ### A save (R341) -/

theorem endReplay_sound {g : Nat} (h : Sound s) : Sound (endReplay s g) :=
  ite_sound h (onRing_sound (fun _ h' => h') h)

theorem requestSave_sound {g : Nat} (h : Sound s) : Sound (requestSave s g) := by
  simp only [requestSave]
  refine ite_sound h ?_
  refine ite_sound (endReplay_sound h) ?_
  split
  · exact ctxHostEvent_sound h
  · exact onRing_sound (fun _ h' => h') h

theorem execHalyardSave_kept {g : Nat} (h : Sound s) : Kept (execHalyardSave g s) := kept_next (requestSave_sound h)

theorem Ring.putBack_wf {r : Ring} {blk q lead : Nat} {ws : List (Vec × QMeta)} (h : r.spad.wf = true) :
    ∀ t ∈ r.putBack blk q lead ws, t.spad.wf = true := by
  intro t ht
  unfold Ring.putBack at ht
  split at ht
  · cases ht
  · simp only at ht
    split at ht
    · cases ht
    · obtain rfl := Option.some.inj ht
      exact Ring.setQ_wf (foldl_wf (fun r hr x => ite_wf (Ring.poisonWord_wf (Ring.spadWrite_wf _ _ _ _ _ hr))
        (Ring.spadWrite_wf _ _ _ _ _ hr)) h)

theorem rewindStopped_sound {g n : Nat} (h : Sound s) : Sound (rewindStopped s g n) := by
  unfold rewindStopped
  simp only
  split
  · refine onCtx_sound (sound_record (setRing_sound (getD_wf ?_ (h.spad_wf g)) h) rfl rfl rfl)
    intro r hr
    split at hr
    · obtain rfl := Option.some.inj hr
      exact h.spad_wf g
    · split at hr
      · exact Ring.putBack_wf (h.spad_wf g) r hr
      · cases hr
  · exact h

theorem dropStepReads_sound {g : Nat} (h : Sound s) : Sound (dropStepReads s g) := sound_record h rfl rfl rfl

theorem gatherFlags_sound {g : Nat} (h : Sound s) : Sound (gatherFlags s g) :=
  onCtx_sound (onRing_sound (fun _ h' => h') h)

theorem openSave_sound {g i : Nat} (h : Sound s) : Sound (openSave s g i) := by
  unfold openSave
  extract_lets s1 c b e s2 s3
  have h1 : Sound s1 := gatherFlags_sound (dropStepReads_sound (foldl_sound (fun _ hs _ => rewindStopped_sound hs) h))
  have h2 : Sound s2 := sound_write h1 (Memory.wf_writeN _ _ h1.mem_wf) rfl rfl
  exact onCtx_sound (onRing_sound (fun _ hr => hr) (ite_self_sound ctxHostEvent_sound h2))

theorem advanceSave_sound {g : Nat} (h : Sound s) : Sound (advanceSave s g) := by
  simp only [advanceSave]
  split
  · exact ite_sound (ite_sound (openSave_sound h) h) (ite_sound (onRing_sound (fun _ h' => h') h) h)
  · exact h

theorem faultEnds_sound {g : Nat} {c : Ctx} {f : FaultRec} (h : Sound s) : Sound (faultEnds s g c f) :=
  killContext_sound (stopTask_sound (physWrite_sound h))

theorem execHalyardSaveComplete_kept {g : Nat} (h : Sound s) : Kept (execHalyardSaveComplete g s) := by
  unfold execHalyardSaveComplete
  extract_lets r c
  split
  · extract_lets e s1 s2
    have h1 : Sound s1 := sound_write h (Memory.wf_writeN _ _ h.mem_wf) rfl rfl
    have h2 : Sound s2 := onRing_sound (fun _ hr => hr) h1
    split
    · exact kept_next (faultEnds_sound h2)
    · exact kept_next (noteSaved_sound (leaveRing_sound (sound_record h2 rfl rfl rfl)))
  · exact kept_refused

theorem execFaultSave_kept {g : Nat} (h : Sound s) : Kept (execFaultSave g s) := by
  simp only [execFaultSave]
  split
  · refine kept_next ?_
    split
    · exact faultEnds_sound h
    · exact h
  · exact kept_ite (kept_ite (kept_next (onRing_sound (fun _ h' => h') h)) kept_refused) (kept_next h)

/-! ### A restore (R347) -/

theorem execHalyardRestoreComplete_kept {g : Nat} (h : Sound s) : Kept (execHalyardRestoreComplete g s) := by
  simp only [execHalyardRestoreComplete]
  split
  · exact kept_next (foldl_sound (fun _ h' _ => replayColl_sound h') (replayStops_sound (onRing_sound
      (fun _ h' => h') (sound_record h rfl rfl rfl))))
  · exact kept_refused

/-! ### Bind records (R333, R334) -/

theorem releaseSlot_sound {g : Nat} (h : Sound s) : Sound (releaseSlot s g) :=
  ite_sound (onRing_sound (fun _ h' => h') h) h

theorem execSlotRelease_kept {g : Nat} (h : Sound s) : Kept (execSlotRelease g s) := kept_next (releaseSlot_sound h)

theorem execBindRecordWrite_kept {g : Nat} {rc : BitVec 512} (h : Sound s) : Kept (execBindRecordWrite g rc s) :=
  kept_ite (kept_next (releaseSlot_sound h)) (kept_ite (kept_next h) (kept_next (onTask_sound (onRing_sound
    (fun _ h' => h') h))))

/-! ### Dispatch (R335, R336) -/

theorem freshRing_wf {r : Ring} {b : BindRecord} {keep : Bool} (h : r.spad.wf = true) :
    (freshRing r b keep).spad.wf = true := by
  cases keep with
  | false => rfl
  | true => exact Memory.wf_filter _ h

theorem loadImage_sound {g : Nat} (h : Sound s) : Sound (loadImage s g) :=
  onCtx_sound (foldl_sound (fun _ h' _ => countWalks_sound h') h)

theorem startContext_sound {g : Nat} {wins : List Rename} (h : Sound s) : Sound (startContext s g wins) :=
  onHub_sound (onRing_sound (fun _ h' => h') h)

theorem startRestore_sound {g i : Nat} {e : RemapEntry} (h : Sound s) : Sound (startRestore s g i e) :=
  onRing_sound (fun _ h' => h') h

theorem dispatchSlot_sound {n : Nat} {wins : List Rename} {g : Nat} (h : Sound s) : Sound (dispatchSlot s n wins g) := by
  unfold dispatchSlot
  extract_lets b res s1 code refused
  have h1 : Sound s1 := loadImage_sound (onRing_sound (fun _ => freshRing_wf) h)
  have hr {v : Nat} : Sound (refused s1 v) := onRing_sound (fun _ hr => hr) h1
  refine ite_sound (stopTask_sound hr) (ite_sound ?_ ?_)
  · split
    · exact startRestore_sound h1
    · exact h1
  · split
    · exact stopScroll_sound h1
    · exact ite_sound (stopTask_sound hr) (startContext_sound h1)

theorem execGangDispatch_kept {task : Nat} (h : Sound s) : Kept (execGangDispatch task s) := by
  simp only [execGangDispatch]
  split
  · exact kept_refused
  · exact kept_ite kept_refused (kept_next (foldl_sound (fun _ h' _ => ite_sound (dispatchSlot_sound h') h') h))

/-! ### The end of a context (R147) -/

theorem execContextEnd_kept {g : Nat} (h : Sound s) : Kept (execContextEnd g s) := by
  simp only [execContextEnd]
  split
  · exact kept_next ((endsNow_sound h).of_some ‹_›)
  · exact kept_refused

/-! ### Drains (R348, R349) -/

theorem beginDrain_sound {g : Nat} (h : Sound s) : Sound (beginDrain s g) :=
  ite_sound (endReplay_sound h) (onCtx_sound (ite_sound (parkRun_sound (onCtx_sound (onRing_sound
    (fun _ h' => h') h))) (onCtx_sound (onRing_sound (fun _ h' => h') h))))

theorem execDrain_kept {g : Nat} (h : Sound s) : Kept (execDrain g s) :=
  kept_ite (kept_next h) (kept_next (beginDrain_sound h))

theorem execDrainQuiescence_kept {g : Nat} (h : Sound s) : Kept (execDrainQuiescence g s) :=
  kept_ite (kept_next (retireContext_sound (physWrite_sound h))) kept_refused

/-! ### The debugger (R400) -/

theorem execDebugResume_kept {g : Nat} (h : Sound s) : Kept (execDebugResume g s) := by
  simp only [execDebugResume]
  refine kept_ite (kept_next h) ?_
  split
  · exact kept_next (finishStep_sound (resumeBreak_sound h))
  · exact kept_next (resumeBreak_sound h)

theorem execDebugKill_kept {g : Nat} (h : Sound s) : Kept (execDebugKill g s) :=
  kept_ite (kept_next h) (kept_next (onCtx_sound (onRing_sound (fun _ h' => h') h)))

/-! ### Members and the rings that may take them (R333, R336, R337) -/

theorem loadedAt_sound {b : BindRecord} {g : Nat} (h : Sound s) : Sound (loadedAt s b g) :=
  loadImage_sound (onRing_sound (fun _ => freshRing_wf) h)

/-! ### Watchdog and quantum (R337, R340) -/

theorem execWatchdogExpiry_kept {g : Nat} (h : Sound s) : Kept (execWatchdogExpiry g s) :=
  kept_ite (kept_next (takeFault_sound h)) kept_refused

theorem execQuantumExpiry_kept {g : Nat} (h : Sound s) : Kept (execQuantumExpiry g s) :=
  kept_ite (kept_next (ite_sound (requestSave_sound (onCtx_sound h)) (onCtx_sound h))) kept_refused

/-! ### Faults that Eosen handles (R270) -/

theorem execFaultholdExpiry_kept {g issuer : Nat} (h : Sound s) : Kept (execFaultholdExpiry g issuer s) :=
  kept_ite (kept_next (ite_sound (requestSave_sound h) h)) kept_refused

theorem execUnservicedFaultEnd_kept {die : Nat} {ctx : BitVec 16} (h : Sound s) :
    Kept (execUnservicedFaultEnd die ctx s) := by
  simp only [execUnservicedFaultEnd]
  split
  · exact kept_refused
  · split
    · exact kept_refused
    · exact kept_ite kept_refused (kept_ite (kept_next (takeFault_sound h)) (kept_next (faultEnds_sound h)))

/-! ### Answers (R151, R338) -/

theorem execYieldDecision_kept {g : Nat} (h : Sound s) : Kept (execYieldDecision g s) := by
  simp only [execYieldDecision]
  split
  · exact kept_ite (kept_next (onCtx_sound (requestSave_sound (finishStep_sound h)))) (kept_next (onCtx_sound h))
  · exact kept_refused

theorem answerSys_kept {svc g : Nat} {f : State → State} (hf : ∀ s, Sound s → Sound (f s)) (h : Sound s) :
    Kept (answerSys svc g f s) := by
  unfold answerSys
  split
  · exact kept_ite (kept_next (onCtx_sound (hf s h))) kept_refused
  · exact kept_refused

theorem setK0_sound {g : Nat} {v : Int} (h : Sound s) : Sound (setK0 s g v) := onCtx_sound h

theorem execSysPing_kept {g : Nat} (h : Sound s) : Kept (execSysPing g s) := answerSys_kept (fun _ => setK0_sound) h

theorem execSysHostev_kept {g : Nat} (h : Sound s) : Kept (execSysHostev g s) :=
  answerSys_kept (fun _ h' => setK0_sound (ctxHostEvent_sound h')) h

theorem execSysSetpri_kept {g : Nat} (h : Sound s) : Kept (execSysSetpri g s) :=
  answerSys_kept (fun _ h' => ite_sound (setK0_sound (onTask_sound h')) (setK0_sound h')) h

theorem execSysThandler_kept {g : Nat} (h : Sound s) : Kept (execSysThandler g s) :=
  answerSys_kept (fun _ h' => ite_sound (setK0_sound (onCtx_sound h')) (ite_sound (setK0_sound h') (setK0_sound
    (onCtx_sound h')))) h

theorem execSysQuantum_kept {g : Nat} (h : Sound s) : Kept (execSysQuantum g s) :=
  answerSys_kept (fun _ h' => ite_sound (setK0_sound (tickFree_sound h')) (setK0_sound h')) h

end

end Sys2Proof.Machine
end

section
/-!
SUPPORT. What the events of containment, reliability, hosts and the side-band port leave sound.
-/

namespace Sys2Proof.Machine

open Sys2Proof Sys2Proof.Safety

section
variable {s t : State}

/-! ### Containment -/

theorem execPoisonConsumption_kept {g : Nat} {met : ErrorMet} {addr : BitVec 64} (h : Sound s) :
    Kept (execPoisonConsumption g met addr s) := by
  simp only [execPoisonConsumption]
  split
  · exact kept_next (setBarrier_sound h)
  · exact kept_ite (kept_next (consumePoisonAt_sound h)) kept_refused
  · exact kept_ite (kept_next (onCtx_sound h)) kept_refused
  · exact kept_ite (kept_next (onCtx_sound h)) kept_refused

theorem unwindStart_sound {g : Nat} {u : Unwind} (h : Sound s) : Sound (unwindStart s g u) := by
  simp only [unwindStart]
  refine foldl_sound (fun _ h' _ => ite_sound h' (beginSclose_sound h')) ?_
  refine onCtx_sound ?_
  split
  · exact knowTimes_sound h
  · refine foldl_sound ?_ (onCtx_sound (knowTimes_sound h))
    intro _ h' _
    split
    · exact ite_sound (onRing_sound (fun _ => Ring.setStripe_wf) (onCtx_sound h')) h'
    · exact h'

theorem rewindMark_sound {g : Nat} {m : Nat × Stream} (h : Sound s) : Sound (rewindMark s g m) :=
  onCtx_sound (onRing_sound (fun _ => resetQueue_wf) (sound_record h rfl rfl rfl))

theorem abandonStep_sound {g : Nat} (h : Sound s) : Sound (abandonStep s g) := sound_record h rfl rfl rfl

theorem execContainmentHandlerEntry_kept {g : Nat} (h : Sound s) : Kept (execContainmentHandlerEntry g s) := by
  simp only [execContainmentHandlerEntry]
  split
  · exact kept_refused
  · split
    · exact kept_refused
    · exact kept_ite kept_refused (kept_next (enterState_sound (onCtx_sound (foldl_sound
        (fun _ h' _ => rewindMark_sound h') (abandonStep_sound h)))))

/-! ### Instances (R22, R23) -/

theorem execInstanceEntry_kept {g ps col : Nat} (h : Sound s) : Kept (execInstanceEntry g ps col s) := by
  simp only [execInstanceEntry]
  split
  · exact kept_next (onElem_sound h)
  · exact kept_refused

/-! ### The auditor (R363 to R366) -/

theorem finishLog_sound {slot : Nat} (h : Sound s) : Sound (finishLog s slot) := by
  simp only [finishLog]
  split
  · exact h
  · exact ite_sound h (ite_sound (signLog_sound h) h)

theorem auditSample_sound {g : Nat} {r : Run} {w : Nat} (h : Sound s) : Sound (auditSample s g r w) := by
  simp only [auditSample]
  refine ite_sound h ?_
  refine ite_sound (countAudit_sound h) ?_
  refine ite_sound (onRing_sound (fun _ h' => h') h) ?_
  split
  · exact countAudit_sound (countAudit_sound (onRing_sound (fun _ h' => h') h))
  · exact finishLog_sound (onHub_sound (countAudit_sound (onRing_sound (fun _ h' => h') h)))

theorem execStripeFree_kept {g n : Nat} (h : Sound s) : Kept (execStripeFree g n s) := by
  unfold execStripeFree
  split
  next x _ _ _ =>
    have hx := freeStripe_sound (g := g) (x := x) h
    refine kept_next ?_
    split
    · exact ite_sound hx (auditSample_sound hx)
    · exact hx
  · exact kept_refused

/-! ### Holds (R85, R86) and gating (R240) -/

theorem execHoldResume_kept {g : Nat} (h : Sound s) : Kept (execHoldResume g s) :=
  kept_ite (kept_next (onRing_sound (fun _ h' => h') h)) kept_refused

theorem execHoldLimitFault_kept {g : Nat} (h : Sound s) : Kept (execHoldLimitFault g s) :=
  kept_ite (kept_next (takeFault_sound h)) kept_refused

theorem execMatrixGate_kept {g ps col : Nat} (h : Sound s) : Kept (execMatrixGate g ps col s) :=
  kept_ite (kept_next (onElem_sound h)) kept_refused

/-! ### The classifier (R357 to R359) -/

theorem tableRas_sound {kind table : Nat} (h : Sound s) : Sound (tableRas s kind table) :=
  ite_sound (rasEvent_sound (tickFree_sound h)) (rasEvent_sound (tickFree_sound h))

theorem execCorrectedError_kept {bank : ErrorSite} (h : Sound s) : Kept (execCorrectedError bank s) := by
  simp only [execCorrectedError]
  refine kept_ite kept_refused ?_
  split
  · exact kept_next (tableRas_sound h)
  · split
    · exact kept_ite (kept_next (tableRas_sound (onHub_sound h))) (kept_next (onHub_sound h))
    · exact kept_next h

/-! ### Scrubbing and repair (R356, R359, R360) -/

theorem classify_sound {x : ErrorSite} (h : Sound s) : Sound (classify s x) := by
  simp only [classify]
  split
  · exact (execCorrectedError_kept h).of_next ‹_›
  · exact h

theorem reportFlaws_sound (h : Sound s) : Sound (reportFlaws s) :=
  foldl_sound (fun _ h' _ => ite_sound h' (foldl_sound (fun _ h' _ => classify_sound h') (onRing_sound
    (fun _ h' => h') h'))) h

theorem scrubChunk_sound {g k : Nat} {found : ScrubFound} (h : Sound s) : Sound (scrubChunk s g k found) :=
  ite_sound (rasEvent_sound (onRing_sound (fun _ h' => h') (onRing_sound (fun _ h' => h') h))) (ite_sound
    (classify_sound (onRing_sound (fun _ h' => h') h)) (onRing_sound (fun _ h' => h') h))

theorem patrolTick_sound {i : Nat} (h : Sound s) : Sound (patrolTick s i) :=
  ite_sound h (foldl_sound (fun _ h' _ => scrubChunk_sound h') (onDie_sound h))

theorem execPatrolScrub_kept {die : Nat} {found : ScrubFound} (h : Sound s) : Kept (execPatrolScrub die found s) := by
  simp only [execPatrolScrub]
  refine kept_ite kept_refused ?_
  refine kept_ite ?_ (kept_next (scrubChunk_sound (onDie_sound h)))
  split
  · exact kept_next (onDie_sound h)
  · exact kept_next (classify_sound (onDie_sound h))
  · exact kept_next (rasEvent_sound (sound_record (onDie_sound h) rfl rfl rfl))

theorem stopForRepair_sound (h : Sound s) : Sound (stopForRepair s) :=
  foldl_sound (fun _ h' _ => stopParty_sound (setReq_sound h')) h

theorem execPostPackageRepair_kept {die : Nat} {value : BitVec 64} (h : Sound s) :
    Kept (execPostPackageRepair die value s) :=
  kept_ite (kept_next h) (kept_next (stopForRepair_sound (onDie_sound h)))

theorem markRepaired_sound {stack bank row : Nat} (h : Sound s) : Sound (markRepaired s stack bank row) :=
  onHub_sound h

theorem repairSram_sound {n : Nat} {e : ClsEntry} (h : Sound s) : Sound (repairSram n s e) :=
  ite_sound h (ite_sound (tableRas_sound (onHub_sound (onHub_sound h))) (ite_sound (tableRas_sound (onHub_sound
    (onRing_sound (fun _ h' => h') h))) h))

theorem moveBytes_sound {a b n : Nat} (h : Sound s) : Sound (moveBytes s a b n) :=
  sound_write h (List.foldlRecOn (motive := fun m : Memory => m.wf = true) _ _ (Memory.wf_filter _ h.mem_wf)
    fun _ hm c _ => Memory.wf_write _ c.2 hm) rfl rfl

theorem evacuate_sound {spans : List (Nat × Nat)} (h : Sound s) : SoundIfSome (evacuate s spans) := by
  intro t ht
  unfold evacuate at ht
  obtain ⟨l, _, rfl⟩ := Option.map_eq_some_iff.1 ht
  exact foldl_sound (fun _ h' _ => queueBump_sound h') (foldl_sound (fun _ h' _ => onDie_sound h')
    (foldl_sound (fun _ h' _ => physWrite_sound h') (moveBytes_sound (tickFree_sound h))))

theorem repaired_sound {n : Nat} {e : ClsEntry} (h : Sound s) : Sound (repaired n s e) :=
  tableRas_sound (onHub_sound h)

theorem retirePages_sound {n : Nat} {e : ClsEntry} (h : Sound s) : Sound (retirePages n s e) := by
  simp only [retirePages]
  exact getD_sound (evacuate_sound (onHub_sound h)) (repaired_sound (onHub_sound h))

theorem repairStack_sound {n : Nat} {e : ClsEntry} (h : Sound s) : Sound (repairStack n s e) := by
  simp only [repairStack]
  refine ite_sound (retirePages_sound h) ?_
  split
  · exact (execPostPackageRepair_kept h).of_next ‹_›
  · exact h

theorem tendTable_sound {n : Nat} (h : Sound s) : Sound (tendTable s n) := by
  simp only [tendTable]
  refine foldl_sound ?_ h
  intro _ h' _
  split
  · exact repairStack_sound h'
  · exact repairSram_sound h'

theorem execPprComplete_kept {die : Nat} {fail : Bool} (h : Sound s) : Kept (execPprComplete die fail s) :=
  kept_ite kept_refused (kept_next (replayStops_sound (ite_sound (onDie_sound h) (tableRas_sound (markRepaired_sound
    (onDie_sound h))))))

/-! ### The auditor (R363, R367 to R370) -/

theorem execAuditControlWrite_kept {value : BitVec 64} (h : Sound s) : Kept (execAuditControlWrite value s) :=
  kept_ite (kept_next h) (kept_next (foldl_sound (fun _ h' _ => onRing_sound (fun _ h' => h') h') (onHub_sound h)))

theorem applyFence_sound {g : Nat} (h : Sound s) : Sound (applyFence s g) :=
  ite_sound (ite_sound (beginDrain_sound h) h) (onRing_sound (fun _ h' => h') (ite_sound (beginDrain_sound h) h))

theorem raiseFence_sound {g : Nat} {opmask : BitVec 64} (h : Sound s) : Sound (raiseFence s g opmask) := onHub_sound h

theorem deviant_sound {slot g : Nat} {a : AuditLog} (h : Sound s) : Sound (deviant s slot g a) :=
  applyFence_sound (raiseFence_sound (hostEvent_sound (tickFree_sound (rasEvent_sound (countAudit_sound h)))))

theorem freeLog_sound {slot : Nat} (h : Sound s) : Sound (freeLog s slot) := onHub_sound h

theorem bindReplay_sound {g slot : Nat} {a : AuditLog} {b : BindRecord} (h : Sound s) :
    Sound (bindReplay s g slot a b) :=
  armRun_sound (onRing_sound (fun _ h' => h') (loadedAt_sound h))

theorem beginReplay_sound {slot : Nat} {a : AuditLog} (h : Sound s) : Sound (beginReplay s slot a) := by
  simp only [beginReplay]
  split
  · exact bindReplay_sound (tickFree_sound h)
  · exact tickFree_sound h

theorem execAuditReplay_kept {slot : Nat} {p q : AuditFinding} (h : Sound s) : Kept (execAuditReplay slot p q s) := by
  simp only [execAuditReplay]
  split
  · exact kept_refused
  · refine kept_ite kept_refused ?_
    split
    · split
      · exact kept_next (countAudit_sound (freeLog_sound (elim_sound h (fun _ => endReplay_sound h))))
      · exact kept_refused
    · refine kept_ite (kept_ite (kept_next (countAudit_sound (freeLog_sound h))) kept_refused) ?_
      split
      · split
        · exact kept_next (countAudit_sound (freeLog_sound (elim_sound h (fun _ => endReplay_sound h))))
        · exact kept_refused
      · exact kept_ite kept_refused (kept_ite (kept_next (deviant_sound (freeLog_sound h))) (kept_ite (kept_next
          (deviant_sound (freeLog_sound h))) (kept_next (rasEvent_sound (tickFree_sound (countAudit_sound
          (freeLog_sound h)))))))

theorem tendReplay_sound {slot : Nat} (h : Sound s) : Sound (tendReplay s slot) := by
  simp only [tendReplay]
  split
  · exact h
  · split
    · exact (execAuditReplay_kept h).of_next ‹_›
    · refine ite_sound h ?_
      split
      · exact beginReplay_sound h
      · exact ite_sound (endReplay_sound h) (ite_sound (onHub_sound (endReplay_sound h)) h)

theorem execAuditRingTimeout_kept {slot : Nat} (h : Sound s) : Kept (execAuditRingTimeout slot s) := by
  simp only [execAuditRingTimeout]
  split
  · exact kept_refused
  · exact kept_ite (kept_next (countAudit_sound (freeLog_sound h))) kept_refused

/-! ### Injection (R371, R372) -/

theorem flipCell_wf {r : Ring} (h : r.spad.wf = true) : (flipCell r).spad.wf = true := Ring.onElem_wf h

theorem flipSpad_wf {r : Ring} {blk word b : Nat} (h : r.spad.wf = true) : (flipSpad r blk word b).spad.wf = true :=
  Ring.spadPut_wf _ _ _ _ _ h

theorem flipWord_wf {r : Ring} (h : r.spad.wf = true) : (flipWord r).spad.wf = true := by
  simp only [flipWord]
  split
  · exact flipSpad_wf h
  · exact h
  · exact flipSpad_wf (flipSpad_wf h)
  · exact h

theorem execInjectionFire_kept {g : Nat} (h : Sound s) : Kept (execInjectionFire g s) :=
  kept_ite kept_refused (kept_next (rasEvent_sound (tickFree_sound (onRing_sound (fun _ h' => ite_wf
    (flipCell_wf h') (flipWord_wf h')) h))))

/-! ### Power (R389, R390) -/

theorem applyCap_sound {src c : Nat} (h : Sound s) : Sound (applyCap s src c) :=
  ite_sound (onHub_sound (hostEvent_sound (ite_sound (hostEvent_sound h) h))) (onHub_sound (onHub_sound (ite_sound
    (hostEvent_sound h) h)))

theorem execCapWrite_kept {src : Nat} {value : BitVec 16} (h : Sound s) : Kept (execCapWrite src value s) :=
  kept_ite kept_refused (kept_next (onHub_sound h))

theorem applyCaps_sound (h : Sound s) : Sound (applyCaps s) :=
  foldl_sound (fun _ h' _ => applyCap_sound h') (onHub_sound h)

theorem divideCap_sound (h : Sound s) : Sound (divideCap s) := ite_sound h (onHub_sound (tickFree_sound h))

/-! ### Host registers (R377, R382, R405) -/

theorem execPstatClear_kept {f : Nat} (h : Sound s) : Kept (execPstatClear f s) :=
  kept_ite kept_refused (kept_next (onHub_sound h))

theorem execHostEventBaseWrite_kept {f : Nat} {value : BitVec 64} (h : Sound s) :
    Kept (execHostEventBaseWrite f value s) :=
  kept_ite kept_refused (kept_next (onHub_sound h))

theorem apertureStore_sound {pa : Nat} {data : List Byte} (h : Sound s) : Sound (apertureStore s pa data) :=
  foldl_sound (fun _ h' _ => physWrite_sound h') h

theorem execApertureAccess_kept {f offset : Nat} {write : HostAccess} {data : List Byte} (h : Sound s) :
    Kept (execApertureAccess f offset write data s) := by
  simp only [execApertureAccess]
  refine kept_ite kept_refused ?_
  split
  · exact kept_next (onHub_sound h)
  · exact kept_next (onHub_sound h)
  · exact kept_ite (kept_next (apertureStore_sound (onHub_sound h))) (kept_next h)

/-! ### Registers without an operation of their own -/

theorem queueWrite_sound {q : Nat} {old v : BitVec 64} {f : Hub → BitVec 64 → Hub} (h : Sound s) :
    Sound (queueWrite s q old v f) :=
  ite_sound h (onHub_sound h)

theorem debugWrite_kept {g : Nat} {v : BitVec 64} (h : Sound s) : Kept (debugWrite s g v) :=
  kept_ite (execDebugKill_kept (ite_sound (onRing_sound (fun _ h' => h') h) h)) (kept_ite (execDebugResume_kept
    (ite_sound (onRing_sound (fun _ h' => h') h) h)) (kept_next (ite_sound (onRing_sound (fun _ h' => h') h) h)))

theorem allotPair_sound {p v : Nat} (h : Sound s) : Sound (allotPair s p v) := ite_sound h (onHub_sound h)

theorem moveAperture_sound {f : Nat} {v : BitVec 64} (h : Sound s) : Sound (moveAperture s f v) :=
  ite_sound (onHub_sound h) (queueBump_sound (onHub_sound h))

theorem eosenWrite_sound {reg : RegName} {v : BitVec 64} (h : Sound s) : Sound (eosenWrite s reg v) := by
  simp only [eosenWrite]
  split
  · exact ite_sound h (onRing_sound (fun _ h' => h') h)
  · exact ite_sound h (onRing_sound (fun _ h' => h') h)
  · exact onHub_sound (onRing_sound (fun _ h' => h') h)
  · exact ite_sound h (onRing_sound (fun _ h' => h') h)
  · exact ite_sound h (onRing_sound (fun _ h' => h') h)
  · exact ite_sound h (onHub_sound h)
  · exact onHub_sound h
  · exact onHub_sound h
  · exact onHub_sound h
  · exact ite_sound h (onDie_sound h)
  · exact ite_sound h (onDie_sound h)
  · exact onDie_sound h
  · exact ite_sound h (onDie_sound h)
  · exact onDie_sound h
  · exact queueWrite_sound h
  · exact queueWrite_sound h
  · exact onHub_sound h
  · exact onHub_sound h
  · exact allotPair_sound h
  · exact moveAperture_sound h
  · exact onHub_sound h
  · exact ite_sound h (onHub_sound h)
  · exact ite_sound (onHub_sound h) h
  · exact ite_sound (onHub_sound h) h
  · exact ite_sound (onHub_sound h) h
  · exact onHub_sound h
  · exact ite_sound h (sound_record (physWrite_sound h) rfl rfl rfl)
  · exact h
  · exact h
  · exact h

theorem execRegisterWrite_kept {who : Writer} {reg : RegName} {value : BitVec 64} (h : Sound s) :
    Kept (execRegisterWrite who reg value s) := by
  simp only [execRegisterWrite]
  split
  · exact debugWrite_kept h
  · exact kept_ite (debugWrite_kept h) (kept_next h)
  · exact kept_ite (kept_next (onHub_sound h)) (kept_next h)
  · exact kept_next (eosenWrite_sound h)
  · exact kept_next h

/-! ### Functions and links (R380, R381) -/

theorem disableQueues_sound {f : Nat} (h : Sound s) : Sound (disableQueues s f) := onHub_sound h

theorem resetTask_sound {f n : Nat} (h : Sound s) : Sound (resetTask f s n) := by
  simp only [resetTask]
  split
  · exact h
  · refine ite_sound ?_ (endTask_sound (killMembers_sound (onTask_sound h)))
    split
    · exact ite_sound (completeTask_sound (onTask_sound h)) (onTask_sound h)
    · exact onTask_sound h

theorem resetFunction_sound {f : Nat} (h : Sound s) : Sound (resetFunction s f) :=
  foldl_sound (fun _ h' _ => resetTask_sound h') (disableQueues_sound h)

theorem execFunctionLevelReset_kept {f : Nat} (h : Sound s) : Kept (execFunctionLevelReset f s) :=
  kept_ite kept_refused (kept_next (resetFunction_sound h))

theorem execLinkDown_kept {f : Nat} (h : Sound s) : Kept (execLinkDown f s) :=
  kept_ite kept_refused (kept_next (hostEvent_sound (onHub_sound h)))

theorem execLinkRetrain_kept {f : Nat} (h : Sound s) : Kept (execLinkRetrain f s) :=
  kept_ite kept_refused (kept_next (resetFunction_sound (onHub_sound h)))

/-! ### Kamva (R386 to R388) -/

theorem execKamvaFlitReplay_kept {port : Nat} (h : Sound s) : Kept (execKamvaFlitReplay port s) :=
  kept_ite kept_refused (kept_next (onHub_sound h))

theorem execKamvaLinkDown_kept {port : Nat} (h : Sound s) : Kept (execKamvaLinkDown port s) :=
  kept_ite kept_refused (kept_next (onHub_sound h))

theorem execKamvaLinkUp_kept {port : Nat} (h : Sound s) : Kept (execKamvaLinkUp port s) :=
  kept_ite kept_refused (kept_next (onHub_sound h))

theorem inboundBarrier_sound {r : InboundRequest} {op : BarrierOp} (h : Sound s) : Sound (inboundBarrier s r op) :=
  sound_record (setBarrier_sound h) rfl rfl rfl

theorem execKamvaInboundRequest_kept {req : InboundRequest} (h : Sound s) : Kept (execKamvaInboundRequest req s) := by
  simp only [execKamvaInboundRequest]
  split
  · exact kept_ite kept_refused (kept_next (inboundBarrier_sound h))
  · refine kept_ite kept_refused ?_
    refine kept_ite (kept_next h) ?_
    split
    · exact kept_next (physWrite_sound h)
    · exact kept_ite (kept_next (writePlace_sound h)) (kept_next h)

/-! ### Pair frequencies (R339, R391 to R393) -/

theorem noticeSaved_sound {x : Saved} (h : Sound s) : Sound (noticeSaved s x) := by
  simp only [noticeSaved]
  refine hostEvent_sound ?_
  split
  · exact physWrite_sound (sound_record h rfl rfl rfl)
  · exact sound_record h rfl rfl rfl

theorem noticeBound_sound {g : Nat} (h : Sound s) : Sound (noticeBound s g) :=
  ite_sound (onCtx_sound h) (noticeSaved_sound (onCtx_sound h))

theorem noticeRing_sound {g : Nat} (h : Sound s) : Sound (noticeRing s g) :=
  foldl_sound (fun _ h' _ => noticeSaved_sound h') (ite_sound (noticeBound_sound h) h)

theorem setPairFrequency_sound {pair mhz : Nat} (h : Sound s) : Sound (setPairFrequency s pair mhz) :=
  ite_sound (noticeRing_sound (noticeRing_sound (onHub_sound h))) (onHub_sound h)

theorem execPairFrequencyChange_kept {pair : Nat} {mhz : BitVec 16} (h : Sound s) :
    Kept (execPairFrequencyChange pair mhz s) :=
  kept_ite kept_refused (kept_next (setPairFrequency_sound h))

theorem execPairBalance_kept {pair amps0 amps1 : Nat} (h : Sound s) : Kept (execPairBalance pair amps0 amps1 s) :=
  kept_ite kept_refused (kept_ite (kept_next h) (kept_ite (kept_next (onHub_sound (onHub_sound h))) (kept_next
    (onHub_sound h))))

theorem execDroopDetect_kept {g cycles : Nat} (h : Sound s) : Kept (execDroopDetect g cycles s) :=
  kept_ite kept_refused (kept_next (onRing_sound (fun _ h' => h') h))

/-! ### The end of a wipe (R373, R396) -/

theorem configureQueues_sound (h : Sound s) : Sound (configureQueues s) :=
  foldl_sound (fun _ h' _ => eosenWrite_sound (eosenWrite_sound (eosenWrite_sound h'))) (sound_record h rfl rfl rfl)

theorem bootDone_sound (h : Sound s) : Sound (bootDone s) :=
  onHub_sound (configureQueues_sound (foldl_sound (fun _ h' _ => onRing_sound (fun _ h' => h') h') h))

theorem wipeTick_sound (h : Sound s) : Sound (wipeTick s) :=
  ite_sound h (ite_sound (bootDone_sound (onHub_sound h)) (onHub_sound h))

/-! ### Thermal protection (R394) -/

theorem execThermalThrottle_kept {die celsius : Nat} {mhz : BitVec 16} (h : Sound s) :
    Kept (execThermalThrottle die celsius mhz s) :=
  kept_ite kept_refused (kept_next (hostEvent_sound (onDie_sound (foldl_sound
    (fun _ h' _ => setPairFrequency_sound h') h))))

theorem lostRails_sound (h : Sound s) : Sound (lostRails s) :=
  ⟨⟨Memory.wf_filter _ h.mem_wf, fun _ => rfl⟩, h.sub_lt⟩

theorem dropRails_sound (h : Sound s) : Sound (dropRails s) := onHub_sound (onAon_sound (lostRails_sound h))

theorem execMainRailsDown_kept (h : Sound s) : Kept (execMainRailsDown s) :=
  kept_ite (kept_next (dropRails_sound h)) (kept_ite (kept_next (onAon_sound h)) kept_refused)

theorem execThermalTrip_kept {die sensor code : Nat} (h : Sound s) : Kept (execThermalTrip die sensor code s) :=
  kept_ite kept_refused (kept_next (dropRails_sound (onAon_sound h)))

/-! ### Signed objects (R398) -/

theorem advanceSvn_sound {o : List Byte} (h : Sound s) : Sound (advanceSvn s o) := onAon_sound h

/-! ### Answers -/

theorem answer_kept {ok : Bool} {bs : List Byte} (h : Sound s) : Kept (answer s ok bs) := kept_next (onAon_sound h)

theorem sbError_kept (h : Sound s) : Kept (sbError s) := answer_kept h

theorem command_kept {accepted inRecovery : Bool} {f : State → Host.Outcome State Fault Refusal}
    (hf : ∀ s, Sound s → Kept (f s)) (h : Sound s) : Kept (command s accepted inRecovery f) :=
  kept_ite (hf s h) (sbError_kept h)

/-! ### Wipe, reset and boot (R373, R395, R396) -/

theorem wipe_sound (h : Sound s) : Sound (wipe s) := onHub_sound (lostRails_sound h)

theorem boot_sound {cause : BitVec 4} {warm : Bool} (h : Sound s) : Sound (boot s cause warm) := by
  unfold boot
  extract_lets s1 failed s2
  have h1 : Sound s1 := ⟨h.1, (by decide : 0 < 19)⟩
  have hf : Sound failed := onAon_sound (onHub_sound (lostRails_sound h1))
  refine ite_sound hf ?_
  split
  · exact hf
  · extract_lets s3
    have h2 : Sound s2 := ite_sound h1 (advanceSvn_sound h1)
    have h3 : Sound s3 := ite_sound h2 (advanceSvn_sound h2)
    exact onAon_sound (wipe_sound h3)

theorem execReset_kept (h : Sound s) : Kept (execReset s) := answer_kept (ite_sound (boot_sound h) h)

theorem execEosenFatalError_kept (h : Sound s) : Kept (execEosenFatalError s) :=
  kept_ite (kept_next (boot_sound h)) kept_refused

theorem execColdReset_kept (h : Sound s) : Kept (execColdReset s) :=
  kept_ite kept_refused (kept_ite (kept_next (tickFree_sound h)) (kept_next (boot_sound (onAon_sound h))))

/-! ### Sticky registers and power (R375, R385, R389, R390) -/

theorem execRdsticky_kept (h : Sound s) : Kept (execRdsticky s) := answer_kept h

theorem execClrsticky_kept (h : Sound s) : Kept (execClrsticky s) := answer_kept (onAon_sound h)

theorem execSetcap_kept {value : BitVec 16} (h : Sound s) : Kept (execSetcap value s) := by
  simp only [execSetcap]
  refine command_kept ?_ h
  intro _ h'
  refine kept_ite (answer_kept h') ?_
  split
  · exact answer_kept ((execCapWrite_kept h').of_next ‹_›)
  · exact execCapWrite_kept h'

theorem execSetfloor_kept {i : Nat} {value : BitVec 16} (h : Sound s) : Kept (execSetfloor i value s) :=
  command_kept (fun _ h' => kept_ite (answer_kept h') (kept_ite (sbError_kept h') (answer_kept (onHub_sound h')))) h

theorem execPcfg_kept {value : BitVec 64} (h : Sound s) : Kept (execPcfg value s) :=
  command_kept (fun _ h' => answer_kept (onAon_sound h')) h

/-! ### Firmware (R384, R385) -/

theorem execRecover_kept {image : List Byte} (h : Sound s) : Kept (execRecover image s) :=
  command_kept (fun _ h' => answer_kept (ite_sound (boot_sound (onAon_sound (advanceSvn_sound h'))) (onAon_sound
    (advanceSvn_sound h')))) h

theorem execPldmFirmwareUpdate_kept {image : List Byte} (h : Sound s) : Kept (execPldmFirmwareUpdate image s) :=
  kept_ite (sbError_kept h) (kept_ite (answer_kept (onAon_sound (advanceSvn_sound h))) (kept_ite (answer_kept
    (onAon_sound (advanceSvn_sound h))) (sbError_kept h)))

theorem execPldmSensorRead_kept {sensor : Nat} (h : Sound s) : Kept (execPldmSensorRead sensor s) :=
  kept_ite (answer_kept (tickFree_sound h)) (kept_ite (answer_kept h) (kept_ite (answer_kept h) (sbError_kept h)))

/-! ### Attestation (R399) -/

theorem execAttest_kept {nonce : List Byte} (h : Sound s) : Kept (execAttest nonce s) :=
  command_kept (fun _ => answer_kept) h

/-! ### Debug (R385, R401) -/

theorem execFreeze_kept (h : Sound s) : Kept (execFreeze s) :=
  command_kept (fun _ h' => kept_ite (answer_kept h') (answer_kept (onHub_sound (foldl_sound
    (fun _ h' _ => ite_sound (onRing_sound (fun _ h' => h') h') h') (onAon_sound h'))))) h

theorem execReadout_kept {g : Nat} (h : Sound s) : Kept (execReadout g s) := by
  simp only [execReadout]
  split
  · exact sbError_kept h
  · exact command_kept (fun _ => answer_kept) h

theorem execInjen_kept {on : Bool} (h : Sound s) : Kept (execInjen on s) :=
  command_kept (fun _ h' => answer_kept (ite_sound (onHub_sound h') h')) h

theorem execUnlock_kept {token : List Byte} (h : Sound s) : Kept (execUnlock token s) := by
  simp only [execUnlock]
  split
  · exact sbError_kept h
  · exact command_kept (fun _ h' => answer_kept (onAon_sound (advanceSvn_sound h'))) h

/-! ### Life cycle (R397, R398) -/

theorem execLcstate_kept {target : LifeCycle} {token : List Byte} (h : Sound s) :
    Kept (execLcstate target token s) := by
  simp only [execLcstate]
  split
  · exact sbError_kept h
  · exact command_kept (fun _ h' => answer_kept (onAon_sound (ite_sound (onHub_sound (wipe_sound
      (advanceSvn_sound h'))) (advanceSvn_sound h')))) h

end

end Sys2Proof.Machine
end

section
/-!
SUPPORT. Every instruction, every ring cycle and the step itself keep the invariant.
-/

namespace Sys2Proof.Machine

open Sys2Proof Sys2Proof.Safety

section
variable {s t : State}

/-! ### The instructions -/

theorem exec_kept {i : Instr} (h : Sound s) : Kept (exec i s) := by
  cases i with
  | rowNop => exact effectRow_kept (fun _ h' _ => h') h
  | sig => exact effectRow_kept (fun _ h' _ => onCtx_sound h') h
  | rowTrap => exact effectRow_kept (fun _ h' _ => takeFault_sound h') h
  | rowBrk => exact effectRow_kept (fun _ h' _ => ite_sound (takeFault_sound h') h') h
  | flagrd | iter | eid | lid | sid | tcrd | imov | ilui | iadd | isub | imul | imulhi | imad | iaddsat | isubsat |
    iabs | ineg | imin | imax | iand | ior | ixor | inot | ishl | ishr | isra | irot | iclz | ipop | ibfx | ibfi |
    icmpEq | icmpNe | icmpLt | icmpLe | icmpGt | icmpGe | fadd | fsub | fmul | ffma | ffms | fnfma | fnfms | fmin |
    fmax | fabs | fneg | fcopysign | fscale | fround | fclass | fcmpEq | fcmpNe | fcmpLt | fcmpLe | fcmpGt | fcmpGe |
    fcmpUn | fcmpOrd | frcp | frsq | fsqrt | fdiv | fexp2 | flog2 | ftanh | cvt | packF32 | packN8 | unpackF32 |
    unpackN8 | quant | fexp8 | itof | ftoi | pselTag | pselPred | pand | por | pxor | pnot | pset | pmovPred |
    pmovVecToPred | pmovPredToVec | pany | pall | lrot | lbcast | lshuf | lredAdd | lredMax | lredMin | lscanAdd |
    lzip | lunzip | accrd | xcvt | mchk | mbnd =>
    exact resultRow_kept h
  | fmtld => exact effectRow_kept (fun _ h' _ => ite_sound (writeSlot_sound h') (scheduleFault_sound h')) h
  | tagchk => exact effectRow_kept (fun _ h' _ => ite_sound h' (takeFault_sound h')) h
  | sld => exact execSld_kept h
  | sst => exact effectRow_kept (fun _ h' _ => addPend_sound (onRing_sound (fun _ => Ring.useBank_wf) h')) h
  | gadr => exact execGadr_kept h
  | qpop | qpeek => exact queueRow_kept h
  | qpush => exact execQpush_kept h
  | qtx => exact execQtx_kept h
  | mmaBf16 | mmaF16 | mmaF8 | mmc | mmcCh => exact tileRowExec_kept h
  | accz | accwr => exact maccRow_kept (fun _ h' _ => addPend_sound (openWindow_sound h')) h
  | cmerge => exact effectRow_kept (fun _ h' _ => cmergeEffect_sound h') h
  | xmerge | xld => exact maccRow_kept (fun _ h' _ => xaLoad_sound h') h
  | xst =>
    exact effectRow_kept (fun _ h' _ => addPend_sound (onMe_sound (onRing_sound (fun _ => Ring.useBank_wf) h'))) h
  | xcfg => exact effectRow_kept (fun _ h' _ => addPend_sound h') h
  | stepNop => exact stepMeaning_kept (fun _ h' _ _ => done_sound h') h
  | go => exact execGo_kept h
  | goIndirect => exact execGoIndirect_kept h
  | call => exact execCall_kept h
  | ret => exact execRet_kept h
  | endStep => exact execEndStep_kept h
  | waitt => exact stepMeaning_kept (fun _ h' _ _ => waittStep_sound h') h
  | waits => exact stepMeaning_kept (fun _ h' _ _ => waitsStep_sound h') h
  | stepTrap => exact execStepTrap_kept h
  | yield => exact stepMeaning_kept (fun _ h' _ _ => yieldStep_sound h') h
  | sys => exact stepMeaning_kept (fun _ h' _ _ => sysStep_sound h') h
  | stepBrk => exact stepMeaning_kept (fun _ h' _ _ => stepBrkStep_sound h') h
  | kset | kmov | kdec | aset | amov | aadd | amad | vpl | spos | perf =>
    exact stepMeaning_kept (fun _ h' _ _ => ctxStep_sound h') h
  | kadd | ksub | kmul | kand | kor | kxor | kshl | kshr | kmin | kmax =>
    exact stepMeaning_kept (fun _ h' _ _ => counterStep_sound h') h
  | ald => exact stepMeaning_kept (fun _ h' _ _ => aldStep_sound h') h
  | ast => exact stepMeaning_kept (fun _ h' _ _ => astStep_sound h') h
  | run => exact stepMeaning_kept (fun _ h' _ _ => runStep_sound h') h
  | park => exact stepMeaning_kept (fun _ h' _ _ => parkStep_sound h') h
  | fmtset => exact stepMeaning_kept (fun _ h' _ _ => done_sound (writeSlot_sound h')) h
  | qset => exact stepMeaning_kept (fun _ h' _ _ => qsetStep_sound h') h
  | sopen => exact stepMeaning_kept (fun _ h' _ _ => sopenStep_sound h') h
  | sclose => exact stepMeaning_kept (fun _ h' _ _ => scloseStep_sound h') h
  | sbar => exact stepMeaning_kept (fun _ h' _ _ => issueCommand_sound h') h
  | copy => exact stepMeaning_kept (fun _ h' _ _ => copyStepMeaning_sound h') h
  | copyc => exact stepMeaning_kept (fun _ h' _ _ => copycStep_sound h') h
  | copycResume => exact stepMeaning_kept (fun _ h' _ _ => copycResumeStep_sound h') h
  | binit => exact stepMeaning_kept (fun _ h' _ _ => binitStep_sound h') h
  | barr => exact stepMeaning_kept (fun _ h' _ _ => barrStep_sound h') h
  | bexp => exact stepMeaning_kept (fun _ h' _ _ => bexpStep_sound h') h
  | bwait => exact stepMeaning_kept (fun _ h' _ _ => bwaitStep_sound h') h
  | hpost => exact stepMeaning_kept (fun _ h' _ _ => hpostStep_sound h') h
  | htake => exact stepMeaning_kept (fun _ h' _ _ => htakeStep_sound h') h
  | trig => exact stepMeaning_kept (fun _ h' _ _ => trigStep_sound h') h
  | fence => exact stepMeaning_kept (fun _ h' _ _ => fenceStep_sound h') h
  | atom => exact stepMeaning_kept (fun _ h' _ _ => atomStep_sound h') h
  | coll => exact stepMeaning_kept (fun _ h' _ _ => collStep_sound h') h
  | cnopen => exact stepMeaning_kept (fun _ h' _ _ => cnopenStep_sound h') h
  | cnclose => exact stepMeaning_kept (fun _ h' _ _ => cncloseStep_sound h') h
  | tick | capq => exact stepMeaning_kept (fun _ h' _ _ => done_sound (onCtx_sound h')) h
  | flagsq =>
    exact stepMeaning_kept (fun _ h' _ _ => done_sound (onCtx_sound (ite_sound (onRing_sound
      (fun _ => Ring.clearFlags_wf) h') h'))) h
  | stepWaitComplete => exact execStepWaitComplete_kept h
  | startCommandBegin => exact execStartCommandBegin_kept h
  | startCycleResolved => exact execStartCycleResolved_kept h
  | instanceEntry => exact execInstanceEntry_kept h
  | hoist => exact execHoist_kept h
  | configRecordFetch => exact execConfigRecordFetch_kept h
  | strike => exact execStrike_kept h
  | stripeFree => exact execStripeFree_kept h
  | holdResume => exact execHoldResume_kept h
  | holdLimitFault => exact execHoldLimitFault_kept h
  | matrixGate => exact execMatrixGate_kept h
  | streamVisit => exact execStreamVisit_kept h
  | bridgeSegmentReceive => exact execBridgeSegmentReceive_kept h
  | staleRefusalReplay => exact execStaleRefusalReplay_kept h
  | faultholdExpiry => exact execFaultholdExpiry_kept h
  | unservicedFaultEnd => exact execUnservicedFaultEnd_kept h
  | copyChannelRecordFetch => exact execCopyChannelRecordFetch_kept h
  | copyComplete => exact execCopyComplete_kept h
  | barrierByteDecrement => exact execBarrierByteDecrement_kept h
  | barrierArrival => exact execBarrierArrival_kept h
  | collectiveStart => exact execCollectiveStart_kept h
  | collectiveComplete => exact execCollectiveComplete_kept h
  | poisonConsumption => exact execPoisonConsumption_kept h
  | containmentHandlerEntry => exact execContainmentHandlerEntry_kept h
  | pairFrequencyChange => exact execPairFrequencyChange_kept h
  | pairBalance => exact execPairBalance_kept h
  | droopDetect => exact execDroopDetect_kept h
  | watchdogExpiry => exact execWatchdogExpiry_kept h
  | quantumExpiry => exact execQuantumExpiry_kept h
  | contextEnd => exact execContextEnd_kept h
  | completionRecordDeferredWrite => exact execCompletionRecordDeferredWrite_kept h
  | submissionDoorbell => exact execSubmissionDoorbell_kept h
  | completionQueueHeadWrite => exact execCompletionQueueHeadWrite_kept h
  | taskEntry =>
    simp only [exec]
    exact execTaskEntry_kept h
  | queueFence => exact execQueueFence_kept h
  | kill => exact execKill_kept h
  | dependenceRelease => exact execDependenceRelease_kept h
  | triggerRelease => exact execTriggerRelease_kept h
  | bindRecordWrite => exact execBindRecordWrite_kept h
  | slotRelease => exact execSlotRelease_kept h
  | gangDispatch => exact execGangDispatch_kept h
  | halyardSave => exact execHalyardSave_kept h
  | halyardSaveComplete => exact execHalyardSaveComplete_kept h
  | drain => exact execDrain_kept h
  | drainQuiescence => exact execDrainQuiescence_kept h
  | faultSave => exact execFaultSave_kept h
  | halyardRestoreComplete => exact execHalyardRestoreComplete_kept h
  | debugResume => exact execDebugResume_kept h
  | debugKill => exact execDebugKill_kept h
  | shootDown => exact execShootDown_kept h
  | shootDownComplete => exact execShootDownComplete_kept h
  | generationBump => exact execGenerationBump_kept h
  | generationBumpComplete => exact execGenerationBumpComplete_kept h
  | faultBufferFlush => exact execFaultBufferFlush_kept h
  | flushComplete => exact execFlushComplete_kept h
  | fbstatOvfClear => exact execFbstatOvfClear_kept h
  | handoffQueueConfig => exact execHandoffQueueConfig_kept h
  | auditControlWrite => exact execAuditControlWrite_kept h
  | auditReplay => exact execAuditReplay_kept h
  | injectionFire => exact execInjectionFire_kept h
  | correctedError => exact execCorrectedError_kept h
  | patrolScrub => exact execPatrolScrub_kept h
  | postPackageRepair => exact execPostPackageRepair_kept h
  | pprComplete => exact execPprComplete_kept h
  | capWrite => exact execCapWrite_kept h
  | pstatClear => exact execPstatClear_kept h
  | hostEventBaseWrite => exact execHostEventBaseWrite_kept h
  | apertureAccess => exact execApertureAccess_kept h
  | registerWrite => exact execRegisterWrite_kept h
  | sysPing => exact execSysPing_kept h
  | sysHostev => exact execSysHostev_kept h
  | sysSetpri => exact execSysSetpri_kept h
  | sysThandler => exact execSysThandler_kept h
  | sysQuantum => exact execSysQuantum_kept h
  | rdsticky => exact execRdsticky_kept h
  | clrsticky => exact execClrsticky_kept h
  | setcap => exact execSetcap_kept h
  | setfloor => exact execSetfloor_kept h
  | reset => exact execReset_kept h
  | recover => exact execRecover_kept h
  | attest => exact execAttest_kept h
  | freeze => exact execFreeze_kept h
  | readout => exact execReadout_kept h
  | injen => exact execInjen_kept h
  | lcstate => exact execLcstate_kept h
  | unlock => exact execUnlock_kept h
  | pcfg => exact execPcfg_kept h
  | pldmSensorRead => exact execPldmSensorRead_kept h
  | pldmFirmwareUpdate => exact execPldmFirmwareUpdate_kept h
  | coldReset => exact execColdReset_kept h
  | eosenFatalError => exact execEosenFatalError_kept h
  | functionLevelReset => exact execFunctionLevelReset_kept h
  | linkDown => exact execLinkDown_kept h
  | linkRetrain => exact execLinkRetrain_kept h
  | kamvaFlitReplay => exact execKamvaFlitReplay_kept h
  | thermalThrottle => exact execThermalThrottle_kept h
  | thermalTrip => exact execThermalTrip_kept h
  | memoryAccessPerformed => exact execMemoryAccessPerformed_kept h
  | kamvaLinkDown => exact execKamvaLinkDown_kept h
  | kamvaLinkUp => exact execKamvaLinkUp_kept h
  | kamvaInboundRequest => exact execKamvaInboundRequest_kept h
  | mainRailsDown => exact execMainRailsDown_kept h
  | auditRingTimeout => exact execAuditRingTimeout_kept h
  | yieldDecision => exact execYieldDecision_kept h

/-! ### One ring cycle -/

theorem happen_sound {f : State → Host.Outcome State Fault Refusal} (hf : ∀ s, Sound s → Kept (f s)) (h : Sound s) :
    Sound (happen f s) := by
  unfold happen
  split
  next e => exact (hf s h).of_next e
  · exact h

/-! ### Results that land (R183) -/

theorem landPush_wf {r : Ring} {ps : Nat} {v : Vec} {mask : W32} {down : Bool} {q : Nat} {lr ls : Bool}
    {issued : Nat} (h : r.spad.wf = true) :
    (landPush r ps v mask down q lr ls issued).spad.wf = true := by
  simp only [landPush]
  split
  · exact Ring.ask_wf h
  · exact ite_wf (Ring.ask_wf h) (Ring.pushWord_wf (Ring.useBank_wf h))

theorem landPend_wf {ps k : Nat} {r : Ring} {p : Pend} (h : r.spad.wf = true) :
    (landPend ps k r p).spad.wf = true := by
  simp only [landPend]
  split
  · exact landPush_wf (ite_wf h (Ring.onElem_wf h))
  · exact ite_wf h (Ring.onElem_wf h)
  · exact ite_wf (Ring.poisonWord_wf (ite_wf h (Ring.onElem_wf h))) (Ring.putWord_wf _ _ _ _ _ _ (ite_wf h
      (Ring.onElem_wf h)))
  · exact ite_wf h (Ring.onElem_wf h)

theorem overrule_wf {at_ : Nat × Nat} {p : Pend} {r : Ring} (h : r.spad.wf = true) :
    (overrule at_ p r).spad.wf = true :=
  foldl_wf (fun _ h' _ => ite_wf (Ring.onElem_wf h') h') h

theorem landNext_wf {at_ : Nat × Nat} {r : Ring} {p : Pend} (h : r.spad.wf = true) :
    (landNext at_ r p).spad.wf = true :=
  ite_wf (overrule_wf (Ring.landSaved_wf (fun _ => landPend_wf) h)) (Ring.landSaved_wf (fun _ => landPend_wf) h)

theorem landWhere_wf {f : Pend → Bool} {tc : Nat} {r : Ring} {at_ : Nat × Nat} (h : r.spad.wf = true) :
    (landWhere f tc r at_).spad.wf = true :=
  ite_wf (foldl_wf (fun _ h' _ => landNext_wf h') (Ring.onElem_wf h)) h

theorem landAt_wf {r : Ring} {at_ : Nat × Nat} (h : r.spad.wf = true) : (landAt r at_).spad.wf = true :=
  Ring.landTiles_wf (landWhere_wf h)

/-! ### The transpose path (R232, R233) -/

theorem qtxReadAt_wf {r : Ring} {g ps k : Nat} {o : QtxOp} {n : Nat} (h : r.spad.wf = true) :
    (qtxReadAt r g ps k o n).1.spad.wf = true := by
  simp only [qtxReadAt]
  split
  · exact Ring.onElem_wf (qtxRead_wf h)
  · exact h

theorem qtxPush_wf {r : Ring} {ps k : Nat} {o : QtxOp} {j : Nat} (h : r.spad.wf = true) :
    (qtxPush r ps k o j).spad.wf = true := by
  simp only [qtxPush]
  split
  · exact Ring.ask_wf h
  · exact ite_wf (landPush_wf h) (ite_wf (Ring.ask_wf h) (ite_wf (Ring.spadWrite_wf _ _ _ _ _ (Ring.useBanks_wf
      (Ring.onElem_wf (Ring.setQ_wf h)))) (Ring.setQ_wf (Ring.spadWrite_wf _ _ _ _ _ (Ring.useBanks_wf
      (Ring.spadWrite_wf _ _ _ _ _ (Ring.useBanks_wf (Ring.onElem_wf (Ring.setQ_wf h)))))))))

theorem qtxCycle_wf {r : Ring} {g ps k : Nat} (h : r.spad.wf = true) : (qtxCycle r g ps k).1.spad.wf = true := by
  simp only [qtxCycle]
  split
  · exact h
  · split
    · exact qtxReadAt_wf h
    · exact h

theorem pushAt_wf {r : Ring} {at_ : Nat × Nat} (h : r.spad.wf = true) : (pushAt r at_).spad.wf = true := by
  simp only [pushAt]
  split
  · exact landWhere_wf h
  · exact ite_wf (qtxPush_wf (landWhere_wf h)) (landWhere_wf h)

theorem retireAt_wf {r : Ring} {at_ : Nat × Nat} (h : r.spad.wf = true) : (retireAt r at_).spad.wf = true := by
  simp only [retireAt]
  split
  · exact tilePop_wf h
  · exact ite_wf (Ring.onElem_wf (tilePop_wf h)) (ite_wf (Ring.setQ_wf (tilePop_wf h)) (tilePop_wf h))

/-! ### Multi-word accesses to `xa` (R247) -/

theorem xopCycle_wf {g ps k : Nat} {a : Ring × List FaultRec} {o : XOp} (h : a.1.spad.wf = true) :
    (xopCycle g ps k a o).1.spad.wf = true := by
  simp only [xopCycle]
  split
  · exact Ring.onElem_wf h
  · split
    · exact ite_wf (Ring.onElem_wf (Ring.useBank_wf h)) (Ring.useBank_wf h)
    · exact ite_wf (Ring.onElem_wf (xopWord_wf h)) (Ring.addLand_wf (xopWord_wf h))

theorem xopsCycle_wf {r : Ring} {g ps k : Nat} (h : r.spad.wf = true) : (xopsCycle r g ps k).1.spad.wf = true := by
  simp only [xopsCycle]
  split
  · exact h
  · exact foldl_fst_wf (fun _ h' _ => xopCycle_wf h') (Ring.onElem_wf h)

theorem unitsAt_wf {g : Nat} {a : Ring × List (Nat × FaultRec)} {at_ : Nat × Nat} (h : a.1.spad.wf = true) :
    (unitsAt g a at_).1.spad.wf = true := by
  simp only [unitsAt]
  refine xopsCycle_wf ?_
  refine qtxCycle_wf ?_
  split
  · exact (tileCycle_wf h).of_ok ‹_›
  · exact Ring.ask_wf h
  · exact Ring.onElem_wf ((tileCycle_wf h).of_fault ‹_›)
  · split <;> exact (tileCycle_wf h).of_poison ‹_›

theorem prepareLands_wf {r : Ring} (h : r.spad.wf = true) : (prepareLands r).spad.wf = true :=
  foldl_wf (fun _ h' _ => landAt_wf h') (foldl_wf (fun _ h' _ => retireAt_wf h') h)

theorem prepareUnits_wf {r : Ring} {g : Nat} (h : r.spad.wf = true) : (prepareUnits r g).1.spad.wf = true :=
  foldl_fst_wf (fun _ h' _ => unitsAt_wf h') (foldl_wf (fun _ h' _ => pushAt_wf h') h)

theorem prepareRing_wf {r : Ring} {g : Nat} (h : r.spad.wf = true) : (prepareRing r g).1.spad.wf = true :=
  prepareUnits_wf (prepareLands_wf h)

/-! ### Strikes, frees and hoists (R91 to R96, R162) -/

theorem strikesDue_sound {g : Nat} (h : Sound s) : Sound (strikesDue s g) := by
  simp only [strikesDue]
  refine foldl_sound ?_ h
  intro _ h' _
  split
  · exact ite_sound (strikeStripe_sound h') h'
  · exact h'

theorem freesDue_sound {g : Nat} (h : Sound s) : Sound (freesDue s g) :=
  foldl_sound (fun _ h' _ => ite_sound h' (happen_sound (fun _ => execStripeFree_kept) h')) h

theorem postSus_sound {g : Nat} (h : Sound s) : Sound (postSus s g) :=
  foldl_sound (fun _ h' _ => raiseFence_sound (rasEvent_sound h')) (onRing_sound (fun _ h' => h') h)

theorem runUnits_sound {g : Nat} (h : Sound s) : Sound (runUnits s g) :=
  postSus_sound (setRing_sound (prepareUnits_wf (h.spad_wf _)) h)

theorem prepareCycle_sound {g : Nat} {late : Bool} (h : Sound s) : Sound (prepareCycle s g late).1 := by
  unfold prepareCycle
  extract_lets x s1 s2 s3 s4
  have hx : x.1.spad.wf = true := by
    simp only [x]
    split
    · exact prepareLands_wf (h.spad_wf g)
    · exact prepareRing_wf (h.spad_wf g)
  clear_value x
  have h1 : Sound s1 := postSus_sound (setRing_sound hx h)
  clear_value s1
  have h2 : Sound s2 := by
    cases hu : (s1.ctx g).unwinding with
    | some u => simp only [s2, hu]; exact unwindStart_sound h1
    | none => simp only [s2, hu]; exact h1
  clear_value s2
  have h3 : Sound s3 := freesDue_sound (strikesDue_sound (knowTimes_sound h2))
  clear_value s3
  have h4 : Sound s4 := ite_sound (askHold_sound h3) (ite_self_sound restoreFails_sound h3)
  clear_value s4
  exact getD_sound (hoistEvent_sound (knowTimes_sound h4)) (knowTimes_sound h4)

/-! ### The end of a cycle -/

theorem settleFlags_wf {r : Ring} {at_ : Nat × Nat} (h : r.spad.wf = true) : (settleFlags r at_).spad.wf = true :=
  ite_wf h (ite_wf (Ring.onElem_wf h) (Ring.onElem_wf h))

theorem endElement_wf {r : Ring} {at_ : Nat × Nat} (h : r.spad.wf = true) : (endElement r at_).spad.wf = true :=
  ite_wf h (Ring.onElem_wf h)

theorem closeCycle_sound {g : Nat} (h : Sound s) : Sound (closeCycle s g) :=
  foldl_sound (fun _ h' _ => happen_sound (fun _ => execMatrixGate_kept) h') (onCtx_sound (onRing_sound
    (fun _ h' => foldl_wf (fun _ h' _ => endElement_wf h') (foldl_wf (fun _ h' _ => settleFlags_wf h')
    (Ring.meetFlaws_wf h'))) h))

theorem landStores_wf {r : Ring} (h : r.spad.wf = true) : (landStores r).spad.wf = true :=
  foldl_wf (fun _ h' _ => landWhere_wf h') h

theorem injectLast_sound {g : Nat} (h : Sound s) : Sound (injectLast s g) := ite_sound (sound_record h rfl rfl rfl) h

theorem endCycle_sound {g : Nat} (h : Sound s) : Sound (endCycle s g) :=
  ite_sound h (injectLast_sound (closeCycle_sound (onRing_sound (fun _ => landStores_wf) h)))

/-! ### After a fault (R352) -/

theorem settleFrom_wf {g n t : Nat} {r : Ring} (h : r.spad.wf = true) : (settleFrom g n t r).spad.wf = true := by
  induction n generalizing r t with
  | zero => exact h
  | succ n ih =>
    have hx : (prepareRing { r with ctx := { r.ctx with tc := t }, bankUse := [], holdAsk := 0 } g).1.spad.wf = true :=
      prepareRing_wf h
    simp only [settleFrom]
    split
    · exact h
    · split
      · exact h
      · exact ih (foldl_wf (fun r hr x => settleFlags_wf hr) hx)

theorem settleFault_sound {g : Nat} (h : Sound s) : Sound (settleFault s g) :=
  ite_sound (postSus_sound (onRing_sound (fun _ => settleFrom_wf) h)) h

/-! ### What acts beside the ring cycles -/

theorem chance_sound {f : State → State} (hf : ∀ s, Sound s → Sound (f s)) (h : Sound s) : Sound (chance f s) :=
  ite_sound (hf _ (tickFree_sound h)) (tickFree_sound h)

/-! ### The engines of a ring -/

theorem streamChance_sound {g n : Nat} (h : Sound s) : Sound (streamChance s g n) := by
  simp only [streamChance]
  split
  · split
    · refine ite_sound (happen_sound (fun _ => execStreamVisit_kept) h) ?_
      refine ite_sound h ?_
      split
      · exact deliverInput_sound h
      · exact h
    · exact h
  · refine ite_sound (happen_sound (fun _ => execStreamVisit_kept) h) ?_
    split
    · exact deliverInput_sound h
    · exact h
  · exact happen_sound (fun _ => execStreamVisit_kept) h

theorem runEngines_sound {g : Nat} (h : Sound s) : Sound (runEngines s g) := by
  unfold runEngines
  extract_lets mine ordered s1 r s2 s3
  have h1 : Sound s1 := foldl_sound (fun _ hs _ => chance_sound (fun _ h' => getD_sound (copyStep_sound h') h') hs) h
  have h2 : Sound s2 :=
    foldl_sound (fun _ hs _ => chance_sound (fun _ => happen_sound fun _ => execConfigRecordFetch_kept) hs) h1
  have h3 : Sound s3 := ite_sound h2
    (foldl_sound (fun _ hs _ => chance_sound (fun _ => happen_sound fun _ => execCopyChannelRecordFetch_kept) hs) h2)
  exact ite_sound h1 (foldl_sound (fun _ hs _ => ite_self_sound (chance_sound fun _ => streamChance_sound) hs) h3)

/-! ### The memory fabric -/

theorem requestChance_sound {q : Req} (h : Sound s) : Sound (requestChance s q) :=
  ite_sound (happen_sound (fun _ => execStaleRefusalReplay_kept) h) (happen_sound
    (fun _ => execMemoryAccessPerformed_kept) (tickFree_sound h))

theorem insertBy_mem {α : Type} {f : α → Nat} {x y : α} {l : List α} (h : y ∈ insertBy f x l) : y = x ∨ y ∈ l := by
  induction l with
  | nil => simpa [insertBy] using h
  | cons z l ih =>
    simp only [insertBy] at h
    split at h
    · simpa using h
    · rcases List.mem_cons.1 h with rfl | h
      · simp
      · rcases ih h with h | h <;> simp [h]

theorem foldr_insertBy_mem {α : Type} {f : α → Nat} {y : α} {l : List α} (h : y ∈ l.foldr (insertBy f) []) : y ∈ l := by
  induction l with
  | nil => exact h
  | cons x l ih => exact List.mem_cons.2 ((insertBy_mem h).imp_right ih)

theorem barrierQueue_sound {x : Nat × (State → State)} (hx : x ∈ barrierQueue s) (ht : Sound t) : Sound (x.2 t) := by
  have hx := foldr_insertBy_mem hx
  rcases List.mem_append.1 hx with hx | hx <;> obtain ⟨y, _, rfl⟩ := List.mem_map.1 hx
  · exact getD_sound (expectArrives_sound ht) (happen_sound (fun _ h' => execBarrierArrival_kept h') ht)
  · exact happen_sound (fun _ h' => execBarrierByteDecrement_kept h') ht

theorem ite_chance_sound {c : Prop} [Decidable c] {f : State → State} (hf : ∀ s, Sound s → Sound (f s)) (h : Sound s) :
    Sound (if c then chance f s else s) := ite_sound (chance_sound hf h) h

theorem runFabric_sound (h : Sound s) : Sound (runFabric s) := by
  unfold runFabric
  extract_lets s1 s2 s3 s4 s5 s6 s7
  have h1 : Sound s1 := foldl_sound (fun _ hs _ => chance_sound (fun _ => requestChance_sound) hs) h
  have h2 : Sound s2 :=
    List.foldlRecOn _ _ h1 fun _ hs _ hx => chance_sound (fun _ => barrierQueue_sound hx) hs
  have h3 : Sound s3 := foldl_sound (fun _ hs _ => chance_sound (fun _ => happen_sound fun _ => execCopyComplete_kept) hs) h2
  have h4 : Sound s4 := foldl_sound (fun _ hs _ => chance_sound (fun _ h' =>
    happen_sound (fun _ => execCollectiveComplete_kept) (happen_sound (fun _ => execCollectiveStart_kept) h')) hs) h3
  have h5 : Sound s5 := foldl_sound (fun _ hs _ => ite_chance_sound
    (fun _ h' => happen_sound (fun _ => execPprComplete_kept) (tickFree_sound h'))
    (ite_chance_sound (fun _ => happen_sound fun _ => execFlushComplete_kept) hs)) h4
  have h6 : Sound s6 := ite_chance_sound (fun _ => happen_sound fun _ => execShootDownComplete_kept) h5
  have h7 : Sound s7 := ite_chance_sound (fun _ => happen_sound fun _ => execGenerationBumpComplete_kept) h6
  exact reportFlaws_sound h7

/-! ### Placing members (R333, R335, R337) -/

theorem bindReady_sound {n : Nat} {t : Task} (h : Sound s) : Sound (bindReady s n t) := by
  simp only [bindReady]
  split
  · exact h
  · exact foldl_sound (fun _ h' _ => happen_sound (fun _ => execBindRecordWrite_kept) h') (tickFree_sound h)

theorem bindSaved_sound {n : Nat} (h : Sound s) : Sound (bindSaved s n) :=
  ite_sound (foldl_sound (fun _ h' _ => happen_sound (fun _ => execBindRecordWrite_kept) h') h) h

theorem bindTasks_sound (h : Sound s) : Sound (bindTasks s) := by
  simp only [bindTasks]
  refine foldl_sound ?_ h
  intro _ h' _
  split
  · exact ite_sound (bindReady_sound h') (bindSaved_sound h')
  · exact h'

/-! ### Eosen -/

theorem tendRing_sound {g : Nat} (h : Sound s) : Sound (tendRing s g) := by
  unfold tendRing
  refine ite_sound (happen_sound (fun _ => execQuantumExpiry_kept) h) ?_
  extract_lets s1 s2 s3 s4 s5
  have h1 : Sound s1 := happen_sound (fun _ => execQuantumExpiry_kept) h
  have h2 : Sound s2 := foldl_sound (fun _ hs _ => ite_self_sound (happen_sound fun _ => execFaultholdExpiry_kept) hs) h1
  have h3 : Sound s3 := ite_self_sound (happen_sound fun _ => execFaultSave_kept) h2
  have h4 : Sound s4 := happen_sound (fun _ => execYieldDecision_kept) (happen_sound (fun _ => execSysQuantum_kept)
    (happen_sound (fun _ => execSysThandler_kept) (happen_sound (fun _ => execSysSetpri_kept)
      (happen_sound (fun _ => execSysHostev_kept) (happen_sound (fun _ => execSysPing_kept) h3)))))
  have h5 : Sound s5 := ite_self_sound (happen_sound fun _ => execSlotRelease_kept) h4
  exact ite_sound h5 (applyFence_sound h5)

theorem tendFaults_sound {d : Nat} (h : Sound s) : Sound (tendFaults s d) := by
  simp only [tendFaults]
  refine ite_sound h ?_
  split
  · exact ite_sound (happen_sound (fun _ => execFaultBufferFlush_kept) (happen_sound
      (fun _ => execFbstatOvfClear_kept) (tickFree_sound h))) (happen_sound (fun _ => execUnservicedFaultEnd_kept)
      (tickFree_sound h))
  · exact happen_sound (fun _ => execFaultBufferFlush_kept) (happen_sound (fun _ => execFbstatOvfClear_kept) h)

theorem tendTask_sound {n : Nat} (h : Sound s) : Sound (tendTask s n) := by
  unfold tendTask
  extract_lets s1 s2 s3
  have h1 : Sound s1 := happen_sound (fun _ => execKill_kept) (happen_sound (fun _ => execQueueFence_kept) h)
  have h2 : Sound s2 := foldl_sound (fun _ hs _ => happen_sound (fun _ => execTriggerRelease_kept)
    (happen_sound (fun _ => execDependenceRelease_kept) hs)) h1
  have h3 : Sound s3 := happen_sound (fun _ => execGangDispatch_kept) h2
  split
  · exact happen_sound (fun _ => execCompletionRecordDeferredWrite_kept) h3
  · exact h3

theorem runFirmware_sound (h : Sound s) : Sound (runFirmware s) := by
  unfold runFirmware
  extract_lets s1 s2 s3 s4 s5 s6
  have h1 : Sound s1 := foldl_sound (fun _ hs _ => chance_sound (fun _ => tendRing_sound) hs) h
  have h2 : Sound s2 := foldl_sound (fun _ hs _ => chance_sound (fun _ => tendFaults_sound) hs) h1
  have h3 : Sound s3 := foldl_sound (fun _ hs _ => chance_sound (fun _ => happen_sound fun _ => execTaskEntry_kept) hs) h2
  have h4 : Sound s4 := foldl_sound (fun _ hs _ => chance_sound (fun _ => tendTask_sound) hs) h3
  have h5 : Sound s5 := foldl_sound (fun _ hs _ => chance_sound (fun _ => tendTable_sound) hs) h4
  have h6 : Sound s6 := chance_sound (fun _ => bindTasks_sound) (chance_sound (fun _ => divideCap_sound) h5)
  exact ite_sound h (foldl_sound (fun _ hs _ => happen_sound (fun _ hp => execAuditRingTimeout_kept hp)
    (chance_sound (fun _ => tendReplay_sound) (finishLog_sound hs))) h6)

/-! ### Issue -/

theorem throttleCall_sound {g n : Nat} (h : Sound s) : Sound (throttleCall s g n) := enterState_sound (onCtx_sound h)

theorem issueStep_kept {g : Nat} (h : Sound s) : Kept (issueStep s g) := by
  simp only [issueStep]
  refine kept_ite (kept_next h) ?_
  refine kept_ite (exec_kept h) ?_
  split
  · exact kept_next (throttleCall_sound h)
  · refine kept_ite (kept_next (takeFault_sound h)) ?_
    split
    · exact exec_kept (ite_sound (onCtx_sound h) h)
    · exact kept_refused

theorem issueRow_kept {g ps slot ent : Nat} (h : Sound s) : Kept (issueRow s g ps slot ent) := by
  simp only [issueRow]
  refine kept_ite (kept_next h) ?_
  split
  · exact exec_kept h
  · exact kept_refused

theorem undoRow_sound {g : Nat} (h : Sound s) (ht : Sound t) : Sound (undoRow s t g) := by
  unfold undoRow
  split
  · exact ⟨⟨ht.mem_wf, (takeFault_sound h).spad_wf⟩, ht.sub_lt⟩
  · exact ht

theorem runItem_kept {w : Work} (h : Sound s) : Kept (runItem w s) := by
  simp only [runItem]
  split
  · split
    · exact kept_next h
    · exact exec_kept h
  · exact kept_next (ite_sound (consumePoison_sound h) (takeFault_sound h))
  · split
    · exact kept_next h
    · exact issueStep_kept (sound_record h rfl rfl rfl)
  · split
    · exact kept_next (undoRow_sound h ((issueRow_kept (sound_record h rfl rfl rfl)).of_next ‹_›))
    · exact issueRow_kept (sound_record h rfl rfl rfl)
  · exact kept_next (endCycle_sound h)
  · exact kept_next (runUnits_sound h)
  · exact kept_next h
  · exact kept_next h
  · exact kept_next h
  · exact kept_next h
  · exact kept_next h

/-! ### Holds (R85, R86) -/

theorem holdCycle_sound {g cause : Nat} (h : Sound s) : Sound (holdCycle s g cause) := by
  simp only [holdCycle]
  refine ite_sound ?_ ?_
  · refine sound_record ?_ rfl rfl rfl
    refine onRing_sound (fun _ h' => h') ?_
    refine onCtx_sound ?_
    refine ite_sound ?_ h
    split
    · exact onCtx_sound h
    · exact h
  · refine onRing_sound (fun _ h' => h') ?_
    refine onCtx_sound ?_
    refine ite_sound ?_ h
    split
    · exact onCtx_sound h
    · exact h

theorem commit_sound {g : Nat} {items : List Work} {fs : List (Nat × FaultRec)} (h : Sound s) :
    Sound (commit s g items fs) := by
  unfold commit
  extract_lets s1 resume items'
  have h1 : Sound s1 := onRing_sound (fun _ hr => hr) h
  exact sound_record (onCtx_sound h1) rfl rfl rfl

theorem cycleWork_fst {g : Nat} : (cycleWork s g).1 = (prepareCycle s g (qsetNow (s.ctx g))).1 := by
  simp only [cycleWork]
  rw [apply_ite Prod.fst, ite_self]

theorem cycleWork_sound {g : Nat} (h : Sound s) : Sound (cycleWork s g).1 := by
  rw [cycleWork_fst]
  exact prepareCycle_sound h

theorem attempt_sound {g : Nat} {watchdog : Bool} (h : Sound s) : Sound (attempt s g watchdog) := by
  unfold attempt
  extract_lets s1
  have h1 : Sound s1 := onRing_sound (fun _ hr => hr) h
  clear_value s1
  simp only
  have hold {c : Nat} {l : List Work} : Sound (holdCycle { s1 with agenda := l } g c) :=
    holdCycle_sound (sound_record h1 rfl rfl rfl)
  cases (s1.ctx g).brkResume with
  | some b => exact ite_sound h1 (ite_sound hold (commit_sound h1))
  | none =>
    have h2 := cycleWork_sound (g := g) (onCtx_sound (g := g) (f := Ctx.advanceTc) h1)
    exact ite_sound h2 (ite_sound hold (commit_sound h2))

/-! ### The start of a ring cycle -/

theorem clockTick_sound {g : Nat} (h : Sound s) : Sound (clockTick s g).1 := by
  simp only [clockTick]
  split
  · exact onRing_sound (fun _ h' => h') h
  · split
    · exact onRing_sound (fun _ h' => h') h
    · exact ite_sound (onRing_sound (fun _ h' => h') (tickFree_sound (onRing_sound (fun _ h' => h') h)))
        (tickFree_sound (onRing_sound (fun _ h' => h') h))

theorem ringEnds_sound {g : Nat} (h : Sound s) : Sound (ringEnds s g) :=
  ite_sound h (happen_sound (fun _ => execDrainQuiescence_kept) (happen_sound (fun _ => execContextEnd_kept) h))

theorem ringEvents_sound {g : Nat} (h : Sound s) : Sound (ringEvents s g) :=
  ite_sound h (happen_sound (fun _ => execHalyardRestoreComplete_kept) (happen_sound
    (fun _ => execHalyardSaveComplete_kept) (happen_sound (fun _ => execContainmentHandlerEntry_kept) h)))

theorem tickRing_sound {g : Nat} (h : Sound s) : Sound (tickRing s g) :=
  ite_sound (leaveKilled_sound (ite_sound (hoistCycle_sound (onRing_sound (fun _ h' => h') h)) (writeCycle_sound
    (hoistCycle_sound (onRing_sound (fun _ h' => h') h))))) (ite_sound (hoistCycle_sound (onRing_sound
    (fun _ h' => h') h)) (writeCycle_sound (hoistCycle_sound (onRing_sound (fun _ h' => h') h))))

theorem beginRing_sound {g : Nat} (h : Sound s) : Sound (beginRing s g) := by
  have hc := clockTick_sound (g := g) (ringEnds_sound (g := g) h)
  unfold beginRing
  simp only
  generalize clockTick (ringEnds s g) g = p at hc
  obtain ⟨s1, run⟩ := p
  simp only
  have ht := tickRing_sound (g := g) hc
  have h2 : Sound (ringEvents (if run then
      saveCycle (if watchdogDue s g then tickRing s1 g else advanceSave (tickRing s1 g) g) g else s1) g) :=
    ringEvents_sound (ite_sound (saveCycle_sound (ite_sound ht (advanceSave_sound ht))) hc)
  have h3 {c : Prop} [Decidable c] :=
    ite_self_sound (c := c) (happen_sound fun _ => execWatchdogExpiry_kept (g := g)) h2
  exact ite_sound h3 (ite_sound (settleFault_sound h2) (ite_sound (ite_sound h2 (onCtx_sound h3)) (attempt_sound h2)))

/-! ### The module cycle -/

theorem countTicks_sound (h : Sound s) : Sound (countTicks s) :=
  foldl_sound (fun _ h' _ => ite_sound (onCtx_sound h') h') h

theorem advanceTime_sound (h : Sound s) : Sound (advanceTime s) := by
  unfold advanceTime
  split
  next hs => exact ⟨h.1, hs⟩
  · have h1 : Sound { (if s.aon.powered && !s.aon.frozen then applyCaps s else s) with sub := 0, tick := s.tick + 1 } :=
      ⟨(ite_sound (applyCaps_sound h) h).1, (by decide : 0 < 19)⟩
    exact ite_sound (countTicks_sound (foldl_sound (fun _ h' _ => patrolTick_sound h') (wipeTick_sound h1))) h1

theorem moduleCycle_sound (h : Sound s) : Sound (moduleCycle s) :=
  ite_sound (sound_record (advanceTime_sound h) rfl rfl rfl) (advanceTime_sound h)

theorem runWork_kept {w : Work} (h : Sound s) : Kept (runWork w s) := by
  simp only [runWork]
  split
  · exact kept_next (beginRing_sound h)
  · exact kept_next (runEngines_sound h)
  · exact kept_next (runFabric_sound h)
  · exact kept_next (happen_sound (fun _ => execInjectionFire_kept) h)
  · exact kept_next (runFirmware_sound h)
  · exact runItem_kept h
  · exact runItem_kept h
  · exact runItem_kept h
  · exact runItem_kept h
  · exact runItem_kept h
  · exact runItem_kept h

theorem takeInput_kept {i : Instr} (h : Sound s) : Kept (takeInput i s) := kept_ite (runItem_kept h) (kept_next h)

theorem advance_kept (h : Sound s) : Kept (advance s) := by
  simp only [advance]
  split
  · exact runWork_kept (sound_record h rfl rfl rfl)
  · split
    · exact takeInput_kept (sound_record h rfl rfl rfl)
    · exact kept_next (moduleCycle_sound h)

/-! ### The step -/

theorem step_kept (h : Sound s) : Kept (step s) := advance_kept h

end

end Sys2Proof.Machine
end

section
/-!
SUPPORT. What the step does with each place of issue: a row item, a sequencer item, an event, an input, and with nothing
left to do.
-/

namespace Sys2Proof.Machine

open Sys2Proof Sys2Proof.Safety

/-! ### The item at the head -/

section
variable {s t : State} {l : List Work} {i : Instr}

theorem step_row {g ps col slot inst ent : Nat} (ha : s.agenda = .row g ps col slot inst ent :: l) :
    step s = runItem (.row g ps col slot inst ent) { s with agenda := l } := by
  simp only [step, advance, ha, runWork]

theorem step_seq {g : Nat} (ha : s.agenda = .seq g :: l) : step s = runItem (.seq g) { s with agenda := l } := by
  simp only [step, advance, ha, runWork]

theorem step_event (ha : s.agenda = .event i :: l) : step s = runItem (.event i) { s with agenda := l } := by
  simp only [step, advance, ha, runWork]

theorem step_input {l : List Instr} (ha : s.agenda = []) (hi : s.inputs = i :: l) :
    step s = takeInput i { s with inputs := l } := by
  simp only [step, advance, ha, hi]

theorem step_idle (ha : s.agenda = []) (hi : s.inputs = []) : step s = .next (moduleCycle s) := by
  simp only [step, advance, ha, hi]

theorem runItem_event_next (he : exec i s = .next t) : runItem (.event i) s = .next t := by
  simp only [runItem, he]

theorem runItem_event_notDue (he : exec i s = .refused .notDue) : runItem (.event i) s = .next s := by
  simp only [runItem, he]

theorem takeInput_of_mayArrive (hm : mayArrive s i = true) : takeInput i s = runItem (.event i) s := if_pos hm

theorem takeInput_of_not_mayArrive (hm : mayArrive s i = false) : takeInput i s = .next s := by
  simp only [takeInput, hm, Bool.false_eq_true, if_false]

theorem mayArrive_of_stopped (hs : s.aon.powered = false ∨ s.aon.frozen = true) (hx : auxiliary i = false) :
    mayArrive s i = false := by
  rcases hs with h | h <;> simp [mayArrive, h, hx]

/-! ### Rows -/

section
variable {g ps col slot inst ent : Nat}

theorem rowWordAt_eq :
    rowWordAt s g ps slot = slotRow (((s.ring g).stripe ps).record.elim 0 fun rc => recSlot rc slot) := by
  unfold rowWordAt
  cases ((s.ring g).stripe ps).record with
  | none => rfl
  | some rc => rfl

theorem issueRow_of_decode (hu : (s.ctx g).unwinding = none) (hd : decodeRow (rowWordAt s g ps slot) = .ok i) :
    issueRow s g ps slot ent = exec i s := by
  simp only [issueRow, hu, hd, Option.any_none, Bool.false_eq_true, if_false]

theorem runItem_row_next (he : issueRow { s with focus := ⟨g, ps, col, slot, inst, ent⟩ } g ps slot ent = .next t) :
    runItem (.row g ps col slot inst ent) s = .next (undoRow s t g) := by
  simp only [runItem, he]

theorem runItem_row_of_not_next {o : Host.Outcome State Fault Refusal}
    (he : issueRow { s with focus := ⟨g, ps, col, slot, inst, ent⟩ } g ps slot ent = o) (ho : ∀ t, o ≠ .next t) :
    runItem (.row g ps col slot inst ent) s = o := by
  cases o with
  | next t => exact absurd rfl (ho t)
  | fault _ | refused _ => simp only [runItem, he]

theorem undoRow_keeps (h : (t.ctx g).fault = none ∨ (s.ctx g).fault ≠ none) : undoRow s t g = t := by
  unfold undoRow
  split
  next hs ht => simp [hs, ht] at h
  · rfl

theorem undoRow_of_fault {f : FaultRec} (hs : (s.ctx g).fault = none) (ht : (t.ctx g).fault = some f) :
    undoRow s t g = { t with rings := (takeFault s g f).rings } := by
  simp only [undoRow, hs, ht]

theorem takeFault_rings_focus {f : FaultRec} {p : Focus} :
    (takeFault { s with focus := p } g f).rings = (takeFault s g f).rings := by
  simp only [takeFault, apply_ite State.rings]
  rfl

end

/-- What a row item does whose word decodes to `i`. -/
theorem step_row_of_decode {g ps col slot inst ent : Nat} (ha : s.agenda = .row g ps col slot inst ent :: l)
    (hu : (s.ctx g).unwinding = none) (hd : decodeRow (rowWordAt s g ps slot) = .ok i) :
    let u : State := { s with agenda := l, focus := ⟨g, ps, col, slot, inst, ent⟩ }
    (∀ t, exec i u = .next t → ((t.ctx g).fault = none ∨ (s.ctx g).fault ≠ none) → step s = .next t) ∧
    (∀ t f, exec i u = .next t → (s.ctx g).fault = none → (t.ctx g).fault = some f →
      step s = .next { t with rings := (takeFault u g f).rings }) ∧
    ((∀ t, exec i u ≠ .next t) → step s = exec i u) := by
  intro u
  have hi : issueRow u g ps slot ent = exec i u := issueRow_of_decode hu hd
  rw [step_row ha]
  refine ⟨fun t he hf => ?_, fun t f he hs ht => ?_, runItem_row_of_not_next hi⟩
  · rw [runItem_row_next (hi.trans he), undoRow_keeps (by exact hf)]
  · rw [runItem_row_next (hi.trans he), undoRow_of_fault (by exact hs) ht]
    exact congrArg (fun r => Host.Outcome.next { t with rings := r }) takeFault_rings_focus.symm

/-! ### Steps -/

section
variable {g : Nat}

/-- The sequencer of a context that goes on. -/
def Ctx.sequences (c : Ctx) : Prop :=
  c.fault = none ∧ c.ended = false ∧ c.ending = none ∧ c.draining = false ∧ c.unwinding = none ∧ c.yielded = false ∧
    c.replay = none

theorem issueStep_waiting (hc : (s.ctx g).sequences) (hw : (s.ctx g).wait.isSome = true) :
    issueStep s g = exec (.stepWaitComplete g) s := by
  obtain ⟨hf, he, hn, hd, hu, hy, hr⟩ := hc
  simp [issueStep, hf, he, hn, hd, hu, hy, hr, hw]

theorem issueStep_badSlot (hc : (s.ctx g).sequences) (hw : (s.ctx g).wait = none) (ht : (s.ctx g).thNotice = false)
    (hb : (s.ctx g).badSlots.contains (s.ctx g).si = true) :
    issueStep s g = .next (takeFault s g (faultAt s g 4 20 0 0)) := by
  obtain ⟨hf, he, hn, hd, hu, hy, hr⟩ := hc
  simp only [issueStep, hf, he, hn, hd, hu, hy, hr, hw, ht, hb]
  rfl

theorem issueStep_of_stepAt (hc : (s.ctx g).sequences) (hw : (s.ctx g).wait = none) (ht : (s.ctx g).thNotice = false)
    (hb : (s.ctx g).badSlots = []) (hi : (s.ctx g).stepAt (s.ctx g).si = .ok i) : issueStep s g = exec i s := by
  obtain ⟨hf, he, hn, hd, hu, hy, hr⟩ := hc
  simp [issueStep, hf, he, hn, hd, hu, hy, hr, hw, ht, hb, hi]

theorem runItem_seq_next (he : issueStep { s with focus := ⟨g, 0, 0, 0, 0, 0⟩ } g = .next t) :
    runItem (.seq g) s = .next t := by
  simp only [runItem, he]

end

end

end Sys2Proof.Machine
end

section
/-!
SUPPORT. What a tick of the time base keeps: the always-on domain, the tick and the place within it are moved by
`advanceTime` alone, and a tick in which no cap was written, no wipe is under way and no scratchpad has a flaw keeps memory
and the hub.
-/

namespace Sys2Proof.Machine

open Sys2Proof Sys2Proof.Safety

/-- The always-on domain and the time base. -/
def State.clock (s : State) : Aon × BitVec 64 × Nat := (s.aon, s.tick, s.sub)

theorem State.clock_eq_iff {s t : State} : t.clock = s.clock ↔ t.aon = s.aon ∧ t.tick = s.tick ∧ t.sub = s.sub := by
  simp only [State.clock, Prod.mk.injEq]

section
variable (s : State)

@[simp] theorem State.onRing_clock (g : Nat) (f : Ring → Ring) : (s.onRing g f).clock = s.clock := rfl
@[simp] theorem State.onCtx_clock (g : Nat) (f : Ctx → Ctx) : (s.onCtx g f).clock = s.clock := rfl
@[simp] theorem State.onDie_clock (d : Nat) (f : Die → Die) : (s.onDie d f).clock = s.clock := rfl
@[simp] theorem State.onHub_clock (f : Hub → Hub) : (s.onHub f).clock = s.clock := rfl
@[simp] theorem State.tickFree_clock : s.tickFree.clock = s.clock := rfl

theorem foldl_clock {α : Type} {f : State → α → State} (hf : ∀ s x, (f s x).clock = s.clock) (l : List α) :
    (l.foldl f s).clock = s.clock :=
  List.foldlRecOn (motive := fun t => t.clock = s.clock) l f rfl fun t ht x _ => (hf t x).trans ht

@[simp] theorem State.hostDrop_clock (f : Nat) : (s.hostDrop f).clock = s.clock := rfl

@[simp] theorem State.hostWrite_clock (f pa : Nat) (bs : List Byte) : (s.hostWrite f pa bs).clock = s.clock := by
  unfold State.hostWrite
  split <;> rfl

@[simp] theorem State.busWrite_clock (pa : Nat) (bs : List Byte) : (s.busWrite pa bs).clock = s.clock := by
  unfold State.busWrite
  split
  · rfl
  · split
    · exact s.hostWrite_clock _ pa bs
    · rfl

@[simp] theorem State.physWrite_clock (pa : Nat) (bs : List Byte) : (s.physWrite pa bs).clock = s.clock :=
  s.busWrite_clock pa bs

@[simp] theorem State.hostEvent_clock (f kind info : Nat) (tag ctx : BitVec 16) :
    (s.hostEvent f kind info tag ctx).clock = s.clock := by
  unfold State.hostEvent
  simp only
  split
  · rfl
  · exact s.physWrite_clock _ _

@[simp] theorem State.rasEvent_clock (kind addr info : Nat) (ctx : BitVec 16) (ring stack pos col : Nat) :
    (s.rasEvent kind addr info ctx ring stack pos col).clock = s.clock := by
  unfold State.rasEvent
  split
  · rfl
  · exact s.physWrite_clock _ _

/-! ### Caps (R389) -/

theorem applyCap_clock (src c : Nat) : (applyCap s src c).clock = s.clock := by
  simp only [applyCap]
  split <;> split <;> simp

theorem applyCaps_clock : (applyCaps s).clock = s.clock := by
  unfold applyCaps
  exact foldl_clock _ (fun s w => applyCap_clock s _ _) _

/-! ### The end of a wipe (R373, R396) -/

theorem queueWrite_clock (q : Nat) (old v : BitVec 64) (f : Hub → BitVec 64 → Hub) :
    (queueWrite s q old v f).clock = s.clock := by
  unfold queueWrite
  split <;> rfl

theorem configureQueues_clock : (configureQueues s).clock = s.clock := by
  refine foldl_clock _ (fun s q => ?_) _
  simp only [eosenWrite, queueWrite_clock, State.onHub_clock]

theorem bootDone_clock : (bootDone s).clock = s.clock := by
  rw [bootDone, State.onHub_clock, configureQueues_clock]
  exact foldl_clock s (fun s g => s.onRing_clock g _) _

theorem wipeTick_clock : (wipeTick s).clock = s.clock := by
  simp only [wipeTick]
  split
  · rfl
  · split
    · exact bootDone_clock _
    · rfl

/-! ### The patrol (R356) -/

theorem tableRas_clock (kind table : Nat) : (tableRas s kind table).clock = s.clock := by
  simp only [tableRas]
  split <;> simp

theorem classify_clock (x : ErrorSite) : (classify s x).clock = s.clock := by
  unfold classify execCorrectedError
  split
  next he =>
    split at he
    · cases he
    · split at he
      · cases he; exact tableRas_clock s _ _
      · simp only at he
        split at he
        · split at he <;> cases he
          · exact tableRas_clock _ _ _
          · rfl
        · cases he; rfl
  · rfl

theorem scrubChunk_clock (g k : Nat) (found : ScrubFound) : (scrubChunk s g k found).clock = s.clock := by
  simp only [scrubChunk]
  split
  · simp
  · split
    · exact classify_clock _ _
    · rfl

theorem patrolTick_clock (d : Nat) : (patrolTick s d).clock = s.clock := by
  simp only [patrolTick]
  split
  · rfl
  · exact foldl_clock _ (fun s x => scrubChunk_clock s _ _ _) _

theorem countTicks_clock : (countTicks s).clock = s.clock := by
  refine foldl_clock _ (fun s g => ?_) _
  split <;> rfl

end

end Sys2Proof.Machine
end

section
/-!
SUPPORT. The time base (R8): what a module cycle moves, and what it keeps.
-/

namespace Sys2Proof.Machine

open Sys2Proof Sys2Proof.Safety

section
variable {s : State}

/-! ### Ticks with nothing to do -/

theorem applyCaps_of_none (h : s.hub.capWrites = []) : applyCaps s = s := by
  have hh : { s.hub with capWrites := [] } = s.hub := by rw [← h]
  simp only [applyCaps, h, List.foldr_nil, List.foldl_nil]
  exact congrArg (fun x => { s with hub := x }) hh

theorem onDie_ring (d : Nat) (f : Die → Die) (g : Nat) : (s.onDie d f).ring g = s.ring g := rfl

theorem wipeTick_of_done (h : s.hub.wipest = false) : wipeTick s = s := by
  simp only [wipeTick, h, Bool.not_false, if_true]

theorem patrolTick_of_no_flaws {d : Nat} (h : ∀ g, (s.ring g).flaws = []) :
    (patrolTick s d).mem = s.mem ∧ (patrolTick s d).hub = s.hub ∧ (patrolTick s d).rings = s.rings := by
  unfold patrolTick
  simp only
  split
  · exact ⟨rfl, rfl, rfl⟩
  · have hn : (List.range 6).flatMap (fun _ => ([] : List (Nat × Nat × Nat))) = [] :=
      List.flatMap_eq_nil_iff.2 fun _ _ => rfl
    simp only [onDie_ring, h, List.map_nil, hn, List.filter_nil, List.foldr_nil, List.foldl_nil]
    exact ⟨rfl, rfl, rfl⟩

theorem patrol_of_no_flaws (h : ∀ g, (s.ring g).flaws = []) (l : List Nat) :
    (l.foldl patrolTick s).mem = s.mem ∧ (l.foldl patrolTick s).hub = s.hub ∧ (l.foldl patrolTick s).rings = s.rings := by
  refine List.foldlRecOn (motive := fun t : State => t.mem = s.mem ∧ t.hub = s.hub ∧ t.rings = s.rings) l patrolTick
    ⟨rfl, rfl, rfl⟩ fun t ⟨hm, hh, hr⟩ d _ => ?_
  have ht : ∀ g, (t.ring g).flaws = [] := fun g => by simpa only [State.ring, hr] using h g
  obtain ⟨hm', hh', hr'⟩ := patrolTick_of_no_flaws (d := d) ht
  exact ⟨hm'.trans hm, hh'.trans hh, hr'.trans hr⟩

theorem countTicks_mem_hub : (countTicks s).mem = s.mem ∧ (countTicks s).hub = s.hub := by
  refine List.foldlRecOn (motive := fun t : State => t.mem = s.mem ∧ t.hub = s.hub) _ _ ⟨rfl, rfl⟩ fun t ht g _ => ?_
  split
  · exact ht
  · exact ht

/-! ### The time base -/

/-- The clocks run and the main rails are up. -/
def State.live (s : State) : Bool := s.aon.powered && !s.aon.frozen

theorem live_of_stopped (h : s.aon.powered = false ∨ s.aon.frozen = true) : s.live = false := by
  rcases h with h | h <;> simp [State.live, h]

theorem advanceTime_within (h : s.sub + 1 < 19) : advanceTime s = { s with sub := s.sub + 1 } := if_pos h

theorem advanceTime_stopped (h : ¬ s.sub + 1 < 19) (hl : s.live = false) :
    advanceTime s = { s with sub := 0, tick := s.tick + 1 } := by
  have hl' : (s.aon.powered && !s.aon.frozen) = false := hl
  refine (if_neg h).trans ?_
  simp only [hl', Bool.false_eq_true, if_false]

theorem advanceTime_live (h : ¬ s.sub + 1 < 19) (hl : s.live = true) :
    advanceTime s = countTicks ((List.range 4).foldl patrolTick
      (wipeTick { applyCaps s with sub := 0, tick := s.tick + 1 })) := by
  have hl' : (s.aon.powered && !s.aon.frozen) = true := hl
  refine (if_neg h).trans ?_
  simp only [hl', if_true]

theorem advanceTime_clock (h : ¬ s.sub + 1 < 19) : (advanceTime s).clock = (s.aon, s.tick + 1, 0) := by
  cases hl : s.live with
  | false => rw [advanceTime_stopped h hl]; rfl
  | true =>
    obtain ⟨ha, -, -⟩ := State.clock_eq_iff.1 (applyCaps_clock s)
    rw [advanceTime_live h hl, countTicks_clock, foldl_clock _ patrolTick_clock, wipeTick_clock]
    simp only [State.clock, ha]

/-- In a tick in which nothing falls due, the end of the tick keeps memory and the hub. -/
theorem advanceTime_mem_hub (h : s.sub + 1 < 19 ∨ s.live = false ∨
    (s.hub.wipest = false ∧ s.hub.capWrites = [] ∧ ∀ g, (s.ring g).flaws = [])) :
    (advanceTime s).mem = s.mem ∧ (advanceTime s).hub = s.hub := by
  by_cases ht : s.sub + 1 < 19
  · rw [advanceTime_within ht]; exact ⟨rfl, rfl⟩
  cases hl : s.live with
  | false => rw [advanceTime_stopped ht hl]; exact ⟨rfl, rfl⟩
  | true =>
    obtain ⟨hw, hc, hf⟩ := (h.resolve_left ht).resolve_left (by simp [hl])
    obtain ⟨hm, hh⟩ := countTicks_mem_hub (s := (List.range 4).foldl patrolTick { s with sub := 0, tick := s.tick + 1 })
    obtain ⟨hm', hh', -⟩ := patrol_of_no_flaws (s := { s with sub := 0, tick := s.tick + 1 }) hf (List.range 4)
    rw [advanceTime_live ht hl, applyCaps_of_none hc, wipeTick_of_done (by exact hw)]
    exact ⟨hm.trans hm', hh.trans hh'⟩

/-! ### A module cycle -/

theorem moduleCycle_keeps : (moduleCycle s).mem = (advanceTime s).mem ∧ (moduleCycle s).hub = (advanceTime s).hub ∧
    (moduleCycle s).rings = (advanceTime s).rings ∧ (moduleCycle s).clock = (advanceTime s).clock := by
  simp only [moduleCycle]
  split <;> exact ⟨rfl, rfl, rfl, rfl⟩

theorem advanceTime_aon : (advanceTime s).aon = s.aon := by
  by_cases h : s.sub + 1 < 19
  · rw [advanceTime_within h]
  · exact congrArg Prod.fst (advanceTime_clock h)

theorem moduleCycle_stopped (hl : s.live = false) : moduleCycle s = advanceTime s := by
  have hl' : ¬ ((advanceTime s).aon.powered && !(advanceTime s).aon.frozen) = true := by
    rw [advanceTime_aon]; exact Bool.not_eq_true _ ▸ hl
  exact if_neg hl'

theorem advanceTime_stopped_keeps (hl : s.live = false) :
    (advanceTime s).agenda = s.agenda ∧ (advanceTime s).rings = s.rings := by
  by_cases h : s.sub + 1 < 19
  · rw [advanceTime_within h]; exact ⟨rfl, rfl⟩
  · rw [advanceTime_stopped h hl]; exact ⟨rfl, rfl⟩

/-- With nothing left to do, the time base moves by one nominal cycle. -/
theorem step_moves_time (ha : s.agenda = []) (hi : s.inputs = []) : ∃ t, step s = .next t ∧ t.aon = s.aon ∧
    ((s.sub + 1 < 19 ∨ s.aon.powered = false ∨ s.aon.frozen = true ∨ (s.hub.wipest = false ∧ s.hub.capWrites = [] ∧
      ∀ g, (s.ring g).flaws = [])) → t.mem = s.mem ∧ t.hub = s.hub) ∧
    (s.sub + 1 < 19 → t.sub = s.sub + 1 ∧ t.tick = s.tick ∧ t.rings = s.rings) ∧
    (19 ≤ s.sub + 1 → t.sub = 0 ∧ t.tick = s.tick + 1) ∧
    ((s.aon.powered = false ∨ s.aon.frozen = true) → t.agenda = [] ∧ t.rings = s.rings) := by
  obtain ⟨hm, hh, hr, hc⟩ := moduleCycle_keeps (s := s)
  obtain ⟨haon, htick, hsub⟩ := State.clock_eq_iff.1 hc
  refine ⟨moduleCycle s, step_idle ha hi, haon.trans advanceTime_aon, fun h => ?_, fun h => ?_, fun h => ?_, fun h => ?_⟩
  · have hn : s.sub + 1 < 19 ∨ s.live = false ∨
        (s.hub.wipest = false ∧ s.hub.capWrites = [] ∧ ∀ g, (s.ring g).flaws = []) := by
      rcases h with h | h | h | h
      · exact .inl h
      · exact .inr (.inl (live_of_stopped (.inl h)))
      · exact .inr (.inl (live_of_stopped (.inr h)))
      · exact .inr (.inr h)
    obtain ⟨hm', hh'⟩ := advanceTime_mem_hub hn
    exact ⟨hm.trans hm', hh.trans hh'⟩
  · rw [hsub, htick, hr, advanceTime_within h]
    exact ⟨rfl, rfl, rfl⟩
  · have ht := advanceTime_clock (Nat.not_lt.2 h)
    exact ⟨hsub.trans (congrArg (·.2.2) ht), htick.trans (congrArg (·.2.1) ht)⟩
  · have hl := live_of_stopped h
    obtain ⟨ha', hr'⟩ := advanceTime_stopped_keeps hl
    rw [moduleCycle_stopped hl]
    exact ⟨ha'.trans ha, hr'⟩

end

end Sys2Proof.Machine
end

section
/-!
SUPPORT. The instruction placed for the next step (log 18): the row slot that it is put in holds its word.
-/

namespace Sys2Proof.Machine

open Sys2Proof Sys2Proof.Safety

theorem toOption_eq_some {ε α : Type} {x : Except ε α} {a : α} (h : x.toOption = some a) : x = .ok a := by
  cases x with
  | error _ => cases h
  | ok b => exact congrArg Except.ok (Option.some.inj h)

theorem slotRow_ofNat (w : Nat) : slotRow (BitVec.ofNat 128 w) = BitVec.ofNat 80 w := by
  apply BitVec.eq_of_toNat_eq
  simp only [slotRow, BitVec.extractLsb'_toNat, BitVec.toNat_ofNat]
  omega

theorem decodeRow_of_tableWord {w : Nat} {i : Instr} (hw : w < 2 ^ 80) (h : decodeTableWord 80 w = some i) :
    decodeRow (slotRow (BitVec.ofNat 128 w)) = .ok i := by
  have hb : leNat (leBytes 10 w) = w := (leNat_leBytes 10 w).trans (Nat.mod_eq_of_lt (by omega))
  have hd : decode (leBytes 10 w) = .ok i := toOption_eq_some h
  rw [decode, length_leBytes, if_pos rfl, hb] at hd
  rwa [slotRow_ofNat]

section
variable {s : State} {w : Nat} {i : Instr}

/-- The record whose row slot 0 holds the word. -/
def placedRecord (w : Nat) : Rec :=
  { hdr := packBits 512 [(10, 6, 1)], slots := [BitVec.ofNat 128 w], switches := [0], pass := 0, smap := [] }

/-- Ring 0 with that record in stripe 0, occupied from the context's TC on. -/
def placedRing (s : State) (w : Nat) : Ring :=
  (s.ring 0).setStripe 0
    { (s.ring 0).stripe 0 with record := some (placedRecord w), occ := some ⟨0, 0, (s.ctx 0).tc, 1, false⟩ }

/-- The state with that ring. -/
def placedRow (s : State) (w : Nat) : State := s.setRing 0 (placedRing s w)

theorem placedRow_ring : (placedRow s w).ring 0 = placedRing s w := State.ring_setRing s 0 _

theorem placedRow_ctx : (placedRow s w).ctx 0 = s.ctx 0 := (congrArg Ring.ctx (placedRow_ring (s := s) (w := w)) :)

theorem placedRow_rowWord : rowWordAt (placedRow s w) 0 0 0 = slotRow (BitVec.ofNat 128 w) := by
  simp only [rowWordAt, placedRow_ring, placedRing, Ring.stripe_setStripe]
  rfl

theorem withFetchWord_eq :
    s.withFetchWord 80 w = { placedRow s w with agenda := [.row 0 0 0 0 0 (s.ctx 0).tc] } :=
  congrArg (fun c : Ctx => { placedRow s w with agenda := [.row 0 0 0 0 0 c.tc] }) placedRow_ctx

end

end Sys2Proof.Machine
end

section
/-!
THE OBLIGATIONS about the step as a whole: what it runs, and the invariant it keeps.
-/

namespace Sys2Proof.Machine

open Sys2Proof Sys2Proof.Safety

/-- Settles O59: every function a step is made of keeps `Sound`. -/
theorem everyStepKeepsTheInvariant : Obligations.EveryStepKeepsTheInvariant :=
  fun _ _ hm ht e => (step_kept ⟨hm, ht⟩).of_next e

/-- Settles O58: at reset no memory holds a byte, and the place within the tick is the first. -/
theorem resetMeetsTheInvariant : Obligations.ResetMeetsTheInvariant :=
  ⟨⟨rfl, fun _ => rfl⟩, (by decide : 0 < 19)⟩

/-- Settles O55, place of issue by place of issue. -/
theorem aStepRunsTheDecodedInstruction : Obligations.AStepRunsTheDecodedInstruction := by
  intro s
  refine ⟨fun g ps col slot inst ent l i ha hu hd => step_row_of_decode ha hu (rowWordAt_eq ▸ hd), ?_, ?_, ?_,
    step_moves_time, ?_⟩
  · intro g l ha hf he hn hd hu hy hr u
    have hc : (u.ctx g).sequences := ⟨hf, he, hn, hd, hu, hy, hr⟩
    rw [step_seq ha]
    exact ⟨fun i t hw ht hi hb hx => runItem_seq_next ((issueStep_of_stepAt hc hw ht hb hi).trans hx),
      fun hw ht hb => runItem_seq_next (issueStep_badSlot hc hw ht hb),
      fun t hw hx => runItem_seq_next ((issueStep_waiting hc hw).trans hx)⟩
  · intro i l ha
    rw [step_event ha]
    exact ⟨fun t => runItem_event_next, runItem_event_notDue⟩
  · intro i l ha hi u
    rw [step_input ha hi]
    refine ⟨fun hm => ?_, fun hm => takeInput_of_not_mayArrive (by exact hm), fun hs hx =>
      takeInput_of_not_mayArrive (mayArrive_of_stopped hs hx)⟩
    rw [takeInput_of_mayArrive (by exact hm)]
    exact ⟨fun t => runItem_event_next, runItem_event_notDue⟩
  · intro w i hw hi hu
    have hd : decodeRow (rowWordAt (placedRow s w) 0 0 0) = .ok i := placedRow_rowWord ▸ decodeRow_of_tableWord hw hi
    have hc : ((placedRow s w).ctx 0).unwinding = none := by rwa [placedRow_ctx]
    rw [withFetchWord_eq]
    obtain ⟨hnext, -, hstop⟩ :=
      step_row_of_decode (s := { placedRow s w with agenda := [.row 0 0 0 0 0 (s.ctx 0).tc] }) rfl hc hd
    exact ⟨{ placedRow s w with agenda := [], focus := ⟨0, 0, 0, 0, 0, (s.ctx 0).tc⟩ }, rfl, rfl, placedRow_ctx,
      fun t ht hf => hnext t ht (.inl hf), hstop⟩

end Sys2Proof.Machine
end

section
/-!
SUPPORT. Instances, the fetch of records, and hoists from the cycle they are due to the cycle they are complete: what each
answers, case by case, and what it leaves as it was.
-/

namespace Sys2Proof.Machine

open Sys2Proof Sys2Proof.Safety

/-! ### Tables, contexts and rings -/

theorem find?_tset_same {α : Type} (m : Table α) (k : Nat) (x : α) :
    (tset m k x).find? (fun e => e.1 == k) = some (k, x) := by
  induction m with
  | nil => simp [tset]
  | cons e r ih =>
    obtain ⟨a, y⟩ := e
    simp only [tset]
    split
    · simp
    · split
      · simp
      · simp [*]

theorem Ctx.evCount_addEv (c : Ctx) (n d : Nat) : (c.addEv n d).evCount n = satAdd 48 (c.evCount n) d := by
  simp [Ctx.addEv, Ctx.evCount]

/-- A request for a record moves only the list of those under way. -/
theorem Ctx.wantRecord_eq (c : Ctx) (n : Nat) : c.wantRecord n = { c with fetching := (c.wantRecord n).fetching } := by
  unfold Ctx.wantRecord
  split <;> rfl

theorem State.onCtx_congr {s : State} {g : Nat} {f f' : Ctx → Ctx} (h : f (s.ctx g) = f' (s.ctx g)) :
    s.onCtx g f = s.onCtx g f' :=
  congrArg (fun c => s.setRing g { s.ring g with ctx := c }) h

theorem bit_setBits_one {n i : Nat} (w : BitVec n) (h : i < n) : bit (setBits w i 1 1) i = true := by
  simp [bit, setBits, h]

/-- A fold keeps what every step keeps of the first component. -/
theorem foldl_fst_eq {α β γ δ : Type} {r : α → γ} {f : α × β → δ → α × β} (hf : ∀ y x, r (f y x).1 = r y.1)
    (l : List δ) (y : α × β) : r (l.foldl f y).1 = r y.1 :=
  List.foldlRecOn (motive := fun z => r z.1 = r y.1) l f rfl fun z hz x _ => (hf z x).trans hz

section
variable {s : State} {g : Nat}

/-! ### Taking a fault (R352) -/

/-- A fault leaves the stripes of its ring, the failure register and the hoist under way. -/
theorem takeFault_keeps (s : State) (g : Nat) (f : FaultRec) :
    ((takeFault s g f).ring g).stripes = (s.ring g).stripes ∧ ((takeFault s g f).ring g).scrf = (s.ring g).scrf ∧
      ((takeFault s g f).ctx g).hoisting = (s.ctx g).hoisting := by
  unfold takeFault
  extract_lets c rec_ s1
  have h1 : (s1.ring g).stripes = (s.ring g).stripes ∧ (s1.ring g).scrf = (s.ring g).scrf ∧
      (s1.ctx g).hoisting = (s.ctx g).hoisting := by simp [s1]
  split
  · exact ⟨rfl, rfl, rfl⟩
  · split
    · simpa [State.ctx] using h1
    · exact h1

/-- A fault that no other has preceded is the context's, unless it is a debug break. -/
theorem takeFault_fault {f : FaultRec} (he : (s.ctx g).ended = false) (hk : (s.ctx g).killed = false)
    (hf : (s.ctx g).fault = none) (hp : (s.ctx g).faultPref = none) (hc : f.cls ≠ 9) :
    ((takeFault s g f).ctx g).fault = some f := by
  simp [takeFault, he, hk, hf, hp, hc]

/-! ### Instances (R22, R23) -/

/-- In the cycle of entry `n` of an occupant that has not been struck, its index and whether an instance enters. -/
theorem entryIndex_at {ps col n : Nat} {o : Occupant} {rc : Rec} (ho : ((s.ring g).stripe ps).occ = some o)
    (hr : ((s.ring g).stripe ps).record = some rc) (hs : o.struck = false)
    (ht : (s.ctx g).tc = o.start + col + n * max (recIi rc) 1) (hn : n < o.n + recMaxStage rc) :
    entryIndex s g ps col = some (n, decide (n < o.n)) := by
  have hpos : 0 < max (recIi rc) 1 := by omega
  have hsince : (s.ctx g).tc - col - o.start = n * max (recIi rc) 1 := by omega
  have hlate : ¬ (o.struck = true ∨ (s.ctx g).tc < o.start + col) := by
    rw [hs, ht]; simp
  simp only [entryIndex, ho, hr, if_neg hlate, hsince, Nat.mul_mod_left, Nat.mul_div_cancel _ hpos]
  exact if_pos ⟨trivial, hn⟩

theorem exec_instanceEntry {ps col n : Nat} {enters : Bool} (h : entryIndex s g ps col = some (n, enters)) :
    exec (.instanceEntry g ps col) s =
      .next (s.onElem g ps col fun e => { e with rb := e.rb - 1, rbIn := if enters then e.rb - 1 else e.rbIn }) := by
  change execInstanceEntry g ps col s = _
  simp only [execInstanceEntry, h]

/-! ### The fetch of a record (R126, R160, R256) -/

/-- The bytes read of record `n`: those of its header, or as many as the header says. -/
def fetchLen (s : State) (g n : Nat) : Nat :=
  max 64 (64 * bits (recOfBytes (peekImage s g (recordVa (s.ctx g) n) 64)).hdr 192 16)

/-- The line requests of the fetch of record `n` counted at their pages (R262). -/
def fetchCounted (s : State) (g n : Nat) : State :=
  countWalks s (dieOf g) (s.ctx g) (recordVa (s.ctx g) n) (fetchLen s g n) .fetch

/-- The error of a record kept for the hoist that needs it. -/
def keepFetchError (s : State) (g n code page : Nat) : State :=
  s.onCtx g fun c => { c with fetching := c.fetching.filter fun x => x != n, fetchBad := tset c.fetchBad n (code + 256 * page) }

theorem exec_configRecordFetch {n : Nat} (hf : (s.ctx g).fetching.contains n = true) (hs : (s.ctx g).fetchStop = none) :
    exec (.configRecordFetch g n) s = .next (fetchRecord s g n) :=
  if_pos ⟨hf, Option.isNone_iff_eq_none.2 hs⟩

section
variable (s g) (n : Nat)

/-- What becomes of the fetch of record `n` once its first `len` bytes are looked for: `t` where they can be reached. -/
def fetchReach (len : Nat) (t : State) : State :=
  (fetchHeap s g (recordVa (s.ctx g) n) len).elim
    ((fetchBadPage s g (recordVa (s.ctx g) n) len).elim t (keepFetchError s g n 15)) (stopScroll s g)

/-- What becomes of it once the whole record is reached: counted at its pages, and checked before it is cached. -/
def fetchChecked : State :=
  let bs := peekImage s g (recordVa (s.ctx g) n) (fetchLen s g n)
  if imagePoisoned s g (recordVa (s.ctx g) n) (fetchLen s g n) then keepFetchError (fetchCounted s g n) g n 17 0
  else (recordCheck bs n (hdrV (s.ctx g).hdr)).elim
    ((fetchCounted s g n).onCtx g fun c => cacheRecord c n (recOfBytes bs)) (keepFetchError (fetchCounted s g n) g n · 0)

/-- A fetch looks for the header, then for the whole record. -/
theorem fetchRecord_eq : fetchRecord s g n = fetchReach s g n 64 (fetchReach s g n (fetchLen s g n) (fetchChecked s g n)) := by
  simp only [fetchRecord, fetchReach, fetchChecked]
  rw [← fetchLen]
  cases fetchHeap s g (recordVa (s.ctx g) n) 64 with
  | some a => rfl
  | none =>
    cases fetchBadPage s g (recordVa (s.ctx g) n) 64 with
    | some p => rfl
    | none =>
      cases fetchHeap s g (recordVa (s.ctx g) n) (fetchLen s g n) with
      | some a => rfl
      | none =>
        cases fetchBadPage s g (recordVa (s.ctx g) n) (fetchLen s g n) with
        | some p => rfl
        | none => cases recordCheck (peekImage s g (recordVa (s.ctx g) n) (fetchLen s g n)) n (hdrV (s.ctx g).hdr) <;> rfl

end

section
variable {n len a p : Nat} {t : State}

theorem fetchReach_heap (h : fetchHeap s g (recordVa (s.ctx g) n) len = some a) :
    fetchReach s g n len t = stopScroll s g a := by
  rw [fetchReach, h, Option.elim_some]

theorem fetchReach_badPage (hh : fetchHeap s g (recordVa (s.ctx g) n) len = none)
    (hp : fetchBadPage s g (recordVa (s.ctx g) n) len = some p) : fetchReach s g n len t = keepFetchError s g n 15 p := by
  rw [fetchReach, hh, hp, Option.elim_none, Option.elim_some]

theorem fetchReach_all (hh : fetchHeap s g (recordVa (s.ctx g) n) len = none)
    (hp : fetchBadPage s g (recordVa (s.ctx g) n) len = none) : fetchReach s g n len t = t := by
  rw [fetchReach, hh, hp, Option.elim_none, Option.elim_none]

theorem fetchChecked_poisoned (h : imagePoisoned s g (recordVa (s.ctx g) n) (fetchLen s g n) = true) :
    fetchChecked s g n = keepFetchError (fetchCounted s g n) g n 17 0 :=
  if_pos h

section
variable (hb : imagePoisoned s g (recordVa (s.ctx g) n) (fetchLen s g n) = false)
include hb

theorem fetchChecked_bad {code : Nat}
    (hc : recordCheck (peekImage s g (recordVa (s.ctx g) n) (fetchLen s g n)) n (hdrV (s.ctx g).hdr) = some code) :
    fetchChecked s g n = keepFetchError (fetchCounted s g n) g n code 0 := by
  refine (if_neg (ne_true_of_eq_false hb)).trans ?_
  rw [hc, Option.elim_some]

theorem fetchChecked_good
    (hc : recordCheck (peekImage s g (recordVa (s.ctx g) n) (fetchLen s g n)) n (hdrV (s.ctx g).hdr) = none) :
    fetchChecked s g n = (fetchCounted s g n).onCtx g fun c =>
      cacheRecord c n (recOfBytes (peekImage s g (recordVa (s.ctx g) n) (fetchLen s g n))) := by
  refine (if_neg (ne_true_of_eq_false hb)).trans ?_
  rw [hc, Option.elim_none]

end
end

/-- A record cached is requested no more and found under its number. -/
theorem cacheRecord_holds (c : Ctx) (n : Nat) (r : Rec) :
    n ∉ (cacheRecord c n r).fetching ∧ ((cacheRecord c n r).cache.find? fun e => e.1 == n) = some (n, r) :=
  ⟨by simp [cacheRecord], find?_tset_same _ n r⟩

/-- A record cached moves only the cache, the requests and the errors kept. -/
theorem onCtx_cacheRecord (s : State) (g n : Nat) (r : Rec) :
    let t := s.onCtx g fun c => cacheRecord c n r
    t = s.onCtx g fun c =>
      { c with cache := (t.ctx g).cache, fetching := (t.ctx g).fetching, fetchBad := (t.ctx g).fetchBad } := by
  intro t
  refine State.onCtx_congr ?_
  simp only [t, State.ctx_onCtx]
  rfl

/-! ### The times of hoists (R91) -/

theorem knowTimes_ring (s : State) (g : Nat) : (knowTimes s g).ring g = { s.ring g with ctx := (knowTimes s g).ctx g } := by
  simp only [knowTimes]
  split
  · split
    · rw [State.ctx_onCtx, State.ring_onCtx]
    · rfl
  · rfl

theorem knowTimes_stripe (s : State) (g ps : Nat) : ((knowTimes s g).ring g).stripe ps = (s.ring g).stripe ps := by
  rw [knowTimes_ring]
  rfl

theorem knowTimes_mem_hub (s : State) (g : Nat) : (knowTimes s g).mem = s.mem ∧ (knowTimes s g).hub = s.hub := by
  simp only [knowTimes]
  split
  · split <;> exact ⟨rfl, rfl⟩
  · exact ⟨rfl, rfl⟩

/-! ### A hoist that is due (R92, R96) -/

/-- Outside a replay no log names a hoist. -/
theorem replayNote_of_no_replay (hn : (s.ctx g).replay = none) {h : Nat} : replayNote s g h = none := by
  simp only [replayNote, replayLog, hn, Option.bind_none]

theorem exec_hoist {t : State} (h : hoistEvent (knowTimes s g) g = some t) : exec (.hoist g) s = .next t := by
  change execHoist g s = _
  simp only [execHoist, h]

section
variable {x : HoistLog} {r : Run} (hx : hoistDue (s.ctx g) = some x) (hr : (s.ctx g).armedRun = some r)
include hx hr

theorem hoistEvent_beyond (hv : hdrV (s.ctx g).hdr ≤ x.vs) : hoistEvent s g = some (hoistFail s g x.vs x.ps 19 x.vs) := by
  simp only [hoistEvent, hx, hr, if_pos hv]

variable (hv : x.vs < hdrV (s.ctx g).hdr)
include hv

theorem hoistEvent_keptError {e : Nat × Nat} (he : (s.ctx g).fetchBad.find? (fun e => e.1 == x.vs) = some e) :
    hoistEvent s g = some (hoistFail s g x.vs x.ps (e.2 % 256) (e.2 / 256)) := by
  simp only [hoistEvent, hx, hr, if_neg (Nat.not_le.2 hv), he]

variable (he : (s.ctx g).fetchBad.find? (fun e => e.1 == x.vs) = none)
include he

theorem hoistEvent_absent (hc : (s.ctx g).cache.find? (fun e => e.1 == x.vs) = none) :
    hoistEvent s g = some (askHold (s.onCtx g fun c => c.wantRecord x.vs) g 3) := by
  simp only [hoistEvent, hx, hr, if_neg (Nat.not_le.2 hv), he, hc]

theorem hoistEvent_cached {rc : Rec} (hc : (s.ctx g).cache.find? (fun e => e.1 == x.vs) = some (x.vs, rc)) :
    hoistEvent s g = some (makeHoist s g r x rc) := by
  simp only [hoistEvent, hx, hr, if_neg (Nat.not_le.2 hv), he, hc]

end

/-! ### A hoist begun (R92) -/

/-- A stripe taken for a hoist of `n` instances: as it was but for its occupant. -/
def Stripe.taken (y : Stripe) (x : HoistLog) (n : Nat) : Stripe := { y with occ := some ⟨x.h, x.vs, x.start, n, false⟩ }

section
variable (s g) (r : Run) (x : HoistLog) (rc : Rec)

theorem makeHoist_ring : (makeHoist s g r x rc).ring g =
    { (s.ring g).setStripe x.ps (((s.ring g).stripe x.ps).taken x ((replayNote s g x.h).elim (runCount r) HoistNote.n)) with
      ctx := (makeHoist s g r x rc).ctx g } := by
  simp only [makeHoist, State.ring_onCtx, State.ctx_onCtx, State.ring_onRing]
  rfl

theorem makeHoist_scrf : ((makeHoist s g r x rc).ring g).scrf = (s.ring g).scrf := by
  rw [makeHoist_ring]
  rfl

theorem makeHoist_stripe : ((makeHoist s g r x rc).ring g).stripe x.ps =
    ((s.ring g).stripe x.ps).taken x ((replayNote s g x.h).elim (runCount r) HoistNote.n) := by
  rw [makeHoist_ring]
  exact Ring.stripe_setStripe (s.ring g) x.ps _

theorem makeHoist_stripe_ne {ps : Nat} (h : ps ≠ x.ps) :
    ((makeHoist s g r x rc).ring g).stripe ps = (s.ring g).stripe ps := by
  rw [makeHoist_ring]
  exact Ring.stripe_setStripe_ne (s.ring g) x.ps ps _ h

theorem makeHoist_ctx : ∃ fetching, (makeHoist s g r x rc).ctx g =
    let c := s.ctx g
    let first := (replayNote s g x.h).elim (!c.hoisted.contains x.vs) fun m => m.restored.isEmpty
    { c with
      hoistNext := c.hoistNext + 1, hoisting := some ⟨x.h, x.vs, x.ps, x.ready - x.hb, rc, first, []⟩,
      hoisted := if first then x.vs :: c.hoisted else c.hoisted,
      cacheUse := tset c.cacheUse x.vs (c.cacheNo + 1), cacheNo := c.cacheNo + 1, fetching := fetching } := by
  simp only [makeHoist, State.ctx_onCtx, State.ctx_onRing]
  split
  · exact ⟨_, Ctx.wantRecord_eq _ _⟩
  · exact ⟨_, rfl⟩

end

/-! ### A hoist that fails (R96) -/

/-- A hoist that fails sets FAIL and takes a fault that names the stripe. -/
theorem hoistFail_eq (s : State) (g vs ps code page : Nat) : ∃ f, f.cls = 4 ∧ f.code = code ∧ f.vs = vs ∧ f.pstr = ps ∧
    hoistFail s g vs ps code page = takeFault (s.onRing g fun r => { r with scrf := setBits r.scrf 17 1 1 }) g f := by
  refine ⟨_, ?_, ?_, ?_, ?_, rfl⟩ <;> split <;> rfl

theorem hoistFail_keeps (s : State) (g vs ps code page : Nat) :
    let t := hoistFail s g vs ps code page
    (t.ring g).stripes = (s.ring g).stripes ∧ (t.ring g).scrf = setBits (s.ring g).scrf 17 1 1 ∧
      (t.ctx g).hoisting = (s.ctx g).hoisting := by
  obtain ⟨f, -, -, -, -, hf⟩ := hoistFail_eq s g vs ps code page
  obtain ⟨hst, hsc, hho⟩ := takeFault_keeps (s.onRing g fun r => { r with scrf := setBits r.scrf 17 1 1 }) g f
  rw [State.ring_onRing] at hst hsc
  rw [State.ctx_onRing] at hho
  exact hf ▸ ⟨hst, hsc, hho⟩

/-- The fault of a hoist that fails is the context's, where it can take one. -/
theorem hoistFail_fault {vs ps code page : Nat} (he : (s.ctx g).ended = false) (hk : (s.ctx g).killed = false)
    (hf : (s.ctx g).fault = none) (hp : (s.ctx g).faultPref = none) :
    ∃ f, ((hoistFail s g vs ps code page).ctx g).fault = some f ∧ f.cls = 4 ∧ f.code = code ∧ f.vs = vs ∧
      f.pstr = ps := by
  obtain ⟨f, hcls, hcode, hvs, hps, hfail⟩ := hoistFail_eq s g vs ps code page
  refine ⟨f, hfail ▸ takeFault_fault ?_ ?_ ?_ ?_ (by omega), hcls, hcode, hvs, hps⟩
  all_goals rwa [State.ctx_onRing]

/-- The hoist under way dropped and its stripe free. -/
def hoistDropped (s : State) (g ps : Nat) : State :=
  (s.onRing g fun r => r.setStripe ps { r.stripe ps with occ := none }).onCtx g fun c => { c with hoisting := none }

theorem hoistDropped_ctx (s : State) (g ps : Nat) : (hoistDropped s g ps).ctx g = { s.ctx g with hoisting := none } := by
  rw [hoistDropped, State.ctx_onCtx, State.ctx_onRing]
  rfl

theorem hoistDropped_occ (s : State) (g ps : Nat) : (((hoistDropped s g ps).ring g).stripe ps).occ = none := by
  simp [hoistDropped, Ring.stripe, Ring.setStripe]

/-! ### A cycle of a hoist under way (R92, R94) -/

section
variable {x : HoistRun} (hx : (s.ctx g).hoisting = some x)
include hx

theorem hoistCycle_last (hl : x.left ≤ 1) : hoistCycle s g = hoistDone s g x := by
  simp only [hoistCycle, hx, restorePart, if_pos hl]

theorem restoreFails_eq : restoreFails s g = hoistFail (hoistDropped s g x.ps) g x.vs x.ps 17 0 := by
  simp only [restoreFails, hx]
  rfl

variable (hl : 1 < x.left)
include hl

/-- A hoist that can restore nothing in a cycle stands. -/
theorem hoistCycle_stands (h : restoreWaits s g = true ∨ restoreBad s g = true) : hoistCycle s g = s := by
  simp only [hoistCycle, hx, restorePart, if_neg (Nat.not_le.2 hl)]
  exact if_pos (Bool.or_eq_true_iff.2 h)

variable (hn : (s.ctx g).replay = none)
include hn

theorem restoreWaits_eq : restoreWaits s g =
    (!x.first && savePending s g (slotBase s g x.vs + x.got.length) (min 128 (recSt x.rc - x.got.length))) := by
  simp [restoreWaits, hx, restorePart, Nat.not_le.2 hl, hn]

theorem restoreBad_eq : restoreBad s g =
    (!x.first && savePoisoned s g (slotBase s g x.vs + x.got.length) (min 128 (recSt x.rc - x.got.length))) := by
  simp [restoreBad, hx, restorePart, Nat.not_le.2 hl, hn]

/-- A first hoist restores zeros, and any other goes on where the next bytes of its slot are whole and written. -/
theorem restore_goes_on (h : x.first = false →
    savePending s g (slotBase s g x.vs + x.got.length) (min 128 (recSt x.rc - x.got.length)) = false ∧
    savePoisoned s g (slotBase s g x.vs + x.got.length) (min 128 (recSt x.rc - x.got.length)) = false) :
    restoreWaits s g = false ∧ restoreBad s g = false := by
  rw [restoreWaits_eq hx hl hn, restoreBad_eq hx hl hn]
  cases hf : x.first with
  | true => exact ⟨rfl, rfl⟩
  | false => exact h hf

/-- Outside a replay a cycle brings in bytes of the slot, or zeros at a first hoist. -/
theorem hoistCycle_restores (hw : restoreWaits s g = false) (hb : restoreBad s g = false) :
    let m := min 128 (recSt x.rc - x.got.length)
    hoistCycle s g = s.onCtx g fun c => { c with
      hoisting := some { x with
        left := x.left - 1,
        got := x.got ++ if x.first then List.replicate m 0 else saveBytes s g (slotBase s g x.vs + x.got.length) m } } := by
  have hr : restoreBytes s g x = saveBytes s g := by
    funext o n
    simp only [restoreBytes, replayNote_of_no_replay hn]
  simp only [hoistCycle, hx, restorePart, if_neg (Nat.not_le.2 hl), hw, hb, hr]
  rfl

end

/-- A hoist given up: its stripe free, FAIL set, no hoist under way, and the fault of the stripe, where the context can
take one. -/
theorem restoreFails_gives_up {x : HoistRun} (hx : (s.ctx g).hoisting = some x) :
    let t := restoreFails s g
    ((t.ring g).stripe x.ps).occ = none ∧ bit (t.ring g).scrf 17 = true ∧ (t.ctx g).hoisting = none ∧
    ((s.ctx g).ended = false → (s.ctx g).killed = false → (s.ctx g).fault = none → (s.ctx g).faultPref = none →
      ∃ f, (t.ctx g).fault = some f ∧ f.cls = 4 ∧ f.code = 17 ∧ f.vs = x.vs ∧ f.pstr = x.ps) := by
  intro t
  have ht : t = hoistFail (hoistDropped s g x.ps) g x.vs x.ps 17 0 := restoreFails_eq hx
  obtain ⟨hst, hsc, hho⟩ := hoistFail_keeps (hoistDropped s g x.ps) g x.vs x.ps 17 0
  rw [ht]
  refine ⟨?_, hsc ▸ bit_setBits_one _ (by decide), hho.trans ?_, fun he hk hf hp => hoistFail_fault ?_ ?_ ?_ ?_⟩
  · rw [Ring.stripe, hst]
    exact hoistDropped_occ s g x.ps
  · rw [hoistDropped_ctx]
  all_goals rwa [hoistDropped_ctx]

/-! ### The elements at the end of a hoist (R92) -/

/-- An element that no state map entry names, at the end of a hoist. -/
def Element.zeroed (e : Element) : Element :=
  { Element.reset with po := e.po, pot := e.pot, flags := e.flags, flagsNew := e.flagsNew, pend := e.pend }

theorem hoistElement_nil (e : Element) (bs : List Byte) : hoistElement e [] bs = e.zeroed := rfl

section
variable (rc : Rec) {k : Nat}

theorem hoistElements_record_occ (n : Nat) : ∀ (x : Stripe) (bs : List Byte),
    (hoistElements rc x bs n).record = x.record ∧ (hoistElements rc x bs n).occ = x.occ := by
  induction n with
  | zero => exact fun x bs => ⟨rfl, rfl⟩
  | succ n ih => exact fun x bs => ih _ _

/-- The elements before the `n` still to be done stand. -/
theorem hoistElements_elem_done (n : Nat) : ∀ (x : Stripe) (bs : List Byte), k < 8 - n →
    (hoistElements rc x bs n).elem k = x.elem k := by
  induction n with
  | zero => exact fun x bs _ => rfl
  | succ n ih =>
    intro x bs hk
    rw [hoistElements, ih _ _ (by omega), Stripe.elem_setElem_ne _ _ _ _ (by omega)]

/-- An element among the `n` still to be done that no entry names starts from zero. -/
theorem hoistElements_elem_unmapped (hm : mapOf rc k = []) (hk : k < 8) (n : Nat) : ∀ (x : Stripe) (bs : List Byte),
    n ≤ 8 → 8 - n ≤ k → (hoistElements rc x bs n).elem k = (x.elem k).zeroed := by
  induction n with
  | zero => intro x bs _ h; omega
  | succ n ih =>
    intro x bs hn h
    rw [hoistElements]
    by_cases he : 8 - (n + 1) = k
    · rw [hoistElements_elem_done rc n _ _ (by omega), he, Stripe.elem_setElem, hm, hoistElement_nil]
    · rw [ih _ _ (by omega) (by omega), Stripe.elem_setElem_ne _ _ _ _ (Ne.symm he)]

end

/-! ### What a replay puts back (R367) -/

/-- What of a ring the values put back leave alone: a stripe's record and occupant, the failure register and the context. -/
def Ring.besides (ps : Nat) (r : Ring) : Option Rec × Option Occupant × BitVec 64 × Ctx :=
  ((r.stripe ps).record, (r.stripe ps).occ, r.scrf, r.ctx)

theorem Ring.besides_onElem (r : Ring) (ps qs k : Nat) (f : Element → Element) :
    (r.onElem qs k f).besides ps = r.besides ps := by
  have h : ((r.onElem qs k f).stripe ps).record = (r.stripe ps).record ∧
      ((r.onElem qs k f).stripe ps).occ = (r.stripe ps).occ := by
    by_cases he : ps = qs
    · subst he
      simp [Ring.onElem, Ring.setElem, Stripe.setElem]
    · simp [Ring.onElem, Ring.setElem, he]
  obtain ⟨hrec, hocc⟩ := h
  rw [Ring.besides, hrec, hocc]
  rfl

theorem putNote_besides (r : Ring) (ps : Nat) (rc : Rec) (first : Bool) (m : HoistNote) :
    (putNote r ps rc first m).besides ps = r.besides ps := by
  refine foldl_fst_eq (fun y k => (Ring.besides_onElem _ _ _ _ _).trans (foldl_fst_eq (fun y o => ?_) _ y)) _ (r, m.regs)
  dsimp only
  split <;> simp only [Ring.besides_onElem]

/-! ### The end of a hoist (R92, R96) -/

theorem hearHoist_ev (c : Ctx) (h n : Nat) (rc : Rec) (r : Ring) (ps : Nat) (bs : List Byte) :
    (hearHoist c h n rc r ps bs).ev = c.ev := by
  unfold hearHoist
  split <;> rfl

/-- The ring whose stripe holds the hoist's configuration and state. -/
def liveRing (r : Ring) (x : HoistRun) : Ring :=
  { r.setStripe x.ps (hoistElements x.rc { r.stripe x.ps with record := some x.rc } x.got 8) with
    scrf := packBits 64 [(32, 32, x.h), (22, 10, x.vs), (18, 4, x.ps)] }

theorem liveRing_besides (r : Ring) (x : HoistRun) : (liveRing r x).besides x.ps =
    (some x.rc, (r.stripe x.ps).occ, packBits 64 [(32, 32, x.h), (22, 10, x.vs), (18, 4, x.ps)], r.ctx) := by
  obtain ⟨hrec, hocc⟩ := hoistElements_record_occ x.rc 8 { r.stripe x.ps with record := some x.rc } x.got
  have hst : (liveRing r x).stripe x.ps = hoistElements x.rc { r.stripe x.ps with record := some x.rc } x.got 8 :=
    Ring.stripe_setStripe r x.ps _
  rw [Ring.besides, hst, hrec, hocc]
  rfl

/-- The ring at the end of a hoist, before its context moves. -/
def doneRing (s : State) (g : Nat) (x : HoistRun) : Ring :=
  (replayNote s g x.h).elim (liveRing (s.ring g) x) (putNote (liveRing (s.ring g) x) x.ps x.rc (x.h == 0))

theorem doneRing_besides (s : State) (g : Nat) (x : HoistRun) : (doneRing s g x).besides x.ps =
    (some x.rc, ((s.ring g).stripe x.ps).occ, packBits 64 [(32, 32, x.h), (22, 10, x.vs), (18, 4, x.ps)], s.ctx g) := by
  refine Eq.trans ?_ (liveRing_besides (s.ring g) x)
  unfold doneRing
  cases replayNote s g x.h with
  | none => rfl
  | some m => exact putNote_besides _ _ _ _ _

theorem hoistDone_eq (s : State) (g : Nat) (x : HoistRun) : ∃ u : State, u.ring g = doneRing s g x ∧
    hoistDone s g x = u.onCtx g fun c =>
      { hearHoist c x.h (((u.ring g).stripe x.ps).occ.elim 0 (·.n)) x.rc (u.ring g) x.ps (if x.first then [] else x.got) with
        hoisting := none }.addEv 7 1 := by
  refine ⟨_, ?_, rfl⟩
  unfold doneRing
  cases replayNote s g x.h with
  | none => exact State.ring_onRing s g _
  | some m => rw [State.ring_onRing, State.ring_onRing]; rfl

theorem hoistDone_ring (s : State) (g : Nat) (x : HoistRun) :
    (hoistDone s g x).ring g = { doneRing s g x with ctx := (hoistDone s g x).ctx g } := by
  obtain ⟨u, hu, hd⟩ := hoistDone_eq s g x
  rw [hd, State.ctx_onCtx, State.ring_onCtx, hu]

theorem hoistDone_stripe (s : State) (g : Nat) (x : HoistRun) : (((hoistDone s g x).ring g).stripe x.ps).record = some x.rc ∧
    (((hoistDone s g x).ring g).stripe x.ps).occ = ((s.ring g).stripe x.ps).occ ∧
    ((hoistDone s g x).ring g).scrf = packBits 64 [(32, 32, x.h), (22, 10, x.vs), (18, 4, x.ps)] := by
  have h := doneRing_besides s g x
  simp only [Ring.besides, Prod.mk.injEq] at h
  obtain ⟨hrec, hocc, hscrf, -⟩ := h
  rw [hoistDone_ring]
  exact ⟨hrec, hocc, hscrf⟩

theorem hoistDone_ctx (s : State) (g : Nat) (x : HoistRun) : ((hoistDone s g x).ctx g).hoisting = none ∧
    ((hoistDone s g x).ctx g).evCount 7 = satAdd 48 ((s.ctx g).evCount 7) 1 := by
  obtain ⟨u, hu, hd⟩ := hoistDone_eq s g x
  have hc : u.ctx g = s.ctx g := congrArg (fun p => p.2.2.2) (hu ▸ doneRing_besides s g x)
  rw [hd, State.ctx_onCtx, Ctx.evCount_addEv]
  refine ⟨rfl, ?_⟩
  rw [Ctx.evCount, hearHoist_ev, hc]
  rfl

/-- Outside a replay only the hoist's own stripe has moved. -/
theorem hoistDone_stripe_ne {x : HoistRun} (hn : (s.ctx g).replay = none) {ps : Nat} (h : ps ≠ x.ps) :
    ((hoistDone s g x).ring g).stripe ps = (s.ring g).stripe ps := by
  rw [hoistDone_ring, doneRing, replayNote_of_no_replay hn]
  exact Ring.stripe_setStripe_ne _ _ _ _ h

/-- Outside a replay an element that no state map entry names starts from zero. -/
theorem hoistDone_elem_unmapped {x : HoistRun} (hn : (s.ctx g).replay = none) {k : Nat} (hk : k < 8) (hm : mapOf x.rc k = []) :
    (hoistDone s g x).elem g x.ps k = (s.elem g x.ps k).zeroed := by
  rw [State.elem, hoistDone_ring, doneRing, replayNote_of_no_replay hn]
  refine (congrArg (Stripe.elem · k) (Ring.stripe_setStripe (s.ring g) x.ps _)).trans ?_
  exact hoistElements_elem_unmapped x.rc hm hk 8 _ _ (Nat.le_refl 8) (by omega)

end

end Sys2Proof.Machine
end

section
/-!
THE OBLIGATION about records, hoists and instances.
-/

namespace Sys2Proof.Machine

open Sys2Proof Sys2Proof.Safety

/-- Settles O32, event by event: the entry of an instance, the fetch of a record, a hoist that is due, a cycle of a hoist
under way. -/
theorem recordsHoistsAndInstances : Obligations.RecordsHoistsAndInstances := by
  unfold Obligations.RecordsHoistsAndInstances
  refine ⟨?entry, fun g s => ⟨?fetch, ?due, ?cycle⟩⟩
  case entry =>
    intro g ps col n s o rc ho hr hs ht hn
    simpa only [decide_eq_true_eq] using exec_instanceEntry (entryIndex_at ho hr hs ht hn)
  case fetch =>
    intro vs hf hs va len u kept keep
    rw [exec_configRecordFetch hf hs, fetchRecord_eq]
    refine ⟨fun a h => congrArg _ (fetchReach_heap h), fun hh p h => congrArg _ (fetchReach_badPage hh h), fun hh hp => ?_,
      fun hh hp hh' hp' hb => ?_⟩
    · rw [fetchReach_all hh hp]
      refine ⟨fun a h => congrArg _ (fetchReach_heap h), fun hh' p h => congrArg _ (fetchReach_badPage hh' h),
        fun hh' hp' hb => ?_⟩
      rw [fetchReach_all (len := fetchLen s g vs) hh' hp']
      exact congrArg _ (fetchChecked_poisoned hb)
    · rw [fetchReach_all hh hp, fetchReach_all (len := fetchLen s g vs) hh' hp']
      refine ⟨fun code hc => congrArg _ (fetchChecked_bad hb hc), fun hc =>
        ⟨_, congrArg _ (fetchChecked_good hb hc), onCtx_cacheRecord u g vs _, ?_⟩⟩
      rw [State.ctx_onCtx]
      exact cacheRecord_holds _ vs _
  case due =>
    intro x r hx hr u c
    refine ⟨fun hv => exec_hoist (hoistEvent_beyond hx hr hv),
      fun hv e he => exec_hoist (hoistEvent_keptError hx hr hv he),
      fun hv he hc => exec_hoist (hoistEvent_absent hx hr hv he hc), fun rc hv he hc => ?_⟩
    intro note
    obtain ⟨fetching, hctx⟩ := makeHoist_ctx u g r x rc
    obtain ⟨hmem, hhub⟩ := knowTimes_mem_hub s g
    refine ⟨makeHoist u g r x rc, exec_hoist (hoistEvent_cached hx hr hv he hc), ?_⟩
    have hst := makeHoist_stripe u g r x rc
    rw [knowTimes_stripe] at hst
    rw [hctx, hst]
    refine ⟨rfl, fun k _ => ?_, ?_, fun ps h => ?_, ⟨_, rfl, fun hn => ?_, fun m hm => ?_⟩, ?_, rfl, rfl, rfl, rfl, rfl,
      rfl, hmem, hhub⟩
    · rw [State.elem, Ring.elem, hst]
      rfl
    · simp only [note]
      cases replayNote u g x.h <;> rfl
    · rw [makeHoist_stripe_ne u g r x rc h, knowTimes_stripe]
    · exact congrArg (Option.elim · _ _) hn
    · exact congrArg (Option.elim · _ _) hm
    · rw [makeHoist_scrf, knowTimes_ring]
  case cycle =>
    intro x hx at_ m inLog
    have hnone : inLog = false → (s.ctx g).replay = none := fun h => by simpa [inLog] using h
    refine ⟨fun hl hn hf hp => ?_, fun hl hn hf hp => ?_, fun hl hn hs => ?_, fun hl => ?_⟩
    · have hw : restoreWaits s g = true := by rw [restoreWaits_eq hx hl (hnone hn), hf]; exact hp
      exact ⟨hw, hoistCycle_stands hx hl (.inl hw)⟩
    · have hb : restoreBad s g = true := by rw [restoreBad_eq hx hl (hnone hn), hf]; exact hp
      exact ⟨hoistCycle_stands hx hl (.inr hb), hb, restoreFails_gives_up hx⟩
    · obtain ⟨hw, hb⟩ := restore_goes_on hx hl (hnone hn) hs
      exact hoistCycle_restores hx hl (hnone hn) hw hb
    · rw [hoistCycle_last hx hl]
      obtain ⟨hrec, hocc, hscrf⟩ := hoistDone_stripe s g x
      obtain ⟨hho, hev⟩ := hoistDone_ctx s g x
      exact ⟨hrec, hocc, hho, hscrf, hev, fun hn => ⟨fun ps h => hoistDone_stripe_ne (hnone hn) h,
        fun k hk hm => hoistDone_elem_unmapped (hnone hn) hk hm⟩⟩

end Sys2Proof.Machine
end

section
/-!
SUPPORT. Bytes written and read back: the two layouts of a scratchpad place the offsets of a block one to one (R77), and a write
to device physical memory goes where its address says (R253, R380).
-/

namespace Sys2Proof.Machine

open Sys2Proof Sys2Proof.Safety

/-! ### The layouts of a block (R77) -/

/-- An exclusive or with one number keeps numbers apart: a second one gives the number back. -/
theorem eq_of_xor_eq_xor {a b c : Nat} (h : a ^^^ c = b ^^^ c) : a = b := by
  have back (x : Nat) : x ^^^ c ^^^ c = x := by rw [Nat.xor_assoc, Nat.xor_self, Nat.xor_zero]
  rw [← back a, h, back b]

/-- The swizzled place of an offset of a block, digit by digit: its bank row, its bank, its chunk of 16 bytes, its byte. -/
theorem placeOf_swizzled {o : Nat} (h : o < 2097152) : placeOf true o =
    2048 * (o / 2048) + 128 * ((o / 128 % 16) ^^^ (o / 2048 % 16)) + 16 * ((o / 16 % 8) ^^^ (o / 128 % 8)) + o % 16 := by
  have hw : o / 128 % 16384 = o / 128 := by omega
  have hrow : o / 128 / 16 = o / 2048 := by omega
  simp only [placeOf, if_true, hw, hrow]
  omega

theorem swizzledBank_lt (o : Nat) : (o / 128 % 16) ^^^ (o / 2048 % 16) < 16 :=
  Nat.xor_lt_two_pow (n := 4) (Nat.mod_lt _ (by decide)) (Nat.mod_lt _ (by decide))

theorem swizzledChunk_lt (o : Nat) : (o / 16 % 8) ^^^ (o / 128 % 8) < 8 :=
  Nat.xor_lt_two_pow (n := 3) (Nat.mod_lt _ (by decide)) (Nat.mod_lt _ (by decide))

/-- Both layouts keep an offset within its block. -/
theorem placeOf_lt (swz : Bool) {o : Nat} (h : o < 2097152) : placeOf swz o < 2097152 := by
  cases swz with
  | false => exact h
  | true =>
    have hb := swizzledBank_lt o
    have hc := swizzledChunk_lt o
    rw [placeOf_swizzled h]
    omega

/-- Both layouts are one to one on a block: a bank is its word's digit under a mask that the bank row gives, and a chunk its
offset's digit under a mask that the word gives. -/
theorem placeOf_inj (swz : Bool) {a b : Nat} (ha : a < 2097152) (hb : b < 2097152) (h : placeOf swz a = placeOf swz b) :
    a = b := by
  cases swz with
  | false => exact h
  | true =>
    have ba := swizzledBank_lt a
    have bb := swizzledBank_lt b
    have ca := swizzledChunk_lt a
    have cb := swizzledChunk_lt b
    rw [placeOf_swizzled ha, placeOf_swizzled hb] at h
    have hrow : a / 2048 = b / 2048 := by omega
    have hbank : (a / 128 % 16) ^^^ (a / 2048 % 16) = (b / 128 % 16) ^^^ (b / 2048 % 16) := by omega
    have hchunk : (a / 16 % 8) ^^^ (a / 128 % 8) = (b / 16 % 8) ^^^ (b / 128 % 8) := by omega
    rw [hrow] at hbank
    have hbankDigit := eq_of_xor_eq_xor hbank
    have hword : a / 128 = b / 128 := by omega
    rw [hword] at hchunk
    have hchunkDigit := eq_of_xor_eq_xor hchunk
    omega

/-- A byte written under a layout is read back under it, and every other byte of the block stands. -/
theorem Ring.spadByte_spadPut {r : Ring} {a b : Nat} (hr : r.spad.wf = true) (ha : a < 2097152) (hb : b < 2097152) (blk : Nat)
    (swz : Bool) (x : Byte) : (r.spadPut blk a swz x).spadByte blk b swz = if b = a then x else r.spadByte blk b swz := by
  simp only [Ring.spadByte, Ring.spadPut, Config.blockBytes, Nat.mod_eq_of_lt ha, Nat.mod_eq_of_lt hb]
  split
  case isTrue h => rw [h, Memory.read_write_same _ _ hr]
  case isFalse h =>
    exact Memory.read_write_ne x (fun e => h (placeOf_inj swz hb ha (Nat.add_left_cancel e))) r.spad

/-! ### Device physical memory (R253, R380) -/

section
variable {s : State} {pa : Nat} (bs : List Byte)

/-- HBM takes bytes, and host memory over a link that is up. -/
theorem busWrite_mem_of_taken (h : isHbm pa = true ∨ (isHost pa = true ∧ s.linkUp (hostFunction s pa) = true)) :
    (s.busWrite pa bs).mem = s.mem.writeN pa bs := by
  unfold State.busWrite
  split
  case isTrue => rfl
  case isFalse hb =>
    obtain ⟨hh, hl⟩ := h.resolve_left hb
    rw [if_pos hh, State.hostWrite, if_pos hl]

theorem isMapped_of_taken (h : isHbm pa = true ∨ (isHost pa = true ∧ s.linkUp (hostFunction s pa) = true)) :
    isMapped pa = true :=
  Bool.or_eq_true_iff.2 (h.imp_right And.left)

theorem physRead_physWrite_same (hs : s.mem.wf = true)
    (h : isHbm pa = true ∨ (isHost pa = true ∧ s.linkUp (hostFunction s pa) = true)) :
    (s.physWrite pa bs).physRead pa bs.length = bs := by
  rw [State.physRead, if_pos (isMapped_of_taken h), physWrite_mem, busWrite_mem_of_taken bs h]
  exact Memory.readN_writeN pa bs hs

theorem busWrite_of_reserved (hb : isHbm pa = false) (hh : isHost pa = false) : s.busWrite pa bs = s := by
  simp [State.busWrite, hb, hh]

theorem busWrite_of_linkDown (hb : isHbm pa = false) (hh : isHost pa = true) (hl : s.linkUp (hostFunction s pa) = false) :
    s.busWrite pa bs = s.hostDrop (hostFunction s pa) := by
  simp [State.busWrite, State.hostWrite, hb, hh, hl]

/-- A write by firmware, a host or a hardware record is the write of its bytes, and touches the shadow of HBM alone besides. -/
theorem physWrite_eq {u : State} (h : s.busWrite pa bs = u) :
    s.physWrite pa bs = { u with shadow := (s.physWrite pa bs).shadow } := by
  subst h
  rfl

end

end Sys2Proof.Machine
end

section
/-!
SUPPORT. What a row that computes leaves alone at issue (R72, R183): its next state is one update of its ring, whose lists of
queues and of banks charged are new, and of its element, which gets results under way and a sideband.
-/

namespace Sys2Proof.Machine

open Sys2Proof Sys2Proof.Safety

/-! ### Updates one after another -/

theorem tset_tset {α : Type} (m : Table α) (k : Nat) (x y : α) : tset (tset m k x) k y = tset m k y := by
  induction m with
  | nil => simp [tset]
  | cons e r ih =>
    obtain ⟨a, z⟩ := e
    simp only [tset]
    split
    · simp [tset]
    · split
      · simp [tset]
      · simp [tset, *]

theorem State.onRing_onRing (s : State) (g : Nat) (f f' : Ring → Ring) :
    (s.onRing g f).onRing g f' = s.onRing g fun r => f' (f r) := by
  simp [State.onRing, State.setRing, State.ring, tset_tset]

theorem Ring.onElem_onElem (r : Ring) (ps k : Nat) (f f' : Element → Element) :
    (r.onElem ps k f).onElem ps k f' = r.onElem ps k fun e => f' (f e) := by
  simp [Ring.onElem, Ring.setElem, Ring.setStripe, Ring.stripe, Ring.elem, Stripe.setElem, Stripe.elem, tset_tset]

/-! ### The one update that a row makes -/

/-- The state with the queues and the charged banks of the ring in focus replaced, and for its element a sideband and results
added to those under way. -/
def State.computed (s : State) (qst : Table QState) (banks : List (Nat × Nat × Nat)) (sb : BitVec 2) (l : List Pend) : State :=
  s.onRing s.focus.ring fun x =>
    ({ x with qst := qst, bankUse := banks } : Ring).onElem s.focus.ps s.focus.col fun e =>
      { e with sb := sb, pend := e.pend ++ l }

/-- The queue states of `s` stand but for that of the queue that a row `r` pops. -/
def popsOnlyUp (r : Row) (s : State) (qst : Table QState) : Prop :=
  ∀ a b, a < 16 → b < 16 → (rowReadsUp r = true → boundQueue s false = some b → a ≠ s.block false) →
    tget qst (16 * a + b) QState.reset = (s.ring s.focus.ring).qstate a b

theorem boundQueue_lt {s : State} {q : Nat} (h : boundQueue s false = some q) : q < 16 := by
  simp only [boundQueue, swUp, Bool.false_eq_true, if_false, Option.ite_none_right_eq_some, Option.some.injEq] at h
  obtain ⟨-, rfl⟩ := h
  exact (BitVec.extractLsb' 6 4 s.switchNow).isLt

theorem popsOnlyUp_tset {r : Row} {s : State} {q : Nat} (hr : rowReadsUp r = true) (hq : boundQueue s false = some q)
    (x : QState) : popsOnlyUp r s (tset (s.ring s.focus.ring).qst (16 * s.block false + q) x) := by
  intro a b _ hb h
  refine tget_tset_ne _ _ _ _ _ fun e => ?_
  have hlt := boundQueue_lt hq
  have hbq : b = q := by omega
  exact h hr (hbq ▸ hq) (by omega)

/-- The entry that a row pops is of the queue bound to `up`. -/
theorem boundQueue_of_upEntry {s : State} {q : Nat} {c : QCfg} {st : QState} {m : QMeta}
    (h : upEntry s = some (q, c, st, m)) : boundQueue s false = some q := by
  unfold upEntry at h
  cases hb : boundQueue s false with
  | none => simp [hb] at h
  | some q' =>
    cases hq : (s.ring s.focus.ring).queue q' with
    | none => simp [hb, hq] at h
    | some c' =>
      simp only [hb, hq] at h
      split at h
      · cases h
      · simp only [Option.ite_none_left_eq_some, Option.some.injEq, Prod.mk.injEq] at h
        obtain ⟨_, _, hqq, _⟩ := h
        exact congrArg some hqq

theorem Ring.useBank_eq (r : Ring) (blk word : Nat) (swz : Bool) :
    r.useBank blk word swz = { r with bankUse := (r.useBank blk word swz).bankUse } := by
  unfold Ring.useBank
  extract_lets u
  split <;> rfl

/-- A row that goes makes one update: of what `State.computed` names, and of no queue but its `up`. -/
theorem addPend_afterUp_eq (r : Row) (s : State) (ps : List Pend) : ∃ qst banks sb l,
    addPend (afterUp r s) ps = s.computed qst banks sb l ∧ popsOnlyUp r s qst := by
  have stands : popsOnlyUp r s (s.ring s.focus.ring).qst := fun _ _ _ _ _ => rfl
  by_cases hr : rowReadsUp r = true
  · cases hu : upEntry s with
    | none => exact ⟨_, (s.ring s.focus.ring).bankUse, s.me.sb, _, by rw [afterUp, if_pos hr, hu]; rfl, stands⟩
    | some x =>
      obtain ⟨q, c, st, m⟩ := x
      refine ⟨_, ((s.ring s.focus.ring).useBank (s.block false) (c.word (st.upPos s.focus)) false).bankUse,
        BitVec.ofBool m.lr ++ BitVec.ofBool m.ls, ps.map fun p => { p with issued := (afterUp r s).now }, ?_,
        popsOnlyUp_tset hr (boundQueue_of_upEntry hu) (st.takeUp s.focus)⟩
      simp only [afterUp, if_pos hr, hu, addPend, State.onMe, State.onElem, State.onRing_focus, State.onRing_onRing,
        Ring.onElem_onElem]
      simp only [State.computed, State.onRing]
      rw [Ring.useBank_eq]
      rfl
  · exact ⟨_, (s.ring s.focus.ring).bankUse, s.me.sb, _, by rw [afterUp, if_neg hr]; rfl, stands⟩

/-! ### What the update leaves alone -/

section
variable (s : State) (qst : Table QState) (banks : List (Nat × Nat × Nat)) (sb : BitVec 2) (l : List Pend)

theorem State.computed_ring_ne {h : Nat} (n : h ≠ s.focus.ring) : (s.computed qst banks sb l).ring h = s.ring h :=
  State.ring_onRing_ne s _ h _ n

theorem State.computed_ring : (s.computed qst banks sb l).ring s.focus.ring =
    ({ s.ring s.focus.ring with qst := qst, bankUse := banks } : Ring).onElem s.focus.ps s.focus.col fun e =>
      { e with sb := sb, pend := e.pend ++ l } :=
  State.ring_onRing s _ _

theorem State.computed_stripe (ps : Nat) :
    (((s.computed qst banks sb l).ring s.focus.ring).stripe ps).record = ((s.ring s.focus.ring).stripe ps).record ∧
    (((s.computed qst banks sb l).ring s.focus.ring).stripe ps).occ = ((s.ring s.focus.ring).stripe ps).occ := by
  rw [State.computed_ring]
  exact ⟨Ring.record_onElem _ _ _ _ _, Ring.occ_onElem _ _ _ _ _⟩

theorem State.computed_elem_ne {ps k : Nat} (n : (ps, k) ≠ (s.focus.ps, s.focus.col)) :
    (s.computed qst banks sb l).elem s.focus.ring ps k = s.elem s.focus.ring ps k := by
  rw [State.elem, State.computed_ring, Ring.elem_onElem_ne _ _ _ _ _ _ fun ⟨hp, hk⟩ => n (by rw [hp, hk])]
  rfl

theorem State.computed_me : (s.computed qst banks sb l).me = { s.me with sb := sb, pend := s.me.pend ++ l } := by
  rw [State.me, State.elem]
  change ((s.computed qst banks sb l).ring s.focus.ring).elem s.focus.ps s.focus.col = _
  rw [State.computed_ring, Ring.elem_onElem]
  rfl

end

/-! ### The rows that compute -/

/-- The rows whose whole effect is a result recorded at issue. -/
def computingRows (r : Row) : List Instr :=
  [.flagrd r, .iter r, .eid r, .lid r, .sid r, .tcrd r, .imov r, .ilui r, .iadd r, .isub r, .imul r, .imulhi r, .imad r,
    .iaddsat r, .isubsat r, .iabs r, .ineg r, .imin r, .imax r, .iand r, .ior r, .ixor r, .inot r, .ishl r, .ishr r,
    .isra r, .irot r, .iclz r, .ipop r, .ibfx r, .ibfi r, .icmpEq r, .icmpNe r, .icmpLt r, .icmpLe r, .icmpGt r,
    .icmpGe r, .fadd r, .fsub r, .fmul r, .ffma r, .ffms r, .fnfma r, .fnfms r, .fmin r, .fmax r, .fabs r, .fneg r,
    .fcopysign r, .fscale r, .fround r, .fclass r, .fcmpEq r, .fcmpNe r, .fcmpLt r, .fcmpLe r, .fcmpGt r, .fcmpGe r,
    .fcmpUn r, .fcmpOrd r, .frcp r, .frsq r, .fsqrt r, .fdiv r, .fexp2 r, .flog2 r, .ftanh r, .cvt r, .packF32 r,
    .packN8 r, .unpackF32 r, .unpackN8 r, .quant r, .fexp8 r, .itof r, .ftoi r, .pselTag r, .pselPred r, .pand r, .por r,
    .pxor r, .pnot r, .pset r, .pmovPred r, .pmovVecToPred r, .pmovPredToVec r, .pany r, .pall r, .lrot r, .lbcast r,
    .lshuf r, .lredAdd r, .lredMax r, .lredMin r, .lscanAdd r, .lzip r, .lunzip r, .accrd r, .xcvt r, .mchk r,
    .mbnd r]

/-- The meaning of a row that computes is a result on its operands, recorded. -/
theorem exec_computingRow (r : Row) (s : State) : ∀ i ∈ computingRows r, ∃ f, exec i s = resultRow i r f s := by
  unfold computingRows
  repeat refine List.forall_mem_cons.2 ⟨⟨_, rfl⟩, ?_⟩
  exact List.forall_mem_nil _

/-- A row that computes and goes makes the one update. -/
theorem computingRow_next {i : Instr} {r : Row} {s t : State} (hi : i ∈ computingRows r) (hg : rowGoes i r s = true)
    (ht : exec i s = .next t) : ∃ qst banks sb l, t = s.computed qst banks sb l ∧ popsOnlyUp r s qst := by
  obtain ⟨f, hf⟩ := exec_computingRow r s i hi
  rw [hf, resultRow_goes i r f s hg, Host.Outcome.next.injEq] at ht
  exact ht ▸ addPend_afterUp_eq r s _

end Sys2Proof.Machine
end

section
/-!
SUPPORT. Poison that reaches a party and the entry of a region's handler (R315, R316): what each answers, and what the rewinding
of the checkpointed streams leaves as it was.
-/

namespace Sys2Proof.Machine

open Sys2Proof Sys2Proof.Safety

theorem State.onCtx_onCtx (s : State) (g : Nat) (f f' : Ctx → Ctx) : (s.onCtx g f).onCtx g f' = s.onCtx g fun c => f' (f c) :=
  State.onRing_onRing s g _ _

section
variable {s : State} {g : Nat}

/-! ### A RAS event (R361) -/

section
variable (s) (kind addr info : Nat) (ctx : BitVec 16) (ring stack pos col : Nat)

theorem hostWrite_copyNext (f pa : Nat) (bs : List Byte) : (s.hostWrite f pa bs).copyNext = s.copyNext := by
  unfold State.hostWrite
  split <;> rfl

theorem physWrite_copyNext (pa : Nat) (bs : List Byte) : (s.physWrite pa bs).copyNext = s.copyNext := by
  change (s.busWrite pa bs).copyNext = _
  unfold State.busWrite
  split
  · rfl
  · split
    · exact hostWrite_copyNext s _ pa bs
    · rfl

/-- A RAS event writes memory and counts in the hub: rings and the number of the next copy stand. -/
theorem rasEvent_keeps : (s.rasEvent kind addr info ctx ring stack pos col).rings = s.rings ∧
    (s.rasEvent kind addr info ctx ring stack pos col).copyNext = s.copyNext := by
  unfold State.rasEvent
  extract_lets w
  split
  · exact ⟨rfl, rfl⟩
  · exact ⟨physWrite_rings s _ _, physWrite_copyNext s _ _⟩

theorem rasEvent_ctx : (s.rasEvent kind addr info ctx ring stack pos col).ctx g = s.ctx g := by
  rw [State.ctx, State.ring, (rasEvent_keeps s kind addr info ctx ring stack pos col).1]
  rfl

end

/-! ### Poison consumed (R315) -/

/-- The state with the RAS event of poison that a party of ring g has consumed posted. -/
def poisonReported (s : State) (g cls : Nat) (f : FaultRec) : State :=
  s.rasEvent 1 f.addr.toNat 0 (s.ctx g).id g (if cls = 1 ∨ cls = 3 then hbmStack f.addr.toNat else 15) f.pstr f.col

theorem poisonReported_ctx (cls : Nat) (f : FaultRec) : (poisonReported s g cls f).ctx g = s.ctx g :=
  rasEvent_ctx s _ _ _ _ _ _ _ _

theorem poisonReported_copyNext (cls : Nat) (f : FaultRec) : (poisonReported s g cls f).copyNext = s.copyNext :=
  (rasEvent_keeps s _ _ _ _ _ _ _ _).2

/-- An event counted by the region of a number. -/
def Ctx.countEvent (id : Nat) (c : Ctx) : Ctx :=
  { c with regions := c.regions.map fun x => if x.id = id then { x with nev := min 255 (x.nev + 1) } else x }

/-- An unwinding begun. -/
def Ctx.unwind (u : Unwind) (c : Ctx) : Ctx := { c with unwinding := some u, wait := none }

theorem consumePoisonAt_outside (h : (s.ctx g).regions = []) (cls at_ : Nat) (f : FaultRec) :
    consumePoisonAt s g cls at_ f = takeFault (poisonReported s g cls f) g f := by
  unfold consumePoisonAt
  simp only [h]
  rfl

/-- Inside regions the innermost counts the event, and an unwinding begins where none is under way. -/
theorem consumePoisonAt_innermost {l : List Region} {x : Region} (h : (s.ctx g).regions.reverse = x :: l) (cls at_ : Nat)
    (f : FaultRec) : consumePoisonAt s g cls at_ f =
      if (s.ctx g).unwinding.isSome = true then (poisonReported s g cls f).onCtx g (Ctx.countEvent x.id)
      else ((poisonReported s g cls f).onCtx g (Ctx.countEvent x.id)).onCtx g
        (Ctx.unwind ⟨x.id, cls, at_, (poisonReported s g cls f).copyNext⟩) := by
  unfold consumePoisonAt
  simp only [h]
  rfl

/-- An event in a region that no other has the number of. -/
theorem Ctx.countEvent_innermost {c : Ctx} {l : List Region} {x : Region} (h : c.regions = l ++ [x])
    (hl : ∀ y ∈ l, y.id ≠ x.id) :
    c.countEvent x.id = { c with regions := l ++ [{ x with nev := min 255 (x.nev + 1) }] } := by
  rw [Ctx.countEvent, h, List.map_append, List.map_congr_left fun y hy => if_neg (hl y hy), List.map_id']
  simp

theorem consumePoisonAt_inside {l : List Region} {x : Region} (h : (s.ctx g).regions = l ++ [x]) (hl : ∀ y ∈ l, y.id ≠ x.id)
    (cls at_ : Nat) (f : FaultRec) : consumePoisonAt s g cls at_ f = (poisonReported s g cls f).onCtx g fun c => { c with
      regions := l ++ [{ x with nev := min 255 (x.nev + 1) }],
      unwinding := if c.unwinding.isSome = true then c.unwinding else some ⟨x.id, cls, at_, s.copyNext⟩,
      wait := if c.unwinding.isSome = true then c.wait else none } := by
  rw [consumePoisonAt_innermost (by rw [h, List.reverse_concat]), poisonReported_copyNext, State.onCtx_onCtx]
  split
  case isTrue hu =>
    refine State.onCtx_congr ?_
    simp only [poisonReported_ctx, Ctx.countEvent_innermost h hl, hu, if_true]
  case isFalse hu =>
    refine State.onCtx_congr ?_
    simp only [poisonReported_ctx, Ctx.countEvent_innermost h hl, Ctx.unwind, hu, if_false, Bool.false_eq_true]

theorem exec_poison_data (hb : (s.ring g).bound = true) (hf : (s.ctx g).fault = none) (cls : Fin 16) (addr : BitVec 64) :
    exec (.poisonConsumption g (.data cls) addr) s =
      .next (consumePoisonAt s g cls.val (s.ctx g).nextTc (faultAt s g 7 cls.val 0 addr)) :=
  if_pos ⟨hb, Option.isNone_iff_eq_none.2 hf⟩

/-! ### Checkpointed streams rewound (R316 step 3) -/

/-- What the rewinding of checkpointed streams leaves: the context but for its streams, memory, the hub and the scratchpad; of
the requests it only drops some. -/
def RewindKeeps (g : Nat) (s t : State) : Prop :=
  t.ctx g = { s.ctx g with streams := (t.ctx g).streams } ∧ t.mem = s.mem ∧ t.hub = s.hub ∧
    (t.ring g).spad = (s.ring g).spad ∧ t.reqs ⊆ s.reqs

theorem rewindMark_ctx (s : State) (g : Nat) (m : Nat × Stream) :
    (rewindMark s g m).ctx g = (s.ctx g).setStream m.1 { m.2 with stopped := none } := by
  rw [rewindMark, State.ctx_onCtx, State.ctx_onRing]
  rfl

theorem rewindMark_keeps (s : State) (g : Nat) (m : Nat × Stream) : RewindKeeps g s (rewindMark s g m) := by
  refine ⟨?_, rfl, rfl, ?_, fun q hq => (List.mem_filter.1 hq).1⟩
  · rw [rewindMark_ctx]
    rfl
  · rw [rewindMark, State.ring_onCtx, State.ring_onRing]
    rfl

theorem RewindKeeps.trans {s t u : State} (h : RewindKeeps g s t) (h' : RewindKeeps g t u) : RewindKeeps g s u := by
  obtain ⟨hc, hm, hh, hp, hr⟩ := h
  obtain ⟨hc', hm', hh', hp', hr'⟩ := h'
  refine ⟨?_, hm'.trans hm, hh'.trans hh, hp'.trans hp, fun q hq => hr (hr' hq)⟩
  rw [hc', hc]

/-- The streams of a list of marks rewound, in order. -/
def rewindMarks (s : State) (g : Nat) (marks : List (Nat × Stream)) : State := marks.foldl (fun s m => rewindMark s g m) s

theorem rewindMarks_keeps (g : Nat) (marks : List (Nat × Stream)) (s : State) : RewindKeeps g s (rewindMarks s g marks) := by
  induction marks generalizing s with
  | nil => exact ⟨rfl, rfl, rfl, rfl, fun _ h => h⟩
  | cons m marks ih => exact (rewindMark_keeps s g m).trans (ih _)

/-- A stream that no mark names stands. -/
theorem rewindMarks_stream_ne {n : Nat} (marks : List (Nat × Stream)) (s : State) (h : ∀ e ∈ marks, e.1 ≠ n) :
    ((rewindMarks s g marks).ctx g).stream n = (s.ctx g).stream n := by
  induction marks generalizing s with
  | nil => rfl
  | cons m marks ih =>
    obtain ⟨hm, hms⟩ := List.forall_mem_cons.1 h
    refine (ih _ hms).trans ?_
    rw [rewindMark_ctx]
    exact tget_tset_ne _ _ _ _ _ (Ne.symm hm)

/-! ### The step in progress given up (R316 step 4) -/

theorem abandonStep_reads {q : Req} (hq : q ∈ (abandonStep s g).reqs) (hg : q.ring = g) (hc : q.ctx = (s.ctx g).id)
    (hp : q.party = .seq) : q.kind ≠ .read := by
  obtain ⟨p, hp', rfl⟩ := List.mem_map.1 hq
  obtain ⟨-, hk⟩ := List.mem_filter.1 hp'
  intro hr
  by_cases h : (p.ring == g && p.ctx == (s.ctx g).id && p.party == .seq) = true ∧ p.kind = .atomic ∧
      (p.done.isSome = true ∨ p.poison = true)
  · rw [if_pos h] at hr
    exact absurd (h.2.1.symm.trans hr) (by decide)
  · rw [if_neg h] at hg hc hp hr
    simp [hg, hc, hp, hr] at hk

/-! ### The handler entered (R315, R316 step 4) -/

/-- The context at the entry of the handler of a region. -/
def Ctx.atHandler (c : Ctx) (r : Region) (cls : Nat) : Ctx :=
  (({ c with
      regions := (c.regions.takeWhile fun x => x.id != r.id) ++ [{ r with hit := true }],
      rstack := c.rstack.take r.depth, unwinding := none, wait := none,
      dividers := c.dividers.filter fun d => d.streams.isSome,
      runs := c.runs.map fun x => { x with done := true } } : Ctx).setK 15 (eventWord r cls)).setLine 13 true |>.setLine 0 true

theorem bit_setBit_same {n i : Nat} (w : BitVec n) (h : i < n) : bit (setBit w i true) i = true := by
  simp [bit, setBit, h]

theorem bit_setBit_ne {n i j : Nat} (w : BitVec n) (h : j ≠ i) : bit (setBit w i true) j = bit w j := by
  have hji : (decide (j < n) && !decide (j < i) && (decide (0 < n) && decide (j - i = 0))) = false := by
    simp
    omega
  simp only [bit, setBit, if_true, BitVec.getLsbD_or, BitVec.getLsbD_shiftLeft, BitVec.getLsbD_one, hji, Bool.or_false]

theorem secondWords_congr {c c' : Ctx} (h : c'.stable = c.stable) (n : Nat) :
    ∀ i, secondWords c' n i = secondWords c n i := by
  have hw : ∀ i, c'.slotWord i = c.slotWord i := fun i => by rw [Ctx.slotWord, h]; rfl
  induction n with
  | zero => exact fun i => rfl
  | succ n ih => exact fun i => by simp only [secondWords, hw, ih]

theorem isSecondWord_congr {c c' : Ctx} (hs : c'.stable = c.stable) (hh : c'.hdr = c.hdr) (i : Nat) :
    isSecondWord c' i = isSecondWord c i := by
  rw [isSecondWord, isSecondWord, hh, secondWords_congr hs]

theorem enterState_of_enters {target info : Nat} (hl : target < hdrStlen (s.ctx g).hdr)
    (h2 : isSecondWord (s.ctx g) target = false) :
    enterState s g target info = s.onCtx g fun c => { c with si := target, wait := none } :=
  if_neg fun h => h.elim (Nat.not_le.2 hl) fun h => Bool.false_ne_true (h2.symm.trans h)

section
variable {u : Unwind} {l l' : List Region} {r : Region} (hr : r.id = u.region) (hl : ∀ x ∈ l, x.id ≠ u.region)
include hr hl

theorem find?_region : (l ++ r :: l').find? (fun x => x.id == u.region) = some r := by
  rw [List.find?_append, List.find?_eq_none.2 fun x hx => by simpa using hl x hx]
  simp [hr]

theorem takeWhile_outer : (l ++ r :: l').takeWhile (fun x => x.id != r.id) = l := by
  rw [List.takeWhile_append_of_pos fun x hx => by simpa [hr] using hl x hx]
  simp

/-- The entry of a handler: the step in progress given up, the checkpointed streams rewound, and control at the handler. -/
theorem exec_handlerEntry (hu : (s.ctx g).unwinding = some u) (hg : (s.ctx g).regions = l ++ r :: l')
    (ho : unwindOver s g u = true) : exec (.containmentHandlerEntry g) s = .next (enterState
      ((rewindMarks (abandonStep s g) g r.marks).onCtx g fun c => c.atHandler r u.cls) g r.hnd r.hnd) := by
  change execContainmentHandlerEntry g s = _
  unfold execContainmentHandlerEntry
  simp only [hu, hg, find?_region hr hl, ho, Bool.not_true, Bool.false_eq_true, if_false]
  rfl

end

/-- A state with the handler of region `r` entered, for an unwinding of class `cls`. -/
def handlerEntered (s : State) (g : Nat) (r : Region) (cls : Nat) : State :=
  (rewindMarks (abandonStep s g) g r.marks).onCtx g fun c => { c.atHandler r cls with si := r.hnd, wait := none }

/-- The handler is entered where the state table has it and it is no second word. -/
theorem enterState_handler {r : Region} (cls : Nat) (hh : r.hnd < hdrStlen (s.ctx g).hdr)
    (h2 : isSecondWord (s.ctx g) r.hnd = false) :
    enterState ((rewindMarks (abandonStep s g) g r.marks).onCtx g fun c => c.atHandler r cls) g r.hnd r.hnd =
      handlerEntered s g r cls := by
  obtain ⟨hc, -⟩ := rewindMarks_keeps g r.marks (abandonStep s g)
  have hctx : ((rewindMarks (abandonStep s g) g r.marks).onCtx g fun c => c.atHandler r cls).ctx g =
      ({ s.ctx g with streams := ((rewindMarks (abandonStep s g) g r.marks).ctx g).streams } : Ctx).atHandler r cls := by
    rw [State.ctx_onCtx, hc]
    rfl
  rw [enterState_of_enters, State.onCtx_onCtx]
  · rfl
  · rw [hctx]
    exact hh
  · rw [hctx, ← h2]
    refine isSecondWord_congr ?_ ?_ r.hnd
    · rfl
    · rfl

theorem handlerEntered_ctx (s : State) (g : Nat) (r : Region) (cls : Nat) : (handlerEntered s g r cls).ctx g =
    { ({ s.ctx g with streams := ((rewindMarks (abandonStep s g) g r.marks).ctx g).streams } : Ctx).atHandler r cls with
      si := r.hnd, wait := none } := by
  obtain ⟨hc, -⟩ := rewindMarks_keeps g r.marks (abandonStep s g)
  rw [handlerEntered, State.ctx_onCtx, hc]
  rfl

section
variable (s g) (r : Region) (cls : Nat)

theorem handlerEntered_k : ((handlerEntered s g r cls).ctx g).k = tset (s.ctx g).k 15 (eventWord r cls) :=
  congrArg Ctx.k (handlerEntered_ctx s g r cls)

theorem handlerEntered_a : ((handlerEntered s g r cls).ctx g).a = (s.ctx g).a :=
  (congrArg Ctx.a (handlerEntered_ctx s g r cls) :)

theorem handlerEntered_sl : ((handlerEntered s g r cls).ctx g).sl = setBit (setBit (s.ctx g).sl 13 true) 0 true :=
  congrArg Ctx.sl (handlerEntered_ctx s g r cls)

theorem handlerEntered_regions : ((handlerEntered s g r cls).ctx g).regions =
    ((s.ctx g).regions.takeWhile fun x => x.id != r.id) ++ [{ r with hit := true }] :=
  congrArg Ctx.regions (handlerEntered_ctx s g r cls)

theorem handlerEntered_runs_done {x : Run} (hx : x ∈ ((handlerEntered s g r cls).ctx g).runs) : x.done = true := by
  have h : ((handlerEntered s g r cls).ctx g).runs = (s.ctx g).runs.map fun x => { x with done := true } :=
    congrArg Ctx.runs (handlerEntered_ctx s g r cls)
  rw [h] at hx
  obtain ⟨y, -, rfl⟩ := List.mem_map.1 hx
  rfl

theorem handlerEntered_dividers_named {d : Divider} (hd : d ∈ ((handlerEntered s g r cls).ctx g).dividers) :
    d.streams.isSome = true := by
  have h : ((handlerEntered s g r cls).ctx g).dividers = (s.ctx g).dividers.filter fun d => d.streams.isSome :=
    congrArg Ctx.dividers (handlerEntered_ctx s g r cls)
  rw [h] at hd
  exact (List.mem_filter.1 hd).2

theorem handlerEntered_stream (n : Nat) : ((handlerEntered s g r cls).ctx g).stream n =
    ((rewindMarks (abandonStep s g) g r.marks).ctx g).stream n :=
  (congrArg (Ctx.stream · n) (handlerEntered_ctx s g r cls) :)

/-- A stream without a mark stands. -/
theorem handlerEntered_stream_ne {n : Nat} (h : ∀ e ∈ r.marks, e.1 ≠ n) :
    ((handlerEntered s g r cls).ctx g).stream n = (s.ctx g).stream n :=
  (handlerEntered_stream s g r cls n).trans (rewindMarks_stream_ne r.marks (abandonStep s g) h)

/-- The one checkpointed stream is where its mark says, and is not stopped. -/
theorem handlerEntered_stream_marked {n : Nat} {x : Stream} (h : r.marks = [(n, x)]) :
    ((handlerEntered s g r cls).ctx g).stream n = { x with stopped := none } := by
  rw [handlerEntered_stream, h]
  exact (congrArg (Ctx.stream · n) (rewindMark_ctx _ g (n, x))).trans (tget_tset_same _ _ _ _)

/-- What the entry of a handler leaves besides the context. -/
theorem handlerEntered_keeps : (handlerEntered s g r cls).mem = s.mem ∧
    ((handlerEntered s g r cls).ring g).spad = (s.ring g).spad ∧ (handlerEntered s g r cls).hub = s.hub ∧
    (handlerEntered s g r cls).reqs ⊆ (abandonStep s g).reqs := by
  obtain ⟨-, hm, hh, hp, hr⟩ := rewindMarks_keeps g r.marks (abandonStep s g)
  refine ⟨hm, ?_, hh, hr⟩
  rw [handlerEntered, State.ring_onCtx]
  exact hp

end

end

end Sys2Proof.Machine
end

section
/-!
SUPPORT. A state in which a save cycle writes memory: a request already bears the number that the write of the overflow
is to get, and it is that one which the fabric translates, and posts as a fault.
-/

namespace Sys2Proof.Machine

open Sys2Proof Sys2Proof.Safety

/-- A read at address 0 of address space 0, which is not live, numbered 0. -/
def staleRead : Req :=
  { id := 0, ring := 0, ctx := 0, asid := 0, party := .seq, kind := .read, parts := [.new (.virt 0) [0]], wdi := 0, lines := 0,
    tc := 0, purpose := .other, done := none, stop := none, poison := false, cls := 0, line := 0, stale := false }

/-- After reset, with context 0 bound on ring 0 without a carve-out, one byte of stripe 0 still to be saved, and `staleRead`
issued though the next request is to be number 0 too. -/
def staleSave : State :=
  { State.reset with
    reqs := [staleRead],
    rings := [(0, { Ring.reset with bound := true, stripes := [(0, { Stripe.reset with saveLeft := [1] })] })] }

/-- The next cycle of the save posts the fault of the stale read: its record, valid in bit 0, goes to address 0. -/
theorem staleSave_writes_fault_record : (writeNext staleSave 0 0).mem.read 0 = 1 := by decide +kernel

end Sys2Proof.Machine
end

section
/-!
THE OBLIGATIONS about stripes and rings: what rows that compute leave alone, strikes and frees, holds and containment, and bytes
read back.
-/

namespace Sys2Proof.Machine

open Sys2Proof Sys2Proof.Safety

/-- Settles O60: device physical memory by the kind of its address, a scratchpad by the digits of its layouts. -/
theorem bytesReadBack : Obligations.BytesReadBack := by
  intro s
  refine ⟨fun pa bs hs => ⟨fun h => ⟨physRead_physWrite_same bs hs h, fun a ha => ?_⟩, fun hb hh => ?_, fun hb hh hl => ?_⟩,
    fun swz a b ha hb => ⟨placeOf_lt swz ha, placeOf_inj swz ha hb⟩,
    fun g blk a b swz x hr ha hb => Ring.spadByte_spadPut hr ha hb blk swz x⟩
  · rw [physWrite_mem, busWrite_mem_of_taken bs h]
    exact Memory.read_writeN_out bs s.mem pa a ha
  · exact physWrite_eq bs (busWrite_of_reserved bs hb hh)
  · exact physWrite_eq bs (busWrite_of_linkDown bs hb hh hl)

/-- Settles O18, from the one update that such a row makes. -/
theorem computingRowsChangeNothingElse : Obligations.ComputingRowsChangeNothingElse := by
  intro r s t i hi hg ht g
  obtain ⟨qst, banks, sb, l, rfl, hq⟩ := computingRow_next hi hg ht
  refine ⟨rfl, fun h hn => s.computed_ring_ne qst banks sb l hn, ?_, s.computed_stripe qst banks sb l,
    fun ps k hn => s.computed_elem_ne qst banks sb l hn, ?_, ⟨l, ?_⟩, fun a b ha hb hn => ?_⟩
  · rw [State.computed_ring]
    rfl
  · rw [State.computed_me]
    rfl
  · rw [State.computed_me]
  · rw [State.computed_ring]
    exact hq a b ha hb hn

/-- Settles O34, event by event; the handler's entry from what the rewinding of the checkpointed streams leaves. -/
theorem holdsGatesAndContainment : Obligations.HoldsGatesAndContainment := by
  refine ⟨fun g s => ⟨fun hc ha => if_pos ⟨hc, ha⟩, fun hb hc h5 hl hf => if_pos ⟨hb, hc, h5, hl, by rw [hf]; rfl⟩,
    fun ps col hm hi hg => if_pos ⟨hm, hi, by rw [hg]; rfl⟩, fun cls addr hb hf => ?poison, fun n addr => rfl,
    fun i addr hb => if_pos hb, fun vs addr hb => ?record⟩, ?handler⟩
  case poison =>
    have he := exec_poison_data hb hf cls addr
    refine ⟨fun hr => ?_, fun l x hr hl => ?_⟩
    · rw [he, consumePoisonAt_outside hr]
      rfl
    · rw [he, consumePoisonAt_inside hr hl]
      refine congrArg Host.Outcome.next (State.onCtx_congr ?_)
      rw [poisonReported_ctx]
      rfl
  case record =>
    refine ⟨s.onCtx g fun c => { c with cache := tdel c.cache vs, fetchBad := tset c.fetchBad vs 17 }, if_pos hb, ?_⟩
    rw [State.ctx_onCtx]
    exact ⟨rfl, rfl, State.onCtx_congr rfl⟩
  case handler =>
    intro g s u l r l' c hu hg hr hl ho hf hh h2
    obtain ⟨hmem, hspad, hhub, hreqs⟩ := handlerEntered_keeps s g r u.cls
    have hctx := handlerEntered_ctx s g r u.cls
    have hk := handlerEntered_k s g r u.cls
    have hsl := handlerEntered_sl s g r u.cls
    refine ⟨handlerEntered s g r u.cls, ?_, congrArg Ctx.si hctx, congrArg Ctx.wait hctx, congrArg Ctx.unwinding hctx, ?_,
      congrArg Ctx.rstack hctx, ?_, fun n hn => ?_, handlerEntered_a s g r u.cls, ?_, ?_, fun n h0 h13 => ?_,
      fun x => handlerEntered_runs_done s g r u.cls, fun d => handlerEntered_dividers_named s g r u.cls,
      fun n => handlerEntered_stream_ne s g r u.cls, fun n x => handlerEntered_stream_marked s g r u.cls,
      fun q hq => abandonStep_reads (hreqs hq), hmem, hspad, hhub⟩
    · rw [exec_handlerEntry hr hl hu hg ho, enterState_handler u.cls hh h2]
    · rw [handlerEntered_regions, hg, takeWhile_outer hr hl]
    · rw [Ctx.kreg, hk, tget_tset_same]
      rfl
    · rw [Ctx.kreg, hk, tget_tset_ne _ _ _ _ _ hn]
      rfl
    · rw [hsl, bit_setBit_ne _ (by decide), bit_setBit_same _ (by decide)]
    · rw [hsl, bit_setBit_same _ (by decide)]
    · rw [hsl, bit_setBit_ne _ h0, bit_setBit_ne _ h13]

/-- Refutes O33: a further cycle of a save keeps memory where the number of the next request is free, which the statement
does not ask. In `staleSave` it is taken: the write of the overflow is issued under it, the read found first by that number is
translated in its place and faults, and the record of the fault is written to memory. -/
theorem not_strikesAndFrees : ¬ Obligations.StrikesAndFrees := by
  intro h
  obtain ⟨-, hsave, -⟩ := h 0 staleSave
  obtain ⟨-, -, hmem, -⟩ := hsave 0 (by decide)
  have hread := staleSave_writes_fault_record
  rw [hmem] at hread
  exact absurd hread (by decide)

end Sys2Proof.Machine
end
